-- ==== Sys2Proof/Word.lean ====
section
/-! DEFINITION. The plain words of the model: bytes of the link and readings of the timebase. -/

namespace Sys2Proof

/-- One byte of a frame. -/
abbrev Byte := BitVec 8

/-- A reading of the 32-bit millisecond timebase (R2, R8): it wraps, and so do differences. -/
abbrev Time := BitVec 32

/-- A press unit, 0..3 (00 section 1.8). -/
abbrev PressNo := Fin 4

/-- A heated zone, 0..47 (00 section 1.8). -/
abbrev ZoneNo := Fin 48

/-- A charge scale, 0..1 (00 section 1.8). -/
abbrev ScaleNo := Fin 2

/-- The two link ports (00 section 1.4): U faces the controller, D the field nodes. -/
inductive Port where
  | U
  | D
deriving DecidableEq, Repr

/-- A frame received on one port is forwarded on the other (R20). -/
def Port.other : Port → Port
  | .U => .D
  | .D => .U

end Sys2Proof
end

