-- ==== Sys2Proof/Syntax.lean ====
section
/-! DEFINITION. The commands of the block: one constructor per row of spec/opcode_table.json, in the
table's order.

A row that is a received frame carries the frame's bytes, all of them, from the header's first byte to
the check's last (R6); the row names what the sender expects the frame to be, and the part decides by
the bytes (log 1). A row that is an expiry carries the press or scale whose timer it is. -/

namespace Sys2Proof

/-- One command of the block. -/
inductive Instr where
  /-- POWER_ON_RESET. RESET_N is released (R196). -/
  | powerOnReset
  /-- RESET_N_ASSERT. RESET_N is driven low (R196). -/
  | resetNAssert
  /-- TIMEBASE_TICK. One millisecond passes (R8). -/
  | timebaseTick
  /-- CHECK_FAILED_FRAME. A frame that fails the receive check ends on a port (R7). -/
  | checkFailedFrame (port : Port) (bytes : List Byte)
  /-- PASSIVE_FORWARD. A frame ends on a port of a PASSIVE part (R5). -/
  | passiveForward (port : Port) (bytes : List Byte)
  /-- FORWARD_FRAME. A frame that the part forwards ends on a port (R17, R18, R19). -/
  | forwardFrame (port : Port) (bytes : List Byte)
  /-- DISCARD_OWN_ADDRESS_FRAME. A frame for the own address that is no MGMT_REQ ends on Port U (R13). -/
  | discardOwnAddressFrame (bytes : List Byte)
  /-- FOREIGN_MGMT_REQ. A MGMT_REQ from a source that is not the controller ends on Port U (R13). -/
  | foreignMgmtReq (bytes : List Byte)
  /-- FIELD_MGMT_REQ. A MGMT_REQ ends on Port D (R19). -/
  | fieldMgmtReq (bytes : List Byte)
  /-- MGMT_REQ_DROPPED_PENDING. A MGMT_REQ ends on Port U while a reset is pending (R192). -/
  | mgmtReqDroppedPending (bytes : List Byte)
  /-- MGMT_BAD_REQUEST. A MGMT_REQ that spells no request ends on Port U (R190). -/
  | mgmtBadRequest (bytes : List Byte)
  /-- TRANSMIT_START. A port's arbiter starts a transmission (R22). -/
  | transmitStart (port : Port)
  /-- TRANSMIT_END. A port's transmission ends (R22). -/
  | transmitEnd (port : Port)
  /-- LINK_PIN_EXPIRY. The LINK pin's 50 ms are over (R26). -/
  | linkPinExpiry
  /-- THERMO_SAMPLE. A SAMPLE of a THERMO node ends on Port D (R51). -/
  | thermoSample (bytes : List Byte)
  /-- WINDOW_END. A press's heat window timer expires (R70). -/
  | windowEnd (press : PressNo)
  /-- DWELL_EXPIRY. A press's dwell timer expires (R93). -/
  | dwellExpiry (press : PressNo)
  /-- MAX_CURE_EXPIRY. A press's max cure timer expires (R95). -/
  | maxCureExpiry (press : PressNo)
  /-- SCALE_SAMPLE. A SAMPLE of a SCALE node ends on Port D (R104). -/
  | scaleSample (bytes : List Byte)
  /-- LIFT_TIMER_EXPIRY. A scale's lift timer expires (R116). -/
  | liftTimerExpiry (scale : ScaleNo)
  /-- PRESS_STATUS. A STATUS of a PRESS node ends on Port D (R126). -/
  | pressStatus (bytes : List Byte)
  /-- EXPORT_MOVE. The export queue's head is moved to Port U OWN (R181). -/
  | exportMove
  /-- EJECTOR_STATUS. A STATUS of an EJECTOR node ends on Port D (R151). -/
  | ejectorStatus (bytes : List Byte)
  /-- COMPARE_A. An ejector timer reaches compare A (R147). -/
  | compareA (press : PressNo)
  /-- COMPARE_B. An ejector timer reaches compare B (R148). -/
  | compareB (press : PressNo)
  /-- EJECT_OFF_PLACE. Owed EJECT_OFF frames take free places of Port D OWN (R153). -/
  | ejectOffPlace
  /-- OFF_COMMAND_PLACE. Waiting heater off commands take free places of Port D OWN (R79). -/
  | offCommandPlace
  /-- CLOSE. A CLOSE to a press node ends on Port U (R131). -/
  | closeCommand (bytes : List Byte)
  /-- OPEN. An OPEN to a press node ends on Port U (R137). -/
  | openCommand (bytes : List Byte)
  /-- OPEN_EMERGENCY. An OPEN_EMERGENCY to a press node ends on Port U (R138). -/
  | openEmergency (bytes : List Byte)
  /-- SERVICE_COMMAND. A COMMAND with another code to a press node ends on Port U (R15). -/
  | serviceCommand (bytes : List Byte)
  /-- BROADCAST_CLOSE_OPEN. A broadcast CLOSE or OPEN ends on Port U (R14). -/
  | broadcastCloseOpen (bytes : List Byte)
  /-- BROADCAST_OPEN_EMERGENCY. A broadcast OPEN_EMERGENCY ends on Port U (R14). -/
  | broadcastOpenEmergency (bytes : List Byte)
  /-- BROADCAST_HEAT. A broadcast HEAT ends on Port U (R14). -/
  | broadcastHeat (bytes : List Byte)
  /-- HEAT. A HEAT to a heater node ends on Port U (R16). -/
  | heat (bytes : List Byte)
  /-- CLOSE_TIMER_EXPIRY. A press's close timer expires (R135). -/
  | closeTimerExpiry (press : PressNo)
  /-- READ_TABLE. A MGMT_REQ READ_TABLE ends on Port U (R30). -/
  | readTable (bytes : List Byte)
  /-- WRITE_TABLE. A MGMT_REQ WRITE_TABLE ends on Port U (R28). -/
  | writeTable (bytes : List Byte)
  /-- SET_SETPOINT_SET. A MGMT_REQ SET_SETPOINT_SET ends on Port U (R64). -/
  | setSetpointSet (bytes : List Byte)
  /-- SET_SETPOINT_CLEAR_OVERRIDE. A MGMT_REQ SET_SETPOINT_CLEAR_OVERRIDE ends on Port U (R64). -/
  | setSetpointClearOverride (bytes : List Byte)
  /-- ZONE_CONTROL_ENABLE. A MGMT_REQ ZONE_CONTROL_ENABLE ends on Port U (R49). -/
  | zoneControlEnable (bytes : List Byte)
  /-- ZONE_CONTROL_DISABLE. A MGMT_REQ ZONE_CONTROL_DISABLE ends on Port U (R50). -/
  | zoneControlDisable (bytes : List Byte)
  /-- ZONE_CONTROL_RESTORE_PRIMARY. A MGMT_REQ ZONE_CONTROL_RESTORE_PRIMARY ends on Port U (R56). -/
  | zoneControlRestorePrimary (bytes : List Byte)
  /-- PRESS_CONTROL_ENABLE. A MGMT_REQ PRESS_CONTROL_ENABLE ends on Port U (R124). -/
  | pressControlEnable (bytes : List Byte)
  /-- PRESS_CONTROL_DISABLE. A MGMT_REQ PRESS_CONTROL_DISABLE ends on Port U (R125). -/
  | pressControlDisable (bytes : List Byte)
  /-- PRESS_CONTROL_RESET. A MGMT_REQ PRESS_CONTROL_RESET ends on Port U (R142). -/
  | pressControlReset (bytes : List Byte)
  /-- PRESS_CONTROL_FORCE_DEMOULD. A MGMT_REQ PRESS_CONTROL_FORCE_DEMOULD ends on Port U (R136). -/
  | pressControlForceDemould (bytes : List Byte)
  /-- PRESS_CONTROL_SETUP_ON. A MGMT_REQ PRESS_CONTROL_SETUP_ON ends on Port U (R149). -/
  | pressControlSetupOn (bytes : List Byte)
  /-- PRESS_CONTROL_SETUP_OFF. A MGMT_REQ PRESS_CONTROL_SETUP_OFF ends on Port U (R149). -/
  | pressControlSetupOff (bytes : List Byte)
  /-- PRESS_CONTROL_STEP. A MGMT_REQ PRESS_CONTROL_STEP ends on Port U (R150). -/
  | pressControlStep (bytes : List Byte)
  /-- SCALE_CONTROL_TARE. A MGMT_REQ SCALE_CONTROL_TARE ends on Port U (R110). -/
  | scaleControlTare (bytes : List Byte)
  /-- READ_STATUS. A MGMT_REQ READ_STATUS ends on Port U (R191). -/
  | readStatus (bytes : List Byte)
  /-- READ_HISTORY. A MGMT_REQ READ_HISTORY ends on Port U (R168). -/
  | readHistory (bytes : List Byte)
  /-- ADVANCE_READ. A MGMT_REQ ADVANCE_READ ends on Port U (R169). -/
  | advanceRead (bytes : List Byte)
  /-- SET_SERIAL_BASE. A MGMT_REQ SET_SERIAL_BASE ends on Port U (R167). -/
  | setSerialBase (bytes : List Byte)
  /-- LOCK_PROFILE. A MGMT_REQ LOCK_PROFILE ends on Port U (R174). -/
  | lockProfile (bytes : List Byte)
  /-- UNLOCK_PROFILE. A MGMT_REQ UNLOCK_PROFILE ends on Port U (R174). -/
  | unlockProfile (bytes : List Byte)
  /-- READ_PROFILE. A MGMT_REQ READ_PROFILE ends on Port U (R175). -/
  | readProfile (bytes : List Byte)
  /-- READ_EVENTS. A MGMT_REQ READ_EVENTS ends on Port U (R188). -/
  | readEvents (bytes : List Byte)
  /-- CLEAR_EVENTS. A MGMT_REQ CLEAR_EVENTS ends on Port U (R186). -/
  | clearEvents (bytes : List Byte)
  /-- SET_EVENT_ENABLE. A MGMT_REQ SET_EVENT_ENABLE ends on Port U (R187). -/
  | setEventEnable (bytes : List Byte)
  /-- RESET_WARM. A MGMT_REQ RESET_WARM ends on Port U (R192). -/
  | resetWarm (bytes : List Byte)
  /-- RESET_COLD. A MGMT_REQ RESET_COLD ends on Port U (R192). -/
  | resetCold (bytes : List Byte)
  /-- WARM_RESET_EFFECT. A WARM reset takes effect (R193). -/
  | warmResetEffect
  /-- COLD_SHUTDOWN_START. A COLD reset begins its shutdown (R194). -/
  | coldShutdownStart
  /-- COLD_RESET_EFFECT. A COLD reset takes effect (R195). -/
  | coldResetEffect
  /-- COMMAND_NOT_WELL_FORMED. A COMMAND to a press node whose payload is not well formed ends on Port U (R15). -/
  | commandNotWellFormed (bytes : List Byte)
  /-- STRAP_CHANGE. The strap inputs change (R4). -/
  | strapChange (strap : BitVec 6)
deriving DecidableEq, Repr

end Sys2Proof
end

