-- ==== Sys2Proof/Decode.lean ====
section
/-! DEFINITION. The decoder of table words. The block has no instruction words: no row of
spec/opcode_table.json gives bits (log 21). -/

namespace Sys2Proof

/-- The command that a word of the table spells: none, since no row has bits. -/
def decodeTableWord (_nbits _w : Nat) : Option Instr := none

end Sys2Proof
end

