-- ==== Sys2Proof/Config.lean ====
section
/-! DEFINITION. The fixed sizes of the part and the one value the spec leaves free. -/

namespace Sys2Proof.Config

/-- Frames an FWD queue holds (R20). -/
def fwdPlaces : Nat := 24

/-- Frames an OWN queue holds (R21). -/
def ownPlaces : Nat := 16

/-- REU moves a record only while Port U OWN holds this many frames or fewer (R181). -/
def exportRoom : Nat := 12

/-- Serials the export queue holds (R180). -/
def exportPlaces : Nat := 16

/-- Points a profile buffer holds (R170). -/
def profilePlaces : Nat := 120

/-- Notes a history record holds (R159). -/
def notePlaces : Nat := 4

/-- The LINK pin's period in ms (R26). -/
def linkPeriod : Nat := 50

/-- The broadcast address (R14). -/
def broadcast : Nat := 63

/-- The greatest payload of a frame (R6). -/
def maxPayload : Nat := 248

/-- The greatest value of a 16-bit counter (R25, R103). -/
def max16 : Nat := 65535

/-- The greatest value of a 32-bit quantity (R83, R89, R166). -/
def max32 : Nat := 4294967295

/-- DESIGN CHOICE (log 14): R122 returns a window's spread and says nothing of a window that holds
no value. The value is free: nothing is known of it. The argument is the state's free counter. -/
opaque emptySpread : Nat → Nat

end Sys2Proof.Config
end

