-- ==== Sys2Proof/Machine/State.lean ====
section
/-! DEFINITION. The state of the part as plain data, block by block, the reasons a step can stop, and the
state right after reset. Each structure is a table of the spec; each field names its item. -/

namespace Sys2Proof.Machine

/-! ## Link interface (spec/01) -/

/-- NORMAL with an own address, or PASSIVE with none (R4). -/
inductive Mode where
  | normal (own : Nat)
  | passive
deriving DecidableEq, Repr

/-- The kinds that have a meaning for the part (section 1.3, R203). -/
inductive FrameKind where
  | sample | command | status | mgmtReq | mgmtResp | heat | verdict | report | event | refusal
deriving DecidableEq, Repr

/-- What the transmission of an originated frame does beside sending it. The numbers of off frames are
the model's own (log 10): they tell the frame of the present off command from that of an earlier one. -/
inductive Mark where
  /-- nothing -/
  | plain
  /-- the response to a RESET request: its end lets the reset take effect (R192) -/
  | resetResponse
  /-- the HEAT frame of an off command of a zone: its start removes the off command (R79) -/
  | heaterOff (zone : ZoneNo) (number : Nat)
  /-- the EJECT_OFF of a press: its start ends the debt (R153) -/
  | ejectOff (press : PressNo) (number : Nat)
deriving DecidableEq, Repr

/-- A composed frame in an OWN queue (R21). Its attention flag and check are made when its transmission
starts (R23). -/
structure OwnFrame where
  dst : Nat
  src : Nat
  kind : FrameKind
  payload : List Byte
  mark : Mark
deriving DecidableEq, Repr

/-- A frame being sent: all its bytes, and its mark (R22). -/
structure Sending where
  bytes : List Byte
  mark : Mark
deriving DecidableEq, Repr

/-- One port: its two egress queues (R20, R21), its transmitter (R22) and its five counters (R25). -/
structure PortState where
  fwd : List (List Byte)
  own : List OwnFrame
  sending : Option Sending
  checkErrors : Nat
  formatErrors : Nat
  fwdDrops : Nat
  ownDrops : Nat
  foreignRequests : Nat
deriving DecidableEq, Repr

/-- The kind of a reset that management orders (R192). -/
inductive ResetKind where
  | warm | cold
deriving DecidableEq, Repr

/-- A reset pending (R192): its response still waits or is being sent, or the moment at which it takes
effect (or at which the COLD shutdown begins) has been reached. -/
inductive ResetPending where
  | idle
  | waiting (kind : ResetKind)
  | due (kind : ResetKind)
deriving DecidableEq, Repr

/-! ## Tables (spec/01, 02, 03, 06, 10) -/

/-- Roles of the Node table (section 1.4), in the order of its list of names (R197). -/
inductive Role where
  | none | thermo | heater | scale | press | ejector
deriving DecidableEq, Repr

/-- One Node entry (section 1.4). -/
structure NodeEntry where
  role : Role
  unit : Nat
  forwardUp : Bool
deriving DecidableEq, Repr

/-- A (node, channel) or (node, output) pair (R197). -/
structure NodeRef where
  node : Nat
  line : Nat
deriving DecidableEq, Repr

/-- One Zone entry less its enabled field, which is the zone context's state (section 3.1, R46). -/
structure ZoneEntry where
  primary : Option NodeRef
  backup : Option NodeRef
  heater : Option NodeRef
  cureReference : Bool
  offset : Int
  feedForward : Nat
  maxDuty : Nat
  limit : Nat
  kp : Nat
  ki : Nat
deriving DecidableEq, Repr

/-- One Recipe entry (section 2.2), fields in the order of its list. -/
structure Recipe where
  valid : Bool
  mould : Nat
  upper : Nat
  lower : Nat
  rateTable : Nat
  cureTarget : Nat
  minDwell : Nat
  maxCure : Nat
  profileInterval : Nat
  scale : Nat
  chargeTarget : Nat
  tolMinus : Nat
  tolPlus : Nat
  loadLimit : Nat
  minTonnage : Nat
  closeTimeout : Nat
  ejectA : Nat
  ejectB : Nat
  stuckForce : Nat
  deviationBand : Nat
  readyBand : Nat
deriving DecidableEq, Repr

/-- One Mould slot (section 2.3). -/
structure MouldEntry where
  mould : Nat
  recipe : Nat
deriving DecidableEq, Repr

/-- One point of a rate table (section 2.4). -/
structure RatePoint where
  temp : Int
  factor : Nat
deriving DecidableEq, Repr

/-- Scale modes (section 6.1). -/
inductive ScaleMode where
  | single | sum | check
deriving DecidableEq, Repr

/-- One Scale entry (section 6.1). -/
structure ScaleEntry where
  enabled : Bool
  mode : ScaleMode
  channelA : Option NodeRef
  channelB : Option NodeRef
  windowN : Nat
  settleBand : Nat
  emptyThreshold : Nat
  loadThreshold : Nat
  capacity : Nat
  zeroTrack : Nat
  checkBand : Nat
  liftTime : Nat
deriving DecidableEq, Repr

/-- One Press entry (section 2.5). -/
structure PressEntry where
  period : Nat
  holdLimit : Nat
  maxGap : Nat
  ramp : Nat
deriving DecidableEq, Repr

/-- History policies (section 2.6). -/
inductive Policy where
  | hold | overwrite
deriving DecidableEq, Repr

/-- The Cell entry (section 2.6). -/
structure CellEntry where
  controller : Nat
  policy : Policy
  highMark : Nat
  lowMark : Nat
deriving DecidableEq, Repr

/-- Modes of an export filter (section 10.1). -/
inductive FilterMode where
  | off | accept | reject
deriving DecidableEq, Repr

/-- One export filter (section 10.1). -/
structure Filter where
  mode : FilterMode
  low : Nat
  high : Nat
deriving DecidableEq, Repr

/-- The Export entry (section 10.1); bit i of a set is the i-th name or number. -/
structure ExportEntry where
  enable : Bool
  outcomes : BitVec 4
  presses : BitVec 4
  filters : Vector Filter 4
deriving DecidableEq, Repr

/-- The nine loaded tables (section 2.1). -/
structure Tables where
  nodes : Vector NodeEntry 64
  zones : Vector ZoneEntry 48
  recipes : Vector Recipe 32
  moulds : Vector MouldEntry 64
  rates : Vector (List RatePoint) 4
  scales : Vector ScaleEntry 2
  presses : Vector PressEntry 4
  cell : CellEntry
  exports : ExportEntry
deriving DecidableEq, Repr

/-! ## Zone contexts (spec/03, 04) -/

/-- Channel statuses of a SAMPLE entry (section 1.3, R199). -/
inductive ChannelStatus where
  | ok | openSensor | overrange | notReady
deriving DecidableEq, Repr

/-- The last entry received on a channel (R51, R104). -/
structure LastEntry where
  status : ChannelStatus
  value : Int
  arrival : Time
deriving DecidableEq, Repr

/-- Zone states (section 3.2). -/
inductive ZoneState where
  | disabled | regulating | holding | overtemp | lost
deriving DecidableEq, Repr

/-- The sensor that regulates a zone (section 3.2). -/
inductive ActiveSensor where
  | primary | backup
deriving DecidableEq, Repr

/-- An off command owed to a heater output (R79). -/
structure OffCommand where
  node : Nat
  output : Nat
  placed : Bool
  number : Nat
deriving DecidableEq, Repr

/-- A zone context: the items of section 3.2 and the per-zone items of section 4.1. -/
structure Zone where
  state : ZoneState
  active : ActiveSensor
  measured : Option Int
  prevArrival : Option Time
  firstSample : Bool
  fresh : Bool
  holdCount : Nat
  integral : Int
  deviationCount : Nat
  deviationNoted : Bool
  primaryLast : Option LastEntry
  backupLast : Option LastEntry
  base : Int
  overridden : Bool
  target : Int
  setpoint : Int
  staged : Nat
  committed : Nat
  grace : Bool
  offs : List OffCommand
deriving DecidableEq, Repr

/-- A press's heat window timer (section 4.1). -/
structure HeatWindow where
  running : Bool
  start : Option Time
  period : Nat
  lastEnd : Option Time
  placed : Nat
  lost : Nat
deriving DecidableEq, Repr

/-! ## Cure accounting (spec/05) -/

/-- Cure statuses (R83). -/
inductive CureStatus where
  | none | accruing | permitted | timedOut | stopped
deriving DecidableEq, Repr

/-- A press's cure context (R83). -/
structure Cure where
  status : CureStatus
  lost : Bool
  entryTime : Option Time
  dwellMet : Bool
  progress : Nat
  included : Nat
  excluded : Nat
  upperMin : Option Int
  upperMax : Option Int
  lowerMin : Option Int
  lowerMax : Option Int
  endTime : Option Time
deriving DecidableEq, Repr

/-- Whether a zone counts toward its press's progress (R83). -/
inductive Inclusion where
  | notInCure | included | excluded
deriving DecidableEq, Repr

/-- A zone's accrual context (R83). -/
structure Accrual where
  inclusion : Inclusion
  accumulator : Nat
  residue : Nat
  prevArrival : Option Time
deriving DecidableEq, Repr

/-! ## Scales (spec/06) -/

/-- Scale states (R103). -/
inductive ScaleState where
  | disabled | empty | loading | noRequest | accepted | rejected | lifting | overload | mismatch
deriving DecidableEq, Repr

/-- Verdict kinds (R103), numbered as R203 numbers them. -/
inductive VerdictKind where
  | accepted | light | heavy | noRequest
deriving DecidableEq, Repr

/-- A verdict record (R103). -/
structure Verdict where
  kind : VerdictKind
  press : Option PressNo
  mean : Int
  net : Int
  trim : Int
deriving DecidableEq, Repr

/-- A channel A value that awaits its B partner (R105). -/
structure HeldValue where
  value : Int
  arrival : Time
deriving DecidableEq, Repr

/-- One entry of a service queue (section 6.6). -/
structure QueueEntry where
  press : PressNo
  attempts : Nat
  joined : Time
deriving DecidableEq, Repr

/-- A scale context (R103). -/
structure Scale where
  state : ScaleState
  window : List Int
  tare : Int
  tareNoted : Bool
  heldA : Option HeldValue
  agree : Nat
  verdict : Option Verdict
  liftStart : Option Time
  liftTime : Nat
  lastA : Option LastEntry
  lastB : Option LastEntry
  skipped : Nat
  queue : List QueueEntry
deriving DecidableEq, Repr

/-! ## Press units (spec/07) -/

/-- A charge record (R120). -/
structure ChargeRecord where
  scale : ScaleNo
  net : Int
  mean : Int
  tare : Int
  target : Nat
  tolMinus : Nat
  tolPlus : Nat
  attempts : Nat
  release : Time
deriving DecidableEq, Repr

/-- Position states a press reports (R200). -/
inductive Position where
  | openFull | closing | closedPressure | opening | stopped
deriving DecidableEq, Repr

/-- The last press STATUS frame delivered to a unit (R123, R126). -/
structure PressReport where
  position : Position
  tonnage : Nat
  mould : Nat
  cavityClear : Bool
  arrival : Time
deriving DecidableEq, Repr

/-- Press unit states (R123). -/
inductive UnitState where
  | disabled | idle | chargeWait | chargeReady | closing | cure | demouldWait | opening | eject
  | unload | fault
deriving DecidableEq, Repr

/-- Bind faults (R123, R127). -/
inductive BindFault where
  | none | mouldUnknown | recipeInvalid | rateInvalid | noReference
deriving DecidableEq, Repr

/-- The bound recipe and bound mould, which are present together (R123). -/
structure Binding where
  recipe : Fin 32
  mould : Nat
deriving DecidableEq, Repr

/-- A press unit context (R123). -/
structure PressUnit where
  state : UnitState
  haltPending : Bool
  binding : Option Binding
  bindFault : BindFault
  lastStatus : Option PressReport
  charge : Option ChargeRecord
  closingEntry : Option Time
  closeTimedOut : Bool
  aborted : Bool
  mouldChanged : Bool
deriving DecidableEq, Repr

/-! ## Ejectors (spec/08) -/

/-- Ejection phases (R145). -/
inductive EjectPhase where
  | stopped | runToA | heldAtA | runToB | heldAtB
deriving DecidableEq, Repr

/-- Ejector positions (R200). -/
inductive EjectorPosition where
  | retracted | extended
deriving DecidableEq, Repr

/-- The last ejector STATUS frame delivered (R145). -/
structure EjectorReport where
  force : Nat
  position : EjectorPosition
  arrival : Time
deriving DecidableEq, Repr

/-- An EJECT_OFF frame that must reach the ejector node (R145, R153). -/
structure OffOwed where
  node : Nat
  placed : Bool
  number : Nat
deriving DecidableEq, Repr

/-- An ejector context (R145). -/
structure Ejector where
  phase : EjectPhase
  node : Option Nat
  compareA : Nat
  compareB : Nat
  timerStart : Option Time
  stuckForce : Nat
  peak : Option Nat
  setup : Bool
  offOwed : Option OffOwed
  lastStatus : Option EjectorReport
deriving DecidableEq, Repr

/-! ## Events (spec/10) -/

/-- The 25 event kinds, in the order of their numbers (section 10.3). -/
inductive EventKind where
  | linkCheck | linkDrop | heaterConflict | sensorFault | sensorSwitch | zoneLost | overtemp
  | zoneDeviation | sampleGap | chargeReject | tareLimit | scaleMismatch | scaleOverload
  | chargeDiscard | closeRefused | openRefused | emergencyOpen | cureDone | cureLost | pressTimeout
  | ejectStuck | mouldChange | historyMark | historyLoss | exportOverflow
deriving DecidableEq, Repr

/-- One entry of the event table (R183); an instance of none is 255 (section 10.3). -/
structure EventEntry where
  raw : Bool
  enable : Bool
  first : Nat
  time : Option Time
  count : Nat
deriving DecidableEq, Repr

/-! ## History (spec/09) -/

/-- Record states (section 9.1). -/
inductive RecordState where
  | opened | closed
deriving DecidableEq, Repr

/-- Record outcomes (section 9.1). -/
inductive RecordOutcome where
  | good | suspect | reject | aborted
deriving DecidableEq, Repr

/-- One note of a record (R159). -/
structure Note where
  time : Time
  kind : EventKind
  inst : Nat
deriving DecidableEq, Repr

/-- A history record (section 9.1). Bit i of `flags` is the i-th flag of the section's list (R202). -/
structure Record where
  serial : Nat
  press : PressNo
  recipe : Fin 32
  mould : Nat
  state : RecordState
  outcome : Option RecordOutcome
  charge : ChargeRecord
  closeTime : Time
  pressureTime : Option Time
  loadToPressure : Option Nat
  cureEnd : Option Time
  openTime : Option Time
  unloadTime : Option Time
  cureAchieved : Nat
  cureTarget : Nat
  included : Nat
  excluded : Nat
  upperMin : Option Int
  upperMax : Option Int
  lowerMin : Option Int
  lowerMax : Option Int
  peakForce : Option Nat
  profileBuffer : Option (Fin 2)
  flags : BitVec 17
  notes : List Note
  notesDropped : Nat
  exported : Bool
deriving DecidableEq, Repr

/-- The ring state (R162). -/
structure History where
  slots : Vector (Option Record) 512
  stored : Nat
  writePos : Fin 512
  readCursor : Fin 512
  unread : Nat
  nextSerial : Nat
  exhausted : Bool
  hold : Bool
  openRecord : Vector (Option (Fin 512)) 4
deriving DecidableEq, Repr

/-- Phases of a profile buffer (R170). -/
inductive ProfilePhase where
  | empty | filling | complete
deriving DecidableEq, Repr

/-- A profile point (section 9.6): the two temperatures are present together. -/
structure ProfilePoint where
  offset : Nat
  temps : Option (Int × Int)
  progress : Nat
deriving DecidableEq, Repr

/-- A cure profile buffer (R170). -/
structure Profile where
  phase : ProfilePhase
  tag : Option Nat
  points : List ProfilePoint
  truncated : Bool
  nextDue : Nat
  locked : Bool
deriving DecidableEq, Repr

/-! ## The whole part -/

/-- The state of the part. `profiles` holds buffer b of press p at 2 × p + b. -/
structure State where
  /-- commands that are waiting, the next one first -/
  pending : List Instr
  /-- RESET_N is held low (R196) -/
  resetHeld : Bool
  /-- the level of ADDR5..ADDR0 (R4) -/
  strap : BitVec 6
  mode : Mode
  timebase : Time
  linkPin : Bool
  linkStart : Option Time
  attnPin : Bool
  portU : PortState
  portD : PortState
  resetPending : ResetPending
  /-- a COLD reset's shutdown is under way (R194) -/
  shutdown : Bool
  tables : Tables
  zones : Vector Zone 48
  windows : Vector HeatWindow 4
  cures : Vector Cure 4
  accruals : Vector Accrual 48
  scales : Vector Scale 2
  units : Vector PressUnit 4
  ejectors : Vector Ejector 4
  history : History
  profiles : Vector Profile 8
  exportQueue : List Nat
  events : Vector EventEntry 25
  attention : Bool
  /-- the model's own: the number of the next off command or owed EJECT_OFF (log 10) -/
  offNumber : Nat
  /-- the model's own: picks the next free value (log 14) -/
  freeCounter : Nat
  /-- the model's own: set only inside the step of a WARM reset, while attention is not evaluated
  (R185, R193; log 11) -/
  warmTaking : Bool
deriving DecidableEq, Repr

/-- The reasons a step can stop with a fault: none. Nothing in the spec stops the part: a bad frame is
discarded (R7), a bad request is answered (R190), a full queue drops (R20, R21). So no command raises a
fault, which is safe (log 17). -/
inductive Fault where
deriving DecidableEq, Repr

/-- The reasons a step can be refused. -/
inductive Refusal where
  /-- Raised by exec's arm of a command that has no meaning yet, with the row's mnemonic. Safe: nothing
  is claimed of such a command. No arm raises it now. -/
  | notModelled (mnemonic : String)
deriving DecidableEq, Repr

/-! ## Reset values -/

/-- A port after reset: queues empty (R24), transmitter idle, counters 0 (R25). -/
def PortState.atReset : PortState :=
  { fwd := [], own := [], sending := none, checkErrors := 0, formatErrors := 0, fwdDrops := 0,
    ownDrops := 0, foreignRequests := 0 }

/-- Section 1.4, R10. -/
def NodeEntry.atReset : NodeEntry := { role := .none, unit := 0, forwardUp := true }

/-- Section 3.1, R45. -/
def ZoneEntry.atReset : ZoneEntry :=
  { primary := none, backup := none, heater := none, cureReference := false, offset := 0,
    feedForward := 0, maxDuty := 0, limit := 500, kp := 0, ki := 0 }

/-- Section 2.2, R32. -/
def Recipe.atReset : Recipe :=
  { valid := false, mould := 1, upper := 0, lower := 0, rateTable := 0, cureTarget := 1,
    minDwell := 0, maxCure := 1, profileInterval := 1, scale := 0, chargeTarget := 1, tolMinus := 0,
    tolPlus := 0, loadLimit := 1, minTonnage := 1, closeTimeout := 1, ejectA := 0, ejectB := 100,
    stuckForce := 1, deviationBand := 10, readyBand := 10 }

/-- Section 2.3, R35. -/
def MouldEntry.atReset : MouldEntry := { mould := 0, recipe := 0 }

/-- Section 6.1, R101. -/
def ScaleEntry.atReset : ScaleEntry :=
  { enabled := false, mode := .single, channelA := none, channelB := none, windowN := 8,
    settleBand := 20, emptyThreshold := 500, loadThreshold := 2000, capacity := 300000,
    zeroTrack := 0, checkBand := 50, liftTime := 1000 }

/-- Section 2.5, R40. -/
def PressEntry.atReset : PressEntry := { period := 1000, holdLimit := 3, maxGap := 2000, ramp := 0 }

/-- Section 2.6, R42. -/
def CellEntry.atReset : CellEntry :=
  { controller := 0, policy := .hold, highMark := 448, lowMark := 384 }

/-- Section 10.1, R178. -/
def ExportEntry.atReset : ExportEntry :=
  { enable := false, outcomes := 15#4, presses := 15#4,
    filters := Vector.replicate 4 { mode := .off, low := 1, high := 65535 } }

/-- The tables' reset contents (R31). -/
def Tables.atReset : Tables :=
  { nodes := Vector.replicate 64 NodeEntry.atReset, zones := Vector.replicate 48 ZoneEntry.atReset,
    recipes := Vector.replicate 32 Recipe.atReset, moulds := Vector.replicate 64 MouldEntry.atReset,
    rates := Vector.replicate 4 [], scales := Vector.replicate 2 ScaleEntry.atReset,
    presses := Vector.replicate 4 PressEntry.atReset, cell := CellEntry.atReset,
    exports := ExportEntry.atReset }

/-- Section 3.2 (R48) and section 4.1 (R81). -/
def Zone.atReset : Zone :=
  { state := .disabled, active := .primary, measured := none, prevArrival := none,
    firstSample := true, fresh := false, holdCount := 0, integral := 0, deviationCount := 0,
    deviationNoted := false, primaryLast := none, backupLast := none, base := 0, overridden := false,
    target := 0, setpoint := 0, staged := 0, committed := 0, grace := false, offs := [] }

/-- Section 4.1, R81. -/
def HeatWindow.atReset : HeatWindow :=
  { running := false, start := none, period := 1000, lastEnd := none, placed := 0, lost := 0 }

/-- R83. -/
def Cure.atReset : Cure :=
  { status := .none, lost := false, entryTime := none, dwellMet := false, progress := 0,
    included := 0, excluded := 0, upperMin := none, upperMax := none, lowerMin := none,
    lowerMax := none, endTime := none }

/-- R83. -/
def Accrual.atReset : Accrual :=
  { inclusion := .notInCure, accumulator := 0, residue := 0, prevArrival := none }

/-- R103. -/
def Scale.atReset : Scale :=
  { state := .disabled, window := [], tare := 0, tareNoted := false, heldA := none, agree := 0,
    verdict := none, liftStart := none, liftTime := 1000, lastA := none, lastB := none, skipped := 0,
    queue := [] }

/-- R123. -/
def PressUnit.atReset : PressUnit :=
  { state := .disabled, haltPending := false, binding := none, bindFault := .none,
    lastStatus := none, charge := none, closingEntry := none, closeTimedOut := false,
    aborted := false, mouldChanged := false }

/-- R145. -/
def Ejector.atReset : Ejector :=
  { phase := .stopped, node := none, compareA := 0, compareB := 100, timerStart := none,
    stuckForce := 1, peak := none, setup := false, offOwed := none, lastStatus := none }

/-- R162. -/
def History.atReset : History :=
  { slots := Vector.replicate 512 none, stored := 0, writePos := 0, readCursor := 0, unread := 0,
    nextSerial := 0, exhausted := false, hold := false, openRecord := Vector.replicate 4 none }

/-- R170. -/
def Profile.atReset : Profile :=
  { phase := .empty, tag := none, points := [], truncated := false, nextDue := 0, locked := false }

/-- The Default enable column of section 10.3: every kind but LINK_DROP (1) and CURE_DONE (17). -/
def EventEntry.atReset (kind : Fin 25) : EventEntry :=
  { raw := false, enable := kind != 1 && kind != 17, first := 255, time := none, count := 0 }

/-- The event table after power-on (R183). -/
def eventsAtReset : Vector EventEntry 25 :=
  ⟨((List.finRange 25).map EventEntry.atReset).toArray, by simp⟩

/-- The mode a strap value gives (R4). -/
def Mode.ofStrap (strap : BitVec 6) : Mode :=
  if strap.toNat = 0 ∨ strap.toNat = 63 then .passive else .normal strap.toNat

/-- Every item at its Power-on value, with the strap sampled (R195, R196). -/
def State.atPowerOn (strap : BitVec 6) : State :=
  { pending := [], resetHeld := false, strap := strap, mode := Mode.ofStrap strap, timebase := 0,
    linkPin := false, linkStart := none, attnPin := false, portU := PortState.atReset,
    portD := PortState.atReset, resetPending := .idle, shutdown := false, tables := Tables.atReset,
    zones := Vector.replicate 48 Zone.atReset, windows := Vector.replicate 4 HeatWindow.atReset,
    cures := Vector.replicate 4 Cure.atReset, accruals := Vector.replicate 48 Accrual.atReset,
    scales := Vector.replicate 2 Scale.atReset, units := Vector.replicate 4 PressUnit.atReset,
    ejectors := Vector.replicate 4 Ejector.atReset, history := History.atReset,
    profiles := Vector.replicate 8 Profile.atReset, exportQueue := [], events := eventsAtReset,
    attention := false, offNumber := 0, freeCounter := 0, warmTaking := false }

/-- The part right after power-on. DESIGN CHOICE (log 4): the strap inputs are at 40, the own address
of the spec's worked sequences (section 1.9), so the part is in NORMAL mode at own address 40. -/
def State.reset : State := State.atPowerOn 40#6

end Sys2Proof.Machine
end

