-- ==== Sys2Proof/Machine/Operands.lean ====
section
/-! DEFINITION. Every operand form: the bytes of frames, payloads, requests and table entries, read and
written (R6, R197 to R204). -/

namespace Sys2Proof.Machine

/-! ## Bytes and numbers (R197) -/

/-- The unsigned number that bytes spell, most significant byte first. -/
def natOf (bs : List Byte) : Nat := bs.foldl (fun acc b => acc * 256 + b.toNat) 0

/-- The two's complement number that bytes spell. -/
def intOf (bs : List Byte) : Int :=
  if 2 * natOf bs < 256 ^ bs.length then (natOf bs : Int)
  else (natOf bs : Int) - (256 ^ bs.length : Nat)

/-- `k` bytes of an unsigned number, most significant first. -/
def natBytes : Nat → Nat → List Byte
  | 0, _ => []
  | k + 1, n => BitVec.ofNat 8 (n / 256 ^ k) :: natBytes k n

/-- `k` bytes of a signed number in two's complement. -/
def intBytes (k : Nat) (i : Int) : List Byte := natBytes k (i.emod (256 ^ k : Nat)).toNat

/-- A flag takes one byte. -/
def flagByte (b : Bool) : List Byte := if b then [1#8] else [0#8]

/-- An item that may be absent: a presence byte, then the item, sent as 0 when absent (R205). -/
def optBytes (k : Nat) : Option (List Byte) → List Byte
  | some bs => 1#8 :: bs
  | none => 0#8 :: List.replicate k 0#8

/-- A time takes 4 bytes (R205). -/
def timeBytes (t : Time) : List Byte := natBytes 4 t.toNat

/-- A list: a 1-byte count, then the elements (R205). -/
def listBytes {α : Type} (f : α → List Byte) (l : List α) : List Byte :=
  natBytes 1 l.length ++ l.flatMap f

/-- The unsigned field of `len` bytes at offset `off`. -/
def natAt (bs : List Byte) (off len : Nat) : Nat := natOf ((bs.drop off).take len)

/-- The signed field of `len` bytes at offset `off`. -/
def intAt (bs : List Byte) (off len : Nat) : Int := intOf ((bs.drop off).take len)

/-! ## The frame check (R6) -/

/-- One bit through the CRC with polynomial x^16 + x^12 + x^5 + 1. -/
def crcBit (crc : BitVec 16) (bit : Bool) : BitVec 16 :=
  if crc.msb != bit then (crc <<< 1) ^^^ 0x1021#16 else crc <<< 1

/-- One byte, most significant bit first. -/
def crcByte (crc : BitVec 16) (b : Byte) : BitVec 16 :=
  [7, 6, 5, 4, 3, 2, 1, 0].foldl (fun c i => crcBit c (b.getLsbD i)) crc

/-- The check of header and payload bytes: initial value FFFFh, no final inversion. -/
def crc16 (bs : List Byte) : BitVec 16 := bs.foldl crcByte 0xFFFF#16

/-- The payload length field of a frame's header (R198). -/
def lengthField (bs : List Byte) : Nat := natAt bs 3 1

/-- The four tests of R6. -/
def checkPasses (bs : List Byte) : Bool :=
  decide (6 ≤ bs.length) && decide (lengthField bs ≤ Config.maxPayload)
    && decide (bs.length = 6 + lengthField bs)
    && decide ((crc16 (bs.take (bs.length - 2))).toNat = natAt bs (bs.length - 2) 2)

/-! ## The frame header (R198) -/

/-- A received frame, its header taken apart and its bytes kept as received. -/
structure RxFrame where
  dst : Nat
  src : Nat
  kind : Nat
  attention : Bool
  payload : List Byte
  bytes : List Byte
deriving DecidableEq, Repr

/-- The header's fields and the payload. Bits marked zero are ignored (R197). -/
def headerOf (bs : List Byte) : RxFrame :=
  { dst := natAt bs 0 1 / 4
    src := natAt bs 0 1 % 4 * 16 + natAt bs 1 1 / 16
    kind := natAt bs 1 1 % 16
    attention := decide (128 ≤ natAt bs 2 1)
    payload := (bs.drop 4).take (lengthField bs)
    bytes := bs }

/-- A frame that passes the check, taken apart (R6). -/
def parseFrame (bs : List Byte) : Option RxFrame :=
  if checkPasses bs then some (headerOf bs) else none

/-- Kind codes (R203). -/
def FrameKind.code : FrameKind → Nat
  | .sample => 0 | .command => 1 | .status => 2 | .mgmtReq => 3 | .mgmtResp => 4 | .heat => 5
  | .verdict => 6 | .report => 7 | .event => 8 | .refusal => 9

/-- The 4 header bytes (R198). -/
def headerBytes (dst src kind : Nat) (attention : Bool) (length : Nat) : List Byte :=
  [BitVec.ofNat 8 (dst * 4 + src / 16), BitVec.ofNat 8 (src % 16 * 16 + kind),
    if attention then 128#8 else 0#8, BitVec.ofNat 8 length]

/-- Header, payload and check of a frame, as its transmission starts (R23). -/
def frameBytes (dst src kind : Nat) (attention : Bool) (payload : List Byte) : List Byte :=
  let body := headerBytes dst src kind attention payload.length ++ payload
  body ++ natBytes 2 (crc16 body).toNat

/-! ## Payloads of received frames (R199, R200, R203) -/

/-- One channel entry of a SAMPLE (R199). -/
structure ChannelEntry where
  channel : Nat
  status : ChannelStatus
  value : Int
deriving DecidableEq, Repr

/-- Channel status codes (R199). -/
def ChannelStatus.ofCode (n : Nat) : ChannelStatus :=
  if n = 0 then .ok else if n = 1 then .openSensor else if n = 2 then .overrange else .notReady

/-- Channel status codes (R199). -/
def ChannelStatus.code : ChannelStatus → Nat
  | .ok => 0 | .openSensor => 1 | .overrange => 2 | .notReady => 3

/-- The 4 bytes of one channel entry (R199). -/
def channelEntryOf (head b1 b2 b3 : Byte) : ChannelEntry :=
  { channel := head.toNat / 32
    status := ChannelStatus.ofCode (head.toNat / 8 % 4)
    value := intOf [b1, b2, b3] }

/-- The channel entries of a payload of whole entries. -/
def channelEntries : List Byte → Option (List ChannelEntry)
  | [] => some []
  | a :: b :: c :: d :: rest => (channelEntries rest).map (channelEntryOf a b c d :: ·)
  | _ => none

/-- A SAMPLE payload is 1..8 whole entries (R9, R199). -/
def sampleOf (payload : List Byte) : Option (List ChannelEntry) :=
  match channelEntries payload with
  | some es => if 1 ≤ es.length ∧ es.length ≤ 8 then some es else none
  | none => none

/-- Position codes (R200). -/
def Position.ofCode : Nat → Option Position
  | 0 => some .openFull | 1 => some .closing | 2 => some .closedPressure | 3 => some .opening
  | 4 => some .stopped | _ => none

/-- Position codes (R200). -/
def Position.code : Position → Nat
  | .openFull => 0 | .closing => 1 | .closedPressure => 2 | .opening => 3 | .stopped => 4

/-- A press STATUS payload, 6 bytes (R9, R200). -/
def pressReportOf (payload : List Byte) (arrival : Time) : Option PressReport :=
  if payload.length = 6 then
    (Position.ofCode (natAt payload 0 1)).map fun p =>
      { position := p, tonnage := natAt payload 1 2, mould := natAt payload 3 2
        cavityClear := decide (natAt payload 5 1 % 2 = 1), arrival := arrival }
  else none

/-- Ejector position codes (R200). -/
def EjectorPosition.ofCode : Nat → Option EjectorPosition
  | 0 => some .retracted | 1 => some .extended | _ => none

/-- Ejector position codes (R200). -/
def EjectorPosition.code : EjectorPosition → Nat
  | .retracted => 0 | .extended => 1

/-- An ejector STATUS payload, 4 bytes (R9, R200). -/
def ejectorReportOf (payload : List Byte) (arrival : Time) : Option EjectorReport :=
  if payload.length = 4 then
    (EjectorPosition.ofCode (natAt payload 3 1)).map fun p =>
      { force := natAt payload 0 3, position := p, arrival := arrival }
  else none

/-- A press command (R203): the three gated codes, or another code, which passes. -/
inductive PressCommand where
  | close | openPlain | openEmergency
  | service (code : Nat)
deriving DecidableEq, Repr

/-- Command codes (R203). -/
def closeCode : Nat := 1
/-- Command codes (R203). -/
def openCode : Nat := 2
/-- Command codes (R203). -/
def openEmergencyCode : Nat := 3
/-- Command codes (R203). -/
def ejectOnCode : Nat := 4
/-- Command codes (R203). -/
def ejectOffCode : Nat := 5

/-- A COMMAND payload (R15, R203): at least 1 byte, and exactly 1 byte for the three gated codes. -/
def pressCommandOf (payload : List Byte) : Option PressCommand :=
  match payload with
  | [] => none
  | code :: args =>
    if code.toNat = closeCode then (if args = [] then some .close else none)
    else if code.toNat = openCode then (if args = [] then some .openPlain else none)
    else if code.toNat = openEmergencyCode then (if args = [] then some .openEmergency else none)
    else some (.service code.toNat)

/-! ## Requests (R201, R204) -/

/-- The nine tables (section 2.1). -/
inductive TableId where
  | node | zone | recipe | mould | rate | scale | press | cell | exports
deriving DecidableEq, Repr

/-- Table identifiers (R204). -/
def TableId.ofCode : Nat → Option TableId
  | 0 => some .node | 1 => some .zone | 2 => some .recipe | 3 => some .mould | 4 => some .rate
  | 5 => some .scale | 6 => some .press | 7 => some .cell | 8 => some .exports | _ => none

/-- Table identifiers (R204). -/
def TableId.code : TableId → Nat
  | .node => 0 | .zone => 1 | .recipe => 2 | .mould => 3 | .rate => 4 | .scale => 5 | .press => 6
  | .cell => 7 | .exports => 8

/-- Entries of each table (section 2.1). -/
def TableId.entries : TableId → Nat
  | .node => 64 | .zone => 48 | .recipe => 32 | .mould => 64 | .rate => 4 | .scale => 2 | .press => 4
  | .cell => 1 | .exports => 1

/-- Entries per request of each table (section 2.1). -/
def TableId.perRequest : TableId → Nat
  | .node => 32 | .zone => 4 | .recipe => 4 | .mould => 32 | .rate => 1 | .scale => 2 | .press => 4
  | .cell => 1 | .exports => 1

/-- Entry lengths in bytes (R197); a Rate entry's length follows from its point count. -/
def TableId.entryLength : TableId → Nat
  | .node => 3 | .zone => 20 | .recipe => 38 | .mould => 3 | .rate => 1 | .scale => 24 | .press => 7
  | .cell => 6 | .exports => 23

/-- The status blocks (R191). -/
inductive Block where
  | link | zone | heat | cure | scale | press | eject | history | report
deriving DecidableEq, Repr

/-- Block numbers (R204). -/
def Block.ofCode : Nat → Option Block
  | 0 => some .link | 1 => some .zone | 2 => some .heat | 3 => some .cure | 4 => some .scale
  | 5 => some .press | 6 => some .eject | 7 => some .history | 8 => some .report | _ => none

/-- A management request whose code and arguments are encoded as R204 lays them out. Numbers are as
the bytes give them; each request's own tests judge them. -/
inductive Request where
  | readTable (table : TableId) (start count : Nat)
  | writeTable (table : TableId) (start count : Nat) (entries : List Byte)
  | setSetpoint (zone : Nat) (value : Int)
  | clearOverride (zone : Nat)
  | zoneEnable (zone : Nat)
  | zoneDisable (zone : Nat)
  | zoneRestore (zone : Nat)
  | pressEnable (press : Nat)
  | pressDisable (press : Nat)
  | pressReset (press : Nat)
  | forceDemould (press : Nat)
  | setupOn (press : Nat)
  | setupOff (press : Nat)
  | step (press : Nat)
  | scaleTare (scale : Nat)
  | readStatus (block : Block) (index count : Nat)
  | readHistory (serial : Option Nat) (count : Nat)
  | advanceRead (count : Nat)
  | setSerialBase (value : Nat)
  | lockProfile (press buffer : Nat)
  | unlockProfile (press buffer : Nat)
  | readProfile (press buffer first count : Nat)
  | readEvents
  | clearEvents (kinds : BitVec 32)
  | setEventEnable (kinds : BitVec 32)
  | reset (kind : ResetKind)
deriving DecidableEq, Repr

/-- The entry bytes of a WRITE_TABLE have the length the count and the entries call for (R27). -/
def entriesFit (table : TableId) (count : Nat) (es : List Byte) : Bool :=
  match table with
  | .rate => decide (es.length = 1 + 4 * natAt es 0 1) && decide (es ≠ [])
  | t => decide (es.length = count * t.entryLength)

/-- WRITE_TABLE's arguments (R27). -/
def writeTableOf (table : TableId) (start count : Nat) (es : List Byte) : Option Request :=
  if count = 0 ∨ table.perRequest < count ∨ entriesFit table count es = false then none
  else some (.writeTable table start count es)

/-- SET_SETPOINT: action 0 SET carries a value, action 1 CLEAR_OVERRIDE carries none (R204). -/
def setpointOf (zone action : Nat) (value : List Byte) : Option Request :=
  if action = 0 ∧ value.length = 2 then some (.setSetpoint zone (intOf value))
  else if action = 1 ∧ value = [] then some (.clearOverride zone)
  else none

/-- ZONE_CONTROL actions (R204). -/
def zoneControlOf (zone : Nat) : Nat → Option Request
  | 0 => some (.zoneEnable zone) | 1 => some (.zoneDisable zone) | 2 => some (.zoneRestore zone)
  | _ => none

/-- PRESS_CONTROL actions (R204). -/
def pressControlOf (press : Nat) : Nat → Option Request
  | 0 => some (.pressEnable press) | 1 => some (.pressDisable press) | 2 => some (.pressReset press)
  | 3 => some (.forceDemould press) | 4 => some (.setupOn press) | 5 => some (.setupOff press)
  | 6 => some (.step press) | _ => none

/-- READ_STATUS: the count is there for the ZONE block only (R204). -/
def readStatusOf (block : Block) (index : Nat) (count : List Byte) : Option Request :=
  match block, count with
  | .zone, [c] => some (.readStatus .zone index c.toNat)
  | .zone, _ => none
  | b, [] => some (.readStatus b index 0)
  | _, _ => none

/-- READ_HISTORY: start 0 is the read cursor, 1 a serial (R204). -/
def readHistoryOf (start : Nat) (serial : List Byte) (count : Nat) : Option Request :=
  if start = 0 then some (.readHistory none count)
  else if start = 1 then some (.readHistory (some (natOf serial)) count)
  else none

/-- RESET: 0 WARM, 1 COLD (R204). -/
def resetOf : Nat → Option Request
  | 0 => some (.reset .warm) | 1 => some (.reset .cold) | _ => none

/-- READ_TABLE's arguments (R30). -/
def readTableOf : List Byte → Option Request
  | [t, i, n] =>
    (TableId.ofCode t.toNat).bind fun table =>
      if n.toNat = 0 then none else some (.readTable table i.toNat n.toNat)
  | _ => none

/-- WRITE_TABLE's arguments (R27): identifier, start index, count, entries. -/
def writeTableArgs : List Byte → Option Request
  | t :: i :: n :: es =>
    (TableId.ofCode t.toNat).bind fun table => writeTableOf table i.toNat n.toNat es
  | _ => none

/-- SET_SETPOINT's arguments: zone, action, value (R204). -/
def setpointArgs : List Byte → Option Request
  | z :: a :: value => setpointOf z.toNat a.toNat value
  | _ => none

/-- READ_STATUS's arguments: block, index, count (R204). -/
def readStatusArgs : List Byte → Option Request
  | b :: i :: count => (Block.ofCode b.toNat).bind fun block => readStatusOf block i.toNat count
  | _ => none

/-- READ_HISTORY's arguments: start, serial, count (R204). -/
def readHistoryArgs : List Byte → Option Request
  | [s, s1, s2, s3, s4, n] => readHistoryOf s.toNat [s1, s2, s3, s4] n.toNat
  | _ => none

/-- READ_PROFILE's arguments: press, buffer, first point, count (R204). -/
def readProfileArgs : List Byte → Option Request
  | [p, b, i, n] => some (.readProfile p.toNat b.toNat i.toNat n.toNat)
  | _ => none

/-- No argument. -/
def noArgs (r : Request) : List Byte → Option Request
  | [] => some r
  | _ => none

/-- One argument of 1 byte. -/
def oneByte (f : Nat → Option Request) : List Byte → Option Request
  | [a] => f a.toNat
  | _ => none

/-- Two arguments of 1 byte. -/
def twoBytes (f : Nat → Nat → Option Request) : List Byte → Option Request
  | [a, b] => f a.toNat b.toNat
  | _ => none

/-- One unsigned argument of `k` bytes. -/
def oneNumber (k : Nat) (f : Nat → Request) (args : List Byte) : Option Request :=
  if args.length = k then some (f (natOf args)) else none

/-- SCALE_CONTROL: the one action is 0 TARE (R204). -/
def scaleControlOf (scale action : Nat) : Option Request :=
  if action = 0 then some (.scaleTare scale) else none

/-- The arguments of each request code (R204); none for a code, value or length that R190 answers
BAD_REQUEST. -/
def requestOf (code : Nat) (args : List Byte) : Option Request :=
  match code with
  | 1 => readTableOf args
  | 2 => writeTableArgs args
  | 3 => setpointArgs args
  | 4 => twoBytes zoneControlOf args
  | 5 => twoBytes pressControlOf args
  | 6 => twoBytes scaleControlOf args
  | 7 => readStatusArgs args
  | 8 => readHistoryArgs args
  | 9 => oneNumber 2 .advanceRead args
  | 10 => oneNumber 4 .setSerialBase args
  | 11 => twoBytes (fun p b => some (.lockProfile p b)) args
  | 12 => twoBytes (fun p b => some (.unlockProfile p b)) args
  | 13 => readProfileArgs args
  | 14 => noArgs .readEvents args
  | 15 => oneNumber 4 (fun n => .clearEvents (BitVec.ofNat 32 n)) args
  | 16 => oneNumber 4 (fun n => .setEventEnable (BitVec.ofNat 32 n)) args
  | 17 => oneByte resetOf args
  | _ => none

/-- A MGMT_REQ payload: code, tag, arguments (R201). None is answered BAD_REQUEST (R190). -/
def decodeRequest (payload : List Byte) : Option Request :=
  match payload with
  | code :: _ :: args => requestOf code.toNat args
  | _ => none

/-- Result codes (R201). -/
inductive Result where
  | ok | badRequest | range | badEntry | inUse | busy | refusedState | notLocked | unconfigured
deriving DecidableEq, Repr

/-- Result codes (R201). -/
def Result.code : Result → Nat
  | .ok => 0 | .badRequest => 1 | .range => 2 | .badEntry => 3 | .inUse => 4 | .busy => 5
  | .refusedState => 6 | .notLocked => 7 | .unconfigured => 8

/-! ## Table entries (R197) -/

/-- A flag byte names clear or set; any other value is out of the flag's range (log 13). -/
def flagOf : Nat → Option Bool
  | 0 => some false | 1 => some true | _ => none

/-- A pair: node first, node 255 for none; a node above 63 or a line above 7 is out of range. The outer
none is a pair out of range. -/
def refOf (node line : Nat) : Option (Option NodeRef) :=
  if node = 255 then some none
  else if node ≤ 63 ∧ line ≤ 7 then some (some { node := node, line := line })
  else none

/-- A pair as two bytes (R197). -/
def refBytes : Option NodeRef → List Byte
  | some r => [BitVec.ofNat 8 r.node, BitVec.ofNat 8 r.line]
  | none => [255#8, 0#8]

/-- Roles in the order of section 1.4's list. -/
def Role.ofCode : Nat → Option Role
  | 0 => some .none | 1 => some .thermo | 2 => some .heater | 3 => some .scale | 4 => some .press
  | 5 => some .ejector | _ => Option.none

/-- Roles in the order of section 1.4's list. -/
def Role.code : Role → Nat
  | .none => 0 | .thermo => 1 | .heater => 2 | .scale => 3 | .press => 4 | .ejector => 5

/-- Scale modes in the order of section 6.1's list. -/
def ScaleMode.ofCode : Nat → Option ScaleMode
  | 0 => some .single | 1 => some .sum | 2 => some .check | _ => none

/-- Scale modes in the order of section 6.1's list. -/
def ScaleMode.code : ScaleMode → Nat
  | .single => 0 | .sum => 1 | .check => 2

/-- Policies in the order of section 2.6's list. -/
def Policy.ofCode : Nat → Option Policy
  | 0 => some .hold | 1 => some .overwrite | _ => none

/-- Policies in the order of section 2.6's list. -/
def Policy.code : Policy → Nat
  | .hold => 0 | .overwrite => 1

/-- Filter modes in the order of section 10.1's list. -/
def FilterMode.ofCode : Nat → Option FilterMode
  | 0 => some .off | 1 => some .accept | 2 => some .reject | _ => none

/-- Filter modes in the order of section 10.1's list. -/
def FilterMode.code : FilterMode → Nat
  | .off => 0 | .accept => 1 | .reject => 2

/-- Node entry, 3 bytes. -/
def nodeEntryOf (bs : List Byte) : Option NodeEntry :=
  match Role.ofCode (natAt bs 0 1), flagOf (natAt bs 2 1) with
  | some role, some up => some { role := role, unit := natAt bs 1 1, forwardUp := up }
  | _, _ => none

/-- Node entry, 3 bytes. -/
def nodeEntryBytes (e : NodeEntry) : List Byte :=
  natBytes 1 e.role.code ++ natBytes 1 e.unit ++ flagByte e.forwardUp

/-- Zone entry, 20 bytes; the enabled byte is judged as a flag and not stored (R46). -/
def zoneEntryOf (bs : List Byte) : Option ZoneEntry :=
  match flagOf (natAt bs 0 1), refOf (natAt bs 1 1) (natAt bs 2 1),
    refOf (natAt bs 3 1) (natAt bs 4 1), refOf (natAt bs 5 1) (natAt bs 6 1),
    flagOf (natAt bs 7 1) with
  | some _, some primary, some backup, some heater, some reference =>
    some { primary := primary, backup := backup, heater := heater, cureReference := reference
           offset := intAt bs 8 2, feedForward := natAt bs 10 2, maxDuty := natAt bs 12 2
           limit := natAt bs 14 2, kp := natAt bs 16 2, ki := natAt bs 18 2 }
  | _, _, _, _, _ => none

/-- Zone entry, 20 bytes, with the zone's present enable state (R46). -/
def zoneEntryBytes (enabled : Bool) (e : ZoneEntry) : List Byte :=
  flagByte enabled ++ refBytes e.primary ++ refBytes e.backup ++ refBytes e.heater
    ++ flagByte e.cureReference ++ intBytes 2 e.offset ++ natBytes 2 e.feedForward
    ++ natBytes 2 e.maxDuty ++ natBytes 2 e.limit ++ natBytes 2 e.kp ++ natBytes 2 e.ki

/-- Recipe entry, 38 bytes. -/
def recipeOf (bs : List Byte) : Option Recipe :=
  (flagOf (natAt bs 0 1)).map fun valid =>
    { valid := valid, mould := natAt bs 1 2, upper := natAt bs 3 2, lower := natAt bs 5 2
      rateTable := natAt bs 7 1, cureTarget := natAt bs 8 2, minDwell := natAt bs 10 2
      maxCure := natAt bs 12 2, profileInterval := natAt bs 14 1, scale := natAt bs 15 1
      chargeTarget := natAt bs 16 3, tolMinus := natAt bs 19 2, tolPlus := natAt bs 21 2
      loadLimit := natAt bs 23 2, minTonnage := natAt bs 25 2, closeTimeout := natAt bs 27 1
      ejectA := natAt bs 28 2, ejectB := natAt bs 30 2, stuckForce := natAt bs 32 2
      deviationBand := natAt bs 34 2, readyBand := natAt bs 36 2 }

/-- Recipe entry, 38 bytes. -/
def recipeBytes (r : Recipe) : List Byte :=
  flagByte r.valid ++ natBytes 2 r.mould ++ natBytes 2 r.upper ++ natBytes 2 r.lower
    ++ natBytes 1 r.rateTable ++ natBytes 2 r.cureTarget ++ natBytes 2 r.minDwell
    ++ natBytes 2 r.maxCure ++ natBytes 1 r.profileInterval ++ natBytes 1 r.scale
    ++ natBytes 3 r.chargeTarget ++ natBytes 2 r.tolMinus ++ natBytes 2 r.tolPlus
    ++ natBytes 2 r.loadLimit ++ natBytes 2 r.minTonnage ++ natBytes 1 r.closeTimeout
    ++ natBytes 2 r.ejectA ++ natBytes 2 r.ejectB ++ natBytes 2 r.stuckForce
    ++ natBytes 2 r.deviationBand ++ natBytes 2 r.readyBand

/-- Mould entry, 3 bytes. -/
def mouldEntryOf (bs : List Byte) : Option MouldEntry :=
  some { mould := natAt bs 0 2, recipe := natAt bs 2 1 }

/-- Mould entry, 3 bytes. -/
def mouldEntryBytes (e : MouldEntry) : List Byte := natBytes 2 e.mould ++ natBytes 1 e.recipe

/-- The points of a Rate entry: temperature, then factor, 2 bytes each. -/
def ratePoints : List Byte → List RatePoint
  | a :: b :: c :: d :: rest => { temp := intOf [a, b], factor := natOf [c, d] } :: ratePoints rest
  | _ => []

/-- Rate entry: its point count, then its points (R197). -/
def rateEntryOf (bs : List Byte) : Option (List RatePoint) := some (ratePoints (bs.drop 1))

/-- Rate entry: its point count, then its points (R197). -/
def rateEntryBytes (points : List RatePoint) : List Byte :=
  natBytes 1 points.length ++ points.flatMap fun p => intBytes 2 p.temp ++ natBytes 2 p.factor

/-- Scale entry, 24 bytes. -/
def scaleEntryOf (bs : List Byte) : Option ScaleEntry :=
  match flagOf (natAt bs 0 1), ScaleMode.ofCode (natAt bs 1 1), refOf (natAt bs 2 1) (natAt bs 3 1),
    refOf (natAt bs 4 1) (natAt bs 5 1) with
  | some enabled, some mode, some a, some b =>
    some { enabled := enabled, mode := mode, channelA := a, channelB := b, windowN := natAt bs 6 1
           settleBand := natAt bs 7 2, emptyThreshold := natAt bs 9 3
           loadThreshold := natAt bs 12 3, capacity := natAt bs 15 3, zeroTrack := natAt bs 18 2
           checkBand := natAt bs 20 2, liftTime := natAt bs 22 2 }
  | _, _, _, _ => none

/-- Scale entry, 24 bytes. -/
def scaleEntryBytes (e : ScaleEntry) : List Byte :=
  flagByte e.enabled ++ natBytes 1 e.mode.code ++ refBytes e.channelA ++ refBytes e.channelB
    ++ natBytes 1 e.windowN ++ natBytes 2 e.settleBand ++ natBytes 3 e.emptyThreshold
    ++ natBytes 3 e.loadThreshold ++ natBytes 3 e.capacity ++ natBytes 2 e.zeroTrack
    ++ natBytes 2 e.checkBand ++ natBytes 2 e.liftTime

/-- Press entry, 7 bytes. -/
def pressEntryOf (bs : List Byte) : Option PressEntry :=
  some { period := natAt bs 0 2, holdLimit := natAt bs 2 1, maxGap := natAt bs 3 2
         ramp := natAt bs 5 2 }

/-- Press entry, 7 bytes. -/
def pressEntryBytes (e : PressEntry) : List Byte :=
  natBytes 2 e.period ++ natBytes 1 e.holdLimit ++ natBytes 2 e.maxGap ++ natBytes 2 e.ramp

/-- Cell entry, 6 bytes. -/
def cellEntryOf (bs : List Byte) : Option CellEntry :=
  (Policy.ofCode (natAt bs 1 1)).map fun policy =>
    { controller := natAt bs 0 1, policy := policy, highMark := natAt bs 2 2
      lowMark := natAt bs 4 2 }

/-- Cell entry, 6 bytes. -/
def cellEntryBytes (e : CellEntry) : List Byte :=
  natBytes 1 e.controller ++ natBytes 1 e.policy.code ++ natBytes 2 e.highMark
    ++ natBytes 2 e.lowMark

/-- Filter `i` of an Export entry. The field list of section 10.1 has one row for the modes, one for the
lows and one for the highs of filters 0..3, so four modes stand first, then four lows, then four highs. That
R197 means this order, and not filter by filter, is the model's reading (DEDUCED, log 25). -/
def filterAt (bs : List Byte) (i : Nat) : Option Filter :=
  (FilterMode.ofCode (natAt bs (3 + i) 1)).map fun mode =>
    { mode := mode, low := natAt bs (7 + 2 * i) 2, high := natAt bs (15 + 2 * i) 2 }

/-- A set of four as one byte, bit i for the i-th outcome of section 10.1's list or for press i, as the record's
flag set has it (DEDUCED, log 31); higher bits name nothing (log 13). -/
def setOf (n : Nat) : Option (BitVec 4) := if n < 16 then some (BitVec.ofNat 4 n) else none

/-- Export entry, 23 bytes, in the order of section 10.1's rows (log 25). -/
def exportEntryOf (bs : List Byte) : Option ExportEntry :=
  match flagOf (natAt bs 0 1), setOf (natAt bs 1 1), setOf (natAt bs 2 1), filterAt bs 0,
    filterAt bs 1, filterAt bs 2, filterAt bs 3 with
  | some enable, some outcomes, some presses, some f0, some f1, some f2, some f3 =>
    some { enable := enable, outcomes := outcomes, presses := presses
           filters := #v[f0, f1, f2, f3] }
  | _, _, _, _, _, _, _ => none

/-- Export entry, 23 bytes, in the order of section 10.1's rows: the filters' modes, lows, highs (log 25). -/
def exportEntryBytes (e : ExportEntry) : List Byte :=
  flagByte e.enable ++ natBytes 1 e.outcomes.toNat ++ natBytes 1 e.presses.toNat
    ++ e.filters.toList.flatMap (fun f => natBytes 1 f.mode.code)
    ++ e.filters.toList.flatMap (fun f => natBytes 2 f.low)
    ++ e.filters.toList.flatMap (fun f => natBytes 2 f.high)

/-- The bytes of a write cut into entries of a fixed length; none if an entry names a value that its
encoding does not have (R27: a failure of validation). -/
def entriesOf {α : Type} (length : Nat) (read : List Byte → Option α) : Nat → List Byte → Option (List α)
  | 0, _ => some []
  | n + 1, bs =>
    match read (bs.take length), entriesOf length read n (bs.drop length) with
    | some e, some es => some (e :: es)
    | _, _ => none

end Sys2Proof.Machine
end

