-- ==== Sys2Proof/Machine/Ops.lean ====
section
/-! DEFINITION. The named operations over the state: access to each unit's part, time, the tables as the
blocks read them, and the fields of the OPEN history record. -/

namespace Sys2Proof.Machine

/-! ## Small arithmetic (R1) -/

/-- A counter that saturates stays at its maximum (R1). -/
def satSucc (max n : Nat) : Nat := min (n + 1) max

/-- A clamped value is set to the nearer end of its range (R1). -/
def clampInt (low high x : Int) : Int := max low (min high x)

/-- The difference of two times, modulo 2^32 (R2). -/
def since (now start : Time) : Nat := (now - start).toNat

/-- The press of a zone: z div 12 (section 3). -/
def pressOf (z : ZoneNo) : PressNo := ⟨z.val / 12, by omega⟩

/-- A zone lies on the upper platen if z mod 12 is less than 6 (section 3). -/
def isUpper (z : ZoneNo) : Bool := decide (z.val % 12 < 6)

/-- The twelve zones of a press, in ascending order. -/
def zonesOf (p : PressNo) : List ZoneNo :=
  (List.finRange 12).map fun i => ⟨p.val * 12 + i.val, by omega⟩

/-- Buffer `b` of press `p` (R170). -/
def bufferNo (p : PressNo) (b : Fin 2) : Fin 8 := ⟨p.val * 2 + b.val, by omega⟩

/-- The slot after a slot, in the ring's circular order (section 9.3). -/
def nextSlot (i : Fin 512) : Fin 512 := ⟨(i.val + 1) % 512, by omega⟩

/-- The slot before a slot. -/
def prevSlot (i : Fin 512) : Fin 512 := ⟨(i.val + 511) % 512, by omega⟩

namespace State

/-! ## Parts of the state -/

/-- A port. -/
def port (s : State) : Port → PortState
  | .U => s.portU
  | .D => s.portD

/-- Change a port. -/
def modPort (p : Port) (f : PortState → PortState) (s : State) : State :=
  match p with
  | .U => { s with portU := f s.portU }
  | .D => { s with portD := f s.portD }

/-- A zone context. -/
def zone (s : State) (z : ZoneNo) : Zone := s.zones[z]

/-- Change a zone context. -/
def modZone (z : ZoneNo) (f : Zone → Zone) (s : State) : State :=
  { s with zones := s.zones.set z (f s.zones[z]) }

/-- A press's heat window. -/
def window (s : State) (p : PressNo) : HeatWindow := s.windows[p]

/-- Change a press's heat window. -/
def modWindow (p : PressNo) (f : HeatWindow → HeatWindow) (s : State) : State :=
  { s with windows := s.windows.set p (f s.windows[p]) }

/-- A press's cure context. -/
def cure (s : State) (p : PressNo) : Cure := s.cures[p]

/-- Change a press's cure context. -/
def modCure (p : PressNo) (f : Cure → Cure) (s : State) : State :=
  { s with cures := s.cures.set p (f s.cures[p]) }

/-- A zone's accrual context. -/
def accrual (s : State) (z : ZoneNo) : Accrual := s.accruals[z]

/-- Change a zone's accrual context. -/
def modAccrual (z : ZoneNo) (f : Accrual → Accrual) (s : State) : State :=
  { s with accruals := s.accruals.set z (f s.accruals[z]) }

/-- A scale context. -/
def scale (s : State) (k : ScaleNo) : Scale := s.scales[k]

/-- Change a scale context. -/
def modScale (k : ScaleNo) (f : Scale → Scale) (s : State) : State :=
  { s with scales := s.scales.set k (f s.scales[k]) }

/-- A press unit. -/
def unit (s : State) (p : PressNo) : PressUnit := s.units[p]

/-- Change a press unit. -/
def modUnit (p : PressNo) (f : PressUnit → PressUnit) (s : State) : State :=
  { s with units := s.units.set p (f s.units[p]) }

/-- An ejector context. -/
def ejector (s : State) (p : PressNo) : Ejector := s.ejectors[p]

/-- Change an ejector context. -/
def modEjector (p : PressNo) (f : Ejector → Ejector) (s : State) : State :=
  { s with ejectors := s.ejectors.set p (f s.ejectors[p]) }

/-- A profile buffer. -/
def profile (s : State) (p : PressNo) (b : Fin 2) : Profile := s.profiles[bufferNo p b]

/-- Change a profile buffer. -/
def modProfile (p : PressNo) (b : Fin 2) (f : Profile → Profile) (s : State) : State :=
  { s with profiles := s.profiles.set (bufferNo p b) (f s.profiles[bufferNo p b]) }

/-- Change the loaded tables. -/
def modTables (f : Tables → Tables) (s : State) : State := { s with tables := f s.tables }

/-- Change the ring state. -/
def modHistory (f : History → History) (s : State) : State := { s with history := f s.history }

/-- Run an operation for each member of a list, in order. -/
def each {α : Type} (f : α → State → State) : List α → State → State
  | [], s => s
  | a :: rest, s => each f rest (f a s)

/-- Run an operation only when a condition holds. -/
def doIf (c : Bool) (f : State → State) (s : State) : State := if c then f s else s

/-! ## Modes -/

/-- The part runs in NORMAL mode and no COLD shutdown is under way: events are raised, counters move and
frames are originated (R5, R194). -/
def live (s : State) : Bool :=
  match s.mode with
  | .normal _ => !s.shutdown
  | .passive => false

/-- The own address; a PASSIVE part has none (R4), and then sends nothing of its own. -/
def ownAddress (s : State) : Nat :=
  match s.mode with
  | .normal own => own
  | .passive => 0

/-- The controller address as it stands (R43). -/
def controller (s : State) : Nat := s.tables.cell.controller

/-! ## Tables as the blocks read them (R31) -/

/-- A zone's entry. -/
def zoneEntry (s : State) (z : ZoneNo) : ZoneEntry := s.tables.zones[z]

/-- A press's entry. -/
def pressEntry (s : State) (p : PressNo) : PressEntry := s.tables.presses[p]

/-- A scale's entry. -/
def scaleEntry (s : State) (k : ScaleNo) : ScaleEntry := s.tables.scales[k]

/-- The entry of a node address; an address above 63 names no node. -/
def node (s : State) (a : Nat) : NodeEntry := (s.tables.nodes[a]?).getD NodeEntry.atReset

/-- The address of the node with a role and unit, if there is one (R11 lets PRESS and EJECTOR have one). -/
def nodeOf (s : State) (role : Role) (unit : Nat) : Option Nat :=
  (List.range 64).find? fun a => (s.node a).role == role && (s.node a).unit == unit

/-- The recipe a press unit is bound to (R33, R34). -/
def boundRecipe (s : State) (p : PressNo) : Option Recipe :=
  (s.unit p).binding.map fun b => s.tables.recipes[b.recipe]

/-- The rate table a recipe names; stored recipes name 0..3 (R32). -/
def rateOf (s : State) (r : Recipe) : List RatePoint := (s.tables.rates[r.rateTable]?).getD []

/-! ## Zones -/

/-- A zone is enabled in any state but DISABLED (section 3.2). -/
def enabled (s : State) (z : ZoneNo) : Bool := (s.zone z).state != .disabled

/-- The enabled zones of a press in ascending order. -/
def enabledZones (s : State) (p : PressNo) : List ZoneNo := (zonesOf p).filter s.enabled

/-- Some zone of the part is enabled (R14). -/
def anyEnabled (s : State) : Bool := (List.finRange 48).any s.enabled

/-! ## Queues -/

/-- Port D OWN has a free place (R79, R153). -/
def freePlaceD (s : State) : Bool := decide (s.portD.own.length < Config.ownPlaces)

/-! ## The OPEN history record (R157, R158) -/

/-- The OPEN record of a press, if it has one. -/
def openRecord (s : State) (p : PressNo) : Option Record :=
  s.history.openRecord[p].bind fun i => s.history.slots[i]

/-- Write fields of the OPEN record of a press; where it has none the write is not made (R158). -/
def modRecord (p : PressNo) (f : Record → Record) (s : State) : State :=
  match s.history.openRecord[p] with
  | some i => s.modHistory fun h => { h with slots := h.slots.set i (h.slots[i].map f) }
  | none => s

end State

/-! ## A cycle -/

/-- The cycle states (section 7.2). -/
def UnitState.inCycle : UnitState → Bool
  | .closing | .cure | .demouldWait | .opening | .eject | .unload => true
  | .disabled | .idle | .chargeWait | .chargeReady | .fault => false

/-- The states in which a unit is bound (R33). -/
def UnitState.isBound : UnitState → Bool
  | .disabled | .idle => false
  | .chargeWait | .chargeReady | .closing | .cure | .demouldWait | .opening | .eject | .unload
  | .fault => true

end Sys2Proof.Machine
end

