-- ==== Sys2Proof/Machine/Flags.lean ====
section
/-! DEFINITION. Every flag of the part that an event moves: record flags and notes (R158, R159), the event
table (R183, R184), attention and its pin (R185). -/

namespace Sys2Proof.Machine

/-! ## Record flags (section 9.1) -/

/-- The 17 record flags, in the order of section 9.1's list. -/
inductive RecordFlag where
  | cureDegraded | cureLost | cureTimeout | closeTimeout | sensorSwitched | zoneDeviation | overtemp
  | pressureLoss | latePressure | forcedDemould | emergencyOpen | ejectStuck | mouldChanged | setup
  | profileSkipped | profileTruncated | resetAbort
deriving DecidableEq, Repr

/-- The bit of a flag: bit i is the i-th flag of the list (R202). -/
def RecordFlag.bit : RecordFlag → Nat
  | .cureDegraded => 0 | .cureLost => 1 | .cureTimeout => 2 | .closeTimeout => 3
  | .sensorSwitched => 4 | .zoneDeviation => 5 | .overtemp => 6 | .pressureLoss => 7
  | .latePressure => 8 | .forcedDemould => 9 | .emergencyOpen => 10 | .ejectStuck => 11
  | .mouldChanged => 12 | .setup => 13 | .profileSkipped => 14 | .profileTruncated => 15
  | .resetAbort => 16

/-- A record carries a flag. -/
def Record.has (r : Record) (f : RecordFlag) : Bool := r.flags.getLsbD f.bit

/-- Set a flag; setting a set flag changes nothing (section 9.1). -/
def Record.set (r : Record) (f : RecordFlag) : Record :=
  { r with flags := r.flags ||| (1#17 <<< f.bit) }

namespace State

/-- Set a record flag in a press's OPEN record, if it has one (R158). -/
def setFlag (p : PressNo) (f : RecordFlag) (s : State) : State := s.modRecord p (·.set f)

end State

/-! ## Event kinds and instances (section 10.3) -/

/-- The number of a kind. -/
def EventKind.number : EventKind → Fin 25
  | .linkCheck => 0 | .linkDrop => 1 | .heaterConflict => 2 | .sensorFault => 3 | .sensorSwitch => 4
  | .zoneLost => 5 | .overtemp => 6 | .zoneDeviation => 7 | .sampleGap => 8 | .chargeReject => 9
  | .tareLimit => 10 | .scaleMismatch => 11 | .scaleOverload => 12 | .chargeDiscard => 13
  | .closeRefused => 14 | .openRefused => 15 | .emergencyOpen => 16 | .cureDone => 17
  | .cureLost => 18 | .pressTimeout => 19 | .ejectStuck => 20 | .mouldChange => 21
  | .historyMark => 22 | .historyLoss => 23 | .exportOverflow => 24

/-- What an event is raised with (section 1.8, section 10.3). -/
inductive EventOn where
  | nothing
  | port (p : Port)
  | node (n : Nat)
  | zone (z : ZoneNo)
  | scale (k : ScaleNo)
  | press (p : PressNo)
deriving DecidableEq, Repr

/-- The number held and reported for it: 255 for none, port U 0 and port D 1 (section 10.3). -/
def EventOn.code : EventOn → Nat
  | .nothing => 255
  | .port .U => 0
  | .port .D => 1
  | .node n => n
  | .zone z => z.val
  | .scale k => k.val
  | .press p => p.val

/-- A kind is pending while it is raw and enabled (R183). -/
def EventEntry.pending (e : EventEntry) : Bool := e.raw && e.enable

namespace State

/-- The presses whose OPEN records note an event (R159). -/
def notedPresses (s : State) : EventOn → List PressNo
  | .press p => [p]
  | .zone z => [pressOf z]
  | .scale k => (List.finRange 4).filter fun p => (s.boundRecipe p).any fun r => r.scale == k.val
  | .nothing | .port _ | .node _ => []

/-- Add a note to a record: the first four are kept, the rest counted (R159). -/
def addNote (n : Note) (r : Record) : Record :=
  if r.notes.length < Config.notePlaces then { r with notes := r.notes ++ [n] }
  else { r with notesDropped := satSucc 255 r.notesDropped }

/-- Note an event in the OPEN records its instance belongs to (R159). -/
def noteEvent (t : Time) (k : EventKind) (i : EventOn) (s : State) : State :=
  each (fun p => modRecord p (addNote { time := t, kind := k, inst := i.code })) (s.notedPresses i) s

/-- The effect of one raise on its kind's entry (R184). -/
def raisedEntry (t : Time) (inst : Nat) (e : EventEntry) : EventEntry :=
  { e with raw := true, first := if e.raw then e.first else inst
           time := if e.raw then e.time else some t, count := satSucc 255 e.count }

/-- A raise without its evaluation of attention: the entry, then the notes (R184). -/
def raiseEntry (t : Time) (k : EventKind) (i : EventOn) (s : State) : State :=
  noteEvent t k i
    { s with events := s.events.set k.number (raisedEntry t i.code s.events[k.number]) }

/-- Some kind is pending (R183). -/
def anyPending (s : State) : Bool := (List.finRange 25).any fun k => s.events[k].pending

/-- The EVENT frame's payload: the time, the number of pending kinds, each with its first instance and
count, in ascending kind number (R185, R203). -/
def eventPayload (t : Time) (s : State) : List Byte :=
  timeBytes t ++ listBytes
    (fun k : Fin 25 => natBytes 1 k.val ++ natBytes 1 s.events[k].first ++ natBytes 1 s.events[k].count)
    ((List.finRange 25).filter fun k => s.events[k].pending)

/-- The EVENT frame joins Port U OWN. A full queue drops it with the count and LINK_DROP of R21, whose
own evaluation finds attention already on and composes nothing (R185). -/
def sendEvent (t : Time) (s : State) : State :=
  if s.portU.own.length < Config.ownPlaces then
    s.modPort .U fun p => { p with own := p.own ++
      [{ dst := s.controller, src := s.ownAddress, kind := .event, payload := s.eventPayload t
         mark := .plain }] }
  else
    raiseEntry t .linkDrop (.port .U)
      (s.modPort .U fun p => { p with ownDrops := satSucc Config.max16 p.ownDrops })

/-- Evaluate attention (R185): one EVENT frame when it goes from off to on; the pin follows it. While a
WARM reset is taking effect the evaluation waits (R193). -/
def evalAttention (t : Time) (s : State) : State :=
  if s.warmTaking then s
  else if s.anyPending then
    if s.attention then s
    else sendEvent t { s with attention := true, attnPin := true }
  else { s with attention := false, attnPin := false }

/-- Raise an event, stamped `t` (R184). In PASSIVE mode (R5) and during a COLD shutdown (R194) no event
is raised. -/
def raise (t : Time) (k : EventKind) (i : EventOn) (s : State) : State :=
  if s.live then evalAttention t (raiseEntry t k i s) else s

/-- Raise an event stamped with the timebase reading (R8). -/
def raiseNow (k : EventKind) (i : EventOn) (s : State) : State := s.raise s.timebase k i

/-- An entry after its kind is cleared (R186). -/
def clearedEntry (e : EventEntry) : EventEntry :=
  { e with raw := false, first := 255, time := none, count := 0 }

/-- Clear the entries of the named kinds and evaluate attention (R186). -/
def clearEvents (kinds : Fin 25 → Bool) (s : State) : State :=
  evalAttention s.timebase
    { s with events := s.events.mapFinIdx fun i e h => if kinds ⟨i, h⟩ then clearedEntry e else e }

/-- Set every kind's enable flag and evaluate attention (R187). -/
def enableEvents (kinds : Fin 25 → Bool) (s : State) : State :=
  evalAttention s.timebase
    { s with events := s.events.mapFinIdx fun i e h => { e with enable := kinds ⟨i, h⟩ } }

end State

end Sys2Proof.Machine
end

