-- ==== Sys2Proof/Machine/Link.lean ====
section
/-! DEFINITION. The Link Interface's queues, counters and pin: frames that join a queue (R20, R21), off
frames that wait for a place (R79, R153), the transmitters (R22, R23) and the LINK pin (R26). -/

namespace Sys2Proof.Machine.State

/-! ## Counters (R25) -/

/-- A check error on a port (R7). -/
def countCheck (p : Port) (s : State) : State :=
  s.modPort p fun x => { x with checkErrors := satSucc Config.max16 x.checkErrors }

/-- A format error on a port (R9, R15). -/
def countFormat (p : Port) (s : State) : State :=
  s.modPort p fun x => { x with formatErrors := satSucc Config.max16 x.formatErrors }

/-- A frame lost to a full FWD queue (R20). -/
def countFwdDrop (p : Port) (s : State) : State :=
  s.modPort p fun x => { x with fwdDrops := satSucc Config.max16 x.fwdDrops }

/-- A frame lost to a full OWN queue (R21). -/
def countOwnDrop (p : Port) (s : State) : State :=
  s.modPort p fun x => { x with ownDrops := satSucc Config.max16 x.ownDrops }

/-- A management request not served for its source or port (R13, R19). -/
def countForeign (p : Port) (s : State) : State :=
  s.modPort p fun x => { x with foreignRequests := satSucc Config.max16 x.foreignRequests }

/-! ## Joining a queue -/

/-- A frame joins the FWD queue of the port it leaves by (R20). A full queue drops it; in PASSIVE mode
(R5) and during a COLD shutdown (R194) without a count or event. -/
def forwardTo (p : Port) (bytes : List Byte) (s : State) : State :=
  if (s.port p).fwd.length < Config.fwdPlaces then
    s.modPort p fun x => { x with fwd := x.fwd ++ [bytes] }
  else if s.live then raiseNow .linkDrop (.port p) (countFwdDrop p s)
  else s

/-- A composed frame takes a place at the tail of a port's OWN queue. -/
def pushOwn (p : Port) (f : OwnFrame) (s : State) : State :=
  s.modPort p fun x => { x with own := x.own ++ [f] }

/-- The part originates a frame: LIF completes its header, and it joins the port's OWN queue or is
dropped with the count and event of R21. A PASSIVE part (R5) and a COLD shutdown (R194) originate
nothing here. -/
def originate (p : Port) (dst : Nat) (kind : FrameKind) (payload : List Byte) (mark : Mark)
    (s : State) : State :=
  if s.live then
    if (s.port p).own.length < Config.ownPlaces then
      pushOwn p { dst := dst, src := s.ownAddress, kind := kind, payload := payload, mark := mark } s
    else raiseNow .linkDrop (.port p) (countOwnDrop p s)
  else s

/-! ## Off frames that wait for a place (R79, R153) -/

/-- The part has an own address (R4). -/
def normal (s : State) : Bool :=
  match s.mode with
  | .normal _ => true
  | .passive => false

/-- One HEAT entry: output, then duty (R203). -/
def heatEntryBytes (output duty : Nat) : List Byte := natBytes 1 output ++ natBytes 2 duty

/-- Place the owed EJECT_OFF of a press if it waits and Port D OWN has a free place (R153). -/
def placeEjectOff (p : PressNo) (s : State) : State :=
  match (s.ejector p).offOwed with
  | some o =>
    if !o.placed && s.freePlaceD then
      modEjector p (fun e => { e with offOwed := some { o with placed := true } })
        (pushOwn .D { dst := o.node, src := s.ownAddress, kind := .command
                      payload := natBytes 1 ejectOffCode, mark := .ejectOff p o.number } s)
    else s
  | none => s

/-- Mark an off command placed. -/
def markPlaced (number : Nat) (o : OffCommand) : OffCommand :=
  if o.number = number then { o with placed := true } else o

/-- Place one off command of a zone if it waits and Port D OWN has a free place (R79). -/
def placeOffCommand (z : ZoneNo) (o : OffCommand) (s : State) : State :=
  if !o.placed && s.freePlaceD then
    modZone z (fun c => { c with offs := c.offs.map (markPlaced o.number) })
      (pushOwn .D { dst := o.node, src := s.ownAddress, kind := .heat
                    payload := heatEntryBytes o.output 0, mark := .heaterOff z o.number } s)
  else s

/-- Place the off commands of a zone in the order they were created (R79). -/
def placeZoneOffs (z : ZoneNo) (s : State) : State :=
  each (placeOffCommand z) (s.zone z).offs s

/-- Owed EJECT_OFF frames take free places in ascending press order (R153). -/
def placeEjectOffs (s : State) : State :=
  if s.normal then each placeEjectOff (List.finRange 4) s else s

/-- Waiting off commands take free places in ascending zone order (R79). -/
def placeHeaterOffs (s : State) : State :=
  if s.normal then each placeZoneOffs (List.finRange 48) s else s

/-- Off frames take the free places of Port D OWN, ejector frames first (R153). -/
def placeOwed (s : State) : State := placeHeaterOffs (placeEjectOffs s)

/-! ## The transmitters (R22, R23) -/

/-- What the start of a marked frame's transmission does: the off command whose frame it is goes (R79),
the EJECT_OFF is owed no more (R153). -/
def markStarts : Mark → State → State
  | .plain, s => s
  | .resetResponse, s => s
  | .heaterOff z number, s =>
    s.modZone z fun c => { c with offs := c.offs.filter fun o => o.number != number }
  | .ejectOff p number, s =>
    s.modEjector p fun e =>
      { e with offOwed := e.offOwed.filter fun o => o.number != number }

/-- The bytes of an originated frame as its transmission starts: upstream the attention flag is set from
attention, downstream it is clear (R23). -/
def ownBytes (p : Port) (f : OwnFrame) (s : State) : List Byte :=
  frameBytes f.dst f.src f.kind.code (p == .U && s.attention) f.payload

/-- The arbiter takes the head of OWN, else the head of FWD, if the transmitter is idle (R22). -/
def takeFrame (p : Port) (s : State) : State :=
  match (s.port p).sending, (s.port p).own, (s.port p).fwd with
  | none, f :: rest, _ =>
    markStarts f.mark
      (s.modPort p fun x =>
        { x with own := rest, sending := some { bytes := ownBytes p f s, mark := f.mark } })
  | none, [], b :: rest =>
    s.modPort p fun x => { x with fwd := rest, sending := some { bytes := b, mark := .plain } }
  | none, [], [] => s
  | some _, _, _ => s

/-! ## The LINK pin (R26) -/

/-- An accepted frame or an ended transmission drives the pin on and starts its 50 ms (R26). -/
def linkActivity (s : State) : State :=
  { s with linkPin := true, linkStart := some s.timebase }

end Sys2Proof.Machine.State
end

