-- ==== Sys2Proof/Machine/History.lean ====
section
/-! DEFINITION. The History Unit (spec/09) and the export side of the Report and Event Unit (spec/10,
R179 to R181): records, the ring, serials, profiles, the filter and the export queue. -/

namespace Sys2Proof.Machine

/-! ## The exported record (R202) -/

/-- Event kind numbers as bytes. -/
def noteBytes (n : Note) : List Byte :=
  timeBytes n.time ++ natBytes 1 n.kind.number.val ++ natBytes 1 n.inst

/-- Outcome codes: 0 is absent (R202). -/
def outcomeCode : Option RecordOutcome → Nat
  | none => 0 | some .good => 1 | some .suspect => 2 | some .reject => 3 | some .aborted => 4

/-- A presence bit. -/
def presentBit (b : Bool) (i : Nat) : Nat := if b then 2 ^ i else 0

/-- The eleven presence bits (R202). -/
def presenceBits (r : Record) : Nat :=
  presentBit r.pressureTime.isSome 0 + presentBit r.loadToPressure.isSome 1
    + presentBit r.cureEnd.isSome 2 + presentBit r.openTime.isSome 3 + presentBit r.unloadTime.isSome 4
    + presentBit r.upperMin.isSome 5 + presentBit r.upperMax.isSome 6 + presentBit r.lowerMin.isSome 7
    + presentBit r.lowerMax.isSome 8 + presentBit r.peakForce.isSome 9
    + presentBit r.profileBuffer.isSome 10

/-- The state, exported and outcome byte (R202). -/
def stateByte (r : Record) : Nat :=
  (if r.state = .closed then 128 else 0) + (if r.exported then 64 else 0) + outcomeCode r.outcome

/-- The 24 bytes of the notes; entries beyond the count are zero (R202). -/
def notesBytes (notes : List Note) : List Byte :=
  (notes.flatMap noteBytes ++ List.replicate 24 0#8).take 24

/-- The record whole, 110 bytes (R202). -/
def recordBytes (r : Record) : List Byte :=
  natBytes 4 r.serial ++ natBytes 1 r.press.val ++ natBytes 1 r.recipe.val ++ natBytes 2 r.mould
    ++ natBytes 1 (stateByte r) ++ natBytes 2 (presenceBits r)
    ++ natBytes 1 r.charge.scale.val ++ intBytes 4 r.charge.net ++ intBytes 4 r.charge.mean
    ++ intBytes 4 r.charge.tare ++ natBytes 4 r.charge.target ++ natBytes 2 r.charge.tolMinus
    ++ natBytes 2 r.charge.tolPlus ++ natBytes 1 r.charge.attempts ++ timeBytes r.charge.release
    ++ timeBytes r.closeTime ++ timeBytes (r.pressureTime.getD 0)
    ++ natBytes 4 (r.loadToPressure.getD 0) ++ timeBytes (r.cureEnd.getD 0)
    ++ timeBytes (r.openTime.getD 0) ++ timeBytes (r.unloadTime.getD 0) ++ natBytes 4 r.cureAchieved
    ++ natBytes 2 r.cureTarget ++ natBytes 1 r.included ++ natBytes 1 r.excluded
    ++ intBytes 2 (r.upperMin.getD 0) ++ intBytes 2 (r.upperMax.getD 0)
    ++ intBytes 2 (r.lowerMin.getD 0) ++ intBytes 2 (r.lowerMax.getD 0)
    ++ natBytes 3 (r.peakForce.getD 0) ++ natBytes 1 ((r.profileBuffer.map Fin.val).getD 0)
    ++ natBytes 3 r.flags.toNat ++ natBytes 1 r.notes.length ++ natBytes 1 r.notesDropped
    ++ notesBytes r.notes

/-! ## Outcome (R161) and the export filter (R179) -/

/-- Why a record closes (R140, R160). -/
inductive CloseCause where
  | endOfCycle | endAborted | fault | pressReset | warmReset
deriving DecidableEq, Repr

/-- The first row of R161's table that matches. -/
def outcomeOf (cause : CloseCause) (r : Record) : RecordOutcome :=
  if cause = .endAborted ∨ cause = .pressReset ∨ cause = .warmReset then .aborted
  else if cause = .fault ∨ r.has .cureTimeout = true ∨ r.has .ejectStuck = true
      ∨ (r.has .cureLost = true ∧ r.has .forcedDemould = false) then .reject
  else if r.has .cureDegraded = true ∨ r.has .sensorSwitched = true ∨ r.has .zoneDeviation = true
      ∨ r.has .overtemp = true ∨ r.has .pressureLoss = true ∨ r.has .latePressure = true
      ∨ r.has .forcedDemould = true ∨ r.has .mouldChanged = true ∨ r.has .setup = true then .suspect
  else .good

/-- The record as its close leaves it (R160, steps 1 to 4). -/
def closedRecord (cause : CloseCause) (t : Time) (r : Record) : Record :=
  let r1 := if cause = .warmReset then r.set .resetAbort else r
  let r2 := if cause = .endOfCycle ∨ cause = .endAborted then { r1 with unloadTime := some t } else r1
  { r2 with outcome := some (outcomeOf cause r2), state := .closed }

/-- The bit of an outcome in the outcome set, in the order of section 10.1's row (DEDUCED, log 31). -/
def outcomeBit : RecordOutcome → Nat
  | .good => 0 | .suspect => 1 | .reject => 2 | .aborted => 3

/-- A filter covers the mould ids from its low to its high (R179). -/
def Filter.covers (f : Filter) (mould : Nat) : Bool := decide (f.low ≤ mould ∧ mould ≤ f.high)

/-- Stage 3 of R179: in no REJECT range, and in an ACCEPT range if there is an ACCEPT filter. -/
def mouldPasses (fs : List Filter) (mould : Nat) : Bool :=
  !(fs.any fun f => f.mode == .reject && f.covers mould)
    && (!(fs.any fun f => f.mode == .accept) || fs.any fun f => f.mode == .accept && f.covers mould)

/-- The three stages of R179. -/
def exportPasses (e : ExportEntry) (r : Record) : Bool :=
  e.enable && (r.outcome.any fun o => e.outcomes.getLsbD (outcomeBit o))
    && e.presses.getLsbD r.press.val && mouldPasses e.filters.toList r.mould

namespace State

/-! ## The export queue (R180, R181) -/

/-- The slot of the record with a serial, if it is in the ring. -/
def slotOf (s : State) (serial : Nat) : Option (Fin 512) :=
  (List.finRange 512).find? fun i => s.history.slots[i].any fun r => r.serial == serial

/-- The head moves while Port U OWN holds 12 frames or fewer (R181). While a WARM reset is taking effect
REU waits for step 7 of R193; a PASSIVE part and a COLD shutdown originate nothing. -/
def canMove (s : State) : Bool :=
  s.live && !s.warmTaking && decide (s.portU.own.length ≤ Config.exportRoom) && !s.exportQueue.isEmpty

/-- Move the head: exported flag, REPORT frame, off the queue (R181). -/
def moveHead (s : State) : State :=
  match s.exportQueue with
  | [] => s
  | serial :: rest =>
    match s.slotOf serial with
    | none => { s with exportQueue := rest }
    | some i =>
      let r := s.history.slots[i].map fun r => { r with exported := true }
      let s1 := s.modHistory fun h => { h with slots := h.slots.set i r }
      let s2 := pushOwn .U { dst := s.controller, src := s.ownAddress, kind := .report
                             payload := (r.map recordBytes).getD [], mark := .plain } s1
      { s2 with exportQueue := rest }

/-- Test and move, at most `n` times. -/
def moveHeads : Nat → State → State
  | 0, s => s
  | n + 1, s => if s.canMove then moveHeads n (moveHead s) else s

/-- While the test passes REU moves the head, then tests again (R181). -/
def exportMoves (s : State) : State := moveHeads s.exportQueue.length s

/-- A closed record is handed to REU: filter (R179), then the export queue or EXPORT_OVERFLOW (R180),
then the test of R181. -/
def handToExport (r : Record) (s : State) : State :=
  if exportPasses s.tables.exports r then
    if s.exportQueue.length < Config.exportPlaces then
      exportMoves { s with exportQueue := s.exportQueue ++ [r.serial] }
    else raiseNow .exportOverflow .nothing s
  else s

/-! ## Closing (R160) -/

/-- Close a press's OPEN record (R160): fields and outcome, no OPEN record, its buffer COMPLETE (R173),
the export filter. A press with no OPEN record closes nothing. -/
def closeRecord (p : PressNo) (cause : CloseCause) (t : Time) (s : State) : State :=
  match s.openRecord p with
  | none => s
  | some r =>
    let closed := closedRecord cause t r
    let s1 := s.modRecord p fun _ => closed
    let s2 := s1.modHistory fun h => { h with openRecord := h.openRecord.set p none }
    let s3 :=
      match closed.profileBuffer with
      | some b => s2.modProfile p b fun x => { x with phase := .complete }
      | none => s2
    handToExport closed s3

/-! ## Admission and allocation (R163 to R166, R171) -/

/-- The History Unit's answer to the gate (R163). -/
inductive Admission where
  | admitted | historyHold | historyFull
deriving DecidableEq, Repr

/-- The record at the read cursor is OPEN. -/
def cursorOpen (s : State) : Bool :=
  s.history.slots[s.history.readCursor].any fun r => r.state == .opened

/-- The admission test of R163. -/
def admission (s : State) : Admission :=
  if s.history.exhausted then .historyFull
  else
    match s.tables.cell.policy with
    | .hold => if s.history.hold then .historyHold else .admitted
    | .overwrite => if s.history.unread = 512 ∧ s.cursorOpen = true then .historyFull else .admitted

/-- The hold state after an allocation under HOLD (R165). -/
def holdAfterAllocation (s : State) : State :=
  if s.tables.cell.policy = .hold ∧ s.history.hold = false
      ∧ s.tables.cell.highMark ≤ s.history.unread then
    raiseNow .historyMark .nothing (s.modHistory fun h => { h with hold := true })
  else s

/-- The hold state after an ADVANCE_READ answered OK (R165). -/
def holdAfterAdvance (s : State) : State :=
  if s.tables.cell.policy = .hold ∧ s.history.hold = true
      ∧ s.history.unread ≤ s.tables.cell.lowMark then
    s.modHistory fun h => { h with hold := false }
  else s

/-- The hold state after a Cell write answered OK, under the new policy and marks (R44). -/
def holdAfterCellWrite (s : State) : State :=
  match s.tables.cell.policy with
  | .overwrite => s.modHistory fun h => { h with hold := false }
  | .hold =>
    if s.history.hold then
      s.modHistory fun h => { h with hold := decide (s.tables.cell.lowMark < h.unread) }
    else if s.tables.cell.highMark ≤ s.history.unread then
      raiseNow .historyMark .nothing (s.modHistory fun h => { h with hold := true })
    else s

/-- The buffer a new serial chooses: serial mod 2 (R171). -/
def bufferOf (serial : Nat) : Fin 2 := ⟨serial % 2, by omega⟩

/-- Take the chosen buffer for a record unless it is locked (R171). -/
def takeBuffer (p : PressNo) (serial : Nat) (s : State) : State :=
  if (s.profile p (bufferOf serial)).locked then s
  else s.modProfile p (bufferOf serial) fun x =>
    { x with phase := .filling, tag := some serial, points := [], truncated := false, nextDue := 0 }

/-- What the slot at the write position held decides the counts (R164). -/
def takeSlot (s : State) : State :=
  match s.history.slots[s.history.writePos] with
  | none => s.modHistory fun h => { h with stored := h.stored + 1, unread := h.unread + 1 }
  | some old =>
    let s1 := { s with exportQueue := s.exportQueue.filter fun n => n != old.serial }
    if s.history.unread = 512 then
      raiseNow .historyLoss .nothing
        (s1.modHistory fun h => { h with readCursor := nextSlot h.readCursor })
    else s1.modHistory fun h => { h with unread := h.unread + 1 }

/-- A record with its values at allocation (section 9.1, R157, R171). -/
def newRecord (s : State) (p : PressNo) (b : Binding) (charge : ChargeRecord) (t : Time) : Record :=
  let serial := s.history.nextSerial
  let locked := (s.profile p (bufferOf serial)).locked
  { serial := serial, press := p, recipe := b.recipe, mould := b.mould, state := .opened
    outcome := none, charge := charge, closeTime := t, pressureTime := none, loadToPressure := none
    cureEnd := none, openTime := none, unloadTime := none, cureAchieved := 0
    cureTarget := s.tables.recipes[b.recipe].cureTarget, included := 0, excluded := 0
    upperMin := none, upperMax := none, lowerMin := none, lowerMax := none, peakForce := none
    profileBuffer := if locked then none else some (bufferOf serial)
    flags := if locked then 1#17 <<< RecordFlag.bit .profileSkipped else 0#17
    notes := [], notesDropped := 0, exported := false }

/-- Put the record in the slot at the write position, make it the press's OPEN record, and move the write
position and the next serial (R157, R164, R166). -/
def storeRecord (p : PressNo) (r : Record) (s : State) : State :=
  s.modHistory fun h =>
    { h with
      slots := h.slots.set h.writePos (some r)
      openRecord := h.openRecord.set p (some h.writePos)
      writePos := nextSlot h.writePos
      nextSerial := if h.nextSerial = Config.max32 then h.nextSerial else h.nextSerial + 1
      exhausted := h.exhausted || decide (h.nextSerial = Config.max32) }

/-- Allocate a press's record at its CLOSE (R132 step 1, R157). -/
def allocate (p : PressNo) (b : Binding) (charge : ChargeRecord) (t : Time) (s : State) : State :=
  let r := newRecord s p b charge t
  holdAfterAllocation (takeBuffer p r.serial (storeRecord p r (takeSlot s)))

/-! ## Profile points (R172, R173) -/

/-- The M of the press's INCLUDED zones, where present. -/
def includedTemps (s : State) (p : PressNo) : List Int :=
  ((zonesOf p).filter fun z => (s.accrual z).inclusion == .included).filterMap
    fun z => (s.zone z).measured

/-- The least and greatest of a list, if it is not empty. -/
def extremes : List Int → Option (Int × Int)
  | [] => none
  | m :: ms => some (ms.foldl min m, ms.foldl max m)

/-- The point formed at a window end (R172 step 1). -/
def pointAt (s : State) (p : PressNo) (offset : Nat) : ProfilePoint :=
  { offset := offset / 1000, temps := extremes (s.includedTemps p)
    progress := (s.cure p).progress / 1000 }

/-- A due point joins a buffer that holds fewer than 120, else it is not kept (R172, R173). -/
def addPoint (point : ProfilePoint) (next : Nat) (x : Profile) : Profile :=
  if x.points.length < Config.profilePlaces then
    { x with points := x.points ++ [point], nextDue := next }
  else { x with truncated := true, nextDue := next }

/-- Take the point of a due window end (R172): the flag PROFILE_TRUNCATED goes with a full buffer. -/
def takePoint (p : PressNo) (b : Fin 2) (offset interval : Nat) (s : State) : State :=
  let next := (offset / interval + 1) * interval
  let s1 := s.modProfile p b (addPoint (s.pointAt p offset) next)
  if (s.profile p b).points.length < Config.profilePlaces then s1
  else s1.setFlag p .profileTruncated

/-- A window end reaches the History Unit (R172). -/
def windowEndHistory (p : PressNo) (t : Time) (s : State) : State :=
  match (s.openRecord p).bind (·.profileBuffer), (s.cure p).entryTime, s.boundRecipe p with
  | some b, some entry, some r =>
    if (s.profile p b).phase = .filling ∧ (s.cure p).status = .accruing
        ∧ (s.profile p b).nextDue ≤ since t entry then
      takePoint p b (since t entry) (r.profileInterval * 1000) s
    else s
  | _, _, _ => s

/-! ## Reading (R167 to R169) -/

/-- Move the read cursor past CLOSED records, at most `n` of them (R169). The result's first part is the
number passed. -/
def advanceCursor : Nat → State → Nat × State
  | 0, s => (0, s)
  | n + 1, s =>
    if s.history.unread = 0 ∨ s.cursorOpen = true then (0, s)
    else
      let r := advanceCursor n (s.modHistory fun h =>
        { h with readCursor := nextSlot h.readCursor, unread := h.unread - 1 })
      (r.1 + 1, r.2)

/-- The newest record, if the ring holds one: it stands before the write position (section 9.3). -/
def newest (s : State) : Option Record := s.history.slots[prevSlot s.history.writePos]

/-- The records from a slot on in ring order, at most `n`, no further than the newest. -/
def recordsFrom (s : State) : Nat → Fin 512 → List Record
  | 0, _ => []
  | n + 1, i =>
    match s.history.slots[i] with
    | none => []
    | some r =>
      if nextSlot i = s.history.writePos then [r] else r :: recordsFrom s n (nextSlot i)

/-- Some press has an OPEN record (R167). -/
def anyOpen (s : State) : Bool := (List.finRange 4).any fun p => (s.history.openRecord[p]).isSome

end State

end Sys2Proof.Machine
end

