-- ==== Sys2Proof/Machine/Cure.lean ====
section
/-! DEFINITION. The Cure Accounting Unit (spec/05): the rate factor, cure start, accrual, exclusion, loss,
permit, timers' expiries, the end of a cure and the platen statistics. -/

namespace Sys2Proof.Machine

/-! ## The rate factor (R84) -/

/-- The factor in the segment that begins at `p` and ends at `q`, truncated toward zero (R84). -/
def segmentFactor (p q : RatePoint) (t : Int) : Nat :=
  ((p.factor : Int) + (((q.factor : Int) - p.factor) * (t - p.temp)).tdiv (q.temp - p.temp)).toNat

/-- The factor at a temperature at or above the first point of the list. -/
def factorFrom (p : RatePoint) (t : Int) : List RatePoint → Nat
  | [] => p.factor
  | q :: rest => if t < q.temp then segmentFactor p q t else factorFrom q t rest

/-- F(T) of a rate table: 0 below the first point (R84). A table with no point is out of reach of a cure
(R34, R39) and gives 0 (log 15). -/
def rateFactor (points : List RatePoint) (t : Int) : Nat :=
  match points with
  | [] => 0
  | p :: rest => if t < p.temp then 0 else factorFrom p t rest

/-- One accrual (R89): C and the residue after F × dt more; at the top they stay at 4294967295 and 0. -/
def accrueStep (factor dt : Nat) (a : Accrual) : Accrual :=
  let n := factor * dt + a.residue
  if a.accumulator = Config.max32 ∨ Config.max32 < a.accumulator + n / 1024 then
    { a with accumulator := Config.max32, residue := 0 }
  else { a with accumulator := a.accumulator + n / 1024, residue := n % 1024 }

/-- The lesser of a value that may be absent and a new one (R97). -/
def lesser : Option Int → Int → Int
  | none, m => m
  | some x, m => min x m

/-- The greater of a value that may be absent and a new one (R97). -/
def greater : Option Int → Int → Int
  | none, m => m
  | some x, m => max x m

/-- The platen statistics of a cure context after a reading (R97). -/
def statistics (upper : Bool) (m : Int) (c : Cure) : Cure :=
  if upper then { c with upperMin := some (lesser c.upperMin m), upperMax := some (greater c.upperMax m) }
  else { c with lowerMin := some (lesser c.lowerMin m), lowerMax := some (greater c.lowerMax m) }

/-- The statistics as the record holds them (R97, R98). -/
def recordStatistics (c : Cure) (r : Record) : Record :=
  { r with upperMin := c.upperMin, upperMax := c.upperMax, lowerMin := c.lowerMin
           lowerMax := c.lowerMax }

namespace State

/-- The INCLUDED zones of a press. -/
def includedZones (s : State) (p : PressNo) : List ZoneNo :=
  (zonesOf p).filter fun z => (s.accrual z).inclusion == .included

/-- The smallest accumulator among the INCLUDED zones, if there is one (R91). -/
def leastAccumulator (s : State) (p : PressNo) : Option Nat :=
  match (s.includedZones p).map fun z => (s.accrual z).accumulator with
  | [] => none
  | c :: cs => some (cs.foldl min c)

/-- Recompute a press's progress (R91); with no zone INCLUDED it keeps its value. -/
def recomputeProgress (p : PressNo) (s : State) : State :=
  match s.leastAccumulator p with
  | some c => s.modCure p fun x => { x with progress := c }
  | none => s

/-- The end of a cure at time `t` (R96): the cure end time, and the record's cure end time and cure
achieved (R98). A status still ACCRUING becomes STOPPED. -/
def endCure (p : PressNo) (t : Time) (s : State) : State :=
  let status := if (s.cure p).status = .accruing then CureStatus.stopped else (s.cure p).status
  (s.modCure p fun x => { x with status := status, endTime := some t }).modRecord p fun r =>
    { r with cureEnd := some t, cureAchieved := (s.cure p).progress }

/-- The permit test of R94. -/
def permitPasses (s : State) (p : PressNo) : Bool :=
  (s.cure p).status == .accruing && !(s.cure p).lost && (s.cure p).dwellMet
    && (s.boundRecipe p).any fun r => decide (r.cureTarget * 1000 ≤ (s.cure p).progress)

/-- The permit test, and the permit when it passes (R94): PERMITTED, CURE_DONE, the end of the cure and
DEMOULD_WAIT. -/
def permitTest (p : PressNo) (t : Time) (s : State) : State :=
  if s.permitPasses p then
    modUnit p (fun u => { u with state := .demouldWait })
      (endCure p t
        (raise t .cureDone (.press p) (s.modCure p fun x => { x with status := .permitted })))
  else s

/-- The cure is lost (R92). -/
def loseCure (p : PressNo) (t : Time) (s : State) : State :=
  setFlag p .cureLost (raise t .cureLost (.press p) (s.modCure p fun x => { x with lost := true }))

/-- Exclude a zone if it is INCLUDED in a cure that is ACCRUING (R90): count, CURE_DEGRADED, then progress
and permit test, or the loss of the cure when no zone remains. -/
def excludeZone (z : ZoneNo) (t : Time) (s : State) : State :=
  let p := pressOf z
  if (s.accrual z).inclusion = .included ∧ (s.cure p).status = .accruing then
    let s1 := (s.modAccrual z fun a => { a with inclusion := .excluded }).modCure p fun x =>
      { x with excluded := x.excluded + 1 }
    let s2 := s1.modRecord p fun r =>
      { r.set .cureDegraded with excluded := (s1.cure p).excluded }
    if s2.includedZones p = [] then loseCure p t s2 else permitTest p t (recomputeProgress p s2)
  else s

/-- The inclusion of one zone at CURE entry (R85). A zone that becomes NOT_IN_CURE keeps its previous accrual
arrival with its C and residue; R85 does not name that item (DESIGN CHOICE, log 27). -/
def includeZone (s : State) (z : ZoneNo) (a : Accrual) : Accrual :=
  if s.enabled z && (s.zoneEntry z).cureReference then
    { inclusion := .included, accumulator := 0, residue := 0, prevArrival := none }
  else { a with inclusion := .notInCure }

/-- Set the inclusion of every zone of a press (R85). -/
def includeZones (p : PressNo) (s : State) : State :=
  each (fun z x => x.modAccrual z (includeZone s z)) (zonesOf p) s

/-- The cure context at CURE entry (R86). -/
def startContext (r : Recipe) (t : Time) (included : Nat) : Cure :=
  { status := .accruing, lost := false, entryTime := some t, dwellMet := decide (r.minDwell = 0)
    progress := 0, included := included, excluded := 0, upperMin := none, upperMax := none
    lowerMin := none, lowerMax := none, endTime := none }

/-- CURE entry at time `t` (R85, R86): inclusion, context, record counts; then the LOST zones among the
INCLUDED are excluded, and a cure with no zone is lost. -/
def startCure (p : PressNo) (r : Recipe) (t : Time) (s : State) : State :=
  let s1 := includeZones p s
  let n := (s1.includedZones p).length
  let s2 := (s1.modCure p fun _ => startContext r t n).modRecord p fun x =>
    { x with included := n, excluded := 0 }
  if n = 0 then loseCure p t s2
  else each (fun z => excludeZone z t)
    ((s1.includedZones p).filter fun z => (s1.zone z).state == .lost) s2

/-- The interval of an accrual before the clamp: from the zone's previous accrual arrival, or from CURE
entry at its first (R88). -/
def accrualInterval (s : State) (z : ZoneNo) (t : Time) : Nat :=
  match (s.accrual z).prevArrival, (s.cure (pressOf z)).entryTime with
  | some a, _ => since t a
  | none, some e => since t e
  | none, none => 0

/-- The rate factor at M for a press's bound recipe, from the table as it stands (R84). -/
def factorAt (s : State) (p : PressNo) (m : Int) : Nat :=
  match s.boundRecipe p with
  | some r => rateFactor (s.rateOf r) m
  | none => 0

/-- Accrue a sample (R88, R89), then progress (R91) and the permit test (R94). -/
def accrue (z : ZoneNo) (m : Int) (t : Time) (s : State) : State :=
  let p := pressOf z
  let dt := s.accrualInterval z t
  let gap := (s.pressEntry p).maxGap
  let s1 := doIf (decide (gap < dt)) (raise t .sampleGap (.zone z)) s
  let s2 := s1.modAccrual z fun a =>
    { accrueStep (s.factorAt p m) (min dt gap) a with prevArrival := some t }
  permitTest p t (recomputeProgress p s2)

/-- A handed sample (R87, R97): platen statistics first, then the accrual of an INCLUDED zone, while the
cure status is ACCRUING. -/
def takeHanded (z : ZoneNo) (m : Int) (t : Time) (s : State) : State :=
  let p := pressOf z
  if (s.cure p).status = .accruing then
    let s1 := s.modCure p (statistics (isUpper z) m)
    let s2 := s1.modRecord p (recordStatistics (s1.cure p))
    if (s2.accrual z).inclusion = .included then accrue z m t s2 else s2
  else s

/-! ## The cure timers (R93, R95) -/

/-- Milliseconds since CURE entry. -/
def cureAge (s : State) (p : PressNo) : Nat :=
  match (s.cure p).entryTime with
  | some e => since s.timebase e
  | none => 0

/-- The dwell timer has reached min dwell while the cure status is ACCRUING and dwell met is clear (R93);
no timer expires during a COLD shutdown (R194). -/
def dwellDue (s : State) (p : PressNo) : Bool :=
  !s.shutdown && (s.cure p).status == .accruing && !(s.cure p).dwellMet
    && (s.boundRecipe p).any fun r => decide (r.minDwell * 1000 ≤ s.cureAge p)

/-- Dwell expiry (R93). -/
def dwellExpires (p : PressNo) (s : State) : State :=
  permitTest p s.timebase (s.modCure p fun x => { x with dwellMet := true })

/-- The max cure timer has reached max cure while the cure status is ACCRUING (R95). -/
def maxCureDue (s : State) (p : PressNo) : Bool :=
  !s.shutdown && (s.cure p).status == .accruing
    && (s.boundRecipe p).any fun r => decide (r.maxCure * 1000 ≤ s.cureAge p)

/-- The timeout of a cure that has no permit (R95). -/
def timeOutCure (p : PressNo) (s : State) : State :=
  let s1 := s.modCure p fun x => { x with status := .timedOut }
  let s2 := setFlag p .cureTimeout (raiseNow .pressTimeout (.press p) s1)
  modUnit p (fun u => { u with state := .demouldWait }) (endCure p s.timebase s2)

/-- Max cure expiry (R95): dwell met, the permit test, else the timeout. -/
def maxCureExpires (p : PressNo) (s : State) : State :=
  let s1 := s.modCure p fun x => { x with dwellMet := true }
  if s1.permitPasses p then permitTest p s.timebase s1 else timeOutCure p s1

end State

end Sys2Proof.Machine
end

