-- ==== Sys2Proof/Machine/Heat.lean ====
section
/-! DEFINITION. The Heat Window Unit (spec/04): setpoint targets, immediate HEAT frames, off commands,
window timers, hold counting, failover, loss, commit, ramp and the window end's HEAT frames. -/

namespace Sys2Proof.Machine

/-- The target: the base clamped to 0..(absolute limit − 50) (R63). -/
def targetOf (limit : Nat) (base : Int) : Int := clampInt 0 ((limit : Int) - 50) base

/-- One ramp step of S toward its target (R75): 0 moves it the whole way. -/
def rampStep (ramp : Nat) (target s : Int) : Int :=
  if ramp = 0 then target
  else if s < target then min (s + ramp) target
  else max (s - ramp) target

/-- The committed duty after a window end, by state (R74). -/
def commitDuty (c : Zone) : Nat :=
  match c.state with
  | .regulating => c.staged
  | .holding => c.committed
  | .overtemp | .lost | .disabled => 0

/-- Hold counting of a zone by R71's table: its hold count rises. -/
def countRises (c : Zone) : Bool :=
  match c.state with
  | .regulating | .holding | .overtemp => !c.fresh && !c.grace
  | .lost | .disabled => false

/-- The zone after hold counting (R71): the count, the state, and both markers cleared. -/
def holdCounted (c : Zone) : Zone :=
  if countRises c then
    { c with holdCount := satSucc 15 c.holdCount, fresh := false, grace := false
             state := if c.state = .regulating then .holding else c.state }
  else { c with fresh := false, grace := false }

/-- The recipe setpoint for a zone's platen plus the zone's offset (R63). -/
def recipeBase (r : Recipe) (z : ZoneNo) (offset : Int) : Int :=
  (if isUpper z then (r.upper : Int) else (r.lower : Int)) + offset

namespace State

/-! ## Setpoint base and target (R63) -/

/-- Give a zone a base, and form its target. -/
def setBase (z : ZoneNo) (base : Int) (s : State) : State :=
  s.modZone z fun c => { c with base := base, target := targetOf (s.zoneEntry z).limit base }

/-- Form a zone's target again from its base. -/
def formTarget (z : ZoneNo) (s : State) : State := setBase z (s.zone z).base s

/-- An enabled zone without override takes its base from a recipe (R63, R127). -/
def takeRecipeBase (r : Recipe) (z : ZoneNo) (s : State) : State :=
  if s.enabled z && !(s.zone z).overridden then
    setBase z (recipeBase r z (s.zoneEntry z).offset) s
  else s

/-! ## Frames outside the window (R78, R79) -/

/-- One HEAT frame at once to the zone's heater node, with its output and committed duty (R78). -/
def immediateHeat (z : ZoneNo) (s : State) : State :=
  match (s.zoneEntry z).heater with
  | some h =>
    originate .D h.node .heat (heatEntryBytes h.line (s.zone z).committed) .plain s
  | none => s

/-- The zone gains an off command for its heater output as the table holds it; one for the same output is
replaced, others stay (R79). -/
def createOff (z : ZoneNo) (s : State) : State :=
  match (s.zoneEntry z).heater with
  | some h =>
    { s.modZone z fun c =>
        { c with offs := (c.offs.filter fun o => !(o.node == h.node && o.output == h.line))
            ++ [{ node := h.node, output := h.line, placed := false, number := s.offNumber }] }
      with offNumber := s.offNumber + 1 }
  | none => s

/-- Clear every off command for an output (R80). -/
def clearOffsFor (node output : Nat) (z : ZoneNo) (s : State) : State :=
  s.modZone z fun c =>
    { c with offs := c.offs.filter fun o => !(o.node == node && o.output == output) }

/-! ## Window timers (R68, R69) -/

/-- Start a press's window timer if it is stopped (R68). -/
def startWindow (p : PressNo) (s : State) : State :=
  if (s.window p).running then s
  else s.modWindow p fun w =>
    { w with running := true, start := some s.timebase, period := (s.pressEntry p).period }

/-- Stop a press's window timer if no zone of the press is enabled (R68). R68 does not name the period in force:
it keeps the value last latched (DESIGN CHOICE, log 29). -/
def stopWindow (p : PressNo) (s : State) : State :=
  if s.enabledZones p = [] then s.modWindow p fun w => { w with running := false, start := none }
  else s

/-- The window's end has been reached (R69); no timer expires during a COLD shutdown (R194). -/
def windowDue (s : State) (p : PressNo) : Bool :=
  !s.shutdown && (s.window p).running
    && (s.window p).start.any fun t => decide ((s.window p).period ≤ since s.timebase t)

/-- The time at which a window's end is reached: its start plus its period (R69). -/
def windowEndTime (s : State) (p : PressNo) : Time :=
  (s.window p).start.getD 0 + BitVec.ofNat 32 (s.window p).period

/-! ## Failover and loss (R55, R72, R73) -/

/-- The backup is eligible at time `t` (R55). -/
def backupEligible (s : State) (z : ZoneNo) (t : Time) : Bool :=
  let e := s.pressEntry (pressOf z)
  (s.zone z).active == .primary && (s.zoneEntry z).backup.isSome
    && (s.zone z).backupLast.any fun l =>
      l.status == .ok && decide (since t l.arrival ≤ e.holdLimit * e.period)

/-- SENSOR_SWITCH and its record flag (R54, R55, R72). -/
def raiseSwitch (z : ZoneNo) (t : Time) (s : State) : State :=
  setFlag (pressOf z) .sensorSwitched (raise t .sensorSwitch (.zone z) s)

/-- The active sensor becomes BACKUP (R55, R72). -/
def switchToBackup (z : ZoneNo) (t : Time) (s : State) : State :=
  raiseSwitch z t (s.modZone z fun c => { c with active := .backup })

/-- The failover test of a zone whose hold count has risen (R72): at the hold limit, or on a primary
whose last entry is not OK. -/
def failoverDue (s : State) (z : ZoneNo) : Bool :=
  decide ((s.pressEntry (pressOf z)).holdLimit ≤ (s.zone z).holdCount)
    || ((s.zone z).active == .primary && !((s.zone z).primaryLast.any fun l => l.status == .ok))

/-- A zone enters LOST (R73): ZONE_LOST, staged duty 0, and exclusion from a cure (R90). -/
def loseZone (z : ZoneNo) (t : Time) (s : State) : State :=
  excludeZone z t
    (raise t .zoneLost (.zone z) (s.modZone z fun c => { c with state := .lost, staged := 0 }))

/-- Failover and loss of a zone whose hold count has risen (R72, R73). -/
def failoverOrLose (z : ZoneNo) (t : Time) (s : State) : State :=
  if s.failoverDue z && s.backupEligible z t then
    switchToBackup z t (s.modZone z fun c => { c with holdCount := 0 })
  else if (s.pressEntry (pressOf z)).holdLimit ≤ (s.zone z).holdCount then loseZone z t s
  else s

/-- Hold counting of one zone, with the tests of a zone whose count rose (R71). -/
def holdCounting (z : ZoneNo) (t : Time) (s : State) : State :=
  doIf (countRises (s.zone z)) (failoverOrLose z t) (s.modZone z holdCounted)

/-- Commit and ramp of one zone (R74, R75). -/
def commitAndRamp (z : ZoneNo) (s : State) : State :=
  s.modZone z fun c =>
    { c with committed := commitDuty c
             setpoint := rampStep (s.pressEntry (pressOf z)).ramp c.target c.setpoint }

/-- The three stages of a window end for one enabled zone (R70). -/
def zoneWindowEnd (t : Time) (z : ZoneNo) (s : State) : State :=
  commitAndRamp z (holdCounting z t s)

/-! ## The window end's HEAT frames (R76, R77) -/

/-- The enabled zone of a press that drives a heater output, if there is one (R45: at most one). -/
def zoneDriving (s : State) (p : PressNo) (node output : Nat) : Option ZoneNo :=
  (s.enabledZones p).find? fun z =>
    (s.zoneEntry z).heater == some { node := node, line := output }

/-- The entries of the frame for a node, in ascending output order: output and zone. -/
def heatEntries (s : State) (p : PressNo) (node : Nat) : List (Nat × ZoneNo) :=
  (List.range 8).filterMap fun o => (s.zoneDriving p node o).map fun z => (o, z)

/-- The frame's payload. -/
def heatPayload (s : State) (entries : List (Nat × ZoneNo)) : List Byte :=
  entries.flatMap fun e => heatEntryBytes e.1 (s.zone e.2).committed

/-- Clear the off commands, of whatever zone, of the outputs a placed frame carries (R76, R80). -/
def clearCarried (node : Nat) (entries : List (Nat × ZoneNo)) (s : State) : State :=
  each (fun e => each (clearOffsFor node e.1) (List.finRange 48)) entries s

/-- Compose and place one node's frame, counting it placed or lost (R76, R77). -/
def sendNodeHeat (p : PressNo) (node : Nat) (s : State) : State :=
  let entries := s.heatEntries p node
  if entries = [] then s
  else if s.freePlaceD then
    clearCarried node entries
      (modWindow p (fun w => { w with placed := w.placed + 1 })
        (originate .D node .heat (s.heatPayload entries) .plain s))
  else
    modWindow p (fun w => { w with lost := w.lost + 1 })
      (originate .D node .heat (s.heatPayload entries) .plain s)

/-- The window end's frames in ascending order of node address (R76). They are placed in one step, so no
transmission starts between two of them: of the two courses that R77 allows a later frame, the one in which a
place has come free in between is not taken (DESIGN CHOICE, log 33). -/
def sendHeatFrames (p : PressNo) (s : State) : State :=
  each (sendNodeHeat p) (List.range 64) (s.modWindow p fun w => { w with placed := 0, lost := 0 })

/-- A new window begins at the window end just taken (R69). -/
def nextWindow (p : PressNo) (t : Time) (s : State) : State :=
  s.modWindow p fun w =>
    { w with lastEnd := some t, start := some t, period := (s.pressEntry p).period }

/-- A press's window end (R70): the enabled zones in ascending order, then the HEAT frames, then the
History Unit. -/
def windowEnds (p : PressNo) (s : State) : State :=
  let t := s.windowEndTime p
  windowEndHistory p t
    (sendHeatFrames p (each (zoneWindowEnd t) (s.enabledZones p) (nextWindow p t s)))

end State

end Sys2Proof.Machine
end

