-- ==== Sys2Proof/Machine/Zones.lean ====
section
/-! DEFINITION. The Zone Regulators (spec/03): samples, the regulator, overtemp, sensor faults and returns,
deviation, readiness, and the ZONE_CONTROL and SET_SETPOINT requests. -/

namespace Sys2Proof.Machine

/-! ## The regulator (R58, R59) -/

/-- The error, clamped to −2000..2000 (R58). -/
def regulatorError (c : Zone) (m : Int) : Int := clampInt (-2000) 2000 (c.setpoint - m)

/-- The proportional term (R58). -/
def proportional (e : ZoneEntry) (err : Int) : Int := ((e.kp : Int) * err).tdiv 10

/-- The regulator's interval: 0 at a first sample, else clamped to the max gap (R58). -/
def regulatorInterval (c : Zone) (t : Time) (maxGap : Nat) : Nat :=
  match c.firstSample, c.prevArrival with
  | false, some a => min (since t a) maxGap
  | _, _ => 0

/-- A duty before its clamp: FF + P + I / 1000 (R58, R59). -/
def rawDuty (e : ZoneEntry) (p integral : Int) : Int :=
  (e.feedForward : Int) + p + integral.tdiv 1000

/-- The output is pinned and the error drives it further, so I is left unchanged (R59). -/
def windsUp (e : ZoneEntry) (uPre err : Int) : Bool :=
  decide ((e.maxDuty : Int) ≤ uPre ∧ 0 < err) || decide (uPre ≤ 0 ∧ err < 0)

/-- The integral term after a run (R59). -/
def nextIntegral (e : ZoneEntry) (c : Zone) (err : Int) (dt : Nat) : Int :=
  if windsUp e (rawDuty e (proportional e err) c.integral) err then c.integral
  else clampInt (-((e.maxDuty : Int) * 1000)) ((e.maxDuty : Int) * 1000)
    (c.integral + ((e.ki : Int) * err * dt).tdiv 10)

/-- One regulator run on a measurement (R58, R59). -/
def regulated (e : ZoneEntry) (maxGap : Nat) (m : Int) (t : Time) (c : Zone) : Zone :=
  let err := regulatorError c m
  let integral := nextIntegral e c err (regulatorInterval c t maxGap)
  { c with firstSample := false, integral := integral
           staged := (clampInt 0 e.maxDuty (rawDuty e (proportional e err) integral)).toNat }

/-- A valid sample's first stage (R52): M, the hold count and the fresh-sample marker. -/
def withSample (m : Int) (c : Zone) : Zone :=
  { c with measured := some m, holdCount := 0, fresh := true }

/-- An entry with status OK outside −500..6000 is treated as OVERRANGE (R51). -/
def judgedStatus (e : ChannelEntry) : ChannelStatus :=
  if e.status = .ok ∧ (e.value < -500 ∨ 6000 < e.value) then .overrange else e.status

namespace State

/-! ## Valid samples (R52, R53, R54, R60, R62) -/

/-- The regulator runs for a zone (R58, R59). -/
def regulate (z : ZoneNo) (m : Int) (t : Time) (s : State) : State :=
  s.modZone z (regulated (s.zoneEntry z) (s.pressEntry (pressOf z)).maxGap m t)

/-- Overtemp entry (R60): state, duties 0, the HEAT frame at once, the event and the flag. -/
def overtempEntry (z : ZoneNo) (t : Time) (s : State) : State :=
  let s1 := s.modZone z fun c => { c with state := .overtemp, staged := 0, committed := 0 }
  setFlag (pressOf z) .overtemp (raise t .overtemp (.zone z) (immediateHeat z s1))

/-- The deviation test of a valid sample (R62). -/
def deviationTest (z : ZoneNo) (m : Int) (t : Time) (s : State) : State :=
  let p := pressOf z
  match s.boundRecipe p with
  | some r =>
    if (s.unit p).state = .cure then
      let c := s.zone z
      if (r.deviationBand : Int) < |m - c.setpoint| then
        let n := min 3 (c.deviationCount + 1)
        let s1 := s.modZone z fun c => { c with deviationCount := n }
        if n = 3 ∧ c.deviationNoted = false then
          (setFlag p .zoneDeviation (raise t .zoneDeviation (.zone z) s1)).modZone z fun c =>
            { c with deviationNoted := true }
        else s1
      else s.modZone z fun c => { c with deviationCount := 0 }
    else s
  | none => s

/-- Stages 5, 6 and 7 of R52: previous valid arrival, deviation test, hand-over to cure accounting. -/
def finishSample (z : ZoneNo) (m : Int) (t : Time) (s : State) : State :=
  takeHanded z m t
    (deviationTest z m t (s.modZone z fun c => { c with prevArrival := some t }))

/-- A valid sample in REGULATING or HOLDING (R52). -/
def sampleRegulating (z : ZoneNo) (m : Int) (t : Time) (s : State) : State :=
  let s1 := s.modZone z fun c => { withSample m c with state := .regulating }
  finishSample z m t
    (if ((s.zoneEntry z).limit : Int) ≤ m then overtempEntry z t s1 else regulate z m t s1)

/-- A valid sample in OVERTEMP (R53). -/
def sampleOvertemp (z : ZoneNo) (m : Int) (t : Time) (s : State) : State :=
  let s1 := s.modZone z (withSample m)
  finishSample z m t
    (if m ≤ ((s.zoneEntry z).limit : Int) - 50 then
      regulate z m t (s1.modZone z fun c =>
        { c with state := .regulating, integral := 0, firstSample := true })
    else s1)

/-- A LOST zone comes back on a valid entry of either sensor (R54). -/
def sampleLost (z : ZoneNo) (sensor : ActiveSensor) (m : Int) (t : Time) (s : State) : State :=
  let s1 := s.modZone z fun c => { c with active := sensor }
  let s2 := doIf ((s.zone z).active != sensor) (raiseSwitch z t) s1
  sampleRegulating z m t
    (s2.modZone z fun c => { c with state := .regulating, integral := 0, firstSample := true })

/-- A non-OK entry on the active sensor (R55). -/
def sensorFault (z : ZoneNo) (t : Time) (s : State) : State :=
  let s1 := raise t .sensorFault (.zone z) s
  if s.backupEligible z t then switchToBackup z t s1
  else s1.modZone z fun c => { c with state := if c.state = .regulating then .holding else c.state }

/-- An enabled zone treats an entry by its sensor, status and state (R51's second table). -/
def treatEntry (z : ZoneNo) (sensor : ActiveSensor) (status : ChannelStatus) (m : Int) (t : Time)
    (s : State) : State :=
  let c := s.zone z
  match c.state, status with
  | .disabled, _ => s
  | .lost, .ok => sampleLost z sensor m t s
  | .lost, _ => s
  | .regulating, .ok => if c.active = sensor then sampleRegulating z m t s else s
  | .holding, .ok => if c.active = sensor then sampleRegulating z m t s else s
  | .overtemp, .ok => if c.active = sensor then sampleOvertemp z m t s else s
  | _, _ => if c.active = sensor then sensorFault z t s else s

/-- Replace the last-entry record of a sensor (R51). -/
def recordEntry (z : ZoneNo) (sensor : ActiveSensor) (l : LastEntry) (s : State) : State :=
  s.modZone z fun c =>
    match sensor with
    | .primary => { c with primaryLast := some l }
    | .backup => { c with backupLast := some l }

/-- The sensor of a zone that a channel is, if it is one of the two (R51). -/
def sensorOf (s : State) (z : ZoneNo) (node channel : Nat) : Option ActiveSensor :=
  if (s.zoneEntry z).primary = some { node := node, line := channel } then some .primary
  else if (s.zoneEntry z).backup = some { node := node, line := channel } then some .backup
  else none

/-- One zone takes a channel entry (R51). -/
def zoneTakes (node : Nat) (e : ChannelEntry) (t : Time) (z : ZoneNo) (s : State) : State :=
  match s.sensorOf z node e.channel with
  | some sensor =>
    treatEntry z sensor (judgedStatus e) e.value t
      (recordEntry z sensor { status := judgedStatus e, value := e.value, arrival := t } s)
  | none => s

/-- The entries of a SAMPLE of a THERMO node, in list order, each by every zone that uses it (R51). Several
zones that use one channel take the entry in ascending zone number: the spec gives no order among them
(DESIGN CHOICE, log 24). -/
def takeThermo (node : Nat) (entries : List ChannelEntry) (t : Time) (s : State) : State :=
  each (fun e => each (zoneTakes node e t) (List.finRange 48)) entries s

/-! ## Readiness (R65, R66) and the return to primary (R57) -/

/-- A zone is ready for a recipe's ready band (R65). -/
def ready (s : State) (r : Recipe) (z : ZoneNo) : Bool :=
  let c := s.zone z
  c.state == .regulating && c.setpoint == c.target
    && c.measured.any fun m => decide (|m - c.setpoint| ≤ (r.readyBand : Int))

/-- Some enabled zone of the press is in LOST or OVERTEMP (R66). -/
def zoneFault (s : State) (p : PressNo) : Bool :=
  (zonesOf p).any fun z => (s.zone z).state == .lost || (s.zone z).state == .overtemp

/-- Every enabled zone of the press is ready (R66). -/
def allReady (s : State) (p : PressNo) (r : Recipe) : Bool := (s.enabledZones p).all (s.ready r)

/-- The primary's last entry has status OK. -/
def primaryOk (s : State) (z : ZoneNo) : Bool := (s.zone z).primaryLast.any fun l => l.status == .ok

/-- An enabled zone on BACKUP whose primary last reported OK returns to PRIMARY (R57). -/
def returnToPrimary (z : ZoneNo) (s : State) : State :=
  if s.enabled z && (s.zone z).active == .backup && s.primaryOk z then
    s.modZone z fun c => { c with active := .primary, firstSample := true }
  else s

/-! ## ZONE_CONTROL (R49, R50, R56) and SET_SETPOINT (R64) -/

/-- A pair is not none and its node has a role (R49). -/
def refHasRole (s : State) (role : Role) (r : Option NodeRef) : Bool :=
  r.any fun x => (s.node x.node).role == role

/-- The three tests of R49. -/
def zoneConfigured (s : State) (z : ZoneNo) : Bool :=
  let e := s.zoneEntry z
  s.refHasRole .thermo e.primary && s.refHasRole .heater e.heater
    && (e.backup.isNone || s.refHasRole .thermo e.backup)

/-- A zone context as it enters REGULATING by enable (R49, R68). R49 clears deviation noted, so a zone disabled
and enabled again within one cure can raise ZONE_DEVIATION a second time, where R62 says at most once per zone
per cure: the model follows R49 (DESIGN CHOICE, log 28). -/
def enabledContext (c : Zone) : Zone :=
  { c with state := .regulating, active := .primary, integral := 0, holdCount := 0
           deviationCount := 0, deviationNoted := false, measured := none, firstSample := true
           fresh := false, staged := 0, grace := true }

/-- The effect of an enable answered OK (R49, R63, R68, R80). -/
def enableZone (z : ZoneNo) (s : State) : State :=
  let p := pressOf z
  let s1 := s.modZone z enabledContext
  let s2 := match s.boundRecipe p with
    | some r => takeRecipeBase r z s1
    | none => s1
  let s3 := match (s.zoneEntry z).heater with
    | some h => clearOffsFor h.node h.line z s2
    | none => s2
  startWindow p (formTarget z s3)

/-- ZONE_CONTROL ENABLE (R49). -/
def zoneEnable (z : ZoneNo) (s : State) : State × Result :=
  if s.enabled z then (s, .refusedState)
  else if s.zoneConfigured z then (enableZone z s, .ok)
  else (s, .unconfigured)

/-- The effect of a disable of an enabled zone (R50, R68, R79, R90). R50 names its hold count, deviation noted, S,
previous valid arrival and first-sample and fresh-sample markers neither among what is cleared nor among what is
kept: they are kept (DESIGN CHOICE, log 32). No rule says what its grace marker becomes: it is kept, also through
window ends, which pass disabled zones over (DESIGN CHOICE, log 30). -/
def disableZone (z : ZoneNo) (t : Time) (s : State) : State :=
  let s1 := s.modZone z fun c =>
    { c with state := .disabled, staged := 0, committed := 0, deviationCount := 0 }
  excludeZone z t (stopWindow (pressOf z) (placeOwed (createOff z s1)))

/-- ZONE_CONTROL DISABLE (R50). -/
def zoneDisable (z : ZoneNo) (s : State) : State × Result :=
  if s.enabled z then (disableZone z s.timebase s, .ok) else (s, .ok)

/-- ZONE_CONTROL RESTORE_PRIMARY (R56). -/
def zoneRestore (z : ZoneNo) (s : State) : State × Result :=
  let c := s.zone z
  if c.state = .disabled ∨ c.state = .lost then (s, .refusedState)
  else if c.active = .primary then (s, .ok)
  else if s.primaryOk z then
    (s.modZone z fun c => { c with active := .primary, firstSample := true }, .ok)
  else (s, .refusedState)

/-- SET_SETPOINT SET (R63, R64). -/
def setOverride (z : ZoneNo) (value : Int) (s : State) : State :=
  (setBase z value s).modZone z fun c => { c with overridden := true }

/-- SET_SETPOINT CLEAR_OVERRIDE (R63, R64). -/
def clearOverride (z : ZoneNo) (s : State) : State :=
  let s1 := s.modZone z fun c => { c with overridden := false }
  match s.boundRecipe (pressOf z) with
  | some r => setBase z (recipeBase r z (s.zoneEntry z).offset) s1
  | none => s1

end State

end Sys2Proof.Machine
end

