-- ==== Sys2Proof/Machine/Scales.lean ====
section
/-! DEFINITION. The Charge Scale Unit (spec/06): gross values, the window, tare, verdicts, lifting, the
service queues and the release of a charge. -/

namespace Sys2Proof.Machine

/-! ## The window (R107) -/

/-- Add a value; a full window first loses its oldest (R107). -/
def pushWindow (n : Nat) (w : List Int) (g : Int) : List Int :=
  if w.length < n then w ++ [g] else w.drop (w.length + 1 - n) ++ [g]

/-- Largest less smallest; none for a window that holds no value. -/
def spreadOf (w : List Int) : Option Int := (State.extremes w).map fun x => x.2 - x.1

/-- The window is stable (R107). -/
def stable (e : ScaleEntry) (w : List Int) : Bool :=
  decide (w.length = e.windowN) && (spreadOf w).any fun d => decide (d ≤ (e.settleBand : Int))

/-- The mean, truncated toward zero (R107). -/
def meanOf (e : ScaleEntry) (w : List Int) : Int := (w.foldl (· + ·) 0).tdiv (e.windowN : Int)

/-- The state a verdict takes the scale to (R111). -/
def VerdictKind.state : VerdictKind → ScaleState
  | .accepted => .accepted
  | .light | .heavy => .rejected
  | .noRequest => .noRequest

/-- The kind and trim of a net against a recipe's charge window (R112). -/
def judge (r : Recipe) (net : Int) : VerdictKind × Int :=
  if net < (r.chargeTarget : Int) - r.tolMinus then (.light, (r.chargeTarget : Int) - net)
  else if (r.chargeTarget : Int) + r.tolPlus < net then (.heavy, net - r.chargeTarget)
  else (.accepted, 0)

/-- Verdict kind codes (R203). -/
def VerdictKind.code : VerdictKind → Nat
  | .accepted => 0 | .light => 1 | .heavy => 2 | .noRequest => 3

/-- The VERDICT payload (R203). -/
def verdictBytes (k : ScaleNo) (v : Verdict) : List Byte :=
  natBytes 1 k.val ++ natBytes 1 ((v.press.map Fin.val).getD 255) ++ natBytes 1 v.kind.code
    ++ intBytes 4 v.net ++ intBytes 4 v.trim

/-- Raise the head entry's attempts by 1 (R112). -/
def countAttempt : List QueueEntry → List QueueEntry
  | [] => []
  | q :: rest => { q with attempts := satSucc 255 q.attempts } :: rest

/-- The scale a recipe names; stored recipes name 0 or 1 (R32). -/
def scaleOf (r : Recipe) : ScaleNo := ⟨r.scale % 2, by omega⟩

/-- A scale without verdict and lift timer, its window empty (R102, R106, R108). No rule says what tare-limit noted
reads while the scale is out of EMPTY: it is kept until the next entry to EMPTY clears it (DESIGN CHOICE, log 34). -/
def withdrawn (c : Scale) : Scale := { c with window := [], verdict := none, liftStart := none }

/-- A scale that enters EMPTY: tare-limit noted is cleared, the verdict withdrawn, the lift timer stopped,
and the window holds the given values (R107, R109). -/
def toEmpty (w : List Int) (c : Scale) : Scale :=
  { c with state := .empty, window := w, verdict := none, liftStart := none, tareNoted := false }

namespace State

/-- The head press of a scale's queue. -/
def headOf (s : State) (k : ScaleNo) : Option PressNo := (s.scale k).queue.head?.map (·.press)

/-- The net of a single value (R107). -/
def netOf (s : State) (k : ScaleNo) (g : Int) : Int := g - (s.scale k).tare

/-! ## Evaluation (R112, R113) -/

/-- The verdict record an evaluation of `v` gives (R112). -/
def verdictOn (s : State) (k : ScaleNo) (v : Int) : Verdict :=
  let net := s.netOf k v
  match s.headOf k with
  | none => { kind := .noRequest, press := none, mean := v, net := net, trim := 0 }
  | some p =>
    match s.boundRecipe p with
    | none => { kind := .noRequest, press := none, mean := v, net := net, trim := 0 }
    | some r =>
      { kind := (judge r net).1, press := some p, mean := v, net := net, trim := (judge r net).2 }

/-- An evaluation: the verdict, the head's attempts, CHARGE_REJECT for LIGHT or HEAVY, and one VERDICT
frame (R112, R113). The state is left to the rule that makes the evaluation. -/
def evaluate (k : ScaleNo) (v : Int) (s : State) : State :=
  let verdict := s.verdictOn k v
  let s1 := s.modScale k fun c => { c with verdict := some verdict, queue := countAttempt c.queue }
  let s2 := doIf (verdict.kind == .light || verdict.kind == .heavy)
    (raiseNow .chargeReject (.scale k)) s1
  originate .U s2.controller .verdict (verdictBytes k verdict) .plain s2

/-- An evaluation after which the scale enters the state of the verdict (R111, R115, R119). -/
def evaluateTo (k : ScaleNo) (v : Int) (s : State) : State :=
  (evaluate k v s).modScale k fun c => { c with state := (s.verdictOn k v).kind.state }

/-! ## The service queue (R117 to R119) -/

/-- A change of head acts on the scale by its state (R119). -/
def changeOfHead (k : ScaleNo) (s : State) : State :=
  match (s.scale k).state, (s.scale k).verdict with
  | .accepted, some v => evaluateTo k v.mean s
  | .rejected, some v => evaluateTo k v.mean s
  | .noRequest, some v => evaluateTo k v.mean s
  | .lifting, some v => evaluate k v.mean s
  | _, _ => s

/-- Change a scale's queue, and take a change of head if the head press differs (R119). -/
def requeue (k : ScaleNo) (f : List QueueEntry → List QueueEntry) (s : State) : State :=
  let s1 := s.modScale k fun c => { c with queue := f c.queue }
  if s1.headOf k = s.headOf k then s1 else changeOfHead k s1

/-- A press unit that enters CHARGE_WAIT joins the tail of its recipe's scale's queue (R117). -/
def joinQueue (p : PressNo) (r : Recipe) (t : Time) (s : State) : State :=
  requeue (scaleOf r) (· ++ [{ press := p, attempts := 0, joined := t }]) s

/-- A press's entry is removed from the queue it stands in (R118). -/
def leaveQueue (p : PressNo) (s : State) : State :=
  each (fun k x =>
    if (x.scale k).queue.any fun q => q.press == p then
      requeue k (·.filter fun q => q.press != p) x
    else x) (List.finRange 2) s

/-! ## The release (R120) -/

/-- The charge record of a release (R120 step 1). -/
def chargeOf (k : ScaleNo) (v : Verdict) (tare : Int) (q : QueueEntry) (r : Recipe) (t : Time) :
    ChargeRecord :=
  { scale := k, net := v.net, mean := v.mean, tare := tare, target := r.chargeTarget
    tolMinus := r.tolMinus, tolPlus := r.tolPlus, attempts := q.attempts, release := t }

/-- Hand a charge record to a press unit, which enters CHARGE_READY (R120 step 2). -/
def handCharge (p : PressNo) (c : ChargeRecord) (s : State) : State :=
  s.modUnit p fun u => { u with state := .chargeReady, charge := some c }

/-- A gross value empties the pan under an ACCEPTED verdict (R120). The scale is in EMPTY when the head
entry goes, so nothing is evaluated again. -/
def release (k : ScaleNo) (g : Int) (t : Time) (s : State) : State :=
  let c := s.scale k
  let handed :=
    match c.verdict, c.queue with
    | some v, q :: _ =>
      match s.boundRecipe q.press with
      | some r => handCharge q.press (chargeOf k v c.tare q r t) s
      | none => s
    | _, _ => s
  handed.modScale k fun c => { toEmpty [g] c with queue := c.queue.drop 1 }

/-! ## Gross values by state (R108, R109, R111, R114, R115) -/

/-- Zero tracking of a stable window in EMPTY (R109). -/
def zeroTrack (k : ScaleNo) (s : State) : State :=
  let e := s.scaleEntry k
  let mean := meanOf e (s.scale k).window
  if e.zeroTrack = 0 then s
  else if |mean - (s.scale k).tare| ≤ (e.zeroTrack : Int) then
    s.modScale k fun c => { c with tare := mean, tareNoted := false }
  else if (s.scale k).tareNoted then s
  else raiseNow .tareLimit (.scale k) (s.modScale k fun c => { c with tareNoted := true })

/-- A value in EMPTY (R109). A scale that leaves for LOADING keeps tare-limit noted as it stands (DESIGN CHOICE,
log 34). -/
def grossEmpty (k : ScaleNo) (g : Int) (s : State) : State :=
  let e := s.scaleEntry k
  if (e.loadThreshold : Int) ≤ s.netOf k g then
    s.modScale k fun c => { c with state := .loading, window := [g] }
  else
    let s1 := s.modScale k fun c => { c with window := pushWindow e.windowN c.window g }
    doIf (stable e (s1.scale k).window) (zeroTrack k) s1

/-- A value in LOADING (R111). -/
def grossLoading (k : ScaleNo) (g : Int) (s : State) : State :=
  let e := s.scaleEntry k
  if s.netOf k g < (e.emptyThreshold : Int) then s.modScale k (toEmpty [g])
  else
    let s1 := s.modScale k fun c => { c with window := pushWindow e.windowN c.window g }
    doIf (stable e (s1.scale k).window) (evaluateTo k (meanOf e (s1.scale k).window)) s1

/-- Entry to LIFTING (R114): the verdict is held, the lift timer starts, the window holds the value. -/
def toLifting (k : ScaleNo) (g : Int) (t : Time) (s : State) : State :=
  s.modScale k fun c =>
    { c with state := .lifting, window := [g], liftStart := some t
             liftTime := (s.scaleEntry k).liftTime }

/-- A value under a verdict (R114): the empty test first, then the band. -/
def grossVerdict (k : ScaleNo) (g : Int) (t : Time) (s : State) : State :=
  let e := s.scaleEntry k
  if s.netOf k g < (e.emptyThreshold : Int) then
    if (s.scale k).state = .accepted then release k g t s else s.modScale k (toEmpty [g])
  else if (s.scale k).verdict.any fun v => decide (|g - v.mean| ≤ (e.settleBand : Int)) then s
  else toLifting k g t s

/-- A value in LIFTING (R115). -/
def grossLifting (k : ScaleNo) (g : Int) (t : Time) (s : State) : State :=
  let e := s.scaleEntry k
  if s.netOf k g < (e.emptyThreshold : Int) then
    if (s.scale k).verdict.any fun v => v.kind == .accepted then release k g t s
    else s.modScale k (toEmpty [g])
  else
    let s1 := s.modScale k fun c => { c with window := pushWindow e.windowN c.window g }
    let mean := meanOf e (s1.scale k).window
    if stable e (s1.scale k).window && decide ((e.loadThreshold : Int) ≤ s.netOf k mean) then
      evaluateTo k mean (s1.modScale k fun c => { c with liftStart := none })
    else s1

/-- A value in OVERLOAD at or below the capacity (R108). -/
def grossOverload (k : ScaleNo) (g : Int) (s : State) : State :=
  if s.netOf k g < ((s.scaleEntry k).emptyThreshold : Int) then s.modScale k (toEmpty [g]) else s

/-- Entry to OVERLOAD (R108). -/
def toOverload (k : ScaleNo) (s : State) : State :=
  raiseNow .scaleOverload (.scale k)
    (s.modScale k fun c => { withdrawn c with state := .overload, agree := 0 })

/-- A gross value: the capacity test (R108), then the rule of the scale's state. -/
def takeGross (k : ScaleNo) (g : Int) (t : Time) (s : State) : State :=
  let st := (s.scale k).state
  if ((s.scaleEntry k).capacity : Int) < g then
    if st = .overload ∨ st = .disabled then s else toOverload k s
  else
    match st with
    | .empty => grossEmpty k g s
    | .loading => grossLoading k g s
    | .accepted | .rejected | .noRequest => grossVerdict k g t s
    | .lifting => grossLifting k g t s
    | .overload => grossOverload k g s
    | .disabled | .mismatch => s

/-! ## CHECK pairs (R106) -/

/-- A pair that disagrees (R106). -/
def pairDisagrees (k : ScaleNo) (s : State) : State :=
  if (s.scale k).state = .mismatch then s.modScale k fun c => { c with agree := 0 }
  else raiseNow .scaleMismatch (.scale k)
    (s.modScale k fun c => { withdrawn c with state := .mismatch, agree := 0 })

/-- A pair that agrees while the scale is in MISMATCH, with its gross value (R106). -/
def pairAgreesMismatch (k : ScaleNo) (g : Int) (s : State) : State :=
  let e := s.scaleEntry k
  if (e.capacity : Int) < g then toOverload k s
  else if (s.scale k).agree + 1 < 8 then s.modScale k fun c => { c with agree := c.agree + 1 }
  else if (e.loadThreshold : Int) ≤ s.netOf k g then
    s.modScale k fun c => { c with state := .loading, window := [g], agree := 0 }
  else s.modScale k fun c => { toEmpty [g] c with agree := 0 }

/-- A CHECK pair (R106). -/
def takePair (k : ScaleNo) (a b : Int) (t : Time) (s : State) : State :=
  if |a - b| ≤ ((s.scaleEntry k).checkBand : Int) then
    if (s.scale k).state = .mismatch then pairAgreesMismatch k ((a + b).tdiv 2) s
    else takeGross k ((a + b).tdiv 2) t s
  else pairDisagrees k s

/-! ## Channel entries (R104, R105) -/

/-- The skipped count rises (R104, R105). -/
def skip (k : ScaleNo) (s : State) : State :=
  s.modScale k fun c => { c with skipped := satSucc Config.max16 c.skipped }

/-- An OK entry on channel B (R105). -/
def takeB (k : ScaleNo) (mode : ScaleMode) (b : Int) (t : Time) (s : State) : State :=
  match mode, (s.scale k).heldA with
  | .single, _ => s
  | _, none => skip k s
  | .sum, some a => takeGross k (a.value + b) t (s.modScale k fun c => { c with heldA := none })
  | .check, some a => takePair k a.value b t (s.modScale k fun c => { c with heldA := none })

/-- An OK entry on channel A (R105). -/
def takeA (k : ScaleNo) (mode : ScaleMode) (a : Int) (t : Time) (s : State) : State :=
  match mode with
  | .single => takeGross k a t s
  | .sum | .check => s.modScale k fun c => { c with heldA := some { value := a, arrival := t } }

/-- A matching entry becomes the channel's last entry; an enabled scale goes on with it. In SUM and CHECK
mode a non-OK entry discards the held A value (R104). -/
def takeChannelA (k : ScaleNo) (e : ChannelEntry) (t : Time) (s : State) : State :=
  let s1 := s.modScale k fun c =>
    { c with lastA := some { status := e.status, value := e.value, arrival := t } }
  if (s.scale k).state = .disabled then s1
  else if e.status = .ok then takeA k (s.scaleEntry k).mode e.value t s1
  else skip k (s1.modScale k fun c =>
    { c with heldA := if (s.scaleEntry k).mode = .single then c.heldA else none })

/-- As `takeChannelA`, for channel B: a non-OK entry leaves the held A value (R104). -/
def takeChannelB (k : ScaleNo) (e : ChannelEntry) (t : Time) (s : State) : State :=
  let s1 := s.modScale k fun c =>
    { c with lastB := some { status := e.status, value := e.value, arrival := t } }
  if (s.scale k).state = .disabled then s1
  else if e.status = .ok then takeB k (s.scaleEntry k).mode e.value t s1
  else skip k s1

/-- One channel entry of a scale's node (R104). -/
def takeScaleEntry (k : ScaleNo) (node : Nat) (t : Time) (e : ChannelEntry) (s : State) : State :=
  let r : NodeRef := { node := node, line := e.channel }
  if (s.scaleEntry k).channelA = some r then takeChannelA k e t s
  else if (s.scaleEntry k).channelB = some r then takeChannelB k e t s
  else s

/-- The entries of a SAMPLE of a SCALE node, in list order, each in full before the next (R104). -/
def takeScale (k : ScaleNo) (node : Nat) (entries : List ChannelEntry) (t : Time) (s : State) : State :=
  each (takeScaleEntry k node t) entries s

/-! ## The lift timer (R116), TARE (R110) -/

/-- The lift timer has reached the lift time in force while the scale is in LIFTING (R116). -/
def liftDue (s : State) (k : ScaleNo) : Bool :=
  !s.shutdown && (s.scale k).state == .lifting
    && (s.scale k).liftStart.any fun t => decide ((s.scale k).liftTime ≤ since s.timebase t)

/-- Lift timer expiry: LOADING, the verdict withdrawn, the window kept (R116). -/
def liftExpires (k : ScaleNo) (s : State) : State :=
  s.modScale k fun c => { c with state := .loading, verdict := none, liftStart := none }

/-- SCALE_CONTROL TARE (R110): the new tare is returned. -/
def scaleTare (k : ScaleNo) (s : State) : State × Result × List Byte :=
  let e := s.scaleEntry k
  let w := (s.scale k).window
  if (s.scale k).state = .empty ∧ stable e w = true then
    (s.modScale k fun c => { c with tare := meanOf e w, tareNoted := false }, .ok,
      intBytes 4 (meanOf e w))
  else (s, .busy, [])

/-! ## Writes and resets (R102, R121) -/

/-- The effect on a scale context of a write answered OK (R102's table). -/
def scaleWritten (old new : ScaleEntry) (c : Scale) : Scale :=
  match old.enabled, new.enabled with
  | false, true => { toEmpty [] c with heldA := none, agree := 0 }
  | true, false => { withdrawn c with state := .disabled, heldA := none, agree := 0 }
  | true, true =>
    if old = new then c else { c with window := [], heldA := none, tareNoted := false }
  | false, false => c

/-- A scale context after a WARM reset (R103, R121). -/
def scaleWarm (enabled : Bool) (c : Scale) : Scale :=
  { withdrawn c with
    state := if enabled then .empty else .disabled
    tareNoted := false, heldA := none, agree := 0, queue := [] }

end State

end Sys2Proof.Machine
end

