-- ==== Sys2Proof/Machine/Ejectors.lean ====
section
/-! DEFINITION. The Ejection Unit (spec/08): compare points, setup stepping, force watching and the owed
EJECT_OFF. -/

namespace Sys2Proof.Machine

/-- A context whose timer stops in a phase. A stopped timer has no start (log 23). -/
def Ejector.stopIn (phase : EjectPhase) (e : Ejector) : Ejector :=
  { e with phase := phase, timerStart := none }

/-- The ejector is commanded on (R145). -/
def EjectPhase.commandedOn : EjectPhase → Bool
  | .runToB | .heldAtB => true
  | .stopped | .runToA | .heldAtA => false

/-- The force enters the peak (R151). -/
def raisesPeak (e : Ejector) (force : Nat) : Bool :=
  match e.peak with
  | none => true
  | some peak => decide (peak < force)

namespace State

/-! ## Frames to the ejector (R147, R153) -/

/-- An EJECT_ON frame to the latched ejector node, if there is one (R147). -/
def ejectOn (p : PressNo) (s : State) : State :=
  match (s.ejector p).node with
  | some n => originate .D n .command (natBytes 1 ejectOnCode) .plain s
  | none => s

/-- An ejection with an ejector node ends or is cut short: its EJECT_OFF becomes owed (R153). -/
def oweEjectOff (p : PressNo) (s : State) : State :=
  match (s.ejector p).node with
  | some n =>
    { s.modEjector p fun e =>
        { e with offOwed := some { node := n, placed := false, number := s.offNumber } }
      with offNumber := s.offNumber + 1 }
  | none => s

/-- End the ejection: EJECT_OFF owed and placed, phase STOPPED (R148, R152). -/
def stopEjection (p : PressNo) (s : State) : State :=
  (placeOwed (oweEjectOff p s)).modEjector p (Ejector.stopIn .stopped)

/-- Cut an ejection short (R142 step 2, R154). While a WARM reset is taking effect the frame is placed
with the others at its end (R193 step 7). -/
def cutEjection (p : PressNo) (s : State) : State :=
  if (s.ejector p).phase = .stopped then s
  else
    (doIf (!s.warmTaking) placeOwed (oweEjectOff p s)).modEjector p (Ejector.stopIn .stopped)

/-! ## Compare points (R146 to R148, R150) -/

/-- Compare A is reached (R147). -/
def reachA (p : PressNo) (s : State) : State :=
  if (s.ejector p).setup then setFlag p .setup (s.modEjector p (Ejector.stopIn .heldAtA))
  else (ejectOn p s).modEjector p fun e => { e with phase := .runToB }

/-- The ejection ends and the unit goes to UNLOAD (R148, R150). -/
def finishEjection (p : PressNo) (s : State) : State :=
  (stopEjection p s).modUnit p fun u => { u with state := .unload }

/-- Compare B is reached (R148). -/
def reachB (p : PressNo) (s : State) : State :=
  if (s.ejector p).setup then setFlag p .setup (s.modEjector p (Ejector.stopIn .heldAtB))
  else finishEjection p s

/-- The latches of an ejection that begins (R146). -/
def latched (s : State) (p : PressNo) (r : Recipe) (t : Time) (e : Ejector) : Ejector :=
  { e with node := s.nodeOf .ejector p.val, compareA := r.ejectA, compareB := r.ejectB
           stuckForce := r.stuckForce, peak := none, timerStart := some t, phase := .runToA }

/-- EJECT entry (R146): compare A is reached at once if it is 0. -/
def beginEjection (p : PressNo) (r : Recipe) (t : Time) (s : State) : State :=
  doIf (decide (r.ejectA = 0)) (reachA p) (s.modEjector p (latched s p r t))

/-- A press's ejector timer reads a compare value or more, in a phase in which it runs; no timer expires
during a COLD shutdown (R145, R194). -/
def ejectorDue (s : State) (p : PressNo) (phase : EjectPhase) (compare : Nat) : Bool :=
  !s.shutdown && (s.ejector p).phase == phase
    && (s.ejector p).timerStart.any fun t => decide (compare ≤ since s.timebase t)

/-- Compare A is due (R147). -/
def compareADue (s : State) (p : PressNo) : Bool :=
  s.ejectorDue p .runToA (s.ejector p).compareA

/-- Compare B is due (R148). -/
def compareBDue (s : State) (p : PressNo) : Bool :=
  s.ejectorDue p .runToB (s.ejector p).compareB

/-- PRESS_CONTROL STEP (R150). -/
def ejectStep (p : PressNo) (s : State) : State × Result :=
  match (s.ejector p).phase with
  | .heldAtA =>
    ((ejectOn p s).modEjector p fun e =>
      { e with timerStart := some (s.timebase - BitVec.ofNat 32 e.compareA), phase := .runToB }, .ok)
  | .heldAtB => (finishEjection p s, .ok)
  | .stopped | .runToA | .runToB => (s, .refusedState)

/-- PRESS_CONTROL SETUP_ON and SETUP_OFF (R149). -/
def setSetup (p : PressNo) (on : Bool) (s : State) : State :=
  s.modEjector p fun e => { e with setup := on }

/-! ## Force watching (R151, R152) -/

/-- A stuck part (R152). -/
def stuckPart (p : PressNo) (t : Time) (s : State) : State :=
  let s1 := setFlag p .ejectStuck (raise t .ejectStuck (.press p) (stopEjection p s))
  closeRecord p .fault t (s1.modUnit p fun u => { u with state := .fault })

/-- The peak follows a watched force (R151 step 1). -/
def followPeak (p : PressNo) (force : Nat) (s : State) : State :=
  if raisesPeak (s.ejector p) force then
    (s.modEjector p fun e => { e with peak := some force }).modRecord p fun r =>
      { r with peakForce := some force }
  else s

/-- An ejector STATUS delivered to a context (R151). -/
def takeEjector (p : PressNo) (r : EjectorReport) (s : State) : State :=
  let s1 := s.modEjector p fun e => { e with lastStatus := some r }
  if (s.ejector p).phase.commandedOn then
    doIf (decide ((s.ejector p).stuckForce < r.force)) (stuckPart p r.arrival)
      (followPeak p r.force s1)
  else s1

end State

end Sys2Proof.Machine
end

