-- ==== Sys2Proof/Machine/Presses.lean ====
section
/-! DEFINITION. The Press Sequencer (spec/07 and R155): enable and disable, press status, binding, the gate,
pressure, the cycle's end and press resets. -/

namespace Sys2Proof.Machine

/-- Reasons of a refusal (R203). -/
inductive Reason where
  | notEnabled | noCharge | mouldMismatch | zoneFault | notAtTemp | historyHold | historyFull
  | cureIncomplete | broadcast
deriving DecidableEq, Repr

/-- Reason codes (R203). -/
def Reason.code : Reason → Nat
  | .notEnabled => 0 | .noCharge => 1 | .mouldMismatch => 2 | .zoneFault => 3 | .notAtTemp => 4
  | .historyHold => 5 | .historyFull => 6 | .cureIncomplete => 7 | .broadcast => 8

/-- A REFUSAL's payload (R203); press 255 for none. -/
def refusalBytes (press code : Nat) (reason : Reason) : List Byte :=
  natBytes 1 press ++ natBytes 1 code ++ natBytes 1 reason.code

/-- The unit without its binding and charge (R125, R128, R142). -/
def PressUnit.unbound (state : UnitState) (u : PressUnit) : PressUnit :=
  { u with state := state, binding := none, charge := none }

/-- What a press reset clears, and where it leaves the unit (R142 steps 5 and 6). -/
def PressUnit.afterReset (u : PressUnit) : PressUnit :=
  { u with state := if u.haltPending then .disabled else .idle
           haltPending := false, binding := none, bindFault := .none, charge := none
           closingEntry := none, closeTimedOut := false, aborted := false, mouldChanged := false }

namespace State

/-! ## Binding (R36, R127) -/

/-- The slot that holds a reported mould id; 0 finds none (R36). -/
def slotFor (s : State) (mould : Nat) : Option MouldEntry :=
  if mould = 0 then none else s.tables.moulds.toList.find? fun e => e.mould == mould

/-- The press has an enabled zone whose cure-reference flag is set (R127). -/
def hasReference (s : State) (p : PressNo) : Bool :=
  (s.enabledZones p).any fun z => (s.zoneEntry z).cureReference

/-- The last two tests of a binding, and the binding (R127). -/
def bindRecipe (s : State) (p : PressNo) (mould : Nat) (i : Fin 32) : Except BindFault Binding :=
  let r := s.tables.recipes[i]
  if r.valid = false ∨ r.mould ≠ mould then .error .recipeInvalid
  else if (s.rateOf r).length < 2 then .error .rateInvalid
  else if s.hasReference p then .ok { recipe := i, mould := mould }
  else .error .noReference

/-- The tests of a binding attempt, in order (R127). Stored slots name recipes 0..31 (R35). -/
def bindTest (s : State) (p : PressNo) (mould : Nat) : Except BindFault Binding :=
  match s.slotFor mould with
  | none => .error .mouldUnknown
  | some e => if h : e.recipe < 32 then s.bindRecipe p mould ⟨e.recipe, h⟩ else .error .recipeInvalid

/-- The effects of a successful binding (R127). -/
def bindUnit (p : PressNo) (b : Binding) (t : Time) (s : State) : State :=
  let r := s.tables.recipes[b.recipe]
  let s1 := s.modUnit p fun u => { u with binding := some b, bindFault := .none }
  let s2 := each (takeRecipeBase r) (zonesOf p) s1
  joinQueue p r t (s2.modUnit p fun u => { u with state := .chargeWait })

/-- A binding attempt (R127). -/
def attemptBinding (p : PressNo) (r : PressReport) (s : State) : State :=
  match s.bindTest p r.mould with
  | .ok b => bindUnit p b r.arrival s
  | .error f => s.modUnit p fun u => { u with bindFault := f }

/-! ## Enable and disable (R124, R125) -/

/-- PRESS_CONTROL ENABLE (R124). -/
def pressEnable (p : PressNo) (s : State) : State × Result :=
  match (s.unit p).state with
  | .disabled =>
    if (s.nodeOf .press p.val).isSome then
      (s.modUnit p fun u => { u with state := .idle, bindFault := .none }, .ok)
    else (s, .unconfigured)
  | _ =>
    if (s.unit p).haltPending then (s.modUnit p fun u => { u with haltPending := false }, .ok)
    else (s, .refusedState)

/-- A charge is discarded: CHARGE_DISCARD (R125, R128, R142). -/
def discardCharge (p : PressNo) (s : State) : State :=
  raiseNow .chargeDiscard (.press p) (s.modUnit p fun u => { u with charge := none })

/-- What a unit that waits or holds a charge gives up as it unbinds: its queue entry (R118) or its charge
(R125, R128, R142 step 4). -/
def giveUpCharge (p : PressNo) (s : State) : State :=
  match (s.unit p).state with
  | .chargeWait => leaveQueue p s
  | .chargeReady => discardCharge p s
  | _ => s

/-- PRESS_CONTROL DISABLE, answered OK in every state (R125). -/
def pressDisable (p : PressNo) (s : State) : State :=
  match (s.unit p).state with
  | .disabled => s
  | .idle => s.modUnit p fun u => { u with state := .disabled, bindFault := .none }
  | .chargeWait | .chargeReady => (giveUpCharge p s).modUnit p (PressUnit.unbound .disabled)
  | _ => s.modUnit p fun u => { u with haltPending := true }

/-! ## Mould tests (R128, R129) -/

/-- The reported mould is neither the bound mould nor 0. -/
def mouldDiffers (s : State) (p : PressNo) (mould : Nat) : Bool :=
  mould != 0 && (s.unit p).binding.any fun b => b.mould != mould

/-- The mould test of a unit that waits or holds a charge (R128). -/
def mouldTestWaiting (p : PressNo) (r : PressReport) (s : State) : State :=
  if s.mouldDiffers p r.mould then (giveUpCharge p s).modUnit p (PressUnit.unbound .idle) else s

/-- The mould test of a unit in a cycle (R129). -/
def mouldTestCycle (p : PressNo) (r : PressReport) (s : State) : State :=
  if s.mouldDiffers p r.mould && !(s.unit p).mouldChanged then
    setFlag p .mouldChanged
      (raise r.arrival .mouldChange (.press p) (s.modUnit p fun u => { u with mouldChanged := true }))
  else s

/-! ## Closing, pressure and cure (R134 to R136) -/

/-- The record fields of CURE entry (R134 step 2). -/
def pressureRecord (recipe : Recipe) (charge : Option ChargeRecord) (t : Time) (r : Record) : Record :=
  match charge with
  | some c =>
    let load := since t c.release
    let r1 := { r with pressureTime := some t, loadToPressure := some load }
    if recipe.loadLimit * 1000 < load then r1.set .latePressure else r1
  | none => { r with pressureTime := some t }

/-- A zone's deviation state at CURE entry (R62). -/
def freshDeviation (c : Zone) : Zone := { c with deviationCount := 0, deviationNoted := false }

/-- The cure begins (R134). -/
def enterCure (p : PressNo) (recipe : Recipe) (t : Time) (s : State) : State :=
  let s1 := (s.modUnit p fun u => { u with state := .cure }).modRecord p
    (pressureRecord recipe (s.unit p).charge t)
  each (fun z => modZone z freshDeviation) (zonesOf p) (startCure p recipe t s1)

/-- The pressure test in CLOSING (R134). -/
def closingTest (p : PressNo) (r : PressReport) (s : State) : State :=
  match s.boundRecipe p with
  | some recipe =>
    if r.position = .closedPressure ∧ recipe.minTonnage ≤ r.tonnage
        ∧ (s.unit p).closeTimedOut = false then
      enterCure p recipe r.arrival s
    else s
  | none => s

/-- The tonnage test in CURE (R136). -/
def cureTest (p : PressNo) (r : PressReport) (s : State) : State :=
  if (s.boundRecipe p).any fun recipe => decide (r.tonnage < recipe.minTonnage) then
    setFlag p .pressureLoss s
  else s

/-- The close timer has reached the close timeout in CLOSING and has not expired in this cycle (R135). -/
def closeTimerDue (s : State) (p : PressNo) : Bool :=
  !s.shutdown && (s.unit p).state == .closing && !(s.unit p).closeTimedOut
    && (s.boundRecipe p).any fun r =>
      (s.unit p).closingEntry.any fun t => decide (r.closeTimeout * 1000 ≤ since s.timebase t)

/-- The close timer expires (R135). -/
def closeTimerExpires (p : PressNo) (s : State) : State :=
  setFlag p .closeTimeout
    (raiseNow .pressTimeout (.press p) (s.modUnit p fun u => { u with closeTimedOut := true }))

/-- PRESS_CONTROL FORCE_DEMOULD (R136). -/
def forceDemould (p : PressNo) (s : State) : State × Result :=
  if (s.unit p).state = .cure then
    ((setFlag p .forcedDemould (endCure p s.timebase s)).modUnit p fun u =>
      { u with state := .demouldWait }, .ok)
  else (s, .refusedState)

/-! ## Opening and the end of the cycle (R139, R155) -/

/-- The OPEN_FULL test in OPENING (R139). -/
def openingTest (p : PressNo) (r : PressReport) (s : State) : State :=
  if r.position = .openFull then
    if (s.unit p).aborted then s.modUnit p fun u => { u with state := .unload }
    else
      match s.boundRecipe p with
      | some recipe =>
        beginEjection p recipe r.arrival (s.modUnit p fun u => { u with state := .eject })
      | none => s
  else s

/-- Where a cycle's end takes the unit (R155 step 3). -/
def afterCycle (p : PressNo) (t : Time) (s : State) : State :=
  if (s.unit p).haltPending then
    s.modUnit p fun u => { u.unbound .disabled with haltPending := false, mouldChanged := false }
  else if (s.unit p).mouldChanged then
    s.modUnit p fun u => { u.unbound .idle with mouldChanged := false, bindFault := .none }
  else
    match s.boundRecipe p with
    | some recipe => joinQueue p recipe t (s.modUnit p fun u => { u with state := .chargeWait })
    | none => s

/-- The end of the cycle (R155). -/
def endCycle (p : PressNo) (t : Time) (s : State) : State :=
  let cause := if (s.unit p).aborted then CloseCause.endAborted else .endOfCycle
  afterCycle p t ((closeRecord p cause t s).modUnit p fun u =>
    { u with charge := none, closingEntry := none, closeTimedOut := false, aborted := false })

/-- The cavity test in UNLOAD (R155). -/
def unloadTest (p : PressNo) (r : PressReport) (s : State) : State :=
  if r.cavityClear then endCycle p r.arrival s else s

/-! ## Press status frames (R126) -/

/-- The tests of the state in which the frame finds the unit, the mould test first (R126's table). -/
def testReport (state : UnitState) (p : PressNo) (r : PressReport) (s : State) : State :=
  match state with
  | .disabled | .fault => s
  | .idle => attemptBinding p r s
  | .chargeWait | .chargeReady => mouldTestWaiting p r s
  | .closing => closingTest p r (mouldTestCycle p r s)
  | .cure => cureTest p r (mouldTestCycle p r s)
  | .demouldWait | .eject => mouldTestCycle p r s
  | .opening => openingTest p r (mouldTestCycle p r s)
  | .unload => unloadTest p r (mouldTestCycle p r s)

/-- A press STATUS delivered to a unit (R126). -/
def takePress (p : PressNo) (r : PressReport) (s : State) : State :=
  testReport (s.unit p).state p r (s.modUnit p fun u => { u with lastStatus := some r })

/-! ## The gate (R130 to R133, R137, R138) -/

/-- A refusal: the REFUSAL frame to the command's source, then the event (R130). -/
def refuse (press code src : Nat) (reason : Reason) (k : EventKind) (i : EventOn) (s : State) : State :=
  raiseNow k i (originate .U src .refusal (refusalBytes press code reason) .plain s)

/-- The history condition of a CLOSE (R131, R163). -/
def historyReason (s : State) : Option Reason :=
  match s.admission with
  | .admitted => none
  | .historyHold => some .historyHold
  | .historyFull => some .historyFull

/-- The mould id of the last press status equals the bound mould (R131). -/
def mouldMatches (s : State) (p : PressNo) : Bool :=
  (s.unit p).lastStatus.any fun r => (s.unit p).binding.any fun b => r.mould == b.mould

/-- Every enabled zone is ready for the bound recipe (R66). -/
def zonesReady (s : State) (p : PressNo) : Bool := (s.boundRecipe p).any fun r => s.allReady p r

/-- The reason of the first condition of R131 that a CLOSE fails; none when every one holds. -/
def closeReason (s : State) (p : PressNo) : Option Reason :=
  if (s.unit p).state = .disabled then some .notEnabled
  else if (s.unit p).state ≠ .chargeReady then some .noCharge
  else if s.mouldMatches p = false then some .mouldMismatch
  else if s.zoneFault p then some .zoneFault
  else if s.zonesReady p = false then some .notAtTemp
  else s.historyReason

/-- A unit as a cycle begins (R132 step 3). -/
def unitClosing (t : Time) (u : PressUnit) : PressUnit :=
  { u with state := .closing, closingEntry := some t, closeTimedOut := false, aborted := false
           mouldChanged := false }

/-- A cycle begins (R132 steps 1 to 3). -/
def beginCycle (p : PressNo) (t : Time) (s : State) : State :=
  match (s.unit p).binding, (s.unit p).charge with
  | some b, some c =>
    (each returnToPrimary (zonesOf p) (allocate p b c t s)).modUnit p (unitClosing t)
  | _, _ => s

/-- The gate takes a CLOSE from `src` (R131, R133); the second part says PASS. -/
def gateClose (p : PressNo) (src : Nat) (s : State) : State × Bool :=
  if (s.unit p).state = .closing then (s, true)
  else
    match s.closeReason p with
    | some reason => (refuse p.val closeCode src reason .closeRefused (.press p) s, false)
    | none => (beginCycle p s.timebase s, true)

/-- The unit enters OPENING, and the open time is written (R137, R138). -/
def enterOpening (p : PressNo) (abort : Bool) (t : Time) (s : State) : State :=
  (s.modUnit p fun u => { u with state := .opening, aborted := u.aborted || abort }).modRecord p
    fun r => { r with openTime := some t }

/-- The gate takes a plain OPEN from `src` (R137). -/
def gateOpen (p : PressNo) (src : Nat) (s : State) : State × Bool :=
  let refused := (refuse p.val openCode src .cureIncomplete .openRefused (.press p) s, false)
  match (s.unit p).state with
  | .demouldWait => (enterOpening p false s.timebase s, true)
  | .closing => if (s.unit p).closeTimedOut then (enterOpening p true s.timebase s, true) else refused
  | .cure => refused
  | .disabled | .idle | .chargeWait | .chargeReady | .opening | .eject | .unload | .fault => (s, true)

/-- An emergency open of a cycle: OPENING, aborted, with its record flag (R138). -/
def emergencyOpening (p : PressNo) (s : State) : State :=
  setFlag p .emergencyOpen (enterOpening p true s.timebase s)

/-- The gate takes an OPEN_EMERGENCY, which always passes (R138). -/
def gateEmergency (p : PressNo) (s : State) : State :=
  let s1 := raiseNow .emergencyOpen (.press p) s
  match (s.unit p).state with
  | .closing | .demouldWait => emergencyOpening p s1
  | .cure => emergencyOpening p (endCure p s.timebase s1)
  | .disabled | .idle | .chargeWait | .chargeReady | .opening | .eject | .unload | .fault => s1

/-! ## Press resets (R142, R143) -/

/-- Steps 1 to 3 of R142: the cure ends, the ejection is cut short, the record closes. -/
def cutCycle (p : PressNo) (cause : CloseCause) (s : State) : State :=
  let s1 := doIf ((s.unit p).state == .cure) (endCure p s.timebase) s
  let s2 := doIf ((s.unit p).state == .eject) (cutEjection p) s1
  doIf (s.unit p).state.inCycle (closeRecord p cause s.timebase) s2

/-- Reset a press unit with the close cause of its OPEN record (R142, R143). -/
def resetUnit (p : PressNo) (cause : CloseCause) (s : State) : State :=
  match (s.unit p).state with
  | .disabled => s
  | .idle => s.modUnit p fun u => { u with bindFault := .none }
  | _ => (giveUpCharge p (cutCycle p cause s)).modUnit p PressUnit.afterReset

end State

end Sys2Proof.Machine
end

