-- ==== Sys2Proof/Machine/Resets.lean ====
section
/-! DEFINITION. Power-on, the WARM reset and the COLD reset (R24, R192 to R196), and the moment at which a
reset that is due takes effect. -/

namespace Sys2Proof.Machine

/-- A port whose queues have been emptied; the transmission under way goes on (R24). -/
def PortState.emptied (x : PortState) : PortState := { x with fwd := [], own := [] }

/-- An off command whose frame the queue has lost (R80). -/
def OffCommand.unplaced (o : OffCommand) : OffCommand := { o with placed := false }

/-- An owed EJECT_OFF whose frame the queue has lost (R153). -/
def OffOwed.unplaced (o : OffOwed) : OffOwed := { o with placed := false }

/-- A zone's off commands after the queues have been emptied (R80, R193 step 1). -/
def Zone.unplaced (c : Zone) : Zone := { c with offs := c.offs.map OffCommand.unplaced }

/-- An ejector's debt after the queues have been emptied (R153, R193 step 1). -/
def Ejector.unplaced (e : Ejector) : Ejector := { e with offOwed := e.offOwed.map OffOwed.unplaced }

/-- A buffer without its lock (R176). -/
def Profile.unlocked (x : Profile) : Profile := { x with locked := false }

/-- The duties of an enabled zone at the start of a COLD shutdown (R194 step 3). -/
def Zone.shutOff (c : Zone) : Zone := { c with staged := 0, committed := 0 }

namespace State

/-! ## WARM reset (R193) -/

/-- Step 1: the queues are emptied and the placed flags cleared. The reset is pending no more (R192), and
the LINK pin is off (R26). -/
def warmQueues (s : State) : State :=
  { s with
    portU := s.portU.emptied
    portD := s.portD.emptied
    zones := s.zones.map Zone.unplaced
    ejectors := s.ejectors.map Ejector.unplaced
    resetPending := .idle
    linkPin := false
    linkStart := none }

/-- Step 3: the scales (R121). -/
def warmScales (s : State) : State :=
  each (fun k x => x.modScale k (scaleWarm (s.scaleEntry k).enabled)) (List.finRange 2) s

/-- Step 4: the press units in ascending order (R143). -/
def warmUnits (s : State) : State := each (fun p => resetUnit p .warmReset) (List.finRange 4) s

/-- Step 5: every profile lock is cleared (R176). -/
def warmLocks (s : State) : State := { s with profiles := s.profiles.map Profile.unlocked }

/-- Step 6: every kind but its enable is cleared; attention and ATTN are off (R189). -/
def warmEvents (s : State) : State :=
  { s with events := s.events.map clearedEntry, attention := false, attnPin := false }

/-- Steps 2 to 5, during which attention is not evaluated (R185) and no off frame or REPORT frame is
placed: the events they raise and the frames they owe wait for steps 6 and 7. -/
def warmBody (s : State) : State :=
  let s1 := { s with exportQueue := [], warmTaking := true }
  { warmLocks (warmUnits (warmScales s1)) with warmTaking := false }

/-- A WARM reset takes effect (R193). -/
def warmEffect (s : State) : State := exportMoves (placeOwed (warmEvents (warmBody (warmQueues s))))

/-! ## COLD reset and power-on (R194 to R196) -/

/-- Step 3 of R194 for one zone: an enabled zone's heat is shut off and its off command created. -/
def shutOffZone (z : ZoneNo) (s : State) : State :=
  if s.enabled z then createOff z (s.modZone z Zone.shutOff) else s

/-- Step 4 of R194 for one press: an ejection with an ejector node makes its EJECT_OFF owed. -/
def shutOffEjector (p : PressNo) (s : State) : State :=
  if (s.unit p).state = .eject then oweEjectOff p s else s

/-- A COLD reset begins its shutdown (R194). The timers stop by the shutdown flag, which every expiry
test reads (log 16). -/
def coldShutdown (s : State) : State :=
  placeOwed (each shutOffEjector (List.finRange 4)
    (each shutOffZone (List.finRange 48) { s with resetPending := .idle, shutdown := true }))

/-- Some heater off command or owed EJECT_OFF is present (R194). -/
def offPresent (s : State) : Bool :=
  ((List.finRange 48).any fun z => !(s.zone z).offs.isEmpty)
    || (List.finRange 4).any fun p => (s.ejector p).offOwed.isSome

/-- A COLD reset takes effect (R195): every item at its Power-on value, with the strap sampled. The
transmissions under way go on (R24). The free counter of log 14 is no item of the part. -/
def coldEffect (s : State) : State :=
  let s1 := State.atPowerOn s.strap
  { s1 with
    pending := s.pending
    portU := { s1.portU with sending := s.portU.sending }
    portD := { s1.portD with sending := s.portD.sending }
    freeCounter := s.freeCounter }

/-- The power-on reset takes effect (R196): as R195, without a shutdown. -/
def powerOn (s : State) : State := coldEffect s

/-- RESET_N is driven low (R196): nothing is sent or received, LINK and ATTN are off. -/
def holdReset (s : State) : State :=
  { s with
    resetHeld := true, linkPin := false, linkStart := none, attnPin := false
    portU := { s.portU with sending := none }, portD := { s.portD with sending := none } }

/-! ## The moment of a reset (R192, R194) -/

/-- A reset whose moment has been reached takes effect: WARM, or the shutdown of a COLD reset. -/
def takeDue (s : State) : State :=
  match s.resetPending with
  | .due .warm => warmEffect s
  | .due .cold => coldShutdown s
  | .idle | .waiting _ => s

/-- The COLD reset takes effect when no off frame is present any more (R194). -/
def endShutdown (s : State) : State := if s.shutdown && !s.offPresent then coldEffect s else s

/-- Whatever reset has reached its moment takes effect before anything else is taken (R24, R192, R194;
log 8). -/
def takeDueReset (s : State) : State := endShutdown (takeDue s)

end State

/-- A command of a running part: a reset that has reached its moment comes first (log 8); while RESET_N is
low nothing happens (R196, log 5). -/
def running (f : State → State) (s : State) : Host.Outcome State Fault Refusal :=
  .next (if s.resetHeld then s else f s.takeDueReset)

end Sys2Proof.Machine
end

