-- ==== Sys2Proof/Machine/TableAccess.lean ====
section
/-! DEFINITION. The Table Store (spec/02, and the tables of 01, 03, 06 and 10): reads, whole writes with
validation and in-use protection, and what a write does to the running state. -/

namespace Sys2Proof.Machine

/-! ## Whole writes (R28, R29) -/

/-- The table with a range of entries replaced (R28). -/
def writeRange {α : Type} {n : Nat} (start : Nat) (es : List α) (v : Vector α n) : Vector α n :=
  v.mapFinIdx fun i e _ => if start ≤ i then (es[i - start]?).getD e else e

/-- A number lies in a range. -/
def inRange (low high n : Nat) : Bool := decide (low ≤ n ∧ n ≤ high)

/-- No two entries hold the same key; an entry without key never clashes. -/
def distinctKeys {α κ : Type} [DecidableEq κ] (key : α → Option κ) (l : List α) : Bool :=
  decide ((l.filterMap key).Nodup)

/-- Some written entry of a range differs from the stored one and is protected (R28, R29): `guards` is told
the index, the stored and the written entry. -/
def someGuarded {α : Type} {n : Nat} (start : Nat) (es : List α) (v : Vector α n)
    (guards : Fin n → α → α → Bool) : Bool :=
  (List.finRange n).any fun i =>
    decide (start ≤ i.val) && (es[i.val - start]?).any fun e => guards i v[i] e

/-! ## Validation -/

/-- The unit ranges of the roles (R11). -/
def unitAllowed : Role → Nat → Bool
  | .press, u | .ejector, u => decide (u ≤ 3)
  | .scale, u => decide (u ≤ 1)
  | .none, u | .thermo, u | .heater, u => u == 0

/-- The key by which PRESS and EJECTOR entries must differ (R11). -/
def nodeKey (e : NodeEntry) : Option (Role × Nat) :=
  match e.role with
  | .press | .ejector => some (e.role, e.unit)
  | .none | .thermo | .heater | .scale => none

/-- An address whose entry must have role NONE holds it (R11). -/
def noRoleAt (t : Vector NodeEntry 64) (a : Nat) : Bool := (t[a]?).all fun e => e.role == .none

/-- R11, against the table after the write. -/
def nodesValid (own : Nat) (es : List NodeEntry) (t : Vector NodeEntry 64) : Bool :=
  es.all (fun e => unitAllowed e.role e.unit) && noRoleAt t own && noRoleAt t Config.broadcast
    && distinctKeys nodeKey t.toList

/-- The ranges of a Recipe entry (R32). -/
def recipeValid (r : Recipe) : Bool :=
  inRange 1 65535 r.mould && inRange 0 4000 r.upper && inRange 0 4000 r.lower
    && inRange 0 3 r.rateTable && inRange 1 65535 r.cureTarget && inRange 0 3600 r.minDwell
    && inRange 1 7200 r.maxCure && inRange 1 60 r.profileInterval && inRange 0 1 r.scale
    && inRange 1 300000 r.chargeTarget && inRange 0 10000 r.tolMinus && inRange 0 10000 r.tolPlus
    && inRange 1 600 r.loadLimit && inRange 1 60000 r.minTonnage && inRange 1 120 r.closeTimeout
    && inRange 0 10000 r.ejectA && inRange 100 30000 r.ejectB && inRange 1 10000 r.stuckForce
    && inRange 10 500 r.deviationBand && inRange 10 500 r.readyBand
    && decide (r.minDwell ≤ r.maxCure) && decide (r.ejectA + 100 ≤ r.ejectB)

/-- The key by which Mould slots must differ: a mould id that is not 0 (R35). -/
def mouldKey (e : MouldEntry) : Option Nat := if e.mould = 0 then none else some e.mould

/-- R35, against the table after the write. -/
def mouldsValid (es : List MouldEntry) (t : Vector MouldEntry 64) : Bool :=
  es.all (fun e => decide (e.recipe ≤ 31)) && distinctKeys mouldKey t.toList

/-- Temperatures strictly ascend (R38). -/
def ascending : List RatePoint → Bool
  | p :: q :: rest => decide (p.temp < q.temp) && ascending (q :: rest)
  | _ => true

/-- R38. -/
def rateValid (ps : List RatePoint) : Bool :=
  (ps.length == 0 || inRange 2 16 ps.length) && ascending ps
    && ps.all fun p => decide (-500 ≤ p.temp ∧ p.temp ≤ 6000)

/-- R40. -/
def pressEntryValid (e : PressEntry) : Bool :=
  inRange 250 4000 e.period && inRange 1 15 e.holdLimit && inRange 250 5000 e.maxGap
    && inRange 0 500 e.ramp

/-- R42. -/
def cellValid (own : Nat) (e : CellEntry) : Bool :=
  inRange 0 62 e.controller && e.controller != own && inRange 2 512 e.highMark
    && decide (1 ≤ e.lowMark ∧ e.lowMark < e.highMark)

/-- R178. -/
def exportValid (e : ExportEntry) : Bool := e.filters.toList.all fun f => decide (f.low ≤ f.high)

/-- The ranges of a Zone entry (R45). -/
def zoneRanges (e : ZoneEntry) : Bool :=
  decide (-200 ≤ e.offset ∧ e.offset ≤ 200) && inRange 0 1000 e.feedForward
    && inRange 0 1000 e.maxDuty && inRange 500 4500 e.limit && inRange 0 1000 e.kp
    && inRange 0 1000 e.ki

/-- The ranges of a Scale entry (R101). -/
def scaleRanges (e : ScaleEntry) : Bool :=
  inRange 4 32 e.windowN && inRange 1 1000 e.settleBand && inRange 1 299998 e.emptyThreshold
    && inRange (e.emptyThreshold + 1) 299999 e.loadThreshold
    && inRange (e.loadThreshold + 1) 300000 e.capacity && inRange 0 500 e.zeroTrack
    && inRange 1 1000 e.checkBand && inRange 200 5000 e.liftTime

/-- The channels a mode calls for (R101). -/
def scaleChannels (e : ScaleEntry) : Bool :=
  match e.mode with
  | .single => e.channelB.isNone
  | .sum | .check => e.channelB.isSome && e.channelA != e.channelB

/-- The channels an entry names. -/
def channelsOf (e : ScaleEntry) : List NodeRef := [e.channelA, e.channelB].filterMap id

/-- No channel is named by both scales (R101). -/
def scalesApart (t : Vector ScaleEntry 2) : Bool :=
  (channelsOf t[0]).all fun r => !((channelsOf t[1]).contains r)

/-- The fields that R46 protects on an enabled zone differ. -/
def zoneProtectedDiffers (old new : ZoneEntry) : Bool :=
  old.primary != new.primary || old.backup != new.backup || old.heater != new.heater
    || old.cureReference != new.cureReference

/-- Fields other than enabled differ (R102). -/
def scaleSettingsDiffer (old new : ScaleEntry) : Bool := { old with enabled := new.enabled } != new

namespace State

/-! ## Validation against the Node table (R45, R101) -/

/-- A pair that is not none names a node with a role (R45). -/
def refRoleOk (s : State) (role : Role) (r : Option NodeRef) : Bool := r.isNone || s.refHasRole role r

/-- R45 for one written entry. -/
def zoneEntryValid (s : State) (e : ZoneEntry) : Bool :=
  zoneRanges e && s.refRoleOk .thermo e.primary && s.refRoleOk .thermo e.backup
    && s.refRoleOk .heater e.heater && (e.backup.isNone || e.backup != e.primary)

/-- R45, against the table after the write. -/
def zonesValid (s : State) (es : List ZoneEntry) (t : Vector ZoneEntry 48) : Bool :=
  es.all s.zoneEntryValid && distinctKeys ZoneEntry.primary t.toList
    && distinctKeys ZoneEntry.heater t.toList

/-- The node test of an enabled Scale entry (R101). -/
def scaleNodesOk (s : State) (k : Nat) (e : ScaleEntry) : Bool :=
  !e.enabled || (e.channelA.isSome && (channelsOf e).all fun r =>
    (s.node r.node).role == .scale && (s.node r.node).unit == k)

/-- R101 for the entries written from an index on. -/
def scaleEntriesValid (s : State) : Nat → List ScaleEntry → Bool
  | _, [] => true
  | k, e :: es =>
    scaleRanges e && scaleChannels e && s.scaleNodesOk k e && scaleEntriesValid s (k + 1) es

/-! ## In-use protection -/

/-- An enabled zone uses a node (R12). -/
def zoneUsesNode (s : State) (a : Nat) : Bool :=
  (List.finRange 48).any fun z =>
    s.enabled z && [(s.zoneEntry z).primary, (s.zoneEntry z).backup, (s.zoneEntry z).heater].any fun r =>
      r.any fun x => x.node == a

/-- An enabled scale uses a node (R12). -/
def scaleUsesNode (s : State) (a : Nat) : Bool :=
  (List.finRange 2).any fun k =>
    (s.scaleEntry k).enabled && (channelsOf (s.scaleEntry k)).any fun r => r.node == a

/-- A press unit that is not DISABLED has a node as its PRESS or EJECTOR node (R12). -/
def unitUsesNode (s : State) (e : NodeEntry) : Bool :=
  (e.role == .press || e.role == .ejector)
    && (List.finRange 4).any fun p => e.unit == p.val && (s.unit p).state != .disabled

/-- R12. -/
def nodeGuard (s : State) (a : Fin 64) (old new : NodeEntry) : Bool :=
  (old.role != new.role || old.unit != new.unit)
    && (s.zoneUsesNode a.val || s.scaleUsesNode a.val || s.unitUsesNode old)

/-- R46. -/
def zoneGuard (s : State) (z : ZoneNo) (old new : ZoneEntry) : Bool :=
  s.enabled z && zoneProtectedDiffers old new

/-- Some unit is bound, and its binding and state have a property (R33, R37, R39). -/
def anyBound (s : State) (test : PressUnit → Binding → Bool) : Bool :=
  (List.finRange 4).any fun p => (s.unit p).binding.any (test (s.unit p))

/-- R33. -/
def recipeGuard (s : State) (i : Fin 32) (old new : Recipe) : Bool :=
  old != new && s.anyBound fun _ b => b.recipe == i

/-- R37. -/
def mouldGuard (s : State) (old new : MouldEntry) : Bool :=
  old != new && old.mould != 0 && s.anyBound fun _ b => b.mould == old.mould

/-- R39. -/
def rateGuard (s : State) (i : Fin 4) (old new : List RatePoint) : Bool :=
  old != new && s.anyBound fun u b =>
    s.tables.recipes[b.recipe].rateTable == i.val && (u.state.inCycle || new.isEmpty)

/-- R102. -/
def scaleGuard (s : State) (k : ScaleNo) (old new : ScaleEntry) : Bool :=
  scaleSettingsDiffer old new
    && (((s.scale k).state != .disabled && (s.scale k).state != .empty) || !(s.scale k).queue.isEmpty)

/-! ## Effects of a write on the running state -/

/-- A lowered max duty (R47, R78). -/
def lowerDuty (z : ZoneNo) (s : State) : State :=
  let top := (s.zoneEntry z).maxDuty
  let s1 := s.modZone z fun c => { c with staged := min c.staged top, committed := min c.committed top }
  doIf (decide (top < (s.zone z).committed)) (immediateHeat z) s1

/-- The last-entry records of sensors that a write changed (R47). -/
def forgetEntries (old new : ZoneEntry) (c : Zone) : Zone :=
  { c with primaryLast := if old.primary = new.primary then c.primaryLast else none
           backupLast := if old.backup = new.backup then c.backupLast else none }

/-- The base that a changed offset gives (R63): the zone is enabled, its press bound, its override clear. -/
def offsetWritten (z : ZoneNo) (s : State) : State :=
  match s.boundRecipe (pressOf z) with
  | some r => takeRecipeBase r z s
  | none => s

/-- What a Zone write does to one zone whose entry it replaced (R47). -/
def zoneWritten (old : Vector ZoneEntry 48) (z : ZoneNo) (s : State) : State :=
  let new := s.zoneEntry z
  let s1 := lowerDuty z (s.modZone z (forgetEntries old[z] new))
  let s2 := doIf (decide (old[z].limit ≠ new.limit)) (formTarget z) s1
  doIf (decide (old[z].offset ≠ new.offset)) (offsetWritten z) s2

/-- A Zone write answered OK: the entries, then what R47 does to each written zone, in ascending zone number.
The spec gives no order among the zones of one write, which their immediate HEAT frames show (DESIGN CHOICE,
log 24). -/
def storeZones (start count : Nat) (t : Vector ZoneEntry 48) (s : State) : State :=
  each (zoneWritten s.tables.zones)
    ((List.finRange 48).filter fun z => decide (start ≤ z.val ∧ z.val < start + count))
    (s.modTables fun x => { x with zones := t })

/-- A Scale write answered OK (R102). -/
def storeScales (t : Vector ScaleEntry 2) (s : State) : State :=
  each (fun k x => x.modScale k (scaleWritten (s.scaleEntry k) (x.scaleEntry k))) (List.finRange 2)
    (s.modTables fun x => { x with scales := t })

/-! ## WRITE_TABLE (R28) -/

/-- Stages 2 and 3 of R28 and the write itself. -/
def judgeWrite (valid guarded : Bool) (store : State → State) (s : State) : State × Result :=
  if !valid then (s, .badEntry) else if guarded then (s, .inUse) else (store s, .ok)

/-- A Node write (R11, R12). -/
def writeNodes (start : Nat) (es : List NodeEntry) (s : State) : State × Result :=
  let t := writeRange start es s.tables.nodes
  judgeWrite (nodesValid s.ownAddress es t) (someGuarded start es s.tables.nodes s.nodeGuard)
    (modTables fun x => { x with nodes := t }) s

/-- A Zone write (R45 to R47). -/
def writeZones (start : Nat) (es : List ZoneEntry) (s : State) : State × Result :=
  let t := writeRange start es s.tables.zones
  judgeWrite (s.zonesValid es t) (someGuarded start es s.tables.zones s.zoneGuard)
    (storeZones start es.length t) s

/-- A Recipe write (R32, R33). -/
def writeRecipes (start : Nat) (es : List Recipe) (s : State) : State × Result :=
  judgeWrite (es.all recipeValid) (someGuarded start es s.tables.recipes s.recipeGuard)
    (modTables fun x => { x with recipes := writeRange start es x.recipes }) s

/-- A Mould write (R35, R37). -/
def writeMoulds (start : Nat) (es : List MouldEntry) (s : State) : State × Result :=
  let t := writeRange start es s.tables.moulds
  judgeWrite (mouldsValid es t) (someGuarded start es s.tables.moulds fun _ => s.mouldGuard)
    (modTables fun x => { x with moulds := t }) s

/-- A Rate write (R38, R39). -/
def writeRates (start : Nat) (es : List (List RatePoint)) (s : State) : State × Result :=
  judgeWrite (es.all rateValid) (someGuarded start es s.tables.rates s.rateGuard)
    (modTables fun x => { x with rates := writeRange start es x.rates }) s

/-- A Scale write (R101, R102). -/
def writeScales (start : Nat) (es : List ScaleEntry) (s : State) : State × Result :=
  let t := writeRange start es s.tables.scales
  judgeWrite (s.scaleEntriesValid start es && scalesApart t)
    (someGuarded start es s.tables.scales s.scaleGuard) (storeScales t) s

/-- A Press write (R40, R41). -/
def writePresses (start : Nat) (es : List PressEntry) (s : State) : State × Result :=
  judgeWrite (es.all pressEntryValid) false
    (modTables fun x => { x with presses := writeRange start es x.presses }) s

/-- A Cell write (R42 to R44). -/
def writeCell (e : CellEntry) (s : State) : State × Result :=
  judgeWrite (cellValid s.ownAddress e) false
    (fun x => holdAfterCellWrite (x.modTables fun t => { t with cell := e })) s

/-- An Export write (R178). -/
def writeExport (e : ExportEntry) (s : State) : State × Result :=
  judgeWrite (exportValid e) false (modTables fun t => { t with exports := e }) s

/-- Cut the entries out of the bytes, and write them; a field outside its encoding's values is a failure of
validation (R27, R28). -/
def writeEntries {α : Type} (table : TableId) (count : Nat) (bytes : List Byte)
    (read : List Byte → Option α) (write : List α → State → State × Result) (s : State) :
    State × Result :=
  match entriesOf table.entryLength read count bytes with
  | some es => write es s
  | none => (s, .badEntry)

/-- The one entry of a single-entry table, or of a Rate write. -/
def writeSingle {α : Type} (bytes : List Byte) (read : List Byte → Option α)
    (write : α → State → State × Result) (s : State) : State × Result :=
  match read bytes with
  | some e => write e s
  | none => (s, .badEntry)

/-- WRITE_TABLE after its range test, by table. -/
def writeTo (table : TableId) (start count : Nat) (bytes : List Byte) (s : State) : State × Result :=
  match table with
  | .node => writeEntries table count bytes nodeEntryOf (writeNodes start) s
  | .zone => writeEntries table count bytes zoneEntryOf (writeZones start) s
  | .recipe => writeEntries table count bytes recipeOf (writeRecipes start) s
  | .mould => writeEntries table count bytes mouldEntryOf (writeMoulds start) s
  | .rate => writeSingle bytes rateEntryOf (fun e => writeRates start [e]) s
  | .scale => writeEntries table count bytes scaleEntryOf (writeScales start) s
  | .press => writeEntries table count bytes pressEntryOf (writePresses start) s
  | .cell => writeSingle bytes cellEntryOf writeCell s
  | .exports => writeSingle bytes exportEntryOf writeExport s

/-- The header of a table response: identifier, start index, count (R28, R30). -/
def tableHeader (table : TableId) (start count : Nat) : List Byte :=
  natBytes 1 table.code ++ natBytes 1 start ++ natBytes 1 count

/-- WRITE_TABLE (R28). -/
def writeTable (table : TableId) (start count : Nat) (bytes : List Byte) (s : State) :
    State × Result × List Byte :=
  if table.entries < start + count then (s, .range, [])
  else ((writeTo table start count bytes s).1, (writeTo table start count bytes s).2,
    tableHeader table start count)

/-! ## READ_TABLE (R30) -/

/-- The bytes of one entry of a table; none beyond its end. -/
def entryBytes (s : State) (table : TableId) (i : Nat) : List Byte :=
  match table with
  | .node => (s.tables.nodes[i]?).elim [] nodeEntryBytes
  | .zone => if h : i < 48 then zoneEntryBytes (s.enabled ⟨i, h⟩) (s.zoneEntry ⟨i, h⟩) else []
  | .recipe => (s.tables.recipes[i]?).elim [] recipeBytes
  | .mould => (s.tables.moulds[i]?).elim [] mouldEntryBytes
  | .rate => (s.tables.rates[i]?).elim [] rateEntryBytes
  | .scale => (s.tables.scales[i]?).elim [] scaleEntryBytes
  | .press => (s.tables.presses[i]?).elim [] pressEntryBytes
  | .cell => if i = 0 then cellEntryBytes s.tables.cell else []
  | .exports => if i = 0 then exportEntryBytes s.tables.exports else []

/-- READ_TABLE (R30). -/
def readTable (s : State) (table : TableId) (start count : Nat) : Result × List Byte :=
  if table.entries < start + count then (.range, [])
  else
    let n := min count table.perRequest
    (.ok, tableHeader table start n ++ (List.range n).flatMap fun i => s.entryBytes table (start + i))

end State

end Sys2Proof.Machine
end

