-- ==== Sys2Proof/Machine/Status.lean ====
section
/-! DEFINITION. READ_STATUS and READ_EVENTS (R67, R82, R100, R122, R144, R156, R177, R188, R191): the items
each rule lists, in its order, in the encoding of R205. The widths and orders that the spec leaves to
inference are in log 12. -/

namespace Sys2Proof.Machine

/-! ## Codes of named values, in the order of the owning tables' lists (R197) -/

/-- Section 3.2's list. -/
def ZoneState.code : ZoneState → Nat
  | .disabled => 0 | .regulating => 1 | .holding => 2 | .overtemp => 3 | .lost => 4

/-- Section 3.2's list. -/
def ActiveSensor.code : ActiveSensor → Nat
  | .primary => 0 | .backup => 1

/-- R83's list. -/
def CureStatus.code : CureStatus → Nat
  | .none => 0 | .accruing => 1 | .permitted => 2 | .timedOut => 3 | .stopped => 4

/-- R83's list. -/
def Inclusion.code : Inclusion → Nat
  | .notInCure => 0 | .included => 1 | .excluded => 2

/-- R103's list. -/
def ScaleState.code : ScaleState → Nat
  | .disabled => 0 | .empty => 1 | .loading => 2 | .noRequest => 3 | .accepted => 4 | .rejected => 5
  | .lifting => 6 | .overload => 7 | .mismatch => 8

/-- R123's list. -/
def UnitState.code : UnitState → Nat
  | .disabled => 0 | .idle => 1 | .chargeWait => 2 | .chargeReady => 3 | .closing => 4 | .cure => 5
  | .demouldWait => 6 | .opening => 7 | .eject => 8 | .unload => 9 | .fault => 10

/-- R123's list. -/
def BindFault.code : BindFault → Nat
  | .none => 0 | .mouldUnknown => 1 | .recipeInvalid => 2 | .rateInvalid => 3 | .noReference => 4

/-- R144's run mode, numbered in the order in which R144 names OFF, HALTING and RUNNING, since no table lists
them (DEDUCED, log 12). -/
def runMode (u : PressUnit) : Nat :=
  if u.state = .disabled then 0 else if u.haltPending then 1 else 2

/-- R145's list. -/
def EjectPhase.code : EjectPhase → Nat
  | .stopped => 0 | .runToA => 1 | .heldAtA => 2 | .runToB => 3 | .heldAtB => 4

/-- R170's list. -/
def ProfilePhase.code : ProfilePhase → Nat
  | .empty => 0 | .filling => 1 | .complete => 2

/-- R192's kinds: 0 WARM, 1 COLD. -/
def ResetKind.code : ResetKind → Nat
  | .warm => 0 | .cold => 1

/-! ## Items that may be absent (R205) -/

/-- A time, or none. -/
def optTime (t : Option Time) : List Byte := optBytes 4 (t.map timeBytes)

/-- An unsigned number of `k` bytes, or none. -/
def optNat (k : Nat) (n : Option Nat) : List Byte := optBytes k (n.map (natBytes k))

/-- A signed number of `k` bytes, or none. -/
def optInt (k : Nat) (n : Option Int) : List Byte := optBytes k (n.map (intBytes k))

/-- A press, or none. -/
def optPress (p : Option PressNo) : List Byte := optNat 1 (p.map Fin.val)

/-- A last entry: status, value, arrival; or none received. -/
def lastEntryBytes (l : Option LastEntry) : List Byte :=
  optBytes 8 (l.map fun l => natBytes 1 l.status.code ++ intBytes 3 l.value ++ timeBytes l.arrival)

/-! ## LINK (R25, R191, R192) -/

/-- The five counters of a port, in the order of R25's table. -/
def counterBytes (x : PortState) : List Byte :=
  natBytes 2 x.checkErrors ++ natBytes 2 x.formatErrors ++ natBytes 2 x.fwdDrops
    ++ natBytes 2 x.ownDrops ++ natBytes 2 x.foreignRequests

/-- The kind of a pending reset. -/
def ResetPending.kind : ResetPending → Option ResetKind
  | .idle => none
  | .waiting k | .due k => some k

/-- The mode's number in the link block: NORMAL 0, PASSIVE 1, in the order in which R4 names them; no table
of the spec lists them as named values (DEDUCED, log 12). -/
def Mode.code : Mode → Nat
  | .normal _ => 0
  | .passive => 1

namespace State

/-- The link block. -/
def linkStatus (s : State) : List Byte :=
  natBytes 1 s.ownAddress ++ natBytes 1 s.mode.code ++ natBytes 1 s.controller ++ timeBytes s.timebase
    ++ counterBytes s.portU ++ counterBytes s.portD
    ++ natBytes 1 s.portU.fwd.length ++ natBytes 1 s.portU.own.length
    ++ natBytes 1 s.portD.fwd.length ++ natBytes 1 s.portD.own.length
    ++ optNat 1 (s.resetPending.kind.map ResetKind.code)

/-! ## ZONE (R67) and HEAT (R82) -/

/-- The status of one zone. -/
def zoneStatus (c : Zone) : List Byte :=
  natBytes 1 c.state.code ++ natBytes 1 c.active.code ++ optInt 2 c.measured
    ++ intBytes 2 c.setpoint ++ intBytes 2 c.target ++ intBytes 2 c.base ++ flagByte c.overridden
    ++ natBytes 2 c.staged ++ natBytes 2 c.committed ++ intBytes 3 c.integral
    ++ natBytes 1 c.holdCount ++ natBytes 1 c.deviationCount
    ++ lastEntryBytes c.primaryLast ++ lastEntryBytes c.backupLast

/-- The zone block: the zones of a range, with no count byte before them, since the request gives their number
(DEDUCED, log 12). -/
def zonesStatus (s : State) (first count : Nat) : List Byte :=
  (List.range count).flatMap fun i => (s.zones[first + i]?).elim [] zoneStatus

/-- One off command: its output and placed flag. -/
def offBytes (o : OffCommand) : List Byte :=
  natBytes 1 o.node ++ natBytes 1 o.output ++ flagByte o.placed

/-- The off commands that a heat block has bytes for: 248, less 3 of response header, 20 of the window and 2 for
each of 12 zones, at 3 bytes each (R190). -/
def offsPerStatus : Nat := (Config.maxPayload - 47) / 3

/-- The off commands of a zone that its press's heat block shows. Every response fits in one frame (R190), and the
spec bounds no zone's list: of more than the frame holds, those of the lower zones are shown first, and of one zone
the oldest (DESIGN CHOICE, log 26). -/
def shownOffs (s : State) (z : ZoneNo) : List OffCommand :=
  let below := ((zonesOf (pressOf z)).filter (· < z)).flatMap fun z' => (s.zone z').offs
  (s.zone z).offs.take (offsPerStatus - below.length)

/-- The heat block of a press. R82's off commands "or none" are sent as a list, whose count of 0 says none,
with no presence byte before it (DEDUCED, log 12). -/
def heatStatus (s : State) (p : PressNo) : List Byte :=
  let w := s.window p
  flagByte w.running ++ optTime w.start ++ natBytes 2 w.period ++ optTime w.lastEnd
    ++ optTime (if w.running then some (s.windowEndTime p) else none)
    ++ natBytes 1 w.placed ++ natBytes 1 w.lost
    ++ (zonesOf p).flatMap fun z => flagByte (s.zone z).grace ++ listBytes offBytes (s.shownOffs z)

/-! ## CURE (R100) -/

/-- Milliseconds left of a duration in seconds since CURE entry; none unless ACCRUING. -/
def cureRemaining (s : State) (p : PressNo) (seconds : Recipe → Nat) : Option Nat :=
  if (s.cure p).status = .accruing then (s.boundRecipe p).map fun r => seconds r * 1000 - s.cureAge p
  else none

/-- The status of one zone's accrual. -/
def accrualStatus (a : Accrual) : List Byte :=
  natBytes 1 a.inclusion.code ++ natBytes 4 a.accumulator ++ natBytes 2 a.residue
    ++ optTime a.prevArrival

/-- The cure block of a press. -/
def cureStatus (s : State) (p : PressNo) : List Byte :=
  let c := s.cure p
  natBytes 1 c.status.code ++ flagByte c.lost ++ optTime c.entryTime ++ optTime c.endTime
    ++ flagByte c.dwellMet ++ natBytes 4 c.progress
    ++ natBytes 4 ((s.boundRecipe p).elim 0 fun r => r.cureTarget * 1000)
    ++ natBytes 1 c.included ++ natBytes 1 c.excluded
    ++ optInt 2 c.upperMin ++ optInt 2 c.upperMax ++ optInt 2 c.lowerMin ++ optInt 2 c.lowerMax
    ++ optNat 3 (if c.dwellMet then (s.cureRemaining p Recipe.minDwell).map fun _ => 0
        else s.cureRemaining p Recipe.minDwell)
    ++ optNat 3 (s.cureRemaining p Recipe.maxCure)
    ++ (zonesOf p).flatMap fun z => accrualStatus (s.accrual z)

/-! ## SCALE (R122) -/

/-- The verdict with all its fields. Mean, net and trim, to which no range is given, take the 4 bytes that R202 and
R203 give them (DEDUCED, log 12). -/
def verdictStatus (v : Verdict) : List Byte :=
  natBytes 1 v.kind.code ++ optPress v.press ++ intBytes 4 v.mean ++ intBytes 4 v.net
    ++ intBytes 4 v.trim

/-- One entry of a service queue. -/
def queueBytes (q : QueueEntry) : List Byte :=
  natBytes 1 q.press.val ++ natBytes 1 q.attempts ++ timeBytes q.joined

/-- The spread of a window; a free value for a window that holds none (log 14). -/
def spreadShown (s : State) (w : List Int) : Nat :=
  match spreadOf w with
  | some d => d.toNat
  | none => Config.emptySpread s.freeCounter

/-- Milliseconds left to lift timer expiry, while LIFTING. -/
def liftRemaining (s : State) (k : ScaleNo) : Option Nat :=
  if (s.scale k).state = .lifting then
    (s.scale k).liftStart.map fun t => (s.scale k).liftTime - since s.timebase t
  else none

/-- The window's mean, if it is stable. -/
def shownMean (s : State) (k : ScaleNo) : Option Int :=
  if stable (s.scaleEntry k) (s.scale k).window then
    some (meanOf (s.scaleEntry k) (s.scale k).window)
  else none

/-- The scale block. The number of values and the values are one list, the mean and the net two items that may be
absent, and the held A value is R103's item, value and arrival (DEDUCED, log 12). -/
def scaleStatus (s : State) (k : ScaleNo) : List Byte :=
  let c := s.scale k
  natBytes 1 c.state.code ++ intBytes 4 c.tare ++ flagByte c.tareNoted
    ++ listBytes (intBytes 4) c.window ++ flagByte (stable (s.scaleEntry k) c.window)
    ++ natBytes 4 (s.spreadShown c.window) ++ optInt 4 (s.shownMean k)
    ++ optInt 4 ((s.shownMean k).map (s.netOf k))
    ++ optBytes 7 (c.heldA.map fun a => intBytes 3 a.value ++ timeBytes a.arrival)
    ++ natBytes 1 c.agree ++ optBytes 15 (c.verdict.map verdictStatus)
    ++ optNat 2 (s.liftRemaining k) ++ lastEntryBytes c.lastA ++ lastEntryBytes c.lastB
    ++ natBytes 2 c.skipped ++ listBytes queueBytes c.queue

/-- A read of the scale block takes a free value for an empty window, and the next is another. -/
def afterScaleRead (k : ScaleNo) (s : State) : State :=
  if (s.scale k).window = [] then { s with freeCounter := s.freeCounter + 1 } else s

/-! ## PRESS (R144) -/

/-- The fields of R120's charge record, in its order. Net and verdict mean, to which no range is given, take the 4
bytes that R202 gives them (DEDUCED, log 12). -/
def chargeStatus (c : ChargeRecord) : List Byte :=
  natBytes 1 c.scale.val ++ intBytes 4 c.net ++ intBytes 4 c.mean ++ intBytes 4 c.tare
    ++ natBytes 3 c.target ++ natBytes 2 c.tolMinus ++ natBytes 2 c.tolPlus ++ natBytes 1 c.attempts
    ++ timeBytes c.release

/-- The last press status. -/
def reportStatus (r : PressReport) : List Byte :=
  natBytes 1 r.position.code ++ natBytes 2 r.tonnage ++ natBytes 2 r.mould ++ flagByte r.cavityClear
    ++ timeBytes r.arrival

/-- Milliseconds left to close timeout expiry, in CLOSING with close timed out clear. -/
def closeRemaining (s : State) (p : PressNo) : Option Nat :=
  if (s.unit p).state = .closing ∧ (s.unit p).closeTimedOut = false then
    (s.boundRecipe p).bind fun r =>
      (s.unit p).closingEntry.map fun t => r.closeTimeout * 1000 - since s.timebase t
  else none

/-- A press's place in a queue, the head's 0, with its attempts. -/
def placeIn (p : PressNo) : Nat → List QueueEntry → Option (Nat × Nat)
  | _, [] => none
  | i, q :: rest => if q.press = p then some (i, q.attempts) else placeIn p (i + 1) rest

/-- A press's place in the service queue it stands in. -/
def queuePlace (s : State) (p : PressNo) : Option (Nat × Nat) :=
  (placeIn p 0 (s.scale 0).queue).or (placeIn p 0 (s.scale 1).queue)

/-- The press block. The bound recipe and the bound mould are two items that may be absent, each with a
presence byte of its own (DEDUCED, log 12). -/
def pressStatus (s : State) (p : PressNo) : List Byte :=
  let u := s.unit p
  natBytes 1 u.state.code ++ natBytes 1 (runMode u)
    ++ optNat 1 (u.binding.map fun b => b.recipe.val) ++ optNat 2 (u.binding.map Binding.mould)
    ++ natBytes 1 u.bindFault.code ++ optBytes 10 (u.lastStatus.map reportStatus)
    ++ optBytes 25 (u.charge.map chargeStatus) ++ optTime u.closingEntry
    ++ optNat 3 (s.closeRemaining p)
    ++ flagByte u.closeTimedOut ++ flagByte u.aborted ++ flagByte u.mouldChanged
    ++ optNat 4 ((s.openRecord p).map Record.serial)
    ++ optBytes 2 ((s.queuePlace p).map fun x => natBytes 1 x.1 ++ natBytes 1 x.2)

/-! ## EJECT (R156) -/

/-- The ejector timer's reading, in RUN_TO_A and RUN_TO_B. -/
def ejectorReading (s : State) (p : PressNo) : Option Nat :=
  match (s.ejector p).phase with
  | .runToA | .runToB => (s.ejector p).timerStart.map (since s.timebase)
  | .stopped | .heldAtA | .heldAtB => none

/-- The compare point a context is held at. -/
def heldCompare (e : Ejector) : Option Nat :=
  match e.phase with
  | .heldAtA => some e.compareA
  | .heldAtB => some e.compareB
  | .stopped | .runToA | .runToB => none

/-- The ejection block. The timer's reading and the compare point of one bullet of R156 are two items that may be
absent (DEDUCED, log 12). -/
def ejectStatus (s : State) (p : PressNo) : List Byte :=
  let e := s.ejector p
  natBytes 1 e.phase.code ++ flagByte e.setup ++ optNat 1 e.node ++ natBytes 2 e.compareA
    ++ natBytes 2 e.compareB ++ natBytes 2 e.stuckForce ++ optNat 2 (s.ejectorReading p)
    ++ optNat 2 (heldCompare e) ++ optNat 3 e.peak
    ++ optBytes 2 (e.offOwed.map fun o => natBytes 1 o.node ++ flagByte o.placed)
    ++ optBytes 8 (e.lastStatus.map fun r =>
        natBytes 3 r.force ++ natBytes 1 r.position.code ++ timeBytes r.arrival)

/-! ## HISTORY (R177) and REPORT (R188) -/

/-- The record at the read cursor, if any is unread. -/
def cursorRecord (s : State) : Option Record :=
  if s.history.unread = 0 then none else s.history.slots[s.history.readCursor]

/-- One profile buffer. -/
def profileStatus (x : Profile) : List Byte :=
  natBytes 1 x.phase.code ++ optNat 4 x.tag ++ natBytes 1 x.points.length ++ flagByte x.truncated
    ++ flagByte x.locked

/-- The history block. The eight profile buffers stand in ascending press number, buffer 0 before buffer 1
(DEDUCED, log 12). -/
def historyStatus (s : State) : List Byte :=
  let h := s.history
  let cell := s.tables.cell
  natBytes 2 h.stored ++ natBytes 2 h.unread ++ natBytes 2 h.writePos.val ++ natBytes 2 h.readCursor.val
    ++ optNat 4 (s.cursorRecord.map Record.serial) ++ optNat 4 (s.newest.map Record.serial)
    ++ natBytes 4 h.nextSerial ++ flagByte h.exhausted
    ++ natBytes 1 cell.policy.code ++ natBytes 2 cell.highMark ++ natBytes 2 cell.lowMark
    ++ flagByte h.hold
    ++ ((List.finRange 4).flatMap fun p => optNat 4 ((s.openRecord p).map Record.serial))
    ++ (List.finRange 8).flatMap fun i => profileStatus s.profiles[i]

/-- The report block. The export queue's length and its serials are one list, whose count byte is the length
(DEDUCED, log 12). -/
def reportBlock (s : State) : List Byte :=
  flagByte s.tables.exports.enable ++ listBytes (natBytes 4) s.exportQueue
    ++ natBytes 1 s.portU.own.length ++ flagByte s.canMove ++ flagByte s.attention

/-! ## READ_STATUS (R191) and READ_EVENTS (R188) -/

/-- A press's block; RANGE for a press above 3. -/
def perPress (index : Nat) (f : PressNo → List Byte) : Result × List Byte :=
  if h : index < 4 then (.ok, f ⟨index, h⟩) else (.range, [])

/-- A block with the one index 0. -/
def single (index : Nat) (bytes : List Byte) : Result × List Byte :=
  if index = 0 then (.ok, bytes) else (.range, [])

/-- READ_STATUS (R191). -/
def readStatus (s : State) (block : Block) (index count : Nat) : Result × List Byte :=
  match block with
  | .link => single index s.linkStatus
  | .zone =>
    if index ≤ 47 ∧ inRange 1 4 count = true ∧ index + count ≤ 48 then
      (.ok, s.zonesStatus index count)
    else (.range, [])
  | .heat => perPress index s.heatStatus
  | .cure => perPress index s.cureStatus
  | .scale => if h : index < 2 then (.ok, s.scaleStatus ⟨index, h⟩) else (.range, [])
  | .press => perPress index s.pressStatus
  | .eject => perPress index s.ejectStatus
  | .history => single index s.historyStatus
  | .report => single index s.reportBlock

/-- What a READ_STATUS leaves: reading changes nothing of the part; only the model's free counter moves. -/
def afterStatusRead (block : Block) (index : Nat) (s : State) : State :=
  match block with
  | .scale => if h : index < 2 then afterScaleRead ⟨index, h⟩ s else s
  | _ => s

/-- One entry of the event table, as READ_EVENTS returns it. -/
def eventBytes (e : EventEntry) : List Byte :=
  flagByte e.raw ++ flagByte e.enable ++ natBytes 1 e.first ++ optTime e.time ++ natBytes 1 e.count

/-- READ_EVENTS (R188). -/
def readEvents (s : State) : List Byte :=
  flagByte s.attention ++ (List.finRange 25).flatMap fun k => eventBytes s.events[k]

end State

end Sys2Proof.Machine
end

