-- ==== Sys2Proof/Machine/Management.lean ====
section
/-! DEFINITION. The management decoder (R190 to R192): each request served whole, and its one response. -/

namespace Sys2Proof.Machine

/-- What serving a request gives: the state, the result, and the data of an OK response. -/
abbrev Served := State × Result × List Byte

namespace State

/-! ## Requests that name a zone, a press, a scale or a buffer -/

/-- A request on a zone; RANGE above 47. -/
def onZone (z : Nat) (f : ZoneNo → State → Served) (s : State) : Served :=
  if h : z < 48 then f ⟨z, h⟩ s else (s, .range, [])

/-- A request on a press; RANGE above 3. -/
def onPress (p : Nat) (f : PressNo → State → Served) (s : State) : Served :=
  if h : p < 4 then f ⟨p, h⟩ s else (s, .range, [])

/-- A request on a scale; RANGE above 1. -/
def onScale (k : Nat) (f : ScaleNo → State → Served) (s : State) : Served :=
  if h : k < 2 then f ⟨k, h⟩ s else (s, .range, [])

/-- A request on a profile buffer; RANGE for a press above 3 or a buffer above 1 (R174, R175). -/
def onBuffer (p b : Nat) (f : PressNo → Fin 2 → State → Served) (s : State) : Served :=
  if h : p < 4 ∧ b < 2 then f ⟨p, h.1⟩ ⟨b, h.2⟩ s else (s, .range, [])

/-- A request whose OK response carries no data. -/
def plain (x : State × Result) : Served := (x.1, x.2, [])

/-! ## History requests (R167 to R169) -/

/-- READ_HISTORY by serial (R168). -/
def readSerial (s : State) (serial count : Nat) : Result × List Byte :=
  match s.slotOf serial with
  | some i => (.ok, (s.recordsFrom count i).flatMap recordBytes)
  | none => (.range, [])

/-- READ_HISTORY from the read cursor (R168): no record when none is unread. -/
def readCursorRecords (s : State) (count : Nat) : List Byte :=
  if s.history.unread = 0 then []
  else (s.recordsFrom count s.history.readCursor).flatMap recordBytes

/-- READ_HISTORY (R168). -/
def readHistory (s : State) (start : Option Nat) (count : Nat) : Result × List Byte :=
  if inRange 1 2 count = false then (.range, [])
  else
    match start with
    | some serial => s.readSerial serial count
    | none => (.ok, s.readCursorRecords count)

/-- ADVANCE_READ (R169), then the hold state (R165). -/
def advanceRead (count : Nat) (s : State) : Served :=
  if inRange 1 512 count = false then (s, .range, [])
  else
    let r := advanceCursor count s
    (holdAfterAdvance r.2, .ok, natBytes 2 r.1)

/-- SET_SERIAL_BASE (R167). -/
def setSerialBase (v : Nat) (s : State) : Served :=
  if s.anyOpen then (s, .inUse, [])
  else if s.newest.any fun r => decide (v ≤ r.serial) then (s, .range, [])
  else (s.modHistory fun h => { h with nextSerial := v }, .ok, natBytes 4 v)

/-! ## Profile requests (R174, R175) -/

/-- The response of LOCK_PROFILE and UNLOCK_PROFILE: phase, tag and lock as they stand (R174). -/
def lockBytes (x : Profile) : List Byte :=
  natBytes 1 x.phase.code ++ optNat 4 x.tag ++ flagByte x.locked

/-- Set or clear the lock of a buffer, and tell how it stands. -/
def setLock (p : PressNo) (b : Fin 2) (on : Bool) (s : State) : Served :=
  let s1 := s.modProfile p b fun x => { x with locked := on }
  (s1, .ok, lockBytes (s1.profile p b))

/-- LOCK_PROFILE (R174). -/
def lockProfile (p : PressNo) (b : Fin 2) (s : State) : Served :=
  if (s.profile p b).phase = .filling then (s, .busy, []) else setLock p b true s

/-- One point of READ_PROFILE's response (R205). -/
def pointBytes (x : ProfilePoint) : List Byte :=
  natBytes 2 (x.offset % 32768 + if x.temps.isSome then 32768 else 0)
    ++ intBytes 2 (x.temps.elim 0 Prod.fst) ++ intBytes 2 (x.temps.elim 0 Prod.snd)
    ++ natBytes 3 x.progress

/-- READ_PROFILE's response (R175, R205). -/
def profileBytes (x : Profile) (first count : Nat) : List Byte :=
  natBytes 4 (x.tag.getD 0) ++ natBytes 1 (x.phase.code + if x.truncated then 128 else 0)
    ++ natBytes 1 x.points.length ++ ((x.points.drop first).take count).flatMap pointBytes

/-- READ_PROFILE (R175). -/
def readProfile (first count : Nat) (p : PressNo) (b : Fin 2) (s : State) : Served :=
  let x := s.profile p b
  if x.locked = false then (s, .notLocked, [])
  else if inRange 1 24 count = false ∨ x.points.length < first then (s, .range, [])
  else (s, .ok, profileBytes x first count)

/-! ## Event requests (R186, R187) -/

/-- A set that names a kind above 24 (R186, R187). -/
def namesNoKind (kinds : BitVec 32) : Bool := decide (2 ^ 25 ≤ kinds.toNat)

/-- A kind is in a set. -/
def inSet (kinds : BitVec 32) (k : Fin 25) : Bool := kinds.getLsbD k.val

/-- CLEAR_EVENTS (R186). -/
def serveClear (kinds : BitVec 32) (s : State) : Served :=
  if namesNoKind kinds then (s, .range, [])
  else
    let s1 := clearEvents (inSet kinds) s
    (s1, .ok, flagByte s1.attention)

/-- The 25 enable flags (R187). -/
def enableBytes (s : State) : List Byte :=
  (List.finRange 25).flatMap fun k => flagByte s.events[k].enable

/-- SET_EVENT_ENABLE (R187). -/
def serveEnable (kinds : BitVec 32) (s : State) : Served :=
  if namesNoKind kinds then (s, .range, [])
  else
    let s1 := enableEvents (inSet kinds) s
    (s1, .ok, s1.enableBytes ++ flagByte s1.attention)

/-! ## Setpoints (R64) -/

/-- SET_SETPOINT SET: the response carries the target (R64). -/
def serveSetpoint (value : Int) (z : ZoneNo) (s : State) : Served :=
  let s1 := setOverride z value s
  (s1, .ok, intBytes 2 (s1.zone z).target)

/-! ## The catalogue (section 11.2) -/

/-- PRESS_CONTROL RESET (R142): a cut ejection's EJECT_OFF is placed at its step. -/
def pressReset (p : PressNo) (s : State) : State := resetUnit p .pressReset s

/-- Serve a request that is not RESET: its own tests, its effect, and its data. -/
def serveRequest (r : Request) (s : State) : Served :=
  match r with
  | .readTable t start count => (s, s.readTable t start count)
  | .writeTable t start count es => writeTable t start count es s
  | .setSetpoint z v => onZone z (serveSetpoint v) s
  | .clearOverride z => onZone z (fun z s => (clearOverride z s, .ok, [])) s
  | .zoneEnable z => onZone z (fun z s => plain (zoneEnable z s)) s
  | .zoneDisable z => onZone z (fun z s => plain (zoneDisable z s)) s
  | .zoneRestore z => onZone z (fun z s => plain (zoneRestore z s)) s
  | .pressEnable p => onPress p (fun p s => plain (pressEnable p s)) s
  | .pressDisable p => onPress p (fun p s => (pressDisable p s, .ok, [])) s
  | .pressReset p => onPress p (fun p s => (pressReset p s, .ok, [])) s
  | .forceDemould p => onPress p (fun p s => plain (forceDemould p s)) s
  | .setupOn p => onPress p (fun p s => (setSetup p true s, .ok, [])) s
  | .setupOff p => onPress p (fun p s => (setSetup p false s, .ok, [])) s
  | .step p => onPress p (fun p s => plain (ejectStep p s)) s
  | .scaleTare k => onScale k scaleTare s
  | .readStatus b i n => (afterStatusRead b i s, s.readStatus b i n)
  | .readHistory start count => (s, s.readHistory start count)
  | .advanceRead count => advanceRead count s
  | .setSerialBase v => setSerialBase v s
  | .lockProfile p b => onBuffer p b lockProfile s
  | .unlockProfile p b => onBuffer p b (setLock · · false) s
  | .readProfile p b first count => onBuffer p b (readProfile first count) s
  | .readEvents => (s, .ok, s.readEvents)
  | .clearEvents kinds => serveClear kinds s
  | .setEventEnable kinds => serveEnable kinds s
  | .reset _ => (s, .ok, [])

/-! ## The response (R190, R201) -/

/-- A MGMT_RESP payload: code and tag as received, 0 for a byte that is absent, then the result, and the
data when OK (R190, R201). -/
def responseBytes (request : List Byte) (result : Result) (data : List Byte) : List Byte :=
  [(request[0]?).getD 0#8, (request[1]?).getD 0#8] ++ natBytes 1 result.code
    ++ if result = .ok then data else []

/-- The one response, to the request's source (R13, R190). -/
def respond (f : RxFrame) (result : Result) (data : List Byte) (mark : Mark) (s : State) : State :=
  originate .U f.src .mgmtResp (responseBytes f.payload result data) mark s

/-- Serve a request and answer it. -/
def answer (f : RxFrame) (r : Request) (s : State) : State :=
  let x := serveRequest r s
  respond f x.2.1 x.2.2 .plain x.1

/-- RESET (R192): the reset is pending while its response waits; a response that finds Port U OWN full is
dropped, and the reset's moment is reached at once. -/
def serveReset (kind : ResetKind) (f : RxFrame) (s : State) : State :=
  if s.portU.own.length < Config.ownPlaces then
    respond f .ok [] .resetResponse { s with resetPending := .waiting kind }
  else { respond f .ok [] .plain s with resetPending := .due kind }

/-- A MGMT_REQ from the controller to the own address, with no reset pending (R190). -/
def serve (f : RxFrame) (s : State) : State :=
  match decodeRequest f.payload with
  | none => respond f .badRequest [] .plain s
  | some (.reset kind) => serveReset kind f s
  | some r => answer f r s

end State

end Sys2Proof.Machine
end

