-- ==== Sys2Proof/Machine/Reception.lean ====
section
/-! DEFINITION. Received frames (R5 to R9, R13 to R19): the frame check, the classification on each port,
delivery to the blocks, the gate, and forwarding. -/

namespace Sys2Proof.Machine

/-- The press a node's unit names; a stored PRESS or EJECTOR entry holds 0..3 (R11). -/
def pressNo (unit : Nat) : PressNo := ⟨unit % 4, by omega⟩

/-- The scale a node's unit names; a stored SCALE entry holds 0..1 (R11). -/
def scaleNo (unit : Nat) : ScaleNo := ⟨unit % 2, by omega⟩

namespace State

/-! ## Errors (R7, R9, R15) -/

/-- A frame that fails the receive check (R7). A PASSIVE part (R5) and a COLD shutdown (R194) count and
raise nothing. -/
def checkFailed (p : Port) (s : State) : State :=
  if s.live then raiseNow .linkCheck (.port p) (countCheck p s) else s

/-- A frame that is not well formed (R9, R15). -/
def formatError (p : Port) (s : State) : State := raiseNow .linkCheck (.port p) (countFormat p s)

/-! ## Port U (section 1.5) -/

/-- A frame addressed to the own address (R13); while a reset is pending a request that would be served is
dropped (R192). -/
def takeOwn (f : RxFrame) (s : State) : State :=
  if f.kind = FrameKind.mgmtReq.code then
    if f.src = s.controller then
      if s.resetPending = .idle then serve f s else s
    else countForeign .U s
  else s

/-- A broadcast CLOSE or OPEN is dropped and refused (R14). -/
def refuseBroadcast (code src : Nat) (k : EventKind) (s : State) : State :=
  refuse 255 code src .broadcast k .nothing s

/-- The presses that have a PRESS node (R14). -/
def pressesWithNode (s : State) : List PressNo :=
  (List.finRange 4).filter fun p => (s.nodeOf .press p.val).isSome

/-- A broadcast OPEN_EMERGENCY is forwarded once, and taken by each press unit that has a node (R14). -/
def broadcastEmergency (bytes : List Byte) (s : State) : State :=
  each gateEmergency s.pressesWithNode (forwardTo .D bytes s)

/-- A broadcast COMMAND (R14). -/
def broadcastCommand (f : RxFrame) (s : State) : State :=
  match pressCommandOf f.payload with
  | some .close => refuseBroadcast closeCode f.src .closeRefused s
  | some .openPlain => refuseBroadcast openCode f.src .openRefused s
  | some .openEmergency => broadcastEmergency f.bytes s
  | some (.service _) | none => forwardTo .D f.bytes s

/-- A HEAT frame that would meet heaters the part drives is dropped with HEATER_CONFLICT (R14, R16). -/
def heatUnless (conflict : Bool) (node : Nat) (bytes : List Byte) (s : State) : State :=
  if conflict then raiseNow .heaterConflict (.node node) s else forwardTo .D bytes s

/-- A frame addressed to 63 (R14). -/
def takeBroadcast (f : RxFrame) (s : State) : State :=
  if f.kind = FrameKind.command.code then broadcastCommand f s
  else if f.kind = FrameKind.heat.code then heatUnless s.anyEnabled Config.broadcast f.bytes s
  else forwardTo .D f.bytes s

/-- An enabled zone has its heater output on a node (R16). -/
def heaterInUse (s : State) (a : Nat) : Bool :=
  (List.finRange 48).any fun z =>
    s.enabled z && (s.zoneEntry z).heater.any fun h => h.node == a

/-- LIF carries out the gate's answer: a passed frame joins Port D FWD (R15). -/
def passOn (bytes : List Byte) (x : State × Bool) : State :=
  if x.2 then forwardTo .D bytes x.1 else x.1

/-- A COMMAND addressed to a press node (R15). -/
def commandToPress (p : PressNo) (f : RxFrame) (s : State) : State :=
  match pressCommandOf f.payload with
  | none => formatError .U s
  | some .close => passOn f.bytes (gateClose p f.src s)
  | some .openPlain => passOn f.bytes (gateOpen p f.src s)
  | some .openEmergency => forwardTo .D f.bytes (gateEmergency p s)
  | some (.service _) => forwardTo .D f.bytes s

/-- Classification on Port U (section 1.5). -/
def takeUp (f : RxFrame) (s : State) : State :=
  if f.dst = s.ownAddress then takeOwn f s
  else if f.dst = Config.broadcast then takeBroadcast f s
  else if (s.node f.dst).role = .press ∧ f.kind = FrameKind.command.code then
    commandToPress (pressNo (s.node f.dst).unit) f s
  else if (s.node f.dst).role = .heater ∧ f.kind = FrameKind.heat.code then
    heatUnless (s.heaterInUse f.dst) f.dst f.bytes s
  else forwardTo .D f.bytes s

/-! ## Port D (section 1.6) -/

/-- Deliver what the payload gives, or count a format error (R9). -/
def deliver {α : Type} (x : Option α) (f : α → State → State) (s : State) : State :=
  match x with
  | some a => f a s
  | none => formatError .D s

/-- A frame of a served-role node is consumed: delivered if it is of the role's kind, else not used
(R18). -/
def consume (n : NodeEntry) (f : RxFrame) (s : State) : State :=
  let t := s.timebase
  match n.role with
  | .thermo =>
    doIf (f.kind == FrameKind.sample.code)
      (deliver (sampleOf f.payload) fun es => takeThermo f.src es t) s
  | .scale =>
    doIf (f.kind == FrameKind.sample.code)
      (deliver (sampleOf f.payload) fun es => takeScale (scaleNo n.unit) f.src es t) s
  | .press =>
    doIf (f.kind == FrameKind.status.code)
      (deliver (pressReportOf f.payload t) (takePress (pressNo n.unit))) s
  | .ejector =>
    doIf (f.kind == FrameKind.status.code)
      (deliver (ejectorReportOf f.payload t) (takeEjector (pressNo n.unit))) s
  | .heater | .none => s

/-- A MGMT_REQ from the field side (R19). -/
def fieldRequest (f : RxFrame) (s : State) : State :=
  forwardTo .U f.bytes (doIf (decide (f.dst = s.ownAddress)) (countForeign .D) s)

/-- Classification on Port D (section 1.6): delivery, then forwarding upward (log 9). -/
def takeDown (f : RxFrame) (s : State) : State :=
  let n := s.node f.src
  if f.kind = FrameKind.mgmtReq.code then fieldRequest f s
  else if n.role = .none then forwardTo .U f.bytes s
  else doIf n.forwardUp (forwardTo .U f.bytes) (consume n f s)

/-! ## The end of a frame (R6) -/

/-- An accepted frame: the LINK pin (R26), then classification; a PASSIVE part (R5) and a COLD shutdown
(R194) forward it whatever it is. -/
def accepted (p : Port) (f : RxFrame) (s : State) : State :=
  let s1 := linkActivity s
  if s1.live then
    match p with
    | .U => takeUp f s1
    | .D => takeDown f s1
  else forwardTo p.other f.bytes s1

/-- A receiver reaches the end of a frame (R6): the check, then R7 or the rest. -/
def receive (p : Port) (bytes : List Byte) (s : State) : State :=
  match parseFrame bytes with
  | some f => accepted p f s
  | none => checkFailed p s

end State

end Sys2Proof.Machine
end

