-- ==== Sys2Proof/Machine/Commands.lean ====
section
/-! DEFINITION. The meaning of each command, one definition per row of spec/opcode_table.json.

A row that is a received frame gives the receiver its bytes: the part decides by them (log 1). A row that
is an expiry or another event of the part has its effect when it is due, and else changes nothing (log 2). -/

namespace Sys2Proof.Machine

open State

/-! ## Pins, clock and transmitters -/

/-- POWER_ON_RESET (R196): RESET_N is released, whatever state the part was in. -/
def execPowerOnReset (s : State) : Host.Outcome State Fault Refusal := .next (powerOn s)

/-- RESET_N_ASSERT (R196). -/
def execResetNAssert (s : State) : Host.Outcome State Fault Refusal := .next (holdReset s)

/-- One more millisecond (R8): the 32-bit timebase goes from 4294967295 to 0. -/
def tick (s : State) : State := { s with timebase := s.timebase + 1 }

/-- TIMEBASE_TICK (R8). -/
def execTimebaseTick (s : State) : Host.Outcome State Fault Refusal := running tick s

/-- STRAP_CHANGE (R4): the level is sampled at power-on and COLD reset alone. While RESET_N is low it
changes too. -/
def execStrapChange (strap : BitVec 6) (s : State) : Host.Outcome State Fault Refusal :=
  .next { (if s.resetHeld then s else s.takeDueReset) with strap := strap }

/-- What the start of a transmission sets going: on Port D waiting off frames take the freed place (R79,
R153), on Port U the export queue's head is tested (R181). -/
def afterStart : Port → State → State
  | .D, s => placeOwed s
  | .U, s => exportMoves s

/-- The arbiter of a port starts a transmission if it is idle and a queue holds a frame (R22). -/
def startTransmission (p : Port) (s : State) : State :=
  if (s.port p).sending = none ∧ ((s.port p).own ≠ [] ∨ (s.port p).fwd ≠ []) then
    afterStart p (takeFrame p s)
  else s

/-- TRANSMIT_START (R22, R23). -/
def execTransmitStart (p : Port) (s : State) : Host.Outcome State Fault Refusal :=
  running (startTransmission p) s

/-- The end of the response to a RESET request: the reset's moment is reached (R192). -/
def responseSent (s : State) : State :=
  match s.resetPending with
  | .waiting kind => { s with resetPending := .due kind }
  | .idle | .due _ => s

/-- The transmission of a port ends (R22), with the LINK pin (R26). -/
def endTransmission (p : Port) (s : State) : State :=
  match (s.port p).sending with
  | none => s
  | some f =>
    doIf (f.mark == .resetResponse) responseSent
      (linkActivity (s.modPort p fun x => { x with sending := none }))

/-- TRANSMIT_END (R22, R26, R192). -/
def execTransmitEnd (p : Port) (s : State) : Host.Outcome State Fault Refusal :=
  running (endTransmission p) s

/-- The LINK pin's 50 ms are over (R26). -/
def linkDue (s : State) : Bool :=
  s.linkPin && s.linkStart.any fun t => decide (Config.linkPeriod ≤ since s.timebase t)

/-- LINK_PIN_EXPIRY (R26). -/
def execLinkPinExpiry (s : State) : Host.Outcome State Fault Refusal :=
  running (fun s => if linkDue s then { s with linkPin := false, linkStart := none } else s) s

/-! ## Timer expiries -/

/-- WINDOW_END (R69, R70). -/
def execWindowEnd (p : PressNo) (s : State) : Host.Outcome State Fault Refusal :=
  running (fun s => doIf (s.windowDue p) (windowEnds p) s) s

/-- DWELL_EXPIRY (R93). -/
def execDwellExpiry (p : PressNo) (s : State) : Host.Outcome State Fault Refusal :=
  running (fun s => doIf (s.dwellDue p) (dwellExpires p) s) s

/-- MAX_CURE_EXPIRY (R95). -/
def execMaxCureExpiry (p : PressNo) (s : State) : Host.Outcome State Fault Refusal :=
  running (fun s => doIf (s.maxCureDue p) (maxCureExpires p) s) s

/-- LIFT_TIMER_EXPIRY (R116). -/
def execLiftTimerExpiry (k : ScaleNo) (s : State) : Host.Outcome State Fault Refusal :=
  running (fun s => doIf (s.liftDue k) (liftExpires k) s) s

/-- CLOSE_TIMER_EXPIRY (R135). -/
def execCloseTimerExpiry (p : PressNo) (s : State) : Host.Outcome State Fault Refusal :=
  running (fun s => doIf (s.closeTimerDue p) (closeTimerExpires p) s) s

/-- COMPARE_A (R147). -/
def execCompareA (p : PressNo) (s : State) : Host.Outcome State Fault Refusal :=
  running (fun s => doIf (s.compareADue p) (reachA p) s) s

/-- COMPARE_B (R148). -/
def execCompareB (p : PressNo) (s : State) : Host.Outcome State Fault Refusal :=
  running (fun s => doIf (s.compareBDue p) (reachB p) s) s

/-! ## Moves and placements -/

/-- EXPORT_MOVE (R181). -/
def execExportMove (s : State) : Host.Outcome State Fault Refusal := running exportMoves s

/-- EJECT_OFF_PLACE (R153). -/
def execEjectOffPlace (s : State) : Host.Outcome State Fault Refusal := running placeEjectOffs s

/-- OFF_COMMAND_PLACE (R79): ejector frames take free places first (R153). -/
def execOffCommandPlace (s : State) : Host.Outcome State Fault Refusal := running placeOwed s

/-! ## Resets. The effect is that of the reset whose moment has been reached; `running` brings it about. -/

/-- WARM_RESET_EFFECT (R193). -/
def execWarmResetEffect (s : State) : Host.Outcome State Fault Refusal := running id s

/-- COLD_SHUTDOWN_START (R194). -/
def execColdShutdownStart (s : State) : Host.Outcome State Fault Refusal := running id s

/-- COLD_RESET_EFFECT (R195). -/
def execColdResetEffect (s : State) : Host.Outcome State Fault Refusal := running id s

/-! ## Received frames -/

/-- CHECK_FAILED_FRAME (R7). -/
def execCheckFailedFrame (p : Port) (bytes : List Byte) (s : State) : Host.Outcome State Fault Refusal :=
  running (receive p bytes) s

/-- PASSIVE_FORWARD (R5). -/
def execPassiveForward (p : Port) (bytes : List Byte) (s : State) : Host.Outcome State Fault Refusal :=
  running (receive p bytes) s

/-- FORWARD_FRAME (R17). -/
def execForwardFrame (p : Port) (bytes : List Byte) (s : State) : Host.Outcome State Fault Refusal :=
  running (receive p bytes) s

/-- DISCARD_OWN_ADDRESS_FRAME (R13): a frame ends on Port U. -/
def execDiscardOwnAddressFrame (bytes : List Byte) (s : State) : Host.Outcome State Fault Refusal :=
  running (receive .U bytes) s

/-- FOREIGN_MGMT_REQ (R13): a frame ends on Port U. -/
def execForeignMgmtReq (bytes : List Byte) (s : State) : Host.Outcome State Fault Refusal :=
  running (receive .U bytes) s

/-- FIELD_MGMT_REQ (R19): a frame ends on Port D. -/
def execFieldMgmtReq (bytes : List Byte) (s : State) : Host.Outcome State Fault Refusal :=
  running (receive .D bytes) s

/-- MGMT_REQ_DROPPED_PENDING (R192): a frame ends on Port U. -/
def execMgmtReqDroppedPending (bytes : List Byte) (s : State) : Host.Outcome State Fault Refusal :=
  running (receive .U bytes) s

/-- MGMT_BAD_REQUEST (R190): a frame ends on Port U. -/
def execMgmtBadRequest (bytes : List Byte) (s : State) : Host.Outcome State Fault Refusal :=
  running (receive .U bytes) s

/-- THERMO_SAMPLE (R51): a frame ends on Port D. -/
def execThermoSample (bytes : List Byte) (s : State) : Host.Outcome State Fault Refusal :=
  running (receive .D bytes) s

/-- SCALE_SAMPLE (R104): a frame ends on Port D. -/
def execScaleSample (bytes : List Byte) (s : State) : Host.Outcome State Fault Refusal :=
  running (receive .D bytes) s

/-- PRESS_STATUS (R126): a frame ends on Port D. -/
def execPressStatus (bytes : List Byte) (s : State) : Host.Outcome State Fault Refusal :=
  running (receive .D bytes) s

/-- EJECTOR_STATUS (R151): a frame ends on Port D. -/
def execEjectorStatus (bytes : List Byte) (s : State) : Host.Outcome State Fault Refusal :=
  running (receive .D bytes) s

/-- CLOSE (R131): a frame ends on Port U. -/
def execCloseCommand (bytes : List Byte) (s : State) : Host.Outcome State Fault Refusal :=
  running (receive .U bytes) s

/-- OPEN (R137): a frame ends on Port U. -/
def execOpenCommand (bytes : List Byte) (s : State) : Host.Outcome State Fault Refusal :=
  running (receive .U bytes) s

/-- OPEN_EMERGENCY (R138): a frame ends on Port U. -/
def execOpenEmergency (bytes : List Byte) (s : State) : Host.Outcome State Fault Refusal :=
  running (receive .U bytes) s

/-- SERVICE_COMMAND (R15): a frame ends on Port U. -/
def execServiceCommand (bytes : List Byte) (s : State) : Host.Outcome State Fault Refusal :=
  running (receive .U bytes) s

/-- BROADCAST_CLOSE_OPEN (R14): a frame ends on Port U. -/
def execBroadcastCloseOpen (bytes : List Byte) (s : State) : Host.Outcome State Fault Refusal :=
  running (receive .U bytes) s

/-- BROADCAST_OPEN_EMERGENCY (R14): a frame ends on Port U. -/
def execBroadcastOpenEmergency (bytes : List Byte) (s : State) : Host.Outcome State Fault Refusal :=
  running (receive .U bytes) s

/-- BROADCAST_HEAT (R14): a frame ends on Port U. -/
def execBroadcastHeat (bytes : List Byte) (s : State) : Host.Outcome State Fault Refusal :=
  running (receive .U bytes) s

/-- HEAT (R16): a frame ends on Port U. -/
def execHeat (bytes : List Byte) (s : State) : Host.Outcome State Fault Refusal :=
  running (receive .U bytes) s

/-- READ_TABLE (R30): a frame ends on Port U. -/
def execReadTable (bytes : List Byte) (s : State) : Host.Outcome State Fault Refusal :=
  running (receive .U bytes) s

/-- WRITE_TABLE (R28): a frame ends on Port U. -/
def execWriteTable (bytes : List Byte) (s : State) : Host.Outcome State Fault Refusal :=
  running (receive .U bytes) s

/-- SET_SETPOINT_SET (R64): a frame ends on Port U. -/
def execSetSetpointSet (bytes : List Byte) (s : State) : Host.Outcome State Fault Refusal :=
  running (receive .U bytes) s

/-- SET_SETPOINT_CLEAR_OVERRIDE (R64): a frame ends on Port U. -/
def execSetSetpointClearOverride (bytes : List Byte) (s : State) : Host.Outcome State Fault Refusal :=
  running (receive .U bytes) s

/-- ZONE_CONTROL_ENABLE (R49): a frame ends on Port U. -/
def execZoneControlEnable (bytes : List Byte) (s : State) : Host.Outcome State Fault Refusal :=
  running (receive .U bytes) s

/-- ZONE_CONTROL_DISABLE (R50): a frame ends on Port U. -/
def execZoneControlDisable (bytes : List Byte) (s : State) : Host.Outcome State Fault Refusal :=
  running (receive .U bytes) s

/-- ZONE_CONTROL_RESTORE_PRIMARY (R56): a frame ends on Port U. -/
def execZoneControlRestorePrimary (bytes : List Byte) (s : State) : Host.Outcome State Fault Refusal :=
  running (receive .U bytes) s

/-- PRESS_CONTROL_ENABLE (R124): a frame ends on Port U. -/
def execPressControlEnable (bytes : List Byte) (s : State) : Host.Outcome State Fault Refusal :=
  running (receive .U bytes) s

/-- PRESS_CONTROL_DISABLE (R125): a frame ends on Port U. -/
def execPressControlDisable (bytes : List Byte) (s : State) : Host.Outcome State Fault Refusal :=
  running (receive .U bytes) s

/-- PRESS_CONTROL_RESET (R142): a frame ends on Port U. -/
def execPressControlReset (bytes : List Byte) (s : State) : Host.Outcome State Fault Refusal :=
  running (receive .U bytes) s

/-- PRESS_CONTROL_FORCE_DEMOULD (R136): a frame ends on Port U. -/
def execPressControlForceDemould (bytes : List Byte) (s : State) : Host.Outcome State Fault Refusal :=
  running (receive .U bytes) s

/-- PRESS_CONTROL_SETUP_ON (R149): a frame ends on Port U. -/
def execPressControlSetupOn (bytes : List Byte) (s : State) : Host.Outcome State Fault Refusal :=
  running (receive .U bytes) s

/-- PRESS_CONTROL_SETUP_OFF (R149): a frame ends on Port U. -/
def execPressControlSetupOff (bytes : List Byte) (s : State) : Host.Outcome State Fault Refusal :=
  running (receive .U bytes) s

/-- PRESS_CONTROL_STEP (R150): a frame ends on Port U. -/
def execPressControlStep (bytes : List Byte) (s : State) : Host.Outcome State Fault Refusal :=
  running (receive .U bytes) s

/-- SCALE_CONTROL_TARE (R110): a frame ends on Port U. -/
def execScaleControlTare (bytes : List Byte) (s : State) : Host.Outcome State Fault Refusal :=
  running (receive .U bytes) s

/-- READ_STATUS (R191): a frame ends on Port U. -/
def execReadStatus (bytes : List Byte) (s : State) : Host.Outcome State Fault Refusal :=
  running (receive .U bytes) s

/-- READ_HISTORY (R168): a frame ends on Port U. -/
def execReadHistory (bytes : List Byte) (s : State) : Host.Outcome State Fault Refusal :=
  running (receive .U bytes) s

/-- ADVANCE_READ (R169): a frame ends on Port U. -/
def execAdvanceRead (bytes : List Byte) (s : State) : Host.Outcome State Fault Refusal :=
  running (receive .U bytes) s

/-- SET_SERIAL_BASE (R167): a frame ends on Port U. -/
def execSetSerialBase (bytes : List Byte) (s : State) : Host.Outcome State Fault Refusal :=
  running (receive .U bytes) s

/-- LOCK_PROFILE (R174): a frame ends on Port U. -/
def execLockProfile (bytes : List Byte) (s : State) : Host.Outcome State Fault Refusal :=
  running (receive .U bytes) s

/-- UNLOCK_PROFILE (R174): a frame ends on Port U. -/
def execUnlockProfile (bytes : List Byte) (s : State) : Host.Outcome State Fault Refusal :=
  running (receive .U bytes) s

/-- READ_PROFILE (R175): a frame ends on Port U. -/
def execReadProfile (bytes : List Byte) (s : State) : Host.Outcome State Fault Refusal :=
  running (receive .U bytes) s

/-- READ_EVENTS (R188): a frame ends on Port U. -/
def execReadEvents (bytes : List Byte) (s : State) : Host.Outcome State Fault Refusal :=
  running (receive .U bytes) s

/-- CLEAR_EVENTS (R186): a frame ends on Port U. -/
def execClearEvents (bytes : List Byte) (s : State) : Host.Outcome State Fault Refusal :=
  running (receive .U bytes) s

/-- SET_EVENT_ENABLE (R187): a frame ends on Port U. -/
def execSetEventEnable (bytes : List Byte) (s : State) : Host.Outcome State Fault Refusal :=
  running (receive .U bytes) s

/-- RESET_WARM (R192): a frame ends on Port U. -/
def execResetWarm (bytes : List Byte) (s : State) : Host.Outcome State Fault Refusal :=
  running (receive .U bytes) s

/-- RESET_COLD (R192): a frame ends on Port U. -/
def execResetCold (bytes : List Byte) (s : State) : Host.Outcome State Fault Refusal :=
  running (receive .U bytes) s

/-- COMMAND_NOT_WELL_FORMED (R15): a frame ends on Port U. -/
def execCommandNotWellFormed (bytes : List Byte) (s : State) : Host.Outcome State Fault Refusal :=
  running (receive .U bytes) s

end Sys2Proof.Machine
end

