-- ==== Sys2Proof/Machine/Dispatch.lean ====
section
/-! DEFINITION. Every command and its meaning. -/

namespace Sys2Proof.Machine

def exec (i : Instr) (s : State) : Host.Outcome State Fault Refusal :=
  match i with
  | .powerOnReset => Sys2Proof.Machine.execPowerOnReset s
  | .resetNAssert => Sys2Proof.Machine.execResetNAssert s
  | .timebaseTick => Sys2Proof.Machine.execTimebaseTick s
  | .checkFailedFrame port bytes => Sys2Proof.Machine.execCheckFailedFrame port bytes s
  | .passiveForward port bytes => Sys2Proof.Machine.execPassiveForward port bytes s
  | .forwardFrame port bytes => Sys2Proof.Machine.execForwardFrame port bytes s
  | .discardOwnAddressFrame bytes => Sys2Proof.Machine.execDiscardOwnAddressFrame bytes s
  | .foreignMgmtReq bytes => Sys2Proof.Machine.execForeignMgmtReq bytes s
  | .fieldMgmtReq bytes => Sys2Proof.Machine.execFieldMgmtReq bytes s
  | .mgmtReqDroppedPending bytes => Sys2Proof.Machine.execMgmtReqDroppedPending bytes s
  | .mgmtBadRequest bytes => Sys2Proof.Machine.execMgmtBadRequest bytes s
  | .transmitStart port => Sys2Proof.Machine.execTransmitStart port s
  | .transmitEnd port => Sys2Proof.Machine.execTransmitEnd port s
  | .linkPinExpiry => Sys2Proof.Machine.execLinkPinExpiry s
  | .thermoSample bytes => Sys2Proof.Machine.execThermoSample bytes s
  | .windowEnd press => Sys2Proof.Machine.execWindowEnd press s
  | .dwellExpiry press => Sys2Proof.Machine.execDwellExpiry press s
  | .maxCureExpiry press => Sys2Proof.Machine.execMaxCureExpiry press s
  | .scaleSample bytes => Sys2Proof.Machine.execScaleSample bytes s
  | .liftTimerExpiry scale => Sys2Proof.Machine.execLiftTimerExpiry scale s
  | .pressStatus bytes => Sys2Proof.Machine.execPressStatus bytes s
  | .exportMove => Sys2Proof.Machine.execExportMove s
  | .ejectorStatus bytes => Sys2Proof.Machine.execEjectorStatus bytes s
  | .compareA press => Sys2Proof.Machine.execCompareA press s
  | .compareB press => Sys2Proof.Machine.execCompareB press s
  | .ejectOffPlace => Sys2Proof.Machine.execEjectOffPlace s
  | .offCommandPlace => Sys2Proof.Machine.execOffCommandPlace s
  | .closeCommand bytes => Sys2Proof.Machine.execCloseCommand bytes s
  | .openCommand bytes => Sys2Proof.Machine.execOpenCommand bytes s
  | .openEmergency bytes => Sys2Proof.Machine.execOpenEmergency bytes s
  | .serviceCommand bytes => Sys2Proof.Machine.execServiceCommand bytes s
  | .broadcastCloseOpen bytes => Sys2Proof.Machine.execBroadcastCloseOpen bytes s
  | .broadcastOpenEmergency bytes => Sys2Proof.Machine.execBroadcastOpenEmergency bytes s
  | .broadcastHeat bytes => Sys2Proof.Machine.execBroadcastHeat bytes s
  | .heat bytes => Sys2Proof.Machine.execHeat bytes s
  | .closeTimerExpiry press => Sys2Proof.Machine.execCloseTimerExpiry press s
  | .readTable bytes => Sys2Proof.Machine.execReadTable bytes s
  | .writeTable bytes => Sys2Proof.Machine.execWriteTable bytes s
  | .setSetpointSet bytes => Sys2Proof.Machine.execSetSetpointSet bytes s
  | .setSetpointClearOverride bytes => Sys2Proof.Machine.execSetSetpointClearOverride bytes s
  | .zoneControlEnable bytes => Sys2Proof.Machine.execZoneControlEnable bytes s
  | .zoneControlDisable bytes => Sys2Proof.Machine.execZoneControlDisable bytes s
  | .zoneControlRestorePrimary bytes => Sys2Proof.Machine.execZoneControlRestorePrimary bytes s
  | .pressControlEnable bytes => Sys2Proof.Machine.execPressControlEnable bytes s
  | .pressControlDisable bytes => Sys2Proof.Machine.execPressControlDisable bytes s
  | .pressControlReset bytes => Sys2Proof.Machine.execPressControlReset bytes s
  | .pressControlForceDemould bytes => Sys2Proof.Machine.execPressControlForceDemould bytes s
  | .pressControlSetupOn bytes => Sys2Proof.Machine.execPressControlSetupOn bytes s
  | .pressControlSetupOff bytes => Sys2Proof.Machine.execPressControlSetupOff bytes s
  | .pressControlStep bytes => Sys2Proof.Machine.execPressControlStep bytes s
  | .scaleControlTare bytes => Sys2Proof.Machine.execScaleControlTare bytes s
  | .readStatus bytes => Sys2Proof.Machine.execReadStatus bytes s
  | .readHistory bytes => Sys2Proof.Machine.execReadHistory bytes s
  | .advanceRead bytes => Sys2Proof.Machine.execAdvanceRead bytes s
  | .setSerialBase bytes => Sys2Proof.Machine.execSetSerialBase bytes s
  | .lockProfile bytes => Sys2Proof.Machine.execLockProfile bytes s
  | .unlockProfile bytes => Sys2Proof.Machine.execUnlockProfile bytes s
  | .readProfile bytes => Sys2Proof.Machine.execReadProfile bytes s
  | .readEvents bytes => Sys2Proof.Machine.execReadEvents bytes s
  | .clearEvents bytes => Sys2Proof.Machine.execClearEvents bytes s
  | .setEventEnable bytes => Sys2Proof.Machine.execSetEventEnable bytes s
  | .resetWarm bytes => Sys2Proof.Machine.execResetWarm bytes s
  | .resetCold bytes => Sys2Proof.Machine.execResetCold bytes s
  | .warmResetEffect => Sys2Proof.Machine.execWarmResetEffect s
  | .coldShutdownStart => Sys2Proof.Machine.execColdShutdownStart s
  | .coldResetEffect => Sys2Proof.Machine.execColdResetEffect s
  | .commandNotWellFormed bytes => Sys2Proof.Machine.execCommandNotWellFormed bytes s
  | .strapChange strap => Sys2Proof.Machine.execStrapChange strap s

end Sys2Proof.Machine
end

