-- ==== Sys2Proof/Safety.lean ====
section
/-! DEFINITION. What must hold in every state that a run reaches: the laws of the spec as invariants. -/

namespace Sys2Proof.Machine

/-! ## Capacities (R20, R21, R25, R89, R173, R180) -/

/-- A port's queues hold no more than their places, and its counters stay within 16 bits. -/
def PortState.bounded (x : PortState) : Prop :=
  x.fwd.length ≤ Config.fwdPlaces ∧ x.own.length ≤ Config.ownPlaces
    ∧ x.checkErrors ≤ Config.max16 ∧ x.formatErrors ≤ Config.max16 ∧ x.fwdDrops ≤ Config.max16
    ∧ x.ownDrops ≤ Config.max16 ∧ x.foreignRequests ≤ Config.max16

/-- An accumulator fits 32 bits and a residue stays below 1024 (R89). -/
def Accrual.bounded (a : Accrual) : Prop := a.accumulator ≤ Config.max32 ∧ a.residue < 1024

/-- Every queue, counter, accumulator and profile buffer is within its range. -/
def State.Bounded (s : State) : Prop :=
  s.portU.bounded ∧ s.portD.bounded ∧ s.exportQueue.length ≤ Config.exportPlaces
    ∧ (∀ z : ZoneNo, s.accruals[z].bounded)
    ∧ (∀ i : Fin 8, s.profiles[i].points.length ≤ Config.profilePlaces)
    ∧ (∀ k : Fin 25, s.events[k].count ≤ 255)

/-! ## Attention (R183, R185, R196) -/

/-- Attention is on exactly while some kind is pending; ATTN follows it while the part runs, and is off
while RESET_N is low. The warm-taking flag is the model's own and clear between steps (log 11). -/
def State.AttentionLaw (s : State) : Prop :=
  s.attention = s.anyPending ∧ s.attnPin = (s.attention && !s.resetHeld) ∧ s.warmTaking = false

/-! ## Duties and windows (R68, R74) -/

/-- States in which a zone's committed duty is 0 (R74). -/
def ZoneState.driven : ZoneState → Bool
  | .regulating | .holding => true
  | .disabled | .overtemp | .lost => false

/-- R74's law: a committed duty lies in 0..max duty, and is 0 in DISABLED, OVERTEMP and LOST. -/
def State.DutyLaw (s : State) : Prop :=
  ∀ z : ZoneNo, (s.zone z).staged ≤ (s.zoneEntry z).maxDuty
    ∧ (s.zone z).committed ≤ (s.zoneEntry z).maxDuty
    ∧ ((s.zone z).state.driven = false → (s.zone z).committed = 0)

/-- R68: a press's window timer runs exactly while a zone of the press is enabled; it then has a start,
and else none. -/
def State.WindowLaw (s : State) : Prop :=
  ∀ p : PressNo, (s.window p).running = !(s.enabledZones p).isEmpty
    ∧ (s.window p).start.isSome = (s.window p).running

/-! ## The ring (R162, R164) -/

/-- The ring's counts agree with its slots: the first `stored` slots hold records, the unread ones end at
the write position, and no count passes 512. -/
def State.RingLaw (s : State) : Prop :=
  s.history.unread ≤ s.history.stored ∧ s.history.stored ≤ 512
    ∧ (∀ i : Fin 512, s.history.slots[i].isSome = decide (i.val < s.history.stored))
    ∧ (s.history.stored < 512 → s.history.writePos.val = s.history.stored)
    ∧ (s.history.readCursor.val + s.history.unread) % 512 = s.history.writePos.val

/-! ## The press cycle (R83, R117, R123, R140, R145) -/

/-- States in which a unit holds a charge record (R123). -/
def UnitState.holdsCharge : UnitState → Bool
  | .chargeReady | .closing | .cure | .demouldWait | .opening | .eject | .unload | .fault => true
  | .disabled | .idle | .chargeWait => false

/-- The presses in the service queues, scale 0's first. -/
def State.queuedPresses (s : State) : List PressNo :=
  (s.scales[0].queue ++ s.scales[1].queue).map QueueEntry.press

/-- A press unit agrees with its binding and charge (R123), its cure (R83), its OPEN record (R140), its
ejector (R145) and the service queues (R117). -/
def State.UnitLaw (s : State) (p : PressNo) : Prop :=
  let st := (s.unit p).state
  (s.unit p).binding.isSome = st.isBound
    ∧ (s.unit p).charge.isSome = st.holdsCharge
    ∧ ((s.cure p).status = .accruing ↔ st = .cure)
    ∧ (s.history.openRecord[p]).isSome = st.inCycle
    ∧ (s.openRecord p).isSome = st.inCycle
    ∧ ((s.ejector p).phase ≠ .stopped ↔ st = .eject)
    ∧ (p ∈ s.queuedPresses ↔ st = .chargeWait)

/-- A scale holds a verdict in the states that section 6.2 names, and in no other (R103). -/
def Scale.verdictLaw (c : Scale) : Prop :=
  c.verdict.isSome = (c.state == .accepted || c.state == .rejected || c.state == .noRequest
    || c.state == .lifting)

/-- The cycle's laws: R117, R123, R140 and R145 for each press, no press twice in the queues, and a verdict
exactly where a scale holds one. -/
def State.CycleLaw (s : State) : Prop :=
  (∀ p : PressNo, s.UnitLaw p) ∧ s.queuedPresses.Nodup ∧ ∀ k : ScaleNo, s.scales[k].verdictLaw

/-! ## Cure progress (R91) -/

/-- While a cure accrues, its progress is at most the accumulator of every zone INCLUDED in it (R91). -/
def State.ProgressLaw (s : State) : Prop :=
  ∀ z : ZoneNo, (s.cure (pressOf z)).status = .accruing → (s.accrual z).inclusion = .included →
    (s.cure (pressOf z)).progress ≤ (s.accrual z).accumulator

/-! ## Off frames (R79, R153) -/

/-- Some off command or owed EJECT_OFF waits for a place. -/
def State.offWaits (s : State) : Bool :=
  ((List.finRange 48).any fun z => (s.zone z).offs.any fun o => !o.placed)
    || (List.finRange 4).any fun p => (s.ejector p).offOwed.any fun o => !o.placed

/-- In NORMAL mode an off frame waits only while Port D OWN is full (R79, R153). -/
def State.OffLaw (s : State) : Prop :=
  s.normal = true → s.offWaits = true → Config.ownPlaces ≤ s.portD.own.length

/-! ## When a command finds the part at work -/

/-- The moment of a pending reset has been reached (R192). -/
def ResetPending.isDue : ResetPending → Bool
  | .due _ => true
  | .idle | .waiting _ => false

/-- RESET_N is high, no COLD shutdown is under way, and no reset has reached its moment. -/
def State.Settled (s : State) : Prop :=
  s.resetHeld = false ∧ s.shutdown = false ∧ s.resetPending.isDue = false

/-- No reset has come to its moment: RESET_N is high, no reset is due, and a COLD shutdown, if one is under
way, still waits for an off frame (R192, R194; log 8). -/
def State.Quiet (s : State) : Prop :=
  s.resetHeld = false ∧ s.resetPending.isDue = false ∧ (s.shutdown = true → s.offPresent = true)

/-- The part is settled in NORMAL mode, with an own address that a strap can give (R4). -/
def State.Normal (s : State) (own : Nat) : Prop :=
  s.Settled ∧ s.mode = .normal own ∧ 1 ≤ own ∧ own ≤ 62

/-- The bytes are a MGMT_REQ from the controller to the own address that spells a request, and no reset is
pending (R190). -/
def State.Asked (s : State) (bytes : List Byte) (f : RxFrame) (r : Request) : Prop :=
  s.Normal f.dst ∧ s.resetPending = .idle ∧ parseFrame bytes = some f
    ∧ f.kind = FrameKind.mgmtReq.code ∧ f.src = s.controller ∧ decodeRequest f.payload = some r

/-- The bytes are a frame from Port U to a node that is neither the part nor all nodes. -/
def State.Passing (s : State) (bytes : List Byte) (f : RxFrame) : Prop :=
  (∃ own, s.Normal own ∧ f.dst ≠ own) ∧ f.dst ≠ Config.broadcast ∧ parseFrame bytes = some f

/-- The bytes are a frame that passes the check, in a settled part in NORMAL mode. -/
def State.Hears (s : State) (bytes : List Byte) (f : RxFrame) : Prop :=
  (∃ own, s.Normal own) ∧ parseFrame bytes = some f

/-- The bytes are a COMMAND from Port U to the PRESS node of a press, and spell a command (R15, R203). -/
def State.Commanded (s : State) (bytes : List Byte) (f : RxFrame) (p : PressNo) (c : PressCommand) :
    Prop :=
  s.Passing bytes f ∧ f.kind = FrameKind.command.code ∧ (s.node f.dst).role = .press
    ∧ (s.node f.dst).unit = p.val ∧ pressCommandOf f.payload = some c

/-- The bytes are a frame of a kind from a node of a role and unit, taken on Port D (R18). -/
def State.FromNode (s : State) (bytes : List Byte) (f : RxFrame) (role : Role) (unit : Nat)
    (kind : FrameKind) : Prop :=
  s.Hears bytes f ∧ (s.node f.src).role = role ∧ (s.node f.src).unit = unit ∧ f.kind = kind.code

/-- The bytes are a SAMPLE of one channel entry from a THERMO node (R51). -/
def State.Measures (s : State) (bytes : List Byte) (f : RxFrame) (e : ChannelEntry) : Prop :=
  s.Hears bytes f ∧ (s.node f.src).role = .thermo ∧ f.kind = FrameKind.sample.code
    ∧ sampleOf f.payload = some [e]

/-- The bytes are a SAMPLE of one OK entry of an enabled scale from which a gross value `g` is formed (R105,
R106), `c` being the scale's context as the value finds it: channel A in SINGLE mode, or channel B with its
held A value in SUM mode, or in CHECK mode where the pair agrees outside MISMATCH. -/
def State.Forms (s : State) (bytes : List Byte) (f : RxFrame) (k : ScaleNo) (e : ChannelEntry) (g : Int)
    (c : Scale) : Prop :=
  let old := s.scale k
  let n := s.scaleEntry k
  let here : Option NodeRef := some { node := f.src, line := e.channel }
  let last : Option LastEntry := some { status := .ok, value := e.value, arrival := s.timebase }
  s.FromNode bytes f .scale k.val .sample ∧ sampleOf f.payload = some [e] ∧ e.status = .ok
    ∧ old.state ≠ .disabled
    ∧ ((n.mode = .single ∧ n.channelA = here ∧ g = e.value ∧ c = { old with lastA := last })
      ∨ (n.channelA ≠ here ∧ n.channelB = here ∧ c = { old with lastB := last, heldA := none }
        ∧ ∃ a ∈ old.heldA, (n.mode = .sum ∧ g = a.value + e.value)
          ∨ (n.mode = .check ∧ |a.value - e.value| ≤ (n.checkBand : Int) ∧ old.state ≠ .mismatch
            ∧ g = (a.value + e.value).tdiv 2)))

/-- A window is full, and no two of its values differ by more than the settle band (R107). -/
def ScaleEntry.Steady (e : ScaleEntry) (w : List Int) : Prop :=
  w.length = e.windowN ∧ w ≠ [] ∧ ∀ a ∈ w, ∀ b ∈ w, a - b ≤ (e.settleBand : Int)

/-- No zone but `z` takes an entry of a node's channel. -/
def State.TakesAlone (s : State) (z : ZoneNo) (node channel : Nat) : Prop :=
  ∀ z' : ZoneNo, z' ≠ z → s.sensorOf z' node channel = none

/-- What forwarding upward adds to a consumed frame's effect: a place in Port U FWD when the node's
forward-up flag is set (R18). -/
def State.up (s : State) (f : RxFrame) (bytes : List Byte) (t : State) : State :=
  if (s.node f.src).forwardUp then t.forwardTo .U bytes else t

/-- What the deviation test of a valid sample leaves of a zone's deviation state (R62). -/
def State.Deviates (s t : State) (z : ZoneNo) (m : Int) : Prop :=
  let p := pressOf z
  let c := s.zone z
  let d := t.zone z
  ((s.unit p).state ≠ .cure ∨ s.boundRecipe p = none →
    d.deviationCount = c.deviationCount ∧ d.deviationNoted = c.deviationNoted)
  ∧ ∀ r, (s.unit p).state = .cure → s.boundRecipe p = some r →
    (|m - c.setpoint| ≤ (r.deviationBand : Int) →
      d.deviationCount = 0 ∧ d.deviationNoted = c.deviationNoted)
    ∧ ((r.deviationBand : Int) < |m - c.setpoint| →
      d.deviationCount = min 3 (c.deviationCount + 1)
      ∧ d.deviationNoted = (c.deviationNoted || decide (3 ≤ c.deviationCount + 1))
      ∧ (3 ≤ c.deviationCount + 1 → c.deviationNoted = false →
        (t.events[7]).raw = true ∧ ∀ x, t.openRecord p = some x → x.flags.getLsbD 5 = true))

/-- What the permit test leaves of a cure that accrued before (R94), taken at `time` on its present
progress. -/
def State.PermitTested (s t : State) (p : PressNo) (time : Time) : Prop :=
  let permit := (s.cure p).lost = false ∧ (s.cure p).dwellMet = true
    ∧ ∃ r, s.boundRecipe p = some r ∧ r.cureTarget * 1000 ≤ (t.cure p).progress
  (permit → (t.cure p).status = .permitted ∧ (t.cure p).endTime = some time
    ∧ t.unit p = { s.unit p with state := .demouldWait } ∧ (t.events[17]).raw = true
    ∧ ∀ x, t.openRecord p = some x → x.cureEnd = some time ∧ x.cureAchieved = (t.cure p).progress)
  ∧ (¬permit → (t.cure p).status = .accruing ∧ t.unit p = s.unit p)

/-- The progress of a press is the least accumulator of its INCLUDED zones (R91). -/
def State.LeastProgress (t : State) (p : PressNo) : Prop :=
  (∃ z, pressOf z = p ∧ (t.accrual z).inclusion = .included
    ∧ (t.accrual z).accumulator = (t.cure p).progress)
  ∧ ∀ z, pressOf z = p → (t.accrual z).inclusion = .included →
    (t.cure p).progress ≤ (t.accrual z).accumulator

/-- A step excludes one zone from the cure of its press (R90): the count and CURE_DEGRADED, then the
recomputed progress and the permit test (R91, R94), or the loss of a cure with no zone left (R92). -/
def State.Excludes (s t : State) (z : ZoneNo) (time : Time) : Prop :=
  let p := pressOf z
  let remain := ∃ z', pressOf z' = p ∧ (t.accrual z').inclusion = .included
  let n := (s.cure p).excluded + 1
  t.accrual z = { s.accrual z with inclusion := .excluded }
  ∧ (∀ z', z' ≠ z → t.accrual z' = s.accrual z')
  ∧ (∀ x, t.openRecord p = some x → x.flags.getLsbD 0 = true ∧ x.excluded = n)
  ∧ (¬remain → t.cure p = { s.cure p with lost := true, excluded := n } ∧ t.unit p = s.unit p
    ∧ (t.events[18]).raw = true ∧ ∀ x, t.openRecord p = some x → x.flags.getLsbD 1 = true)
  ∧ (remain → (t.cure p).lost = (s.cure p).lost ∧ (t.cure p).excluded = n ∧ t.LeastProgress p
    ∧ s.PermitTested t p time)

/-- The head press of a scale's queue, with the recipe it is bound to; none for an empty queue. -/
def State.Heads (s : State) (c : Scale) (head : Option (PressNo × Recipe)) : Prop :=
  (c.queue = [] ∧ head = none)
    ∨ ∃ q rest r, c.queue = q :: rest ∧ s.boundRecipe q.press = some r ∧ head = some (q.press, r)

/-- The verdict on a mean and its net for the head press (R112). -/
def verdictFor (head : Option (PressNo × Recipe)) (mean net : Int) : Verdict :=
  match head with
  | none => { kind := .noRequest, press := none, mean := mean, net := net, trim := 0 }
  | some (p, r) =>
    let target : Int := r.chargeTarget
    if net < target - r.tolMinus then
      { kind := .light, press := some p, mean := mean, net := net, trim := target - net }
    else if target + r.tolPlus < net then
      { kind := .heavy, press := some p, mean := mean, net := net, trim := net - target }
    else { kind := .accepted, press := some p, mean := mean, net := net, trim := 0 }

/-- A step evaluates a value on a scale whose context is `c` (R112, R113): the verdict, the head's attempts,
CHARGE_REJECT and the VERDICT frame. The scale enters the state of the verdict (R111), unless it keeps one it
is `held` in (R119). A VERDICT that follows an EVENT frame needs two free places of Port U OWN. -/
def State.Evaluated (s t : State) (k : ScaleNo) (c : Scale) (head : Option (PressNo × Recipe)) (mean : Int)
    (held : Option ScaleState) : Prop :=
  let v := verdictFor head mean (mean - c.tare)
  let rejects := v.kind = .light ∨ v.kind = .heavy
  let lands : ScaleState := match v.kind with
    | .accepted => .accepted
    | .light => .rejected
    | .heavy => .rejected
    | .noRequest => .noRequest
  let frame : OwnFrame :=
    { dst := s.controller, src := s.ownAddress, kind := .verdict, mark := .plain
      payload := [BitVec.ofNat 8 k.val, BitVec.ofNat 8 ((v.press.map Fin.val).getD 255),
        BitVec.ofNat 8 v.kind.code] ++ intBytes 4 v.net ++ intBytes 4 v.trim }
  t.scale k = { c with
      state := held.getD lands, verdict := some v
      queue := match c.queue with
        | [] => []
        | q :: rest => { q with attempts := min 255 (q.attempts + 1) } :: rest }
  ∧ (∀ j, j ≠ k → t.scale j = s.scale j)
  ∧ (rejects → (t.events[9]).raw = true)
  ∧ (s.portU.own.length < 15 ∨ (s.portU.own.length < 16 ∧ (s.attention = true ∨ ¬rejects)) →
    frame ∈ t.portU.own)
  ∧ (16 ≤ s.portU.own.length → t.portU.own = s.portU.own ∧ (t.events[1]).raw = true)

/-- A step makes scale `k`'s queue that of `c` (R117 to R119): a new head has its load evaluated again under a
verdict, which the scale keeps in LIFTING. -/
def State.Requeued (s t : State) (k : ScaleNo) (c : Scale) (head : Option (PressNo × Recipe)) : Prop :=
  let same := c.queue.head?.map QueueEntry.press = (s.scale k).queue.head?.map QueueEntry.press
  (same ∨ c.state ∈ [.disabled, .empty, .loading, .overload, .mismatch] → t.scale k = c)
  ∧ (∀ v, ¬same → c.verdict = some v →
    (c.state ∈ [.accepted, .rejected, .noRequest] → s.Evaluated t k c head v.mean none)
    ∧ (c.state = .lifting → s.Evaluated t k c head v.mean (some .lifting)))

/-- A state holds the Power-on values of every block, with a strap value sampled (R195). -/
def State.HoldsPowerOn (t : State) (strap : BitVec 6) : Prop :=
  t.mode = Mode.ofStrap strap ∧ t.timebase = 0
    ∧ t.portU = { PortState.atReset with sending := t.portU.sending }
    ∧ t.portD = { PortState.atReset with sending := t.portD.sending }
    ∧ t.tables = Tables.atReset ∧ t.zones = Vector.replicate 48 Zone.atReset
    ∧ t.windows = Vector.replicate 4 HeatWindow.atReset ∧ t.cures = Vector.replicate 4 Cure.atReset
    ∧ t.accruals = Vector.replicate 48 Accrual.atReset ∧ t.scales = Vector.replicate 2 Scale.atReset
    ∧ t.units = Vector.replicate 4 PressUnit.atReset
    ∧ t.ejectors = Vector.replicate 4 Ejector.atReset ∧ t.history = History.atReset
    ∧ t.profiles = Vector.replicate 8 Profile.atReset ∧ t.exportQueue = [] ∧ t.events = eventsAtReset
    ∧ t.attention = false ∧ t.attnPin = false ∧ t.linkPin = false ∧ t.linkStart = none
    ∧ t.resetPending = .idle ∧ t.shutdown = false

/-! ## Frames: what an operation may change -/

/-- The parts of the state. -/
inductive Part where
  | pending | resetHeld | strap | mode | timebase | linkPin | linkStart | attnPin | portU | portD | resetPending | shutdown | tables | zones
  | windows | cures | accruals | scales | units | ejectors | history | profiles | exportQueue | events | attention | offNumber | freeCounter | warmTaking
deriving DecidableEq, Repr

/-- Two states hold the same in a part. -/
def State.Same (x : Part) (s t : State) : Prop :=
  match x with
  | .pending => s.pending = t.pending
  | .resetHeld => s.resetHeld = t.resetHeld
  | .strap => s.strap = t.strap
  | .mode => s.mode = t.mode
  | .timebase => s.timebase = t.timebase
  | .linkPin => s.linkPin = t.linkPin
  | .linkStart => s.linkStart = t.linkStart
  | .attnPin => s.attnPin = t.attnPin
  | .portU => s.portU = t.portU
  | .portD => s.portD = t.portD
  | .resetPending => s.resetPending = t.resetPending
  | .shutdown => s.shutdown = t.shutdown
  | .tables => s.tables = t.tables
  | .zones => s.zones = t.zones
  | .windows => s.windows = t.windows
  | .cures => s.cures = t.cures
  | .accruals => s.accruals = t.accruals
  | .scales => s.scales = t.scales
  | .units => s.units = t.units
  | .ejectors => s.ejectors = t.ejectors
  | .history => s.history = t.history
  | .profiles => s.profiles = t.profiles
  | .exportQueue => s.exportQueue = t.exportQueue
  | .events => s.events = t.events
  | .attention => s.attention = t.attention
  | .offNumber => s.offNumber = t.offNumber
  | .freeCounter => s.freeCounter = t.freeCounter
  | .warmTaking => s.warmTaking = t.warmTaking

/-- Going from one state to another changes nothing but the listed parts. -/
def State.OnlyChanges (parts : List Part) (s t : State) : Prop := ∀ x, x ∉ parts → State.Same x s t

/-- What an event may change: its entry, the notes of records, and attention with its EVENT frame. -/
def raiseParts : List Part := [.events, .history, .portU, .attention, .attnPin]

/-- What a frame that joins a queue may change beside: the queues of both ports. -/
def netParts : List Part := .portD :: raiseParts

/-- What a change of a cure may change. -/
def cureParts : List Part := .cures :: .accruals :: .units :: raiseParts

/-- What the close of a record may change. -/
def closeParts : List Part := .exportQueue :: .profiles :: raiseParts

/-- A zone holds the same in both states, but for the placed flags of its off commands. -/
def State.KeepsZone (s t : State) (z : ZoneNo) : Prop :=
  t.zone z = { s.zone z with offs := (t.zone z).offs }
    ∧ (t.zone z).offs.map OffCommand.unplaced = (s.zone z).offs.map OffCommand.unplaced

/-- An ejector context holds the same in both states, but for the placed flag of what it owes. -/
def State.KeepsEjector (s t : State) (p : PressNo) : Prop :=
  t.ejector p = { s.ejector p with offOwed := (t.ejector p).offOwed }
    ∧ (t.ejector p).offOwed.map OffOwed.unplaced = (s.ejector p).offOwed.map OffOwed.unplaced

/-- The units, cures, windows, ejectors and zones of the other presses hold the same in both states, but for
placed flags. -/
def State.KeepsOthers (s t : State) (p : PressNo) : Prop :=
  (∀ q, q ≠ p → t.unit q = s.unit q ∧ t.cure q = s.cure q ∧ t.window q = s.window q ∧ s.KeepsEjector t q)
    ∧ ∀ z, pressOf z ≠ p → t.accrual z = s.accrual z ∧ s.KeepsZone t z

/-- A press leaves the service queue it stands in (R118, R119): a queue without it stays with its scale, and the
queue that it alone leaves may have a new head. -/
def State.LeavesQueue (s t : State) (p : PressNo) : Prop :=
  let queued (k : ScaleNo) : Prop := ∃ q ∈ (s.scale k).queue, q.press = p
  ∀ k : ScaleNo,
    let c := { s.scale k with queue := (s.scale k).queue.filter fun q => decide (q.press ≠ p) }
    (¬queued k → t.scale k = s.scale k)
    ∧ ∀ head, queued k → (∀ j, j ≠ k → ¬queued j) → s.Heads c head → s.Requeued t k c head

/-! ## Writes of tables -/

/-- The ranges of a Recipe entry (R32). -/
def Recipe.InRange (r : Recipe) : Prop :=
  (1 ≤ r.mould ∧ r.mould ≤ 65535) ∧ r.upper ≤ 4000 ∧ r.lower ≤ 4000 ∧ r.rateTable ≤ 3
    ∧ (1 ≤ r.cureTarget ∧ r.cureTarget ≤ 65535) ∧ r.minDwell ≤ 3600 ∧ (1 ≤ r.maxCure ∧ r.maxCure ≤ 7200)
    ∧ (1 ≤ r.profileInterval ∧ r.profileInterval ≤ 60) ∧ r.scale ≤ 1
    ∧ (1 ≤ r.chargeTarget ∧ r.chargeTarget ≤ 300000) ∧ r.tolMinus ≤ 10000 ∧ r.tolPlus ≤ 10000
    ∧ (1 ≤ r.loadLimit ∧ r.loadLimit ≤ 600) ∧ (1 ≤ r.minTonnage ∧ r.minTonnage ≤ 60000)
    ∧ (1 ≤ r.closeTimeout ∧ r.closeTimeout ≤ 120) ∧ r.ejectA ≤ 10000
    ∧ (100 ≤ r.ejectB ∧ r.ejectB ≤ 30000) ∧ (1 ≤ r.stuckForce ∧ r.stuckForce ≤ 10000)
    ∧ (10 ≤ r.deviationBand ∧ r.deviationBand ≤ 500) ∧ (10 ≤ r.readyBand ∧ r.readyBand ≤ 500)
    ∧ r.minDwell ≤ r.maxCure ∧ r.ejectA + 100 ≤ r.ejectB

/-- The ranges of a Press entry (R40). -/
def PressEntry.InRange (e : PressEntry) : Prop :=
  (250 ≤ e.period ∧ e.period ≤ 4000) ∧ (1 ≤ e.holdLimit ∧ e.holdLimit ≤ 15)
    ∧ (250 ≤ e.maxGap ∧ e.maxGap ≤ 5000) ∧ e.ramp ≤ 500

/-- The ranges of a Zone entry, and the roles of the nodes it names (R45). -/
def ZoneEntry.InRange (s : State) (e : ZoneEntry) : Prop :=
  (-200 ≤ e.offset ∧ e.offset ≤ 200) ∧ e.feedForward ≤ 1000 ∧ e.maxDuty ≤ 1000
    ∧ (500 ≤ e.limit ∧ e.limit ≤ 4500) ∧ e.kp ≤ 1000 ∧ e.ki ≤ 1000
    ∧ (∀ x, e.primary = some x → (s.node x.node).role = .thermo)
    ∧ (∀ x, e.backup = some x → (s.node x.node).role = .thermo ∧ e.primary ≠ some x)
    ∧ ∀ x, e.heater = some x → (s.node x.node).role = .heater

/-- The ranges of the Scale entry of scale `k`, its channels, and the nodes of an enabled one (R101). -/
def ScaleEntry.InRange (s : State) (k : ScaleNo) (e : ScaleEntry) : Prop :=
  (4 ≤ e.windowN ∧ e.windowN ≤ 32) ∧ (1 ≤ e.settleBand ∧ e.settleBand ≤ 1000)
    ∧ (1 ≤ e.emptyThreshold ∧ e.emptyThreshold < e.loadThreshold ∧ e.loadThreshold < e.capacity
      ∧ e.capacity ≤ 300000)
    ∧ e.zeroTrack ≤ 500 ∧ (1 ≤ e.checkBand ∧ e.checkBand ≤ 1000)
    ∧ (200 ≤ e.liftTime ∧ e.liftTime ≤ 5000)
    ∧ (e.mode = .single → e.channelB = none)
    ∧ (e.mode ≠ .single → e.channelB ≠ none ∧ e.channelA ≠ e.channelB)
    ∧ (e.enabled = true → e.channelA ≠ none ∧ ∀ x, some x ∈ [e.channelA, e.channelB] →
      (s.node x.node).role = .scale ∧ (s.node x.node).unit = k.val)

/-- Entry `i` of a table after `es` are written from index `start` on (R28). -/
def written {α : Type} {n : Nat} (start : Nat) (es : List α) (v : Vector α n) (i : Fin n) : α :=
  if start ≤ i.val then (es[i.val - start]?).getD v[i] else v[i]

/-- A WRITE_TABLE in range is answered BAD_ENTRY, or IN_USE, or OK with an effect (R28, R29). -/
def State.WriteJudged (s : State) (bytes : List Byte) (f : RxFrame) (header : List Byte)
    (valid used : Prop) (effect : State → Prop) : Prop :=
  (¬valid → exec (.writeTable bytes) s = .next (s.linkActivity.respond f .badEntry [] .plain))
  ∧ (valid → used → exec (.writeTable bytes) s = .next (s.linkActivity.respond f .inUse [] .plain))
  ∧ (valid → ¬used → ∃ t, exec (.writeTable bytes) s = .next (t.respond f .ok header .plain) ∧ effect t)

/-- What a Node write does (R11, R12): `own` is the own address. -/
def State.NodeWrite (s : State) (bytes : List Byte) (f : RxFrame) (header : List Byte) (own start : Nat)
    (es : List NodeEntry) : Prop :=
  let old (a : Fin 64) := s.tables.nodes[a]
  let new (a : Fin 64) := written start es s.tables.nodes a
  let single (r : Role) := r = .press ∨ r = .ejector
  s.WriteJudged bytes f header
    ((∀ e ∈ es, (single e.role → e.unit ≤ 3) ∧ (e.role = .scale → e.unit ≤ 1)
        ∧ (e.role = .none ∨ e.role = .thermo ∨ e.role = .heater → e.unit = 0))
      ∧ (∀ a : Fin 64, a.val = own ∨ a.val = 63 → (new a).role = .none)
      ∧ ∀ a b : Fin 64, a ≠ b → single (new a).role → (new a).role = (new b).role →
        (new a).unit ≠ (new b).unit)
    (∃ a : Fin 64, ((new a).role ≠ (old a).role ∨ (new a).unit ≠ (old a).unit)
      ∧ ((∃ z x, s.enabled z = true ∧ x.node = a.val
          ∧ some x ∈ [(s.zoneEntry z).primary, (s.zoneEntry z).backup, (s.zoneEntry z).heater])
        ∨ (∃ k x, (s.scaleEntry k).enabled = true ∧ x.node = a.val
          ∧ some x ∈ [(s.scaleEntry k).channelA, (s.scaleEntry k).channelB])
        ∨ ∃ p : PressNo, single (old a).role ∧ (old a).unit = p.val ∧ (s.unit p).state ≠ .disabled))
    fun t => (∀ a : Fin 64, t.tables.nodes[a] = new a) ∧ { s.tables with nodes := t.tables.nodes } = t.tables
      ∧ State.OnlyChanges [.tables] s.linkActivity t

/-- What a Zone write leaves of one zone (R47, R63, R78). -/
def State.ZoneWritten (s t : State) (z : ZoneNo) (old new : ZoneEntry) : Prop :=
  let c := s.zone z
  let target (base : Int) : Int := max 0 (min ((new.limit : Int) - 50) base)
  t.zone z = { c with
      primaryLast := if old.primary = new.primary then c.primaryLast else none
      backupLast := if old.backup = new.backup then c.backupLast else none
      staged := min c.staged new.maxDuty, committed := min c.committed new.maxDuty
      base := (t.zone z).base, target := (t.zone z).target }
  ∧ (∀ r, old.offset ≠ new.offset → s.enabled z = true → c.overridden = false →
      s.boundRecipe (pressOf z) = some r →
      let base := ((if isUpper z then r.upper else r.lower : Nat) : Int) + new.offset
      (t.zone z).base = base ∧ (t.zone z).target = target base)
  ∧ (old.offset = new.offset ∨ s.enabled z = false ∨ c.overridden = true
      ∨ s.boundRecipe (pressOf z) = none →
      (t.zone z).base = c.base
      ∧ (t.zone z).target = if old.limit = new.limit then c.target else target c.base)

/-- What a Zone write does (R45 to R47, R63, R78). -/
def State.ZoneWrite (s : State) (bytes : List Byte) (f : RxFrame) (header : List Byte) (start : Nat)
    (es : List ZoneEntry) : Prop :=
  let old (z : ZoneNo) := s.tables.zones[z]
  let new (z : ZoneNo) := written start es s.tables.zones z
  let hit (z : ZoneNo) : Bool := decide (start ≤ z.val ∧ z.val < start + es.length)
  s.WriteJudged bytes f header
    ((∀ e ∈ es, ZoneEntry.InRange s e)
      ∧ ∀ z z' : ZoneNo, z ≠ z' → ∀ x : NodeRef,
        ((new z).primary = some x → (new z').primary ≠ some x)
        ∧ ((new z).heater = some x → (new z').heater ≠ some x))
    (∃ z : ZoneNo, s.enabled z = true ∧ ((new z).primary ≠ (old z).primary
      ∨ (new z).backup ≠ (old z).backup ∨ (new z).heater ≠ (old z).heater
      ∨ (new z).cureReference ≠ (old z).cureReference))
    fun t => (∀ z : ZoneNo, t.tables.zones[z] = new z) ∧ { s.tables with zones := t.tables.zones } = t.tables
      ∧ (∀ z, hit z = true → s.ZoneWritten t z (old z) (new z)) ∧ (∀ z, hit z = false → t.zone z = s.zone z)
      ∧ (s.portD.own.length ≤ 12 → t.portD.own = s.portD.own ++
        ((List.finRange 48).filter fun z => hit z && decide ((new z).maxDuty < (s.zone z).committed)).filterMap
          fun z => (new z).heater.map fun h =>
            { dst := h.node, src := s.ownAddress, kind := .heat, mark := .plain
              payload := BitVec.ofNat 8 h.line :: natBytes 2 (new z).maxDuty })
      ∧ State.OnlyChanges (.tables :: .zones :: netParts) s.linkActivity t

/-- What a Mould write does (R35, R37). -/
def State.MouldWrite (s : State) (bytes : List Byte) (f : RxFrame) (header : List Byte) (start : Nat)
    (es : List MouldEntry) : Prop :=
  let old (i : Fin 64) := s.tables.moulds[i]
  let new (i : Fin 64) := written start es s.tables.moulds i
  s.WriteJudged bytes f header
    ((∀ e ∈ es, e.recipe ≤ 31)
      ∧ ∀ i j : Fin 64, i ≠ j → (new i).mould ≠ 0 → (new i).mould ≠ (new j).mould)
    (∃ (i : Fin 64) (p : PressNo) (b : Binding), new i ≠ old i ∧ (old i).mould ≠ 0
      ∧ (s.unit p).binding = some b ∧ b.mould = (old i).mould)
    fun t => (∀ i : Fin 64, t.tables.moulds[i] = new i) ∧ { s.tables with moulds := t.tables.moulds } = t.tables
      ∧ State.OnlyChanges [.tables] s.linkActivity t

/-- What a Rate write of table `i` does (R38, R39). -/
def State.RateWrite (s : State) (bytes : List Byte) (f : RxFrame) (header : List Byte) (i : Fin 4)
    (ps : List RatePoint) : Prop :=
  s.WriteJudged bytes f header
    ((ps = [] ∨ (2 ≤ ps.length ∧ ps.length ≤ 16)) ∧ ps.Pairwise (fun a b => a.temp < b.temp)
      ∧ ∀ x ∈ ps, -500 ≤ x.temp ∧ x.temp ≤ 6000)
    (ps ≠ s.tables.rates[i] ∧ ∃ (p : PressNo) (b : Binding), (s.unit p).binding = some b
      ∧ (s.tables.recipes[b.recipe]).rateTable = i.val ∧ ((s.unit p).state.inCycle = true ∨ ps = []))
    fun t => t.tables = { s.tables with rates := s.tables.rates.set i ps }
      ∧ State.OnlyChanges [.tables] s.linkActivity t

/-- What a Scale write does (R101, R102). -/
def State.ScaleWrite (s : State) (bytes : List Byte) (f : RxFrame) (header : List Byte) (start : Nat)
    (es : List ScaleEntry) : Prop :=
  let old (k : ScaleNo) := s.tables.scales[k]
  let new (k : ScaleNo) := written start es s.tables.scales k
  s.WriteJudged bytes f header
    ((∀ k : ScaleNo, start ≤ k.val → k.val < start + es.length → (new k).InRange s k)
      ∧ ∀ x : NodeRef, some x ∈ [(new 0).channelA, (new 0).channelB] →
        some x ∉ [(new 1).channelA, (new 1).channelB])
    (∃ k : ScaleNo, { old k with enabled := (new k).enabled } ≠ new k
      ∧ (((s.scale k).state ≠ .disabled ∧ (s.scale k).state ≠ .empty) ∨ (s.scale k).queue ≠ []))
    fun t => (∀ k : ScaleNo, t.tables.scales[k] = new k) ∧ { s.tables with scales := t.tables.scales } = t.tables
      ∧ (∀ k, t.scale k = match (old k).enabled, (new k).enabled with
        | false, false => s.scale k
        | false, true => { s.scale k with
            state := .empty, window := [], verdict := none, liftStart := none, tareNoted := false
            heldA := none, agree := 0 }
        | true, false => { s.scale k with
            state := .disabled, window := [], verdict := none, liftStart := none, heldA := none, agree := 0 }
        | true, true => if old k = new k then s.scale k
            else { s.scale k with window := [], heldA := none, tareNoted := false })
      ∧ State.OnlyChanges [.tables, .scales] s.linkActivity t

/-- What a Cell write does (R42 to R44): `own` is the own address. -/
def State.CellWrite (s : State) (bytes : List Byte) (f : RxFrame) (header : List Byte) (own : Nat)
    (e : CellEntry) : Prop :=
  let h := s.history
  s.WriteJudged bytes f header
    (e.controller ≤ 62 ∧ e.controller ≠ own ∧ 2 ≤ e.highMark ∧ e.highMark ≤ 512 ∧ 1 ≤ e.lowMark
      ∧ e.lowMark < e.highMark) False
    fun t => t.tables = { s.tables with cell := e } ∧ t.history = { h with hold := t.history.hold }
      ∧ (e.policy = .overwrite → t.history.hold = false)
      ∧ (e.policy = .hold → h.hold = true → t.history.hold = decide (e.lowMark < h.unread))
      ∧ (e.policy = .hold → h.hold = false → e.highMark ≤ h.unread →
        t.history.hold = true ∧ (t.events[22]).raw = true)
      ∧ (e.policy = .hold → h.hold = false → h.unread < e.highMark → t.history.hold = false)
      ∧ State.OnlyChanges (.tables :: raiseParts) s.linkActivity t

/-- What an Export write does (R178). -/
def State.ExportWrite (s : State) (bytes : List Byte) (f : RxFrame) (header : List Byte) (e : ExportEntry) :
    Prop :=
  s.WriteJudged bytes f header (∀ g ∈ e.filters.toList, g.low ≤ g.high) False
    fun t => t = s.linkActivity.modTables fun x => { x with exports := e }

/-! ## Bytes: which request a payload spells, and the record's layout -/

/-- A request is the one that a code and its arguments spell (R204, R27, R30). -/
def Request.SpelledBy (r : Request) (code : Nat) (args : List Byte) : Prop :=
  let a (i : Nat) : Nat := (args.getD i 0#8).toNat
  let tables : List TableId := [.node, .zone, .recipe, .mould, .rate, .scale, .press, .cell, .exports]
  let blocks : List Block := [.link, .zone, .heat, .cure, .scale, .press, .eject, .history, .report]
  let pair (k action : Nat) (n : Nat) : Prop := code = k ∧ args.length = 2 ∧ a 0 = n ∧ a 1 = action
  match r with
  | .readTable t start n => code = 1 ∧ args.length = 3 ∧ tables[a 0]? = some t ∧ start = a 1
      ∧ n = a 2 ∧ 1 ≤ n
  | .writeTable t start n es => code = 2 ∧ 3 ≤ args.length ∧ tables[a 0]? = some t ∧ start = a 1
      ∧ n = a 2 ∧ 1 ≤ n ∧ n ≤ t.perRequest ∧ es = args.drop 3
      ∧ es.length = if t = .rate then 1 + 4 * a 3 else n * t.entryLength
  | .setSetpoint z v => code = 3 ∧ args.length = 4 ∧ a 0 = z ∧ a 1 = 0 ∧ v = intOf (args.drop 2)
  | .clearOverride z => pair 3 1 z
  | .zoneEnable z => pair 4 0 z
  | .zoneDisable z => pair 4 1 z
  | .zoneRestore z => pair 4 2 z
  | .pressEnable p => pair 5 0 p
  | .pressDisable p => pair 5 1 p
  | .pressReset p => pair 5 2 p
  | .forceDemould p => pair 5 3 p
  | .setupOn p => pair 5 4 p
  | .setupOff p => pair 5 5 p
  | .step p => pair 5 6 p
  | .scaleTare k => pair 6 0 k
  | .readStatus b i n => code = 7 ∧ blocks[a 0]? = some b ∧ i = a 1
      ∧ if b = .zone then args.length = 3 ∧ n = a 2 else args.length = 2 ∧ n = 0
  | .readHistory serial n => code = 8 ∧ args.length = 6 ∧ n = a 5
      ∧ ((a 0 = 0 ∧ serial = none) ∨ (a 0 = 1 ∧ serial = some (natOf ((args.drop 1).take 4))))
  | .advanceRead n => code = 9 ∧ args.length = 2 ∧ n = natOf args
  | .setSerialBase v => code = 10 ∧ args.length = 4 ∧ v = natOf args
  | .lockProfile p b => pair 11 b p
  | .unlockProfile p b => pair 12 b p
  | .readProfile p b i n => code = 13 ∧ args.length = 4 ∧ a 0 = p ∧ a 1 = b ∧ a 2 = i ∧ a 3 = n
  | .readEvents => code = 14 ∧ args = []
  | .clearEvents kinds => code = 15 ∧ args.length = 4 ∧ kinds.toNat = natOf args
  | .setEventEnable kinds => code = 16 ∧ args.length = 4 ∧ kinds.toNat = natOf args
  | .reset kind => code = 17 ∧ args.length = 1 ∧ a 0 = match kind with
    | .warm => 0
    | .cold => 1

/-- The 110 bytes of a record (R202). -/
def Record.LaidOut (r : Record) (bs : List Byte) : Prop :=
  let field (offset length : Nat) : List Byte := (bs.drop offset).take length
  let b8 := bs.getD 8 0#8
  let present := [r.pressureTime.isSome, r.loadToPressure.isSome, r.cureEnd.isSome, r.openTime.isSome,
    r.unloadTime.isSome, r.upperMin.isSome, r.upperMax.isSome, r.lowerMin.isSome, r.lowerMax.isSome,
    r.peakForce.isSome, r.profileBuffer.isSome]
  bs.length = 110 ∧ field 0 4 = natBytes 4 r.serial ∧ field 4 1 = natBytes 1 r.press.val
    ∧ field 5 1 = natBytes 1 r.recipe.val ∧ field 6 2 = natBytes 2 r.mould
    ∧ b8.getLsbD 7 = decide (r.state = .closed) ∧ b8.getLsbD 6 = r.exported
    ∧ b8.toNat % 64 = (match r.outcome with
      | none => 0
      | some .good => 1
      | some .suspect => 2
      | some .reject => 3
      | some .aborted => 4)
    ∧ (∀ i, (natOf (field 9 2)).testBit i = present.getD i false)
    ∧ field 11 1 = natBytes 1 r.charge.scale.val ∧ field 12 4 = intBytes 4 r.charge.net
    ∧ field 16 4 = intBytes 4 r.charge.mean ∧ field 20 4 = intBytes 4 r.charge.tare
    ∧ field 24 4 = natBytes 4 r.charge.target ∧ field 28 2 = natBytes 2 r.charge.tolMinus
    ∧ field 30 2 = natBytes 2 r.charge.tolPlus ∧ field 32 1 = natBytes 1 r.charge.attempts
    ∧ field 33 4 = natBytes 4 r.charge.release.toNat ∧ field 37 4 = natBytes 4 r.closeTime.toNat
    ∧ field 41 4 = natBytes 4 (r.pressureTime.getD 0).toNat
    ∧ field 45 4 = natBytes 4 (r.loadToPressure.getD 0)
    ∧ field 49 4 = natBytes 4 (r.cureEnd.getD 0).toNat ∧ field 53 4 = natBytes 4 (r.openTime.getD 0).toNat
    ∧ field 57 4 = natBytes 4 (r.unloadTime.getD 0).toNat ∧ field 61 4 = natBytes 4 r.cureAchieved
    ∧ field 65 2 = natBytes 2 r.cureTarget ∧ field 67 1 = natBytes 1 r.included
    ∧ field 68 1 = natBytes 1 r.excluded ∧ field 69 2 = intBytes 2 (r.upperMin.getD 0)
    ∧ field 71 2 = intBytes 2 (r.upperMax.getD 0) ∧ field 73 2 = intBytes 2 (r.lowerMin.getD 0)
    ∧ field 75 2 = intBytes 2 (r.lowerMax.getD 0) ∧ field 77 3 = natBytes 3 (r.peakForce.getD 0)
    ∧ field 80 1 = natBytes 1 ((r.profileBuffer.map Fin.val).getD 0)
    ∧ field 81 3 = natBytes 3 r.flags.toNat ∧ field 84 1 = natBytes 1 r.notes.length
    ∧ field 85 1 = natBytes 1 r.notesDropped
    ∧ ∀ i, i < 4 → field (86 + 6 * i) 6 = match r.notes[i]? with
      | some n => natBytes 4 n.time.toNat ++ natBytes 1 n.kind.number.val ++ natBytes 1 n.inst
      | none => List.replicate 6 0#8

/-! ### Table entries (R197) -/

/-- The two bytes at an offset spell a (node, line) pair, node 255 for none (R197). -/
def pairAt (bs : List Byte) (offset : Nat) (r : Option NodeRef) : Prop :=
  (bs.drop offset).take 2 = match r with
    | some x => natBytes 1 x.node ++ natBytes 1 x.line
    | none => [255#8, 0#8]

/-- The byte at an offset spells a flag (R197). -/
def flagAt (bs : List Byte) (offset : Nat) (b : Bool) : Prop := bs[offset]? = some (if b then 1#8 else 0#8)

/-- The byte at an offset spells one of named values by its place in their list (R197). -/
def namedAt {α : Type} (bs : List Byte) (offset : Nat) (names : List α) (x : α) : Prop :=
  names[(bs.getD offset 0#8).toNat]? = some x

/-- The 3 bytes of a Node entry (section 1.4). -/
def NodeEntry.LaidOut (e : NodeEntry) (bs : List Byte) : Prop :=
  bs.length = 3 ∧ namedAt bs 0 [Role.none, .thermo, .heater, .scale, .press, .ejector] e.role
    ∧ (bs.drop 1).take 1 = natBytes 1 e.unit ∧ flagAt bs 2 e.forwardUp

/-- The 20 bytes of a Zone entry, with the zone's enable state (section 3.1). -/
def ZoneEntry.LaidOut (e : ZoneEntry) (enabled : Bool) (bs : List Byte) : Prop :=
  let field (offset : Nat) : List Byte := (bs.drop offset).take 2
  bs.length = 20 ∧ flagAt bs 0 enabled ∧ pairAt bs 1 e.primary ∧ pairAt bs 3 e.backup ∧ pairAt bs 5 e.heater
    ∧ flagAt bs 7 e.cureReference ∧ field 8 = intBytes 2 e.offset ∧ field 10 = natBytes 2 e.feedForward
    ∧ field 12 = natBytes 2 e.maxDuty ∧ field 14 = natBytes 2 e.limit ∧ field 16 = natBytes 2 e.kp
    ∧ field 18 = natBytes 2 e.ki

/-- The 38 bytes of a Recipe entry (section 2.2). -/
def Recipe.LaidOut (r : Recipe) (bs : List Byte) : Prop :=
  let field (offset length : Nat) : List Byte := (bs.drop offset).take length
  bs.length = 38 ∧ flagAt bs 0 r.valid ∧ field 1 2 = natBytes 2 r.mould ∧ field 3 2 = natBytes 2 r.upper
    ∧ field 5 2 = natBytes 2 r.lower ∧ field 7 1 = natBytes 1 r.rateTable ∧ field 8 2 = natBytes 2 r.cureTarget
    ∧ field 10 2 = natBytes 2 r.minDwell ∧ field 12 2 = natBytes 2 r.maxCure
    ∧ field 14 1 = natBytes 1 r.profileInterval ∧ field 15 1 = natBytes 1 r.scale
    ∧ field 16 3 = natBytes 3 r.chargeTarget ∧ field 19 2 = natBytes 2 r.tolMinus
    ∧ field 21 2 = natBytes 2 r.tolPlus ∧ field 23 2 = natBytes 2 r.loadLimit
    ∧ field 25 2 = natBytes 2 r.minTonnage ∧ field 27 1 = natBytes 1 r.closeTimeout
    ∧ field 28 2 = natBytes 2 r.ejectA ∧ field 30 2 = natBytes 2 r.ejectB ∧ field 32 2 = natBytes 2 r.stuckForce
    ∧ field 34 2 = natBytes 2 r.deviationBand ∧ field 36 2 = natBytes 2 r.readyBand

/-- The 3 bytes of a Mould entry (section 2.3). -/
def MouldEntry.LaidOut (e : MouldEntry) (bs : List Byte) : Prop :=
  bs.length = 3 ∧ bs.take 2 = natBytes 2 e.mould ∧ bs.drop 2 = natBytes 1 e.recipe

/-- The bytes of a Rate entry: its point count, then each point's temperature and factor (R197). -/
def ratesLaidOut (ps : List RatePoint) (bs : List Byte) : Prop :=
  bs.length = 1 + 4 * ps.length ∧ bs.take 1 = natBytes 1 ps.length
    ∧ ∀ (i : Nat) (x : RatePoint), ps[i]? = some x →
      (bs.drop (1 + 4 * i)).take 4 = intBytes 2 x.temp ++ natBytes 2 x.factor

/-- The 24 bytes of a Scale entry (section 6.1). -/
def ScaleEntry.LaidOut (e : ScaleEntry) (bs : List Byte) : Prop :=
  let field (offset length : Nat) : List Byte := (bs.drop offset).take length
  bs.length = 24 ∧ flagAt bs 0 e.enabled ∧ namedAt bs 1 [ScaleMode.single, .sum, .check] e.mode
    ∧ pairAt bs 2 e.channelA ∧ pairAt bs 4 e.channelB ∧ field 6 1 = natBytes 1 e.windowN
    ∧ field 7 2 = natBytes 2 e.settleBand ∧ field 9 3 = natBytes 3 e.emptyThreshold
    ∧ field 12 3 = natBytes 3 e.loadThreshold ∧ field 15 3 = natBytes 3 e.capacity
    ∧ field 18 2 = natBytes 2 e.zeroTrack ∧ field 20 2 = natBytes 2 e.checkBand
    ∧ field 22 2 = natBytes 2 e.liftTime

/-- The 7 bytes of a Press entry (section 2.5). -/
def PressEntry.LaidOut (e : PressEntry) (bs : List Byte) : Prop :=
  let field (offset length : Nat) : List Byte := (bs.drop offset).take length
  bs.length = 7 ∧ field 0 2 = natBytes 2 e.period ∧ field 2 1 = natBytes 1 e.holdLimit
    ∧ field 3 2 = natBytes 2 e.maxGap ∧ field 5 2 = natBytes 2 e.ramp

/-- The 6 bytes of the Cell entry (section 2.6). -/
def CellEntry.LaidOut (e : CellEntry) (bs : List Byte) : Prop :=
  let field (offset length : Nat) : List Byte := (bs.drop offset).take length
  bs.length = 6 ∧ field 0 1 = natBytes 1 e.controller ∧ namedAt bs 1 [Policy.hold, .overwrite] e.policy
    ∧ field 2 2 = natBytes 2 e.highMark ∧ field 4 2 = natBytes 2 e.lowMark

/-- The 23 bytes of the Export entry (section 10.1): the filters' modes, then their lows, then their highs (log 25);
bit i of a set for its i-th name (log 31). -/
def ExportEntry.LaidOut (e : ExportEntry) (bs : List Byte) : Prop :=
  let field (offset : Nat) : List Byte := (bs.drop offset).take 2
  bs.length = 23 ∧ flagAt bs 0 e.enable
    ∧ (∀ i : Nat, (bs.getD 1 0#8).getLsbD i = e.outcomes.getLsbD i)
    ∧ (∀ i : Nat, (bs.getD 2 0#8).getLsbD i = e.presses.getLsbD i)
    ∧ ∀ i : Fin 4, namedAt bs (3 + i.val) [FilterMode.off, .accept, .reject] e.filters[i].mode
      ∧ field (7 + 2 * i.val) = natBytes 2 e.filters[i].low
      ∧ field (15 + 2 * i.val) = natBytes 2 e.filters[i].high

/-- The rows of the frames that a port receives. -/
def framesOn (p : Port) : List (List Byte → Instr) :=
  [.checkFailedFrame p, .passiveForward p, .forwardFrame p] ++ match p with
    | .D => [.fieldMgmtReq, .thermoSample, .scaleSample, .pressStatus, .ejectorStatus]
    | .U => [.discardOwnAddressFrame, .foreignMgmtReq, .mgmtReqDroppedPending, .mgmtBadRequest,
      .closeCommand, .openCommand, .openEmergency, .serviceCommand, .commandNotWellFormed, .broadcastCloseOpen,
      .broadcastOpenEmergency, .broadcastHeat, .heat, .readTable, .writeTable, .setSetpointSet,
      .setSetpointClearOverride, .zoneControlEnable, .zoneControlDisable, .zoneControlRestorePrimary,
      .pressControlEnable, .pressControlDisable, .pressControlReset, .pressControlForceDemould,
      .pressControlSetupOn, .pressControlSetupOff, .pressControlStep, .scaleControlTare, .readStatus,
      .readHistory, .advanceRead, .setSerialBase, .lockProfile, .unlockProfile, .readProfile, .readEvents,
      .clearEvents, .setEventEnable, .resetWarm, .resetCold]

/-! ## The export queue, and profile points -/

/-- The record of the ring that has a serial, the first by slot. -/
def State.ringRecord (s : State) (serial : Nat) : Option Record :=
  (s.history.slots.toList.filterMap id).find? fun r => r.serial == serial

/-- REU has moved heads of the export queue while Port U OWN held 12 frames or fewer (R181): the serials that
left it, in order, are the REPORT frames that joined, each with its record marked exported. -/
def State.ExportsMoved (s t : State) : Prop :=
  ∃ moved : List Nat, s.exportQueue = moved ++ t.exportQueue
    ∧ t.portU = { s.portU with own := s.portU.own ++ moved.filterMap fun n => (s.ringRecord n).map fun r =>
        { dst := s.controller, src := s.ownAddress, kind := .report, mark := .plain
          payload := recordBytes { r with exported := true } } }
    ∧ (moved = [] ∨ (s.portU.own.length ≤ 12 ∧ t.portU.own.length ≤ 13))
    ∧ (t.exportQueue = [] ∨ 12 < t.portU.own.length)
    ∧ t.history = { s.history with slots := t.history.slots }
    ∧ (∀ i : Fin 512, s.history.slots[i] = none → t.history.slots[i] = none)
    ∧ (∀ (i : Fin 512) (r : Record), s.history.slots[i] = some r →
        (∀ (j : Fin 512) (r' : Record), s.history.slots[j] = some r' → r'.serial = r.serial → i ≤ j) →
        t.history.slots[i] = some { r with exported := r.exported || decide (r.serial ∈ moved) })
    ∧ State.OnlyChanges [.exportQueue, .history, .portU] s t

/-- The least and greatest M of a profile point: those of the INCLUDED zones of the press, none where none has
an M (R172). -/
def State.PointTemps (t : State) (p : PressNo) (temps : Option (Int × Int)) : Prop :=
  let holds (z : ZoneNo) (m : Int) : Prop :=
    pressOf z = p ∧ (t.accrual z).inclusion = .included ∧ (t.zone z).measured = some m
  match temps with
  | none => ∀ z m, ¬holds z m
  | some (least, greatest) => (∃ z, holds z least) ∧ (∃ z, holds z greatest)
      ∧ ∀ z m, holds z m → least ≤ m ∧ m ≤ greatest

/-! ## Off frames that take places (R79, R153) -/

/-- The frames of the off commands and owed EJECT_OFFs that wait for a place: ejector frames first, in press order,
then heater frames in zone order, those of one zone in the order of their creation (R79, R153). -/
def State.waitingOffs (s : State) : List OwnFrame :=
  ((List.finRange 4).filterMap fun p =>
    ((s.ejector p).offOwed.filter fun o => !o.placed).map fun o =>
      { dst := o.node, src := s.ownAddress, kind := .command, payload := [5#8], mark := .ejectOff p o.number })
  ++ (List.finRange 48).flatMap fun z =>
    ((s.zone z).offs.filter fun o => !o.placed).map fun o =>
      { dst := o.node, src := s.ownAddress, kind := .heat, payload := [BitVec.ofNat 8 o.output, 0#8, 0#8]
        mark := .heaterOff z o.number }

/-- A step places off frames: of those that wait, in their order, as many as Port D OWN has places for join its
tail, and their off commands and owed EJECT_OFFs, and no others, gain the placed flag. -/
def State.OffsPlaced (s t : State) : Prop :=
  let frames := s.waitingOffs.take (16 - s.portD.own.length)
  let sent (m : Mark) : Bool := decide (m ∈ frames.map OwnFrame.mark)
  t.portD = { s.portD with own := s.portD.own ++ frames }
    ∧ (∀ z, t.zone z = { s.zone z with
        offs := (s.zone z).offs.map fun o => { o with placed := o.placed || sent (.heaterOff z o.number) } })
    ∧ (∀ p, t.ejector p = { s.ejector p with
        offOwed := (s.ejector p).offOwed.map fun o =>
          { o with placed := o.placed || sent (.ejectOff p o.number) } })
    ∧ State.OnlyChanges [.zones, .ejectors, .portD] s t

/-! ## The shutdown of a COLD reset -/

/-- A COLD reset has something to command off (R194): an enabled zone with a heater output, an off command, an
ejection with an ejector node, or an owed EJECT_OFF. -/
def State.Drives (s : State) : Prop :=
  (∃ z, s.enabled z = true ∧ (s.zoneEntry z).heater ≠ none) ∨ (∃ z, (s.zone z).offs ≠ [])
    ∨ (∃ p, (s.unit p).state = .eject ∧ (s.ejector p).node ≠ none) ∨ ∃ p, (s.ejector p).offOwed ≠ none

/-- A step begins the shutdown of a COLD reset (R194): the duties of the enabled zones are 0, each zone owes an
off command for its heater beside those for other outputs, each ejection its EJECT_OFF, and the off frames join
the tail of Port D OWN, ejector frames first, while it has a place. -/
def State.ShutsDown (s t : State) : Prop :=
  let outputs (offs : List OffCommand) : List NodeRef := offs.map fun o => { node := o.node, line := o.output }
  t.shutdown = true ∧ t.resetPending = .idle ∧ t.offPresent = true
    ∧ (∀ z, t.zone z = if s.enabled z then { s.zone z with staged := 0, committed := 0, offs := (t.zone z).offs }
      else { s.zone z with offs := (t.zone z).offs })
    ∧ (∀ z, outputs (t.zone z).offs = match (s.zoneEntry z).heater with
      | some h => if s.enabled z then ((outputs (s.zone z).offs).filter fun x => decide (x ≠ h)) ++ [h]
        else outputs (s.zone z).offs
      | none => outputs (s.zone z).offs)
    ∧ (∀ p, t.ejector p = { s.ejector p with offOwed := (t.ejector p).offOwed })
    ∧ (∀ p, (t.ejector p).offOwed.map OffOwed.node =
      if (s.unit p).state = .eject ∧ (s.ejector p).node ≠ none then (s.ejector p).node
      else (s.ejector p).offOwed.map OffOwed.node)
    ∧ (∃ ejectors heaters : List OwnFrame,
      t.portD = { s.portD with own := s.portD.own ++ ejectors ++ heaters }
      ∧ (ejectors ++ heaters ≠ [] → t.portD.own.length ≤ 16)
      ∧ (∀ x ∈ ejectors, ∃ p o, (t.ejector p).offOwed = some o ∧ o.placed = true
        ∧ x = { dst := o.node, src := s.ownAddress, kind := .command, payload := [5#8]
                mark := .ejectOff p o.number })
      ∧ ∀ x ∈ heaters, ∃ z o, o ∈ (t.zone z).offs ∧ o.placed = true
        ∧ x = { dst := o.node, src := s.ownAddress, kind := .heat
                payload := [BitVec.ofNat 8 o.output, 0#8, 0#8], mark := .heaterOff z o.number })
    ∧ (t.offWaits = true → 16 ≤ t.portD.own.length)
    ∧ (∃ u : State, u.OffsPlaced t
      ∧ (∀ z, (s.enabled z = false ∨ (s.zoneEntry z).heater = none) → (u.zone z).offs = (s.zone z).offs)
      ∧ (∀ z h, s.enabled z = true → (s.zoneEntry z).heater = some h → ∃ n, s.offNumber ≤ n
        ∧ (u.zone z).offs = ((s.zone z).offs.filter fun o => decide ({ node := o.node, line := o.output } ≠ h))
          ++ [{ node := h.node, output := h.line, placed := false, number := n }])
      ∧ (∀ p, (s.unit p).state ≠ .eject ∨ (s.ejector p).node = none →
        (u.ejector p).offOwed = (s.ejector p).offOwed)
      ∧ (∀ p n, (s.unit p).state = .eject → (s.ejector p).node = some n → ∃ i, s.offNumber ≤ i
        ∧ (u.ejector p).offOwed = some { node := n, placed := false, number := i })
      ∧ State.OnlyChanges [.resetPending, .shutdown, .zones, .ejectors, .offNumber] s u)
    ∧ State.OnlyChanges [.resetPending, .shutdown, .zones, .ejectors, .offNumber, .portD] s t

end Sys2Proof.Machine
end

