-- ==== Sys2Proof/Certificates/Slice0/Obligations.lean ====
section
/-! DEFINITION. The statements about the model. `s.linkActivity` is the state with the LINK pin driven on
afresh, which every accepted frame does (R26); `respond` and `originate` are said by ResponseIsSent and
JoiningAQueue, `raiseNow` by RaisingAnEvent. -/

open Sys2Proof Sys2Proof.Machine Sys2Proof.Machine.State

/-! ## Steps -/

/-- A step runs the command at the front of the queue with the queue's rest. -/
def Obligations.StepRunsFrontCommand : Prop :=
  ∀ (c : Instr) (rest : List Instr) (s : State),
    step { s with pending := c :: rest } = exec c { s with pending := rest }

/-- On an empty queue the block idles (log 3); every command answers a next state and leaves the queue. -/
def Obligations.StepAlwaysAnswers : Prop :=
  (∀ s : State, s.pending = [] → step s = .next s)
    ∧ ∀ (c : Instr) (s : State), ∃ t, exec c s = .next t ∧ t.pending = s.pending

/-! ## Invariants -/

/-- The state after reset has every law. -/
def Obligations.ResetStateHoldsLaws : Prop :=
  State.reset.Bounded ∧ State.reset.AttentionLaw ∧ State.reset.DutyLaw ∧ State.reset.WindowLaw
    ∧ State.reset.RingLaw ∧ State.reset.CycleLaw ∧ State.reset.ProgressLaw ∧ State.reset.OffLaw

/-- Queues, counters, accumulators and buffers stay within their ranges. -/
def Obligations.StepKeepsBounded : Prop :=
  ∀ s t : State, s.Bounded → step s = .next t → t.Bounded

/-- Attention is on exactly while a kind is pending, and ATTN follows it; an off frame waits only while
Port D OWN is full. -/
def Obligations.StepKeepsAttentionAndOffLaws : Prop :=
  ∀ s t : State, s.AttentionLaw → step s = .next t → t.AttentionLaw ∧ (s.OffLaw → t.OffLaw)

/-- Duties stay within the max duty, and 0 where R74 says so; a window timer runs exactly while a zone of its
press is enabled. -/
def Obligations.StepKeepsHeatLaws : Prop :=
  ∀ s t : State, s.DutyLaw → s.WindowLaw → step s = .next t → t.DutyLaw ∧ t.WindowLaw

/-- The ring's counts agree with its slots. -/
def Obligations.StepKeepsRingLaw : Prop :=
  ∀ s t : State, s.RingLaw → step s = .next t → t.RingLaw

/-- Each press unit agrees with its binding, charge, cure, OPEN record, ejector and queue entry, and each
scale's verdict with its state. -/
def Obligations.StepKeepsCycleLaw : Prop :=
  ∀ s t : State, s.CycleLaw → step s = .next t → t.CycleLaw

/-- R91, R86, R96: within a cure the progress of a press never falls, whatever the step; after it, it keeps its
value until a new cure begins, at 0 from CLOSING, or a COLD reset or power-on (cure status NONE). -/
def Obligations.CureProgressNeverFalls : Prop :=
  ∀ s t : State, s.Bounded → s.CycleLaw → s.ProgressLaw → step s = .next t →
    t.ProgressLaw
    ∧ (∀ p : PressNo, (s.cure p).status = .accruing → (t.cure p).status ≠ .none →
      (s.cure p).progress ≤ (t.cure p).progress)
    ∧ ∀ p : PressNo, (s.cure p).status ≠ .accruing → (s.cure p).status ≠ .none → (t.cure p).status ≠ .none →
      (t.cure p).progress = (s.cure p).progress
      ∨ ((s.unit p).state = .closing ∧ (t.cure p).entryTime = some s.timebase ∧ (t.cure p).progress = 0)

/-! ## Frames and encodings -/

/-- A frame that the part makes passes the receive check, and its header reads back (R6, R198). What the bytes of
numbers (R197), of kinds (R203), of each received payload (R199, R200, R203) and of a record (R202) spell. -/
def Obligations.FrameRoundTrip : Prop :=
  (∀ (dst src kind : Nat) (attention : Bool) (payload : List Byte),
    dst < 64 → src < 64 → kind < 16 → payload.length ≤ 248 →
    parseFrame (frameBytes dst src kind attention payload) =
      some { dst := dst, src := src, kind := kind, attention := attention, payload := payload
             bytes := frameBytes dst src kind attention payload })
  ∧ (∀ k n i : Nat, (natBytes k n).length = k
    ∧ (i < k → (natBytes k n)[i]? = some (BitVec.ofNat 8 (n / 256 ^ (k - 1 - i)))))
  ∧ (∀ (k : Nat) (v : Int), intBytes k v = natBytes k (v % (256 ^ k : Nat)).toNat)
  ∧ (∀ bs : List Byte, natOf bs < 256 ^ bs.length ∧ natBytes bs.length (natOf bs) = bs
    ∧ intOf bs = if 2 * natOf bs < 256 ^ bs.length then (natOf bs : Int) else natOf bs - (256 ^ bs.length : Nat))
  ∧ [FrameKind.sample, .command, .status, .mgmtReq, .mgmtResp, .heat, .verdict, .report, .event
    , .refusal].map FrameKind.code = List.range 10
  ∧ (∀ (payload : List Byte) (es : List ChannelEntry), sampleOf payload = some es ↔
    1 ≤ es.length ∧ es.length ≤ 8 ∧ payload.length = 4 * es.length
      ∧ ∀ (i : Nat) (e : ChannelEntry), es[i]? = some e →
        let b (j : Nat) : Byte := payload.getD (4 * i + j) 0#8
        e.channel = (b 0).toNat / 32
          ∧ [ChannelStatus.ok, .openSensor, .overrange, .notReady][(b 0).toNat / 8 % 4]? = some e.status
          ∧ e.value = intOf [b 1, b 2, b 3])
  ∧ (∀ (payload : List Byte) (arrival : Time) (r : PressReport), pressReportOf payload arrival = some r ↔
    let b (j : Nat) : Nat := (payload.getD j 0#8).toNat
    payload.length = 6 ∧ r.tonnage = 256 * b 1 + b 2 ∧ r.mould = 256 * b 3 + b 4
      ∧ [Position.openFull, .closing, .closedPressure, .opening, .stopped][b 0]? = some r.position
      ∧ r.cavityClear = decide (b 5 % 2 = 1) ∧ r.arrival = arrival)
  ∧ (∀ (payload : List Byte) (arrival : Time) (r : EjectorReport), ejectorReportOf payload arrival = some r ↔
    let b (j : Nat) : Nat := (payload.getD j 0#8).toNat
    payload.length = 4 ∧ r.force = 65536 * b 0 + 256 * b 1 + b 2
      ∧ [EjectorPosition.retracted, .extended][b 3]? = some r.position ∧ r.arrival = arrival)
  ∧ (∀ (payload : List Byte) (c : PressCommand), pressCommandOf payload = some c ↔ match c with
    | .close => payload = [1#8]
    | .openPlain => payload = [2#8]
    | .openEmergency => payload = [3#8]
    | .service n => n ∉ [1, 2, 3] ∧ ∃ code args, payload = code :: args ∧ code.toNat = n)
  ∧ ∀ r : Record, r.notes.length ≤ 4 → r.LaidOut (recordBytes r)

/-- Every entry that a table can hold reads back from its bytes, which hold its fields in the order of its table's
list, each at its width (R197). The order of an Export entry's filters and the bits of its sets are the model's
readings (logs 25 and 31). -/
def Obligations.TableEntryRoundTrip : Prop :=
  (∀ e : NodeEntry, e.unit < 256 → nodeEntryOf (nodeEntryBytes e) = some e)
    ∧ (∀ (e : ZoneEntry) (on : Bool), zoneRanges e = true →
        (∀ r ∈ [e.primary, e.backup, e.heater], ∀ x ∈ r, x.node ≤ 63 ∧ x.line ≤ 7) →
        zoneEntryOf (zoneEntryBytes on e) = some e)
    ∧ (∀ r : Recipe, recipeValid r = true → recipeOf (recipeBytes r) = some r)
    ∧ (∀ e : MouldEntry, e.mould < 65536 → e.recipe < 256 → mouldEntryOf (mouldEntryBytes e) = some e)
    ∧ (∀ ps : List RatePoint, rateValid ps = true → (∀ p ∈ ps, p.factor < 65536) →
        rateEntryOf (rateEntryBytes ps) = some ps)
    ∧ (∀ e : ScaleEntry, scaleRanges e = true → (∀ x ∈ channelsOf e, x.node ≤ 63 ∧ x.line ≤ 7) →
        scaleEntryOf (scaleEntryBytes e) = some e)
    ∧ (∀ e : PressEntry, pressEntryValid e = true → pressEntryOf (pressEntryBytes e) = some e)
    ∧ (∀ (own : Nat) (e : CellEntry), cellValid own e = true → cellEntryOf (cellEntryBytes e) = some e)
    ∧ (∀ e : ExportEntry, (∀ f ∈ e.filters.toList, f.low < 65536 ∧ f.high < 65536) →
        exportEntryOf (exportEntryBytes e) = some e)
    ∧ (∀ e : NodeEntry, e.LaidOut (nodeEntryBytes e))
    ∧ (∀ (e : ZoneEntry) (on : Bool), e.LaidOut on (zoneEntryBytes on e))
    ∧ (∀ r : Recipe, r.LaidOut (recipeBytes r)) ∧ (∀ e : MouldEntry, e.LaidOut (mouldEntryBytes e))
    ∧ (∀ ps : List RatePoint, ratesLaidOut ps (rateEntryBytes ps))
    ∧ (∀ e : ScaleEntry, e.LaidOut (scaleEntryBytes e)) ∧ (∀ e : PressEntry, e.LaidOut (pressEntryBytes e))
    ∧ (∀ e : CellEntry, e.LaidOut (cellEntryBytes e)) ∧ ∀ e : ExportEntry, e.LaidOut (exportEntryBytes e)

/-! ## Pins, clock and mode -/

/-- RESET_N low silences the part, no command but the pins' own then changes anything (log 5), and its
release brings every block to its Power-on values with the strap sampled (R195, R196). The timebase rises
by 1 and wraps (R8), and a change of the strap inputs changes nothing else (R4). -/
def Obligations.PinsAndClock : Prop :=
  ∀ s : State,
    exec .resetNAssert s = .next
      { s with resetHeld := true, linkPin := false, linkStart := none, attnPin := false
               portU := { s.portU with sending := none }, portD := { s.portD with sending := none } }
    ∧ (s.resetHeld = true → ∀ c : Instr, c ≠ .powerOnReset → c ≠ .resetNAssert →
        (∀ strap, c ≠ .strapChange strap) → exec c s = .next s)
    ∧ (∃ t, exec .powerOnReset s = .next t ∧ t.HoldsPowerOn s.strap ∧ t.resetHeld = false
        ∧ t.strap = s.strap ∧ t.pending = s.pending ∧ t.portU.sending = s.portU.sending
        ∧ t.portD.sending = s.portD.sending)
    ∧ (s.Settled →
      exec .timebaseTick s = .next { s with timebase := s.timebase + 1 }
      ∧ (s.timebase.toNat = 4294967295 → (s.timebase + 1).toNat = 0)
      ∧ ∀ strap : BitVec 6, exec (.strapChange strap) s = .next { s with strap := strap })

/-- R5: a PASSIVE part forwards every frame that passes the check and does nothing else. -/
def Obligations.PassiveForwards : Prop :=
  ∀ (s : State) (p : Port) (bytes : List Byte) (f : RxFrame), s.Settled → s.mode = .passive →
    (parseFrame bytes = some f →
      ((s.port p.other).fwd.length < 24 →
        exec (.passiveForward p bytes) s = .next
          (s.linkActivity.modPort p.other fun x => { x with fwd := x.fwd ++ [bytes] }))
      ∧ (24 ≤ (s.port p.other).fwd.length →
        exec (.passiveForward p bytes) s = .next s.linkActivity))
    ∧ (parseFrame bytes = none → exec (.checkFailedFrame p bytes) s = .next s)

/-! ## Received frames -/

/-- R20 and R21: a frame joins the tail of its queue, or is lost with a count and LINK_DROP. -/
def Obligations.JoiningAQueue : Prop :=
  ∀ (s : State) (p : Port), s.live = true →
    (∀ bytes : List Byte,
      ((s.port p).fwd.length < 24 →
        forwardTo p bytes s = s.modPort p fun x => { x with fwd := x.fwd ++ [bytes] })
      ∧ (24 ≤ (s.port p).fwd.length →
        forwardTo p bytes s = raiseNow .linkDrop (.port p)
          (s.modPort p fun x => { x with fwdDrops := min (x.fwdDrops + 1) 65535 })))
    ∧ ∀ (dst : Nat) (kind : FrameKind) (payload : List Byte) (mark : Mark),
      ((s.port p).own.length < 16 →
        originate p dst kind payload mark s = s.modPort p fun x => { x with own := x.own ++
          [{ dst := dst, src := s.ownAddress, kind := kind, payload := payload, mark := mark }] })
      ∧ (16 ≤ (s.port p).own.length →
        originate p dst kind payload mark s = raiseNow .linkDrop (.port p)
          (s.modPort p fun x => { x with ownDrops := min (x.ownDrops + 1) 65535 }))

/-- R17: a frame from Port U that no other rule takes goes unchanged to Port D FWD. -/
def Obligations.OtherFramesPassDown : Prop :=
  ∀ (s : State) (bytes : List Byte) (f : RxFrame), s.Passing bytes f →
    ¬((s.node f.dst).role = .press ∧ f.kind = FrameKind.command.code) →
    ¬((s.node f.dst).role = .heater ∧ f.kind = FrameKind.heat.code) →
    exec (.forwardFrame .U bytes) s = .next (s.linkActivity.forwardTo .D bytes)

/-- R19: frames from a node of role NONE, and every MGMT_REQ, go unchanged to Port U FWD. -/
def Obligations.FieldFramesPassUp : Prop :=
  ∀ (s : State) (bytes : List Byte) (f : RxFrame), s.Hears bytes f →
    (f.kind ≠ FrameKind.mgmtReq.code → (s.node f.src).role = .none →
      exec (.forwardFrame .D bytes) s = .next (s.linkActivity.forwardTo .U bytes))
    ∧ (f.kind = FrameKind.mgmtReq.code → f.dst ≠ s.ownAddress →
      exec (.fieldMgmtReq bytes) s = .next (s.linkActivity.forwardTo .U bytes))
    ∧ (f.kind = FrameKind.mgmtReq.code → f.dst = s.ownAddress →
      exec (.fieldMgmtReq bytes) s = .next
        ((s.linkActivity.modPort .D fun x =>
          { x with foreignRequests := min (x.foreignRequests + 1) 65535 }).forwardTo .U bytes))

/-- R18: a well-formed frame of the role's kind reaches its block, and then goes upward if the node's
forward-up flag is set; another frame of a served-role node only does the latter. R51, R104: the entries of a
SAMPLE are taken one by one, in list order. -/
def Obligations.ServedNodesAreConsumed : Prop :=
  (∀ (node : Nat) (k : ScaleNo) (e : ChannelEntry) (es : List ChannelEntry) (time : Time) (s : State),
    takeThermo node [] time s = s ∧ takeScale k node [] time s = s
    ∧ takeThermo node (e :: es) time s = takeThermo node es time (takeThermo node [e] time s)
    ∧ takeScale k node (e :: es) time s = takeScale k node es time (takeScale k node [e] time s))
  ∧ ∀ (s : State) (bytes : List Byte) (f : RxFrame) (es : List ChannelEntry) (k : ScaleNo) (p : PressNo)
    (a : PressReport) (b : EjectorReport), s.Hears bytes f → f.kind ≠ FrameKind.mgmtReq.code →
    ((s.node f.src).role = .thermo → f.kind = FrameKind.sample.code → sampleOf f.payload = some es →
      exec (.thermoSample bytes) s = .next
        (s.up f bytes (takeThermo f.src es s.timebase s.linkActivity)))
    ∧ (s.FromNode bytes f .scale k.val .sample → sampleOf f.payload = some es →
      exec (.scaleSample bytes) s = .next
        (s.up f bytes (takeScale k f.src es s.timebase s.linkActivity)))
    ∧ (s.FromNode bytes f .press p.val .status → pressReportOf f.payload s.timebase = some a →
      exec (.pressStatus bytes) s = .next (s.up f bytes (takePress p a s.linkActivity)))
    ∧ (s.FromNode bytes f .ejector p.val .status → ejectorReportOf f.payload s.timebase = some b →
      exec (.ejectorStatus bytes) s = .next (s.up f bytes (takeEjector p b s.linkActivity)))
    ∧ ((s.node f.src).role = .heater ∨ (s.node f.src).role = .thermo ∧ f.kind ≠ FrameKind.sample.code
        ∨ (s.node f.src).role = .scale ∧ f.kind ≠ FrameKind.sample.code
        ∨ (s.node f.src).role = .press ∧ f.kind ≠ FrameKind.status.code
        ∨ (s.node f.src).role = .ejector ∧ f.kind ≠ FrameKind.status.code →
      exec (.forwardFrame .D bytes) s = .next (s.up f bytes s.linkActivity))

/-- R7: a frame that fails the check is counted, raises LINK_CHECK and does nothing else. R9: a frame of a
served-role node that is not well formed is counted, raises LINK_CHECK, is not delivered, and still goes
upward if the forward-up flag is set. -/
def Obligations.BadFramesAreCounted : Prop :=
  (∀ (s : State) (own : Nat) (p : Port) (bytes : List Byte), s.Normal own → parseFrame bytes = none →
    exec (.checkFailedFrame p bytes) s = .next
      (raiseNow .linkCheck (.port p)
        (s.modPort p fun x => { x with checkErrors := min (x.checkErrors + 1) 65535 })))
  ∧ ∀ (s : State) (bytes : List Byte) (f : RxFrame) (unit : Nat),
    let counted := s.up f bytes (raiseNow .linkCheck (.port .D)
      (s.linkActivity.modPort .D fun x => { x with formatErrors := min (x.formatErrors + 1) 65535 }))
    (s.FromNode bytes f .thermo unit .sample → sampleOf f.payload = none →
      exec (.thermoSample bytes) s = .next counted)
    ∧ (s.FromNode bytes f .scale unit .sample → sampleOf f.payload = none →
      exec (.scaleSample bytes) s = .next counted)
    ∧ (s.FromNode bytes f .press unit .status → pressReportOf f.payload s.timebase = none →
      exec (.pressStatus bytes) s = .next counted)
    ∧ (s.FromNode bytes f .ejector unit .status → ejectorReportOf f.payload s.timebase = none →
      exec (.ejectorStatus bytes) s = .next counted)

/-- R13 and R192: frames to the own address that are not served leave only their count, and the LINK pin
on. -/
def Obligations.OwnAddressFrames : Prop :=
  ∀ (s : State) (bytes : List Byte) (f : RxFrame), s.Normal f.dst → parseFrame bytes = some f →
    (f.kind ≠ FrameKind.mgmtReq.code →
      exec (.discardOwnAddressFrame bytes) s = .next s.linkActivity)
    ∧ (f.kind = FrameKind.mgmtReq.code → f.src ≠ s.controller →
      exec (.foreignMgmtReq bytes) s = .next (s.linkActivity.modPort .U fun x =>
        { x with foreignRequests := min (x.foreignRequests + 1) 65535 }))
    ∧ (f.kind = FrameKind.mgmtReq.code → f.src = s.controller → s.resetPending ≠ .idle →
      exec (.mgmtReqDroppedPending bytes) s = .next s.linkActivity)

/-- R190: a request of an unknown code, an unnamed value or a wrong length is answered BAD_REQUEST, one that
names a unit out of range RANGE, and neither has any other effect. The fourth clause says which arguments each
code takes, and the fifth which request they spell (R204, R27, R30). -/
def Obligations.UnservedRequestsAreAnswered : Prop :=
  (∀ (s : State) (bytes : List Byte) (f : RxFrame), s.Normal f.dst → s.resetPending = .idle →
    parseFrame bytes = some f → f.kind = FrameKind.mgmtReq.code → f.src = s.controller →
    decodeRequest f.payload = none →
      exec (.mgmtBadRequest bytes) s = .next (s.linkActivity.respond f .badRequest [] .plain))
  ∧ (∀ payload : List Byte, payload.length < 2 → decodeRequest payload = none)
  ∧ (∀ (code tag : Byte) (args : List Byte), code.toNat = 0 ∨ 17 < code.toNat →
      decodeRequest (code :: tag :: args) = none)
  ∧ (∀ (code tag : Byte) (args : List Byte),
    let a (i : Nat) : Nat := (args.getD i 0#8).toNat
    let takes : Prop := match code.toNat with
      | 1 => args.length = 3 ∧ a 0 ≤ 8 ∧ 1 ≤ a 2
      | 2 => 3 ≤ args.length ∧ ∃ table, TableId.ofCode (a 0) = some table ∧ 1 ≤ a 2 ∧ a 2 ≤ table.perRequest
          ∧ args.length - 3 = if table = .rate then 1 + 4 * a 3 else a 2 * table.entryLength
      | 3 => (args.length = 4 ∧ a 1 = 0) ∨ (args.length = 2 ∧ a 1 = 1)
      | 4 => args.length = 2 ∧ a 1 ≤ 2
      | 5 => args.length = 2 ∧ a 1 ≤ 6
      | 6 => args.length = 2 ∧ a 1 = 0
      | 7 => (args.length = 3 ∧ a 0 = 1) ∨ (args.length = 2 ∧ a 0 ≤ 8 ∧ a 0 ≠ 1)
      | 8 => args.length = 6 ∧ a 0 ≤ 1
      | 9 => args.length = 2
      | 10 => args.length = 4
      | 11 => args.length = 2
      | 12 => args.length = 2
      | 13 => args.length = 4
      | 14 => args.length = 0
      | 15 => args.length = 4
      | 16 => args.length = 4
      | 17 => args.length = 1 ∧ a 0 ≤ 1
      | _ => False
    decodeRequest (code :: tag :: args) ≠ none ↔ takes)
  ∧ (∀ (code tag : Byte) (args : List Byte) (r : Request),
      decodeRequest (code :: tag :: args) = some r ↔ r.SpelledBy code.toNat args)
  ∧ (let tables : List TableId := [.node, .zone, .recipe, .mould, .rate, .scale, .press, .cell, .exports]
    tables.map TableId.code = List.range 9 ∧ tables.map TableId.entries = [64, 48, 32, 64, 4, 2, 4, 1, 1]
      ∧ tables.map TableId.perRequest = [32, 4, 4, 32, 1, 2, 4, 1, 1]
      ∧ ∀ table ∈ tables, table ≠ .rate → (table, table.entryLength) ∈
        [(.node, 3), (.zone, 20), (.recipe, 38), (.mould, 3), (.scale, 24), (.press, 7), (.cell, 6)
        , (.exports, 23)])
  ∧ ∀ (s : State) (bytes : List Byte) (f : RxFrame) (n m i j : Nat) (v : Int),
    let ranged := Host.Outcome.next (s.linkActivity.respond f .range [] .plain)
    (47 < n → (s.Asked bytes f (.setSetpoint n v) → exec (.setSetpointSet bytes) s = ranged)
      ∧ (s.Asked bytes f (.clearOverride n) → exec (.setSetpointClearOverride bytes) s = ranged)
      ∧ (s.Asked bytes f (.zoneEnable n) → exec (.zoneControlEnable bytes) s = ranged)
      ∧ (s.Asked bytes f (.zoneDisable n) → exec (.zoneControlDisable bytes) s = ranged)
      ∧ (s.Asked bytes f (.zoneRestore n) → exec (.zoneControlRestorePrimary bytes) s = ranged))
    ∧ (3 < n → (s.Asked bytes f (.pressEnable n) → exec (.pressControlEnable bytes) s = ranged)
      ∧ (s.Asked bytes f (.pressDisable n) → exec (.pressControlDisable bytes) s = ranged)
      ∧ (s.Asked bytes f (.pressReset n) → exec (.pressControlReset bytes) s = ranged)
      ∧ (s.Asked bytes f (.forceDemould n) → exec (.pressControlForceDemould bytes) s = ranged)
      ∧ (s.Asked bytes f (.setupOn n) → exec (.pressControlSetupOn bytes) s = ranged)
      ∧ (s.Asked bytes f (.setupOff n) → exec (.pressControlSetupOff bytes) s = ranged)
      ∧ (s.Asked bytes f (.step n) → exec (.pressControlStep bytes) s = ranged))
    ∧ (1 < n → s.Asked bytes f (.scaleTare n) → exec (.scaleControlTare bytes) s = ranged)
    ∧ (3 < n ∨ 1 < m →
      (s.Asked bytes f (.lockProfile n m) → exec (.lockProfile bytes) s = ranged)
      ∧ (s.Asked bytes f (.unlockProfile n m) → exec (.unlockProfile bytes) s = ranged)
      ∧ (s.Asked bytes f (.readProfile n m i j) → exec (.readProfile bytes) s = ranged))

/-- R201 and R21: a response goes to the request's source, and opens with code and tag as received (0 for an
absent byte) and the result; data follow when the result is OK. -/
def Obligations.ResponseIsSent : Prop :=
  [Result.ok, .badRequest, .range, .badEntry, .inUse, .busy, .refusedState, .notLocked
    , .unconfigured].map Result.code = List.range 9
  ∧ ∀ (s : State) (f : RxFrame) (r : Result) (data : List Byte) (m : Mark), s.live = true →
    (s.portU.own.length < 16 →
      respond f r data m s = s.modPort .U fun x => { x with own := x.own ++
        [{ dst := f.src, src := s.ownAddress, kind := .mgmtResp, mark := m
           payload := [f.payload.getD 0 0#8, f.payload.getD 1 0#8, BitVec.ofNat 8 r.code]
             ++ if r = .ok then data else [] }] })
    ∧ (16 ≤ s.portU.own.length →
      respond f r data m s = raiseNow .linkDrop (.port .U)
        (s.modPort .U fun x => { x with ownDrops := min (x.ownDrops + 1) 65535 }))

/-! ## Transmitters -/

/-- R22 and R23: an idle transmitter takes the head of OWN, else of FWD; the attention flag and the check
of an originated frame are made then. The start of a marked frame removes its off command (R79) or its owed
EJECT_OFF (R153); then waiting off frames take places of Port D, and export heads move to Port U (R181). In a
COLD shutdown all this holds while an off frame is present; when none is left the reset takes effect, at the
next command (R194, log 8). -/
def Obligations.TransmissionStarts : Prop :=
  (∀ (s : State) (p : Port), s.Quiet →
    ((s.port p).sending ≠ none ∨ ((s.port p).own = [] ∧ (s.port p).fwd = []) →
      exec (.transmitStart p) s = .next s)
    ∧ (∀ (f : OwnFrame) (rest : List OwnFrame), (s.port p).sending = none →
      (s.port p).own = f :: rest →
      exec (.transmitStart p) s = .next (afterStart p (markStarts f.mark (s.modPort p fun x =>
        { x with own := rest, sending := some ⟨frameBytes f.dst f.src f.kind.code
          (decide (p = .U) && s.attention) f.payload, f.mark⟩ }))))
    ∧ (∀ (b : List Byte) (rest : List (List Byte)), (s.port p).sending = none →
      (s.port p).own = [] → (s.port p).fwd = b :: rest →
      exec (.transmitStart p) s = .next (afterStart p (s.modPort p fun x =>
        { x with fwd := rest, sending := some ⟨b, .plain⟩ }))))
  ∧ (∀ (s : State) (p : Port), s.resetHeld = false → s.resetPending.isDue = false → s.shutdown = true →
    s.offPresent = false → ∃ t, exec (.transmitStart p) s = .next t ∧ t.HoldsPowerOn s.strap
      ∧ t.portU.sending = s.portU.sending ∧ t.portD.sending = s.portD.sending)
  ∧ (∀ s : State, markStarts .plain s = s ∧ markStarts .resetResponse s = s)
  ∧ (∀ (s : State) (z : ZoneNo) (n : Nat),
    let t := markStarts (.heaterOff z n) s
    t.zone z = { s.zone z with offs := (s.zone z).offs.filter fun o => decide (o.number ≠ n) }
      ∧ (∀ z', z' ≠ z → t.zone z' = s.zone z') ∧ OnlyChanges [.zones] s t)
  ∧ (∀ (s : State) (p : PressNo) (n : Nat),
    let t := markStarts (.ejectOff p n) s
    t.ejector p = { s.ejector p with
        offOwed := (s.ejector p).offOwed.filter fun o => decide (o.number ≠ n) }
      ∧ (∀ q, q ≠ p → t.ejector q = s.ejector q) ∧ OnlyChanges [.ejectors] s t)
  ∧ (∀ s : State, s.normal = true →
    let t := afterStart .D s
    (t.offWaits = false ∨ 16 ≤ t.portD.own.length)
      ∧ (∀ z, (t.zone z).offs.map OffCommand.unplaced = (s.zone z).offs.map OffCommand.unplaced)
      ∧ (∀ p, (t.ejector p).offOwed.map OffOwed.unplaced = (s.ejector p).offOwed.map OffOwed.unplaced)
      ∧ (∃ frames, t.portD = { s.portD with own := s.portD.own ++ frames }
        ∧ (frames ≠ [] → t.portD.own.length ≤ 16)
        ∧ ∀ x ∈ frames,
          (∃ p o, (s.ejector p).offOwed = some o ∧ o.placed = false
            ∧ x = { dst := o.node, src := s.ownAddress, kind := .command, payload := [5#8]
                    mark := .ejectOff p o.number })
          ∨ ∃ z o, o ∈ (s.zone z).offs ∧ o.placed = false
            ∧ x = { dst := o.node, src := s.ownAddress, kind := .heat
                    payload := [BitVec.ofNat 8 o.output, 0#8, 0#8], mark := .heaterOff z o.number })
      ∧ s.OffsPlaced t ∧ OnlyChanges [.zones, .ejectors, .portD] s t)
  ∧ ∀ s : State, s.live = true → s.warmTaking = false →
    let t := afterStart .U s
    (t.exportQueue = [] ∨ 12 < t.portU.own.length) ∧ t.exportQueue <:+ s.exportQueue
      ∧ (∃ frames, t.portU = { s.portU with own := s.portU.own ++ frames }
        ∧ ∀ x ∈ frames, x.kind = .report ∧ x.dst = s.controller)
      ∧ s.ExportsMoved t ∧ OnlyChanges [.exportQueue, .history, .portU] s t

/-- R22, R26 and R192: an accepted frame and the end of a transmission drive LINK on for 50 ms; the end frees
the transmitter, and after the response to a RESET request brings the reset's moment. The model's choices: an
expiry not yet due changes nothing (log 2), a transmitter left idle with frames waiting starts by its own
command (log 6), and a reset that is due takes effect at the start of the next command (log 8). -/
def Obligations.TransmissionEnds : Prop :=
  (∀ s : State, s.linkActivity = { s with linkPin := true, linkStart := some s.timebase })
  ∧ ∀ (s : State) (p : Port), s.Settled →
    ((s.port p).sending = none → exec (.transmitEnd p) s = .next s)
    ∧ (∀ f : Sending, (s.port p).sending = some f → f.mark ≠ .resetResponse →
      exec (.transmitEnd p) s = .next
        (linkActivity (s.modPort p fun x => { x with sending := none })))
    ∧ (∀ (f : Sending) (k : ResetKind), (s.port p).sending = some f → f.mark = .resetResponse →
      s.resetPending = .waiting k →
      exec (.transmitEnd p) s = .next
        { linkActivity (s.modPort p fun x => { x with sending := none }) with resetPending := .due k })
    ∧ (∀ start : Time, s.linkPin = true → s.linkStart = some start →
      (50 ≤ (s.timebase - start).toNat →
        exec .linkPinExpiry s = .next { s with linkPin := false, linkStart := none })
      ∧ ((s.timebase - start).toNat < 50 → exec .linkPinExpiry s = .next s))
    ∧ (s.linkPin = false → exec .linkPinExpiry s = .next s)

/-! ## Broadcasts, heater conflict and service commands -/

/-- R16: a HEAT frame to a HEATER node is dropped with HEATER_CONFLICT while an enabled zone has its output
there, and forwarded otherwise, as is every other kind. R15: a command that is not gated passes; one that is not well formed is
dropped with a format error and LINK_CHECK. -/
def Obligations.HeatAndServiceCommands : Prop :=
  ∀ (s : State) (bytes : List Byte) (f : RxFrame), s.Passing bytes f →
    ((s.node f.dst).role = .heater → f.kind = FrameKind.heat.code →
      ((∃ z h, s.enabled z = true ∧ (s.zoneEntry z).heater = some h ∧ h.node = f.dst) →
        exec (.heat bytes) s = .next (raiseNow .heaterConflict (.node f.dst) s.linkActivity))
      ∧ ((¬∃ z h, s.enabled z = true ∧ (s.zoneEntry z).heater = some h ∧ h.node = f.dst) →
        exec (.heat bytes) s = .next (s.linkActivity.forwardTo .D bytes)))
    ∧ ((s.node f.dst).role = .heater → f.kind ≠ FrameKind.heat.code →
      exec (.forwardFrame .U bytes) s = .next (s.linkActivity.forwardTo .D bytes))
    ∧ ((s.node f.dst).role = .press → f.kind = FrameKind.command.code →
      (∀ n, pressCommandOf f.payload = some (.service n) →
        exec (.serviceCommand bytes) s = .next (s.linkActivity.forwardTo .D bytes))
      ∧ (pressCommandOf f.payload = none →
        exec (.commandNotWellFormed bytes) s = .next (raiseNow .linkCheck (.port .U)
          (s.linkActivity.modPort .U fun x =>
            { x with formatErrors := min (x.formatErrors + 1) 65535 }))))

/-- R14: frames addressed to 63, by kind and command. -/
def Obligations.BroadcastFrames : Prop :=
  ∀ (s : State) (bytes : List Byte) (f : RxFrame), s.Hears bytes f → f.dst = 63 →
    (f.kind = FrameKind.command.code → pressCommandOf f.payload = some .close →
      exec (.broadcastCloseOpen bytes) s = .next (raiseNow .closeRefused .nothing
        (originate .U f.src .refusal [255#8, 1#8, 8#8] .plain s.linkActivity)))
    ∧ (f.kind = FrameKind.command.code → pressCommandOf f.payload = some .openPlain →
      exec (.broadcastCloseOpen bytes) s = .next (raiseNow .openRefused .nothing
        (originate .U f.src .refusal [255#8, 2#8, 8#8] .plain s.linkActivity)))
    ∧ (f.kind = FrameKind.command.code → pressCommandOf f.payload = some .openEmergency →
      exec (.broadcastOpenEmergency bytes) s = .next (each gateEmergency
        ((List.finRange 4).filter fun p => (s.nodeOf .press p.val).isSome)
        (s.linkActivity.forwardTo .D bytes)))
    ∧ (f.kind = FrameKind.heat.code → (∃ z, s.enabled z = true) →
      exec (.broadcastHeat bytes) s = .next (raiseNow .heaterConflict (.node 63) s.linkActivity))
    ∧ (f.kind = FrameKind.heat.code → (¬∃ z, s.enabled z = true) →
      exec (.broadcastHeat bytes) s = .next (s.linkActivity.forwardTo .D bytes))
    ∧ ((f.kind ≠ FrameKind.command.code ∧ f.kind ≠ FrameKind.heat.code)
        ∨ (f.kind = FrameKind.command.code ∧ pressCommandOf f.payload = none)
        ∨ (∃ n, f.kind = FrameKind.command.code ∧ pressCommandOf f.payload = some (.service n)) →
      exec (.forwardFrame .U bytes) s = .next (s.linkActivity.forwardTo .D bytes))

/-! ## The gate -/

/-- R131, R65 and R66: the conditions of a CLOSE, in their order, each with its reason. -/
def Obligations.CloseConditions : Prop :=
  ∀ (s : State) (p : PressNo),
    let mouldHeld := ∃ r b, (s.unit p).lastStatus = some r ∧ (s.unit p).binding = some b ∧ r.mould = b.mould
    let faulty := ∃ z, pressOf z = p ∧ ((s.zone z).state = .lost ∨ (s.zone z).state = .overtemp)
    let ready := ∃ r, s.boundRecipe p = some r ∧ ∀ z, pressOf z = p → s.enabled z = true →
      (s.zone z).state = .regulating ∧ (s.zone z).setpoint = (s.zone z).target
        ∧ ∃ m, (s.zone z).measured = some m ∧ |m - (s.zone z).setpoint| ≤ (r.readyBand : Int)
    ((s.unit p).state = .disabled → s.closeReason p = some .notEnabled)
    ∧ ((s.unit p).state ≠ .disabled → (s.unit p).state ≠ .chargeReady →
        s.closeReason p = some .noCharge)
    ∧ ((s.unit p).state = .chargeReady →
        (¬mouldHeld → s.closeReason p = some .mouldMismatch)
        ∧ (mouldHeld → faulty → s.closeReason p = some .zoneFault)
        ∧ (mouldHeld → ¬faulty → ¬ready → s.closeReason p = some .notAtTemp)
        ∧ (mouldHeld → ¬faulty → ready →
            (s.admission = .historyHold → s.closeReason p = some .historyHold)
            ∧ (s.admission = .historyFull → s.closeReason p = some .historyFull)
            ∧ (s.admission = .admitted → s.closeReason p = none)))

/-- R130 and R133: a CLOSE in CLOSING passes and changes nothing else; one with a reason against it is
refused. -/
def Obligations.CloseGate : Prop :=
  [Reason.notEnabled, .noCharge, .mouldMismatch, .zoneFault, .notAtTemp, .historyHold, .historyFull
    , .cureIncomplete, .broadcast].map Reason.code = List.range 9
  ∧ ∀ (s : State) (bytes : List Byte) (f : RxFrame) (p : PressNo), s.Commanded bytes f p .close →
    ((s.unit p).state = .closing →
      exec (.closeCommand bytes) s = .next (s.linkActivity.forwardTo .D bytes))
    ∧ (∀ reason, (s.unit p).state ≠ .closing → s.closeReason p = some reason →
      exec (.closeCommand bytes) s = .next (raiseNow .closeRefused (.press p)
        (originate .U f.src .refusal
          [BitVec.ofNat 8 p.val, 1#8, BitVec.ofNat 8 reason.code] .plain s.linkActivity)))

/-- R132, R57, R157, R164, R165 and R171: a CLOSE that every condition admits begins the cycle: the record
takes the slot at the write position with the next serial and the unit's binding and charge, the counts, the
hold state and the profile buffer follow, zones return to their primary where it allows, the unit enters
CLOSING, and the CLOSE joins Port D FWD. -/
def Obligations.CycleBegins : Prop :=
  ∀ (s : State) (bytes : List Byte) (f : RxFrame) (p : PressNo) (b : Binding) (c : ChargeRecord),
    s.Commanded bytes f p .close → s.closeReason p = none → (s.unit p).state = .chargeReady →
    (s.unit p).binding = some b → (s.unit p).charge = some c →
    let h := s.history
    let serial := h.nextSerial
    let buffer : Fin 2 := ⟨serial % 2, by omega⟩
    let skipped := (s.profile p buffer).locked
    ∃ t, exec (.closeCommand bytes) s = .next t
      ∧ t.unit p = { s.unit p with state := .closing, closingEntry := some s.timebase
                                   closeTimedOut := false, aborted := false, mouldChanged := false }
      ∧ (∀ q, q ≠ p → t.unit q = s.unit q)
      ∧ t.openRecord p = some
          { serial := serial, press := p, recipe := b.recipe, mould := b.mould, state := .opened
            outcome := none, charge := c, closeTime := s.timebase, pressureTime := none
            loadToPressure := none, cureEnd := none, openTime := none, unloadTime := none
            cureAchieved := 0, cureTarget := (s.tables.recipes[b.recipe]).cureTarget, included := 0
            excluded := 0, upperMin := none, upperMax := none, lowerMin := none, lowerMax := none
            peakForce := none, profileBuffer := if skipped then none else some buffer
            flags := if skipped then 1#17 <<< 14 else 0#17
            notes := [], notesDropped := 0, exported := false }
      ∧ t.history.openRecord[p] = some h.writePos
      ∧ (∀ q : PressNo, q ≠ p → t.history.openRecord[q] = h.openRecord[q])
      ∧ (∀ i : Fin 512, i ≠ h.writePos → t.history.slots[i] = h.slots[i])
      ∧ t.history.writePos.val = (h.writePos.val + 1) % 512
      ∧ (serial < 4294967295 → t.history.nextSerial = serial + 1 ∧ t.history.exhausted = h.exhausted)
      ∧ (serial = 4294967295 → t.history.nextSerial = serial ∧ t.history.exhausted = true)
      ∧ (h.slots[h.writePos] = none → t.history.stored = h.stored + 1 ∧ t.history.unread = h.unread + 1
        ∧ t.history.readCursor = h.readCursor ∧ t.exportQueue = s.exportQueue)
      ∧ (∀ old, h.slots[h.writePos] = some old → t.history.stored = h.stored
        ∧ t.exportQueue = (s.exportQueue.filter fun n => decide (n ≠ old.serial))
        ∧ (h.unread ≠ 512 → t.history.unread = h.unread + 1 ∧ t.history.readCursor = h.readCursor)
        ∧ (h.unread = 512 → t.history.unread = 512 ∧ (t.events[23]).raw = true
          ∧ t.history.readCursor.val = (h.readCursor.val + 1) % 512))
      ∧ (let marks := s.tables.cell.policy = .hold ∧ h.hold = false
            ∧ s.tables.cell.highMark ≤ t.history.unread
         (marks → t.history.hold = true ∧ (t.events[22]).raw = true)
         ∧ (¬marks → t.history.hold = h.hold))
      ∧ (skipped = false → t.profile p buffer = { phase := .filling, tag := some serial, points := []
                                                  truncated := false, nextDue := 0, locked := false })
      ∧ (∀ q x, skipped = true ∨ q ≠ p ∨ x ≠ buffer → t.profile q x = s.profile q x)
      ∧ (∀ z, t.zone z =
          if pressOf z = p ∧ s.enabled z = true ∧ (s.zone z).active = .backup ∧ s.primaryOk z = true then
            { s.zone z with active := .primary, firstSample := true }
          else s.zone z)
      ∧ (s.portD.fwd.length < 24 → t.portD = { s.portD with fwd := s.portD.fwd ++ [bytes] })
      ∧ (24 ≤ s.portD.fwd.length → (t.events[1]).raw = true
        ∧ t.portD = { s.portD with fwdDrops := min (s.portD.fwdDrops + 1) 65535 })
      ∧ OnlyChanges (.units :: .zones :: .portD :: closeParts) s.linkActivity t

/-- R137: the answer to a plain OPEN in every state. -/
def Obligations.OpenGate : Prop :=
  ∀ (s : State) (bytes : List Byte) (f : RxFrame) (p : PressNo), s.Commanded bytes f p .openPlain →
    let refused := raiseNow .openRefused (.press p)
      (originate .U f.src .refusal [BitVec.ofNat 8 p.val, 2#8, 7#8] .plain s.linkActivity)
    ((s.unit p).state = .demouldWait →
      exec (.openCommand bytes) s = .next (forwardTo .D bytes
        ((s.linkActivity.modUnit p fun u => { u with state := .opening }).modRecord p fun r =>
          { r with openTime := some s.timebase })))
    ∧ ((s.unit p).state = .closing → (s.unit p).closeTimedOut = true →
      exec (.openCommand bytes) s = .next (forwardTo .D bytes
        ((s.linkActivity.modUnit p fun u => { u with state := .opening, aborted := true }).modRecord p
          fun r => { r with openTime := some s.timebase })))
    ∧ ((s.unit p).state = .closing → (s.unit p).closeTimedOut = false →
      exec (.openCommand bytes) s = .next refused)
    ∧ ((s.unit p).state = .cure → exec (.openCommand bytes) s = .next refused)
    ∧ ((s.unit p).state ∈ [.disabled, .idle, .chargeWait, .chargeReady, .opening, .eject, .unload, .fault] →
      exec (.openCommand bytes) s = .next (s.linkActivity.forwardTo .D bytes))

/-- R138: an OPEN_EMERGENCY always passes and raises EMERGENCY_OPEN; in CLOSING, CURE and DEMOULD_WAIT it
opens the cycle as aborted, and in CURE the cure ends first (R96). The first clause says it of what each unit
makes of the command, the second of the command to one press. -/
def Obligations.EmergencyGate : Prop :=
  (∀ (s : State) (p : PressNo),
    let raised := raiseNow .emergencyOpen (.press p) s
    let opened (x : State) : State :=
      ((x.modUnit p fun u => { u with state := .opening, aborted := true }).modRecord p fun r =>
        { r with openTime := some s.timebase }).modRecord p (·.set .emergencyOpen)
    ((s.unit p).state = .closing ∨ (s.unit p).state = .demouldWait → gateEmergency p s = opened raised)
    ∧ ((s.unit p).state = .cure → (s.cure p).status = .accruing → gateEmergency p s = opened
      ((raised.modCure p fun c => { c with status := .stopped, endTime := some s.timebase }).modRecord p fun r =>
        { r with cureEnd := some s.timebase, cureAchieved := (s.cure p).progress }))
    ∧ ((s.unit p).state ∈ [.disabled, .idle, .chargeWait, .chargeReady, .opening, .eject, .unload, .fault] →
      gateEmergency p s = raised))
  ∧ ∀ (s : State) (bytes : List Byte) (f : RxFrame) (p : PressNo), s.Commanded bytes f p .openEmergency →
    let raised := raiseNow .emergencyOpen (.press p) s.linkActivity
    let opened (x : State) : State :=
      ((x.modUnit p fun u => { u with state := .opening, aborted := true }).modRecord p fun r =>
        { r with openTime := some s.timebase }).modRecord p (·.set .emergencyOpen)
    ((s.unit p).state = .closing ∨ (s.unit p).state = .demouldWait →
      exec (.openEmergency bytes) s = .next (forwardTo .D bytes (opened raised)))
    ∧ ((s.unit p).state = .cure → (s.cure p).status = .accruing →
      exec (.openEmergency bytes) s = .next (forwardTo .D bytes (opened
        ((raised.modCure p fun c => { c with status := .stopped, endTime := some s.timebase }).modRecord p
          fun r => { r with cureEnd := some s.timebase, cureAchieved := (s.cure p).progress }))))
    ∧ ((s.unit p).state ∈ [.disabled, .idle, .chargeWait, .chargeReady, .opening, .eject, .unload, .fault] →
      exec (.openEmergency bytes) s = .next (forwardTo .D bytes raised))

/-! ## Zones -/

/-- R52, R58, R59, R62: a valid sample below the limit of a regulating or holding zone, and what it leaves of
every zone. R51, R55: an entry that is not OK or out of range: SENSOR_FAULT with failover or holding where the
zone regulates by that sensor, and else its last entry alone. -/
def Obligations.SampleRegulates : Prop :=
  (∀ (s : State) (bytes : List Byte) (f : RxFrame) (e : ChannelEntry) (z : ZoneNo),
    s.Measures bytes f e → e.status = .ok → -500 ≤ e.value → e.value ≤ 6000 →
    s.sensorOf z f.src e.channel = some (s.zone z).active →
    (s.zone z).state = .regulating ∨ (s.zone z).state = .holding →
    e.value < ((s.zoneEntry z).limit : Int) →
    let c := s.zone z
    let n := s.zoneEntry z
    let err := max (-2000) (min 2000 (c.setpoint - e.value))
    let p := ((n.kp : Int) * err).tdiv 10
    let dt : Nat :=
      match c.firstSample, c.prevArrival with
      | false, some a => min (s.timebase - a).toNat (s.pressEntry (pressOf z)).maxGap
      | _, _ => 0
    let pre := (n.feedForward : Int) + p + c.integral.tdiv 1000
    let top : Int := n.maxDuty
    let integral :=
      if (top ≤ pre ∧ 0 < err) ∨ (pre ≤ 0 ∧ err < 0) then c.integral
      else max (-(top * 1000)) (min (top * 1000) (c.integral + ((n.ki : Int) * err * dt).tdiv 10))
    let last : LastEntry := { status := .ok, value := e.value, arrival := s.timebase }
    ∃ t, exec (.thermoSample bytes) s = .next t
      ∧ t.zone z = { c with
          state := .regulating, measured := some e.value, prevArrival := some s.timebase
          firstSample := false, fresh := true, holdCount := 0, integral := integral
          staged := (max 0 (min top ((n.feedForward : Int) + p + integral.tdiv 1000))).toNat
          deviationCount := (t.zone z).deviationCount, deviationNoted := (t.zone z).deviationNoted
          primaryLast := if c.active = .primary then some last else c.primaryLast
          backupLast := if c.active = .backup then some last else c.backupLast }
      ∧ (s.TakesAlone z f.src e.channel → s.Deviates t z e.value ∧ s.KeepsOthers t (pressOf z))
      ∧ (∀ z', s.sensorOf z' f.src e.channel = none → t.zone z' = s.zone z')
      ∧ OnlyChanges (.zones :: .portD :: cureParts) s.linkActivity t)
  ∧ ∀ (s : State) (bytes : List Byte) (f : RxFrame) (e : ChannelEntry) (z : ZoneNo) (x : ActiveSensor),
    s.Measures bytes f e → e.status ≠ .ok ∨ e.value < -500 ∨ 6000 < e.value →
    s.sensorOf z f.src e.channel = some x → s.TakesAlone z f.src e.channel →
    let c := s.zone z
    let w := s.pressEntry (pressOf z)
    let last : LastEntry := { status := if e.status = .ok then .overrange else e.status
                              value := e.value, arrival := s.timebase }
    let kept := s.linkActivity.modZone z fun _ => { c with
      primaryLast := if x = .primary then some last else c.primaryLast
      backupLast := if x = .backup then some last else c.backupLast }
    let faulty := raiseNow .sensorFault (.zone z) kept
    let regulates := x = c.active ∧ c.state ∈ [.regulating, .holding, .overtemp]
    let eligible := c.active = .primary ∧ (s.zoneEntry z).backup ≠ none ∧ ∃ l, c.backupLast = some l
      ∧ l.status = .ok ∧ (s.timebase - l.arrival).toNat ≤ w.holdLimit * w.period
    (¬regulates → exec (.thermoSample bytes) s = .next (s.up f bytes kept))
    ∧ (regulates → eligible → exec (.thermoSample bytes) s = .next (s.up f bytes
      ((raiseNow .sensorSwitch (.zone z) (faulty.modZone z fun d => { d with active := .backup })).modRecord
        (pressOf z) (·.set .sensorSwitched))))
    ∧ (regulates → ¬eligible → exec (.thermoSample bytes) s = .next (s.up f bytes
      (faulty.modZone z fun d =>
        { d with state := if d.state = .regulating then .holding else d.state })))

/-- R60 and R78: a valid sample at or above the limit stops the heater at once, raises OVERTEMP and marks the
record. R53: a valid sample in OVERTEMP, which leaves it 5 degrees below the limit. R54: the return of a LOST zone on
either sensor. R51: an entry of the sensor that does not regulate. -/
def Obligations.OvertempEntry : Prop :=
  (∀ (s : State) (bytes : List Byte) (f : RxFrame) (e : ChannelEntry) (z : ZoneNo),
    s.Measures bytes f e → e.status = .ok → -500 ≤ e.value → e.value ≤ 6000 →
    s.sensorOf z f.src e.channel = some (s.zone z).active → s.TakesAlone z f.src e.channel →
    (s.zone z).state = .regulating ∨ (s.zone z).state = .holding →
    ((s.zoneEntry z).limit : Int) ≤ e.value →
    let others (t : State) := (∀ z', z' ≠ z → t.zone z' = s.zone z' ∧ t.accrual z' = s.accrual z')
      ∧ s.KeepsOthers t (pressOf z)
    ∃ t, exec (.thermoSample bytes) s = .next t
      ∧ (t.zone z).state = .overtemp ∧ (t.zone z).staged = 0 ∧ (t.zone z).committed = 0
      ∧ (t.zone z).integral = (s.zone z).integral ∧ (t.zone z).measured = some e.value
      ∧ (t.zone z).holdCount = 0 ∧ (t.zone z).fresh = true
      ∧ (t.zone z).prevArrival = some s.timebase
      ∧ (t.events[6]).raw = true ∧ s.Deviates t z e.value
      ∧ (∀ r, t.openRecord (pressOf z) = some r → r.flags.getLsbD 6 = true)
      ∧ (∀ h, (s.zoneEntry z).heater = some h → s.portD.own.length < 16 →
          t.portD.own = s.portD.own ++ [{ dst := h.node, src := s.ownAddress, kind := .heat
                                          payload := [BitVec.ofNat 8 h.line, 0#8, 0#8], mark := .plain }])
      ∧ others t ∧ OnlyChanges (.zones :: .portD :: cureParts) s.linkActivity t)
  ∧ ∀ (s : State) (bytes : List Byte) (f : RxFrame) (e : ChannelEntry) (z : ZoneNo) (x : ActiveSensor),
    s.Measures bytes f e → e.status = .ok → -500 ≤ e.value → e.value ≤ 6000 →
    s.sensorOf z f.src e.channel = some x → s.TakesAlone z f.src e.channel →
    let c := s.zone z
    let n := s.zoneEntry z
    let err := max (-2000) (min 2000 (c.setpoint - e.value))
    let duty := (max 0 (min (n.maxDuty : Int) ((n.feedForward : Int) + ((n.kp : Int) * err).tdiv 10))).toNat
    let last : LastEntry := { status := .ok, value := e.value, arrival := s.timebase }
    let kept : Zone := { c with
      primaryLast := if x = .primary then some last else c.primaryLast
      backupLast := if x = .backup then some last else c.backupLast }
    let others (t : State) := (∀ z', z' ≠ z → t.zone z' = s.zone z' ∧ t.accrual z' = s.accrual z')
      ∧ s.KeepsOthers t (pressOf z)
    let taken (t : State) : Zone := { kept with
      measured := some e.value, prevArrival := some s.timebase, fresh := true, holdCount := 0
      deviationCount := (t.zone z).deviationCount, deviationNoted := (t.zone z).deviationNoted }
    (c.state = .disabled ∨ (c.state ≠ .lost ∧ x ≠ c.active) → exec (.thermoSample bytes) s = .next
      (s.up f bytes (s.linkActivity.modZone z fun _ => kept)))
    ∧ (c.state = .overtemp → x = c.active → ∃ t, exec (.thermoSample bytes) s = .next t
      ∧ s.Deviates t z e.value
      ∧ ((n.limit : Int) - 50 < e.value → t.zone z = taken t)
      ∧ (e.value ≤ (n.limit : Int) - 50 → t.zone z = { taken t with
          state := .regulating, integral := 0, firstSample := false, staged := duty })
      ∧ others t ∧ OnlyChanges (.zones :: cureParts) s.linkActivity t)
    ∧ (c.state = .lost → ∃ t, exec (.thermoSample bytes) s = .next t ∧ s.Deviates t z e.value
      ∧ (c.active ≠ x → (t.events[4]).raw = true
        ∧ ∀ r, t.openRecord (pressOf z) = some r → r.flags.getLsbD 4 = true)
      ∧ (e.value < (n.limit : Int) → t.zone z = { taken t with
          state := .regulating, active := x, integral := 0, firstSample := false, staged := duty })
      ∧ ((n.limit : Int) ≤ e.value → (t.events[6]).raw = true
        ∧ (∀ r, t.openRecord (pressOf z) = some r → r.flags.getLsbD 6 = true)
        ∧ (∀ h, n.heater = some h → s.portD.own.length < 16 →
          t.portD.own = s.portD.own ++ [{ dst := h.node, src := s.ownAddress, kind := .heat
                                          payload := [BitVec.ofNat 8 h.line, 0#8, 0#8], mark := .plain }])
        ∧ t.zone z = { taken t with state := .overtemp, active := x, integral := 0, firstSample := true
                                    staged := 0, committed := 0 })
      ∧ others t ∧ OnlyChanges (.zones :: .portD :: cureParts) s.linkActivity t)

/-- R87 to R89, R91, R94, R97: a valid sample of an INCLUDED zone is accrued. -/
def Obligations.SampleAccrues : Prop :=
  ∀ (s : State) (bytes : List Byte) (f : RxFrame) (e : ChannelEntry) (z : ZoneNo) (r : Recipe)
    (entry : Time), s.Measures bytes f e → e.status = .ok → -500 ≤ e.value → e.value ≤ 6000 →
    s.sensorOf z f.src e.channel = some (s.zone z).active → s.TakesAlone z f.src e.channel →
    (s.zone z).state ∈ [.regulating, .holding, .overtemp] →
    (s.cure (pressOf z)).status = .accruing → (s.accrual z).inclusion = .included →
    (s.cure (pressOf z)).entryTime = some entry → s.boundRecipe (pressOf z) = some r →
    let p := pressOf z
    let gap := (s.pressEntry p).maxGap
    let since := (s.timebase - ((s.accrual z).prevArrival).getD entry).toNat
    let n := rateFactor (s.rateOf r) e.value * min since gap + (s.accrual z).residue
    let full := (s.accrual z).accumulator = 4294967295
      ∨ 4294967295 < (s.accrual z).accumulator + n / 1024
    ∃ t, exec (.thermoSample bytes) s = .next t
      ∧ (¬full → t.accrual z =
          { inclusion := .included, accumulator := (s.accrual z).accumulator + n / 1024
            residue := n % 1024, prevArrival := some s.timebase })
      ∧ (full → t.accrual z = { inclusion := .included, accumulator := 4294967295, residue := 0
                                prevArrival := some s.timebase })
      ∧ (∀ z', z' ≠ z → t.accrual z' = s.accrual z')
      ∧ (∃ z', pressOf z' = p ∧ (t.accrual z').inclusion = .included
          ∧ (t.accrual z').accumulator = (t.cure p).progress)
      ∧ (∀ z', pressOf z' = p → (t.accrual z').inclusion = .included →
          (t.cure p).progress ≤ (t.accrual z').accumulator)
      ∧ (gap < since → (t.events[8]).raw = true)
      ∧ (isUpper z = true →
          (t.cure p).upperMin = some (((s.cure p).upperMin.map fun m => min m e.value).getD e.value)
          ∧ (t.cure p).upperMax = some (((s.cure p).upperMax.map fun m => max m e.value).getD e.value))
      ∧ (isUpper z = false →
          (t.cure p).lowerMin = some (((s.cure p).lowerMin.map fun m => min m e.value).getD e.value)
          ∧ (t.cure p).lowerMax = some (((s.cure p).lowerMax.map fun m => max m e.value).getD e.value))
      ∧ (let permit := (s.cure p).lost = false ∧ (s.cure p).dwellMet = true
            ∧ r.cureTarget * 1000 ≤ (t.cure p).progress
         (permit → (t.cure p).status = .permitted ∧ (t.cure p).endTime = some s.timebase
            ∧ (t.unit p).state = .demouldWait ∧ (t.events[17]).raw = true)
         ∧ (¬permit → (t.cure p).status = .accruing ∧ t.unit p = s.unit p))
      ∧ (∀ z', z' ≠ z → t.zone z' = s.zone z') ∧ s.KeepsOthers t p
      ∧ OnlyChanges (.zones :: .portD :: cureParts) s.linkActivity t

/-- R84: the rate factor, from the bound recipe's table as it stands. -/
def Obligations.RateFactor : Prop :=
  (∀ (s : State) (p : PressNo) (r : Recipe) (m : Int) (h : r.rateTable < 4),
      s.boundRecipe p = some r → s.factorAt p m = rateFactor s.tables.rates[r.rateTable] m)
  ∧ ∀ (points : List RatePoint) (m : Int), points.Pairwise (fun a b => a.temp < b.temp) →
    (∀ p rest, points = p :: rest → m < p.temp → rateFactor points m = 0)
    ∧ (∀ l p q rest, points = l ++ p :: q :: rest → p.temp ≤ m → m < q.temp →
        (rateFactor points m : Int) =
            p.factor + (((q.factor : Int) - p.factor) * (m - p.temp)).tdiv (q.temp - p.temp)
        ∧ min p.factor q.factor ≤ rateFactor points m
        ∧ rateFactor points m ≤ max p.factor q.factor)
    ∧ ∀ l p, points = l ++ [p] → p.temp ≤ m → rateFactor points m = p.factor

/-- R49, R63, R68, R80: enabling a zone. That an enable within a cure clears the noted deviation, so that the zone
can raise ZONE_DEVIATION again in that cure (R62), is the model's choice (log 28). -/
def Obligations.ZoneEnable : Prop :=
  ∀ (s : State) (bytes : List Byte) (f : RxFrame) (z : ZoneNo), s.Asked bytes f (.zoneEnable z.val) →
    let n := s.zoneEntry z
    let p := pressOf z
    let configured := (∃ a, n.primary = some a ∧ (s.node a.node).role = .thermo)
      ∧ (∃ h, n.heater = some h ∧ (s.node h.node).role = .heater)
      ∧ ∀ b, n.backup = some b → (s.node b.node).role = .thermo
    ((s.zone z).state ≠ .disabled →
      exec (.zoneControlEnable bytes) s = .next (s.linkActivity.respond f .refusedState [] .plain))
    ∧ ((s.zone z).state = .disabled → ¬configured →
      exec (.zoneControlEnable bytes) s = .next (s.linkActivity.respond f .unconfigured [] .plain))
    ∧ ((s.zone z).state = .disabled → configured →
      ∃ t, exec (.zoneControlEnable bytes) s = .next (t.respond f .ok [] .plain)
        ∧ (let base := match s.boundRecipe p, (s.zone z).overridden with
              | some r, false => ((if isUpper z then r.upper else r.lower : Nat) : Int) + n.offset
              | _, _ => (s.zone z).base
           t.zone z = { s.zone z with
              state := .regulating, active := .primary, integral := 0, holdCount := 0
              deviationCount := 0, deviationNoted := false, measured := none, firstSample := true
              fresh := false, staged := 0, grace := true, base := base
              target := max 0 (min ((n.limit : Int) - 50) base)
              offs := (s.zone z).offs.filter fun o =>
                decide (n.heater ≠ some { node := o.node, line := o.output }) })
        ∧ t.window p = (if (s.window p).running then s.window p else
            { s.window p with running := true, start := some s.timebase
                              period := (s.pressEntry p).period })
        ∧ (∀ z', z' ≠ z → t.zone z' = s.zone z') ∧ (∀ q, q ≠ p → t.window q = s.window q)
        ∧ OnlyChanges [.zones, .windows] s.linkActivity t)

/-- R50, R68, R79, R90 to R92, R94: disabling a zone shuts its heat off, owes its heater the off command, stops
the timer of a press with no enabled zone left, and excludes the zone from a cure that accrues, with the
recomputed progress and the permit test, or the loss of the cure. The model's choices: a window timer that stops
keeps the period in force (log 29), and a disabled zone its grace marker (log 30) and its hold count, deviation
noted, S, previous arrival and sample markers (log 32). -/
def Obligations.ZoneDisable : Prop :=
  ∀ (s : State) (bytes : List Byte) (f : RxFrame) (z : ZoneNo), s.Asked bytes f (.zoneDisable z.val) →
    let p := pressOf z
    ((s.zone z).state = .disabled →
      exec (.zoneControlDisable bytes) s = .next (s.linkActivity.respond f .ok [] .plain))
    ∧ ((s.zone z).state ≠ .disabled →
      ∃ t, exec (.zoneControlDisable bytes) s = .next (t.respond f .ok [] .plain)
        ∧ t.zone z = { s.zone z with state := .disabled, staged := 0, committed := 0
                                     deviationCount := 0, offs := (t.zone z).offs }
        ∧ (∀ h, (s.zoneEntry z).heater = some h →
            let kept := (s.zone z).offs.filter fun o => !(o.node == h.node && o.output == h.line)
            let off (placed : Bool) : OffCommand :=
              { node := h.node, output := h.line, placed := placed, number := s.offNumber }
            (16 ≤ s.portD.own.length →
              (t.zone z).offs = kept ++ [off false] ∧ t.portD.own = s.portD.own)
            ∧ (s.portD.own.length < 16 → s.offWaits = false →
              (t.zone z).offs = kept ++ [off true]
              ∧ t.portD.own = s.portD.own ++
                  [{ dst := h.node, src := s.ownAddress, kind := .heat
                     payload := [BitVec.ofNat 8 h.line, 0#8, 0#8], mark := .heaterOff z s.offNumber }]))
        ∧ ((∃ z', z' ≠ z ∧ pressOf z' = p ∧ s.enabled z' = true) → t.window p = s.window p)
        ∧ ((¬∃ z', z' ≠ z ∧ pressOf z' = p ∧ s.enabled z' = true) →
            t.window p = { s.window p with running := false, start := none })
        ∧ ((s.accrual z).inclusion = .included → (s.cure p).status = .accruing →
            s.Excludes t z s.timebase)
        ∧ ((s.accrual z).inclusion ≠ .included ∨ (s.cure p).status ≠ .accruing →
            (∀ z', t.accrual z' = s.accrual z') ∧ t.cure p = s.cure p ∧ t.unit p = s.unit p)
        ∧ (∀ z', z' ≠ z → s.KeepsZone t z') ∧ (∀ q, s.KeepsEjector t q) ∧ s.KeepsOthers t p
        ∧ OnlyChanges (.zones :: .windows :: .portD :: .offNumber :: .ejectors :: cureParts)
            s.linkActivity t)

/-- R56, R63, R64: restoring the primary sensor, setting and clearing a setpoint override. -/
def Obligations.SetpointAndRestore : Prop :=
  ∀ (s : State) (bytes : List Byte) (f : RxFrame) (z : ZoneNo) (v : Int),
    let target (base : Int) : Int := max 0 (min (((s.zoneEntry z).limit : Int) - 50) base)
    (s.Asked bytes f (.setSetpoint z.val v) →
      exec (.setSetpointSet bytes) s = .next
        ((s.linkActivity.modZone z fun c =>
          { c with base := v, target := target v, overridden := true }).respond f .ok
            (intBytes 2 (target v)) .plain))
    ∧ (s.Asked bytes f (.clearOverride z.val) →
      (∀ r, s.boundRecipe (pressOf z) = some r →
        let base := ((if isUpper z then r.upper else r.lower : Nat) : Int) + (s.zoneEntry z).offset
        exec (.setSetpointClearOverride bytes) s = .next
          ((s.linkActivity.modZone z fun c =>
            { c with base := base, target := target base, overridden := false }).respond f .ok [] .plain))
      ∧ (s.boundRecipe (pressOf z) = none →
        exec (.setSetpointClearOverride bytes) s = .next
          ((s.linkActivity.modZone z fun c => { c with overridden := false }).respond f .ok [] .plain)))
    ∧ (s.Asked bytes f (.zoneRestore z.val) →
      let primaryOk := ∃ l, (s.zone z).primaryLast = some l ∧ l.status = .ok
      let live := (s.zone z).state ≠ .disabled ∧ (s.zone z).state ≠ .lost
      (¬live ∨ ((s.zone z).active = .backup ∧ ¬primaryOk) →
        exec (.zoneControlRestorePrimary bytes) s =
          .next (s.linkActivity.respond f .refusedState [] .plain))
      ∧ (live → (s.zone z).active = .primary →
        exec (.zoneControlRestorePrimary bytes) s = .next (s.linkActivity.respond f .ok [] .plain))
      ∧ (live → (s.zone z).active = .backup → primaryOk →
        exec (.zoneControlRestorePrimary bytes) s = .next
          ((s.linkActivity.modZone z fun c =>
            { c with active := .primary, firstSample := true }).respond f .ok [] .plain)))

/-! ## Heat windows -/

/-- R69 to R75: a window end that is due takes the enabled zones of its press through hold counting,
failover, loss, commit and ramp, and begins the next window; one that is not due changes nothing. R90 to R92,
R94: the INCLUDED zones that it loses are excluded from a cure that accrues, until the cure is permitted. A zone
that is DISABLED at the window end keeps its grace marker: the model's choice (log 30). -/
def Obligations.WindowEnd : Prop :=
  ∀ (s : State) (own : Nat) (p : PressNo) (start : Time), s.Normal own →
    ((s.window p).running = false → exec (.windowEnd p) s = .next s)
    ∧ ((s.window p).running = true → (s.window p).start = some start →
      (s.timebase - start).toNat < (s.window p).period → exec (.windowEnd p) s = .next s)
    ∧ ((s.window p).running = true → (s.window p).start = some start →
      (s.window p).period ≤ (s.timebase - start).toNat →
      let w := s.pressEntry p
      let e := start + BitVec.ofNat 32 (s.window p).period
      ∃ t, exec (.windowEnd p) s = .next t
        ∧ t.window p = { running := true, start := some e, period := w.period, lastEnd := some e
                         placed := (t.window p).placed, lost := (t.window p).lost }
        ∧ (∀ z, pressOf z ≠ p ∨ s.enabled z = false →
            t.zone z = { s.zone z with offs := (t.zone z).offs })
        ∧ (∀ z, pressOf z = p → s.enabled z = true →
            let c := s.zone z
            let step : Int :=
              if w.ramp = 0 then c.target
              else if c.setpoint < c.target then min (c.setpoint + w.ramp) c.target
              else max (c.setpoint - w.ramp) c.target
            let taken := { c with fresh := false, grace := false, setpoint := step
                                  offs := (t.zone z).offs }
            let rises := c.fresh = false ∧ c.grace = false ∧ c.state ≠ .lost
            let count := min 15 (c.holdCount + 1)
            let held := if c.state = .regulating then ZoneState.holding else c.state
            let duty := if c.state = .overtemp then 0 else c.committed
            let backupOk := c.active = .primary ∧ (s.zoneEntry z).backup ≠ none
              ∧ ∃ l, c.backupLast = some l ∧ l.status = .ok
                ∧ (e - l.arrival).toNat ≤ w.holdLimit * w.period
            let primaryBad := c.active = .primary ∧ ¬∃ l, c.primaryLast = some l ∧ l.status = .ok
            (¬rises → t.zone z = { taken with committed :=
              if c.state = .regulating then c.staged
              else if c.state = .holding then c.committed else 0 })
            ∧ (rises → (w.holdLimit ≤ count ∨ primaryBad) → backupOk →
                t.zone z = { taken with state := held, active := .backup, holdCount := 0
                                        committed := duty }
                ∧ (t.events[4]).raw = true)
            ∧ (rises → w.holdLimit ≤ count → ¬backupOk →
                t.zone z = { taken with state := .lost, holdCount := count, staged := 0, committed := 0 }
                ∧ (t.events[5]).raw = true)
            ∧ (rises → count < w.holdLimit → ¬(primaryBad ∧ backupOk) →
                t.zone z = { taken with state := held, holdCount := count, committed := duty }))
        ∧ (let fell (z : ZoneNo) : Bool := decide (pressOf z = p ∧ (s.accrual z).inclusion = .included
              ∧ (s.zone z).state ≠ .lost ∧ (t.zone z).state = .lost)
           let remain := ∃ z, pressOf z = p ∧ (t.accrual z).inclusion = .included
           let accrues := (s.cure p).status = .accruing
           (¬accrues ∨ (∀ z, fell z = false) →
            t.cure p = s.cure p ∧ t.unit p = s.unit p ∧ ∀ z, t.accrual z = s.accrual z)
           ∧ (accrues → ∀ z, fell z = true → (∀ z', fell z' = true → z' = z) → s.Excludes t z e)
           ∧ (accrues → (t.cure p).status = .accruing →
            t.unit p = s.unit p
            ∧ (∀ z, t.accrual z =
              if fell z then { s.accrual z with inclusion := .excluded } else s.accrual z)
            ∧ (t.cure p).excluded = (s.cure p).excluded + ((zonesOf p).filter fell).length
            ∧ ((∃ z, fell z = true) →
              (∀ x, t.openRecord p = some x → x.flags.getLsbD 0 = true ∧ x.excluded = (t.cure p).excluded)
              ∧ (remain → t.LeastProgress p ∧ s.PermitTested t p e ∧ (t.cure p).lost = (s.cure p).lost)
              ∧ (¬remain → (t.cure p).lost = true ∧ (t.events[18]).raw = true
                ∧ ∀ x, t.openRecord p = some x → x.flags.getLsbD 1 = true)))
           ∧ (accrues → (t.cure p).status ≠ .accruing →
            (∃ z, fell z = true) ∧ t.LeastProgress p ∧ s.PermitTested t p e))
        ∧ (∀ q, q ≠ p → t.cure q = s.cure q ∧ t.unit q = s.unit q ∧ t.window q = s.window q)
        ∧ (∀ z, pressOf z ≠ p → t.accrual z = s.accrual z)
        ∧ OnlyChanges (.zones :: .windows :: .portD :: .profiles :: cureParts) s t)

/-- R76, R77, R80, R172, R173: the HEAT frames of a window end that is due, one for each heater node in use, in
ascending order, with the committed duties: those that find a place in Port D OWN are placed and clear the off
commands of the outputs they carry, the others are lost; and the profile point of a press that cures. That no
transmission starts between two frames of one window end is the model's choice (log 33). -/
def Obligations.WindowEndSends : Prop :=
  ∀ (s : State) (own : Nat) (p : PressNo) (start : Time), s.Normal own →
    (s.window p).running = true → (s.window p).start = some start →
    (s.window p).period ≤ (s.timebase - start).toNat →
    let e := start + BitVec.ofNat 32 (s.window p).period
    let used : List Nat := (List.range 64).filter fun n => decide (∃ z o, pressOf z = p
      ∧ s.enabled z = true ∧ (s.zoneEntry z).heater = some { node := n, line := (o : Fin 8).val })
    let sent := used.take (16 - s.portD.own.length)
    let lost := used.length - sent.length
    let carried (o : OffCommand) : Bool := decide (o.node ∈ sent ∧ o.output < 8 ∧ ∃ z, pressOf z = p
      ∧ s.enabled z = true ∧ (s.zoneEntry z).heater = some { node := o.node, line := o.output })
    ∃ t, exec (.windowEnd p) s = .next t
      ∧ (t.window p).placed = sent.length ∧ (t.window p).lost = lost
      ∧ t.portD = { s.portD with
          ownDrops := if lost = 0 then s.portD.ownDrops else min (s.portD.ownDrops + lost) 65535
          own := s.portD.own ++ sent.map fun n =>
            { dst := n, src := s.ownAddress, kind := .heat, mark := .plain
              payload := (List.range 8).flatMap fun o =>
                match (zonesOf p).find? fun z => s.enabled z
                    && (s.zoneEntry z).heater == some { node := n, line := o } with
                | some z => BitVec.ofNat 8 o :: natBytes 2 (t.zone z).committed
                | none => [] } }
      ∧ (0 < lost → (t.events[1]).raw = true)
      ∧ (∀ z, (t.zone z).offs = (s.zone z).offs.filter fun o => !carried o)
      ∧ ∀ (r : Record) (b : Fin 2) (recipe : Recipe) (entry : Time), s.openRecord p = some r →
        r.profileBuffer = some b → s.boundRecipe p = some recipe → (s.cure p).entryTime = some entry →
        (s.profile p b).phase = .filling → (t.cure p).status = .accruing →
        let offset := (e - entry).toNat
        let interval := recipe.profileInterval * 1000
        (offset < (s.profile p b).nextDue → t.profile p b = s.profile p b)
        ∧ ((s.profile p b).nextDue ≤ offset → (s.profile p b).points.length < 120 →
          ∃ temps, t.PointTemps p temps ∧ t.profile p b = { s.profile p b with
            points := (s.profile p b).points ++
              [{ offset := offset / 1000, temps := temps, progress := (t.cure p).progress / 1000 }]
            nextDue := (offset / interval + 1) * interval })
        ∧ ((s.profile p b).nextDue ≤ offset → 120 ≤ (s.profile p b).points.length →
          t.profile p b = { s.profile p b with
            truncated := true, nextDue := (offset / interval + 1) * interval }
          ∧ ∀ x, t.openRecord p = some x → x.flags.getLsbD 15 = true)

/-! ## Timers -/

/-- R93 to R95, R116, R135: the expiries of the dwell, max cure, close and lift timers, when due and when
not (log 2). The model's choices: a stopped lift timer has no start (log 23), and a scale out of EMPTY keeps its
tare-limit noted (log 34). -/
def Obligations.TimerExpiries : Prop :=
  ∀ (s : State) (own : Nat), s.Normal own →
    (∀ (p : PressNo) (r : Recipe) (start : Time), s.boundRecipe p = some r →
      let permitted := .next (((((raiseNow .cureDone (.press p) (s.modCure p fun c =>
          { c with dwellMet := true, status := .permitted })).modCure p fun c =>
            { c with endTime := some s.timebase }).modRecord p fun x =>
              { x with cureEnd := some s.timebase, cureAchieved := (s.cure p).progress }).modUnit p
                fun u => { u with state := .demouldWait }))
      let passes := (s.cure p).lost = false ∧ r.cureTarget * 1000 ≤ (s.cure p).progress
      ((s.cure p).status ≠ .accruing →
        exec (.dwellExpiry p) s = .next s ∧ exec (.maxCureExpiry p) s = .next s)
      ∧ ((s.cure p).status = .accruing → (s.cure p).entryTime = some start →
        let age := (s.timebase - start).toNat
        ((s.cure p).dwellMet = true ∨ age < r.minDwell * 1000 → exec (.dwellExpiry p) s = .next s)
        ∧ ((s.cure p).dwellMet = false → r.minDwell * 1000 ≤ age →
          (passes → exec (.dwellExpiry p) s = permitted)
          ∧ (¬passes → exec (.dwellExpiry p) s =
              .next (s.modCure p fun c => { c with dwellMet := true })))
        ∧ (age < r.maxCure * 1000 → exec (.maxCureExpiry p) s = .next s)
        ∧ (r.maxCure * 1000 ≤ age →
          (passes → exec (.maxCureExpiry p) s = permitted)
          ∧ (¬passes → exec (.maxCureExpiry p) s = .next
            ((((((raiseNow .pressTimeout (.press p) (s.modCure p fun c =>
              { c with dwellMet := true, status := .timedOut })).modRecord p (·.set .cureTimeout)).modCure
                p fun c => { c with endTime := some s.timebase }).modRecord p fun x =>
                  { x with cureEnd := some s.timebase, cureAchieved := (s.cure p).progress }).modUnit p
                    fun u => { u with state := .demouldWait })))))
      ∧ ((s.unit p).state ≠ .closing ∨ (s.unit p).closeTimedOut = true →
        exec (.closeTimerExpiry p) s = .next s)
      ∧ ((s.unit p).state = .closing → (s.unit p).closeTimedOut = false →
        (s.unit p).closingEntry = some start →
        ((s.timebase - start).toNat < r.closeTimeout * 1000 → exec (.closeTimerExpiry p) s = .next s)
        ∧ (r.closeTimeout * 1000 ≤ (s.timebase - start).toNat →
          exec (.closeTimerExpiry p) s = .next ((raiseNow .pressTimeout (.press p)
            (s.modUnit p fun u => { u with closeTimedOut := true })).modRecord p (·.set .closeTimeout)))))
    ∧ ∀ (k : ScaleNo) (start : Time),
      ((s.scale k).state ≠ .lifting → exec (.liftTimerExpiry k) s = .next s)
      ∧ ((s.scale k).state = .lifting → (s.scale k).liftStart = some start →
        ((s.timebase - start).toNat < (s.scale k).liftTime → exec (.liftTimerExpiry k) s = .next s)
        ∧ ((s.scale k).liftTime ≤ (s.timebase - start).toNat →
          exec (.liftTimerExpiry k) s = .next (s.modScale k fun c =>
            { c with state := .loading, verdict := none, liftStart := none })))

/-! ## Scales -/

/-- R104 to R109, R111 to R113: the channel entries of a scale, and the gross values they form in SINGLE, SUM
and CHECK mode, in EMPTY, LOADING, OVERLOAD and MISMATCH, and above the capacity in any weighing state. The
model's choices: a scale whose lift timer stops holds no lift start (log 23), and one that leaves EMPTY keeps its
tare-limit noted (log 34). -/
def Obligations.WeighedLoad : Prop :=
  (∀ (s : State) (bytes : List Byte) (f : RxFrame) (k : ScaleNo) (e : ChannelEntry) (g : Int) (c : Scale),
    s.Forms bytes f k e g c →
    let n := s.scaleEntry k
    let w := (if c.window.length < n.windowN then c.window
      else c.window.drop (c.window.length + 1 - n.windowN)) ++ [g]
    let mean := w.sum.tdiv (n.windowN : Int)
    let becomes (c' : Scale) := exec (.scaleSample bytes) s = .next
      (s.up f bytes (s.linkActivity.modScale k fun _ => c'))
    let emptied : Scale := { c with
      state := .empty, window := [g], verdict := none, liftStart := none, tareNoted := false }
    ((n.capacity : Int) < g → c.state ∈ [.empty, .loading, .noRequest, .accepted, .rejected, .lifting] →
      exec (.scaleSample bytes) s = .next (s.up f bytes (raiseNow .scaleOverload (.scale k)
        (s.linkActivity.modScale k fun _ => { c with
          state := .overload, window := [], verdict := none, liftStart := none, agree := 0 }))))
    ∧ (c.state = .overload →
      (g ≤ n.capacity → g - c.tare < n.emptyThreshold → becomes emptied)
      ∧ ((n.capacity : Int) < g ∨ (n.emptyThreshold : Int) ≤ g - c.tare → becomes c))
    ∧ (g ≤ n.capacity → c.state = .empty →
      ((n.loadThreshold : Int) ≤ g - c.tare →
        becomes { c with state := .loading, window := [g] })
      ∧ (g - c.tare < n.loadThreshold → ¬n.Steady w ∨ n.zeroTrack = 0 →
        becomes { c with window := w })
      ∧ (g - c.tare < n.loadThreshold → n.Steady w → n.zeroTrack ≠ 0 →
        (|mean - c.tare| ≤ n.zeroTrack →
          becomes { c with window := w, tare := mean, tareNoted := false })
        ∧ ((n.zeroTrack : Int) < |mean - c.tare| → c.tareNoted = true → becomes { c with window := w })
        ∧ ((n.zeroTrack : Int) < |mean - c.tare| → c.tareNoted = false →
          exec (.scaleSample bytes) s = .next (s.up f bytes (raiseNow .tareLimit (.scale k)
            (s.linkActivity.modScale k fun _ => { c with window := w, tareNoted := true }))))))
    ∧ (g ≤ n.capacity → c.state = .loading →
      (g - c.tare < n.emptyThreshold → becomes emptied)
      ∧ ((n.emptyThreshold : Int) ≤ g - c.tare → ¬n.Steady w → becomes { c with window := w })
      ∧ ((n.emptyThreshold : Int) ≤ g - c.tare → n.Steady w → ∀ head, s.Heads c head →
        ∃ t, exec (.scaleSample bytes) s = .next (s.up f bytes t)
          ∧ s.Evaluated t k { c with window := w } head mean none
          ∧ OnlyChanges (.scales :: raiseParts) s.linkActivity t)))
  ∧ ∀ (s : State) (bytes : List Byte) (f : RxFrame) (k : ScaleNo) (e : ChannelEntry),
    s.FromNode bytes f .scale k.val .sample → sampleOf f.payload = some [e] →
    let c := s.scale k
    let n := s.scaleEntry k
    let here : Option NodeRef := some { node := f.src, line := e.channel }
    let last : Option LastEntry := some { status := e.status, value := e.value, arrival := s.timebase }
    let counted := min (c.skipped + 1) 65535
    let becomes (c' : Scale) := exec (.scaleSample bytes) s = .next
      (s.up f bytes (s.linkActivity.modScale k fun _ => c'))
    (n.channelA ≠ here → n.channelB ≠ here →
      exec (.scaleSample bytes) s = .next (s.up f bytes s.linkActivity))
    ∧ (n.channelA = here →
      (c.state = .disabled → becomes { c with lastA := last })
      ∧ (c.state ≠ .disabled → e.status ≠ .ok → becomes { c with
          lastA := last, skipped := counted, heldA := if n.mode = .single then c.heldA else none })
      ∧ (c.state ≠ .disabled → e.status = .ok → n.mode ≠ .single → becomes { c with
          lastA := last, heldA := some { value := e.value, arrival := s.timebase } }))
    ∧ (n.channelA ≠ here → n.channelB = here →
      (c.state = .disabled → becomes { c with lastB := last })
      ∧ (c.state ≠ .disabled → e.status ≠ .ok → becomes { c with lastB := last, skipped := counted })
      ∧ (c.state ≠ .disabled → e.status = .ok → n.mode = .single → becomes { c with lastB := last })
      ∧ (c.state ≠ .disabled → e.status = .ok → n.mode ≠ .single →
        (c.heldA = none → becomes { c with lastB := last, skipped := counted })
        ∧ ∀ a, c.heldA = some a → n.mode = .check →
          let paired : Scale := { c with lastB := last, heldA := none }
          let g := (a.value + e.value).tdiv 2
          ((n.checkBand : Int) < |a.value - e.value| →
            (c.state = .mismatch → becomes { paired with agree := 0 })
            ∧ (c.state ≠ .mismatch → exec (.scaleSample bytes) s = .next
              (s.up f bytes (raiseNow .scaleMismatch (.scale k) (s.linkActivity.modScale k fun _ =>
                { paired with
                  state := .mismatch, window := [], verdict := none, liftStart := none, agree := 0 })))))
          ∧ (|a.value - e.value| ≤ (n.checkBand : Int) → c.state = .mismatch →
            ((n.capacity : Int) < g → exec (.scaleSample bytes) s = .next
              (s.up f bytes (raiseNow .scaleOverload (.scale k) (s.linkActivity.modScale k fun _ =>
                { paired with
                  state := .overload, window := [], verdict := none, liftStart := none, agree := 0 }))))
            ∧ (g ≤ n.capacity → c.agree + 1 < 8 → becomes { paired with agree := c.agree + 1 })
            ∧ (g ≤ n.capacity → 8 ≤ c.agree + 1 → (n.loadThreshold : Int) ≤ g - c.tare →
              becomes { paired with state := .loading, window := [g], agree := 0 })
            ∧ (g ≤ n.capacity → 8 ≤ c.agree + 1 → g - c.tare < n.loadThreshold →
              becomes { paired with state := .empty, window := [g], verdict := none, liftStart := none
                                    tareNoted := false, agree := 0 }))))

/-- R110, R114, R115, R119, R120: TARE; under a verdict, the load that rests, is lifted, reloaded, or leaves the
pan and is released to the head press; and the change of head. The model's choices: a scale out of LIFTING holds no
lift start (log 23), and one out of EMPTY keeps its tare-limit noted (log 34). -/
def Obligations.TareAndRelease : Prop :=
  (∀ (s : State) (bytes : List Byte) (f : RxFrame) (k : ScaleNo), s.Asked bytes f (.scaleTare k.val) →
    let c := s.scale k
    let mean := c.window.sum.tdiv ((s.scaleEntry k).windowN : Int)
    (c.state = .empty ∧ (s.scaleEntry k).Steady c.window →
      exec (.scaleControlTare bytes) s = .next
        ((s.linkActivity.modScale k fun c => { c with tare := mean, tareNoted := false }).respond f .ok
          (intBytes 4 mean) .plain))
    ∧ (¬(c.state = .empty ∧ (s.scaleEntry k).Steady c.window) →
      exec (.scaleControlTare bytes) s = .next (s.linkActivity.respond f .busy [] .plain)))
  ∧ (∀ (s : State) (bytes : List Byte) (f : RxFrame) (k : ScaleNo) (e : ChannelEntry) (g : Int) (c : Scale)
    (v : Verdict), s.Forms bytes f k e g c → g ≤ (s.scaleEntry k).capacity → c.verdict = some v →
    let n := s.scaleEntry k
    let emptied (queue : List QueueEntry) (x : State) := x.modScale k fun _ => { c with
      state := .empty, window := [g], verdict := none, liftStart := none, tareNoted := false
      queue := queue }
    let verdictStates : List ScaleState := [.accepted, .rejected, .noRequest]
    (g - c.tare < n.emptyThreshold →
      c.state = .rejected ∨ c.state = .noRequest ∨ (c.state = .lifting ∧ v.kind ≠ .accepted) →
      exec (.scaleSample bytes) s = .next (s.up f bytes (emptied c.queue s.linkActivity)))
    ∧ (∀ (q : QueueEntry) (rest : List QueueEntry) (r : Recipe), g - c.tare < n.emptyThreshold →
      c.state = .accepted ∨ (c.state = .lifting ∧ v.kind = .accepted) → c.queue = q :: rest →
      s.boundRecipe q.press = some r →
      exec (.scaleSample bytes) s = .next (s.up f bytes (emptied rest
        (s.linkActivity.modUnit q.press fun u => { u with
          state := .chargeReady
          charge := some { scale := k, net := v.net, mean := v.mean, tare := c.tare
                           target := r.chargeTarget, tolMinus := r.tolMinus, tolPlus := r.tolPlus
                           attempts := q.attempts, release := s.timebase } }))))
    ∧ ((n.emptyThreshold : Int) ≤ g - c.tare → c.state ∈ verdictStates →
      (|g - v.mean| ≤ n.settleBand →
        exec (.scaleSample bytes) s = .next (s.up f bytes (s.linkActivity.modScale k fun _ => c)))
      ∧ ((n.settleBand : Int) < |g - v.mean| →
        exec (.scaleSample bytes) s = .next (s.up f bytes (s.linkActivity.modScale k fun _ =>
          { c with state := .lifting, window := [g], liftStart := some s.timebase
                   liftTime := n.liftTime }))))
    ∧ ((n.emptyThreshold : Int) ≤ g - c.tare → c.state = .lifting →
      let w := (if c.window.length < n.windowN then c.window
        else c.window.drop (c.window.length + 1 - n.windowN)) ++ [g]
      let mean := w.sum.tdiv (n.windowN : Int)
      (¬(n.Steady w ∧ (n.loadThreshold : Int) ≤ mean - c.tare) →
        exec (.scaleSample bytes) s = .next
          (s.up f bytes (s.linkActivity.modScale k fun _ => { c with window := w })))
      ∧ (n.Steady w → (n.loadThreshold : Int) ≤ mean - c.tare → ∀ head, s.Heads c head →
        ∃ t, exec (.scaleSample bytes) s = .next (s.up f bytes t)
          ∧ s.Evaluated t k { c with window := w, liftStart := none } head mean none
          ∧ OnlyChanges (.scales :: raiseParts) s.linkActivity t)))
  ∧ ∀ (s : State) (k : ScaleNo) (change : List QueueEntry → List QueueEntry)
    (head : Option (PressNo × Recipe)), s.live = true →
    let c := { s.scale k with queue := change (s.scale k).queue }
    s.Heads c head → s.Requeued (requeue k change s) k c head
      ∧ OnlyChanges (.scales :: raiseParts) s (requeue k change s)

/-! ## Press units -/

/-- R124 and R125: PRESS_CONTROL ENABLE and DISABLE, by state. -/
def Obligations.PressEnableDisable : Prop :=
  ∀ (s : State) (bytes : List Byte) (f : RxFrame) (p : PressNo),
    let st := (s.unit p).state
    let hasNode := ∃ a, a < 64 ∧ (s.node a).role = .press ∧ (s.node a).unit = p.val
    (s.Asked bytes f (.pressEnable p.val) →
      (st = .disabled → hasNode → exec (.pressControlEnable bytes) s = .next
        ((s.linkActivity.modUnit p fun u => { u with state := .idle, bindFault := .none }).respond f .ok
          [] .plain))
      ∧ (st = .disabled → ¬hasNode → exec (.pressControlEnable bytes) s =
          .next (s.linkActivity.respond f .unconfigured [] .plain))
      ∧ (st ≠ .disabled → (s.unit p).haltPending = true → exec (.pressControlEnable bytes) s = .next
        ((s.linkActivity.modUnit p fun u => { u with haltPending := false }).respond f .ok [] .plain))
      ∧ (st ≠ .disabled → (s.unit p).haltPending = false → exec (.pressControlEnable bytes) s =
          .next (s.linkActivity.respond f .refusedState [] .plain)))
    ∧ (s.Asked bytes f (.pressDisable p.val) →
      (st = .disabled → exec (.pressControlDisable bytes) s =
          .next (s.linkActivity.respond f .ok [] .plain))
      ∧ (st = .idle → exec (.pressControlDisable bytes) s = .next
        ((s.linkActivity.modUnit p fun u => { u with state := .disabled, bindFault := .none }).respond f
          .ok [] .plain))
      ∧ (st = .chargeWait → ∃ t, exec (.pressControlDisable bytes) s = .next (t.respond f .ok [] .plain)
        ∧ t.unit p = { s.unit p with state := .disabled, binding := none, charge := none }
        ∧ (∀ k, (t.scale k).queue.map QueueEntry.press
            = ((s.scale k).queue.map QueueEntry.press).filter (· ≠ p))
        ∧ (∀ q, q ≠ p → t.unit q = s.unit q) ∧ s.LeavesQueue t p
        ∧ OnlyChanges (.units :: .scales :: raiseParts) s.linkActivity t)
      ∧ (st = .chargeReady → exec (.pressControlDisable bytes) s = .next
        (((raiseNow .chargeDiscard (.press p)
          (s.linkActivity.modUnit p fun u => { u with charge := none })).modUnit p fun u =>
            { u with state := .disabled, binding := none, charge := none }).respond f .ok [] .plain))
      ∧ (st.inCycle = true ∨ st = .fault → exec (.pressControlDisable bytes) s = .next
        ((s.linkActivity.modUnit p fun u => { u with haltPending := true }).respond f .ok [] .plain)))

/-- R142 and R136, with R154 and R161: PRESS_CONTROL RESET in every state, and FORCE_DEMOULD. That a stopped
ejector timer has no start is the model's choice (log 23). -/
def Obligations.PressResetAndForceDemould : Prop :=
  ∀ (s : State) (bytes : List Byte) (f : RxFrame) (p : PressNo),
    let st := (s.unit p).state
    (s.Asked bytes f (.pressReset p.val) →
      (st = .disabled → exec (.pressControlReset bytes) s =
          .next (s.linkActivity.respond f .ok [] .plain))
      ∧ (st = .idle → exec (.pressControlReset bytes) s = .next
        ((s.linkActivity.modUnit p fun u => { u with bindFault := .none }).respond f .ok [] .plain))
      ∧ (st ≠ .disabled → st ≠ .idle → s.UnitLaw p →
        ∃ t, exec (.pressControlReset bytes) s = .next (t.respond f .ok [] .plain)
          ∧ t.unit p = { s.unit p with
              state := if (s.unit p).haltPending then .disabled else .idle
              haltPending := false, binding := none, bindFault := .none, charge := none
              closingEntry := none, closeTimedOut := false, aborted := false, mouldChanged := false }
          ∧ (∀ q, q ≠ p → t.unit q = s.unit q)
          ∧ (st = .cure → t.cure p = { s.cure p with status := .stopped, endTime := some s.timebase })
          ∧ (st ≠ .cure → t.cure p = s.cure p)
          ∧ (st ≠ .eject → (∀ z, t.zone z = s.zone z) ∧ ∀ q, t.ejector q = s.ejector q)
          ∧ (st = .eject → t.ejector p = { s.ejector p with
              phase := .stopped, timerStart := none, offOwed := (t.ejector p).offOwed })
          ∧ (∀ z, s.KeepsZone t z) ∧ s.KeepsOthers t p ∧ (st = .chargeWait → s.LeavesQueue t p)
          ∧ (st ≠ .chargeWait → ∀ k, t.scale k = s.scale k)
          ∧ (st = .cure → (t.cure p).status = .stopped ∧ (t.cure p).endTime = some s.timebase
            ∧ (t.cure p).progress = (s.cure p).progress)
          ∧ (st = .eject → (t.ejector p).phase = .stopped ∧ (t.ejector p).timerStart = none
            ∧ ∀ n, (s.ejector p).node = some n → (t.ejector p).offOwed.map OffOwed.node = some n)
          ∧ (st.inCycle = true → t.history.openRecord[p] = none
            ∧ ∃ i r, s.history.openRecord[p] = some i ∧ t.history.slots[i] = some r
              ∧ r.state = .closed ∧ r.outcome = some .aborted)
          ∧ (st = .chargeWait → p ∉ t.queuedPresses)
          ∧ (st = .chargeReady → (t.events[13]).raw = true)
          ∧ OnlyChanges (.units :: .cures :: .scales :: .ejectors :: .zones :: .offNumber :: .portD
              :: closeParts) s.linkActivity t))
    ∧ (s.Asked bytes f (.forceDemould p.val) →
      (st ≠ .cure → exec (.pressControlForceDemould bytes) s =
          .next (s.linkActivity.respond f .refusedState [] .plain))
      ∧ (st = .cure → (s.cure p).status = .accruing →
        exec (.pressControlForceDemould bytes) s = .next
          ((((((s.linkActivity.modCure p fun c =>
            { c with status := .stopped, endTime := some s.timebase }).modRecord p fun r =>
              { r with cureEnd := some s.timebase, cureAchieved := (s.cure p).progress }).modRecord p
                (·.set .forcedDemould)).modUnit p fun u => { u with state := .demouldWait })).respond f
                  .ok [] .plain)))

/-- R127, R63, R117, R119: a binding attempt of an IDLE unit, each failed test and the success. R128: the mould
test of a unit that waits for a charge or holds one. The queue of a recipe whose scale is out of range is the
model's choice (its number modulo 2, log 19). -/
def Obligations.BindingAttempt : Prop :=
  (∀ (s : State) (bytes : List Byte) (f : RxFrame) (p : PressNo) (a : PressReport),
    s.FromNode bytes f .press p.val .status → pressReportOf f.payload s.timebase = some a →
    (s.unit p).state = .idle →
    let fails (x : BindFault) := exec (.pressStatus bytes) s = .next (s.up f bytes
      (s.linkActivity.modUnit p fun u => { u with lastStatus := some a, bindFault := x }))
    let reference := ∃ z, pressOf z = p ∧ s.enabled z = true ∧ (s.zoneEntry z).cureReference = true
    (a.mould = 0 ∨ (∀ m ∈ s.tables.moulds.toList, m.mould ≠ a.mould) → fails .mouldUnknown)
    ∧ ∀ (m : MouldEntry) (h : m.recipe < 32), s.slotFor a.mould = some m →
      let r := s.tables.recipes[m.recipe]
      (r.valid = false ∨ r.mould ≠ a.mould → fails .recipeInvalid)
      ∧ (r.valid = true → r.mould = a.mould → (s.rateOf r).length < 2 → fails .rateInvalid)
      ∧ (r.valid = true → r.mould = a.mould → 2 ≤ (s.rateOf r).length → ¬reference →
          fails .noReference)
      ∧ (r.valid = true → r.mould = a.mould → 2 ≤ (s.rateOf r).length → reference →
        ∃ t, exec (.pressStatus bytes) s = .next (s.up f bytes t)
          ∧ t.unit p = { s.unit p with
              lastStatus := some a, binding := some { recipe := ⟨m.recipe, h⟩, mould := a.mould }
              bindFault := .none, state := .chargeWait }
          ∧ (∀ q, q ≠ p → t.unit q = s.unit q)
          ∧ (∀ z, pressOf z = p → s.enabled z = true → (s.zone z).overridden = false →
              let base := ((if isUpper z then r.upper else r.lower : Nat) : Int)
                + (s.zoneEntry z).offset
              t.zone z = { s.zone z with
                base := base, target := max 0 (min (((s.zoneEntry z).limit : Int) - 50) base) })
          ∧ (∀ z, pressOf z ≠ p ∨ s.enabled z = false ∨ (s.zone z).overridden = true →
              t.zone z = s.zone z)
          ∧ (∀ k : ScaleNo, k.val = r.scale % 2 → (t.scale k).queue.map QueueEntry.press
              = (s.scale k).queue.map QueueEntry.press ++ [p])
          ∧ (∀ k : ScaleNo, k.val = r.scale % 2 → s.Requeued t k
              { s.scale k with queue := (s.scale k).queue ++
                [{ press := p, attempts := 0, joined := s.timebase }] } (some (p, r)))
          ∧ (∀ k : ScaleNo, k.val ≠ r.scale % 2 → t.scale k = s.scale k)
          ∧ OnlyChanges (.units :: .zones :: .scales :: raiseParts) s.linkActivity t))
  ∧ ∀ (s : State) (bytes : List Byte) (f : RxFrame) (p : PressNo) (a : PressReport) (b : Binding),
    s.FromNode bytes f .press p.val .status → pressReportOf f.payload s.timebase = some a →
    (s.unit p).binding = some b →
    let differs := a.mould ≠ 0 ∧ a.mould ≠ b.mould
    (¬differs → (s.unit p).state ∈ [.chargeWait, .chargeReady] →
      exec (.pressStatus bytes) s = .next (s.up f bytes
        (s.linkActivity.modUnit p fun u => { u with lastStatus := some a })))
    ∧ (differs → (s.unit p).state = .chargeReady →
      exec (.pressStatus bytes) s = .next (s.up f bytes
        ((raiseNow .chargeDiscard (.press p)
          (s.linkActivity.modUnit p fun u => { u with lastStatus := some a, charge := none })).modUnit p
            fun u => { u with state := .idle, binding := none })))
    ∧ (differs → (s.unit p).state = .chargeWait →
      ∃ t, exec (.pressStatus bytes) s = .next (s.up f bytes t)
        ∧ t.unit p = { s.unit p with
            state := .idle, binding := none, charge := none, lastStatus := some a }
        ∧ (∀ q, q ≠ p → t.unit q = s.unit q)
        ∧ (∀ k, (t.scale k).queue.map QueueEntry.press
            = ((s.scale k).queue.map QueueEntry.press).filter (· ≠ p))
        ∧ s.LeavesQueue t p ∧ OnlyChanges (.units :: .scales :: raiseParts) s.linkActivity t)

/-- R134, R85, R86, R62: the pressure frame that begins a cure, and the frames that do not. R129, R136: the mould
test of a unit in its cycle, and the pressure loss in CURE. That a zone which is NOT_IN_CURE keeps its previous
accrual arrival is the model's choice (log 27; R85 is silent on it). -/
def Obligations.PressureBeginsCure : Prop :=
  (∀ (s : State) (bytes : List Byte) (f : RxFrame) (p : PressNo) (a : PressReport) (b : Binding)
    (c : ChargeRecord) (rec : Record), s.FromNode bytes f .press p.val .status →
    pressReportOf f.payload s.timebase = some a → (s.unit p).state = .closing →
    (s.unit p).binding = some b → (s.unit p).charge = some c → s.openRecord p = some rec →
    let r := s.tables.recipes[b.recipe]
    let pressed := a.position = .closedPressure ∧ r.minTonnage ≤ a.tonnage
      ∧ (s.unit p).closeTimedOut = false
    let counts (z : ZoneNo) := pressOf z = p ∧ s.enabled z = true ∧ (s.zoneEntry z).cureReference = true
    let load := (s.timebase - c.release).toNat
    (¬pressed → ∃ t, exec (.pressStatus bytes) s = .next (s.up f bytes t)
      ∧ (t.unit p).state = .closing ∧ t.cure p = s.cure p
      ∧ s.KeepsOthers t p ∧ OnlyChanges (.units :: raiseParts) s.linkActivity t)
    ∧ (pressed → 1 ≤ r.cureTarget → ∃ t, exec (.pressStatus bytes) s = .next (s.up f bytes t)
      ∧ (t.unit p).state = .cure
      ∧ (t.cure p).status = .accruing ∧ (t.cure p).entryTime = some s.timebase
      ∧ (t.cure p).dwellMet = decide (r.minDwell = 0) ∧ (t.cure p).progress = 0
      ∧ (t.cure p).endTime = none ∧ (t.cure p).upperMin = none ∧ (t.cure p).upperMax = none
      ∧ (t.cure p).lowerMin = none ∧ (t.cure p).lowerMax = none
      ∧ (t.cure p).included = ((zonesOf p).filter fun z => decide (counts z)).length
      ∧ ((t.cure p).lost = false ↔ ∃ z, counts z ∧ (s.zone z).state ≠ .lost)
      ∧ (∀ z, counts z → t.accrual z =
          { inclusion := if (s.zone z).state = .lost then .excluded else .included
            accumulator := 0, residue := 0, prevArrival := none })
      ∧ (∀ z, pressOf z = p → ¬counts z →
          t.accrual z = { s.accrual z with inclusion := .notInCure })
      ∧ (∀ z, t.zone z = if pressOf z = p then
          { s.zone z with deviationCount := 0, deviationNoted := false } else s.zone z)
      ∧ (∃ rec', t.openRecord p = some rec' ∧ rec'.pressureTime = some s.timebase
        ∧ rec'.loadToPressure = some load
        ∧ (r.loadLimit * 1000 < load → rec'.flags.getLsbD 8 = true))
      ∧ s.KeepsOthers t p ∧ OnlyChanges (.zones :: cureParts) s.linkActivity t))
  ∧ ∀ (s : State) (bytes : List Byte) (f : RxFrame) (p : PressNo) (a : PressReport) (b : Binding),
    s.FromNode bytes f .press p.val .status → pressReportOf f.payload s.timebase = some a →
    (s.unit p).binding = some b →
    let r := s.tables.recipes[b.recipe]
    let changes := a.mould ≠ 0 ∧ a.mould ≠ b.mould ∧ (s.unit p).mouldChanged = false
    let kept := s.linkActivity.modUnit p fun u => { u with lastStatus := some a }
    let marked := (raiseNow .mouldChange (.press p) (s.linkActivity.modUnit p fun u =>
      { u with lastStatus := some a, mouldChanged := true })).modRecord p (·.set .mouldChanged)
    let lossOf (x : State) := if a.tonnage < r.minTonnage then x.modRecord p (·.set .pressureLoss) else x
    ((s.unit p).state ∈ [.demouldWait, .eject] →
      (changes → exec (.pressStatus bytes) s = .next (s.up f bytes marked))
      ∧ (¬changes → exec (.pressStatus bytes) s = .next (s.up f bytes kept)))
    ∧ ((s.unit p).state = .cure →
      (changes → exec (.pressStatus bytes) s = .next (s.up f bytes (lossOf marked)))
      ∧ (¬changes → exec (.pressStatus bytes) s = .next (s.up f bytes (lossOf kept))))
    ∧ ((s.unit p).state ∈ [.closing, .opening] → changes →
      ∃ t, exec (.pressStatus bytes) s = .next (s.up f bytes t) ∧ (t.unit p).mouldChanged = true
        ∧ (t.events[21]).raw = true ∧ (∀ x, t.openRecord p = some x → x.flags.getLsbD 12 = true)
        ∧ s.KeepsOthers t p)
    ∧ ((s.unit p).state = .unload → a.cavityClear = false →
      (changes → exec (.pressStatus bytes) s = .next (s.up f bytes marked))
      ∧ (¬changes → exec (.pressStatus bytes) s = .next (s.up f bytes kept)))
    ∧ ((s.unit p).state = .unload → changes →
      ∃ t, exec (.pressStatus bytes) s = .next (s.up f bytes t) ∧ (t.events[21]).raw = true
        ∧ ∀ i x, s.history.openRecord[p] = some i → t.history.slots[i] = some x → x.flags.getLsbD 12 = true)

/-- R155, R139, R161: a frame in UNLOAD without the cavity-clear flag leaves the unit there; one with it closes
the record and takes the unit on; OPEN_FULL ends the opening. The queue of a recipe whose scale is out of range is the
model's choice (log 19). -/
def Obligations.OpeningAndUnload : Prop :=
  ∀ (s : State) (bytes : List Byte) (f : RxFrame) (p : PressNo) (a : PressReport) (b : Binding),
    s.FromNode bytes f .press p.val .status → pressReportOf f.payload s.timebase = some a →
    (s.unit p).binding = some b →
    let changed := (s.unit p).mouldChanged = true ∨ (a.mould ≠ 0 ∧ a.mould ≠ b.mould)
    let r := s.tables.recipes[b.recipe]
    ((s.unit p).state = .unload → a.cavityClear = false →
      ∃ t, exec (.pressStatus bytes) s = .next (s.up f bytes t) ∧ (t.unit p).state = .unload
        ∧ s.KeepsOthers t p ∧ OnlyChanges (.units :: raiseParts) s.linkActivity t)
    ∧ ((s.unit p).state = .unload → a.cavityClear = true → s.UnitLaw p →
      ∃ t, exec (.pressStatus bytes) s = .next (s.up f bytes t)
        ∧ (t.unit p).charge = none ∧ (t.unit p).closingEntry = none
        ∧ (t.unit p).closeTimedOut = false ∧ (t.unit p).aborted = false
        ∧ ((s.unit p).haltPending = true → (t.unit p).state = .disabled
          ∧ (t.unit p).binding = none ∧ (t.unit p).haltPending = false)
        ∧ ((s.unit p).haltPending = false → changed → (t.unit p).state = .idle
          ∧ (t.unit p).binding = none ∧ (t.unit p).bindFault = .none)
        ∧ ((s.unit p).haltPending = false → ¬changed → (t.unit p).state = .chargeWait
          ∧ (t.unit p).binding = some b
          ∧ ∀ k : ScaleNo, k.val = r.scale % 2 → (t.scale k).queue.map QueueEntry.press
              = (s.scale k).queue.map QueueEntry.press ++ [p])
        ∧ t.history.openRecord[p] = none
        ∧ (∃ i x, s.history.openRecord[p] = some i ∧ t.history.slots[i] = some x
          ∧ x.state = .closed ∧ x.unloadTime = some s.timebase
          ∧ ((s.unit p).aborted = true → x.outcome = some .aborted)
          ∧ ((s.unit p).aborted = false → x.outcome ≠ some .aborted ∧ x.outcome ≠ none))
        ∧ (∀ k : ScaleNo, (s.unit p).haltPending = true ∨ changed ∨ k.val ≠ r.scale % 2 →
          t.scale k = s.scale k)
        ∧ s.KeepsOthers t p ∧ OnlyChanges (.units :: .scales :: closeParts) s.linkActivity t)
    ∧ ((s.unit p).state = .opening → a.position ≠ .openFull →
      ∃ t, exec (.pressStatus bytes) s = .next (s.up f bytes t) ∧ (t.unit p).state = .opening
        ∧ s.KeepsOthers t p ∧ OnlyChanges (.units :: raiseParts) s.linkActivity t)
    ∧ ((s.unit p).state = .opening → a.position = .openFull → (s.unit p).aborted = true →
      ∃ t, exec (.pressStatus bytes) s = .next (s.up f bytes t) ∧ (t.unit p).state = .unload
        ∧ s.KeepsOthers t p ∧ OnlyChanges (.units :: raiseParts) s.linkActivity t)
    ∧ ((s.unit p).state = .opening → a.position = .openFull → (s.unit p).aborted = false →
      ∃ t, exec (.pressStatus bytes) s = .next (s.up f bytes t) ∧ (t.unit p).state = .eject
        ∧ (t.ejector p).node = s.nodeOf .ejector p.val ∧ (t.ejector p).compareA = r.ejectA
        ∧ (t.ejector p).compareB = r.ejectB ∧ (t.ejector p).stuckForce = r.stuckForce
        ∧ (t.ejector p).peak = none
        ∧ (0 < r.ejectA → (t.ejector p).phase = .runToA ∧ (t.ejector p).timerStart = some s.timebase)
        ∧ (r.ejectA = 0 → (t.ejector p).phase =
            if (s.ejector p).setup then .heldAtA else .runToB)
        ∧ s.KeepsOthers t p ∧ OnlyChanges (.units :: .ejectors :: .portD :: raiseParts) s.linkActivity t)

/-! ## Ejection -/

/-- R147 to R150, R153: compare A and compare B, when due and when not, with and without setup mode; SETUP_ON,
SETUP_OFF and STEP. The numbers of off frames (log 10), and that a stopped timer has no start (log 23), are the model's
own. -/
def Obligations.EjectionControl : Prop :=
  ∀ (s : State) (p : PressNo),
    let e := s.ejector p
    let on (x : State) := match e.node with
      | some n => x.originate .D n .command [4#8] .plain
      | none => x
    let stopped (x : State) : State := (x.modEjector p fun e =>
      { e with phase := .stopped, timerStart := none }).modUnit p fun u => { u with state := .unload }
    let owed (n : Nat) (placed : Bool) (x : State) : State :=
      { x with offNumber := x.offNumber + 1 }.modEjector p fun e =>
        { e with offOwed := some { node := n, placed := placed, number := x.offNumber } }
    let ended (x t : State) : Prop :=
      (e.node = none → 16 ≤ x.portD.own.length ∨ x.offWaits = false → t = stopped x)
      ∧ ∀ n, e.node = some n →
        (16 ≤ x.portD.own.length → t = stopped (owed n false x))
        ∧ (x.portD.own.length < 16 → x.offWaits = false →
          t = (stopped (owed n true x)).modPort .D fun y => { y with own := y.own ++
            [{ dst := n, src := s.ownAddress, kind := .command, payload := [5#8]
               mark := .ejectOff p x.offNumber }] })
    (∀ own, s.Normal own → (e.phase ≠ .runToA → exec (.compareA p) s = .next s)
      ∧ (e.phase ≠ .runToB → exec (.compareB p) s = .next s)
      ∧ ∀ start, e.timerStart = some start →
      let reading := (s.timebase - start).toNat
      (reading < e.compareA → exec (.compareA p) s = .next s)
      ∧ (e.phase = .runToA → e.compareA ≤ reading →
        (e.setup = false → exec (.compareA p) s = .next ((on s).modEjector p fun e =>
          { e with phase := .runToB }))
        ∧ (e.setup = true → exec (.compareA p) s = .next ((s.modEjector p fun e =>
          { e with phase := .heldAtA, timerStart := none }).modRecord p (·.set .setup))))
      ∧ (reading < e.compareB → exec (.compareB p) s = .next s)
      ∧ (e.phase = .runToB → e.compareB ≤ reading →
        (e.setup = false → ∃ t, exec (.compareB p) s = .next t ∧ ended s t)
        ∧ (e.setup = true → exec (.compareB p) s = .next ((s.modEjector p fun e =>
          { e with phase := .heldAtB, timerStart := none }).modRecord p (·.set .setup)))))
    ∧ ∀ (bytes : List Byte) (f : RxFrame),
      let setup (b : Bool) := Host.Outcome.next
        ((s.linkActivity.modEjector p fun e => { e with setup := b }).respond f .ok [] .plain)
      (s.Asked bytes f (.setupOn p.val) → exec (.pressControlSetupOn bytes) s = setup true)
      ∧ (s.Asked bytes f (.setupOff p.val) → exec (.pressControlSetupOff bytes) s = setup false)
      ∧ (s.Asked bytes f (.step p.val) →
        (e.phase ≠ .heldAtA → e.phase ≠ .heldAtB → exec (.pressControlStep bytes) s =
          .next (s.linkActivity.respond f .refusedState [] .plain))
        ∧ (e.phase = .heldAtA → exec (.pressControlStep bytes) s = .next
          (((on s.linkActivity).modEjector p fun e =>
            { e with timerStart := some (s.timebase - BitVec.ofNat 32 e.compareA)
                     phase := .runToB }).respond f .ok [] .plain))
        ∧ (e.phase = .heldAtB → ∃ t, exec (.pressControlStep bytes) s = .next (t.respond f .ok [] .plain)
          ∧ ended s.linkActivity t))

/-- R151, R152: an ejector's force is kept in every phase, watched while the ejector is commanded on, and a
force above the stuck force ends the ejection in FAULT. That the stopped timer has no start is the model's
choice (log 23). -/
def Obligations.EjectorForce : Prop :=
  ∀ (s : State) (bytes : List Byte) (f : RxFrame) (p : PressNo) (a : EjectorReport),
    s.FromNode bytes f .ejector p.val .status → ejectorReportOf f.payload s.timebase = some a →
    let e := s.ejector p
    let on := e.phase = .runToB ∨ e.phase = .heldAtB
    let peaks := ∀ m, e.peak = some m → m < a.force
    (¬on ∨ (a.force ≤ e.stuckForce ∧ ¬peaks) → exec (.ejectorStatus bytes) s = .next (s.up f bytes
      (s.linkActivity.modEjector p fun e => { e with lastStatus := some a })))
    ∧ (on → a.force ≤ e.stuckForce → peaks → exec (.ejectorStatus bytes) s = .next (s.up f bytes
      ((s.linkActivity.modEjector p fun e =>
        { e with lastStatus := some a, peak := some a.force }).modRecord p fun r =>
          { r with peakForce := some a.force })))
    ∧ (on → e.stuckForce < a.force → ∃ t, exec (.ejectorStatus bytes) s = .next (s.up f bytes t)
      ∧ t.unit p = { s.unit p with state := .fault }
      ∧ (t.ejector p).phase = .stopped ∧ (t.ejector p).timerStart = none
      ∧ (t.ejector p).lastStatus = some a
      ∧ (peaks → (t.ejector p).peak = some a.force) ∧ (¬peaks → (t.ejector p).peak = e.peak)
      ∧ (∀ n, e.node = some n → (t.ejector p).offOwed.map OffOwed.node = some n)
      ∧ t.ejector p = { e with phase := .stopped, timerStart := none, lastStatus := some a
                               peak := (t.ejector p).peak, offOwed := (t.ejector p).offOwed }
      ∧ (∀ z, s.KeepsZone t z) ∧ s.KeepsOthers t p ∧ (t.events[20]).raw = true
      ∧ (∀ i r, s.history.openRecord[p] = some i → s.history.slots[i] = some r →
        t.history.openRecord[p] = none ∧ ∃ r', t.history.slots[i] = some r' ∧ r'.state = .closed
          ∧ r'.outcome = some .reject ∧ r'.flags.getLsbD 11 = true)
      ∧ OnlyChanges (.units :: .ejectors :: .zones :: .offNumber :: .portD :: closeParts)
          s.linkActivity t)

/-! ## History and export -/

/-- R160, R161, R163, R173, R179, R180: the close of a record and its outcome, the admission of a new one, the
export filter, and the export queue that a closed record joins. Bit i of a record's flags is the i-th flag of
section 9.1's list. Bit i of the outcome set is the i-th outcome and of the press set press i (log 31). That a
record which closes within a WARM reset only waits in the queue until the reset's last step is said by the model's
own flag warmTaking (log 11). -/
def Obligations.RecordJudgements : Prop :=
  (∀ (r : Record) (cause : CloseCause) (t : Time),
    let has (i : Nat) : Prop := r.flags.getLsbD i = true
    let aborts := cause = .endAborted ∨ cause = .pressReset ∨ cause = .warmReset
    let rejects := cause = .fault ∨ has 2 ∨ has 11 ∨ (has 1 ∧ ¬has 9)
    let suspects := has 0 ∨ has 4 ∨ has 5 ∨ has 6 ∨ has 7 ∨ has 8 ∨ has 9 ∨ has 12 ∨ has 13
    let out := (closedRecord cause t r).outcome
    (aborts → out = some .aborted) ∧ (¬aborts → rejects → out = some .reject)
      ∧ (¬aborts → ¬rejects → suspects → out = some .suspect)
      ∧ (¬aborts → ¬rejects → ¬suspects → out = some .good))
  ∧ (∀ s : State,
    let cell := s.tables.cell
    let atCursorOpen := ∃ r, s.history.slots[s.history.readCursor] = some r ∧ r.state = .opened
    (s.history.exhausted = true → s.admission = .historyFull)
    ∧ (s.history.exhausted = false →
      (cell.policy = .hold → s.history.hold = true → s.admission = .historyHold)
      ∧ (cell.policy = .hold → s.history.hold = false → s.admission = .admitted)
      ∧ (cell.policy = .overwrite → s.history.unread ≠ 512 ∨ ¬atCursorOpen → s.admission = .admitted)
      ∧ (cell.policy = .overwrite → s.history.unread = 512 → atCursorOpen →
        s.admission = .historyFull)))
  ∧ (∀ (e : ExportEntry) (r : Record) (o : RecordOutcome), r.outcome = some o →
    let covers (g : Filter) := g.low ≤ r.mould ∧ r.mould ≤ g.high
    (exportPasses e r = true ↔ e.enable = true
      ∧ e.outcomes.getLsbD (match o with | .good => 0 | .suspect => 1 | .reject => 2 | .aborted => 3) = true
      ∧ e.presses.getLsbD r.press.val = true
      ∧ (∀ g ∈ e.filters.toList, g.mode = .reject → ¬covers g)
      ∧ ((∃ g ∈ e.filters.toList, g.mode = .accept) →
        ∃ g ∈ e.filters.toList, g.mode = .accept ∧ covers g)))
  ∧ (∀ (s : State) (p : PressNo) (cause : CloseCause) (time : Time) (i : Fin 512) (r : Record),
    s.history.openRecord[p] = some i → s.history.slots[i] = some r →
    let x := closedRecord cause time r
    let closed := s.modHistory fun h =>
      { h with slots := h.slots.set i (some x), openRecord := h.openRecord.set p none }
    x = { r with state := .closed, outcome := x.outcome
                 flags := if cause = .warmReset then r.flags ||| 1#17 <<< 16 else r.flags
                 unloadTime := if cause = .endOfCycle ∨ cause = .endAborted then some time
                   else r.unloadTime }
      ∧ (r.profileBuffer = none → closeRecord p cause time s = handToExport x closed)
      ∧ ∀ b, r.profileBuffer = some b → closeRecord p cause time s =
        handToExport x (closed.modProfile p b fun y => { y with phase := .complete }))
  ∧ ∀ (s : State) (r : Record),
    (exportPasses s.tables.exports r = false → handToExport r s = s)
    ∧ (exportPasses s.tables.exports r = true → s.exportQueue.length < 16 →
      (12 < s.portU.own.length ∨ s.warmTaking = true →
        handToExport r s = { s with exportQueue := s.exportQueue ++ [r.serial] })
      ∧ (s.portU.own.length ≤ 12 → s.warmTaking = false → s.live = true →
        ∃ t, handToExport r s = t ∧ ({ s with exportQueue := s.exportQueue ++ [r.serial] } : State).ExportsMoved t
          ∧ t.exportQueue <:+ s.exportQueue ++ [r.serial] ∧ (t.exportQueue = [] ∨ 12 < t.portU.own.length)
          ∧ OnlyChanges [.exportQueue, .history, .portU] s t))
    ∧ (exportPasses s.tables.exports r = true → 16 ≤ s.exportQueue.length →
      handToExport r s = raiseNow .exportOverflow .nothing s)

/-- R167 to R169, R165: READ_HISTORY, ADVANCE_READ and SET_SERIAL_BASE. -/
def Obligations.HistoryRequests : Prop :=
  ∀ (s : State) (bytes : List Byte) (f : RxFrame),
    let h := s.history
    let answered (r : Result) (data : List Byte) :=
      Host.Outcome.next (s.linkActivity.respond f r data .plain)
    (∀ (start : Option Nat) (n : Nat), s.Asked bytes f (.readHistory start n) →
      let from' (i : Fin 512) (r : Record) : Prop :=
        (n = 1 → exec (.readHistory bytes) s = answered .ok (recordBytes r))
        ∧ (n = 2 → nextSlot i = h.writePos →
          exec (.readHistory bytes) s = answered .ok (recordBytes r))
        ∧ ∀ r', n = 2 → nextSlot i ≠ h.writePos → h.slots[nextSlot i] = some r' →
          exec (.readHistory bytes) s = answered .ok (recordBytes r ++ recordBytes r')
      (n = 0 ∨ 2 < n → exec (.readHistory bytes) s = answered .range [])
      ∧ (n = 1 ∨ n = 2 →
        (start = none → h.unread = 0 → exec (.readHistory bytes) s = answered .ok [])
        ∧ (∀ r, start = none → h.unread ≠ 0 → h.slots[h.readCursor] = some r → from' h.readCursor r)
        ∧ (∀ serial, start = some serial → (∀ i r, h.slots[(i : Fin 512)] = some r → r.serial ≠ serial) →
          exec (.readHistory bytes) s = answered .range [])
        ∧ ∀ (serial : Nat) (i : Fin 512) (r : Record), start = some serial → h.slots[i] = some r →
          r.serial = serial →
          (∀ j r', h.slots[(j : Fin 512)] = some r' → r'.serial = serial → j = i) → from' i r))
    ∧ (∀ n, s.Asked bytes f (.advanceRead n) →
      (n = 0 ∨ 512 < n → exec (.advanceRead bytes) s = answered .range [])
      ∧ (1 ≤ n → n ≤ 512 → ∃ m, m ≤ n ∧ m ≤ h.unread
        ∧ (let slot (j : Nat) := h.slots[(h.readCursor.val + j) % 512]'(Nat.mod_lt _ (by decide))
          (∀ j, j < m → ∀ r, slot j = some r → r.state ≠ .opened)
          ∧ (m = n ∨ m = h.unread ∨ ∃ r, slot m = some r ∧ r.state = .opened))
        ∧ exec (.advanceRead bytes) s = .next ((s.linkActivity.modHistory fun h => { h with
            readCursor := ⟨(h.readCursor.val + m) % 512, Nat.mod_lt _ (by decide)⟩
            unread := h.unread - m
            hold := h.hold && !(decide (s.tables.cell.policy = .hold)
              && decide (h.unread - m ≤ s.tables.cell.lowMark)) }).respond f .ok (natBytes 2 m) .plain)))
    ∧ ∀ v, s.Asked bytes f (.setSerialBase v) →
      let open' := ∃ p : PressNo, h.openRecord[p] ≠ none
      let newest := h.slots[prevSlot h.writePos]
      (open' → exec (.setSerialBase bytes) s = answered .inUse [])
      ∧ (∀ r, ¬open' → newest = some r → v ≤ r.serial → exec (.setSerialBase bytes) s = answered .range [])
      ∧ (¬open' → (∀ r, newest = some r → r.serial < v) → exec (.setSerialBase bytes) s = .next
        ((s.linkActivity.modHistory fun h => { h with nextSerial := v }).respond f .ok (natBytes 4 v)
          .plain))

/-- R174 and R175: LOCK_PROFILE, UNLOCK_PROFILE and READ_PROFILE. -/
def Obligations.ProfileRequests : Prop :=
  ∀ (s : State) (bytes : List Byte) (f : RxFrame) (p : PressNo) (b : Fin 2),
    let x := s.profile p b
    let answered (r : Result) (data : List Byte) :=
      Host.Outcome.next (s.linkActivity.respond f r data .plain)
    let locked (on : Bool) := Host.Outcome.next
      ((s.linkActivity.modProfile p b fun x => { x with locked := on }).respond f .ok
        (natBytes 1 (match x.phase with | .empty => 0 | .filling => 1 | .complete => 2)
          ++ (match x.tag with | some n => 1#8 :: natBytes 4 n | none => List.replicate 5 0#8)
          ++ [if on then 1#8 else 0#8]) .plain)
    (s.Asked bytes f (.lockProfile p.val b.val) →
      (x.phase = .filling → exec (.lockProfile bytes) s = answered .busy [])
      ∧ (x.phase ≠ .filling → exec (.lockProfile bytes) s = locked true))
    ∧ (s.Asked bytes f (.unlockProfile p.val b.val) → exec (.unlockProfile bytes) s = locked false)
    ∧ ∀ first n, s.Asked bytes f (.readProfile p.val b.val first n) →
      (x.locked = false → exec (.readProfile bytes) s = answered .notLocked [])
      ∧ (x.locked = true → n = 0 ∨ 24 < n ∨ x.points.length < first →
        exec (.readProfile bytes) s = answered .range [])
      ∧ (x.locked = true → 1 ≤ n → n ≤ 24 → first ≤ x.points.length →
        exec (.readProfile bytes) s = answered .ok
          (natBytes 4 (x.tag.getD 0)
            ++ natBytes 1 ((match x.phase with | .empty => 0 | .filling => 1 | .complete => 2)
              + if x.truncated then 128 else 0)
            ++ natBytes 1 x.points.length
            ++ ((x.points.drop first).take n).flatMap fun y =>
              match y.temps with
              | some (low, high) => natBytes 2 (y.offset % 32768 + 32768) ++ intBytes 2 low
                  ++ intBytes 2 high ++ natBytes 3 y.progress
              | none => natBytes 2 (y.offset % 32768) ++ [0#8, 0#8, 0#8, 0#8] ++ natBytes 3 y.progress))

/-- R181, R153, R79: the export queue's head moves while 4 places are free; owed EJECT_OFF frames and waiting
off commands take free places, ejector frames first. -/
def Obligations.ExportAndOffPlacement : Prop :=
  ∀ (s : State) (own : Nat), s.Normal own →
    (s.exportQueue = [] ∨ 12 < s.portU.own.length → exec .exportMove s = .next s)
    ∧ (∀ (n : Nat) (rest : List Nat) (i : Fin 512) (r : Record), s.warmTaking = false →
      s.exportQueue = n :: rest → s.portU.own.length ≤ 12 → s.history.slots[i] = some r → r.serial = n →
      (∀ j r', s.history.slots[(j : Fin 512)] = some r' → r'.serial = n → j = i) →
      ∃ t, exec .exportMove s = .next t
        ∧ t.history.slots[i] = some { r with exported := true }
        ∧ s.portU.own ++ [{ dst := s.controller, src := s.ownAddress, kind := .report, mark := .plain
                            payload := recordBytes { r with exported := true } }] <+: t.portU.own
        ∧ t.exportQueue <:+ rest ∧ (t.exportQueue = [] ∨ 12 < t.portU.own.length)
        ∧ s.ExportsMoved t ∧ OnlyChanges [.exportQueue, .history, .portU] s t)
    ∧ (16 ≤ s.portD.own.length ∨ s.offWaits = false →
      exec .ejectOffPlace s = .next s ∧ exec .offCommandPlace s = .next s)
    ∧ (∀ (p : PressNo) (o : OffOwed), s.portD.own.length < 16 →
      (∀ q, q < p → ∀ o', (s.ejector q).offOwed = some o' → o'.placed = true) →
      (s.ejector p).offOwed = some o → o.placed = false →
      let frame : OwnFrame := { dst := o.node, src := s.ownAddress, kind := .command, payload := [5#8]
                                mark := .ejectOff p o.number }
      (∃ t, exec .ejectOffPlace s = .next t ∧ s.portD.own ++ [frame] <+: t.portD.own
        ∧ (t.ejector p).offOwed = some { o with placed := true }
        ∧ OnlyChanges [.ejectors, .portD] s t)
      ∧ ∃ t, exec .offCommandPlace s = .next t ∧ s.portD.own ++ [frame] <+: t.portD.own
        ∧ (t.ejector p).offOwed = some { o with placed := true }
        ∧ OnlyChanges [.ejectors, .zones, .portD] s t)
    ∧ (∀ (z : ZoneNo) (l r : List OffCommand) (o : OffCommand), s.portD.own.length < 16 →
      (∀ q o', (s.ejector q).offOwed = some o' → o'.placed = true) →
      (∀ z', z' < z → ∀ o' ∈ (s.zone z').offs, o'.placed = true) →
      (s.zone z).offs = l ++ o :: r → (∀ o' ∈ l, o'.placed = true) → o.placed = false →
      ∃ t, exec .offCommandPlace s = .next t
        ∧ s.portD.own ++ [{ dst := o.node, src := s.ownAddress, kind := .heat
                            payload := [BitVec.ofNat 8 o.output, 0#8, 0#8]
                            mark := .heaterOff z o.number }] <+: t.portD.own
        ∧ { o with placed := true } ∈ (t.zone z).offs
        ∧ OnlyChanges [.zones, .portD] s t)

/-! ## Events -/

/-- R184, R185, R159: a raise updates its kind's entry, then attention with its one EVENT frame and its pin,
and is noted in the OPEN record of its press, or of each press bound to its scale; with a port, a node or no instance
it is noted nowhere. An EVENT frame that finds Port U OWN full is dropped and counted, and its LINK_DROP composes no
second one. -/
def Obligations.RaisingAnEvent : Prop :=
  [EventKind.linkCheck, .linkDrop, .heaterConflict, .sensorFault, .sensorSwitch, .zoneLost, .overtemp
    , .zoneDeviation, .sampleGap, .chargeReject, .tareLimit, .scaleMismatch, .scaleOverload, .chargeDiscard
    , .closeRefused, .openRefused, .emergencyOpen, .cureDone, .cureLost, .pressTimeout, .ejectStuck
    , .mouldChange, .historyMark, .historyLoss, .exportOverflow].map EventKind.number = List.finRange 25
  ∧ ∀ (s : State) (k : EventKind) (i : EventOn),
    let noted (p : PressNo) : Prop := i = .press p ∨ (∃ z, i = .zone z ∧ pressOf z = p)
      ∨ ∃ c r, i = .scale c ∧ s.boundRecipe p = some r ∧ r.scale = c.val
    let notes (t : State) : Prop :=
      t.history = { s.history with slots := t.history.slots }
      ∧ (∀ j : Fin 512, (∀ p, noted p → s.history.openRecord[p] ≠ some j) →
          t.history.slots[j] = s.history.slots[j])
      ∧ ∀ (p : PressNo) (j : Fin 512) (r : Record), noted p → s.history.openRecord[p] = some j →
          (∀ q, q ≠ p → s.history.openRecord[q] ≠ some j) → s.history.slots[j] = some r →
          t.history.slots[j] = some (if r.notes.length < 4 then
            { r with notes := r.notes ++ [{ time := s.timebase, kind := k, inst := i.code }] }
            else { r with notesDropped := min 255 (r.notesDropped + 1) })
    (s.live = false → raiseNow k i s = s)
    ∧ (s.live = true → s.warmTaking = false → s.portU.own.length < 16 ∨ s.attention = true →
      let t := raiseNow k i s
      let n := k.number
      let old := s.events[n]
      (t.events[n] = { raw := true, enable := old.enable, first := if old.raw then old.first else i.code
                       time := if old.raw then old.time else some s.timebase
                       count := min 255 (old.count + 1) })
      ∧ (∀ j : Fin 25, j ≠ n → t.events[j] = s.events[j])
      ∧ (t.attention = true ↔ old.enable = true
          ∨ ∃ j : Fin 25, s.events[j].raw = true ∧ s.events[j].enable = true)
      ∧ t.attnPin = (if s.attention && t.attention then s.attnPin else t.attention)
      ∧ t.portU = (if t.attention && !s.attention then
          { s.portU with own := s.portU.own ++ [{
              dst := s.controller, src := s.ownAddress, kind := .event, mark := .plain
              payload := timeBytes s.timebase ++ listBytes
                (fun k : Fin 25 => [BitVec.ofNat 8 k.val, BitVec.ofNat 8 t.events[k].first,
                  BitVec.ofNat 8 t.events[k].count])
                ((List.finRange 25).filter fun k => t.events[k].raw && t.events[k].enable) }] }
          else s.portU)
      ∧ (∀ p r, i = .press p ∨ (∃ z, i = .zone z ∧ pressOf z = p) → s.openRecord p = some r →
          t.openRecord p = some (if r.notes.length < 4 then
            { r with notes := r.notes ++ [{ time := s.timebase, kind := k, inst := i.code }] }
            else { r with notesDropped := min 255 (r.notesDropped + 1) }))
      ∧ notes t ∧ OnlyChanges raiseParts s t)
    ∧ (s.live = true → s.warmTaking = false → 16 ≤ s.portU.own.length → s.attention = false →
      let t := raiseNow k i s
      let raised (e : EventEntry) (code : Nat) : EventEntry :=
        { raw := true, enable := e.enable, first := if e.raw then e.first else code
          time := if e.raw then e.time else some s.timebase, count := min 255 (e.count + 1) }
      let once (j : Fin 25) := if j = k.number then raised s.events[j] i.code else s.events[j]
      let pends := ∃ j : Fin 25, (once j).raw = true ∧ (once j).enable = true
      (¬pends → (∀ j : Fin 25, t.events[j] = once j) ∧ t.attention = false ∧ t.attnPin = false
        ∧ t.portU = s.portU)
      ∧ (pends → (∀ j : Fin 25, t.events[j] = if j = 1 then raised (once j) 0 else once j)
        ∧ t.attention = true ∧ t.attnPin = true
        ∧ t.portU = { s.portU with ownDrops := min 65535 (s.portU.ownDrops + 1) })
      ∧ notes t ∧ OnlyChanges raiseParts s t)

/-- R186 to R188: CLEAR_EVENTS, SET_EVENT_ENABLE and READ_EVENTS. -/
def Obligations.EventRequests : Prop :=
  ∀ (s : State) (bytes : List Byte) (f : RxFrame), s.AttentionLaw →
    (∀ kinds, s.Asked bytes f (.clearEvents kinds) →
      (2 ^ 25 ≤ kinds.toNat →
        exec (.clearEvents bytes) s = .next (s.linkActivity.respond f .range [] .plain))
      ∧ (kinds.toNat < 2 ^ 25 → ∃ t, exec (.clearEvents bytes) s =
          .next (t.respond f .ok [if t.attention then 1#8 else 0#8] .plain)
        ∧ (∀ k : Fin 25, t.events[k] = if kinds.getLsbD k.val then
            { raw := false, enable := s.events[k].enable, first := 255, time := none, count := 0 }
            else s.events[k])
        ∧ (t.attention = true ↔ ∃ k : Fin 25, kinds.getLsbD k.val = false
            ∧ s.events[k].raw = true ∧ s.events[k].enable = true)
        ∧ t.attnPin = t.attention
        ∧ OnlyChanges [.events, .attention, .attnPin] s.linkActivity t))
    ∧ (∀ kinds, s.Asked bytes f (.setEventEnable kinds) →
      (2 ^ 25 ≤ kinds.toNat →
        exec (.setEventEnable bytes) s = .next (s.linkActivity.respond f .range [] .plain))
      ∧ (kinds.toNat < 2 ^ 25 → s.portU.own.length < 16 → ∃ t, exec (.setEventEnable bytes) s =
          .next (t.respond f .ok (((List.finRange 25).map fun k =>
            if kinds.getLsbD k.val then 1#8 else 0#8) ++ [if t.attention then 1#8 else 0#8]) .plain)
        ∧ (∀ k : Fin 25, t.events[k] = { s.events[k] with enable := kinds.getLsbD k.val })
        ∧ (t.attention = true ↔ ∃ k : Fin 25, kinds.getLsbD k.val = true ∧ s.events[k].raw = true)
        ∧ t.attnPin = t.attention
        ∧ (s.attention = true ∨ t.attention = false → t.portU = s.portU)
        ∧ (s.attention = false → t.attention = true → t.portU = { s.portU with
            own := s.portU.own ++ [{ dst := s.controller, src := s.ownAddress, kind := .event
                                     payload := t.eventPayload s.timebase, mark := .plain }] })
        ∧ OnlyChanges [.events, .attention, .attnPin, .portU] s.linkActivity t))
    ∧ (s.Asked bytes f .readEvents → exec (.readEvents bytes) s = .next
      (s.linkActivity.respond f .ok ((if s.attention then 1#8 else 0#8) ::
        (List.finRange 25).flatMap fun k =>
          let e := s.events[k]
          [if e.raw then 1#8 else 0#8, if e.enable then 1#8 else 0#8, BitVec.ofNat 8 e.first]
            ++ (match e.time with | some t => 1#8 :: natBytes 4 t.toNat | none => List.replicate 5 0#8)
            ++ [BitVec.ofNat 8 e.count]) .plain))

/-! ## Tables and status -/

/-- R27 to R30 and the rules of each table: READ_TABLE, the whole-or-nothing WRITE_TABLE, and the validation,
the in-use protection and the effect of a write of each of the nine tables. Bytes that name a value an encoding
does not have fail validation (log 13); the order and the sets of an Export entry's bytes are logs 25 and 31. The
model's choices: the ascending order of the HEAT frames of one Zone write (log 24), that a scale whose lift timer
stops at its disabling holds no lift start (log 23), and that its tare-limit noted is kept there (log 34). -/
def Obligations.TableRequests : Prop :=
  ∀ (s : State) (bytes : List Byte) (f : RxFrame) (table : TableId) (start n : Nat) (es : List Byte),
    let header (n : Nat) := [BitVec.ofNat 8 table.code, BitVec.ofNat 8 start, BitVec.ofNat 8 n]
    let answered (r : Result) (data : List Byte) :=
      Host.Outcome.next (s.linkActivity.respond f r data .plain)
    (s.Asked bytes f (.readTable table start n) →
      (table.entries < start + n → exec (.readTable bytes) s = answered .range [])
      ∧ (start + n ≤ table.entries → exec (.readTable bytes) s = answered .ok
        (header (min n table.perRequest) ++
          (List.range (min n table.perRequest)).flatMap fun i => s.entryBytes table (start + i))))
    ∧ (s.Asked bytes f (.writeTable table start n es) →
      (table.entries < start + n → exec (.writeTable bytes) s = answered .range [])
      ∧ (start + n ≤ table.entries → exec (.writeTable bytes) s = answered .badEntry []
        ∨ exec (.writeTable bytes) s = answered .inUse []
        ∨ ∃ t, exec (.writeTable bytes) s = .next (t.respond f .ok (header n) .plain)
          ∧ OnlyChanges (.tables :: .zones :: .scales :: netParts) s.linkActivity t)
      ∧ (∀ rs : List Recipe, table = .recipe → start + n ≤ 32 → entriesOf 38 recipeOf n es = some rs →
        let used := ∃ (i : Fin 32) (r : Recipe), start ≤ i.val ∧ rs[i.val - start]? = some r
          ∧ r ≠ s.tables.recipes[i] ∧ ∃ p b, (s.unit p).binding = some b ∧ b.recipe = i
        ((∃ r ∈ rs, recipeValid r = false) → exec (.writeTable bytes) s = answered .badEntry [])
        ∧ ((∀ r ∈ rs, recipeValid r = true) → used → exec (.writeTable bytes) s = answered .inUse [])
        ∧ ((∀ r ∈ rs, recipeValid r = true) → ¬used →
          ∃ t, exec (.writeTable bytes) s = .next (t.respond f .ok (header n) .plain)
            ∧ (∀ i : Fin 32, t.tables.recipes[i] =
              if start ≤ i.val then (rs[i.val - start]?).getD s.tables.recipes[i]
              else s.tables.recipes[i])
            ∧ { s.tables with recipes := t.tables.recipes } = t.tables
            ∧ OnlyChanges [.tables] s.linkActivity t))
      ∧ (∀ ps : List PressEntry, table = .press → start + n ≤ 4 → entriesOf 7 pressEntryOf n es = some ps →
        ((∃ e ∈ ps, pressEntryValid e = false) → exec (.writeTable bytes) s = answered .badEntry [])
        ∧ ((∀ e ∈ ps, pressEntryValid e = true) →
          ∃ t, exec (.writeTable bytes) s = .next (t.respond f .ok (header n) .plain)
            ∧ (∀ i : Fin 4, t.tables.presses[i] =
              if start ≤ i.val then (ps[i.val - start]?).getD s.tables.presses[i]
              else s.tables.presses[i])
            ∧ { s.tables with presses := t.tables.presses } = t.tables
            ∧ OnlyChanges [.tables] s.linkActivity t))
      ∧ (∀ r : Recipe, recipeValid r = true ↔ r.InRange)
      ∧ (∀ e : PressEntry, pressEntryValid e = true ↔ e.InRange)
      ∧ (start + n ≤ table.entries → let read : Option Unit := match table with
          | .node => (entriesOf 3 nodeEntryOf n es).map fun _ => ()
          | .zone => (entriesOf 20 zoneEntryOf n es).map fun _ => ()
          | .recipe => (entriesOf 38 recipeOf n es).map fun _ => ()
          | .mould => (entriesOf 3 mouldEntryOf n es).map fun _ => ()
          | .rate => (rateEntryOf es).map fun _ => ()
          | .scale => (entriesOf 24 scaleEntryOf n es).map fun _ => ()
          | .press => (entriesOf 7 pressEntryOf n es).map fun _ => ()
          | .cell => (cellEntryOf es).map fun _ => ()
          | .exports => (exportEntryOf es).map fun _ => ()
        read = none → exec (.writeTable bytes) s = answered .badEntry [])
      ∧ (∀ ns, table = .node → start + n ≤ 64 → entriesOf 3 nodeEntryOf n es = some ns →
        s.NodeWrite bytes f (header n) f.dst start ns)
      ∧ (∀ zs, table = .zone → start + n ≤ 48 → entriesOf 20 zoneEntryOf n es = some zs →
        s.ZoneWrite bytes f (header n) start zs)
      ∧ (∀ ms, table = .mould → start + n ≤ 64 → entriesOf 3 mouldEntryOf n es = some ms →
        s.MouldWrite bytes f (header n) start ms)
      ∧ (∀ (i : Fin 4) (ps : List RatePoint), table = .rate → start = i.val → rateEntryOf es = some ps →
        s.RateWrite bytes f (header n) i ps)
      ∧ (∀ cs, table = .scale → start + n ≤ 2 → entriesOf 24 scaleEntryOf n es = some cs →
        s.ScaleWrite bytes f (header n) start cs)
      ∧ (∀ c, table = .cell → start = 0 → cellEntryOf es = some c → s.CellWrite bytes f (header n) f.dst c)
      ∧ (∀ x, table = .exports → start = 0 → exportEntryOf es = some x → s.ExportWrite bytes f (header n) x))

/-- R191, R25, R67, R82, R100, R122, R144, R156, R177, R188: READ_STATUS answers RANGE outside a block's range;
else OK with the block's items, changing nothing of the part (the free counter of log 14 apart). The numbers
of named values follow the lists of their tables (R197); orders, widths and presence bytes that the spec leaves to
inference are in log 12, which off commands a HEAT status shows in log 26. The spread of an empty window is free
(log 14). R190: the response fits in one frame. -/
def Obligations.StatusReads : Prop :=
  ([ZoneState.disabled, .regulating, .holding, .overtemp, .lost].map ZoneState.code = List.range 5
    ∧ [ActiveSensor.primary, .backup].map ActiveSensor.code = List.range 2
    ∧ [ChannelStatus.ok, .openSensor, .overrange, .notReady].map ChannelStatus.code = List.range 4
    ∧ [CureStatus.none, .accruing, .permitted, .timedOut, .stopped].map CureStatus.code = List.range 5
    ∧ [Inclusion.notInCure, .included, .excluded].map Inclusion.code = List.range 3
    ∧ [ScaleState.disabled, .empty, .loading, .noRequest, .accepted, .rejected, .lifting, .overload
      , .mismatch].map ScaleState.code = List.range 9
    ∧ [VerdictKind.accepted, .light, .heavy, .noRequest].map VerdictKind.code = List.range 4
    ∧ [UnitState.disabled, .idle, .chargeWait, .chargeReady, .closing, .cure, .demouldWait, .opening
      , .eject, .unload, .fault].map UnitState.code = List.range 11
    ∧ [BindFault.none, .mouldUnknown, .recipeInvalid, .rateInvalid, .noReference].map BindFault.code
      = List.range 5
    ∧ [Position.openFull, .closing, .closedPressure, .opening, .stopped].map Position.code = List.range 5
    ∧ [EjectPhase.stopped, .runToA, .heldAtA, .runToB, .heldAtB].map EjectPhase.code = List.range 5
    ∧ [EjectorPosition.retracted, .extended].map EjectorPosition.code = List.range 2
    ∧ [ProfilePhase.empty, .filling, .complete].map ProfilePhase.code = List.range 3
    ∧ [Policy.hold, .overwrite].map Policy.code = List.range 2)
  ∧ ∀ (s : State) (bytes : List Byte) (f : RxFrame) (block : Block) (index n : Nat),
    s.Asked bytes f (.readStatus block index n) →
    let inRange := match block with
      | .link | .history | .report => index = 0
      | .zone => 1 ≤ n ∧ n ≤ 4 ∧ index + n ≤ 48
      | .scale => index ≤ 1
      | .heat | .cure | .press | .eject => index ≤ 3
    let flag (b : Bool) : List Byte := if b then [1#8] else [0#8]
    let opt (k : Nat) (x : Option (List Byte)) : List Byte := match x with
      | some bs => 1#8 :: bs
      | none => List.replicate (k + 1) 0#8
    let list (xs : List (List Byte)) : List Byte := natBytes 1 xs.length ++ xs.flatten
    let time (x : Time) : List Byte := natBytes 4 x.toNat
    let entry (l : LastEntry) := natBytes 1 l.status.code ++ intBytes 3 l.value ++ time l.arrival
    let answers (data : List Byte) := exec (.readStatus bytes) s =
      .next (s.linkActivity.respond f .ok data .plain)
    (¬inRange → exec (.readStatus bytes) s = .next (s.linkActivity.respond f .range [] .plain))
    ∧ (inRange → block = .link → answers
        (let counters (x : PortState) := natBytes 2 x.checkErrors ++ natBytes 2 x.formatErrors
          ++ natBytes 2 x.fwdDrops ++ natBytes 2 x.ownDrops ++ natBytes 2 x.foreignRequests
        [BitVec.ofNat 8 f.dst, 0#8, BitVec.ofNat 8 s.controller] ++ time s.timebase
          ++ counters s.portU ++ counters s.portD
          ++ [BitVec.ofNat 8 s.portU.fwd.length, BitVec.ofNat 8 s.portU.own.length,
            BitVec.ofNat 8 s.portD.fwd.length, BitVec.ofNat 8 s.portD.own.length, 0#8, 0#8]))
    ∧ (inRange → block = .zone → answers
        ((List.range n).flatMap fun i => match s.zones[index + i]? with
          | some c => natBytes 1 c.state.code ++ natBytes 1 c.active.code
              ++ opt 2 (c.measured.map (intBytes 2)) ++ intBytes 2 c.setpoint ++ intBytes 2 c.target
              ++ intBytes 2 c.base ++ flag c.overridden ++ natBytes 2 c.staged ++ natBytes 2 c.committed
              ++ intBytes 3 c.integral ++ natBytes 1 c.holdCount ++ natBytes 1 c.deviationCount
              ++ opt 8 (c.primaryLast.map entry) ++ opt 8 (c.backupLast.map entry)
          | none => []))
    ∧ (∀ p : PressNo, index = p.val → block = .heat →
        let w := s.window p
        let below (z : ZoneNo) : Nat :=
          (((zonesOf p).filter fun y => decide (y < z)).map fun y => (s.zone y).offs.length).sum
        answers (flag w.running ++ opt 4 (w.start.map time) ++ natBytes 2 w.period
          ++ opt 4 (w.lastEnd.map time)
          ++ opt 4 (if w.running then some (time (w.start.getD 0#32 + BitVec.ofNat 32 w.period)) else none)
          ++ natBytes 1 w.placed ++ natBytes 1 w.lost
          ++ (zonesOf p).flatMap fun z => flag (s.zone z).grace
              ++ list (((s.zone z).offs.take (67 - below z)).map fun o => natBytes 1 o.node ++ natBytes 1 o.output
                ++ flag o.placed)))
    ∧ ((∀ k, (s.scale k).window.length ≤ 32 ∧ (s.scale k).queue.length ≤ 4) → s.exportQueue.length ≤ 16 →
        ∃ (t : State) (r : Result) (data : List Byte),
          exec (.readStatus bytes) s = .next (t.respond f r data .plain) ∧ 3 + data.length ≤ 248)
    ∧ (∀ p : PressNo, index = p.val → block = .cure →
        let c := s.cure p
        let age := match c.entryTime with
          | some e => (s.timebase - e).toNat
          | none => 0
        let left (seconds : Recipe → Nat) : Option Nat := if c.status = .accruing then
          (s.boundRecipe p).map fun r => seconds r * 1000 - age else none
        answers (natBytes 1 c.status.code ++ flag c.lost ++ opt 4 (c.entryTime.map time)
          ++ opt 4 (c.endTime.map time) ++ flag c.dwellMet ++ natBytes 4 c.progress
          ++ natBytes 4 (match s.boundRecipe p with | some r => r.cureTarget * 1000 | none => 0)
          ++ natBytes 1 c.included ++ natBytes 1 c.excluded
          ++ opt 2 (c.upperMin.map (intBytes 2)) ++ opt 2 (c.upperMax.map (intBytes 2))
          ++ opt 2 (c.lowerMin.map (intBytes 2)) ++ opt 2 (c.lowerMax.map (intBytes 2))
          ++ opt 3 ((left Recipe.minDwell).map fun x => natBytes 3 (if c.dwellMet then 0 else x))
          ++ opt 3 ((left Recipe.maxCure).map (natBytes 3))
          ++ (zonesOf p).flatMap fun z =>
            let a := s.accrual z
            natBytes 1 a.inclusion.code ++ natBytes 4 a.accumulator ++ natBytes 2 a.residue
              ++ opt 4 (a.prevArrival.map time)))
    ∧ (∀ k : ScaleNo, index = k.val → block = .scale →
        let c := s.scale k
        let mean := c.window.sum.tdiv ((s.scaleEntry k).windowN : Int)
        ∃ (stable : Bool) (spread count : Nat),
          (stable = true ↔ (s.scaleEntry k).Steady c.window)
          ∧ (c.window ≠ [] → count = s.freeCounter ∧ (∀ a ∈ c.window, ∀ b ∈ c.window, a - b ≤ spread)
            ∧ ∃ a ∈ c.window, ∃ b ∈ c.window, a - b = spread)
          ∧ exec (.readStatus bytes) s = .next (({ s.linkActivity with freeCounter := count } :
              State).respond f .ok
            (natBytes 1 c.state.code ++ intBytes 4 c.tare ++ flag c.tareNoted
              ++ list (c.window.map (intBytes 4)) ++ flag stable ++ natBytes 4 spread
              ++ opt 4 (if stable then some (intBytes 4 mean) else none)
              ++ opt 4 (if stable then some (intBytes 4 (mean - c.tare)) else none)
              ++ opt 7 (c.heldA.map fun a => intBytes 3 a.value ++ time a.arrival) ++ natBytes 1 c.agree
              ++ opt 15 (c.verdict.map fun v => natBytes 1 v.kind.code
                ++ opt 1 (v.press.map fun p => natBytes 1 p.val) ++ intBytes 4 v.mean ++ intBytes 4 v.net
                ++ intBytes 4 v.trim)
              ++ opt 2 (if c.state = .lifting then
                  c.liftStart.map fun x => natBytes 2 (c.liftTime - (s.timebase - x).toNat) else none)
              ++ opt 8 (c.lastA.map entry) ++ opt 8 (c.lastB.map entry) ++ natBytes 2 c.skipped
              ++ list (c.queue.map fun q =>
                natBytes 1 q.press.val ++ natBytes 1 q.attempts ++ time q.joined)) .plain))
    ∧ (∀ p : PressNo, index = p.val → block = .press →
        let u := s.unit p
        let place (l : List QueueEntry) : Option (List Byte) :=
          (l.findIdx? fun q => decide (q.press = p)).bind fun i =>
            (l[i]?).map fun q => natBytes 1 i ++ natBytes 1 q.attempts
        answers (natBytes 1 u.state.code
          ++ natBytes 1 (if u.state = .disabled then 0 else if u.haltPending then 1 else 2)
          ++ opt 1 (u.binding.map fun b => natBytes 1 b.recipe.val)
          ++ opt 2 (u.binding.map fun b => natBytes 2 b.mould) ++ natBytes 1 u.bindFault.code
          ++ opt 10 (u.lastStatus.map fun r => natBytes 1 r.position.code ++ natBytes 2 r.tonnage
            ++ natBytes 2 r.mould ++ flag r.cavityClear ++ time r.arrival)
          ++ opt 25 (u.charge.map fun x => natBytes 1 x.scale.val ++ intBytes 4 x.net ++ intBytes 4 x.mean
            ++ intBytes 4 x.tare ++ natBytes 3 x.target ++ natBytes 2 x.tolMinus ++ natBytes 2 x.tolPlus
            ++ natBytes 1 x.attempts ++ time x.release)
          ++ opt 4 (u.closingEntry.map time)
          ++ opt 3 (if u.state = .closing ∧ u.closeTimedOut = false then
              (s.boundRecipe p).bind fun r => u.closingEntry.map fun x =>
                natBytes 3 (r.closeTimeout * 1000 - (s.timebase - x).toNat) else none)
          ++ flag u.closeTimedOut ++ flag u.aborted ++ flag u.mouldChanged
          ++ opt 4 ((s.openRecord p).map fun r => natBytes 4 r.serial)
          ++ opt 2 ((place (s.scale 0).queue).or (place (s.scale 1).queue))))
    ∧ (∀ p : PressNo, index = p.val → block = .eject →
        let e := s.ejector p
        answers (natBytes 1 e.phase.code ++ flag e.setup ++ opt 1 (e.node.map (natBytes 1))
          ++ natBytes 2 e.compareA ++ natBytes 2 e.compareB ++ natBytes 2 e.stuckForce
          ++ opt 2 (if e.phase = .runToA ∨ e.phase = .runToB then
              e.timerStart.map fun x => natBytes 2 (s.timebase - x).toNat else none)
          ++ opt 2 (if e.phase = .heldAtA then some (natBytes 2 e.compareA)
              else if e.phase = .heldAtB then some (natBytes 2 e.compareB) else none)
          ++ opt 3 (e.peak.map (natBytes 3))
          ++ opt 2 (e.offOwed.map fun o => natBytes 1 o.node ++ flag o.placed)
          ++ opt 8 (e.lastStatus.map fun r =>
            natBytes 3 r.force ++ natBytes 1 r.position.code ++ time r.arrival)))
    ∧ (inRange → block = .history →
        let h := s.history
        let serial (r : Option Record) := opt 4 (r.map fun x => natBytes 4 x.serial)
        answers (natBytes 2 h.stored ++ natBytes 2 h.unread ++ natBytes 2 h.writePos.val
          ++ natBytes 2 h.readCursor.val ++ serial (if h.unread = 0 then none else h.slots[h.readCursor])
          ++ serial h.slots[prevSlot h.writePos] ++ natBytes 4 h.nextSerial ++ flag h.exhausted
          ++ natBytes 1 s.tables.cell.policy.code ++ natBytes 2 s.tables.cell.highMark
          ++ natBytes 2 s.tables.cell.lowMark ++ flag h.hold
          ++ ((List.finRange 4).flatMap fun p => serial (s.openRecord p))
          ++ (List.finRange 4).flatMap fun p => (List.finRange 2).flatMap fun b =>
            let x := s.profile p b
            natBytes 1 x.phase.code ++ opt 4 (x.tag.map (natBytes 4)) ++ natBytes 1 x.points.length
              ++ flag x.truncated ++ flag x.locked))
    ∧ (inRange → block = .report → answers
        (flag s.tables.exports.enable ++ list (s.exportQueue.map (natBytes 4))
          ++ natBytes 1 s.portU.own.length
          ++ flag (decide (s.portU.own.length ≤ 12 ∧ s.exportQueue ≠ [] ∧ s.warmTaking = false))
          ++ flag s.attention))

/-! ## Resets -/

/-- R192: a RESET request is pending while its response waits in Port U OWN, and due at once when the response
finds the queue full; a reset that is due takes effect before the next command (log 8). -/
def Obligations.ResetRequests : Prop :=
  ∀ (s : State) (bytes : List Byte) (f : RxFrame) (kind : ResetKind), s.Asked bytes f (.reset kind) →
    let outcome := match kind with
      | .warm => exec (.resetWarm bytes) s
      | .cold => exec (.resetCold bytes) s
    (s.portU.own.length < 16 → outcome = .next
      ((({ s.linkActivity with resetPending := .waiting kind } : State).modPort .U fun x => { x with own := x.own ++
        [{ dst := f.src, src := s.ownAddress, kind := .mgmtResp, mark := .resetResponse
           payload := [f.payload.getD 0 0#8, f.payload.getD 1 0#8, 0#8] }] })))
    ∧ (16 ≤ s.portU.own.length → outcome = .next
      { raiseNow .linkDrop (.port .U) (s.linkActivity.modPort .U fun x =>
        { x with ownDrops := min (x.ownDrops + 1) 65535 }) with resetPending := .due kind })

/-- R193: what a WARM reset whose moment has come leaves. The counters of R25, the ring's counts and the
serials stay; the queues are emptied and the off frames placed again; the scales, press units, profile locks
and events take their WARM values; and the records of cycles close with RESET_ABORT and are exported. -/
def Obligations.WarmResetEffect : Prop :=
  ∀ (s : State) (own : Nat), s.resetHeld = false → s.shutdown = false → s.resetPending = .due .warm →
    s.mode = .normal own →
    ∃ t, exec .warmResetEffect s = .next t
      ∧ t.resetPending = .idle ∧ t.linkPin = false ∧ t.linkStart = none ∧ t.attention = false
      ∧ t.attnPin = false ∧ t.exportQueue = []
      ∧ t.portU = { s.portU with fwd := [], own := t.portU.own }
      ∧ t.portD = { s.portD with fwd := [], own := t.portD.own }
      ∧ (∀ x ∈ t.portU.own, x.kind = .report)
      ∧ (∀ x ∈ t.portD.own, x.mark ≠ .plain)
      ∧ (∀ k : Fin 25, t.events[k] = { raw := false, enable := s.events[k].enable, first := 255
                                       time := none, count := 0 })
      ∧ (∀ k : ScaleNo, t.scale k = { s.scale k with
          state := if (s.scaleEntry k).enabled then .empty else .disabled
          window := [], verdict := none, liftStart := none, tareNoted := false, heldA := none
          agree := 0, queue := [] })
      ∧ (∀ p, (s.unit p).state = .disabled → t.unit p = s.unit p)
      ∧ (∀ p, (s.unit p).state = .idle → t.unit p = { s.unit p with bindFault := .none })
      ∧ (∀ p, (s.unit p).state ∉ [.disabled, .idle] → t.unit p = { s.unit p with
          state := if (s.unit p).haltPending then .disabled else .idle
          haltPending := false, binding := none, bindFault := .none, charge := none
          closingEntry := none, closeTimedOut := false, aborted := false, mouldChanged := false })
      ∧ (∀ p i r, (s.unit p).state.inCycle = true → s.history.openRecord[p] = some i →
          s.history.slots[i] = some r →
          t.history.openRecord[p] = none
          ∧ (∃ x, t.history.slots[i] = some x ∧ x.serial = r.serial ∧ x.state = .closed
            ∧ x.outcome = some .aborted ∧ x.flags.getLsbD 16 = true)
          ∧ ∀ b, r.profileBuffer = some b → (t.profile p b).phase = .complete)
      ∧ (∀ p, (s.unit p).state.inCycle = false → t.history.openRecord[p] = s.history.openRecord[p]
          ∧ ∀ b, (t.profile p b).phase = (s.profile p b).phase)
      ∧ (∀ i : Fin 512, (∀ p : PressNo, s.history.openRecord[p] ≠ some i) →
          (t.history.slots[i]).map (fun r => { r with exported := true })
            = (s.history.slots[i]).map fun r => { r with exported := true })
      ∧ t.history = { s.history with slots := t.history.slots, openRecord := t.history.openRecord }
      ∧ (∀ p, (s.unit p).state = .cure → (s.cure p).status = .accruing →
          t.cure p = { s.cure p with status := .stopped, endTime := some s.timebase })
      ∧ (∀ p, (s.unit p).state ≠ .cure → t.cure p = s.cure p)
      ∧ (∀ z, t.zone z = { s.zone z with offs := (t.zone z).offs })
      ∧ (∀ z, (t.zone z).offs.map OffCommand.unplaced = (s.zone z).offs.map OffCommand.unplaced)
      ∧ (∀ z, ∀ o ∈ (t.zone z).offs, o.placed = true →
          ∃ x ∈ t.portD.own, x.kind = .heat ∧ x.mark = .heaterOff z o.number)
      ∧ (t.offWaits = true → 16 ≤ t.portD.own.length)
      ∧ (∀ p, (s.unit p).state ≠ .eject ∨ (s.ejector p).phase = .stopped ∨ (s.ejector p).node = none →
          (t.ejector p).offOwed.map OffOwed.unplaced = (s.ejector p).offOwed.map OffOwed.unplaced)
      ∧ (∀ p n, (s.unit p).state = .eject → (s.ejector p).phase ≠ .stopped → (s.ejector p).node = some n →
          (t.ejector p).offOwed.map OffOwed.node = some n)
      ∧ (∀ p o, (t.ejector p).offOwed = some o → o.placed = true →
          ∃ x ∈ t.portD.own, x.kind = .command ∧ x.mark = .ejectOff p o.number)
      ∧ (∀ p, (s.unit p).state ≠ .eject →
          t.ejector p = { s.ejector p with offOwed := (t.ejector p).offOwed })
      ∧ (∀ p, (s.unit p).state = .eject → (t.ejector p).phase = .stopped
          ∧ (t.ejector p).setup = (s.ejector p).setup)
      ∧ (∀ p b, t.profile p b = { s.profile p b with locked := false, phase := (t.profile p b).phase })
      ∧ OnlyChanges [.portU, .portD, .resetPending, .linkPin, .linkStart, .attnPin, .attention, .zones
          , .cures, .scales, .units, .ejectors, .history, .profiles, .exportQueue, .events, .offNumber
          , .warmTaking] s t

/-- R194 and R195: a COLD reset that has nothing to command off takes effect at once, with every block at its
Power-on values and the strap sampled; any other begins its shutdown. During the shutdown each accepted frame is
forwarded as in PASSIVE mode, nothing is served, counted, raised or exported, and no timer's expiry is taken
(log 16); the reset takes effect when no off frame is present any more, at the start of the next command (log 8). -/
def Obligations.ColdResetEffect : Prop :=
  ∀ (s : State) (own : Nat), s.resetHeld = false → s.mode = .normal own →
    (s.shutdown = false → s.resetPending = .due .cold →
      (s.Drives → ∃ t, exec .coldShutdownStart s = .next t ∧ s.ShutsDown t)
      ∧ (¬s.Drives → ∃ t, exec .coldShutdownStart s = .next t ∧ t.HoldsPowerOn s.strap ∧ t.pending = s.pending
        ∧ t.strap = s.strap ∧ t.portU.sending = s.portU.sending ∧ t.portD.sending = s.portD.sending))
    ∧ (s.shutdown = true → s.resetPending.isDue = false → s.offPresent = true →
      (∀ (p : Port) (bytes : List Byte), ∀ c ∈ framesOn p,
        (∀ f, parseFrame bytes = some f → exec (c bytes) s = .next
          (if (s.port p.other).fwd.length < 24 then
            s.linkActivity.modPort p.other fun x => { x with fwd := x.fwd ++ [bytes] }
          else s.linkActivity))
        ∧ (parseFrame bytes = none → exec (c bytes) s = .next s))
      ∧ exec .exportMove s = .next s)
    ∧ (s.shutdown = true → s.resetPending.isDue = false →
      (s.offPresent = true → exec .coldResetEffect s = .next s
        ∧ (∀ p, exec (.windowEnd p) s = .next s ∧ exec (.dwellExpiry p) s = .next s
          ∧ exec (.maxCureExpiry p) s = .next s ∧ exec (.closeTimerExpiry p) s = .next s
          ∧ exec (.compareA p) s = .next s ∧ exec (.compareB p) s = .next s)
        ∧ ∀ k, exec (.liftTimerExpiry k) s = .next s)
      ∧ (s.offPresent = false → ∃ t, exec .coldResetEffect s = .next t ∧ t.HoldsPowerOn s.strap
        ∧ t.pending = s.pending ∧ t.strap = s.strap ∧ t.portU.sending = s.portU.sending
        ∧ t.portD.sending = s.portD.sending))
end

