-- ==== Sys2Proof/Laws/State.lean ====
section
/-! SUPPORT. What each update of a part of the state leaves and what it changes: one lemma per field per
update, true by unfolding the record update once. -/

namespace Sys2Proof.Machine.State

/-! ## modZone -/

section

variable (z : ZoneNo) (f : Zone → Zone) (s : State)

@[simp] theorem modZone_pending : (s.modZone z f).pending = s.pending := rfl
@[simp] theorem modZone_resetHeld : (s.modZone z f).resetHeld = s.resetHeld := rfl
@[simp] theorem modZone_strap : (s.modZone z f).strap = s.strap := rfl
@[simp] theorem modZone_mode : (s.modZone z f).mode = s.mode := rfl
@[simp] theorem modZone_timebase : (s.modZone z f).timebase = s.timebase := rfl
@[simp] theorem modZone_linkPin : (s.modZone z f).linkPin = s.linkPin := rfl
@[simp] theorem modZone_linkStart : (s.modZone z f).linkStart = s.linkStart := rfl
@[simp] theorem modZone_attnPin : (s.modZone z f).attnPin = s.attnPin := rfl
@[simp] theorem modZone_portU : (s.modZone z f).portU = s.portU := rfl
@[simp] theorem modZone_portD : (s.modZone z f).portD = s.portD := rfl
@[simp] theorem modZone_resetPending : (s.modZone z f).resetPending = s.resetPending := rfl
@[simp] theorem modZone_shutdown : (s.modZone z f).shutdown = s.shutdown := rfl
@[simp] theorem modZone_tables : (s.modZone z f).tables = s.tables := rfl
@[simp] theorem modZone_windows : (s.modZone z f).windows = s.windows := rfl
@[simp] theorem modZone_cures : (s.modZone z f).cures = s.cures := rfl
@[simp] theorem modZone_accruals : (s.modZone z f).accruals = s.accruals := rfl
@[simp] theorem modZone_scales : (s.modZone z f).scales = s.scales := rfl
@[simp] theorem modZone_units : (s.modZone z f).units = s.units := rfl
@[simp] theorem modZone_ejectors : (s.modZone z f).ejectors = s.ejectors := rfl
@[simp] theorem modZone_history : (s.modZone z f).history = s.history := rfl
@[simp] theorem modZone_profiles : (s.modZone z f).profiles = s.profiles := rfl
@[simp] theorem modZone_exportQueue : (s.modZone z f).exportQueue = s.exportQueue := rfl
@[simp] theorem modZone_events : (s.modZone z f).events = s.events := rfl
@[simp] theorem modZone_attention : (s.modZone z f).attention = s.attention := rfl
@[simp] theorem modZone_offNumber : (s.modZone z f).offNumber = s.offNumber := rfl
@[simp] theorem modZone_freeCounter : (s.modZone z f).freeCounter = s.freeCounter := rfl
@[simp] theorem modZone_warmTaking : (s.modZone z f).warmTaking = s.warmTaking := rfl

@[simp] theorem zone_modZone : (s.modZone z f).zone z = f (s.zone z) := by
  simp [modZone, zone]

theorem zone_modZone_of_ne {j : ZoneNo} (h : j ≠ z) : (s.modZone z f).zone j = s.zone j := by
  simp [modZone, zone, Fin.val_ne_of_ne (Ne.symm h)]

end

/-! ## modWindow -/

section

variable (p : PressNo) (f : HeatWindow → HeatWindow) (s : State)

@[simp] theorem modWindow_pending : (s.modWindow p f).pending = s.pending := rfl
@[simp] theorem modWindow_resetHeld : (s.modWindow p f).resetHeld = s.resetHeld := rfl
@[simp] theorem modWindow_strap : (s.modWindow p f).strap = s.strap := rfl
@[simp] theorem modWindow_mode : (s.modWindow p f).mode = s.mode := rfl
@[simp] theorem modWindow_timebase : (s.modWindow p f).timebase = s.timebase := rfl
@[simp] theorem modWindow_linkPin : (s.modWindow p f).linkPin = s.linkPin := rfl
@[simp] theorem modWindow_linkStart : (s.modWindow p f).linkStart = s.linkStart := rfl
@[simp] theorem modWindow_attnPin : (s.modWindow p f).attnPin = s.attnPin := rfl
@[simp] theorem modWindow_portU : (s.modWindow p f).portU = s.portU := rfl
@[simp] theorem modWindow_portD : (s.modWindow p f).portD = s.portD := rfl
@[simp] theorem modWindow_resetPending : (s.modWindow p f).resetPending = s.resetPending := rfl
@[simp] theorem modWindow_shutdown : (s.modWindow p f).shutdown = s.shutdown := rfl
@[simp] theorem modWindow_tables : (s.modWindow p f).tables = s.tables := rfl
@[simp] theorem modWindow_zones : (s.modWindow p f).zones = s.zones := rfl
@[simp] theorem modWindow_cures : (s.modWindow p f).cures = s.cures := rfl
@[simp] theorem modWindow_accruals : (s.modWindow p f).accruals = s.accruals := rfl
@[simp] theorem modWindow_scales : (s.modWindow p f).scales = s.scales := rfl
@[simp] theorem modWindow_units : (s.modWindow p f).units = s.units := rfl
@[simp] theorem modWindow_ejectors : (s.modWindow p f).ejectors = s.ejectors := rfl
@[simp] theorem modWindow_history : (s.modWindow p f).history = s.history := rfl
@[simp] theorem modWindow_profiles : (s.modWindow p f).profiles = s.profiles := rfl
@[simp] theorem modWindow_exportQueue : (s.modWindow p f).exportQueue = s.exportQueue := rfl
@[simp] theorem modWindow_events : (s.modWindow p f).events = s.events := rfl
@[simp] theorem modWindow_attention : (s.modWindow p f).attention = s.attention := rfl
@[simp] theorem modWindow_offNumber : (s.modWindow p f).offNumber = s.offNumber := rfl
@[simp] theorem modWindow_freeCounter : (s.modWindow p f).freeCounter = s.freeCounter := rfl
@[simp] theorem modWindow_warmTaking : (s.modWindow p f).warmTaking = s.warmTaking := rfl

@[simp] theorem window_modWindow : (s.modWindow p f).window p = f (s.window p) := by
  simp [modWindow, window]

theorem window_modWindow_of_ne {j : PressNo} (h : j ≠ p) : (s.modWindow p f).window j = s.window j := by
  simp [modWindow, window, Fin.val_ne_of_ne (Ne.symm h)]

end

/-! ## modCure -/

section

variable (p : PressNo) (f : Cure → Cure) (s : State)

@[simp] theorem modCure_pending : (s.modCure p f).pending = s.pending := rfl
@[simp] theorem modCure_resetHeld : (s.modCure p f).resetHeld = s.resetHeld := rfl
@[simp] theorem modCure_strap : (s.modCure p f).strap = s.strap := rfl
@[simp] theorem modCure_mode : (s.modCure p f).mode = s.mode := rfl
@[simp] theorem modCure_timebase : (s.modCure p f).timebase = s.timebase := rfl
@[simp] theorem modCure_linkPin : (s.modCure p f).linkPin = s.linkPin := rfl
@[simp] theorem modCure_linkStart : (s.modCure p f).linkStart = s.linkStart := rfl
@[simp] theorem modCure_attnPin : (s.modCure p f).attnPin = s.attnPin := rfl
@[simp] theorem modCure_portU : (s.modCure p f).portU = s.portU := rfl
@[simp] theorem modCure_portD : (s.modCure p f).portD = s.portD := rfl
@[simp] theorem modCure_resetPending : (s.modCure p f).resetPending = s.resetPending := rfl
@[simp] theorem modCure_shutdown : (s.modCure p f).shutdown = s.shutdown := rfl
@[simp] theorem modCure_tables : (s.modCure p f).tables = s.tables := rfl
@[simp] theorem modCure_zones : (s.modCure p f).zones = s.zones := rfl
@[simp] theorem modCure_windows : (s.modCure p f).windows = s.windows := rfl
@[simp] theorem modCure_accruals : (s.modCure p f).accruals = s.accruals := rfl
@[simp] theorem modCure_scales : (s.modCure p f).scales = s.scales := rfl
@[simp] theorem modCure_units : (s.modCure p f).units = s.units := rfl
@[simp] theorem modCure_ejectors : (s.modCure p f).ejectors = s.ejectors := rfl
@[simp] theorem modCure_history : (s.modCure p f).history = s.history := rfl
@[simp] theorem modCure_profiles : (s.modCure p f).profiles = s.profiles := rfl
@[simp] theorem modCure_exportQueue : (s.modCure p f).exportQueue = s.exportQueue := rfl
@[simp] theorem modCure_events : (s.modCure p f).events = s.events := rfl
@[simp] theorem modCure_attention : (s.modCure p f).attention = s.attention := rfl
@[simp] theorem modCure_offNumber : (s.modCure p f).offNumber = s.offNumber := rfl
@[simp] theorem modCure_freeCounter : (s.modCure p f).freeCounter = s.freeCounter := rfl
@[simp] theorem modCure_warmTaking : (s.modCure p f).warmTaking = s.warmTaking := rfl

@[simp] theorem cure_modCure : (s.modCure p f).cure p = f (s.cure p) := by
  simp [modCure, cure]

theorem cure_modCure_of_ne {j : PressNo} (h : j ≠ p) : (s.modCure p f).cure j = s.cure j := by
  simp [modCure, cure, Fin.val_ne_of_ne (Ne.symm h)]

end

/-! ## modAccrual -/

section

variable (z : ZoneNo) (f : Accrual → Accrual) (s : State)

@[simp] theorem modAccrual_pending : (s.modAccrual z f).pending = s.pending := rfl
@[simp] theorem modAccrual_resetHeld : (s.modAccrual z f).resetHeld = s.resetHeld := rfl
@[simp] theorem modAccrual_strap : (s.modAccrual z f).strap = s.strap := rfl
@[simp] theorem modAccrual_mode : (s.modAccrual z f).mode = s.mode := rfl
@[simp] theorem modAccrual_timebase : (s.modAccrual z f).timebase = s.timebase := rfl
@[simp] theorem modAccrual_linkPin : (s.modAccrual z f).linkPin = s.linkPin := rfl
@[simp] theorem modAccrual_linkStart : (s.modAccrual z f).linkStart = s.linkStart := rfl
@[simp] theorem modAccrual_attnPin : (s.modAccrual z f).attnPin = s.attnPin := rfl
@[simp] theorem modAccrual_portU : (s.modAccrual z f).portU = s.portU := rfl
@[simp] theorem modAccrual_portD : (s.modAccrual z f).portD = s.portD := rfl
@[simp] theorem modAccrual_resetPending : (s.modAccrual z f).resetPending = s.resetPending := rfl
@[simp] theorem modAccrual_shutdown : (s.modAccrual z f).shutdown = s.shutdown := rfl
@[simp] theorem modAccrual_tables : (s.modAccrual z f).tables = s.tables := rfl
@[simp] theorem modAccrual_zones : (s.modAccrual z f).zones = s.zones := rfl
@[simp] theorem modAccrual_windows : (s.modAccrual z f).windows = s.windows := rfl
@[simp] theorem modAccrual_cures : (s.modAccrual z f).cures = s.cures := rfl
@[simp] theorem modAccrual_scales : (s.modAccrual z f).scales = s.scales := rfl
@[simp] theorem modAccrual_units : (s.modAccrual z f).units = s.units := rfl
@[simp] theorem modAccrual_ejectors : (s.modAccrual z f).ejectors = s.ejectors := rfl
@[simp] theorem modAccrual_history : (s.modAccrual z f).history = s.history := rfl
@[simp] theorem modAccrual_profiles : (s.modAccrual z f).profiles = s.profiles := rfl
@[simp] theorem modAccrual_exportQueue : (s.modAccrual z f).exportQueue = s.exportQueue := rfl
@[simp] theorem modAccrual_events : (s.modAccrual z f).events = s.events := rfl
@[simp] theorem modAccrual_attention : (s.modAccrual z f).attention = s.attention := rfl
@[simp] theorem modAccrual_offNumber : (s.modAccrual z f).offNumber = s.offNumber := rfl
@[simp] theorem modAccrual_freeCounter : (s.modAccrual z f).freeCounter = s.freeCounter := rfl
@[simp] theorem modAccrual_warmTaking : (s.modAccrual z f).warmTaking = s.warmTaking := rfl

@[simp] theorem accrual_modAccrual : (s.modAccrual z f).accrual z = f (s.accrual z) := by
  simp [modAccrual, accrual]

theorem accrual_modAccrual_of_ne {j : ZoneNo} (h : j ≠ z) : (s.modAccrual z f).accrual j = s.accrual j := by
  simp [modAccrual, accrual, Fin.val_ne_of_ne (Ne.symm h)]

end

/-! ## modScale -/

section

variable (k : ScaleNo) (f : Scale → Scale) (s : State)

@[simp] theorem modScale_pending : (s.modScale k f).pending = s.pending := rfl
@[simp] theorem modScale_resetHeld : (s.modScale k f).resetHeld = s.resetHeld := rfl
@[simp] theorem modScale_strap : (s.modScale k f).strap = s.strap := rfl
@[simp] theorem modScale_mode : (s.modScale k f).mode = s.mode := rfl
@[simp] theorem modScale_timebase : (s.modScale k f).timebase = s.timebase := rfl
@[simp] theorem modScale_linkPin : (s.modScale k f).linkPin = s.linkPin := rfl
@[simp] theorem modScale_linkStart : (s.modScale k f).linkStart = s.linkStart := rfl
@[simp] theorem modScale_attnPin : (s.modScale k f).attnPin = s.attnPin := rfl
@[simp] theorem modScale_portU : (s.modScale k f).portU = s.portU := rfl
@[simp] theorem modScale_portD : (s.modScale k f).portD = s.portD := rfl
@[simp] theorem modScale_resetPending : (s.modScale k f).resetPending = s.resetPending := rfl
@[simp] theorem modScale_shutdown : (s.modScale k f).shutdown = s.shutdown := rfl
@[simp] theorem modScale_tables : (s.modScale k f).tables = s.tables := rfl
@[simp] theorem modScale_zones : (s.modScale k f).zones = s.zones := rfl
@[simp] theorem modScale_windows : (s.modScale k f).windows = s.windows := rfl
@[simp] theorem modScale_cures : (s.modScale k f).cures = s.cures := rfl
@[simp] theorem modScale_accruals : (s.modScale k f).accruals = s.accruals := rfl
@[simp] theorem modScale_units : (s.modScale k f).units = s.units := rfl
@[simp] theorem modScale_ejectors : (s.modScale k f).ejectors = s.ejectors := rfl
@[simp] theorem modScale_history : (s.modScale k f).history = s.history := rfl
@[simp] theorem modScale_profiles : (s.modScale k f).profiles = s.profiles := rfl
@[simp] theorem modScale_exportQueue : (s.modScale k f).exportQueue = s.exportQueue := rfl
@[simp] theorem modScale_events : (s.modScale k f).events = s.events := rfl
@[simp] theorem modScale_attention : (s.modScale k f).attention = s.attention := rfl
@[simp] theorem modScale_offNumber : (s.modScale k f).offNumber = s.offNumber := rfl
@[simp] theorem modScale_freeCounter : (s.modScale k f).freeCounter = s.freeCounter := rfl
@[simp] theorem modScale_warmTaking : (s.modScale k f).warmTaking = s.warmTaking := rfl

@[simp] theorem scale_modScale : (s.modScale k f).scale k = f (s.scale k) := by
  simp [modScale, scale]

theorem scale_modScale_of_ne {j : ScaleNo} (h : j ≠ k) : (s.modScale k f).scale j = s.scale j := by
  simp [modScale, scale, Fin.val_ne_of_ne (Ne.symm h)]

end

/-! ## modUnit -/

section

variable (p : PressNo) (f : PressUnit → PressUnit) (s : State)

@[simp] theorem modUnit_pending : (s.modUnit p f).pending = s.pending := rfl
@[simp] theorem modUnit_resetHeld : (s.modUnit p f).resetHeld = s.resetHeld := rfl
@[simp] theorem modUnit_strap : (s.modUnit p f).strap = s.strap := rfl
@[simp] theorem modUnit_mode : (s.modUnit p f).mode = s.mode := rfl
@[simp] theorem modUnit_timebase : (s.modUnit p f).timebase = s.timebase := rfl
@[simp] theorem modUnit_linkPin : (s.modUnit p f).linkPin = s.linkPin := rfl
@[simp] theorem modUnit_linkStart : (s.modUnit p f).linkStart = s.linkStart := rfl
@[simp] theorem modUnit_attnPin : (s.modUnit p f).attnPin = s.attnPin := rfl
@[simp] theorem modUnit_portU : (s.modUnit p f).portU = s.portU := rfl
@[simp] theorem modUnit_portD : (s.modUnit p f).portD = s.portD := rfl
@[simp] theorem modUnit_resetPending : (s.modUnit p f).resetPending = s.resetPending := rfl
@[simp] theorem modUnit_shutdown : (s.modUnit p f).shutdown = s.shutdown := rfl
@[simp] theorem modUnit_tables : (s.modUnit p f).tables = s.tables := rfl
@[simp] theorem modUnit_zones : (s.modUnit p f).zones = s.zones := rfl
@[simp] theorem modUnit_windows : (s.modUnit p f).windows = s.windows := rfl
@[simp] theorem modUnit_cures : (s.modUnit p f).cures = s.cures := rfl
@[simp] theorem modUnit_accruals : (s.modUnit p f).accruals = s.accruals := rfl
@[simp] theorem modUnit_scales : (s.modUnit p f).scales = s.scales := rfl
@[simp] theorem modUnit_ejectors : (s.modUnit p f).ejectors = s.ejectors := rfl
@[simp] theorem modUnit_history : (s.modUnit p f).history = s.history := rfl
@[simp] theorem modUnit_profiles : (s.modUnit p f).profiles = s.profiles := rfl
@[simp] theorem modUnit_exportQueue : (s.modUnit p f).exportQueue = s.exportQueue := rfl
@[simp] theorem modUnit_events : (s.modUnit p f).events = s.events := rfl
@[simp] theorem modUnit_attention : (s.modUnit p f).attention = s.attention := rfl
@[simp] theorem modUnit_offNumber : (s.modUnit p f).offNumber = s.offNumber := rfl
@[simp] theorem modUnit_freeCounter : (s.modUnit p f).freeCounter = s.freeCounter := rfl
@[simp] theorem modUnit_warmTaking : (s.modUnit p f).warmTaking = s.warmTaking := rfl

@[simp] theorem unit_modUnit : (s.modUnit p f).unit p = f (s.unit p) := by
  simp [modUnit, unit]

theorem unit_modUnit_of_ne {j : PressNo} (h : j ≠ p) : (s.modUnit p f).unit j = s.unit j := by
  simp [modUnit, unit, Fin.val_ne_of_ne (Ne.symm h)]

end

/-! ## modEjector -/

section

variable (p : PressNo) (f : Ejector → Ejector) (s : State)

@[simp] theorem modEjector_pending : (s.modEjector p f).pending = s.pending := rfl
@[simp] theorem modEjector_resetHeld : (s.modEjector p f).resetHeld = s.resetHeld := rfl
@[simp] theorem modEjector_strap : (s.modEjector p f).strap = s.strap := rfl
@[simp] theorem modEjector_mode : (s.modEjector p f).mode = s.mode := rfl
@[simp] theorem modEjector_timebase : (s.modEjector p f).timebase = s.timebase := rfl
@[simp] theorem modEjector_linkPin : (s.modEjector p f).linkPin = s.linkPin := rfl
@[simp] theorem modEjector_linkStart : (s.modEjector p f).linkStart = s.linkStart := rfl
@[simp] theorem modEjector_attnPin : (s.modEjector p f).attnPin = s.attnPin := rfl
@[simp] theorem modEjector_portU : (s.modEjector p f).portU = s.portU := rfl
@[simp] theorem modEjector_portD : (s.modEjector p f).portD = s.portD := rfl
@[simp] theorem modEjector_resetPending : (s.modEjector p f).resetPending = s.resetPending := rfl
@[simp] theorem modEjector_shutdown : (s.modEjector p f).shutdown = s.shutdown := rfl
@[simp] theorem modEjector_tables : (s.modEjector p f).tables = s.tables := rfl
@[simp] theorem modEjector_zones : (s.modEjector p f).zones = s.zones := rfl
@[simp] theorem modEjector_windows : (s.modEjector p f).windows = s.windows := rfl
@[simp] theorem modEjector_cures : (s.modEjector p f).cures = s.cures := rfl
@[simp] theorem modEjector_accruals : (s.modEjector p f).accruals = s.accruals := rfl
@[simp] theorem modEjector_scales : (s.modEjector p f).scales = s.scales := rfl
@[simp] theorem modEjector_units : (s.modEjector p f).units = s.units := rfl
@[simp] theorem modEjector_history : (s.modEjector p f).history = s.history := rfl
@[simp] theorem modEjector_profiles : (s.modEjector p f).profiles = s.profiles := rfl
@[simp] theorem modEjector_exportQueue : (s.modEjector p f).exportQueue = s.exportQueue := rfl
@[simp] theorem modEjector_events : (s.modEjector p f).events = s.events := rfl
@[simp] theorem modEjector_attention : (s.modEjector p f).attention = s.attention := rfl
@[simp] theorem modEjector_offNumber : (s.modEjector p f).offNumber = s.offNumber := rfl
@[simp] theorem modEjector_freeCounter : (s.modEjector p f).freeCounter = s.freeCounter := rfl
@[simp] theorem modEjector_warmTaking : (s.modEjector p f).warmTaking = s.warmTaking := rfl

@[simp] theorem ejector_modEjector : (s.modEjector p f).ejector p = f (s.ejector p) := by
  simp [modEjector, ejector]

theorem ejector_modEjector_of_ne {j : PressNo} (h : j ≠ p) : (s.modEjector p f).ejector j = s.ejector j := by
  simp [modEjector, ejector, Fin.val_ne_of_ne (Ne.symm h)]

end

/-! ## modProfile -/

section

variable (p : PressNo) (b : Fin 2) (f : Profile → Profile) (s : State)

@[simp] theorem modProfile_pending : (s.modProfile p b f).pending = s.pending := rfl
@[simp] theorem modProfile_resetHeld : (s.modProfile p b f).resetHeld = s.resetHeld := rfl
@[simp] theorem modProfile_strap : (s.modProfile p b f).strap = s.strap := rfl
@[simp] theorem modProfile_mode : (s.modProfile p b f).mode = s.mode := rfl
@[simp] theorem modProfile_timebase : (s.modProfile p b f).timebase = s.timebase := rfl
@[simp] theorem modProfile_linkPin : (s.modProfile p b f).linkPin = s.linkPin := rfl
@[simp] theorem modProfile_linkStart : (s.modProfile p b f).linkStart = s.linkStart := rfl
@[simp] theorem modProfile_attnPin : (s.modProfile p b f).attnPin = s.attnPin := rfl
@[simp] theorem modProfile_portU : (s.modProfile p b f).portU = s.portU := rfl
@[simp] theorem modProfile_portD : (s.modProfile p b f).portD = s.portD := rfl
@[simp] theorem modProfile_resetPending : (s.modProfile p b f).resetPending = s.resetPending := rfl
@[simp] theorem modProfile_shutdown : (s.modProfile p b f).shutdown = s.shutdown := rfl
@[simp] theorem modProfile_tables : (s.modProfile p b f).tables = s.tables := rfl
@[simp] theorem modProfile_zones : (s.modProfile p b f).zones = s.zones := rfl
@[simp] theorem modProfile_windows : (s.modProfile p b f).windows = s.windows := rfl
@[simp] theorem modProfile_cures : (s.modProfile p b f).cures = s.cures := rfl
@[simp] theorem modProfile_accruals : (s.modProfile p b f).accruals = s.accruals := rfl
@[simp] theorem modProfile_scales : (s.modProfile p b f).scales = s.scales := rfl
@[simp] theorem modProfile_units : (s.modProfile p b f).units = s.units := rfl
@[simp] theorem modProfile_ejectors : (s.modProfile p b f).ejectors = s.ejectors := rfl
@[simp] theorem modProfile_history : (s.modProfile p b f).history = s.history := rfl
@[simp] theorem modProfile_exportQueue : (s.modProfile p b f).exportQueue = s.exportQueue := rfl
@[simp] theorem modProfile_events : (s.modProfile p b f).events = s.events := rfl
@[simp] theorem modProfile_attention : (s.modProfile p b f).attention = s.attention := rfl
@[simp] theorem modProfile_offNumber : (s.modProfile p b f).offNumber = s.offNumber := rfl
@[simp] theorem modProfile_freeCounter : (s.modProfile p b f).freeCounter = s.freeCounter := rfl
@[simp] theorem modProfile_warmTaking : (s.modProfile p b f).warmTaking = s.warmTaking := rfl

end

/-! ## modTables -/

section

variable (f : Tables → Tables) (s : State)

@[simp] theorem modTables_pending : (s.modTables f).pending = s.pending := rfl
@[simp] theorem modTables_resetHeld : (s.modTables f).resetHeld = s.resetHeld := rfl
@[simp] theorem modTables_strap : (s.modTables f).strap = s.strap := rfl
@[simp] theorem modTables_mode : (s.modTables f).mode = s.mode := rfl
@[simp] theorem modTables_timebase : (s.modTables f).timebase = s.timebase := rfl
@[simp] theorem modTables_linkPin : (s.modTables f).linkPin = s.linkPin := rfl
@[simp] theorem modTables_linkStart : (s.modTables f).linkStart = s.linkStart := rfl
@[simp] theorem modTables_attnPin : (s.modTables f).attnPin = s.attnPin := rfl
@[simp] theorem modTables_portU : (s.modTables f).portU = s.portU := rfl
@[simp] theorem modTables_portD : (s.modTables f).portD = s.portD := rfl
@[simp] theorem modTables_resetPending : (s.modTables f).resetPending = s.resetPending := rfl
@[simp] theorem modTables_shutdown : (s.modTables f).shutdown = s.shutdown := rfl
@[simp] theorem modTables_zones : (s.modTables f).zones = s.zones := rfl
@[simp] theorem modTables_windows : (s.modTables f).windows = s.windows := rfl
@[simp] theorem modTables_cures : (s.modTables f).cures = s.cures := rfl
@[simp] theorem modTables_accruals : (s.modTables f).accruals = s.accruals := rfl
@[simp] theorem modTables_scales : (s.modTables f).scales = s.scales := rfl
@[simp] theorem modTables_units : (s.modTables f).units = s.units := rfl
@[simp] theorem modTables_ejectors : (s.modTables f).ejectors = s.ejectors := rfl
@[simp] theorem modTables_history : (s.modTables f).history = s.history := rfl
@[simp] theorem modTables_profiles : (s.modTables f).profiles = s.profiles := rfl
@[simp] theorem modTables_exportQueue : (s.modTables f).exportQueue = s.exportQueue := rfl
@[simp] theorem modTables_events : (s.modTables f).events = s.events := rfl
@[simp] theorem modTables_attention : (s.modTables f).attention = s.attention := rfl
@[simp] theorem modTables_offNumber : (s.modTables f).offNumber = s.offNumber := rfl
@[simp] theorem modTables_freeCounter : (s.modTables f).freeCounter = s.freeCounter := rfl
@[simp] theorem modTables_warmTaking : (s.modTables f).warmTaking = s.warmTaking := rfl

@[simp] theorem tables_modTables : (s.modTables f).tables = f s.tables := rfl

end

/-! ## modHistory -/

section

variable (f : History → History) (s : State)

@[simp] theorem modHistory_pending : (s.modHistory f).pending = s.pending := rfl
@[simp] theorem modHistory_resetHeld : (s.modHistory f).resetHeld = s.resetHeld := rfl
@[simp] theorem modHistory_strap : (s.modHistory f).strap = s.strap := rfl
@[simp] theorem modHistory_mode : (s.modHistory f).mode = s.mode := rfl
@[simp] theorem modHistory_timebase : (s.modHistory f).timebase = s.timebase := rfl
@[simp] theorem modHistory_linkPin : (s.modHistory f).linkPin = s.linkPin := rfl
@[simp] theorem modHistory_linkStart : (s.modHistory f).linkStart = s.linkStart := rfl
@[simp] theorem modHistory_attnPin : (s.modHistory f).attnPin = s.attnPin := rfl
@[simp] theorem modHistory_portU : (s.modHistory f).portU = s.portU := rfl
@[simp] theorem modHistory_portD : (s.modHistory f).portD = s.portD := rfl
@[simp] theorem modHistory_resetPending : (s.modHistory f).resetPending = s.resetPending := rfl
@[simp] theorem modHistory_shutdown : (s.modHistory f).shutdown = s.shutdown := rfl
@[simp] theorem modHistory_tables : (s.modHistory f).tables = s.tables := rfl
@[simp] theorem modHistory_zones : (s.modHistory f).zones = s.zones := rfl
@[simp] theorem modHistory_windows : (s.modHistory f).windows = s.windows := rfl
@[simp] theorem modHistory_cures : (s.modHistory f).cures = s.cures := rfl
@[simp] theorem modHistory_accruals : (s.modHistory f).accruals = s.accruals := rfl
@[simp] theorem modHistory_scales : (s.modHistory f).scales = s.scales := rfl
@[simp] theorem modHistory_units : (s.modHistory f).units = s.units := rfl
@[simp] theorem modHistory_ejectors : (s.modHistory f).ejectors = s.ejectors := rfl
@[simp] theorem modHistory_profiles : (s.modHistory f).profiles = s.profiles := rfl
@[simp] theorem modHistory_exportQueue : (s.modHistory f).exportQueue = s.exportQueue := rfl
@[simp] theorem modHistory_events : (s.modHistory f).events = s.events := rfl
@[simp] theorem modHistory_attention : (s.modHistory f).attention = s.attention := rfl
@[simp] theorem modHistory_offNumber : (s.modHistory f).offNumber = s.offNumber := rfl
@[simp] theorem modHistory_freeCounter : (s.modHistory f).freeCounter = s.freeCounter := rfl
@[simp] theorem modHistory_warmTaking : (s.modHistory f).warmTaking = s.warmTaking := rfl

@[simp] theorem history_modHistory : (s.modHistory f).history = f s.history := rfl

end

/-! ## modPort -/

section

variable (p : Port) (f : PortState → PortState) (s : State)

@[simp] theorem modPort_pending : (s.modPort p f).pending = s.pending := by cases p <;> rfl
@[simp] theorem modPort_resetHeld : (s.modPort p f).resetHeld = s.resetHeld := by cases p <;> rfl
@[simp] theorem modPort_strap : (s.modPort p f).strap = s.strap := by cases p <;> rfl
@[simp] theorem modPort_mode : (s.modPort p f).mode = s.mode := by cases p <;> rfl
@[simp] theorem modPort_timebase : (s.modPort p f).timebase = s.timebase := by cases p <;> rfl
@[simp] theorem modPort_linkPin : (s.modPort p f).linkPin = s.linkPin := by cases p <;> rfl
@[simp] theorem modPort_linkStart : (s.modPort p f).linkStart = s.linkStart := by cases p <;> rfl
@[simp] theorem modPort_attnPin : (s.modPort p f).attnPin = s.attnPin := by cases p <;> rfl
@[simp] theorem modPort_resetPending : (s.modPort p f).resetPending = s.resetPending := by cases p <;> rfl
@[simp] theorem modPort_shutdown : (s.modPort p f).shutdown = s.shutdown := by cases p <;> rfl
@[simp] theorem modPort_tables : (s.modPort p f).tables = s.tables := by cases p <;> rfl
@[simp] theorem modPort_zones : (s.modPort p f).zones = s.zones := by cases p <;> rfl
@[simp] theorem modPort_windows : (s.modPort p f).windows = s.windows := by cases p <;> rfl
@[simp] theorem modPort_cures : (s.modPort p f).cures = s.cures := by cases p <;> rfl
@[simp] theorem modPort_accruals : (s.modPort p f).accruals = s.accruals := by cases p <;> rfl
@[simp] theorem modPort_scales : (s.modPort p f).scales = s.scales := by cases p <;> rfl
@[simp] theorem modPort_units : (s.modPort p f).units = s.units := by cases p <;> rfl
@[simp] theorem modPort_ejectors : (s.modPort p f).ejectors = s.ejectors := by cases p <;> rfl
@[simp] theorem modPort_history : (s.modPort p f).history = s.history := by cases p <;> rfl
@[simp] theorem modPort_profiles : (s.modPort p f).profiles = s.profiles := by cases p <;> rfl
@[simp] theorem modPort_exportQueue : (s.modPort p f).exportQueue = s.exportQueue := by cases p <;> rfl
@[simp] theorem modPort_events : (s.modPort p f).events = s.events := by cases p <;> rfl
@[simp] theorem modPort_attention : (s.modPort p f).attention = s.attention := by cases p <;> rfl
@[simp] theorem modPort_offNumber : (s.modPort p f).offNumber = s.offNumber := by cases p <;> rfl
@[simp] theorem modPort_freeCounter : (s.modPort p f).freeCounter = s.freeCounter := by cases p <;> rfl
@[simp] theorem modPort_warmTaking : (s.modPort p f).warmTaking = s.warmTaking := by cases p <;> rfl

@[simp] theorem modPort_U_portU : (s.modPort .U f).portU = f s.portU := rfl
@[simp] theorem modPort_U_portD : (s.modPort .U f).portD = s.portD := rfl
@[simp] theorem modPort_D_portD : (s.modPort .D f).portD = f s.portD := rfl
@[simp] theorem modPort_D_portU : (s.modPort .D f).portU = s.portU := rfl

@[simp] theorem port_modPort : (s.modPort p f).port p = f (s.port p) := by cases p <;> rfl

theorem port_modPort_other : (s.modPort p f).port p.other = s.port p.other := by cases p <;> rfl

end

/-! ## Profiles -/

theorem profile_modProfile (p : PressNo) (b : Fin 2) (f : Profile → Profile) (s : State) :
    (s.modProfile p b f).profile p b = f (s.profile p b) := by
  simp [modProfile, profile]

/-! ## Repetition and conditions -/

section

variable {α β : Type} (f : α → State → State) (g : State → β)

@[simp] theorem each_nil (s : State) : each f [] s = s := rfl

@[simp] theorem each_cons (a : α) (l : List α) (s : State) : each f (a :: l) s = each f l (f a s) := rfl

theorem each_append (l₁ l₂ : List α) (s : State) : each f (l₁ ++ l₂) s = each f l₂ (each f l₁ s) := by
  induction l₁ generalizing s with
  | nil => rfl
  | cons a l ih => simp [ih]

/-- What every run of the body keeps, the repetition keeps. -/
theorem each_keeps (h : ∀ a s, g (f a s) = g s) (l : List α) (s : State) : g (each f l s) = g s := by
  induction l generalizing s with
  | nil => rfl
  | cons a l ih => rw [each_cons, ih, h]

/-- A property that every run of the body keeps holds after the repetition. -/
theorem each_invariant (P : State → Prop) (h : ∀ a s, P s → P (f a s)) (l : List α) (s : State)
    (hs : P s) : P (each f l s) := by
  induction l generalizing s with
  | nil => exact hs
  | cons a l ih => exact ih _ (h a s hs)

end

section

variable (f : State → State) (s : State)

@[simp] theorem doIf_true : doIf true f s = f s := rfl

@[simp] theorem doIf_false : doIf false f s = s := rfl

/-- What the operation keeps, it keeps under a condition. -/
theorem doIf_keeps {β : Type} (g : State → β) (c : Bool) (h : g (f s) = g s) : g (doIf c f s) = g s := by
  cases c
  · rfl
  · exact h

end

/-! ## The OPEN record -/

section

variable (p : PressNo) (f : Record → Record) (s : State)

@[simp] theorem modRecord_pending : (s.modRecord p f).pending = s.pending := by
  unfold modRecord; split <;> rfl
@[simp] theorem modRecord_resetHeld : (s.modRecord p f).resetHeld = s.resetHeld := by
  unfold modRecord; split <;> rfl
@[simp] theorem modRecord_strap : (s.modRecord p f).strap = s.strap := by
  unfold modRecord; split <;> rfl
@[simp] theorem modRecord_mode : (s.modRecord p f).mode = s.mode := by
  unfold modRecord; split <;> rfl
@[simp] theorem modRecord_timebase : (s.modRecord p f).timebase = s.timebase := by
  unfold modRecord; split <;> rfl
@[simp] theorem modRecord_linkPin : (s.modRecord p f).linkPin = s.linkPin := by
  unfold modRecord; split <;> rfl
@[simp] theorem modRecord_linkStart : (s.modRecord p f).linkStart = s.linkStart := by
  unfold modRecord; split <;> rfl
@[simp] theorem modRecord_attnPin : (s.modRecord p f).attnPin = s.attnPin := by
  unfold modRecord; split <;> rfl
@[simp] theorem modRecord_portU : (s.modRecord p f).portU = s.portU := by
  unfold modRecord; split <;> rfl
@[simp] theorem modRecord_portD : (s.modRecord p f).portD = s.portD := by
  unfold modRecord; split <;> rfl
@[simp] theorem modRecord_resetPending : (s.modRecord p f).resetPending = s.resetPending := by
  unfold modRecord; split <;> rfl
@[simp] theorem modRecord_shutdown : (s.modRecord p f).shutdown = s.shutdown := by
  unfold modRecord; split <;> rfl
@[simp] theorem modRecord_tables : (s.modRecord p f).tables = s.tables := by
  unfold modRecord; split <;> rfl
@[simp] theorem modRecord_zones : (s.modRecord p f).zones = s.zones := by
  unfold modRecord; split <;> rfl
@[simp] theorem modRecord_windows : (s.modRecord p f).windows = s.windows := by
  unfold modRecord; split <;> rfl
@[simp] theorem modRecord_cures : (s.modRecord p f).cures = s.cures := by
  unfold modRecord; split <;> rfl
@[simp] theorem modRecord_accruals : (s.modRecord p f).accruals = s.accruals := by
  unfold modRecord; split <;> rfl
@[simp] theorem modRecord_scales : (s.modRecord p f).scales = s.scales := by
  unfold modRecord; split <;> rfl
@[simp] theorem modRecord_units : (s.modRecord p f).units = s.units := by
  unfold modRecord; split <;> rfl
@[simp] theorem modRecord_ejectors : (s.modRecord p f).ejectors = s.ejectors := by
  unfold modRecord; split <;> rfl
@[simp] theorem modRecord_profiles : (s.modRecord p f).profiles = s.profiles := by
  unfold modRecord; split <;> rfl
@[simp] theorem modRecord_exportQueue : (s.modRecord p f).exportQueue = s.exportQueue := by
  unfold modRecord; split <;> rfl
@[simp] theorem modRecord_events : (s.modRecord p f).events = s.events := by
  unfold modRecord; split <;> rfl
@[simp] theorem modRecord_attention : (s.modRecord p f).attention = s.attention := by
  unfold modRecord; split <;> rfl
@[simp] theorem modRecord_offNumber : (s.modRecord p f).offNumber = s.offNumber := by
  unfold modRecord; split <;> rfl
@[simp] theorem modRecord_freeCounter : (s.modRecord p f).freeCounter = s.freeCounter := by
  unfold modRecord; split <;> rfl
@[simp] theorem modRecord_warmTaking : (s.modRecord p f).warmTaking = s.warmTaking := by
  unfold modRecord; split <;> rfl
@[simp] theorem modRecord_history_stored : (s.modRecord p f).history.stored = s.history.stored := by
  unfold modRecord; split <;> rfl
@[simp] theorem modRecord_history_writePos : (s.modRecord p f).history.writePos = s.history.writePos := by
  unfold modRecord; split <;> rfl
@[simp] theorem modRecord_history_readCursor : (s.modRecord p f).history.readCursor = s.history.readCursor := by
  unfold modRecord; split <;> rfl
@[simp] theorem modRecord_history_unread : (s.modRecord p f).history.unread = s.history.unread := by
  unfold modRecord; split <;> rfl
@[simp] theorem modRecord_history_nextSerial : (s.modRecord p f).history.nextSerial = s.history.nextSerial := by
  unfold modRecord; split <;> rfl
@[simp] theorem modRecord_history_exhausted : (s.modRecord p f).history.exhausted = s.history.exhausted := by
  unfold modRecord; split <;> rfl
@[simp] theorem modRecord_history_hold : (s.modRecord p f).history.hold = s.history.hold := by
  unfold modRecord; split <;> rfl
@[simp] theorem modRecord_history_openRecord : (s.modRecord p f).history.openRecord = s.history.openRecord := by
  unfold modRecord; split <;> rfl

/-- The OPEN record after a write of its fields. -/
theorem openRecord_modRecord : (s.modRecord p f).openRecord p = (s.openRecord p).map f := by
  unfold modRecord openRecord
  split <;> simp_all [modHistory]

/-- A write of a record empties and fills no slot. -/
theorem modRecord_slots_isSome (i : Fin 512) :
    ((s.modRecord p f).history.slots[i]).isSome = (s.history.slots[i]).isSome := by
  unfold modRecord
  split
  · rename_i j _
    by_cases h : j.val = i.val
    · simp [modHistory, h]
    · simp [modHistory, h]
  · rfl

end

end Sys2Proof.Machine.State
end

