-- ==== Sys2Proof/Laws/Ops.lean ====
section
/-! SUPPORT. What the shared operations leave unchanged, field by field: raising an event, joining a queue,
placing off frames, moving and closing records. -/

namespace Sys2Proof.Machine.State

variable (s : State)

/-! ## setFlag -/

@[simp] theorem setFlag_pending (p : PressNo) (f : RecordFlag) : (s.setFlag p f).pending = s.pending := by
  simp [setFlag]
@[simp] theorem setFlag_resetHeld (p : PressNo) (f : RecordFlag) : (s.setFlag p f).resetHeld = s.resetHeld := by
  simp [setFlag]
@[simp] theorem setFlag_strap (p : PressNo) (f : RecordFlag) : (s.setFlag p f).strap = s.strap := by
  simp [setFlag]
@[simp] theorem setFlag_mode (p : PressNo) (f : RecordFlag) : (s.setFlag p f).mode = s.mode := by
  simp [setFlag]
@[simp] theorem setFlag_timebase (p : PressNo) (f : RecordFlag) : (s.setFlag p f).timebase = s.timebase := by
  simp [setFlag]
@[simp] theorem setFlag_linkPin (p : PressNo) (f : RecordFlag) : (s.setFlag p f).linkPin = s.linkPin := by
  simp [setFlag]
@[simp] theorem setFlag_linkStart (p : PressNo) (f : RecordFlag) : (s.setFlag p f).linkStart = s.linkStart := by
  simp [setFlag]
@[simp] theorem setFlag_attnPin (p : PressNo) (f : RecordFlag) : (s.setFlag p f).attnPin = s.attnPin := by
  simp [setFlag]
@[simp] theorem setFlag_portU (p : PressNo) (f : RecordFlag) : (s.setFlag p f).portU = s.portU := by
  simp [setFlag]
@[simp] theorem setFlag_portD (p : PressNo) (f : RecordFlag) : (s.setFlag p f).portD = s.portD := by
  simp [setFlag]
@[simp] theorem setFlag_resetPending (p : PressNo) (f : RecordFlag) : (s.setFlag p f).resetPending = s.resetPending := by
  simp [setFlag]
@[simp] theorem setFlag_shutdown (p : PressNo) (f : RecordFlag) : (s.setFlag p f).shutdown = s.shutdown := by
  simp [setFlag]
@[simp] theorem setFlag_tables (p : PressNo) (f : RecordFlag) : (s.setFlag p f).tables = s.tables := by
  simp [setFlag]
@[simp] theorem setFlag_zones (p : PressNo) (f : RecordFlag) : (s.setFlag p f).zones = s.zones := by
  simp [setFlag]
@[simp] theorem setFlag_windows (p : PressNo) (f : RecordFlag) : (s.setFlag p f).windows = s.windows := by
  simp [setFlag]
@[simp] theorem setFlag_cures (p : PressNo) (f : RecordFlag) : (s.setFlag p f).cures = s.cures := by
  simp [setFlag]
@[simp] theorem setFlag_accruals (p : PressNo) (f : RecordFlag) : (s.setFlag p f).accruals = s.accruals := by
  simp [setFlag]
@[simp] theorem setFlag_scales (p : PressNo) (f : RecordFlag) : (s.setFlag p f).scales = s.scales := by
  simp [setFlag]
@[simp] theorem setFlag_units (p : PressNo) (f : RecordFlag) : (s.setFlag p f).units = s.units := by
  simp [setFlag]
@[simp] theorem setFlag_ejectors (p : PressNo) (f : RecordFlag) : (s.setFlag p f).ejectors = s.ejectors := by
  simp [setFlag]
@[simp] theorem setFlag_profiles (p : PressNo) (f : RecordFlag) : (s.setFlag p f).profiles = s.profiles := by
  simp [setFlag]
@[simp] theorem setFlag_exportQueue (p : PressNo) (f : RecordFlag) : (s.setFlag p f).exportQueue = s.exportQueue := by
  simp [setFlag]
@[simp] theorem setFlag_events (p : PressNo) (f : RecordFlag) : (s.setFlag p f).events = s.events := by
  simp [setFlag]
@[simp] theorem setFlag_attention (p : PressNo) (f : RecordFlag) : (s.setFlag p f).attention = s.attention := by
  simp [setFlag]
@[simp] theorem setFlag_offNumber (p : PressNo) (f : RecordFlag) : (s.setFlag p f).offNumber = s.offNumber := by
  simp [setFlag]
@[simp] theorem setFlag_freeCounter (p : PressNo) (f : RecordFlag) : (s.setFlag p f).freeCounter = s.freeCounter := by
  simp [setFlag]
@[simp] theorem setFlag_warmTaking (p : PressNo) (f : RecordFlag) : (s.setFlag p f).warmTaking = s.warmTaking := by
  simp [setFlag]

/-! ## noteEvent -/

@[simp] theorem noteEvent_pending (t : Time) (k : EventKind) (i : EventOn) : (s.noteEvent t k i).pending = s.pending :=
  each_keeps _ (·.pending) (fun _ _ => modRecord_pending _ _ _) _ s
@[simp] theorem noteEvent_resetHeld (t : Time) (k : EventKind) (i : EventOn) : (s.noteEvent t k i).resetHeld = s.resetHeld :=
  each_keeps _ (·.resetHeld) (fun _ _ => modRecord_resetHeld _ _ _) _ s
@[simp] theorem noteEvent_strap (t : Time) (k : EventKind) (i : EventOn) : (s.noteEvent t k i).strap = s.strap :=
  each_keeps _ (·.strap) (fun _ _ => modRecord_strap _ _ _) _ s
@[simp] theorem noteEvent_mode (t : Time) (k : EventKind) (i : EventOn) : (s.noteEvent t k i).mode = s.mode :=
  each_keeps _ (·.mode) (fun _ _ => modRecord_mode _ _ _) _ s
@[simp] theorem noteEvent_timebase (t : Time) (k : EventKind) (i : EventOn) : (s.noteEvent t k i).timebase = s.timebase :=
  each_keeps _ (·.timebase) (fun _ _ => modRecord_timebase _ _ _) _ s
@[simp] theorem noteEvent_linkPin (t : Time) (k : EventKind) (i : EventOn) : (s.noteEvent t k i).linkPin = s.linkPin :=
  each_keeps _ (·.linkPin) (fun _ _ => modRecord_linkPin _ _ _) _ s
@[simp] theorem noteEvent_linkStart (t : Time) (k : EventKind) (i : EventOn) : (s.noteEvent t k i).linkStart = s.linkStart :=
  each_keeps _ (·.linkStart) (fun _ _ => modRecord_linkStart _ _ _) _ s
@[simp] theorem noteEvent_attnPin (t : Time) (k : EventKind) (i : EventOn) : (s.noteEvent t k i).attnPin = s.attnPin :=
  each_keeps _ (·.attnPin) (fun _ _ => modRecord_attnPin _ _ _) _ s
@[simp] theorem noteEvent_portU (t : Time) (k : EventKind) (i : EventOn) : (s.noteEvent t k i).portU = s.portU :=
  each_keeps _ (·.portU) (fun _ _ => modRecord_portU _ _ _) _ s
@[simp] theorem noteEvent_portD (t : Time) (k : EventKind) (i : EventOn) : (s.noteEvent t k i).portD = s.portD :=
  each_keeps _ (·.portD) (fun _ _ => modRecord_portD _ _ _) _ s
@[simp] theorem noteEvent_resetPending (t : Time) (k : EventKind) (i : EventOn) : (s.noteEvent t k i).resetPending = s.resetPending :=
  each_keeps _ (·.resetPending) (fun _ _ => modRecord_resetPending _ _ _) _ s
@[simp] theorem noteEvent_shutdown (t : Time) (k : EventKind) (i : EventOn) : (s.noteEvent t k i).shutdown = s.shutdown :=
  each_keeps _ (·.shutdown) (fun _ _ => modRecord_shutdown _ _ _) _ s
@[simp] theorem noteEvent_tables (t : Time) (k : EventKind) (i : EventOn) : (s.noteEvent t k i).tables = s.tables :=
  each_keeps _ (·.tables) (fun _ _ => modRecord_tables _ _ _) _ s
@[simp] theorem noteEvent_zones (t : Time) (k : EventKind) (i : EventOn) : (s.noteEvent t k i).zones = s.zones :=
  each_keeps _ (·.zones) (fun _ _ => modRecord_zones _ _ _) _ s
@[simp] theorem noteEvent_windows (t : Time) (k : EventKind) (i : EventOn) : (s.noteEvent t k i).windows = s.windows :=
  each_keeps _ (·.windows) (fun _ _ => modRecord_windows _ _ _) _ s
@[simp] theorem noteEvent_cures (t : Time) (k : EventKind) (i : EventOn) : (s.noteEvent t k i).cures = s.cures :=
  each_keeps _ (·.cures) (fun _ _ => modRecord_cures _ _ _) _ s
@[simp] theorem noteEvent_accruals (t : Time) (k : EventKind) (i : EventOn) : (s.noteEvent t k i).accruals = s.accruals :=
  each_keeps _ (·.accruals) (fun _ _ => modRecord_accruals _ _ _) _ s
@[simp] theorem noteEvent_scales (t : Time) (k : EventKind) (i : EventOn) : (s.noteEvent t k i).scales = s.scales :=
  each_keeps _ (·.scales) (fun _ _ => modRecord_scales _ _ _) _ s
@[simp] theorem noteEvent_units (t : Time) (k : EventKind) (i : EventOn) : (s.noteEvent t k i).units = s.units :=
  each_keeps _ (·.units) (fun _ _ => modRecord_units _ _ _) _ s
@[simp] theorem noteEvent_ejectors (t : Time) (k : EventKind) (i : EventOn) : (s.noteEvent t k i).ejectors = s.ejectors :=
  each_keeps _ (·.ejectors) (fun _ _ => modRecord_ejectors _ _ _) _ s
@[simp] theorem noteEvent_profiles (t : Time) (k : EventKind) (i : EventOn) : (s.noteEvent t k i).profiles = s.profiles :=
  each_keeps _ (·.profiles) (fun _ _ => modRecord_profiles _ _ _) _ s
@[simp] theorem noteEvent_exportQueue (t : Time) (k : EventKind) (i : EventOn) : (s.noteEvent t k i).exportQueue = s.exportQueue :=
  each_keeps _ (·.exportQueue) (fun _ _ => modRecord_exportQueue _ _ _) _ s
@[simp] theorem noteEvent_events (t : Time) (k : EventKind) (i : EventOn) : (s.noteEvent t k i).events = s.events :=
  each_keeps _ (·.events) (fun _ _ => modRecord_events _ _ _) _ s
@[simp] theorem noteEvent_attention (t : Time) (k : EventKind) (i : EventOn) : (s.noteEvent t k i).attention = s.attention :=
  each_keeps _ (·.attention) (fun _ _ => modRecord_attention _ _ _) _ s
@[simp] theorem noteEvent_offNumber (t : Time) (k : EventKind) (i : EventOn) : (s.noteEvent t k i).offNumber = s.offNumber :=
  each_keeps _ (·.offNumber) (fun _ _ => modRecord_offNumber _ _ _) _ s
@[simp] theorem noteEvent_freeCounter (t : Time) (k : EventKind) (i : EventOn) : (s.noteEvent t k i).freeCounter = s.freeCounter :=
  each_keeps _ (·.freeCounter) (fun _ _ => modRecord_freeCounter _ _ _) _ s
@[simp] theorem noteEvent_warmTaking (t : Time) (k : EventKind) (i : EventOn) : (s.noteEvent t k i).warmTaking = s.warmTaking :=
  each_keeps _ (·.warmTaking) (fun _ _ => modRecord_warmTaking _ _ _) _ s

/-! ## raiseEntry -/

@[simp] theorem raiseEntry_pending (t : Time) (k : EventKind) (i : EventOn) : (s.raiseEntry t k i).pending = s.pending := by
  simp [raiseEntry]
@[simp] theorem raiseEntry_resetHeld (t : Time) (k : EventKind) (i : EventOn) : (s.raiseEntry t k i).resetHeld = s.resetHeld := by
  simp [raiseEntry]
@[simp] theorem raiseEntry_strap (t : Time) (k : EventKind) (i : EventOn) : (s.raiseEntry t k i).strap = s.strap := by
  simp [raiseEntry]
@[simp] theorem raiseEntry_mode (t : Time) (k : EventKind) (i : EventOn) : (s.raiseEntry t k i).mode = s.mode := by
  simp [raiseEntry]
@[simp] theorem raiseEntry_timebase (t : Time) (k : EventKind) (i : EventOn) : (s.raiseEntry t k i).timebase = s.timebase := by
  simp [raiseEntry]
@[simp] theorem raiseEntry_linkPin (t : Time) (k : EventKind) (i : EventOn) : (s.raiseEntry t k i).linkPin = s.linkPin := by
  simp [raiseEntry]
@[simp] theorem raiseEntry_linkStart (t : Time) (k : EventKind) (i : EventOn) : (s.raiseEntry t k i).linkStart = s.linkStart := by
  simp [raiseEntry]
@[simp] theorem raiseEntry_attnPin (t : Time) (k : EventKind) (i : EventOn) : (s.raiseEntry t k i).attnPin = s.attnPin := by
  simp [raiseEntry]
@[simp] theorem raiseEntry_portU (t : Time) (k : EventKind) (i : EventOn) : (s.raiseEntry t k i).portU = s.portU := by
  simp [raiseEntry]
@[simp] theorem raiseEntry_portD (t : Time) (k : EventKind) (i : EventOn) : (s.raiseEntry t k i).portD = s.portD := by
  simp [raiseEntry]
@[simp] theorem raiseEntry_resetPending (t : Time) (k : EventKind) (i : EventOn) : (s.raiseEntry t k i).resetPending = s.resetPending := by
  simp [raiseEntry]
@[simp] theorem raiseEntry_shutdown (t : Time) (k : EventKind) (i : EventOn) : (s.raiseEntry t k i).shutdown = s.shutdown := by
  simp [raiseEntry]
@[simp] theorem raiseEntry_tables (t : Time) (k : EventKind) (i : EventOn) : (s.raiseEntry t k i).tables = s.tables := by
  simp [raiseEntry]
@[simp] theorem raiseEntry_zones (t : Time) (k : EventKind) (i : EventOn) : (s.raiseEntry t k i).zones = s.zones := by
  simp [raiseEntry]
@[simp] theorem raiseEntry_windows (t : Time) (k : EventKind) (i : EventOn) : (s.raiseEntry t k i).windows = s.windows := by
  simp [raiseEntry]
@[simp] theorem raiseEntry_cures (t : Time) (k : EventKind) (i : EventOn) : (s.raiseEntry t k i).cures = s.cures := by
  simp [raiseEntry]
@[simp] theorem raiseEntry_accruals (t : Time) (k : EventKind) (i : EventOn) : (s.raiseEntry t k i).accruals = s.accruals := by
  simp [raiseEntry]
@[simp] theorem raiseEntry_scales (t : Time) (k : EventKind) (i : EventOn) : (s.raiseEntry t k i).scales = s.scales := by
  simp [raiseEntry]
@[simp] theorem raiseEntry_units (t : Time) (k : EventKind) (i : EventOn) : (s.raiseEntry t k i).units = s.units := by
  simp [raiseEntry]
@[simp] theorem raiseEntry_ejectors (t : Time) (k : EventKind) (i : EventOn) : (s.raiseEntry t k i).ejectors = s.ejectors := by
  simp [raiseEntry]
@[simp] theorem raiseEntry_profiles (t : Time) (k : EventKind) (i : EventOn) : (s.raiseEntry t k i).profiles = s.profiles := by
  simp [raiseEntry]
@[simp] theorem raiseEntry_exportQueue (t : Time) (k : EventKind) (i : EventOn) : (s.raiseEntry t k i).exportQueue = s.exportQueue := by
  simp [raiseEntry]
@[simp] theorem raiseEntry_attention (t : Time) (k : EventKind) (i : EventOn) : (s.raiseEntry t k i).attention = s.attention := by
  simp [raiseEntry]
@[simp] theorem raiseEntry_offNumber (t : Time) (k : EventKind) (i : EventOn) : (s.raiseEntry t k i).offNumber = s.offNumber := by
  simp [raiseEntry]
@[simp] theorem raiseEntry_freeCounter (t : Time) (k : EventKind) (i : EventOn) : (s.raiseEntry t k i).freeCounter = s.freeCounter := by
  simp [raiseEntry]
@[simp] theorem raiseEntry_warmTaking (t : Time) (k : EventKind) (i : EventOn) : (s.raiseEntry t k i).warmTaking = s.warmTaking := by
  simp [raiseEntry]

/-! ## sendEvent -/

@[simp] theorem sendEvent_pending (t : Time) : (s.sendEvent t).pending = s.pending := by
  unfold sendEvent; split <;> simp
@[simp] theorem sendEvent_resetHeld (t : Time) : (s.sendEvent t).resetHeld = s.resetHeld := by
  unfold sendEvent; split <;> simp
@[simp] theorem sendEvent_strap (t : Time) : (s.sendEvent t).strap = s.strap := by
  unfold sendEvent; split <;> simp
@[simp] theorem sendEvent_mode (t : Time) : (s.sendEvent t).mode = s.mode := by
  unfold sendEvent; split <;> simp
@[simp] theorem sendEvent_timebase (t : Time) : (s.sendEvent t).timebase = s.timebase := by
  unfold sendEvent; split <;> simp
@[simp] theorem sendEvent_linkPin (t : Time) : (s.sendEvent t).linkPin = s.linkPin := by
  unfold sendEvent; split <;> simp
@[simp] theorem sendEvent_linkStart (t : Time) : (s.sendEvent t).linkStart = s.linkStart := by
  unfold sendEvent; split <;> simp
@[simp] theorem sendEvent_attnPin (t : Time) : (s.sendEvent t).attnPin = s.attnPin := by
  unfold sendEvent; split <;> simp
@[simp] theorem sendEvent_portD (t : Time) : (s.sendEvent t).portD = s.portD := by
  unfold sendEvent; split <;> simp
@[simp] theorem sendEvent_resetPending (t : Time) : (s.sendEvent t).resetPending = s.resetPending := by
  unfold sendEvent; split <;> simp
@[simp] theorem sendEvent_shutdown (t : Time) : (s.sendEvent t).shutdown = s.shutdown := by
  unfold sendEvent; split <;> simp
@[simp] theorem sendEvent_tables (t : Time) : (s.sendEvent t).tables = s.tables := by
  unfold sendEvent; split <;> simp
@[simp] theorem sendEvent_zones (t : Time) : (s.sendEvent t).zones = s.zones := by
  unfold sendEvent; split <;> simp
@[simp] theorem sendEvent_windows (t : Time) : (s.sendEvent t).windows = s.windows := by
  unfold sendEvent; split <;> simp
@[simp] theorem sendEvent_cures (t : Time) : (s.sendEvent t).cures = s.cures := by
  unfold sendEvent; split <;> simp
@[simp] theorem sendEvent_accruals (t : Time) : (s.sendEvent t).accruals = s.accruals := by
  unfold sendEvent; split <;> simp
@[simp] theorem sendEvent_scales (t : Time) : (s.sendEvent t).scales = s.scales := by
  unfold sendEvent; split <;> simp
@[simp] theorem sendEvent_units (t : Time) : (s.sendEvent t).units = s.units := by
  unfold sendEvent; split <;> simp
@[simp] theorem sendEvent_ejectors (t : Time) : (s.sendEvent t).ejectors = s.ejectors := by
  unfold sendEvent; split <;> simp
@[simp] theorem sendEvent_profiles (t : Time) : (s.sendEvent t).profiles = s.profiles := by
  unfold sendEvent; split <;> simp
@[simp] theorem sendEvent_exportQueue (t : Time) : (s.sendEvent t).exportQueue = s.exportQueue := by
  unfold sendEvent; split <;> simp
@[simp] theorem sendEvent_attention (t : Time) : (s.sendEvent t).attention = s.attention := by
  unfold sendEvent; split <;> simp
@[simp] theorem sendEvent_offNumber (t : Time) : (s.sendEvent t).offNumber = s.offNumber := by
  unfold sendEvent; split <;> simp
@[simp] theorem sendEvent_freeCounter (t : Time) : (s.sendEvent t).freeCounter = s.freeCounter := by
  unfold sendEvent; split <;> simp
@[simp] theorem sendEvent_warmTaking (t : Time) : (s.sendEvent t).warmTaking = s.warmTaking := by
  unfold sendEvent; split <;> simp

/-! ## evalAttention -/

@[simp] theorem evalAttention_pending (t : Time) : (s.evalAttention t).pending = s.pending := by
  unfold evalAttention; repeat' split
  all_goals simp
@[simp] theorem evalAttention_resetHeld (t : Time) : (s.evalAttention t).resetHeld = s.resetHeld := by
  unfold evalAttention; repeat' split
  all_goals simp
@[simp] theorem evalAttention_strap (t : Time) : (s.evalAttention t).strap = s.strap := by
  unfold evalAttention; repeat' split
  all_goals simp
@[simp] theorem evalAttention_mode (t : Time) : (s.evalAttention t).mode = s.mode := by
  unfold evalAttention; repeat' split
  all_goals simp
@[simp] theorem evalAttention_timebase (t : Time) : (s.evalAttention t).timebase = s.timebase := by
  unfold evalAttention; repeat' split
  all_goals simp
@[simp] theorem evalAttention_linkPin (t : Time) : (s.evalAttention t).linkPin = s.linkPin := by
  unfold evalAttention; repeat' split
  all_goals simp
@[simp] theorem evalAttention_linkStart (t : Time) : (s.evalAttention t).linkStart = s.linkStart := by
  unfold evalAttention; repeat' split
  all_goals simp
@[simp] theorem evalAttention_portD (t : Time) : (s.evalAttention t).portD = s.portD := by
  unfold evalAttention; repeat' split
  all_goals simp
@[simp] theorem evalAttention_resetPending (t : Time) : (s.evalAttention t).resetPending = s.resetPending := by
  unfold evalAttention; repeat' split
  all_goals simp
@[simp] theorem evalAttention_shutdown (t : Time) : (s.evalAttention t).shutdown = s.shutdown := by
  unfold evalAttention; repeat' split
  all_goals simp
@[simp] theorem evalAttention_tables (t : Time) : (s.evalAttention t).tables = s.tables := by
  unfold evalAttention; repeat' split
  all_goals simp
@[simp] theorem evalAttention_zones (t : Time) : (s.evalAttention t).zones = s.zones := by
  unfold evalAttention; repeat' split
  all_goals simp
@[simp] theorem evalAttention_windows (t : Time) : (s.evalAttention t).windows = s.windows := by
  unfold evalAttention; repeat' split
  all_goals simp
@[simp] theorem evalAttention_cures (t : Time) : (s.evalAttention t).cures = s.cures := by
  unfold evalAttention; repeat' split
  all_goals simp
@[simp] theorem evalAttention_accruals (t : Time) : (s.evalAttention t).accruals = s.accruals := by
  unfold evalAttention; repeat' split
  all_goals simp
@[simp] theorem evalAttention_scales (t : Time) : (s.evalAttention t).scales = s.scales := by
  unfold evalAttention; repeat' split
  all_goals simp
@[simp] theorem evalAttention_units (t : Time) : (s.evalAttention t).units = s.units := by
  unfold evalAttention; repeat' split
  all_goals simp
@[simp] theorem evalAttention_ejectors (t : Time) : (s.evalAttention t).ejectors = s.ejectors := by
  unfold evalAttention; repeat' split
  all_goals simp
@[simp] theorem evalAttention_profiles (t : Time) : (s.evalAttention t).profiles = s.profiles := by
  unfold evalAttention; repeat' split
  all_goals simp
@[simp] theorem evalAttention_exportQueue (t : Time) : (s.evalAttention t).exportQueue = s.exportQueue := by
  unfold evalAttention; repeat' split
  all_goals simp
@[simp] theorem evalAttention_offNumber (t : Time) : (s.evalAttention t).offNumber = s.offNumber := by
  unfold evalAttention; repeat' split
  all_goals simp
@[simp] theorem evalAttention_freeCounter (t : Time) : (s.evalAttention t).freeCounter = s.freeCounter := by
  unfold evalAttention; repeat' split
  all_goals simp
@[simp] theorem evalAttention_warmTaking (t : Time) : (s.evalAttention t).warmTaking = s.warmTaking := by
  unfold evalAttention; repeat' split
  all_goals simp

/-! ## raise -/

@[simp] theorem raise_pending (t : Time) (k : EventKind) (i : EventOn) : (s.raise t k i).pending = s.pending := by
  unfold raise; split <;> simp
@[simp] theorem raise_resetHeld (t : Time) (k : EventKind) (i : EventOn) : (s.raise t k i).resetHeld = s.resetHeld := by
  unfold raise; split <;> simp
@[simp] theorem raise_strap (t : Time) (k : EventKind) (i : EventOn) : (s.raise t k i).strap = s.strap := by
  unfold raise; split <;> simp
@[simp] theorem raise_mode (t : Time) (k : EventKind) (i : EventOn) : (s.raise t k i).mode = s.mode := by
  unfold raise; split <;> simp
@[simp] theorem raise_timebase (t : Time) (k : EventKind) (i : EventOn) : (s.raise t k i).timebase = s.timebase := by
  unfold raise; split <;> simp
@[simp] theorem raise_linkPin (t : Time) (k : EventKind) (i : EventOn) : (s.raise t k i).linkPin = s.linkPin := by
  unfold raise; split <;> simp
@[simp] theorem raise_linkStart (t : Time) (k : EventKind) (i : EventOn) : (s.raise t k i).linkStart = s.linkStart := by
  unfold raise; split <;> simp
@[simp] theorem raise_portD (t : Time) (k : EventKind) (i : EventOn) : (s.raise t k i).portD = s.portD := by
  unfold raise; split <;> simp
@[simp] theorem raise_resetPending (t : Time) (k : EventKind) (i : EventOn) : (s.raise t k i).resetPending = s.resetPending := by
  unfold raise; split <;> simp
@[simp] theorem raise_shutdown (t : Time) (k : EventKind) (i : EventOn) : (s.raise t k i).shutdown = s.shutdown := by
  unfold raise; split <;> simp
@[simp] theorem raise_tables (t : Time) (k : EventKind) (i : EventOn) : (s.raise t k i).tables = s.tables := by
  unfold raise; split <;> simp
@[simp] theorem raise_zones (t : Time) (k : EventKind) (i : EventOn) : (s.raise t k i).zones = s.zones := by
  unfold raise; split <;> simp
@[simp] theorem raise_windows (t : Time) (k : EventKind) (i : EventOn) : (s.raise t k i).windows = s.windows := by
  unfold raise; split <;> simp
@[simp] theorem raise_cures (t : Time) (k : EventKind) (i : EventOn) : (s.raise t k i).cures = s.cures := by
  unfold raise; split <;> simp
@[simp] theorem raise_accruals (t : Time) (k : EventKind) (i : EventOn) : (s.raise t k i).accruals = s.accruals := by
  unfold raise; split <;> simp
@[simp] theorem raise_scales (t : Time) (k : EventKind) (i : EventOn) : (s.raise t k i).scales = s.scales := by
  unfold raise; split <;> simp
@[simp] theorem raise_units (t : Time) (k : EventKind) (i : EventOn) : (s.raise t k i).units = s.units := by
  unfold raise; split <;> simp
@[simp] theorem raise_ejectors (t : Time) (k : EventKind) (i : EventOn) : (s.raise t k i).ejectors = s.ejectors := by
  unfold raise; split <;> simp
@[simp] theorem raise_profiles (t : Time) (k : EventKind) (i : EventOn) : (s.raise t k i).profiles = s.profiles := by
  unfold raise; split <;> simp
@[simp] theorem raise_exportQueue (t : Time) (k : EventKind) (i : EventOn) : (s.raise t k i).exportQueue = s.exportQueue := by
  unfold raise; split <;> simp
@[simp] theorem raise_offNumber (t : Time) (k : EventKind) (i : EventOn) : (s.raise t k i).offNumber = s.offNumber := by
  unfold raise; split <;> simp
@[simp] theorem raise_freeCounter (t : Time) (k : EventKind) (i : EventOn) : (s.raise t k i).freeCounter = s.freeCounter := by
  unfold raise; split <;> simp
@[simp] theorem raise_warmTaking (t : Time) (k : EventKind) (i : EventOn) : (s.raise t k i).warmTaking = s.warmTaking := by
  unfold raise; split <;> simp

/-! ## raiseNow -/

@[simp] theorem raiseNow_pending (k : EventKind) (i : EventOn) : (s.raiseNow k i).pending = s.pending := by
  simp [raiseNow]
@[simp] theorem raiseNow_resetHeld (k : EventKind) (i : EventOn) : (s.raiseNow k i).resetHeld = s.resetHeld := by
  simp [raiseNow]
@[simp] theorem raiseNow_strap (k : EventKind) (i : EventOn) : (s.raiseNow k i).strap = s.strap := by
  simp [raiseNow]
@[simp] theorem raiseNow_mode (k : EventKind) (i : EventOn) : (s.raiseNow k i).mode = s.mode := by
  simp [raiseNow]
@[simp] theorem raiseNow_timebase (k : EventKind) (i : EventOn) : (s.raiseNow k i).timebase = s.timebase := by
  simp [raiseNow]
@[simp] theorem raiseNow_linkPin (k : EventKind) (i : EventOn) : (s.raiseNow k i).linkPin = s.linkPin := by
  simp [raiseNow]
@[simp] theorem raiseNow_linkStart (k : EventKind) (i : EventOn) : (s.raiseNow k i).linkStart = s.linkStart := by
  simp [raiseNow]
@[simp] theorem raiseNow_portD (k : EventKind) (i : EventOn) : (s.raiseNow k i).portD = s.portD := by
  simp [raiseNow]
@[simp] theorem raiseNow_resetPending (k : EventKind) (i : EventOn) : (s.raiseNow k i).resetPending = s.resetPending := by
  simp [raiseNow]
@[simp] theorem raiseNow_shutdown (k : EventKind) (i : EventOn) : (s.raiseNow k i).shutdown = s.shutdown := by
  simp [raiseNow]
@[simp] theorem raiseNow_tables (k : EventKind) (i : EventOn) : (s.raiseNow k i).tables = s.tables := by
  simp [raiseNow]
@[simp] theorem raiseNow_zones (k : EventKind) (i : EventOn) : (s.raiseNow k i).zones = s.zones := by
  simp [raiseNow]
@[simp] theorem raiseNow_windows (k : EventKind) (i : EventOn) : (s.raiseNow k i).windows = s.windows := by
  simp [raiseNow]
@[simp] theorem raiseNow_cures (k : EventKind) (i : EventOn) : (s.raiseNow k i).cures = s.cures := by
  simp [raiseNow]
@[simp] theorem raiseNow_accruals (k : EventKind) (i : EventOn) : (s.raiseNow k i).accruals = s.accruals := by
  simp [raiseNow]
@[simp] theorem raiseNow_scales (k : EventKind) (i : EventOn) : (s.raiseNow k i).scales = s.scales := by
  simp [raiseNow]
@[simp] theorem raiseNow_units (k : EventKind) (i : EventOn) : (s.raiseNow k i).units = s.units := by
  simp [raiseNow]
@[simp] theorem raiseNow_ejectors (k : EventKind) (i : EventOn) : (s.raiseNow k i).ejectors = s.ejectors := by
  simp [raiseNow]
@[simp] theorem raiseNow_profiles (k : EventKind) (i : EventOn) : (s.raiseNow k i).profiles = s.profiles := by
  simp [raiseNow]
@[simp] theorem raiseNow_exportQueue (k : EventKind) (i : EventOn) : (s.raiseNow k i).exportQueue = s.exportQueue := by
  simp [raiseNow]
@[simp] theorem raiseNow_offNumber (k : EventKind) (i : EventOn) : (s.raiseNow k i).offNumber = s.offNumber := by
  simp [raiseNow]
@[simp] theorem raiseNow_freeCounter (k : EventKind) (i : EventOn) : (s.raiseNow k i).freeCounter = s.freeCounter := by
  simp [raiseNow]
@[simp] theorem raiseNow_warmTaking (k : EventKind) (i : EventOn) : (s.raiseNow k i).warmTaking = s.warmTaking := by
  simp [raiseNow]

/-! ## pushOwn -/

@[simp] theorem pushOwn_pending (p : Port) (f : OwnFrame) : (s.pushOwn p f).pending = s.pending := by
  simp [pushOwn]
@[simp] theorem pushOwn_resetHeld (p : Port) (f : OwnFrame) : (s.pushOwn p f).resetHeld = s.resetHeld := by
  simp [pushOwn]
@[simp] theorem pushOwn_strap (p : Port) (f : OwnFrame) : (s.pushOwn p f).strap = s.strap := by
  simp [pushOwn]
@[simp] theorem pushOwn_mode (p : Port) (f : OwnFrame) : (s.pushOwn p f).mode = s.mode := by
  simp [pushOwn]
@[simp] theorem pushOwn_timebase (p : Port) (f : OwnFrame) : (s.pushOwn p f).timebase = s.timebase := by
  simp [pushOwn]
@[simp] theorem pushOwn_linkPin (p : Port) (f : OwnFrame) : (s.pushOwn p f).linkPin = s.linkPin := by
  simp [pushOwn]
@[simp] theorem pushOwn_linkStart (p : Port) (f : OwnFrame) : (s.pushOwn p f).linkStart = s.linkStart := by
  simp [pushOwn]
@[simp] theorem pushOwn_attnPin (p : Port) (f : OwnFrame) : (s.pushOwn p f).attnPin = s.attnPin := by
  simp [pushOwn]
@[simp] theorem pushOwn_resetPending (p : Port) (f : OwnFrame) : (s.pushOwn p f).resetPending = s.resetPending := by
  simp [pushOwn]
@[simp] theorem pushOwn_shutdown (p : Port) (f : OwnFrame) : (s.pushOwn p f).shutdown = s.shutdown := by
  simp [pushOwn]
@[simp] theorem pushOwn_tables (p : Port) (f : OwnFrame) : (s.pushOwn p f).tables = s.tables := by
  simp [pushOwn]
@[simp] theorem pushOwn_zones (p : Port) (f : OwnFrame) : (s.pushOwn p f).zones = s.zones := by
  simp [pushOwn]
@[simp] theorem pushOwn_windows (p : Port) (f : OwnFrame) : (s.pushOwn p f).windows = s.windows := by
  simp [pushOwn]
@[simp] theorem pushOwn_cures (p : Port) (f : OwnFrame) : (s.pushOwn p f).cures = s.cures := by
  simp [pushOwn]
@[simp] theorem pushOwn_accruals (p : Port) (f : OwnFrame) : (s.pushOwn p f).accruals = s.accruals := by
  simp [pushOwn]
@[simp] theorem pushOwn_scales (p : Port) (f : OwnFrame) : (s.pushOwn p f).scales = s.scales := by
  simp [pushOwn]
@[simp] theorem pushOwn_units (p : Port) (f : OwnFrame) : (s.pushOwn p f).units = s.units := by
  simp [pushOwn]
@[simp] theorem pushOwn_ejectors (p : Port) (f : OwnFrame) : (s.pushOwn p f).ejectors = s.ejectors := by
  simp [pushOwn]
@[simp] theorem pushOwn_history (p : Port) (f : OwnFrame) : (s.pushOwn p f).history = s.history := by
  simp [pushOwn]
@[simp] theorem pushOwn_profiles (p : Port) (f : OwnFrame) : (s.pushOwn p f).profiles = s.profiles := by
  simp [pushOwn]
@[simp] theorem pushOwn_exportQueue (p : Port) (f : OwnFrame) : (s.pushOwn p f).exportQueue = s.exportQueue := by
  simp [pushOwn]
@[simp] theorem pushOwn_events (p : Port) (f : OwnFrame) : (s.pushOwn p f).events = s.events := by
  simp [pushOwn]
@[simp] theorem pushOwn_attention (p : Port) (f : OwnFrame) : (s.pushOwn p f).attention = s.attention := by
  simp [pushOwn]
@[simp] theorem pushOwn_offNumber (p : Port) (f : OwnFrame) : (s.pushOwn p f).offNumber = s.offNumber := by
  simp [pushOwn]
@[simp] theorem pushOwn_freeCounter (p : Port) (f : OwnFrame) : (s.pushOwn p f).freeCounter = s.freeCounter := by
  simp [pushOwn]
@[simp] theorem pushOwn_warmTaking (p : Port) (f : OwnFrame) : (s.pushOwn p f).warmTaking = s.warmTaking := by
  simp [pushOwn]

/-! ## countCheck -/

@[simp] theorem countCheck_pending (p : Port) : (s.countCheck p).pending = s.pending := by
  simp [countCheck]
@[simp] theorem countCheck_resetHeld (p : Port) : (s.countCheck p).resetHeld = s.resetHeld := by
  simp [countCheck]
@[simp] theorem countCheck_strap (p : Port) : (s.countCheck p).strap = s.strap := by
  simp [countCheck]
@[simp] theorem countCheck_mode (p : Port) : (s.countCheck p).mode = s.mode := by
  simp [countCheck]
@[simp] theorem countCheck_timebase (p : Port) : (s.countCheck p).timebase = s.timebase := by
  simp [countCheck]
@[simp] theorem countCheck_linkPin (p : Port) : (s.countCheck p).linkPin = s.linkPin := by
  simp [countCheck]
@[simp] theorem countCheck_linkStart (p : Port) : (s.countCheck p).linkStart = s.linkStart := by
  simp [countCheck]
@[simp] theorem countCheck_attnPin (p : Port) : (s.countCheck p).attnPin = s.attnPin := by
  simp [countCheck]
@[simp] theorem countCheck_resetPending (p : Port) : (s.countCheck p).resetPending = s.resetPending := by
  simp [countCheck]
@[simp] theorem countCheck_shutdown (p : Port) : (s.countCheck p).shutdown = s.shutdown := by
  simp [countCheck]
@[simp] theorem countCheck_tables (p : Port) : (s.countCheck p).tables = s.tables := by
  simp [countCheck]
@[simp] theorem countCheck_zones (p : Port) : (s.countCheck p).zones = s.zones := by
  simp [countCheck]
@[simp] theorem countCheck_windows (p : Port) : (s.countCheck p).windows = s.windows := by
  simp [countCheck]
@[simp] theorem countCheck_cures (p : Port) : (s.countCheck p).cures = s.cures := by
  simp [countCheck]
@[simp] theorem countCheck_accruals (p : Port) : (s.countCheck p).accruals = s.accruals := by
  simp [countCheck]
@[simp] theorem countCheck_scales (p : Port) : (s.countCheck p).scales = s.scales := by
  simp [countCheck]
@[simp] theorem countCheck_units (p : Port) : (s.countCheck p).units = s.units := by
  simp [countCheck]
@[simp] theorem countCheck_ejectors (p : Port) : (s.countCheck p).ejectors = s.ejectors := by
  simp [countCheck]
@[simp] theorem countCheck_history (p : Port) : (s.countCheck p).history = s.history := by
  simp [countCheck]
@[simp] theorem countCheck_profiles (p : Port) : (s.countCheck p).profiles = s.profiles := by
  simp [countCheck]
@[simp] theorem countCheck_exportQueue (p : Port) : (s.countCheck p).exportQueue = s.exportQueue := by
  simp [countCheck]
@[simp] theorem countCheck_events (p : Port) : (s.countCheck p).events = s.events := by
  simp [countCheck]
@[simp] theorem countCheck_attention (p : Port) : (s.countCheck p).attention = s.attention := by
  simp [countCheck]
@[simp] theorem countCheck_offNumber (p : Port) : (s.countCheck p).offNumber = s.offNumber := by
  simp [countCheck]
@[simp] theorem countCheck_freeCounter (p : Port) : (s.countCheck p).freeCounter = s.freeCounter := by
  simp [countCheck]
@[simp] theorem countCheck_warmTaking (p : Port) : (s.countCheck p).warmTaking = s.warmTaking := by
  simp [countCheck]

/-! ## countFormat -/

@[simp] theorem countFormat_pending (p : Port) : (s.countFormat p).pending = s.pending := by
  simp [countFormat]
@[simp] theorem countFormat_resetHeld (p : Port) : (s.countFormat p).resetHeld = s.resetHeld := by
  simp [countFormat]
@[simp] theorem countFormat_strap (p : Port) : (s.countFormat p).strap = s.strap := by
  simp [countFormat]
@[simp] theorem countFormat_mode (p : Port) : (s.countFormat p).mode = s.mode := by
  simp [countFormat]
@[simp] theorem countFormat_timebase (p : Port) : (s.countFormat p).timebase = s.timebase := by
  simp [countFormat]
@[simp] theorem countFormat_linkPin (p : Port) : (s.countFormat p).linkPin = s.linkPin := by
  simp [countFormat]
@[simp] theorem countFormat_linkStart (p : Port) : (s.countFormat p).linkStart = s.linkStart := by
  simp [countFormat]
@[simp] theorem countFormat_attnPin (p : Port) : (s.countFormat p).attnPin = s.attnPin := by
  simp [countFormat]
@[simp] theorem countFormat_resetPending (p : Port) : (s.countFormat p).resetPending = s.resetPending := by
  simp [countFormat]
@[simp] theorem countFormat_shutdown (p : Port) : (s.countFormat p).shutdown = s.shutdown := by
  simp [countFormat]
@[simp] theorem countFormat_tables (p : Port) : (s.countFormat p).tables = s.tables := by
  simp [countFormat]
@[simp] theorem countFormat_zones (p : Port) : (s.countFormat p).zones = s.zones := by
  simp [countFormat]
@[simp] theorem countFormat_windows (p : Port) : (s.countFormat p).windows = s.windows := by
  simp [countFormat]
@[simp] theorem countFormat_cures (p : Port) : (s.countFormat p).cures = s.cures := by
  simp [countFormat]
@[simp] theorem countFormat_accruals (p : Port) : (s.countFormat p).accruals = s.accruals := by
  simp [countFormat]
@[simp] theorem countFormat_scales (p : Port) : (s.countFormat p).scales = s.scales := by
  simp [countFormat]
@[simp] theorem countFormat_units (p : Port) : (s.countFormat p).units = s.units := by
  simp [countFormat]
@[simp] theorem countFormat_ejectors (p : Port) : (s.countFormat p).ejectors = s.ejectors := by
  simp [countFormat]
@[simp] theorem countFormat_history (p : Port) : (s.countFormat p).history = s.history := by
  simp [countFormat]
@[simp] theorem countFormat_profiles (p : Port) : (s.countFormat p).profiles = s.profiles := by
  simp [countFormat]
@[simp] theorem countFormat_exportQueue (p : Port) : (s.countFormat p).exportQueue = s.exportQueue := by
  simp [countFormat]
@[simp] theorem countFormat_events (p : Port) : (s.countFormat p).events = s.events := by
  simp [countFormat]
@[simp] theorem countFormat_attention (p : Port) : (s.countFormat p).attention = s.attention := by
  simp [countFormat]
@[simp] theorem countFormat_offNumber (p : Port) : (s.countFormat p).offNumber = s.offNumber := by
  simp [countFormat]
@[simp] theorem countFormat_freeCounter (p : Port) : (s.countFormat p).freeCounter = s.freeCounter := by
  simp [countFormat]
@[simp] theorem countFormat_warmTaking (p : Port) : (s.countFormat p).warmTaking = s.warmTaking := by
  simp [countFormat]

/-! ## countFwdDrop -/

@[simp] theorem countFwdDrop_pending (p : Port) : (s.countFwdDrop p).pending = s.pending := by
  simp [countFwdDrop]
@[simp] theorem countFwdDrop_resetHeld (p : Port) : (s.countFwdDrop p).resetHeld = s.resetHeld := by
  simp [countFwdDrop]
@[simp] theorem countFwdDrop_strap (p : Port) : (s.countFwdDrop p).strap = s.strap := by
  simp [countFwdDrop]
@[simp] theorem countFwdDrop_mode (p : Port) : (s.countFwdDrop p).mode = s.mode := by
  simp [countFwdDrop]
@[simp] theorem countFwdDrop_timebase (p : Port) : (s.countFwdDrop p).timebase = s.timebase := by
  simp [countFwdDrop]
@[simp] theorem countFwdDrop_linkPin (p : Port) : (s.countFwdDrop p).linkPin = s.linkPin := by
  simp [countFwdDrop]
@[simp] theorem countFwdDrop_linkStart (p : Port) : (s.countFwdDrop p).linkStart = s.linkStart := by
  simp [countFwdDrop]
@[simp] theorem countFwdDrop_attnPin (p : Port) : (s.countFwdDrop p).attnPin = s.attnPin := by
  simp [countFwdDrop]
@[simp] theorem countFwdDrop_resetPending (p : Port) : (s.countFwdDrop p).resetPending = s.resetPending := by
  simp [countFwdDrop]
@[simp] theorem countFwdDrop_shutdown (p : Port) : (s.countFwdDrop p).shutdown = s.shutdown := by
  simp [countFwdDrop]
@[simp] theorem countFwdDrop_tables (p : Port) : (s.countFwdDrop p).tables = s.tables := by
  simp [countFwdDrop]
@[simp] theorem countFwdDrop_zones (p : Port) : (s.countFwdDrop p).zones = s.zones := by
  simp [countFwdDrop]
@[simp] theorem countFwdDrop_windows (p : Port) : (s.countFwdDrop p).windows = s.windows := by
  simp [countFwdDrop]
@[simp] theorem countFwdDrop_cures (p : Port) : (s.countFwdDrop p).cures = s.cures := by
  simp [countFwdDrop]
@[simp] theorem countFwdDrop_accruals (p : Port) : (s.countFwdDrop p).accruals = s.accruals := by
  simp [countFwdDrop]
@[simp] theorem countFwdDrop_scales (p : Port) : (s.countFwdDrop p).scales = s.scales := by
  simp [countFwdDrop]
@[simp] theorem countFwdDrop_units (p : Port) : (s.countFwdDrop p).units = s.units := by
  simp [countFwdDrop]
@[simp] theorem countFwdDrop_ejectors (p : Port) : (s.countFwdDrop p).ejectors = s.ejectors := by
  simp [countFwdDrop]
@[simp] theorem countFwdDrop_history (p : Port) : (s.countFwdDrop p).history = s.history := by
  simp [countFwdDrop]
@[simp] theorem countFwdDrop_profiles (p : Port) : (s.countFwdDrop p).profiles = s.profiles := by
  simp [countFwdDrop]
@[simp] theorem countFwdDrop_exportQueue (p : Port) : (s.countFwdDrop p).exportQueue = s.exportQueue := by
  simp [countFwdDrop]
@[simp] theorem countFwdDrop_events (p : Port) : (s.countFwdDrop p).events = s.events := by
  simp [countFwdDrop]
@[simp] theorem countFwdDrop_attention (p : Port) : (s.countFwdDrop p).attention = s.attention := by
  simp [countFwdDrop]
@[simp] theorem countFwdDrop_offNumber (p : Port) : (s.countFwdDrop p).offNumber = s.offNumber := by
  simp [countFwdDrop]
@[simp] theorem countFwdDrop_freeCounter (p : Port) : (s.countFwdDrop p).freeCounter = s.freeCounter := by
  simp [countFwdDrop]
@[simp] theorem countFwdDrop_warmTaking (p : Port) : (s.countFwdDrop p).warmTaking = s.warmTaking := by
  simp [countFwdDrop]

/-! ## countOwnDrop -/

@[simp] theorem countOwnDrop_pending (p : Port) : (s.countOwnDrop p).pending = s.pending := by
  simp [countOwnDrop]
@[simp] theorem countOwnDrop_resetHeld (p : Port) : (s.countOwnDrop p).resetHeld = s.resetHeld := by
  simp [countOwnDrop]
@[simp] theorem countOwnDrop_strap (p : Port) : (s.countOwnDrop p).strap = s.strap := by
  simp [countOwnDrop]
@[simp] theorem countOwnDrop_mode (p : Port) : (s.countOwnDrop p).mode = s.mode := by
  simp [countOwnDrop]
@[simp] theorem countOwnDrop_timebase (p : Port) : (s.countOwnDrop p).timebase = s.timebase := by
  simp [countOwnDrop]
@[simp] theorem countOwnDrop_linkPin (p : Port) : (s.countOwnDrop p).linkPin = s.linkPin := by
  simp [countOwnDrop]
@[simp] theorem countOwnDrop_linkStart (p : Port) : (s.countOwnDrop p).linkStart = s.linkStart := by
  simp [countOwnDrop]
@[simp] theorem countOwnDrop_attnPin (p : Port) : (s.countOwnDrop p).attnPin = s.attnPin := by
  simp [countOwnDrop]
@[simp] theorem countOwnDrop_resetPending (p : Port) : (s.countOwnDrop p).resetPending = s.resetPending := by
  simp [countOwnDrop]
@[simp] theorem countOwnDrop_shutdown (p : Port) : (s.countOwnDrop p).shutdown = s.shutdown := by
  simp [countOwnDrop]
@[simp] theorem countOwnDrop_tables (p : Port) : (s.countOwnDrop p).tables = s.tables := by
  simp [countOwnDrop]
@[simp] theorem countOwnDrop_zones (p : Port) : (s.countOwnDrop p).zones = s.zones := by
  simp [countOwnDrop]
@[simp] theorem countOwnDrop_windows (p : Port) : (s.countOwnDrop p).windows = s.windows := by
  simp [countOwnDrop]
@[simp] theorem countOwnDrop_cures (p : Port) : (s.countOwnDrop p).cures = s.cures := by
  simp [countOwnDrop]
@[simp] theorem countOwnDrop_accruals (p : Port) : (s.countOwnDrop p).accruals = s.accruals := by
  simp [countOwnDrop]
@[simp] theorem countOwnDrop_scales (p : Port) : (s.countOwnDrop p).scales = s.scales := by
  simp [countOwnDrop]
@[simp] theorem countOwnDrop_units (p : Port) : (s.countOwnDrop p).units = s.units := by
  simp [countOwnDrop]
@[simp] theorem countOwnDrop_ejectors (p : Port) : (s.countOwnDrop p).ejectors = s.ejectors := by
  simp [countOwnDrop]
@[simp] theorem countOwnDrop_history (p : Port) : (s.countOwnDrop p).history = s.history := by
  simp [countOwnDrop]
@[simp] theorem countOwnDrop_profiles (p : Port) : (s.countOwnDrop p).profiles = s.profiles := by
  simp [countOwnDrop]
@[simp] theorem countOwnDrop_exportQueue (p : Port) : (s.countOwnDrop p).exportQueue = s.exportQueue := by
  simp [countOwnDrop]
@[simp] theorem countOwnDrop_events (p : Port) : (s.countOwnDrop p).events = s.events := by
  simp [countOwnDrop]
@[simp] theorem countOwnDrop_attention (p : Port) : (s.countOwnDrop p).attention = s.attention := by
  simp [countOwnDrop]
@[simp] theorem countOwnDrop_offNumber (p : Port) : (s.countOwnDrop p).offNumber = s.offNumber := by
  simp [countOwnDrop]
@[simp] theorem countOwnDrop_freeCounter (p : Port) : (s.countOwnDrop p).freeCounter = s.freeCounter := by
  simp [countOwnDrop]
@[simp] theorem countOwnDrop_warmTaking (p : Port) : (s.countOwnDrop p).warmTaking = s.warmTaking := by
  simp [countOwnDrop]

/-! ## countForeign -/

@[simp] theorem countForeign_pending (p : Port) : (s.countForeign p).pending = s.pending := by
  simp [countForeign]
@[simp] theorem countForeign_resetHeld (p : Port) : (s.countForeign p).resetHeld = s.resetHeld := by
  simp [countForeign]
@[simp] theorem countForeign_strap (p : Port) : (s.countForeign p).strap = s.strap := by
  simp [countForeign]
@[simp] theorem countForeign_mode (p : Port) : (s.countForeign p).mode = s.mode := by
  simp [countForeign]
@[simp] theorem countForeign_timebase (p : Port) : (s.countForeign p).timebase = s.timebase := by
  simp [countForeign]
@[simp] theorem countForeign_linkPin (p : Port) : (s.countForeign p).linkPin = s.linkPin := by
  simp [countForeign]
@[simp] theorem countForeign_linkStart (p : Port) : (s.countForeign p).linkStart = s.linkStart := by
  simp [countForeign]
@[simp] theorem countForeign_attnPin (p : Port) : (s.countForeign p).attnPin = s.attnPin := by
  simp [countForeign]
@[simp] theorem countForeign_resetPending (p : Port) : (s.countForeign p).resetPending = s.resetPending := by
  simp [countForeign]
@[simp] theorem countForeign_shutdown (p : Port) : (s.countForeign p).shutdown = s.shutdown := by
  simp [countForeign]
@[simp] theorem countForeign_tables (p : Port) : (s.countForeign p).tables = s.tables := by
  simp [countForeign]
@[simp] theorem countForeign_zones (p : Port) : (s.countForeign p).zones = s.zones := by
  simp [countForeign]
@[simp] theorem countForeign_windows (p : Port) : (s.countForeign p).windows = s.windows := by
  simp [countForeign]
@[simp] theorem countForeign_cures (p : Port) : (s.countForeign p).cures = s.cures := by
  simp [countForeign]
@[simp] theorem countForeign_accruals (p : Port) : (s.countForeign p).accruals = s.accruals := by
  simp [countForeign]
@[simp] theorem countForeign_scales (p : Port) : (s.countForeign p).scales = s.scales := by
  simp [countForeign]
@[simp] theorem countForeign_units (p : Port) : (s.countForeign p).units = s.units := by
  simp [countForeign]
@[simp] theorem countForeign_ejectors (p : Port) : (s.countForeign p).ejectors = s.ejectors := by
  simp [countForeign]
@[simp] theorem countForeign_history (p : Port) : (s.countForeign p).history = s.history := by
  simp [countForeign]
@[simp] theorem countForeign_profiles (p : Port) : (s.countForeign p).profiles = s.profiles := by
  simp [countForeign]
@[simp] theorem countForeign_exportQueue (p : Port) : (s.countForeign p).exportQueue = s.exportQueue := by
  simp [countForeign]
@[simp] theorem countForeign_events (p : Port) : (s.countForeign p).events = s.events := by
  simp [countForeign]
@[simp] theorem countForeign_attention (p : Port) : (s.countForeign p).attention = s.attention := by
  simp [countForeign]
@[simp] theorem countForeign_offNumber (p : Port) : (s.countForeign p).offNumber = s.offNumber := by
  simp [countForeign]
@[simp] theorem countForeign_freeCounter (p : Port) : (s.countForeign p).freeCounter = s.freeCounter := by
  simp [countForeign]
@[simp] theorem countForeign_warmTaking (p : Port) : (s.countForeign p).warmTaking = s.warmTaking := by
  simp [countForeign]

/-! ## forwardTo -/

@[simp] theorem forwardTo_pending (p : Port) (b : List Byte) : (s.forwardTo p b).pending = s.pending := by
  unfold forwardTo; repeat' split
  all_goals simp
@[simp] theorem forwardTo_resetHeld (p : Port) (b : List Byte) : (s.forwardTo p b).resetHeld = s.resetHeld := by
  unfold forwardTo; repeat' split
  all_goals simp
@[simp] theorem forwardTo_strap (p : Port) (b : List Byte) : (s.forwardTo p b).strap = s.strap := by
  unfold forwardTo; repeat' split
  all_goals simp
@[simp] theorem forwardTo_mode (p : Port) (b : List Byte) : (s.forwardTo p b).mode = s.mode := by
  unfold forwardTo; repeat' split
  all_goals simp
@[simp] theorem forwardTo_timebase (p : Port) (b : List Byte) : (s.forwardTo p b).timebase = s.timebase := by
  unfold forwardTo; repeat' split
  all_goals simp
@[simp] theorem forwardTo_linkPin (p : Port) (b : List Byte) : (s.forwardTo p b).linkPin = s.linkPin := by
  unfold forwardTo; repeat' split
  all_goals simp
@[simp] theorem forwardTo_linkStart (p : Port) (b : List Byte) : (s.forwardTo p b).linkStart = s.linkStart := by
  unfold forwardTo; repeat' split
  all_goals simp
@[simp] theorem forwardTo_resetPending (p : Port) (b : List Byte) : (s.forwardTo p b).resetPending = s.resetPending := by
  unfold forwardTo; repeat' split
  all_goals simp
@[simp] theorem forwardTo_shutdown (p : Port) (b : List Byte) : (s.forwardTo p b).shutdown = s.shutdown := by
  unfold forwardTo; repeat' split
  all_goals simp
@[simp] theorem forwardTo_tables (p : Port) (b : List Byte) : (s.forwardTo p b).tables = s.tables := by
  unfold forwardTo; repeat' split
  all_goals simp
@[simp] theorem forwardTo_zones (p : Port) (b : List Byte) : (s.forwardTo p b).zones = s.zones := by
  unfold forwardTo; repeat' split
  all_goals simp
@[simp] theorem forwardTo_windows (p : Port) (b : List Byte) : (s.forwardTo p b).windows = s.windows := by
  unfold forwardTo; repeat' split
  all_goals simp
@[simp] theorem forwardTo_cures (p : Port) (b : List Byte) : (s.forwardTo p b).cures = s.cures := by
  unfold forwardTo; repeat' split
  all_goals simp
@[simp] theorem forwardTo_accruals (p : Port) (b : List Byte) : (s.forwardTo p b).accruals = s.accruals := by
  unfold forwardTo; repeat' split
  all_goals simp
@[simp] theorem forwardTo_scales (p : Port) (b : List Byte) : (s.forwardTo p b).scales = s.scales := by
  unfold forwardTo; repeat' split
  all_goals simp
@[simp] theorem forwardTo_units (p : Port) (b : List Byte) : (s.forwardTo p b).units = s.units := by
  unfold forwardTo; repeat' split
  all_goals simp
@[simp] theorem forwardTo_ejectors (p : Port) (b : List Byte) : (s.forwardTo p b).ejectors = s.ejectors := by
  unfold forwardTo; repeat' split
  all_goals simp
@[simp] theorem forwardTo_profiles (p : Port) (b : List Byte) : (s.forwardTo p b).profiles = s.profiles := by
  unfold forwardTo; repeat' split
  all_goals simp
@[simp] theorem forwardTo_exportQueue (p : Port) (b : List Byte) : (s.forwardTo p b).exportQueue = s.exportQueue := by
  unfold forwardTo; repeat' split
  all_goals simp
@[simp] theorem forwardTo_offNumber (p : Port) (b : List Byte) : (s.forwardTo p b).offNumber = s.offNumber := by
  unfold forwardTo; repeat' split
  all_goals simp
@[simp] theorem forwardTo_freeCounter (p : Port) (b : List Byte) : (s.forwardTo p b).freeCounter = s.freeCounter := by
  unfold forwardTo; repeat' split
  all_goals simp
@[simp] theorem forwardTo_warmTaking (p : Port) (b : List Byte) : (s.forwardTo p b).warmTaking = s.warmTaking := by
  unfold forwardTo; repeat' split
  all_goals simp

/-! ## originate -/

@[simp] theorem originate_pending (p : Port) (d : Nat) (k : FrameKind) (b : List Byte) (m : Mark) : (s.originate p d k b m).pending = s.pending := by
  unfold originate; repeat' split
  all_goals simp
@[simp] theorem originate_resetHeld (p : Port) (d : Nat) (k : FrameKind) (b : List Byte) (m : Mark) : (s.originate p d k b m).resetHeld = s.resetHeld := by
  unfold originate; repeat' split
  all_goals simp
@[simp] theorem originate_strap (p : Port) (d : Nat) (k : FrameKind) (b : List Byte) (m : Mark) : (s.originate p d k b m).strap = s.strap := by
  unfold originate; repeat' split
  all_goals simp
@[simp] theorem originate_mode (p : Port) (d : Nat) (k : FrameKind) (b : List Byte) (m : Mark) : (s.originate p d k b m).mode = s.mode := by
  unfold originate; repeat' split
  all_goals simp
@[simp] theorem originate_timebase (p : Port) (d : Nat) (k : FrameKind) (b : List Byte) (m : Mark) : (s.originate p d k b m).timebase = s.timebase := by
  unfold originate; repeat' split
  all_goals simp
@[simp] theorem originate_linkPin (p : Port) (d : Nat) (k : FrameKind) (b : List Byte) (m : Mark) : (s.originate p d k b m).linkPin = s.linkPin := by
  unfold originate; repeat' split
  all_goals simp
@[simp] theorem originate_linkStart (p : Port) (d : Nat) (k : FrameKind) (b : List Byte) (m : Mark) : (s.originate p d k b m).linkStart = s.linkStart := by
  unfold originate; repeat' split
  all_goals simp
@[simp] theorem originate_resetPending (p : Port) (d : Nat) (k : FrameKind) (b : List Byte) (m : Mark) : (s.originate p d k b m).resetPending = s.resetPending := by
  unfold originate; repeat' split
  all_goals simp
@[simp] theorem originate_shutdown (p : Port) (d : Nat) (k : FrameKind) (b : List Byte) (m : Mark) : (s.originate p d k b m).shutdown = s.shutdown := by
  unfold originate; repeat' split
  all_goals simp
@[simp] theorem originate_tables (p : Port) (d : Nat) (k : FrameKind) (b : List Byte) (m : Mark) : (s.originate p d k b m).tables = s.tables := by
  unfold originate; repeat' split
  all_goals simp
@[simp] theorem originate_zones (p : Port) (d : Nat) (k : FrameKind) (b : List Byte) (m : Mark) : (s.originate p d k b m).zones = s.zones := by
  unfold originate; repeat' split
  all_goals simp
@[simp] theorem originate_windows (p : Port) (d : Nat) (k : FrameKind) (b : List Byte) (m : Mark) : (s.originate p d k b m).windows = s.windows := by
  unfold originate; repeat' split
  all_goals simp
@[simp] theorem originate_cures (p : Port) (d : Nat) (k : FrameKind) (b : List Byte) (m : Mark) : (s.originate p d k b m).cures = s.cures := by
  unfold originate; repeat' split
  all_goals simp
@[simp] theorem originate_accruals (p : Port) (d : Nat) (k : FrameKind) (b : List Byte) (m : Mark) : (s.originate p d k b m).accruals = s.accruals := by
  unfold originate; repeat' split
  all_goals simp
@[simp] theorem originate_scales (p : Port) (d : Nat) (k : FrameKind) (b : List Byte) (m : Mark) : (s.originate p d k b m).scales = s.scales := by
  unfold originate; repeat' split
  all_goals simp
@[simp] theorem originate_units (p : Port) (d : Nat) (k : FrameKind) (b : List Byte) (m : Mark) : (s.originate p d k b m).units = s.units := by
  unfold originate; repeat' split
  all_goals simp
@[simp] theorem originate_ejectors (p : Port) (d : Nat) (k : FrameKind) (b : List Byte) (m : Mark) : (s.originate p d k b m).ejectors = s.ejectors := by
  unfold originate; repeat' split
  all_goals simp
@[simp] theorem originate_profiles (p : Port) (d : Nat) (k : FrameKind) (b : List Byte) (m : Mark) : (s.originate p d k b m).profiles = s.profiles := by
  unfold originate; repeat' split
  all_goals simp
@[simp] theorem originate_exportQueue (p : Port) (d : Nat) (k : FrameKind) (b : List Byte) (m : Mark) : (s.originate p d k b m).exportQueue = s.exportQueue := by
  unfold originate; repeat' split
  all_goals simp
@[simp] theorem originate_offNumber (p : Port) (d : Nat) (k : FrameKind) (b : List Byte) (m : Mark) : (s.originate p d k b m).offNumber = s.offNumber := by
  unfold originate; repeat' split
  all_goals simp
@[simp] theorem originate_freeCounter (p : Port) (d : Nat) (k : FrameKind) (b : List Byte) (m : Mark) : (s.originate p d k b m).freeCounter = s.freeCounter := by
  unfold originate; repeat' split
  all_goals simp
@[simp] theorem originate_warmTaking (p : Port) (d : Nat) (k : FrameKind) (b : List Byte) (m : Mark) : (s.originate p d k b m).warmTaking = s.warmTaking := by
  unfold originate; repeat' split
  all_goals simp

/-! ## placeEjectOff -/

@[simp] theorem placeEjectOff_pending (p : PressNo) : (s.placeEjectOff p).pending = s.pending := by
  unfold placeEjectOff; repeat' split
  all_goals simp
@[simp] theorem placeEjectOff_resetHeld (p : PressNo) : (s.placeEjectOff p).resetHeld = s.resetHeld := by
  unfold placeEjectOff; repeat' split
  all_goals simp
@[simp] theorem placeEjectOff_strap (p : PressNo) : (s.placeEjectOff p).strap = s.strap := by
  unfold placeEjectOff; repeat' split
  all_goals simp
@[simp] theorem placeEjectOff_mode (p : PressNo) : (s.placeEjectOff p).mode = s.mode := by
  unfold placeEjectOff; repeat' split
  all_goals simp
@[simp] theorem placeEjectOff_timebase (p : PressNo) : (s.placeEjectOff p).timebase = s.timebase := by
  unfold placeEjectOff; repeat' split
  all_goals simp
@[simp] theorem placeEjectOff_linkPin (p : PressNo) : (s.placeEjectOff p).linkPin = s.linkPin := by
  unfold placeEjectOff; repeat' split
  all_goals simp
@[simp] theorem placeEjectOff_linkStart (p : PressNo) : (s.placeEjectOff p).linkStart = s.linkStart := by
  unfold placeEjectOff; repeat' split
  all_goals simp
@[simp] theorem placeEjectOff_attnPin (p : PressNo) : (s.placeEjectOff p).attnPin = s.attnPin := by
  unfold placeEjectOff; repeat' split
  all_goals simp
@[simp] theorem placeEjectOff_resetPending (p : PressNo) : (s.placeEjectOff p).resetPending = s.resetPending := by
  unfold placeEjectOff; repeat' split
  all_goals simp
@[simp] theorem placeEjectOff_shutdown (p : PressNo) : (s.placeEjectOff p).shutdown = s.shutdown := by
  unfold placeEjectOff; repeat' split
  all_goals simp
@[simp] theorem placeEjectOff_tables (p : PressNo) : (s.placeEjectOff p).tables = s.tables := by
  unfold placeEjectOff; repeat' split
  all_goals simp
@[simp] theorem placeEjectOff_zones (p : PressNo) : (s.placeEjectOff p).zones = s.zones := by
  unfold placeEjectOff; repeat' split
  all_goals simp
@[simp] theorem placeEjectOff_windows (p : PressNo) : (s.placeEjectOff p).windows = s.windows := by
  unfold placeEjectOff; repeat' split
  all_goals simp
@[simp] theorem placeEjectOff_cures (p : PressNo) : (s.placeEjectOff p).cures = s.cures := by
  unfold placeEjectOff; repeat' split
  all_goals simp
@[simp] theorem placeEjectOff_accruals (p : PressNo) : (s.placeEjectOff p).accruals = s.accruals := by
  unfold placeEjectOff; repeat' split
  all_goals simp
@[simp] theorem placeEjectOff_scales (p : PressNo) : (s.placeEjectOff p).scales = s.scales := by
  unfold placeEjectOff; repeat' split
  all_goals simp
@[simp] theorem placeEjectOff_units (p : PressNo) : (s.placeEjectOff p).units = s.units := by
  unfold placeEjectOff; repeat' split
  all_goals simp
@[simp] theorem placeEjectOff_history (p : PressNo) : (s.placeEjectOff p).history = s.history := by
  unfold placeEjectOff; repeat' split
  all_goals simp
@[simp] theorem placeEjectOff_profiles (p : PressNo) : (s.placeEjectOff p).profiles = s.profiles := by
  unfold placeEjectOff; repeat' split
  all_goals simp
@[simp] theorem placeEjectOff_exportQueue (p : PressNo) : (s.placeEjectOff p).exportQueue = s.exportQueue := by
  unfold placeEjectOff; repeat' split
  all_goals simp
@[simp] theorem placeEjectOff_events (p : PressNo) : (s.placeEjectOff p).events = s.events := by
  unfold placeEjectOff; repeat' split
  all_goals simp
@[simp] theorem placeEjectOff_attention (p : PressNo) : (s.placeEjectOff p).attention = s.attention := by
  unfold placeEjectOff; repeat' split
  all_goals simp
@[simp] theorem placeEjectOff_offNumber (p : PressNo) : (s.placeEjectOff p).offNumber = s.offNumber := by
  unfold placeEjectOff; repeat' split
  all_goals simp
@[simp] theorem placeEjectOff_freeCounter (p : PressNo) : (s.placeEjectOff p).freeCounter = s.freeCounter := by
  unfold placeEjectOff; repeat' split
  all_goals simp
@[simp] theorem placeEjectOff_warmTaking (p : PressNo) : (s.placeEjectOff p).warmTaking = s.warmTaking := by
  unfold placeEjectOff; repeat' split
  all_goals simp
@[simp] theorem placeEjectOff_portU (p : PressNo) : (s.placeEjectOff p).portU = s.portU := by
  unfold placeEjectOff; repeat' split
  all_goals simp [pushOwn]

/-! ## placeOffCommand -/

@[simp] theorem placeOffCommand_pending (z : ZoneNo) (o : OffCommand) : (s.placeOffCommand z o).pending = s.pending := by
  unfold placeOffCommand; repeat' split
  all_goals simp
@[simp] theorem placeOffCommand_resetHeld (z : ZoneNo) (o : OffCommand) : (s.placeOffCommand z o).resetHeld = s.resetHeld := by
  unfold placeOffCommand; repeat' split
  all_goals simp
@[simp] theorem placeOffCommand_strap (z : ZoneNo) (o : OffCommand) : (s.placeOffCommand z o).strap = s.strap := by
  unfold placeOffCommand; repeat' split
  all_goals simp
@[simp] theorem placeOffCommand_mode (z : ZoneNo) (o : OffCommand) : (s.placeOffCommand z o).mode = s.mode := by
  unfold placeOffCommand; repeat' split
  all_goals simp
@[simp] theorem placeOffCommand_timebase (z : ZoneNo) (o : OffCommand) : (s.placeOffCommand z o).timebase = s.timebase := by
  unfold placeOffCommand; repeat' split
  all_goals simp
@[simp] theorem placeOffCommand_linkPin (z : ZoneNo) (o : OffCommand) : (s.placeOffCommand z o).linkPin = s.linkPin := by
  unfold placeOffCommand; repeat' split
  all_goals simp
@[simp] theorem placeOffCommand_linkStart (z : ZoneNo) (o : OffCommand) : (s.placeOffCommand z o).linkStart = s.linkStart := by
  unfold placeOffCommand; repeat' split
  all_goals simp
@[simp] theorem placeOffCommand_attnPin (z : ZoneNo) (o : OffCommand) : (s.placeOffCommand z o).attnPin = s.attnPin := by
  unfold placeOffCommand; repeat' split
  all_goals simp
@[simp] theorem placeOffCommand_resetPending (z : ZoneNo) (o : OffCommand) : (s.placeOffCommand z o).resetPending = s.resetPending := by
  unfold placeOffCommand; repeat' split
  all_goals simp
@[simp] theorem placeOffCommand_shutdown (z : ZoneNo) (o : OffCommand) : (s.placeOffCommand z o).shutdown = s.shutdown := by
  unfold placeOffCommand; repeat' split
  all_goals simp
@[simp] theorem placeOffCommand_tables (z : ZoneNo) (o : OffCommand) : (s.placeOffCommand z o).tables = s.tables := by
  unfold placeOffCommand; repeat' split
  all_goals simp
@[simp] theorem placeOffCommand_windows (z : ZoneNo) (o : OffCommand) : (s.placeOffCommand z o).windows = s.windows := by
  unfold placeOffCommand; repeat' split
  all_goals simp
@[simp] theorem placeOffCommand_cures (z : ZoneNo) (o : OffCommand) : (s.placeOffCommand z o).cures = s.cures := by
  unfold placeOffCommand; repeat' split
  all_goals simp
@[simp] theorem placeOffCommand_accruals (z : ZoneNo) (o : OffCommand) : (s.placeOffCommand z o).accruals = s.accruals := by
  unfold placeOffCommand; repeat' split
  all_goals simp
@[simp] theorem placeOffCommand_scales (z : ZoneNo) (o : OffCommand) : (s.placeOffCommand z o).scales = s.scales := by
  unfold placeOffCommand; repeat' split
  all_goals simp
@[simp] theorem placeOffCommand_units (z : ZoneNo) (o : OffCommand) : (s.placeOffCommand z o).units = s.units := by
  unfold placeOffCommand; repeat' split
  all_goals simp
@[simp] theorem placeOffCommand_ejectors (z : ZoneNo) (o : OffCommand) : (s.placeOffCommand z o).ejectors = s.ejectors := by
  unfold placeOffCommand; repeat' split
  all_goals simp
@[simp] theorem placeOffCommand_history (z : ZoneNo) (o : OffCommand) : (s.placeOffCommand z o).history = s.history := by
  unfold placeOffCommand; repeat' split
  all_goals simp
@[simp] theorem placeOffCommand_profiles (z : ZoneNo) (o : OffCommand) : (s.placeOffCommand z o).profiles = s.profiles := by
  unfold placeOffCommand; repeat' split
  all_goals simp
@[simp] theorem placeOffCommand_exportQueue (z : ZoneNo) (o : OffCommand) : (s.placeOffCommand z o).exportQueue = s.exportQueue := by
  unfold placeOffCommand; repeat' split
  all_goals simp
@[simp] theorem placeOffCommand_events (z : ZoneNo) (o : OffCommand) : (s.placeOffCommand z o).events = s.events := by
  unfold placeOffCommand; repeat' split
  all_goals simp
@[simp] theorem placeOffCommand_attention (z : ZoneNo) (o : OffCommand) : (s.placeOffCommand z o).attention = s.attention := by
  unfold placeOffCommand; repeat' split
  all_goals simp
@[simp] theorem placeOffCommand_offNumber (z : ZoneNo) (o : OffCommand) : (s.placeOffCommand z o).offNumber = s.offNumber := by
  unfold placeOffCommand; repeat' split
  all_goals simp
@[simp] theorem placeOffCommand_freeCounter (z : ZoneNo) (o : OffCommand) : (s.placeOffCommand z o).freeCounter = s.freeCounter := by
  unfold placeOffCommand; repeat' split
  all_goals simp
@[simp] theorem placeOffCommand_warmTaking (z : ZoneNo) (o : OffCommand) : (s.placeOffCommand z o).warmTaking = s.warmTaking := by
  unfold placeOffCommand; repeat' split
  all_goals simp
@[simp] theorem placeOffCommand_portU (z : ZoneNo) (o : OffCommand) : (s.placeOffCommand z o).portU = s.portU := by
  unfold placeOffCommand; repeat' split
  all_goals simp [pushOwn]

/-! ## placeZoneOffs -/

@[simp] theorem placeZoneOffs_pending (z : ZoneNo) : (s.placeZoneOffs z).pending = s.pending :=
  each_keeps _ (·.pending) (fun _ _ => placeOffCommand_pending _ _ _) _ s
@[simp] theorem placeZoneOffs_resetHeld (z : ZoneNo) : (s.placeZoneOffs z).resetHeld = s.resetHeld :=
  each_keeps _ (·.resetHeld) (fun _ _ => placeOffCommand_resetHeld _ _ _) _ s
@[simp] theorem placeZoneOffs_strap (z : ZoneNo) : (s.placeZoneOffs z).strap = s.strap :=
  each_keeps _ (·.strap) (fun _ _ => placeOffCommand_strap _ _ _) _ s
@[simp] theorem placeZoneOffs_mode (z : ZoneNo) : (s.placeZoneOffs z).mode = s.mode :=
  each_keeps _ (·.mode) (fun _ _ => placeOffCommand_mode _ _ _) _ s
@[simp] theorem placeZoneOffs_timebase (z : ZoneNo) : (s.placeZoneOffs z).timebase = s.timebase :=
  each_keeps _ (·.timebase) (fun _ _ => placeOffCommand_timebase _ _ _) _ s
@[simp] theorem placeZoneOffs_linkPin (z : ZoneNo) : (s.placeZoneOffs z).linkPin = s.linkPin :=
  each_keeps _ (·.linkPin) (fun _ _ => placeOffCommand_linkPin _ _ _) _ s
@[simp] theorem placeZoneOffs_linkStart (z : ZoneNo) : (s.placeZoneOffs z).linkStart = s.linkStart :=
  each_keeps _ (·.linkStart) (fun _ _ => placeOffCommand_linkStart _ _ _) _ s
@[simp] theorem placeZoneOffs_attnPin (z : ZoneNo) : (s.placeZoneOffs z).attnPin = s.attnPin :=
  each_keeps _ (·.attnPin) (fun _ _ => placeOffCommand_attnPin _ _ _) _ s
@[simp] theorem placeZoneOffs_resetPending (z : ZoneNo) : (s.placeZoneOffs z).resetPending = s.resetPending :=
  each_keeps _ (·.resetPending) (fun _ _ => placeOffCommand_resetPending _ _ _) _ s
@[simp] theorem placeZoneOffs_shutdown (z : ZoneNo) : (s.placeZoneOffs z).shutdown = s.shutdown :=
  each_keeps _ (·.shutdown) (fun _ _ => placeOffCommand_shutdown _ _ _) _ s
@[simp] theorem placeZoneOffs_tables (z : ZoneNo) : (s.placeZoneOffs z).tables = s.tables :=
  each_keeps _ (·.tables) (fun _ _ => placeOffCommand_tables _ _ _) _ s
@[simp] theorem placeZoneOffs_windows (z : ZoneNo) : (s.placeZoneOffs z).windows = s.windows :=
  each_keeps _ (·.windows) (fun _ _ => placeOffCommand_windows _ _ _) _ s
@[simp] theorem placeZoneOffs_cures (z : ZoneNo) : (s.placeZoneOffs z).cures = s.cures :=
  each_keeps _ (·.cures) (fun _ _ => placeOffCommand_cures _ _ _) _ s
@[simp] theorem placeZoneOffs_accruals (z : ZoneNo) : (s.placeZoneOffs z).accruals = s.accruals :=
  each_keeps _ (·.accruals) (fun _ _ => placeOffCommand_accruals _ _ _) _ s
@[simp] theorem placeZoneOffs_scales (z : ZoneNo) : (s.placeZoneOffs z).scales = s.scales :=
  each_keeps _ (·.scales) (fun _ _ => placeOffCommand_scales _ _ _) _ s
@[simp] theorem placeZoneOffs_units (z : ZoneNo) : (s.placeZoneOffs z).units = s.units :=
  each_keeps _ (·.units) (fun _ _ => placeOffCommand_units _ _ _) _ s
@[simp] theorem placeZoneOffs_ejectors (z : ZoneNo) : (s.placeZoneOffs z).ejectors = s.ejectors :=
  each_keeps _ (·.ejectors) (fun _ _ => placeOffCommand_ejectors _ _ _) _ s
@[simp] theorem placeZoneOffs_history (z : ZoneNo) : (s.placeZoneOffs z).history = s.history :=
  each_keeps _ (·.history) (fun _ _ => placeOffCommand_history _ _ _) _ s
@[simp] theorem placeZoneOffs_profiles (z : ZoneNo) : (s.placeZoneOffs z).profiles = s.profiles :=
  each_keeps _ (·.profiles) (fun _ _ => placeOffCommand_profiles _ _ _) _ s
@[simp] theorem placeZoneOffs_exportQueue (z : ZoneNo) : (s.placeZoneOffs z).exportQueue = s.exportQueue :=
  each_keeps _ (·.exportQueue) (fun _ _ => placeOffCommand_exportQueue _ _ _) _ s
@[simp] theorem placeZoneOffs_events (z : ZoneNo) : (s.placeZoneOffs z).events = s.events :=
  each_keeps _ (·.events) (fun _ _ => placeOffCommand_events _ _ _) _ s
@[simp] theorem placeZoneOffs_attention (z : ZoneNo) : (s.placeZoneOffs z).attention = s.attention :=
  each_keeps _ (·.attention) (fun _ _ => placeOffCommand_attention _ _ _) _ s
@[simp] theorem placeZoneOffs_offNumber (z : ZoneNo) : (s.placeZoneOffs z).offNumber = s.offNumber :=
  each_keeps _ (·.offNumber) (fun _ _ => placeOffCommand_offNumber _ _ _) _ s
@[simp] theorem placeZoneOffs_freeCounter (z : ZoneNo) : (s.placeZoneOffs z).freeCounter = s.freeCounter :=
  each_keeps _ (·.freeCounter) (fun _ _ => placeOffCommand_freeCounter _ _ _) _ s
@[simp] theorem placeZoneOffs_warmTaking (z : ZoneNo) : (s.placeZoneOffs z).warmTaking = s.warmTaking :=
  each_keeps _ (·.warmTaking) (fun _ _ => placeOffCommand_warmTaking _ _ _) _ s
@[simp] theorem placeZoneOffs_portU (z : ZoneNo) : (s.placeZoneOffs z).portU = s.portU :=
  each_keeps _ (·.portU) (fun _ _ => placeOffCommand_portU _ _ _) _ s

/-! ## placeEjectOffs -/

@[simp] theorem placeEjectOffs_pending : (s.placeEjectOffs).pending = s.pending := by
  unfold placeEjectOffs; split
  · exact each_keeps _ (·.pending) (fun _ _ => placeEjectOff_pending _ _) _ s
  · rfl
@[simp] theorem placeEjectOffs_resetHeld : (s.placeEjectOffs).resetHeld = s.resetHeld := by
  unfold placeEjectOffs; split
  · exact each_keeps _ (·.resetHeld) (fun _ _ => placeEjectOff_resetHeld _ _) _ s
  · rfl
@[simp] theorem placeEjectOffs_strap : (s.placeEjectOffs).strap = s.strap := by
  unfold placeEjectOffs; split
  · exact each_keeps _ (·.strap) (fun _ _ => placeEjectOff_strap _ _) _ s
  · rfl
@[simp] theorem placeEjectOffs_mode : (s.placeEjectOffs).mode = s.mode := by
  unfold placeEjectOffs; split
  · exact each_keeps _ (·.mode) (fun _ _ => placeEjectOff_mode _ _) _ s
  · rfl
@[simp] theorem placeEjectOffs_timebase : (s.placeEjectOffs).timebase = s.timebase := by
  unfold placeEjectOffs; split
  · exact each_keeps _ (·.timebase) (fun _ _ => placeEjectOff_timebase _ _) _ s
  · rfl
@[simp] theorem placeEjectOffs_linkPin : (s.placeEjectOffs).linkPin = s.linkPin := by
  unfold placeEjectOffs; split
  · exact each_keeps _ (·.linkPin) (fun _ _ => placeEjectOff_linkPin _ _) _ s
  · rfl
@[simp] theorem placeEjectOffs_linkStart : (s.placeEjectOffs).linkStart = s.linkStart := by
  unfold placeEjectOffs; split
  · exact each_keeps _ (·.linkStart) (fun _ _ => placeEjectOff_linkStart _ _) _ s
  · rfl
@[simp] theorem placeEjectOffs_attnPin : (s.placeEjectOffs).attnPin = s.attnPin := by
  unfold placeEjectOffs; split
  · exact each_keeps _ (·.attnPin) (fun _ _ => placeEjectOff_attnPin _ _) _ s
  · rfl
@[simp] theorem placeEjectOffs_resetPending : (s.placeEjectOffs).resetPending = s.resetPending := by
  unfold placeEjectOffs; split
  · exact each_keeps _ (·.resetPending) (fun _ _ => placeEjectOff_resetPending _ _) _ s
  · rfl
@[simp] theorem placeEjectOffs_shutdown : (s.placeEjectOffs).shutdown = s.shutdown := by
  unfold placeEjectOffs; split
  · exact each_keeps _ (·.shutdown) (fun _ _ => placeEjectOff_shutdown _ _) _ s
  · rfl
@[simp] theorem placeEjectOffs_tables : (s.placeEjectOffs).tables = s.tables := by
  unfold placeEjectOffs; split
  · exact each_keeps _ (·.tables) (fun _ _ => placeEjectOff_tables _ _) _ s
  · rfl
@[simp] theorem placeEjectOffs_zones : (s.placeEjectOffs).zones = s.zones := by
  unfold placeEjectOffs; split
  · exact each_keeps _ (·.zones) (fun _ _ => placeEjectOff_zones _ _) _ s
  · rfl
@[simp] theorem placeEjectOffs_windows : (s.placeEjectOffs).windows = s.windows := by
  unfold placeEjectOffs; split
  · exact each_keeps _ (·.windows) (fun _ _ => placeEjectOff_windows _ _) _ s
  · rfl
@[simp] theorem placeEjectOffs_cures : (s.placeEjectOffs).cures = s.cures := by
  unfold placeEjectOffs; split
  · exact each_keeps _ (·.cures) (fun _ _ => placeEjectOff_cures _ _) _ s
  · rfl
@[simp] theorem placeEjectOffs_accruals : (s.placeEjectOffs).accruals = s.accruals := by
  unfold placeEjectOffs; split
  · exact each_keeps _ (·.accruals) (fun _ _ => placeEjectOff_accruals _ _) _ s
  · rfl
@[simp] theorem placeEjectOffs_scales : (s.placeEjectOffs).scales = s.scales := by
  unfold placeEjectOffs; split
  · exact each_keeps _ (·.scales) (fun _ _ => placeEjectOff_scales _ _) _ s
  · rfl
@[simp] theorem placeEjectOffs_units : (s.placeEjectOffs).units = s.units := by
  unfold placeEjectOffs; split
  · exact each_keeps _ (·.units) (fun _ _ => placeEjectOff_units _ _) _ s
  · rfl
@[simp] theorem placeEjectOffs_history : (s.placeEjectOffs).history = s.history := by
  unfold placeEjectOffs; split
  · exact each_keeps _ (·.history) (fun _ _ => placeEjectOff_history _ _) _ s
  · rfl
@[simp] theorem placeEjectOffs_profiles : (s.placeEjectOffs).profiles = s.profiles := by
  unfold placeEjectOffs; split
  · exact each_keeps _ (·.profiles) (fun _ _ => placeEjectOff_profiles _ _) _ s
  · rfl
@[simp] theorem placeEjectOffs_exportQueue : (s.placeEjectOffs).exportQueue = s.exportQueue := by
  unfold placeEjectOffs; split
  · exact each_keeps _ (·.exportQueue) (fun _ _ => placeEjectOff_exportQueue _ _) _ s
  · rfl
@[simp] theorem placeEjectOffs_events : (s.placeEjectOffs).events = s.events := by
  unfold placeEjectOffs; split
  · exact each_keeps _ (·.events) (fun _ _ => placeEjectOff_events _ _) _ s
  · rfl
@[simp] theorem placeEjectOffs_attention : (s.placeEjectOffs).attention = s.attention := by
  unfold placeEjectOffs; split
  · exact each_keeps _ (·.attention) (fun _ _ => placeEjectOff_attention _ _) _ s
  · rfl
@[simp] theorem placeEjectOffs_offNumber : (s.placeEjectOffs).offNumber = s.offNumber := by
  unfold placeEjectOffs; split
  · exact each_keeps _ (·.offNumber) (fun _ _ => placeEjectOff_offNumber _ _) _ s
  · rfl
@[simp] theorem placeEjectOffs_freeCounter : (s.placeEjectOffs).freeCounter = s.freeCounter := by
  unfold placeEjectOffs; split
  · exact each_keeps _ (·.freeCounter) (fun _ _ => placeEjectOff_freeCounter _ _) _ s
  · rfl
@[simp] theorem placeEjectOffs_warmTaking : (s.placeEjectOffs).warmTaking = s.warmTaking := by
  unfold placeEjectOffs; split
  · exact each_keeps _ (·.warmTaking) (fun _ _ => placeEjectOff_warmTaking _ _) _ s
  · rfl
@[simp] theorem placeEjectOffs_portU : (s.placeEjectOffs).portU = s.portU := by
  unfold placeEjectOffs; split
  · exact each_keeps _ (·.portU) (fun _ _ => placeEjectOff_portU _ _) _ s
  · rfl

/-! ## placeHeaterOffs -/

@[simp] theorem placeHeaterOffs_pending : (s.placeHeaterOffs).pending = s.pending := by
  unfold placeHeaterOffs; split
  · exact each_keeps _ (·.pending) (fun _ _ => placeZoneOffs_pending _ _) _ s
  · rfl
@[simp] theorem placeHeaterOffs_resetHeld : (s.placeHeaterOffs).resetHeld = s.resetHeld := by
  unfold placeHeaterOffs; split
  · exact each_keeps _ (·.resetHeld) (fun _ _ => placeZoneOffs_resetHeld _ _) _ s
  · rfl
@[simp] theorem placeHeaterOffs_strap : (s.placeHeaterOffs).strap = s.strap := by
  unfold placeHeaterOffs; split
  · exact each_keeps _ (·.strap) (fun _ _ => placeZoneOffs_strap _ _) _ s
  · rfl
@[simp] theorem placeHeaterOffs_mode : (s.placeHeaterOffs).mode = s.mode := by
  unfold placeHeaterOffs; split
  · exact each_keeps _ (·.mode) (fun _ _ => placeZoneOffs_mode _ _) _ s
  · rfl
@[simp] theorem placeHeaterOffs_timebase : (s.placeHeaterOffs).timebase = s.timebase := by
  unfold placeHeaterOffs; split
  · exact each_keeps _ (·.timebase) (fun _ _ => placeZoneOffs_timebase _ _) _ s
  · rfl
@[simp] theorem placeHeaterOffs_linkPin : (s.placeHeaterOffs).linkPin = s.linkPin := by
  unfold placeHeaterOffs; split
  · exact each_keeps _ (·.linkPin) (fun _ _ => placeZoneOffs_linkPin _ _) _ s
  · rfl
@[simp] theorem placeHeaterOffs_linkStart : (s.placeHeaterOffs).linkStart = s.linkStart := by
  unfold placeHeaterOffs; split
  · exact each_keeps _ (·.linkStart) (fun _ _ => placeZoneOffs_linkStart _ _) _ s
  · rfl
@[simp] theorem placeHeaterOffs_attnPin : (s.placeHeaterOffs).attnPin = s.attnPin := by
  unfold placeHeaterOffs; split
  · exact each_keeps _ (·.attnPin) (fun _ _ => placeZoneOffs_attnPin _ _) _ s
  · rfl
@[simp] theorem placeHeaterOffs_resetPending : (s.placeHeaterOffs).resetPending = s.resetPending := by
  unfold placeHeaterOffs; split
  · exact each_keeps _ (·.resetPending) (fun _ _ => placeZoneOffs_resetPending _ _) _ s
  · rfl
@[simp] theorem placeHeaterOffs_shutdown : (s.placeHeaterOffs).shutdown = s.shutdown := by
  unfold placeHeaterOffs; split
  · exact each_keeps _ (·.shutdown) (fun _ _ => placeZoneOffs_shutdown _ _) _ s
  · rfl
@[simp] theorem placeHeaterOffs_tables : (s.placeHeaterOffs).tables = s.tables := by
  unfold placeHeaterOffs; split
  · exact each_keeps _ (·.tables) (fun _ _ => placeZoneOffs_tables _ _) _ s
  · rfl
@[simp] theorem placeHeaterOffs_windows : (s.placeHeaterOffs).windows = s.windows := by
  unfold placeHeaterOffs; split
  · exact each_keeps _ (·.windows) (fun _ _ => placeZoneOffs_windows _ _) _ s
  · rfl
@[simp] theorem placeHeaterOffs_cures : (s.placeHeaterOffs).cures = s.cures := by
  unfold placeHeaterOffs; split
  · exact each_keeps _ (·.cures) (fun _ _ => placeZoneOffs_cures _ _) _ s
  · rfl
@[simp] theorem placeHeaterOffs_accruals : (s.placeHeaterOffs).accruals = s.accruals := by
  unfold placeHeaterOffs; split
  · exact each_keeps _ (·.accruals) (fun _ _ => placeZoneOffs_accruals _ _) _ s
  · rfl
@[simp] theorem placeHeaterOffs_scales : (s.placeHeaterOffs).scales = s.scales := by
  unfold placeHeaterOffs; split
  · exact each_keeps _ (·.scales) (fun _ _ => placeZoneOffs_scales _ _) _ s
  · rfl
@[simp] theorem placeHeaterOffs_units : (s.placeHeaterOffs).units = s.units := by
  unfold placeHeaterOffs; split
  · exact each_keeps _ (·.units) (fun _ _ => placeZoneOffs_units _ _) _ s
  · rfl
@[simp] theorem placeHeaterOffs_ejectors : (s.placeHeaterOffs).ejectors = s.ejectors := by
  unfold placeHeaterOffs; split
  · exact each_keeps _ (·.ejectors) (fun _ _ => placeZoneOffs_ejectors _ _) _ s
  · rfl
@[simp] theorem placeHeaterOffs_history : (s.placeHeaterOffs).history = s.history := by
  unfold placeHeaterOffs; split
  · exact each_keeps _ (·.history) (fun _ _ => placeZoneOffs_history _ _) _ s
  · rfl
@[simp] theorem placeHeaterOffs_profiles : (s.placeHeaterOffs).profiles = s.profiles := by
  unfold placeHeaterOffs; split
  · exact each_keeps _ (·.profiles) (fun _ _ => placeZoneOffs_profiles _ _) _ s
  · rfl
@[simp] theorem placeHeaterOffs_exportQueue : (s.placeHeaterOffs).exportQueue = s.exportQueue := by
  unfold placeHeaterOffs; split
  · exact each_keeps _ (·.exportQueue) (fun _ _ => placeZoneOffs_exportQueue _ _) _ s
  · rfl
@[simp] theorem placeHeaterOffs_events : (s.placeHeaterOffs).events = s.events := by
  unfold placeHeaterOffs; split
  · exact each_keeps _ (·.events) (fun _ _ => placeZoneOffs_events _ _) _ s
  · rfl
@[simp] theorem placeHeaterOffs_attention : (s.placeHeaterOffs).attention = s.attention := by
  unfold placeHeaterOffs; split
  · exact each_keeps _ (·.attention) (fun _ _ => placeZoneOffs_attention _ _) _ s
  · rfl
@[simp] theorem placeHeaterOffs_offNumber : (s.placeHeaterOffs).offNumber = s.offNumber := by
  unfold placeHeaterOffs; split
  · exact each_keeps _ (·.offNumber) (fun _ _ => placeZoneOffs_offNumber _ _) _ s
  · rfl
@[simp] theorem placeHeaterOffs_freeCounter : (s.placeHeaterOffs).freeCounter = s.freeCounter := by
  unfold placeHeaterOffs; split
  · exact each_keeps _ (·.freeCounter) (fun _ _ => placeZoneOffs_freeCounter _ _) _ s
  · rfl
@[simp] theorem placeHeaterOffs_warmTaking : (s.placeHeaterOffs).warmTaking = s.warmTaking := by
  unfold placeHeaterOffs; split
  · exact each_keeps _ (·.warmTaking) (fun _ _ => placeZoneOffs_warmTaking _ _) _ s
  · rfl
@[simp] theorem placeHeaterOffs_portU : (s.placeHeaterOffs).portU = s.portU := by
  unfold placeHeaterOffs; split
  · exact each_keeps _ (·.portU) (fun _ _ => placeZoneOffs_portU _ _) _ s
  · rfl

/-! ## placeOwed -/

@[simp] theorem placeOwed_pending : s.placeOwed.pending = s.pending := by
  simp [placeOwed]
@[simp] theorem placeOwed_resetHeld : s.placeOwed.resetHeld = s.resetHeld := by
  simp [placeOwed]
@[simp] theorem placeOwed_strap : s.placeOwed.strap = s.strap := by
  simp [placeOwed]
@[simp] theorem placeOwed_mode : s.placeOwed.mode = s.mode := by
  simp [placeOwed]
@[simp] theorem placeOwed_timebase : s.placeOwed.timebase = s.timebase := by
  simp [placeOwed]
@[simp] theorem placeOwed_linkPin : s.placeOwed.linkPin = s.linkPin := by
  simp [placeOwed]
@[simp] theorem placeOwed_linkStart : s.placeOwed.linkStart = s.linkStart := by
  simp [placeOwed]
@[simp] theorem placeOwed_attnPin : s.placeOwed.attnPin = s.attnPin := by
  simp [placeOwed]
@[simp] theorem placeOwed_resetPending : s.placeOwed.resetPending = s.resetPending := by
  simp [placeOwed]
@[simp] theorem placeOwed_shutdown : s.placeOwed.shutdown = s.shutdown := by
  simp [placeOwed]
@[simp] theorem placeOwed_tables : s.placeOwed.tables = s.tables := by
  simp [placeOwed]
@[simp] theorem placeOwed_windows : s.placeOwed.windows = s.windows := by
  simp [placeOwed]
@[simp] theorem placeOwed_cures : s.placeOwed.cures = s.cures := by
  simp [placeOwed]
@[simp] theorem placeOwed_accruals : s.placeOwed.accruals = s.accruals := by
  simp [placeOwed]
@[simp] theorem placeOwed_scales : s.placeOwed.scales = s.scales := by
  simp [placeOwed]
@[simp] theorem placeOwed_units : s.placeOwed.units = s.units := by
  simp [placeOwed]
@[simp] theorem placeOwed_history : s.placeOwed.history = s.history := by
  simp [placeOwed]
@[simp] theorem placeOwed_profiles : s.placeOwed.profiles = s.profiles := by
  simp [placeOwed]
@[simp] theorem placeOwed_exportQueue : s.placeOwed.exportQueue = s.exportQueue := by
  simp [placeOwed]
@[simp] theorem placeOwed_events : s.placeOwed.events = s.events := by
  simp [placeOwed]
@[simp] theorem placeOwed_attention : s.placeOwed.attention = s.attention := by
  simp [placeOwed]
@[simp] theorem placeOwed_offNumber : s.placeOwed.offNumber = s.offNumber := by
  simp [placeOwed]
@[simp] theorem placeOwed_freeCounter : s.placeOwed.freeCounter = s.freeCounter := by
  simp [placeOwed]
@[simp] theorem placeOwed_warmTaking : s.placeOwed.warmTaking = s.warmTaking := by
  simp [placeOwed]
@[simp] theorem placeOwed_portU : s.placeOwed.portU = s.portU := by
  simp [placeOwed]

/-! ## moveHead -/

@[simp] theorem moveHead_pending : (s.moveHead).pending = s.pending := by
  unfold moveHead; repeat' split
  all_goals simp
@[simp] theorem moveHead_resetHeld : (s.moveHead).resetHeld = s.resetHeld := by
  unfold moveHead; repeat' split
  all_goals simp
@[simp] theorem moveHead_strap : (s.moveHead).strap = s.strap := by
  unfold moveHead; repeat' split
  all_goals simp
@[simp] theorem moveHead_mode : (s.moveHead).mode = s.mode := by
  unfold moveHead; repeat' split
  all_goals simp
@[simp] theorem moveHead_timebase : (s.moveHead).timebase = s.timebase := by
  unfold moveHead; repeat' split
  all_goals simp
@[simp] theorem moveHead_linkPin : (s.moveHead).linkPin = s.linkPin := by
  unfold moveHead; repeat' split
  all_goals simp
@[simp] theorem moveHead_linkStart : (s.moveHead).linkStart = s.linkStart := by
  unfold moveHead; repeat' split
  all_goals simp
@[simp] theorem moveHead_attnPin : (s.moveHead).attnPin = s.attnPin := by
  unfold moveHead; repeat' split
  all_goals simp
@[simp] theorem moveHead_resetPending : (s.moveHead).resetPending = s.resetPending := by
  unfold moveHead; repeat' split
  all_goals simp
@[simp] theorem moveHead_shutdown : (s.moveHead).shutdown = s.shutdown := by
  unfold moveHead; repeat' split
  all_goals simp
@[simp] theorem moveHead_tables : (s.moveHead).tables = s.tables := by
  unfold moveHead; repeat' split
  all_goals simp
@[simp] theorem moveHead_zones : (s.moveHead).zones = s.zones := by
  unfold moveHead; repeat' split
  all_goals simp
@[simp] theorem moveHead_windows : (s.moveHead).windows = s.windows := by
  unfold moveHead; repeat' split
  all_goals simp
@[simp] theorem moveHead_cures : (s.moveHead).cures = s.cures := by
  unfold moveHead; repeat' split
  all_goals simp
@[simp] theorem moveHead_accruals : (s.moveHead).accruals = s.accruals := by
  unfold moveHead; repeat' split
  all_goals simp
@[simp] theorem moveHead_scales : (s.moveHead).scales = s.scales := by
  unfold moveHead; repeat' split
  all_goals simp
@[simp] theorem moveHead_units : (s.moveHead).units = s.units := by
  unfold moveHead; repeat' split
  all_goals simp
@[simp] theorem moveHead_ejectors : (s.moveHead).ejectors = s.ejectors := by
  unfold moveHead; repeat' split
  all_goals simp
@[simp] theorem moveHead_profiles : (s.moveHead).profiles = s.profiles := by
  unfold moveHead; repeat' split
  all_goals simp
@[simp] theorem moveHead_events : (s.moveHead).events = s.events := by
  unfold moveHead; repeat' split
  all_goals simp
@[simp] theorem moveHead_attention : (s.moveHead).attention = s.attention := by
  unfold moveHead; repeat' split
  all_goals simp
@[simp] theorem moveHead_offNumber : (s.moveHead).offNumber = s.offNumber := by
  unfold moveHead; repeat' split
  all_goals simp
@[simp] theorem moveHead_freeCounter : (s.moveHead).freeCounter = s.freeCounter := by
  unfold moveHead; repeat' split
  all_goals simp
@[simp] theorem moveHead_warmTaking : (s.moveHead).warmTaking = s.warmTaking := by
  unfold moveHead; repeat' split
  all_goals simp

/-! ## moveHeads -/

@[simp] theorem moveHeads_pending (n : Nat) : (s.moveHeads n).pending = s.pending := by
  induction n generalizing s with
  | zero => rfl
  | succ n ih => unfold moveHeads; split <;> simp [ih]
@[simp] theorem moveHeads_resetHeld (n : Nat) : (s.moveHeads n).resetHeld = s.resetHeld := by
  induction n generalizing s with
  | zero => rfl
  | succ n ih => unfold moveHeads; split <;> simp [ih]
@[simp] theorem moveHeads_strap (n : Nat) : (s.moveHeads n).strap = s.strap := by
  induction n generalizing s with
  | zero => rfl
  | succ n ih => unfold moveHeads; split <;> simp [ih]
@[simp] theorem moveHeads_mode (n : Nat) : (s.moveHeads n).mode = s.mode := by
  induction n generalizing s with
  | zero => rfl
  | succ n ih => unfold moveHeads; split <;> simp [ih]
@[simp] theorem moveHeads_timebase (n : Nat) : (s.moveHeads n).timebase = s.timebase := by
  induction n generalizing s with
  | zero => rfl
  | succ n ih => unfold moveHeads; split <;> simp [ih]
@[simp] theorem moveHeads_linkPin (n : Nat) : (s.moveHeads n).linkPin = s.linkPin := by
  induction n generalizing s with
  | zero => rfl
  | succ n ih => unfold moveHeads; split <;> simp [ih]
@[simp] theorem moveHeads_linkStart (n : Nat) : (s.moveHeads n).linkStart = s.linkStart := by
  induction n generalizing s with
  | zero => rfl
  | succ n ih => unfold moveHeads; split <;> simp [ih]
@[simp] theorem moveHeads_attnPin (n : Nat) : (s.moveHeads n).attnPin = s.attnPin := by
  induction n generalizing s with
  | zero => rfl
  | succ n ih => unfold moveHeads; split <;> simp [ih]
@[simp] theorem moveHeads_resetPending (n : Nat) : (s.moveHeads n).resetPending = s.resetPending := by
  induction n generalizing s with
  | zero => rfl
  | succ n ih => unfold moveHeads; split <;> simp [ih]
@[simp] theorem moveHeads_shutdown (n : Nat) : (s.moveHeads n).shutdown = s.shutdown := by
  induction n generalizing s with
  | zero => rfl
  | succ n ih => unfold moveHeads; split <;> simp [ih]
@[simp] theorem moveHeads_tables (n : Nat) : (s.moveHeads n).tables = s.tables := by
  induction n generalizing s with
  | zero => rfl
  | succ n ih => unfold moveHeads; split <;> simp [ih]
@[simp] theorem moveHeads_zones (n : Nat) : (s.moveHeads n).zones = s.zones := by
  induction n generalizing s with
  | zero => rfl
  | succ n ih => unfold moveHeads; split <;> simp [ih]
@[simp] theorem moveHeads_windows (n : Nat) : (s.moveHeads n).windows = s.windows := by
  induction n generalizing s with
  | zero => rfl
  | succ n ih => unfold moveHeads; split <;> simp [ih]
@[simp] theorem moveHeads_cures (n : Nat) : (s.moveHeads n).cures = s.cures := by
  induction n generalizing s with
  | zero => rfl
  | succ n ih => unfold moveHeads; split <;> simp [ih]
@[simp] theorem moveHeads_accruals (n : Nat) : (s.moveHeads n).accruals = s.accruals := by
  induction n generalizing s with
  | zero => rfl
  | succ n ih => unfold moveHeads; split <;> simp [ih]
@[simp] theorem moveHeads_scales (n : Nat) : (s.moveHeads n).scales = s.scales := by
  induction n generalizing s with
  | zero => rfl
  | succ n ih => unfold moveHeads; split <;> simp [ih]
@[simp] theorem moveHeads_units (n : Nat) : (s.moveHeads n).units = s.units := by
  induction n generalizing s with
  | zero => rfl
  | succ n ih => unfold moveHeads; split <;> simp [ih]
@[simp] theorem moveHeads_ejectors (n : Nat) : (s.moveHeads n).ejectors = s.ejectors := by
  induction n generalizing s with
  | zero => rfl
  | succ n ih => unfold moveHeads; split <;> simp [ih]
@[simp] theorem moveHeads_profiles (n : Nat) : (s.moveHeads n).profiles = s.profiles := by
  induction n generalizing s with
  | zero => rfl
  | succ n ih => unfold moveHeads; split <;> simp [ih]
@[simp] theorem moveHeads_events (n : Nat) : (s.moveHeads n).events = s.events := by
  induction n generalizing s with
  | zero => rfl
  | succ n ih => unfold moveHeads; split <;> simp [ih]
@[simp] theorem moveHeads_attention (n : Nat) : (s.moveHeads n).attention = s.attention := by
  induction n generalizing s with
  | zero => rfl
  | succ n ih => unfold moveHeads; split <;> simp [ih]
@[simp] theorem moveHeads_offNumber (n : Nat) : (s.moveHeads n).offNumber = s.offNumber := by
  induction n generalizing s with
  | zero => rfl
  | succ n ih => unfold moveHeads; split <;> simp [ih]
@[simp] theorem moveHeads_freeCounter (n : Nat) : (s.moveHeads n).freeCounter = s.freeCounter := by
  induction n generalizing s with
  | zero => rfl
  | succ n ih => unfold moveHeads; split <;> simp [ih]
@[simp] theorem moveHeads_warmTaking (n : Nat) : (s.moveHeads n).warmTaking = s.warmTaking := by
  induction n generalizing s with
  | zero => rfl
  | succ n ih => unfold moveHeads; split <;> simp [ih]

/-! ## exportMoves -/

@[simp] theorem exportMoves_pending : (s.exportMoves).pending = s.pending := by
  simp [exportMoves]
@[simp] theorem exportMoves_resetHeld : (s.exportMoves).resetHeld = s.resetHeld := by
  simp [exportMoves]
@[simp] theorem exportMoves_strap : (s.exportMoves).strap = s.strap := by
  simp [exportMoves]
@[simp] theorem exportMoves_mode : (s.exportMoves).mode = s.mode := by
  simp [exportMoves]
@[simp] theorem exportMoves_timebase : (s.exportMoves).timebase = s.timebase := by
  simp [exportMoves]
@[simp] theorem exportMoves_linkPin : (s.exportMoves).linkPin = s.linkPin := by
  simp [exportMoves]
@[simp] theorem exportMoves_linkStart : (s.exportMoves).linkStart = s.linkStart := by
  simp [exportMoves]
@[simp] theorem exportMoves_attnPin : (s.exportMoves).attnPin = s.attnPin := by
  simp [exportMoves]
@[simp] theorem exportMoves_resetPending : (s.exportMoves).resetPending = s.resetPending := by
  simp [exportMoves]
@[simp] theorem exportMoves_shutdown : (s.exportMoves).shutdown = s.shutdown := by
  simp [exportMoves]
@[simp] theorem exportMoves_tables : (s.exportMoves).tables = s.tables := by
  simp [exportMoves]
@[simp] theorem exportMoves_zones : (s.exportMoves).zones = s.zones := by
  simp [exportMoves]
@[simp] theorem exportMoves_windows : (s.exportMoves).windows = s.windows := by
  simp [exportMoves]
@[simp] theorem exportMoves_cures : (s.exportMoves).cures = s.cures := by
  simp [exportMoves]
@[simp] theorem exportMoves_accruals : (s.exportMoves).accruals = s.accruals := by
  simp [exportMoves]
@[simp] theorem exportMoves_scales : (s.exportMoves).scales = s.scales := by
  simp [exportMoves]
@[simp] theorem exportMoves_units : (s.exportMoves).units = s.units := by
  simp [exportMoves]
@[simp] theorem exportMoves_ejectors : (s.exportMoves).ejectors = s.ejectors := by
  simp [exportMoves]
@[simp] theorem exportMoves_profiles : (s.exportMoves).profiles = s.profiles := by
  simp [exportMoves]
@[simp] theorem exportMoves_events : (s.exportMoves).events = s.events := by
  simp [exportMoves]
@[simp] theorem exportMoves_attention : (s.exportMoves).attention = s.attention := by
  simp [exportMoves]
@[simp] theorem exportMoves_offNumber : (s.exportMoves).offNumber = s.offNumber := by
  simp [exportMoves]
@[simp] theorem exportMoves_freeCounter : (s.exportMoves).freeCounter = s.freeCounter := by
  simp [exportMoves]
@[simp] theorem exportMoves_warmTaking : (s.exportMoves).warmTaking = s.warmTaking := by
  simp [exportMoves]

/-! ## handToExport -/

@[simp] theorem handToExport_pending (r : Record) : (s.handToExport r).pending = s.pending := by
  unfold handToExport; repeat' split
  all_goals simp
@[simp] theorem handToExport_resetHeld (r : Record) : (s.handToExport r).resetHeld = s.resetHeld := by
  unfold handToExport; repeat' split
  all_goals simp
@[simp] theorem handToExport_strap (r : Record) : (s.handToExport r).strap = s.strap := by
  unfold handToExport; repeat' split
  all_goals simp
@[simp] theorem handToExport_mode (r : Record) : (s.handToExport r).mode = s.mode := by
  unfold handToExport; repeat' split
  all_goals simp
@[simp] theorem handToExport_timebase (r : Record) : (s.handToExport r).timebase = s.timebase := by
  unfold handToExport; repeat' split
  all_goals simp
@[simp] theorem handToExport_linkPin (r : Record) : (s.handToExport r).linkPin = s.linkPin := by
  unfold handToExport; repeat' split
  all_goals simp
@[simp] theorem handToExport_linkStart (r : Record) : (s.handToExport r).linkStart = s.linkStart := by
  unfold handToExport; repeat' split
  all_goals simp
@[simp] theorem handToExport_resetPending (r : Record) : (s.handToExport r).resetPending = s.resetPending := by
  unfold handToExport; repeat' split
  all_goals simp
@[simp] theorem handToExport_shutdown (r : Record) : (s.handToExport r).shutdown = s.shutdown := by
  unfold handToExport; repeat' split
  all_goals simp
@[simp] theorem handToExport_tables (r : Record) : (s.handToExport r).tables = s.tables := by
  unfold handToExport; repeat' split
  all_goals simp
@[simp] theorem handToExport_zones (r : Record) : (s.handToExport r).zones = s.zones := by
  unfold handToExport; repeat' split
  all_goals simp
@[simp] theorem handToExport_windows (r : Record) : (s.handToExport r).windows = s.windows := by
  unfold handToExport; repeat' split
  all_goals simp
@[simp] theorem handToExport_cures (r : Record) : (s.handToExport r).cures = s.cures := by
  unfold handToExport; repeat' split
  all_goals simp
@[simp] theorem handToExport_accruals (r : Record) : (s.handToExport r).accruals = s.accruals := by
  unfold handToExport; repeat' split
  all_goals simp
@[simp] theorem handToExport_scales (r : Record) : (s.handToExport r).scales = s.scales := by
  unfold handToExport; repeat' split
  all_goals simp
@[simp] theorem handToExport_units (r : Record) : (s.handToExport r).units = s.units := by
  unfold handToExport; repeat' split
  all_goals simp
@[simp] theorem handToExport_ejectors (r : Record) : (s.handToExport r).ejectors = s.ejectors := by
  unfold handToExport; repeat' split
  all_goals simp
@[simp] theorem handToExport_profiles (r : Record) : (s.handToExport r).profiles = s.profiles := by
  unfold handToExport; repeat' split
  all_goals simp
@[simp] theorem handToExport_offNumber (r : Record) : (s.handToExport r).offNumber = s.offNumber := by
  unfold handToExport; repeat' split
  all_goals simp
@[simp] theorem handToExport_freeCounter (r : Record) : (s.handToExport r).freeCounter = s.freeCounter := by
  unfold handToExport; repeat' split
  all_goals simp
@[simp] theorem handToExport_warmTaking (r : Record) : (s.handToExport r).warmTaking = s.warmTaking := by
  unfold handToExport; repeat' split
  all_goals simp

/-! ## closeRecord -/

@[simp] theorem closeRecord_pending (p : PressNo) (c : CloseCause) (t : Time) : (s.closeRecord p c t).pending = s.pending := by
  unfold closeRecord; repeat' split
  all_goals simp
  split <;> simp
@[simp] theorem closeRecord_resetHeld (p : PressNo) (c : CloseCause) (t : Time) : (s.closeRecord p c t).resetHeld = s.resetHeld := by
  unfold closeRecord; repeat' split
  all_goals simp
  split <;> simp
@[simp] theorem closeRecord_strap (p : PressNo) (c : CloseCause) (t : Time) : (s.closeRecord p c t).strap = s.strap := by
  unfold closeRecord; repeat' split
  all_goals simp
  split <;> simp
@[simp] theorem closeRecord_mode (p : PressNo) (c : CloseCause) (t : Time) : (s.closeRecord p c t).mode = s.mode := by
  unfold closeRecord; repeat' split
  all_goals simp
  split <;> simp
@[simp] theorem closeRecord_timebase (p : PressNo) (c : CloseCause) (t : Time) : (s.closeRecord p c t).timebase = s.timebase := by
  unfold closeRecord; repeat' split
  all_goals simp
  split <;> simp
@[simp] theorem closeRecord_linkPin (p : PressNo) (c : CloseCause) (t : Time) : (s.closeRecord p c t).linkPin = s.linkPin := by
  unfold closeRecord; repeat' split
  all_goals simp
  split <;> simp
@[simp] theorem closeRecord_linkStart (p : PressNo) (c : CloseCause) (t : Time) : (s.closeRecord p c t).linkStart = s.linkStart := by
  unfold closeRecord; repeat' split
  all_goals simp
  split <;> simp
@[simp] theorem closeRecord_resetPending (p : PressNo) (c : CloseCause) (t : Time) : (s.closeRecord p c t).resetPending = s.resetPending := by
  unfold closeRecord; repeat' split
  all_goals simp
  split <;> simp
@[simp] theorem closeRecord_shutdown (p : PressNo) (c : CloseCause) (t : Time) : (s.closeRecord p c t).shutdown = s.shutdown := by
  unfold closeRecord; repeat' split
  all_goals simp
  split <;> simp
@[simp] theorem closeRecord_tables (p : PressNo) (c : CloseCause) (t : Time) : (s.closeRecord p c t).tables = s.tables := by
  unfold closeRecord; repeat' split
  all_goals simp
  split <;> simp
@[simp] theorem closeRecord_zones (p : PressNo) (c : CloseCause) (t : Time) : (s.closeRecord p c t).zones = s.zones := by
  unfold closeRecord; repeat' split
  all_goals simp
  split <;> simp
@[simp] theorem closeRecord_windows (p : PressNo) (c : CloseCause) (t : Time) : (s.closeRecord p c t).windows = s.windows := by
  unfold closeRecord; repeat' split
  all_goals simp
  split <;> simp
@[simp] theorem closeRecord_cures (p : PressNo) (c : CloseCause) (t : Time) : (s.closeRecord p c t).cures = s.cures := by
  unfold closeRecord; repeat' split
  all_goals simp
  split <;> simp
@[simp] theorem closeRecord_accruals (p : PressNo) (c : CloseCause) (t : Time) : (s.closeRecord p c t).accruals = s.accruals := by
  unfold closeRecord; repeat' split
  all_goals simp
  split <;> simp
@[simp] theorem closeRecord_scales (p : PressNo) (c : CloseCause) (t : Time) : (s.closeRecord p c t).scales = s.scales := by
  unfold closeRecord; repeat' split
  all_goals simp
  split <;> simp
@[simp] theorem closeRecord_units (p : PressNo) (c : CloseCause) (t : Time) : (s.closeRecord p c t).units = s.units := by
  unfold closeRecord; repeat' split
  all_goals simp
  split <;> simp
@[simp] theorem closeRecord_ejectors (p : PressNo) (c : CloseCause) (t : Time) : (s.closeRecord p c t).ejectors = s.ejectors := by
  unfold closeRecord; repeat' split
  all_goals simp
  split <;> simp
@[simp] theorem closeRecord_offNumber (p : PressNo) (c : CloseCause) (t : Time) : (s.closeRecord p c t).offNumber = s.offNumber := by
  unfold closeRecord; repeat' split
  all_goals simp
  split <;> simp
@[simp] theorem closeRecord_freeCounter (p : PressNo) (c : CloseCause) (t : Time) : (s.closeRecord p c t).freeCounter = s.freeCounter := by
  unfold closeRecord; repeat' split
  all_goals simp
  split <;> simp
@[simp] theorem closeRecord_warmTaking (p : PressNo) (c : CloseCause) (t : Time) : (s.closeRecord p c t).warmTaking = s.warmTaking := by
  unfold closeRecord; repeat' split
  all_goals simp
  split <;> simp

/-! ## immediateHeat -/

@[simp] theorem immediateHeat_pending (z : ZoneNo) : (s.immediateHeat z).pending = s.pending := by
  unfold immediateHeat; split <;> simp
@[simp] theorem immediateHeat_resetHeld (z : ZoneNo) : (s.immediateHeat z).resetHeld = s.resetHeld := by
  unfold immediateHeat; split <;> simp
@[simp] theorem immediateHeat_strap (z : ZoneNo) : (s.immediateHeat z).strap = s.strap := by
  unfold immediateHeat; split <;> simp
@[simp] theorem immediateHeat_mode (z : ZoneNo) : (s.immediateHeat z).mode = s.mode := by
  unfold immediateHeat; split <;> simp
@[simp] theorem immediateHeat_timebase (z : ZoneNo) : (s.immediateHeat z).timebase = s.timebase := by
  unfold immediateHeat; split <;> simp
@[simp] theorem immediateHeat_linkPin (z : ZoneNo) : (s.immediateHeat z).linkPin = s.linkPin := by
  unfold immediateHeat; split <;> simp
@[simp] theorem immediateHeat_linkStart (z : ZoneNo) : (s.immediateHeat z).linkStart = s.linkStart := by
  unfold immediateHeat; split <;> simp
@[simp] theorem immediateHeat_resetPending (z : ZoneNo) : (s.immediateHeat z).resetPending = s.resetPending := by
  unfold immediateHeat; split <;> simp
@[simp] theorem immediateHeat_shutdown (z : ZoneNo) : (s.immediateHeat z).shutdown = s.shutdown := by
  unfold immediateHeat; split <;> simp
@[simp] theorem immediateHeat_tables (z : ZoneNo) : (s.immediateHeat z).tables = s.tables := by
  unfold immediateHeat; split <;> simp
@[simp] theorem immediateHeat_zones (z : ZoneNo) : (s.immediateHeat z).zones = s.zones := by
  unfold immediateHeat; split <;> simp
@[simp] theorem immediateHeat_windows (z : ZoneNo) : (s.immediateHeat z).windows = s.windows := by
  unfold immediateHeat; split <;> simp
@[simp] theorem immediateHeat_cures (z : ZoneNo) : (s.immediateHeat z).cures = s.cures := by
  unfold immediateHeat; split <;> simp
@[simp] theorem immediateHeat_accruals (z : ZoneNo) : (s.immediateHeat z).accruals = s.accruals := by
  unfold immediateHeat; split <;> simp
@[simp] theorem immediateHeat_scales (z : ZoneNo) : (s.immediateHeat z).scales = s.scales := by
  unfold immediateHeat; split <;> simp
@[simp] theorem immediateHeat_units (z : ZoneNo) : (s.immediateHeat z).units = s.units := by
  unfold immediateHeat; split <;> simp
@[simp] theorem immediateHeat_ejectors (z : ZoneNo) : (s.immediateHeat z).ejectors = s.ejectors := by
  unfold immediateHeat; split <;> simp
@[simp] theorem immediateHeat_profiles (z : ZoneNo) : (s.immediateHeat z).profiles = s.profiles := by
  unfold immediateHeat; split <;> simp
@[simp] theorem immediateHeat_exportQueue (z : ZoneNo) : (s.immediateHeat z).exportQueue = s.exportQueue := by
  unfold immediateHeat; split <;> simp
@[simp] theorem immediateHeat_offNumber (z : ZoneNo) : (s.immediateHeat z).offNumber = s.offNumber := by
  unfold immediateHeat; split <;> simp
@[simp] theorem immediateHeat_freeCounter (z : ZoneNo) : (s.immediateHeat z).freeCounter = s.freeCounter := by
  unfold immediateHeat; split <;> simp
@[simp] theorem immediateHeat_warmTaking (z : ZoneNo) : (s.immediateHeat z).warmTaking = s.warmTaking := by
  unfold immediateHeat; split <;> simp

end Sys2Proof.Machine.State
end

