-- ==== Sys2Proof/Laws/Changes.lean ====
section
/-! SUPPORT. Each operation's frame: the parts of the state it may change, said once. `<op>_changes` is the
lemma to cite; `<op>_only` carries it through a composition, so that `simp` closes a frame goal. -/

namespace Sys2Proof.Machine.State

/-! ## Composing frames -/

section

variable {k l : List Part} {s t u : State}

theorem OnlyChanges.refl (s : State) : OnlyChanges k s s := fun x _ => by cases x <;> rfl

theorem Same.trans {x : Part} (h : Same x s t) (g : Same x t u) : Same x s u := by
  cases x <;> exact Eq.trans h g

theorem OnlyChanges.trans (h : OnlyChanges k s t) (g : OnlyChanges k t u) : OnlyChanges k s u :=
  fun x hx => (h x hx).trans (g x hx)

theorem OnlyChanges.mono (h : OnlyChanges l s t) (hk : l ⊆ k) : OnlyChanges k s t :=
  fun x hx => h x fun hl => hx (hk hl)

/-- A frame of one more operation. -/
theorem OnlyChanges.before (h : OnlyChanges k s t) (hk : l ⊆ k) (g : OnlyChanges l t u) :
    OnlyChanges k s u :=
  h.trans (g.mono hk)

theorem OnlyChanges.each {α : Type} {f : α → State → State} (hf : ∀ a t, OnlyChanges k t (f a t))
    (l : List α) (h : OnlyChanges k s t) : OnlyChanges k s (each f l t) := by
  induction l generalizing t with
  | nil => exact h
  | cons a l ih => exact ih (h.trans (hf a t))

theorem OnlyChanges.doIf {f : State → State} (c : Bool) (hf : ∀ t, OnlyChanges k t (f t))
    (h : OnlyChanges k s t) : OnlyChanges k s (doIf c f t) := by
  cases c
  · exact h
  · exact h.trans (hf t)

theorem OnlyChanges.ite {c : Prop} [Decidable c] (h : OnlyChanges k s t) (g : OnlyChanges k s u) :
    OnlyChanges k s (if c then t else u) := by
  split <;> assumption

end

variable {k : List Part} {s t : State}

theorem modZone_changes (z : ZoneNo) (f : Zone → Zone) (s : State) : OnlyChanges [.zones] s (modZone z f s) := by
  intro x hx; cases x <;> first | rfl | exact absurd (by decide) hx

theorem modZone_only (z : ZoneNo) (f : Zone → Zone) (hk : [.zones] ⊆ k) (h : OnlyChanges k s t) :
    OnlyChanges k s (modZone z f t) :=
  h.before hk (modZone_changes z f t)

theorem modWindow_changes (p : PressNo) (f : HeatWindow → HeatWindow) (s : State) : OnlyChanges [.windows] s (modWindow p f s) := by
  intro x hx; cases x <;> first | rfl | exact absurd (by decide) hx

theorem modWindow_only (p : PressNo) (f : HeatWindow → HeatWindow) (hk : [.windows] ⊆ k) (h : OnlyChanges k s t) :
    OnlyChanges k s (modWindow p f t) :=
  h.before hk (modWindow_changes p f t)

theorem modCure_changes (p : PressNo) (f : Cure → Cure) (s : State) : OnlyChanges [.cures] s (modCure p f s) := by
  intro x hx; cases x <;> first | rfl | exact absurd (by decide) hx

theorem modCure_only (p : PressNo) (f : Cure → Cure) (hk : [.cures] ⊆ k) (h : OnlyChanges k s t) :
    OnlyChanges k s (modCure p f t) :=
  h.before hk (modCure_changes p f t)

theorem modAccrual_changes (z : ZoneNo) (f : Accrual → Accrual) (s : State) : OnlyChanges [.accruals] s (modAccrual z f s) := by
  intro x hx; cases x <;> first | rfl | exact absurd (by decide) hx

theorem modAccrual_only (z : ZoneNo) (f : Accrual → Accrual) (hk : [.accruals] ⊆ k) (h : OnlyChanges k s t) :
    OnlyChanges k s (modAccrual z f t) :=
  h.before hk (modAccrual_changes z f t)

theorem modScale_changes (kk : ScaleNo) (f : Scale → Scale) (s : State) : OnlyChanges [.scales] s (modScale kk f s) := by
  intro x hx; cases x <;> first | rfl | exact absurd (by decide) hx

theorem modScale_only (kk : ScaleNo) (f : Scale → Scale) (hk : [.scales] ⊆ k) (h : OnlyChanges k s t) :
    OnlyChanges k s (modScale kk f t) :=
  h.before hk (modScale_changes kk f t)

theorem modUnit_changes (p : PressNo) (f : PressUnit → PressUnit) (s : State) : OnlyChanges [.units] s (modUnit p f s) := by
  intro x hx; cases x <;> first | rfl | exact absurd (by decide) hx

theorem modUnit_only (p : PressNo) (f : PressUnit → PressUnit) (hk : [.units] ⊆ k) (h : OnlyChanges k s t) :
    OnlyChanges k s (modUnit p f t) :=
  h.before hk (modUnit_changes p f t)

theorem modEjector_changes (p : PressNo) (f : Ejector → Ejector) (s : State) : OnlyChanges [.ejectors] s (modEjector p f s) := by
  intro x hx; cases x <;> first | rfl | exact absurd (by decide) hx

theorem modEjector_only (p : PressNo) (f : Ejector → Ejector) (hk : [.ejectors] ⊆ k) (h : OnlyChanges k s t) :
    OnlyChanges k s (modEjector p f t) :=
  h.before hk (modEjector_changes p f t)

theorem modProfile_changes (p : PressNo) (b : Fin 2) (f : Profile → Profile) (s : State) : OnlyChanges [.profiles] s (modProfile p b f s) := by
  intro x hx; cases x <;> first | rfl | exact absurd (by decide) hx

theorem modProfile_only (p : PressNo) (b : Fin 2) (f : Profile → Profile) (hk : [.profiles] ⊆ k) (h : OnlyChanges k s t) :
    OnlyChanges k s (modProfile p b f t) :=
  h.before hk (modProfile_changes p b f t)

theorem modTables_changes (f : Tables → Tables) (s : State) : OnlyChanges [.tables] s (modTables f s) := by
  intro x hx; cases x <;> first | rfl | exact absurd (by decide) hx

theorem modTables_only (f : Tables → Tables) (hk : [.tables] ⊆ k) (h : OnlyChanges k s t) :
    OnlyChanges k s (modTables f t) :=
  h.before hk (modTables_changes f t)

theorem modHistory_changes (f : History → History) (s : State) : OnlyChanges [.history] s (modHistory f s) := by
  intro x hx; cases x <;> first | rfl | exact absurd (by decide) hx

theorem modHistory_only (f : History → History) (hk : [.history] ⊆ k) (h : OnlyChanges k s t) :
    OnlyChanges k s (modHistory f t) :=
  h.before hk (modHistory_changes f t)

theorem modRecord_changes (p : PressNo) (f : Record → Record) (s : State) : OnlyChanges [.history] s (modRecord p f s) := by
  intro x hx; cases x <;> first | rfl | exact absurd (by decide) hx | simp [Same]

theorem modRecord_only (p : PressNo) (f : Record → Record) (hk : [.history] ⊆ k) (h : OnlyChanges k s t) :
    OnlyChanges k s (modRecord p f t) :=
  h.before hk (modRecord_changes p f t)

theorem withQueue_only (l : List Nat) (hk : [.exportQueue] ⊆ k) (h : OnlyChanges k s t) :
    OnlyChanges k s { t with exportQueue := l } :=
  h.before hk fun x hx => by cases x <;> first | rfl | exact absurd (by decide) hx

theorem modPort_changes (p : Port) (f : PortState → PortState) (s : State) : OnlyChanges [.portU, .portD] s (modPort p f s) := by
  intro x hx; cases x <;> first | rfl | exact absurd (by decide) hx | simp [Same]

theorem modPort_only (p : Port) (f : PortState → PortState) (hk : [.portU, .portD] ⊆ k) (h : OnlyChanges k s t) :
    OnlyChanges k s (modPort p f t) :=
  h.before hk (modPort_changes p f t)

theorem setFlag_changes (p : PressNo) (f : RecordFlag) (s : State) : OnlyChanges [.history] s (setFlag p f s) := by
  unfold setFlag
  repeat' first
    | with_reducible exact .refl _
    | (with_reducible refine modRecord_only _ _ ?_ ?_; decide)

theorem setFlag_only (p : PressNo) (f : RecordFlag) (hk : [.history] ⊆ k) (h : OnlyChanges k s t) :
    OnlyChanges k s (setFlag p f t) :=
  h.before hk (setFlag_changes p f t)

theorem raise_changes (tm : Time) (kk : EventKind) (i : EventOn) (s : State) : OnlyChanges raiseParts s (raise tm kk i s) := by
  intro x hx; cases x <;> first | rfl | exact absurd (by decide) hx | simp [Same]

theorem raise_only (tm : Time) (kk : EventKind) (i : EventOn) (hk : raiseParts ⊆ k) (h : OnlyChanges k s t) :
    OnlyChanges k s (raise tm kk i t) :=
  h.before hk (raise_changes tm kk i t)

theorem raiseNow_changes (kk : EventKind) (i : EventOn) (s : State) : OnlyChanges raiseParts s (raiseNow kk i s) := by
  unfold raiseNow
  repeat' first
    | with_reducible exact .refl _
    | (with_reducible refine raise_only _ _ _ ?_ ?_; decide)

theorem raiseNow_only (kk : EventKind) (i : EventOn) (hk : raiseParts ⊆ k) (h : OnlyChanges k s t) :
    OnlyChanges k s (raiseNow kk i t) :=
  h.before hk (raiseNow_changes kk i t)

theorem forwardTo_changes (p : Port) (b : List Byte) (s : State) : OnlyChanges netParts s (forwardTo p b s) := by
  intro x hx; cases x <;> first | rfl | exact absurd (by decide) hx | simp [Same]

theorem forwardTo_only (p : Port) (b : List Byte) (hk : netParts ⊆ k) (h : OnlyChanges k s t) :
    OnlyChanges k s (forwardTo p b t) :=
  h.before hk (forwardTo_changes p b t)

theorem originate_changes (p : Port) (d : Nat) (kk : FrameKind) (b : List Byte) (m : Mark) (s : State) : OnlyChanges netParts s (originate p d kk b m s) := by
  intro x hx; cases x <;> first | rfl | exact absurd (by decide) hx | simp [Same]

theorem originate_only (p : Port) (d : Nat) (kk : FrameKind) (b : List Byte) (m : Mark) (hk : netParts ⊆ k) (h : OnlyChanges k s t) :
    OnlyChanges k s (originate p d kk b m t) :=
  h.before hk (originate_changes p d kk b m t)

theorem countCheck_changes (p : Port) (s : State) : OnlyChanges [.portU, .portD] s (countCheck p s) := by
  intro x hx; cases x <;> first | rfl | exact absurd (by decide) hx | simp [Same]

theorem countCheck_only (p : Port) (hk : [.portU, .portD] ⊆ k) (h : OnlyChanges k s t) :
    OnlyChanges k s (countCheck p t) :=
  h.before hk (countCheck_changes p t)

theorem countFormat_changes (p : Port) (s : State) : OnlyChanges [.portU, .portD] s (countFormat p s) := by
  intro x hx; cases x <;> first | rfl | exact absurd (by decide) hx | simp [Same]

theorem countFormat_only (p : Port) (hk : [.portU, .portD] ⊆ k) (h : OnlyChanges k s t) :
    OnlyChanges k s (countFormat p t) :=
  h.before hk (countFormat_changes p t)

theorem countForeign_changes (p : Port) (s : State) : OnlyChanges [.portU, .portD] s (countForeign p s) := by
  intro x hx; cases x <;> first | rfl | exact absurd (by decide) hx | simp [Same]

theorem countForeign_only (p : Port) (hk : [.portU, .portD] ⊆ k) (h : OnlyChanges k s t) :
    OnlyChanges k s (countForeign p t) :=
  h.before hk (countForeign_changes p t)

theorem linkActivity_changes (s : State) : OnlyChanges [.linkPin, .linkStart] s (linkActivity s) := by
  intro x hx; cases x <;> first | rfl | exact absurd (by decide) hx

theorem linkActivity_only (hk : [.linkPin, .linkStart] ⊆ k) (h : OnlyChanges k s t) :
    OnlyChanges k s (linkActivity t) :=
  h.before hk (linkActivity_changes t)

theorem placeEjectOffs_changes (s : State) : OnlyChanges [.portD, .ejectors] s (placeEjectOffs s) := by
  intro x hx; cases x <;> first | rfl | exact absurd (by decide) hx | simp [Same]

theorem placeEjectOffs_only (hk : [.portD, .ejectors] ⊆ k) (h : OnlyChanges k s t) :
    OnlyChanges k s (placeEjectOffs t) :=
  h.before hk (placeEjectOffs_changes t)

theorem placeOwed_changes (s : State) : OnlyChanges [.portD, .zones, .ejectors] s (placeOwed s) := by
  intro x hx; cases x <;> first | rfl | exact absurd (by decide) hx | simp [Same]

theorem placeOwed_only (hk : [.portD, .zones, .ejectors] ⊆ k) (h : OnlyChanges k s t) :
    OnlyChanges k s (placeOwed t) :=
  h.before hk (placeOwed_changes t)

@[simp] theorem moveHead_portD : s.moveHead.portD = s.portD := by
  unfold moveHead; repeat' split
  all_goals simp [pushOwn]

@[simp] theorem moveHeads_portD (n : Nat) : (s.moveHeads n).portD = s.portD := by
  induction n generalizing s with
  | zero => rfl
  | succ n ih => unfold moveHeads; split <;> simp [ih]

@[simp] theorem exportMoves_portD : s.exportMoves.portD = s.portD := by simp [exportMoves]

theorem exportMoves_changes (s : State) : OnlyChanges [.portU, .history, .exportQueue] s (exportMoves s) := by
  intro x hx; cases x <;> first | exact absurd (by decide) hx | simp [Same]

theorem exportMoves_only (hk : [.portU, .history, .exportQueue] ⊆ k) (h : OnlyChanges k s t) :
    OnlyChanges k s (exportMoves t) :=
  h.before hk (exportMoves_changes t)

theorem handToExport_changes (r : Record) (s : State) : OnlyChanges (.exportQueue :: raiseParts) s (handToExport r s) := by
  unfold handToExport; split
  · split
    · exact exportMoves_only (by decide) (withQueue_only (t := s) _ (by decide) (.refl s))
    · exact raiseNow_only _ _ (by decide) (.refl s)
  · exact .refl s

theorem handToExport_only (r : Record) (hk : .exportQueue :: raiseParts ⊆ k) (h : OnlyChanges k s t) :
    OnlyChanges k s (handToExport r t) :=
  h.before hk (handToExport_changes r t)

theorem closeRecord_changes (p : PressNo) (c : CloseCause) (tm : Time) (s : State) : OnlyChanges closeParts s (closeRecord p c tm s) := by
  unfold closeRecord; dsimp only
  repeat' first
    | with_reducible exact .refl _
    | (with_reducible refine modProfile_only _ _ _ ?_ ?_; decide)
    | (with_reducible refine modHistory_only _ ?_ ?_; decide)
    | (with_reducible refine modRecord_only _ _ ?_ ?_; decide)
    | (with_reducible refine handToExport_only _ ?_ ?_; decide)
    | split

theorem closeRecord_only (p : PressNo) (c : CloseCause) (tm : Time) (hk : closeParts ⊆ k) (h : OnlyChanges k s t) :
    OnlyChanges k s (closeRecord p c tm t) :=
  h.before hk (closeRecord_changes p c tm t)

theorem takeBuffer_changes (p : PressNo) (n : Nat) (s : State) : OnlyChanges [.profiles] s (takeBuffer p n s) := by
  unfold takeBuffer
  repeat' first
    | with_reducible exact .refl _
    | (with_reducible refine modProfile_only _ _ _ ?_ ?_; decide)
    | split

theorem takeBuffer_only (p : PressNo) (n : Nat) (hk : [.profiles] ⊆ k) (h : OnlyChanges k s t) :
    OnlyChanges k s (takeBuffer p n t) :=
  h.before hk (takeBuffer_changes p n t)

theorem takeSlot_changes (s : State) : OnlyChanges (.exportQueue :: raiseParts) s (takeSlot s) := by
  unfold takeSlot; split
  · exact modHistory_only _ (by decide) (.refl s)
  · split
    · exact raiseNow_only _ _ (by decide)
        (modHistory_only _ (by decide) (withQueue_only (t := s) _ (by decide) (.refl s)))
    · exact modHistory_only _ (by decide) (withQueue_only (t := s) _ (by decide) (.refl s))

theorem takeSlot_only (hk : .exportQueue :: raiseParts ⊆ k) (h : OnlyChanges k s t) :
    OnlyChanges k s (takeSlot t) :=
  h.before hk (takeSlot_changes t)

theorem storeRecord_changes (p : PressNo) (r : Record) (s : State) : OnlyChanges [.history] s (storeRecord p r s) := by
  unfold storeRecord
  repeat' first
    | with_reducible exact .refl _
    | (with_reducible refine modHistory_only _ ?_ ?_; decide)
    | split

theorem storeRecord_only (p : PressNo) (r : Record) (hk : [.history] ⊆ k) (h : OnlyChanges k s t) :
    OnlyChanges k s (storeRecord p r t) :=
  h.before hk (storeRecord_changes p r t)

theorem holdAfterAllocation_changes (s : State) : OnlyChanges raiseParts s (holdAfterAllocation s) := by
  unfold holdAfterAllocation
  repeat' first
    | with_reducible exact .refl _
    | (with_reducible refine modHistory_only _ ?_ ?_; decide)
    | (with_reducible refine raiseNow_only _ _ ?_ ?_; decide)
    | split

theorem holdAfterAllocation_only (hk : raiseParts ⊆ k) (h : OnlyChanges k s t) :
    OnlyChanges k s (holdAfterAllocation t) :=
  h.before hk (holdAfterAllocation_changes t)

theorem holdAfterAdvance_changes (s : State) : OnlyChanges raiseParts s (holdAfterAdvance s) := by
  unfold holdAfterAdvance
  repeat' first
    | with_reducible exact .refl _
    | (with_reducible refine modHistory_only _ ?_ ?_; decide)
    | split

theorem holdAfterAdvance_only (hk : raiseParts ⊆ k) (h : OnlyChanges k s t) :
    OnlyChanges k s (holdAfterAdvance t) :=
  h.before hk (holdAfterAdvance_changes t)

theorem holdAfterCellWrite_changes (s : State) : OnlyChanges raiseParts s (holdAfterCellWrite s) := by
  unfold holdAfterCellWrite
  repeat' first
    | with_reducible exact .refl _
    | (with_reducible refine modHistory_only _ ?_ ?_; decide)
    | (with_reducible refine raiseNow_only _ _ ?_ ?_; decide)
    | split

theorem holdAfterCellWrite_only (hk : raiseParts ⊆ k) (h : OnlyChanges k s t) :
    OnlyChanges k s (holdAfterCellWrite t) :=
  h.before hk (holdAfterCellWrite_changes t)

theorem allocate_changes (p : PressNo) (b : Binding) (c : ChargeRecord) (tm : Time) (s : State) : OnlyChanges closeParts s (allocate p b c tm s) := by
  unfold allocate; dsimp only
  repeat' first
    | with_reducible exact .refl _
    | (with_reducible refine takeBuffer_only _ _ ?_ ?_; decide)
    | (with_reducible refine takeSlot_only ?_ ?_; decide)
    | (with_reducible refine storeRecord_only _ _ ?_ ?_; decide)
    | (with_reducible refine holdAfterAllocation_only ?_ ?_; decide)

theorem allocate_only (p : PressNo) (b : Binding) (c : ChargeRecord) (tm : Time) (hk : closeParts ⊆ k) (h : OnlyChanges k s t) :
    OnlyChanges k s (allocate p b c tm t) :=
  h.before hk (allocate_changes p b c tm t)

theorem takePoint_changes (p : PressNo) (b : Fin 2) (o i : Nat) (s : State) : OnlyChanges [.profiles, .history] s (takePoint p b o i s) := by
  unfold takePoint; dsimp only
  repeat' first
    | with_reducible exact .refl _
    | (with_reducible refine modProfile_only _ _ _ ?_ ?_; decide)
    | (with_reducible refine setFlag_only _ _ ?_ ?_; decide)
    | split

theorem takePoint_only (p : PressNo) (b : Fin 2) (o i : Nat) (hk : [.profiles, .history] ⊆ k) (h : OnlyChanges k s t) :
    OnlyChanges k s (takePoint p b o i t) :=
  h.before hk (takePoint_changes p b o i t)

theorem windowEndHistory_changes (p : PressNo) (tm : Time) (s : State) : OnlyChanges [.profiles, .history] s (windowEndHistory p tm s) := by
  unfold windowEndHistory
  repeat' first
    | with_reducible exact .refl _
    | (with_reducible refine takePoint_only _ _ _ _ ?_ ?_; decide)
    | split

theorem windowEndHistory_only (p : PressNo) (tm : Time) (hk : [.profiles, .history] ⊆ k) (h : OnlyChanges k s t) :
    OnlyChanges k s (windowEndHistory p tm t) :=
  h.before hk (windowEndHistory_changes p tm t)

theorem recomputeProgress_changes (p : PressNo) (s : State) : OnlyChanges [.cures] s (recomputeProgress p s) := by
  unfold recomputeProgress
  repeat' first
    | with_reducible exact .refl _
    | (with_reducible refine modCure_only _ _ ?_ ?_; decide)
    | split

theorem recomputeProgress_only (p : PressNo) (hk : [.cures] ⊆ k) (h : OnlyChanges k s t) :
    OnlyChanges k s (recomputeProgress p t) :=
  h.before hk (recomputeProgress_changes p t)

theorem endCure_changes (p : PressNo) (tm : Time) (s : State) : OnlyChanges [.cures, .history] s (endCure p tm s) := by
  unfold endCure; dsimp only
  repeat' first
    | with_reducible exact .refl _
    | (with_reducible refine modCure_only _ _ ?_ ?_; decide)
    | (with_reducible refine modRecord_only _ _ ?_ ?_; decide)
    | split

theorem endCure_only (p : PressNo) (tm : Time) (hk : [.cures, .history] ⊆ k) (h : OnlyChanges k s t) :
    OnlyChanges k s (endCure p tm t) :=
  h.before hk (endCure_changes p tm t)

theorem permitTest_changes (p : PressNo) (tm : Time) (s : State) : OnlyChanges cureParts s (permitTest p tm s) := by
  unfold permitTest
  repeat' first
    | with_reducible exact .refl _
    | (with_reducible refine modCure_only _ _ ?_ ?_; decide)
    | (with_reducible refine modUnit_only _ _ ?_ ?_; decide)
    | (with_reducible refine raise_only _ _ _ ?_ ?_; decide)
    | (with_reducible refine endCure_only _ _ ?_ ?_; decide)
    | split

theorem permitTest_only (p : PressNo) (tm : Time) (hk : cureParts ⊆ k) (h : OnlyChanges k s t) :
    OnlyChanges k s (permitTest p tm t) :=
  h.before hk (permitTest_changes p tm t)

theorem loseCure_changes (p : PressNo) (tm : Time) (s : State) : OnlyChanges cureParts s (loseCure p tm s) := by
  unfold loseCure
  repeat' first
    | with_reducible exact .refl _
    | (with_reducible refine modCure_only _ _ ?_ ?_; decide)
    | (with_reducible refine setFlag_only _ _ ?_ ?_; decide)
    | (with_reducible refine raise_only _ _ _ ?_ ?_; decide)

theorem loseCure_only (p : PressNo) (tm : Time) (hk : cureParts ⊆ k) (h : OnlyChanges k s t) :
    OnlyChanges k s (loseCure p tm t) :=
  h.before hk (loseCure_changes p tm t)

theorem excludeZone_changes (z : ZoneNo) (tm : Time) (s : State) : OnlyChanges cureParts s (excludeZone z tm s) := by
  unfold excludeZone; dsimp only
  repeat' first
    | with_reducible exact .refl _
    | (with_reducible refine modCure_only _ _ ?_ ?_; decide)
    | (with_reducible refine modAccrual_only _ _ ?_ ?_; decide)
    | (with_reducible refine modRecord_only _ _ ?_ ?_; decide)
    | (with_reducible refine recomputeProgress_only _ ?_ ?_; decide)
    | (with_reducible refine permitTest_only _ _ ?_ ?_; decide)
    | (with_reducible refine loseCure_only _ _ ?_ ?_; decide)
    | split

theorem excludeZone_only (z : ZoneNo) (tm : Time) (hk : cureParts ⊆ k) (h : OnlyChanges k s t) :
    OnlyChanges k s (excludeZone z tm t) :=
  h.before hk (excludeZone_changes z tm t)

theorem includeZones_changes (p : PressNo) (s : State) : OnlyChanges [.accruals] s (includeZones p s) := by
  unfold includeZones
  repeat' first
    | with_reducible exact .refl _
    | (with_reducible refine modAccrual_only _ _ ?_ ?_; decide)
    | with_reducible refine .each (fun _ _ => ?_) _ ?_

theorem includeZones_only (p : PressNo) (hk : [.accruals] ⊆ k) (h : OnlyChanges k s t) :
    OnlyChanges k s (includeZones p t) :=
  h.before hk (includeZones_changes p t)

theorem startCure_changes (p : PressNo) (r : Recipe) (tm : Time) (s : State) : OnlyChanges cureParts s (startCure p r tm s) := by
  unfold startCure; dsimp only
  repeat' first
    | with_reducible exact .refl _
    | (with_reducible refine modCure_only _ _ ?_ ?_; decide)
    | (with_reducible refine modRecord_only _ _ ?_ ?_; decide)
    | (with_reducible refine loseCure_only _ _ ?_ ?_; decide)
    | (with_reducible refine excludeZone_only _ _ ?_ ?_; decide)
    | (with_reducible refine includeZones_only _ ?_ ?_; decide)
    | with_reducible refine .each (fun _ _ => ?_) _ ?_
    | split

theorem startCure_only (p : PressNo) (r : Recipe) (tm : Time) (hk : cureParts ⊆ k) (h : OnlyChanges k s t) :
    OnlyChanges k s (startCure p r tm t) :=
  h.before hk (startCure_changes p r tm t)

theorem accrue_changes (z : ZoneNo) (m : Int) (tm : Time) (s : State) : OnlyChanges cureParts s (accrue z m tm s) := by
  unfold accrue; dsimp only
  repeat' first
    | with_reducible exact .refl _
    | (with_reducible refine modAccrual_only _ _ ?_ ?_; decide)
    | (with_reducible refine raise_only _ _ _ ?_ ?_; decide)
    | (with_reducible refine recomputeProgress_only _ ?_ ?_; decide)
    | (with_reducible refine permitTest_only _ _ ?_ ?_; decide)
    | with_reducible refine .doIf _ (fun _ => ?_) ?_

theorem accrue_only (z : ZoneNo) (m : Int) (tm : Time) (hk : cureParts ⊆ k) (h : OnlyChanges k s t) :
    OnlyChanges k s (accrue z m tm t) :=
  h.before hk (accrue_changes z m tm t)

theorem takeHanded_changes (z : ZoneNo) (m : Int) (tm : Time) (s : State) : OnlyChanges cureParts s (takeHanded z m tm s) := by
  unfold takeHanded; dsimp only
  repeat' first
    | with_reducible exact .refl _
    | (with_reducible refine modCure_only _ _ ?_ ?_; decide)
    | (with_reducible refine modRecord_only _ _ ?_ ?_; decide)
    | (with_reducible refine accrue_only _ _ _ ?_ ?_; decide)
    | split

theorem takeHanded_only (z : ZoneNo) (m : Int) (tm : Time) (hk : cureParts ⊆ k) (h : OnlyChanges k s t) :
    OnlyChanges k s (takeHanded z m tm t) :=
  h.before hk (takeHanded_changes z m tm t)

theorem dwellExpires_changes (p : PressNo) (s : State) : OnlyChanges cureParts s (dwellExpires p s) := by
  unfold dwellExpires
  repeat' first
    | with_reducible exact .refl _
    | (with_reducible refine modCure_only _ _ ?_ ?_; decide)
    | (with_reducible refine permitTest_only _ _ ?_ ?_; decide)

theorem dwellExpires_only (p : PressNo) (hk : cureParts ⊆ k) (h : OnlyChanges k s t) :
    OnlyChanges k s (dwellExpires p t) :=
  h.before hk (dwellExpires_changes p t)

theorem timeOutCure_changes (p : PressNo) (s : State) : OnlyChanges cureParts s (timeOutCure p s) := by
  unfold timeOutCure; dsimp only
  repeat' first
    | with_reducible exact .refl _
    | (with_reducible refine modCure_only _ _ ?_ ?_; decide)
    | (with_reducible refine modUnit_only _ _ ?_ ?_; decide)
    | (with_reducible refine setFlag_only _ _ ?_ ?_; decide)
    | (with_reducible refine raiseNow_only _ _ ?_ ?_; decide)
    | (with_reducible refine endCure_only _ _ ?_ ?_; decide)

theorem timeOutCure_only (p : PressNo) (hk : cureParts ⊆ k) (h : OnlyChanges k s t) :
    OnlyChanges k s (timeOutCure p t) :=
  h.before hk (timeOutCure_changes p t)

theorem maxCureExpires_changes (p : PressNo) (s : State) : OnlyChanges cureParts s (maxCureExpires p s) := by
  unfold maxCureExpires; dsimp only
  repeat' first
    | with_reducible exact .refl _
    | (with_reducible refine modCure_only _ _ ?_ ?_; decide)
    | (with_reducible refine permitTest_only _ _ ?_ ?_; decide)
    | (with_reducible refine timeOutCure_only _ ?_ ?_; decide)
    | split

theorem maxCureExpires_only (p : PressNo) (hk : cureParts ⊆ k) (h : OnlyChanges k s t) :
    OnlyChanges k s (maxCureExpires p t) :=
  h.before hk (maxCureExpires_changes p t)

theorem setBase_changes (z : ZoneNo) (b : Int) (s : State) : OnlyChanges [.zones] s (setBase z b s) := by
  unfold setBase
  repeat' first
    | with_reducible exact .refl _
    | (with_reducible refine modZone_only _ _ ?_ ?_; decide)

theorem setBase_only (z : ZoneNo) (b : Int) (hk : [.zones] ⊆ k) (h : OnlyChanges k s t) :
    OnlyChanges k s (setBase z b t) :=
  h.before hk (setBase_changes z b t)

theorem formTarget_changes (z : ZoneNo) (s : State) : OnlyChanges [.zones] s (formTarget z s) := by
  unfold formTarget
  repeat' first
    | with_reducible exact .refl _
    | (with_reducible refine setBase_only _ _ ?_ ?_; decide)

theorem formTarget_only (z : ZoneNo) (hk : [.zones] ⊆ k) (h : OnlyChanges k s t) :
    OnlyChanges k s (formTarget z t) :=
  h.before hk (formTarget_changes z t)

theorem takeRecipeBase_changes (r : Recipe) (z : ZoneNo) (s : State) : OnlyChanges [.zones] s (takeRecipeBase r z s) := by
  unfold takeRecipeBase
  repeat' first
    | with_reducible exact .refl _
    | (with_reducible refine setBase_only _ _ ?_ ?_; decide)
    | split

theorem takeRecipeBase_only (r : Recipe) (z : ZoneNo) (hk : [.zones] ⊆ k) (h : OnlyChanges k s t) :
    OnlyChanges k s (takeRecipeBase r z t) :=
  h.before hk (takeRecipeBase_changes r z t)

theorem immediateHeat_changes (z : ZoneNo) (s : State) : OnlyChanges netParts s (immediateHeat z s) := by
  unfold immediateHeat
  repeat' first
    | with_reducible exact .refl _
    | (with_reducible refine originate_only _ _ _ _ _ ?_ ?_; decide)
    | split

theorem immediateHeat_only (z : ZoneNo) (hk : netParts ⊆ k) (h : OnlyChanges k s t) :
    OnlyChanges k s (immediateHeat z t) :=
  h.before hk (immediateHeat_changes z t)

theorem createOff_changes (z : ZoneNo) (s : State) : OnlyChanges [.zones, .offNumber] s (createOff z s) := by
  unfold createOff; split
  all_goals
    intro x hx; cases x <;> first | rfl | exact absurd (by decide) hx

theorem createOff_only (z : ZoneNo) (hk : [.zones, .offNumber] ⊆ k) (h : OnlyChanges k s t) :
    OnlyChanges k s (createOff z t) :=
  h.before hk (createOff_changes z t)

theorem clearOffsFor_changes (n o : Nat) (z : ZoneNo) (s : State) : OnlyChanges [.zones] s (clearOffsFor n o z s) := by
  unfold clearOffsFor
  repeat' first
    | with_reducible exact .refl _
    | (with_reducible refine modZone_only _ _ ?_ ?_; decide)

theorem clearOffsFor_only (n o : Nat) (z : ZoneNo) (hk : [.zones] ⊆ k) (h : OnlyChanges k s t) :
    OnlyChanges k s (clearOffsFor n o z t) :=
  h.before hk (clearOffsFor_changes n o z t)

theorem startWindow_changes (p : PressNo) (s : State) : OnlyChanges [.windows] s (startWindow p s) := by
  unfold startWindow
  repeat' first
    | with_reducible exact .refl _
    | (with_reducible refine modWindow_only _ _ ?_ ?_; decide)
    | split

theorem startWindow_only (p : PressNo) (hk : [.windows] ⊆ k) (h : OnlyChanges k s t) :
    OnlyChanges k s (startWindow p t) :=
  h.before hk (startWindow_changes p t)

theorem stopWindow_changes (p : PressNo) (s : State) : OnlyChanges [.windows] s (stopWindow p s) := by
  unfold stopWindow
  repeat' first
    | with_reducible exact .refl _
    | (with_reducible refine modWindow_only _ _ ?_ ?_; decide)
    | split

theorem stopWindow_only (p : PressNo) (hk : [.windows] ⊆ k) (h : OnlyChanges k s t) :
    OnlyChanges k s (stopWindow p t) :=
  h.before hk (stopWindow_changes p t)

theorem raiseSwitch_changes (z : ZoneNo) (tm : Time) (s : State) : OnlyChanges raiseParts s (raiseSwitch z tm s) := by
  unfold raiseSwitch
  repeat' first
    | with_reducible exact .refl _
    | (with_reducible refine setFlag_only _ _ ?_ ?_; decide)
    | (with_reducible refine raise_only _ _ _ ?_ ?_; decide)

theorem raiseSwitch_only (z : ZoneNo) (tm : Time) (hk : raiseParts ⊆ k) (h : OnlyChanges k s t) :
    OnlyChanges k s (raiseSwitch z tm t) :=
  h.before hk (raiseSwitch_changes z tm t)

theorem switchToBackup_changes (z : ZoneNo) (tm : Time) (s : State) : OnlyChanges (.zones :: raiseParts) s (switchToBackup z tm s) := by
  unfold switchToBackup
  repeat' first
    | with_reducible exact .refl _
    | (with_reducible refine modZone_only _ _ ?_ ?_; decide)
    | (with_reducible refine raiseSwitch_only _ _ ?_ ?_; decide)

theorem switchToBackup_only (z : ZoneNo) (tm : Time) (hk : .zones :: raiseParts ⊆ k) (h : OnlyChanges k s t) :
    OnlyChanges k s (switchToBackup z tm t) :=
  h.before hk (switchToBackup_changes z tm t)

theorem loseZone_changes (z : ZoneNo) (tm : Time) (s : State) : OnlyChanges (.zones :: cureParts) s (loseZone z tm s) := by
  unfold loseZone
  repeat' first
    | with_reducible exact .refl _
    | (with_reducible refine modZone_only _ _ ?_ ?_; decide)
    | (with_reducible refine raise_only _ _ _ ?_ ?_; decide)
    | (with_reducible refine excludeZone_only _ _ ?_ ?_; decide)

theorem loseZone_only (z : ZoneNo) (tm : Time) (hk : .zones :: cureParts ⊆ k) (h : OnlyChanges k s t) :
    OnlyChanges k s (loseZone z tm t) :=
  h.before hk (loseZone_changes z tm t)

theorem failoverOrLose_changes (z : ZoneNo) (tm : Time) (s : State) : OnlyChanges (.zones :: cureParts) s (failoverOrLose z tm s) := by
  unfold failoverOrLose
  repeat' first
    | with_reducible exact .refl _
    | (with_reducible refine modZone_only _ _ ?_ ?_; decide)
    | (with_reducible refine switchToBackup_only _ _ ?_ ?_; decide)
    | (with_reducible refine loseZone_only _ _ ?_ ?_; decide)
    | split

theorem failoverOrLose_only (z : ZoneNo) (tm : Time) (hk : .zones :: cureParts ⊆ k) (h : OnlyChanges k s t) :
    OnlyChanges k s (failoverOrLose z tm t) :=
  h.before hk (failoverOrLose_changes z tm t)

theorem holdCounting_changes (z : ZoneNo) (tm : Time) (s : State) : OnlyChanges (.zones :: cureParts) s (holdCounting z tm s) := by
  unfold holdCounting
  repeat' first
    | with_reducible exact .refl _
    | (with_reducible refine modZone_only _ _ ?_ ?_; decide)
    | (with_reducible refine failoverOrLose_only _ _ ?_ ?_; decide)
    | with_reducible refine .doIf _ (fun _ => ?_) ?_

theorem holdCounting_only (z : ZoneNo) (tm : Time) (hk : .zones :: cureParts ⊆ k) (h : OnlyChanges k s t) :
    OnlyChanges k s (holdCounting z tm t) :=
  h.before hk (holdCounting_changes z tm t)

theorem commitAndRamp_changes (z : ZoneNo) (s : State) : OnlyChanges [.zones] s (commitAndRamp z s) := by
  unfold commitAndRamp
  repeat' first
    | with_reducible exact .refl _
    | (with_reducible refine modZone_only _ _ ?_ ?_; decide)

theorem commitAndRamp_only (z : ZoneNo) (hk : [.zones] ⊆ k) (h : OnlyChanges k s t) :
    OnlyChanges k s (commitAndRamp z t) :=
  h.before hk (commitAndRamp_changes z t)

theorem zoneWindowEnd_changes (tm : Time) (z : ZoneNo) (s : State) : OnlyChanges (.zones :: cureParts) s (zoneWindowEnd tm z s) := by
  unfold zoneWindowEnd
  repeat' first
    | with_reducible exact .refl _
    | (with_reducible refine holdCounting_only _ _ ?_ ?_; decide)
    | (with_reducible refine commitAndRamp_only _ ?_ ?_; decide)

theorem zoneWindowEnd_only (tm : Time) (z : ZoneNo) (hk : .zones :: cureParts ⊆ k) (h : OnlyChanges k s t) :
    OnlyChanges k s (zoneWindowEnd tm z t) :=
  h.before hk (zoneWindowEnd_changes tm z t)

theorem clearCarried_changes (n : Nat) (l : List (Nat × ZoneNo)) (s : State) : OnlyChanges [.zones] s (clearCarried n l s) := by
  unfold clearCarried
  repeat' first
    | with_reducible exact .refl _
    | (with_reducible refine clearOffsFor_only _ _ _ ?_ ?_; decide)
    | with_reducible refine .each (fun _ _ => ?_) _ ?_

theorem clearCarried_only (n : Nat) (l : List (Nat × ZoneNo)) (hk : [.zones] ⊆ k) (h : OnlyChanges k s t) :
    OnlyChanges k s (clearCarried n l t) :=
  h.before hk (clearCarried_changes n l t)

theorem sendNodeHeat_changes (p : PressNo) (n : Nat) (s : State) : OnlyChanges (.zones :: .windows :: netParts) s (sendNodeHeat p n s) := by
  unfold sendNodeHeat; dsimp only
  repeat' first
    | with_reducible exact .refl _
    | (with_reducible refine modWindow_only _ _ ?_ ?_; decide)
    | (with_reducible refine originate_only _ _ _ _ _ ?_ ?_; decide)
    | (with_reducible refine clearCarried_only _ _ ?_ ?_; decide)
    | split

theorem sendNodeHeat_only (p : PressNo) (n : Nat) (hk : .zones :: .windows :: netParts ⊆ k) (h : OnlyChanges k s t) :
    OnlyChanges k s (sendNodeHeat p n t) :=
  h.before hk (sendNodeHeat_changes p n t)

theorem sendHeatFrames_changes (p : PressNo) (s : State) : OnlyChanges (.zones :: .windows :: netParts) s (sendHeatFrames p s) := by
  unfold sendHeatFrames
  repeat' first
    | with_reducible exact .refl _
    | (with_reducible refine modWindow_only _ _ ?_ ?_; decide)
    | (with_reducible refine sendNodeHeat_only _ _ ?_ ?_; decide)
    | with_reducible refine .each (fun _ _ => ?_) _ ?_

theorem sendHeatFrames_only (p : PressNo) (hk : .zones :: .windows :: netParts ⊆ k) (h : OnlyChanges k s t) :
    OnlyChanges k s (sendHeatFrames p t) :=
  h.before hk (sendHeatFrames_changes p t)

theorem nextWindow_changes (p : PressNo) (tm : Time) (s : State) : OnlyChanges [.windows] s (nextWindow p tm s) := by
  unfold nextWindow
  repeat' first
    | with_reducible exact .refl _
    | (with_reducible refine modWindow_only _ _ ?_ ?_; decide)

theorem nextWindow_only (p : PressNo) (tm : Time) (hk : [.windows] ⊆ k) (h : OnlyChanges k s t) :
    OnlyChanges k s (nextWindow p tm t) :=
  h.before hk (nextWindow_changes p tm t)

theorem windowEnds_changes (p : PressNo) (s : State) : OnlyChanges (.zones :: .windows :: .profiles :: .portD :: cureParts) s (windowEnds p s) := by
  unfold windowEnds; dsimp only
  repeat' first
    | with_reducible exact .refl _
    | (with_reducible refine windowEndHistory_only _ _ ?_ ?_; decide)
    | (with_reducible refine zoneWindowEnd_only _ _ ?_ ?_; decide)
    | (with_reducible refine sendHeatFrames_only _ ?_ ?_; decide)
    | (with_reducible refine nextWindow_only _ _ ?_ ?_; decide)
    | with_reducible refine .each (fun _ _ => ?_) _ ?_

theorem windowEnds_only (p : PressNo) (hk : .zones :: .windows :: .profiles :: .portD :: cureParts ⊆ k) (h : OnlyChanges k s t) :
    OnlyChanges k s (windowEnds p t) :=
  h.before hk (windowEnds_changes p t)

theorem regulate_changes (z : ZoneNo) (m : Int) (tm : Time) (s : State) : OnlyChanges [.zones] s (regulate z m tm s) := by
  unfold regulate
  repeat' first
    | with_reducible exact .refl _
    | (with_reducible refine modZone_only _ _ ?_ ?_; decide)

theorem regulate_only (z : ZoneNo) (m : Int) (tm : Time) (hk : [.zones] ⊆ k) (h : OnlyChanges k s t) :
    OnlyChanges k s (regulate z m tm t) :=
  h.before hk (regulate_changes z m tm t)

theorem overtempEntry_changes (z : ZoneNo) (tm : Time) (s : State) : OnlyChanges (.zones :: netParts) s (overtempEntry z tm s) := by
  unfold overtempEntry; dsimp only
  repeat' first
    | with_reducible exact .refl _
    | (with_reducible refine modZone_only _ _ ?_ ?_; decide)
    | (with_reducible refine setFlag_only _ _ ?_ ?_; decide)
    | (with_reducible refine raise_only _ _ _ ?_ ?_; decide)
    | (with_reducible refine immediateHeat_only _ ?_ ?_; decide)

theorem overtempEntry_only (z : ZoneNo) (tm : Time) (hk : .zones :: netParts ⊆ k) (h : OnlyChanges k s t) :
    OnlyChanges k s (overtempEntry z tm t) :=
  h.before hk (overtempEntry_changes z tm t)

theorem deviationTest_changes (z : ZoneNo) (m : Int) (tm : Time) (s : State) : OnlyChanges (.zones :: raiseParts) s (deviationTest z m tm s) := by
  unfold deviationTest; dsimp only
  repeat' first
    | with_reducible exact .refl _
    | (with_reducible refine modZone_only _ _ ?_ ?_; decide)
    | (with_reducible refine setFlag_only _ _ ?_ ?_; decide)
    | (with_reducible refine raise_only _ _ _ ?_ ?_; decide)
    | split

theorem deviationTest_only (z : ZoneNo) (m : Int) (tm : Time) (hk : .zones :: raiseParts ⊆ k) (h : OnlyChanges k s t) :
    OnlyChanges k s (deviationTest z m tm t) :=
  h.before hk (deviationTest_changes z m tm t)

theorem finishSample_changes (z : ZoneNo) (m : Int) (tm : Time) (s : State) : OnlyChanges (.zones :: .portD :: cureParts) s (finishSample z m tm s) := by
  unfold finishSample
  repeat' first
    | with_reducible exact .refl _
    | (with_reducible refine modZone_only _ _ ?_ ?_; decide)
    | (with_reducible refine takeHanded_only _ _ _ ?_ ?_; decide)
    | (with_reducible refine deviationTest_only _ _ _ ?_ ?_; decide)

theorem finishSample_only (z : ZoneNo) (m : Int) (tm : Time) (hk : .zones :: .portD :: cureParts ⊆ k) (h : OnlyChanges k s t) :
    OnlyChanges k s (finishSample z m tm t) :=
  h.before hk (finishSample_changes z m tm t)

theorem sampleRegulating_changes (z : ZoneNo) (m : Int) (tm : Time) (s : State) : OnlyChanges (.zones :: .portD :: cureParts) s (sampleRegulating z m tm s) := by
  unfold sampleRegulating; dsimp only
  repeat' first
    | with_reducible exact .refl _
    | (with_reducible refine modZone_only _ _ ?_ ?_; decide)
    | (with_reducible refine regulate_only _ _ _ ?_ ?_; decide)
    | (with_reducible refine overtempEntry_only _ _ ?_ ?_; decide)
    | (with_reducible refine finishSample_only _ _ _ ?_ ?_; decide)
    | split

theorem sampleRegulating_only (z : ZoneNo) (m : Int) (tm : Time) (hk : .zones :: .portD :: cureParts ⊆ k) (h : OnlyChanges k s t) :
    OnlyChanges k s (sampleRegulating z m tm t) :=
  h.before hk (sampleRegulating_changes z m tm t)

theorem sampleOvertemp_changes (z : ZoneNo) (m : Int) (tm : Time) (s : State) : OnlyChanges (.zones :: .portD :: cureParts) s (sampleOvertemp z m tm s) := by
  unfold sampleOvertemp; dsimp only
  repeat' first
    | with_reducible exact .refl _
    | (with_reducible refine modZone_only _ _ ?_ ?_; decide)
    | (with_reducible refine regulate_only _ _ _ ?_ ?_; decide)
    | (with_reducible refine finishSample_only _ _ _ ?_ ?_; decide)
    | split

theorem sampleOvertemp_only (z : ZoneNo) (m : Int) (tm : Time) (hk : .zones :: .portD :: cureParts ⊆ k) (h : OnlyChanges k s t) :
    OnlyChanges k s (sampleOvertemp z m tm t) :=
  h.before hk (sampleOvertemp_changes z m tm t)

theorem sampleLost_changes (z : ZoneNo) (a : ActiveSensor) (m : Int) (tm : Time) (s : State) : OnlyChanges (.zones :: .portD :: cureParts) s (sampleLost z a m tm s) := by
  unfold sampleLost; dsimp only
  repeat' first
    | with_reducible exact .refl _
    | (with_reducible refine modZone_only _ _ ?_ ?_; decide)
    | (with_reducible refine raiseSwitch_only _ _ ?_ ?_; decide)
    | (with_reducible refine sampleRegulating_only _ _ _ ?_ ?_; decide)
    | with_reducible refine .doIf _ (fun _ => ?_) ?_

theorem sampleLost_only (z : ZoneNo) (a : ActiveSensor) (m : Int) (tm : Time) (hk : .zones :: .portD :: cureParts ⊆ k) (h : OnlyChanges k s t) :
    OnlyChanges k s (sampleLost z a m tm t) :=
  h.before hk (sampleLost_changes z a m tm t)

theorem sensorFault_changes (z : ZoneNo) (tm : Time) (s : State) : OnlyChanges (.zones :: raiseParts) s (sensorFault z tm s) := by
  unfold sensorFault; dsimp only
  repeat' first
    | with_reducible exact .refl _
    | (with_reducible refine modZone_only _ _ ?_ ?_; decide)
    | (with_reducible refine raise_only _ _ _ ?_ ?_; decide)
    | (with_reducible refine switchToBackup_only _ _ ?_ ?_; decide)
    | split

theorem sensorFault_only (z : ZoneNo) (tm : Time) (hk : .zones :: raiseParts ⊆ k) (h : OnlyChanges k s t) :
    OnlyChanges k s (sensorFault z tm t) :=
  h.before hk (sensorFault_changes z tm t)

theorem treatEntry_changes (z : ZoneNo) (a : ActiveSensor) (c : ChannelStatus) (m : Int) (tm : Time) (s : State) : OnlyChanges (.zones :: .portD :: cureParts) s (treatEntry z a c m tm s) := by
  unfold treatEntry; dsimp only
  repeat' first
    | with_reducible exact .refl _
    | (with_reducible refine sampleRegulating_only _ _ _ ?_ ?_; decide)
    | (with_reducible refine sampleOvertemp_only _ _ _ ?_ ?_; decide)
    | (with_reducible refine sampleLost_only _ _ _ _ ?_ ?_; decide)
    | (with_reducible refine sensorFault_only _ _ ?_ ?_; decide)
    | split

theorem treatEntry_only (z : ZoneNo) (a : ActiveSensor) (c : ChannelStatus) (m : Int) (tm : Time) (hk : .zones :: .portD :: cureParts ⊆ k) (h : OnlyChanges k s t) :
    OnlyChanges k s (treatEntry z a c m tm t) :=
  h.before hk (treatEntry_changes z a c m tm t)

theorem recordEntry_changes (z : ZoneNo) (a : ActiveSensor) (l : LastEntry) (s : State) : OnlyChanges [.zones] s (recordEntry z a l s) := by
  unfold recordEntry
  repeat' first
    | with_reducible exact .refl _
    | (with_reducible refine modZone_only _ _ ?_ ?_; decide)
    | split

theorem recordEntry_only (z : ZoneNo) (a : ActiveSensor) (l : LastEntry) (hk : [.zones] ⊆ k) (h : OnlyChanges k s t) :
    OnlyChanges k s (recordEntry z a l t) :=
  h.before hk (recordEntry_changes z a l t)

theorem zoneTakes_changes (n : Nat) (e : ChannelEntry) (tm : Time) (z : ZoneNo) (s : State) : OnlyChanges (.zones :: .portD :: cureParts) s (zoneTakes n e tm z s) := by
  unfold zoneTakes
  repeat' first
    | with_reducible exact .refl _
    | (with_reducible refine treatEntry_only _ _ _ _ _ ?_ ?_; decide)
    | (with_reducible refine recordEntry_only _ _ _ ?_ ?_; decide)
    | split

theorem zoneTakes_only (n : Nat) (e : ChannelEntry) (tm : Time) (z : ZoneNo) (hk : .zones :: .portD :: cureParts ⊆ k) (h : OnlyChanges k s t) :
    OnlyChanges k s (zoneTakes n e tm z t) :=
  h.before hk (zoneTakes_changes n e tm z t)

theorem takeThermo_changes (n : Nat) (l : List ChannelEntry) (tm : Time) (s : State) : OnlyChanges (.zones :: .portD :: cureParts) s (takeThermo n l tm s) := by
  unfold takeThermo
  repeat' first
    | with_reducible exact .refl _
    | (with_reducible refine zoneTakes_only _ _ _ _ ?_ ?_; decide)
    | with_reducible refine .each (fun _ _ => ?_) _ ?_

theorem takeThermo_only (n : Nat) (l : List ChannelEntry) (tm : Time) (hk : .zones :: .portD :: cureParts ⊆ k) (h : OnlyChanges k s t) :
    OnlyChanges k s (takeThermo n l tm t) :=
  h.before hk (takeThermo_changes n l tm t)

theorem returnToPrimary_changes (z : ZoneNo) (s : State) : OnlyChanges [.zones] s (returnToPrimary z s) := by
  unfold returnToPrimary
  repeat' first
    | with_reducible exact .refl _
    | (with_reducible refine modZone_only _ _ ?_ ?_; decide)
    | split

theorem returnToPrimary_only (z : ZoneNo) (hk : [.zones] ⊆ k) (h : OnlyChanges k s t) :
    OnlyChanges k s (returnToPrimary z t) :=
  h.before hk (returnToPrimary_changes z t)

theorem enableZone_changes (z : ZoneNo) (s : State) : OnlyChanges [.zones, .windows] s (enableZone z s) := by
  unfold enableZone; dsimp only
  repeat' first
    | with_reducible exact .refl _
    | (with_reducible refine modZone_only _ _ ?_ ?_; decide)
    | (with_reducible refine formTarget_only _ ?_ ?_; decide)
    | (with_reducible refine takeRecipeBase_only _ _ ?_ ?_; decide)
    | (with_reducible refine clearOffsFor_only _ _ _ ?_ ?_; decide)
    | (with_reducible refine startWindow_only _ ?_ ?_; decide)
    | split

theorem enableZone_only (z : ZoneNo) (hk : [.zones, .windows] ⊆ k) (h : OnlyChanges k s t) :
    OnlyChanges k s (enableZone z t) :=
  h.before hk (enableZone_changes z t)

theorem disableZone_changes (z : ZoneNo) (tm : Time) (s : State) : OnlyChanges (.zones :: .windows :: .ejectors :: .offNumber :: .portD :: cureParts) s (disableZone z tm s) := by
  unfold disableZone; dsimp only
  repeat' first
    | with_reducible exact .refl _
    | (with_reducible refine modZone_only _ _ ?_ ?_; decide)
    | (with_reducible refine placeOwed_only ?_ ?_; decide)
    | (with_reducible refine excludeZone_only _ _ ?_ ?_; decide)
    | (with_reducible refine createOff_only _ ?_ ?_; decide)
    | (with_reducible refine stopWindow_only _ ?_ ?_; decide)

theorem disableZone_only (z : ZoneNo) (tm : Time) (hk : .zones :: .windows :: .ejectors :: .offNumber :: .portD :: cureParts ⊆ k) (h : OnlyChanges k s t) :
    OnlyChanges k s (disableZone z tm t) :=
  h.before hk (disableZone_changes z tm t)

theorem setOverride_changes (z : ZoneNo) (v : Int) (s : State) : OnlyChanges [.zones] s (setOverride z v s) := by
  unfold setOverride
  repeat' first
    | with_reducible exact .refl _
    | (with_reducible refine modZone_only _ _ ?_ ?_; decide)
    | (with_reducible refine setBase_only _ _ ?_ ?_; decide)

theorem setOverride_only (z : ZoneNo) (v : Int) (hk : [.zones] ⊆ k) (h : OnlyChanges k s t) :
    OnlyChanges k s (setOverride z v t) :=
  h.before hk (setOverride_changes z v t)

theorem clearOverride_changes (z : ZoneNo) (s : State) : OnlyChanges [.zones] s (clearOverride z s) := by
  unfold clearOverride; dsimp only
  repeat' first
    | with_reducible exact .refl _
    | (with_reducible refine modZone_only _ _ ?_ ?_; decide)
    | (with_reducible refine setBase_only _ _ ?_ ?_; decide)
    | split

theorem clearOverride_only (z : ZoneNo) (hk : [.zones] ⊆ k) (h : OnlyChanges k s t) :
    OnlyChanges k s (clearOverride z t) :=
  h.before hk (clearOverride_changes z t)

theorem evaluate_changes (kk : ScaleNo) (v : Int) (s : State) : OnlyChanges (.scales :: netParts) s (evaluate kk v s) := by
  unfold evaluate; dsimp only
  repeat' first
    | with_reducible exact .refl _
    | (with_reducible refine modScale_only _ _ ?_ ?_; decide)
    | (with_reducible refine raiseNow_only _ _ ?_ ?_; decide)
    | (with_reducible refine originate_only _ _ _ _ _ ?_ ?_; decide)
    | with_reducible refine .doIf _ (fun _ => ?_) ?_

theorem evaluate_only (kk : ScaleNo) (v : Int) (hk : .scales :: netParts ⊆ k) (h : OnlyChanges k s t) :
    OnlyChanges k s (evaluate kk v t) :=
  h.before hk (evaluate_changes kk v t)

theorem evaluateTo_changes (kk : ScaleNo) (v : Int) (s : State) : OnlyChanges (.scales :: netParts) s (evaluateTo kk v s) := by
  unfold evaluateTo
  repeat' first
    | with_reducible exact .refl _
    | (with_reducible refine modScale_only _ _ ?_ ?_; decide)
    | (with_reducible refine evaluate_only _ _ ?_ ?_; decide)

theorem evaluateTo_only (kk : ScaleNo) (v : Int) (hk : .scales :: netParts ⊆ k) (h : OnlyChanges k s t) :
    OnlyChanges k s (evaluateTo kk v t) :=
  h.before hk (evaluateTo_changes kk v t)

theorem changeOfHead_changes (kk : ScaleNo) (s : State) : OnlyChanges (.scales :: netParts) s (changeOfHead kk s) := by
  unfold changeOfHead
  repeat' first
    | with_reducible exact .refl _
    | (with_reducible refine evaluate_only _ _ ?_ ?_; decide)
    | (with_reducible refine evaluateTo_only _ _ ?_ ?_; decide)
    | split

theorem changeOfHead_only (kk : ScaleNo) (hk : .scales :: netParts ⊆ k) (h : OnlyChanges k s t) :
    OnlyChanges k s (changeOfHead kk t) :=
  h.before hk (changeOfHead_changes kk t)

theorem requeue_changes (kk : ScaleNo) (f : List QueueEntry → List QueueEntry) (s : State) : OnlyChanges (.scales :: netParts) s (requeue kk f s) := by
  unfold requeue; dsimp only
  repeat' first
    | with_reducible exact .refl _
    | (with_reducible refine modScale_only _ _ ?_ ?_; decide)
    | (with_reducible refine changeOfHead_only _ ?_ ?_; decide)
    | split

theorem requeue_only (kk : ScaleNo) (f : List QueueEntry → List QueueEntry) (hk : .scales :: netParts ⊆ k) (h : OnlyChanges k s t) :
    OnlyChanges k s (requeue kk f t) :=
  h.before hk (requeue_changes kk f t)

theorem joinQueue_changes (p : PressNo) (r : Recipe) (tm : Time) (s : State) : OnlyChanges (.scales :: netParts) s (joinQueue p r tm s) := by
  unfold joinQueue
  repeat' first
    | with_reducible exact .refl _
    | (with_reducible refine requeue_only _ _ ?_ ?_; decide)

theorem joinQueue_only (p : PressNo) (r : Recipe) (tm : Time) (hk : .scales :: netParts ⊆ k) (h : OnlyChanges k s t) :
    OnlyChanges k s (joinQueue p r tm t) :=
  h.before hk (joinQueue_changes p r tm t)

theorem leaveQueue_changes (p : PressNo) (s : State) : OnlyChanges (.scales :: netParts) s (leaveQueue p s) := by
  unfold leaveQueue
  repeat' first
    | with_reducible exact .refl _
    | (with_reducible refine requeue_only _ _ ?_ ?_; decide)
    | with_reducible refine .each (fun _ _ => ?_) _ ?_
    | split

theorem leaveQueue_only (p : PressNo) (hk : .scales :: netParts ⊆ k) (h : OnlyChanges k s t) :
    OnlyChanges k s (leaveQueue p t) :=
  h.before hk (leaveQueue_changes p t)

theorem handCharge_changes (p : PressNo) (c : ChargeRecord) (s : State) : OnlyChanges [.units] s (handCharge p c s) := by
  unfold handCharge
  repeat' first
    | with_reducible exact .refl _
    | (with_reducible refine modUnit_only _ _ ?_ ?_; decide)

theorem handCharge_only (p : PressNo) (c : ChargeRecord) (hk : [.units] ⊆ k) (h : OnlyChanges k s t) :
    OnlyChanges k s (handCharge p c t) :=
  h.before hk (handCharge_changes p c t)

theorem release_changes (kk : ScaleNo) (g : Int) (tm : Time) (s : State) : OnlyChanges [.scales, .units] s (release kk g tm s) := by
  unfold release; dsimp only
  repeat' first
    | with_reducible exact .refl _
    | (with_reducible refine modScale_only _ _ ?_ ?_; decide)
    | (with_reducible refine handCharge_only _ _ ?_ ?_; decide)
    | split

theorem release_only (kk : ScaleNo) (g : Int) (tm : Time) (hk : [.scales, .units] ⊆ k) (h : OnlyChanges k s t) :
    OnlyChanges k s (release kk g tm t) :=
  h.before hk (release_changes kk g tm t)

theorem zeroTrack_changes (kk : ScaleNo) (s : State) : OnlyChanges (.scales :: netParts) s (zeroTrack kk s) := by
  unfold zeroTrack; dsimp only
  repeat' first
    | with_reducible exact .refl _
    | (with_reducible refine modScale_only _ _ ?_ ?_; decide)
    | (with_reducible refine raiseNow_only _ _ ?_ ?_; decide)
    | split

theorem zeroTrack_only (kk : ScaleNo) (hk : .scales :: netParts ⊆ k) (h : OnlyChanges k s t) :
    OnlyChanges k s (zeroTrack kk t) :=
  h.before hk (zeroTrack_changes kk t)

theorem grossEmpty_changes (kk : ScaleNo) (g : Int) (s : State) : OnlyChanges (.scales :: netParts) s (grossEmpty kk g s) := by
  unfold grossEmpty; dsimp only
  repeat' first
    | with_reducible exact .refl _
    | (with_reducible refine modScale_only _ _ ?_ ?_; decide)
    | (with_reducible refine zeroTrack_only _ ?_ ?_; decide)
    | with_reducible refine .doIf _ (fun _ => ?_) ?_
    | split

theorem grossEmpty_only (kk : ScaleNo) (g : Int) (hk : .scales :: netParts ⊆ k) (h : OnlyChanges k s t) :
    OnlyChanges k s (grossEmpty kk g t) :=
  h.before hk (grossEmpty_changes kk g t)

theorem grossLoading_changes (kk : ScaleNo) (g : Int) (s : State) : OnlyChanges (.scales :: netParts) s (grossLoading kk g s) := by
  unfold grossLoading; dsimp only
  repeat' first
    | with_reducible exact .refl _
    | (with_reducible refine modScale_only _ _ ?_ ?_; decide)
    | (with_reducible refine evaluateTo_only _ _ ?_ ?_; decide)
    | with_reducible refine .doIf _ (fun _ => ?_) ?_
    | split

theorem grossLoading_only (kk : ScaleNo) (g : Int) (hk : .scales :: netParts ⊆ k) (h : OnlyChanges k s t) :
    OnlyChanges k s (grossLoading kk g t) :=
  h.before hk (grossLoading_changes kk g t)

theorem toLifting_changes (kk : ScaleNo) (g : Int) (tm : Time) (s : State) : OnlyChanges [.scales] s (toLifting kk g tm s) := by
  unfold toLifting
  repeat' first
    | with_reducible exact .refl _
    | (with_reducible refine modScale_only _ _ ?_ ?_; decide)

theorem toLifting_only (kk : ScaleNo) (g : Int) (tm : Time) (hk : [.scales] ⊆ k) (h : OnlyChanges k s t) :
    OnlyChanges k s (toLifting kk g tm t) :=
  h.before hk (toLifting_changes kk g tm t)

theorem grossVerdict_changes (kk : ScaleNo) (g : Int) (tm : Time) (s : State) : OnlyChanges (.scales :: .units :: netParts) s (grossVerdict kk g tm s) := by
  unfold grossVerdict; dsimp only
  repeat' first
    | with_reducible exact .refl _
    | (with_reducible refine modScale_only _ _ ?_ ?_; decide)
    | (with_reducible refine release_only _ _ _ ?_ ?_; decide)
    | (with_reducible refine toLifting_only _ _ _ ?_ ?_; decide)
    | split

theorem grossVerdict_only (kk : ScaleNo) (g : Int) (tm : Time) (hk : .scales :: .units :: netParts ⊆ k) (h : OnlyChanges k s t) :
    OnlyChanges k s (grossVerdict kk g tm t) :=
  h.before hk (grossVerdict_changes kk g tm t)

theorem grossLifting_changes (kk : ScaleNo) (g : Int) (tm : Time) (s : State) : OnlyChanges (.scales :: .units :: netParts) s (grossLifting kk g tm s) := by
  unfold grossLifting; dsimp only
  repeat' first
    | with_reducible exact .refl _
    | (with_reducible refine modScale_only _ _ ?_ ?_; decide)
    | (with_reducible refine evaluateTo_only _ _ ?_ ?_; decide)
    | (with_reducible refine release_only _ _ _ ?_ ?_; decide)
    | split

theorem grossLifting_only (kk : ScaleNo) (g : Int) (tm : Time) (hk : .scales :: .units :: netParts ⊆ k) (h : OnlyChanges k s t) :
    OnlyChanges k s (grossLifting kk g tm t) :=
  h.before hk (grossLifting_changes kk g tm t)

theorem grossOverload_changes (kk : ScaleNo) (g : Int) (s : State) : OnlyChanges [.scales] s (grossOverload kk g s) := by
  unfold grossOverload
  repeat' first
    | with_reducible exact .refl _
    | (with_reducible refine modScale_only _ _ ?_ ?_; decide)
    | split

theorem grossOverload_only (kk : ScaleNo) (g : Int) (hk : [.scales] ⊆ k) (h : OnlyChanges k s t) :
    OnlyChanges k s (grossOverload kk g t) :=
  h.before hk (grossOverload_changes kk g t)

theorem toOverload_changes (kk : ScaleNo) (s : State) : OnlyChanges (.scales :: netParts) s (toOverload kk s) := by
  unfold toOverload
  repeat' first
    | with_reducible exact .refl _
    | (with_reducible refine modScale_only _ _ ?_ ?_; decide)
    | (with_reducible refine raiseNow_only _ _ ?_ ?_; decide)

theorem toOverload_only (kk : ScaleNo) (hk : .scales :: netParts ⊆ k) (h : OnlyChanges k s t) :
    OnlyChanges k s (toOverload kk t) :=
  h.before hk (toOverload_changes kk t)

theorem takeGross_changes (kk : ScaleNo) (g : Int) (tm : Time) (s : State) : OnlyChanges (.scales :: .units :: netParts) s (takeGross kk g tm s) := by
  unfold takeGross; dsimp only
  repeat' first
    | with_reducible exact .refl _
    | (with_reducible refine grossEmpty_only _ _ ?_ ?_; decide)
    | (with_reducible refine grossLoading_only _ _ ?_ ?_; decide)
    | (with_reducible refine grossVerdict_only _ _ _ ?_ ?_; decide)
    | (with_reducible refine grossLifting_only _ _ _ ?_ ?_; decide)
    | (with_reducible refine grossOverload_only _ _ ?_ ?_; decide)
    | (with_reducible refine toOverload_only _ ?_ ?_; decide)
    | split

theorem takeGross_only (kk : ScaleNo) (g : Int) (tm : Time) (hk : .scales :: .units :: netParts ⊆ k) (h : OnlyChanges k s t) :
    OnlyChanges k s (takeGross kk g tm t) :=
  h.before hk (takeGross_changes kk g tm t)

theorem pairDisagrees_changes (kk : ScaleNo) (s : State) : OnlyChanges (.scales :: netParts) s (pairDisagrees kk s) := by
  unfold pairDisagrees
  repeat' first
    | with_reducible exact .refl _
    | (with_reducible refine modScale_only _ _ ?_ ?_; decide)
    | (with_reducible refine raiseNow_only _ _ ?_ ?_; decide)
    | split

theorem pairDisagrees_only (kk : ScaleNo) (hk : .scales :: netParts ⊆ k) (h : OnlyChanges k s t) :
    OnlyChanges k s (pairDisagrees kk t) :=
  h.before hk (pairDisagrees_changes kk t)

theorem pairAgreesMismatch_changes (kk : ScaleNo) (g : Int) (s : State) : OnlyChanges (.scales :: netParts) s (pairAgreesMismatch kk g s) := by
  unfold pairAgreesMismatch; dsimp only
  repeat' first
    | with_reducible exact .refl _
    | (with_reducible refine modScale_only _ _ ?_ ?_; decide)
    | (with_reducible refine toOverload_only _ ?_ ?_; decide)
    | split

theorem pairAgreesMismatch_only (kk : ScaleNo) (g : Int) (hk : .scales :: netParts ⊆ k) (h : OnlyChanges k s t) :
    OnlyChanges k s (pairAgreesMismatch kk g t) :=
  h.before hk (pairAgreesMismatch_changes kk g t)

theorem takePair_changes (kk : ScaleNo) (a b : Int) (tm : Time) (s : State) : OnlyChanges (.scales :: .units :: netParts) s (takePair kk a b tm s) := by
  unfold takePair
  repeat' first
    | with_reducible exact .refl _
    | (with_reducible refine takeGross_only _ _ _ ?_ ?_; decide)
    | (with_reducible refine pairDisagrees_only _ ?_ ?_; decide)
    | (with_reducible refine pairAgreesMismatch_only _ _ ?_ ?_; decide)
    | split

theorem takePair_only (kk : ScaleNo) (a b : Int) (tm : Time) (hk : .scales :: .units :: netParts ⊆ k) (h : OnlyChanges k s t) :
    OnlyChanges k s (takePair kk a b tm t) :=
  h.before hk (takePair_changes kk a b tm t)

theorem skip_changes (kk : ScaleNo) (s : State) : OnlyChanges [.scales] s (skip kk s) := by
  unfold skip
  repeat' first
    | with_reducible exact .refl _
    | (with_reducible refine modScale_only _ _ ?_ ?_; decide)

theorem skip_only (kk : ScaleNo) (hk : [.scales] ⊆ k) (h : OnlyChanges k s t) :
    OnlyChanges k s (skip kk t) :=
  h.before hk (skip_changes kk t)

theorem takeB_changes (kk : ScaleNo) (m : ScaleMode) (b : Int) (tm : Time) (s : State) : OnlyChanges (.scales :: .units :: netParts) s (takeB kk m b tm s) := by
  unfold takeB
  repeat' first
    | with_reducible exact .refl _
    | (with_reducible refine modScale_only _ _ ?_ ?_; decide)
    | (with_reducible refine takeGross_only _ _ _ ?_ ?_; decide)
    | (with_reducible refine takePair_only _ _ _ _ ?_ ?_; decide)
    | (with_reducible refine skip_only _ ?_ ?_; decide)
    | split

theorem takeB_only (kk : ScaleNo) (m : ScaleMode) (b : Int) (tm : Time) (hk : .scales :: .units :: netParts ⊆ k) (h : OnlyChanges k s t) :
    OnlyChanges k s (takeB kk m b tm t) :=
  h.before hk (takeB_changes kk m b tm t)

theorem takeA_changes (kk : ScaleNo) (m : ScaleMode) (a : Int) (tm : Time) (s : State) : OnlyChanges (.scales :: .units :: netParts) s (takeA kk m a tm s) := by
  unfold takeA
  repeat' first
    | with_reducible exact .refl _
    | (with_reducible refine modScale_only _ _ ?_ ?_; decide)
    | (with_reducible refine takeGross_only _ _ _ ?_ ?_; decide)
    | split

theorem takeA_only (kk : ScaleNo) (m : ScaleMode) (a : Int) (tm : Time) (hk : .scales :: .units :: netParts ⊆ k) (h : OnlyChanges k s t) :
    OnlyChanges k s (takeA kk m a tm t) :=
  h.before hk (takeA_changes kk m a tm t)

theorem takeChannelA_changes (kk : ScaleNo) (e : ChannelEntry) (tm : Time) (s : State) : OnlyChanges (.scales :: .units :: netParts) s (takeChannelA kk e tm s) := by
  unfold takeChannelA; dsimp only
  repeat' first
    | with_reducible exact .refl _
    | (with_reducible refine modScale_only _ _ ?_ ?_; decide)
    | (with_reducible refine skip_only _ ?_ ?_; decide)
    | (with_reducible refine takeA_only _ _ _ _ ?_ ?_; decide)
    | split

theorem takeChannelA_only (kk : ScaleNo) (e : ChannelEntry) (tm : Time) (hk : .scales :: .units :: netParts ⊆ k) (h : OnlyChanges k s t) :
    OnlyChanges k s (takeChannelA kk e tm t) :=
  h.before hk (takeChannelA_changes kk e tm t)

theorem takeChannelB_changes (kk : ScaleNo) (e : ChannelEntry) (tm : Time) (s : State) : OnlyChanges (.scales :: .units :: netParts) s (takeChannelB kk e tm s) := by
  unfold takeChannelB; dsimp only
  repeat' first
    | with_reducible exact .refl _
    | (with_reducible refine modScale_only _ _ ?_ ?_; decide)
    | (with_reducible refine skip_only _ ?_ ?_; decide)
    | (with_reducible refine takeB_only _ _ _ _ ?_ ?_; decide)
    | split

theorem takeChannelB_only (kk : ScaleNo) (e : ChannelEntry) (tm : Time) (hk : .scales :: .units :: netParts ⊆ k) (h : OnlyChanges k s t) :
    OnlyChanges k s (takeChannelB kk e tm t) :=
  h.before hk (takeChannelB_changes kk e tm t)

theorem takeScaleEntry_changes (kk : ScaleNo) (n : Nat) (tm : Time) (e : ChannelEntry) (s : State) : OnlyChanges (.scales :: .units :: netParts) s (takeScaleEntry kk n tm e s) := by
  unfold takeScaleEntry; dsimp only
  repeat' first
    | with_reducible exact .refl _
    | (with_reducible refine takeChannelA_only _ _ _ ?_ ?_; decide)
    | (with_reducible refine takeChannelB_only _ _ _ ?_ ?_; decide)
    | split

theorem takeScaleEntry_only (kk : ScaleNo) (n : Nat) (tm : Time) (e : ChannelEntry) (hk : .scales :: .units :: netParts ⊆ k) (h : OnlyChanges k s t) :
    OnlyChanges k s (takeScaleEntry kk n tm e t) :=
  h.before hk (takeScaleEntry_changes kk n tm e t)

theorem takeScale_changes (kk : ScaleNo) (n : Nat) (l : List ChannelEntry) (tm : Time) (s : State) : OnlyChanges (.scales :: .units :: netParts) s (takeScale kk n l tm s) := by
  unfold takeScale
  repeat' first
    | with_reducible exact .refl _
    | (with_reducible refine takeScaleEntry_only _ _ _ _ ?_ ?_; decide)
    | with_reducible refine .each (fun _ _ => ?_) _ ?_

theorem takeScale_only (kk : ScaleNo) (n : Nat) (l : List ChannelEntry) (tm : Time) (hk : .scales :: .units :: netParts ⊆ k) (h : OnlyChanges k s t) :
    OnlyChanges k s (takeScale kk n l tm t) :=
  h.before hk (takeScale_changes kk n l tm t)

theorem liftExpires_changes (kk : ScaleNo) (s : State) : OnlyChanges [.scales] s (liftExpires kk s) := by
  unfold liftExpires
  repeat' first
    | with_reducible exact .refl _
    | (with_reducible refine modScale_only _ _ ?_ ?_; decide)

theorem liftExpires_only (kk : ScaleNo) (hk : [.scales] ⊆ k) (h : OnlyChanges k s t) :
    OnlyChanges k s (liftExpires kk t) :=
  h.before hk (liftExpires_changes kk t)

theorem ejectOn_changes (p : PressNo) (s : State) : OnlyChanges netParts s (ejectOn p s) := by
  unfold ejectOn
  repeat' first
    | with_reducible exact .refl _
    | (with_reducible refine originate_only _ _ _ _ _ ?_ ?_; decide)
    | split

theorem ejectOn_only (p : PressNo) (hk : netParts ⊆ k) (h : OnlyChanges k s t) :
    OnlyChanges k s (ejectOn p t) :=
  h.before hk (ejectOn_changes p t)

theorem oweEjectOff_changes (p : PressNo) (s : State) : OnlyChanges [.ejectors, .offNumber] s (oweEjectOff p s) := by
  unfold oweEjectOff; split
  all_goals
    intro x hx; cases x <;> first | rfl | exact absurd (by decide) hx

theorem oweEjectOff_only (p : PressNo) (hk : [.ejectors, .offNumber] ⊆ k) (h : OnlyChanges k s t) :
    OnlyChanges k s (oweEjectOff p t) :=
  h.before hk (oweEjectOff_changes p t)

theorem stopEjection_changes (p : PressNo) (s : State) : OnlyChanges [.ejectors, .offNumber, .portD, .zones] s (stopEjection p s) := by
  unfold stopEjection
  repeat' first
    | with_reducible exact .refl _
    | (with_reducible refine modEjector_only _ _ ?_ ?_; decide)
    | (with_reducible refine placeOwed_only ?_ ?_; decide)
    | (with_reducible refine oweEjectOff_only _ ?_ ?_; decide)

theorem stopEjection_only (p : PressNo) (hk : [.ejectors, .offNumber, .portD, .zones] ⊆ k) (h : OnlyChanges k s t) :
    OnlyChanges k s (stopEjection p t) :=
  h.before hk (stopEjection_changes p t)

theorem cutEjection_changes (p : PressNo) (s : State) : OnlyChanges [.ejectors, .offNumber, .portD, .zones] s (cutEjection p s) := by
  unfold cutEjection
  repeat' first
    | with_reducible exact .refl _
    | (with_reducible refine modEjector_only _ _ ?_ ?_; decide)
    | (with_reducible refine placeOwed_only ?_ ?_; decide)
    | (with_reducible refine oweEjectOff_only _ ?_ ?_; decide)
    | with_reducible refine .doIf _ (fun _ => ?_) ?_
    | split

theorem cutEjection_only (p : PressNo) (hk : [.ejectors, .offNumber, .portD, .zones] ⊆ k) (h : OnlyChanges k s t) :
    OnlyChanges k s (cutEjection p t) :=
  h.before hk (cutEjection_changes p t)

theorem reachA_changes (p : PressNo) (s : State) : OnlyChanges (.ejectors :: netParts) s (reachA p s) := by
  unfold reachA
  repeat' first
    | with_reducible exact .refl _
    | (with_reducible refine modEjector_only _ _ ?_ ?_; decide)
    | (with_reducible refine setFlag_only _ _ ?_ ?_; decide)
    | (with_reducible refine ejectOn_only _ ?_ ?_; decide)
    | split

theorem reachA_only (p : PressNo) (hk : .ejectors :: netParts ⊆ k) (h : OnlyChanges k s t) :
    OnlyChanges k s (reachA p t) :=
  h.before hk (reachA_changes p t)

theorem finishEjection_changes (p : PressNo) (s : State) : OnlyChanges [.ejectors, .offNumber, .portD, .zones, .units] s (finishEjection p s) := by
  unfold finishEjection
  repeat' first
    | with_reducible exact .refl _
    | (with_reducible refine modUnit_only _ _ ?_ ?_; decide)
    | (with_reducible refine stopEjection_only _ ?_ ?_; decide)

theorem finishEjection_only (p : PressNo) (hk : [.ejectors, .offNumber, .portD, .zones, .units] ⊆ k) (h : OnlyChanges k s t) :
    OnlyChanges k s (finishEjection p t) :=
  h.before hk (finishEjection_changes p t)

theorem reachB_changes (p : PressNo) (s : State) : OnlyChanges [.ejectors, .offNumber, .portD, .zones, .units, .history] s (reachB p s) := by
  unfold reachB
  repeat' first
    | with_reducible exact .refl _
    | (with_reducible refine modEjector_only _ _ ?_ ?_; decide)
    | (with_reducible refine setFlag_only _ _ ?_ ?_; decide)
    | (with_reducible refine finishEjection_only _ ?_ ?_; decide)
    | split

theorem reachB_only (p : PressNo) (hk : [.ejectors, .offNumber, .portD, .zones, .units, .history] ⊆ k) (h : OnlyChanges k s t) :
    OnlyChanges k s (reachB p t) :=
  h.before hk (reachB_changes p t)

theorem beginEjection_changes (p : PressNo) (r : Recipe) (tm : Time) (s : State) : OnlyChanges (.ejectors :: netParts) s (beginEjection p r tm s) := by
  unfold beginEjection
  repeat' first
    | with_reducible exact .refl _
    | (with_reducible refine modEjector_only _ _ ?_ ?_; decide)
    | (with_reducible refine reachA_only _ ?_ ?_; decide)
    | with_reducible refine .doIf _ (fun _ => ?_) ?_

theorem beginEjection_only (p : PressNo) (r : Recipe) (tm : Time) (hk : .ejectors :: netParts ⊆ k) (h : OnlyChanges k s t) :
    OnlyChanges k s (beginEjection p r tm t) :=
  h.before hk (beginEjection_changes p r tm t)

theorem setSetup_changes (p : PressNo) (b : Bool) (s : State) : OnlyChanges [.ejectors] s (setSetup p b s) := by
  unfold setSetup
  repeat' first
    | with_reducible exact .refl _
    | (with_reducible refine modEjector_only _ _ ?_ ?_; decide)

theorem setSetup_only (p : PressNo) (b : Bool) (hk : [.ejectors] ⊆ k) (h : OnlyChanges k s t) :
    OnlyChanges k s (setSetup p b t) :=
  h.before hk (setSetup_changes p b t)

theorem stuckPart_changes (p : PressNo) (tm : Time) (s : State) : OnlyChanges (.ejectors :: .offNumber :: .portD :: .zones :: .units :: closeParts) s (stuckPart p tm s) := by
  unfold stuckPart; dsimp only
  repeat' first
    | with_reducible exact .refl _
    | (with_reducible refine modUnit_only _ _ ?_ ?_; decide)
    | (with_reducible refine setFlag_only _ _ ?_ ?_; decide)
    | (with_reducible refine raise_only _ _ _ ?_ ?_; decide)
    | (with_reducible refine closeRecord_only _ _ _ ?_ ?_; decide)
    | (with_reducible refine stopEjection_only _ ?_ ?_; decide)

theorem stuckPart_only (p : PressNo) (tm : Time) (hk : .ejectors :: .offNumber :: .portD :: .zones :: .units :: closeParts ⊆ k) (h : OnlyChanges k s t) :
    OnlyChanges k s (stuckPart p tm t) :=
  h.before hk (stuckPart_changes p tm t)

theorem followPeak_changes (p : PressNo) (n : Nat) (s : State) : OnlyChanges [.ejectors, .history] s (followPeak p n s) := by
  unfold followPeak
  repeat' first
    | with_reducible exact .refl _
    | (with_reducible refine modEjector_only _ _ ?_ ?_; decide)
    | (with_reducible refine modRecord_only _ _ ?_ ?_; decide)
    | split

theorem followPeak_only (p : PressNo) (n : Nat) (hk : [.ejectors, .history] ⊆ k) (h : OnlyChanges k s t) :
    OnlyChanges k s (followPeak p n t) :=
  h.before hk (followPeak_changes p n t)

theorem takeEjector_changes (p : PressNo) (r : EjectorReport) (s : State) : OnlyChanges (.ejectors :: .offNumber :: .portD :: .zones :: .units :: closeParts) s (takeEjector p r s) := by
  unfold takeEjector; dsimp only
  repeat' first
    | with_reducible exact .refl _
    | (with_reducible refine modEjector_only _ _ ?_ ?_; decide)
    | (with_reducible refine stuckPart_only _ _ ?_ ?_; decide)
    | (with_reducible refine followPeak_only _ _ ?_ ?_; decide)
    | with_reducible refine .doIf _ (fun _ => ?_) ?_
    | split

theorem takeEjector_only (p : PressNo) (r : EjectorReport) (hk : .ejectors :: .offNumber :: .portD :: .zones :: .units :: closeParts ⊆ k) (h : OnlyChanges k s t) :
    OnlyChanges k s (takeEjector p r t) :=
  h.before hk (takeEjector_changes p r t)

theorem bindUnit_changes (p : PressNo) (b : Binding) (tm : Time) (s : State) : OnlyChanges (.zones :: .scales :: .units :: netParts) s (bindUnit p b tm s) := by
  unfold bindUnit; dsimp only
  repeat' first
    | with_reducible exact .refl _
    | (with_reducible refine modUnit_only _ _ ?_ ?_; decide)
    | (with_reducible refine takeRecipeBase_only _ _ ?_ ?_; decide)
    | (with_reducible refine joinQueue_only _ _ _ ?_ ?_; decide)
    | with_reducible refine .each (fun _ _ => ?_) _ ?_

theorem bindUnit_only (p : PressNo) (b : Binding) (tm : Time) (hk : .zones :: .scales :: .units :: netParts ⊆ k) (h : OnlyChanges k s t) :
    OnlyChanges k s (bindUnit p b tm t) :=
  h.before hk (bindUnit_changes p b tm t)

theorem attemptBinding_changes (p : PressNo) (r : PressReport) (s : State) : OnlyChanges (.zones :: .scales :: .units :: netParts) s (attemptBinding p r s) := by
  unfold attemptBinding
  repeat' first
    | with_reducible exact .refl _
    | (with_reducible refine modUnit_only _ _ ?_ ?_; decide)
    | (with_reducible refine bindUnit_only _ _ _ ?_ ?_; decide)
    | split

theorem attemptBinding_only (p : PressNo) (r : PressReport) (hk : .zones :: .scales :: .units :: netParts ⊆ k) (h : OnlyChanges k s t) :
    OnlyChanges k s (attemptBinding p r t) :=
  h.before hk (attemptBinding_changes p r t)

theorem discardCharge_changes (p : PressNo) (s : State) : OnlyChanges (.units :: raiseParts) s (discardCharge p s) := by
  unfold discardCharge
  repeat' first
    | with_reducible exact .refl _
    | (with_reducible refine modUnit_only _ _ ?_ ?_; decide)
    | (with_reducible refine raiseNow_only _ _ ?_ ?_; decide)

theorem discardCharge_only (p : PressNo) (hk : .units :: raiseParts ⊆ k) (h : OnlyChanges k s t) :
    OnlyChanges k s (discardCharge p t) :=
  h.before hk (discardCharge_changes p t)

theorem giveUpCharge_changes (p : PressNo) (s : State) : OnlyChanges (.scales :: .units :: netParts) s (giveUpCharge p s) := by
  unfold giveUpCharge
  repeat' first
    | with_reducible exact .refl _
    | (with_reducible refine leaveQueue_only _ ?_ ?_; decide)
    | (with_reducible refine discardCharge_only _ ?_ ?_; decide)
    | split

theorem giveUpCharge_only (p : PressNo) (hk : .scales :: .units :: netParts ⊆ k) (h : OnlyChanges k s t) :
    OnlyChanges k s (giveUpCharge p t) :=
  h.before hk (giveUpCharge_changes p t)

theorem pressDisable_changes (p : PressNo) (s : State) : OnlyChanges (.scales :: .units :: netParts) s (pressDisable p s) := by
  unfold pressDisable
  repeat' first
    | with_reducible exact .refl _
    | (with_reducible refine modUnit_only _ _ ?_ ?_; decide)
    | (with_reducible refine giveUpCharge_only _ ?_ ?_; decide)
    | split

theorem pressDisable_only (p : PressNo) (hk : .scales :: .units :: netParts ⊆ k) (h : OnlyChanges k s t) :
    OnlyChanges k s (pressDisable p t) :=
  h.before hk (pressDisable_changes p t)

theorem mouldTestWaiting_changes (p : PressNo) (r : PressReport) (s : State) : OnlyChanges (.scales :: .units :: netParts) s (mouldTestWaiting p r s) := by
  unfold mouldTestWaiting
  repeat' first
    | with_reducible exact .refl _
    | (with_reducible refine modUnit_only _ _ ?_ ?_; decide)
    | (with_reducible refine giveUpCharge_only _ ?_ ?_; decide)
    | split

theorem mouldTestWaiting_only (p : PressNo) (r : PressReport) (hk : .scales :: .units :: netParts ⊆ k) (h : OnlyChanges k s t) :
    OnlyChanges k s (mouldTestWaiting p r t) :=
  h.before hk (mouldTestWaiting_changes p r t)

theorem mouldTestCycle_changes (p : PressNo) (r : PressReport) (s : State) : OnlyChanges (.units :: raiseParts) s (mouldTestCycle p r s) := by
  unfold mouldTestCycle
  repeat' first
    | with_reducible exact .refl _
    | (with_reducible refine modUnit_only _ _ ?_ ?_; decide)
    | (with_reducible refine setFlag_only _ _ ?_ ?_; decide)
    | (with_reducible refine raise_only _ _ _ ?_ ?_; decide)
    | split

theorem mouldTestCycle_only (p : PressNo) (r : PressReport) (hk : .units :: raiseParts ⊆ k) (h : OnlyChanges k s t) :
    OnlyChanges k s (mouldTestCycle p r t) :=
  h.before hk (mouldTestCycle_changes p r t)

theorem enterCure_changes (p : PressNo) (r : Recipe) (tm : Time) (s : State) : OnlyChanges (.zones :: cureParts) s (enterCure p r tm s) := by
  unfold enterCure; dsimp only
  repeat' first
    | with_reducible exact .refl _
    | (with_reducible refine modZone_only _ _ ?_ ?_; decide)
    | (with_reducible refine modUnit_only _ _ ?_ ?_; decide)
    | (with_reducible refine modRecord_only _ _ ?_ ?_; decide)
    | (with_reducible refine startCure_only _ _ _ ?_ ?_; decide)
    | with_reducible refine .each (fun _ _ => ?_) _ ?_

theorem enterCure_only (p : PressNo) (r : Recipe) (tm : Time) (hk : .zones :: cureParts ⊆ k) (h : OnlyChanges k s t) :
    OnlyChanges k s (enterCure p r tm t) :=
  h.before hk (enterCure_changes p r tm t)

theorem closingTest_changes (p : PressNo) (r : PressReport) (s : State) : OnlyChanges (.zones :: cureParts) s (closingTest p r s) := by
  unfold closingTest
  repeat' first
    | with_reducible exact .refl _
    | (with_reducible refine enterCure_only _ _ _ ?_ ?_; decide)
    | split

theorem closingTest_only (p : PressNo) (r : PressReport) (hk : .zones :: cureParts ⊆ k) (h : OnlyChanges k s t) :
    OnlyChanges k s (closingTest p r t) :=
  h.before hk (closingTest_changes p r t)

theorem cureTest_changes (p : PressNo) (r : PressReport) (s : State) : OnlyChanges [.history] s (cureTest p r s) := by
  unfold cureTest
  repeat' first
    | with_reducible exact .refl _
    | (with_reducible refine setFlag_only _ _ ?_ ?_; decide)
    | split

theorem cureTest_only (p : PressNo) (r : PressReport) (hk : [.history] ⊆ k) (h : OnlyChanges k s t) :
    OnlyChanges k s (cureTest p r t) :=
  h.before hk (cureTest_changes p r t)

theorem closeTimerExpires_changes (p : PressNo) (s : State) : OnlyChanges (.units :: raiseParts) s (closeTimerExpires p s) := by
  unfold closeTimerExpires
  repeat' first
    | with_reducible exact .refl _
    | (with_reducible refine modUnit_only _ _ ?_ ?_; decide)
    | (with_reducible refine setFlag_only _ _ ?_ ?_; decide)
    | (with_reducible refine raiseNow_only _ _ ?_ ?_; decide)

theorem closeTimerExpires_only (p : PressNo) (hk : .units :: raiseParts ⊆ k) (h : OnlyChanges k s t) :
    OnlyChanges k s (closeTimerExpires p t) :=
  h.before hk (closeTimerExpires_changes p t)

theorem openingTest_changes (p : PressNo) (r : PressReport) (s : State) : OnlyChanges (.ejectors :: .units :: netParts) s (openingTest p r s) := by
  unfold openingTest
  repeat' first
    | with_reducible exact .refl _
    | (with_reducible refine modUnit_only _ _ ?_ ?_; decide)
    | (with_reducible refine beginEjection_only _ _ _ ?_ ?_; decide)
    | split

theorem openingTest_only (p : PressNo) (r : PressReport) (hk : .ejectors :: .units :: netParts ⊆ k) (h : OnlyChanges k s t) :
    OnlyChanges k s (openingTest p r t) :=
  h.before hk (openingTest_changes p r t)

theorem afterCycle_changes (p : PressNo) (tm : Time) (s : State) : OnlyChanges (.scales :: .units :: netParts) s (afterCycle p tm s) := by
  unfold afterCycle
  repeat' first
    | with_reducible exact .refl _
    | (with_reducible refine modUnit_only _ _ ?_ ?_; decide)
    | (with_reducible refine joinQueue_only _ _ _ ?_ ?_; decide)
    | split

theorem afterCycle_only (p : PressNo) (tm : Time) (hk : .scales :: .units :: netParts ⊆ k) (h : OnlyChanges k s t) :
    OnlyChanges k s (afterCycle p tm t) :=
  h.before hk (afterCycle_changes p tm t)

theorem endCycle_changes (p : PressNo) (tm : Time) (s : State) : OnlyChanges (.exportQueue :: .profiles :: .scales :: .units :: netParts) s (endCycle p tm s) := by
  unfold endCycle; dsimp only
  repeat' first
    | with_reducible exact .refl _
    | (with_reducible refine modUnit_only _ _ ?_ ?_; decide)
    | (with_reducible refine closeRecord_only _ _ _ ?_ ?_; decide)
    | (with_reducible refine afterCycle_only _ _ ?_ ?_; decide)
    | split

theorem endCycle_only (p : PressNo) (tm : Time) (hk : .exportQueue :: .profiles :: .scales :: .units :: netParts ⊆ k) (h : OnlyChanges k s t) :
    OnlyChanges k s (endCycle p tm t) :=
  h.before hk (endCycle_changes p tm t)

theorem unloadTest_changes (p : PressNo) (r : PressReport) (s : State) : OnlyChanges (.exportQueue :: .profiles :: .scales :: .units :: netParts) s (unloadTest p r s) := by
  unfold unloadTest
  repeat' first
    | with_reducible exact .refl _
    | (with_reducible refine endCycle_only _ _ ?_ ?_; decide)
    | split

theorem unloadTest_only (p : PressNo) (r : PressReport) (hk : .exportQueue :: .profiles :: .scales :: .units :: netParts ⊆ k) (h : OnlyChanges k s t) :
    OnlyChanges k s (unloadTest p r t) :=
  h.before hk (unloadTest_changes p r t)

theorem testReport_changes (u : UnitState) (p : PressNo) (r : PressReport) (s : State) : OnlyChanges (.zones :: .cures :: .accruals :: .ejectors :: .exportQueue :: .profiles :: .scales :: .units :: netParts) s (testReport u p r s) := by
  unfold testReport
  repeat' first
    | with_reducible exact .refl _
    | (with_reducible refine attemptBinding_only _ _ ?_ ?_; decide)
    | (with_reducible refine mouldTestWaiting_only _ _ ?_ ?_; decide)
    | (with_reducible refine mouldTestCycle_only _ _ ?_ ?_; decide)
    | (with_reducible refine closingTest_only _ _ ?_ ?_; decide)
    | (with_reducible refine cureTest_only _ _ ?_ ?_; decide)
    | (with_reducible refine openingTest_only _ _ ?_ ?_; decide)
    | (with_reducible refine unloadTest_only _ _ ?_ ?_; decide)
    | split

theorem testReport_only (u : UnitState) (p : PressNo) (r : PressReport) (hk : .zones :: .cures :: .accruals :: .ejectors :: .exportQueue :: .profiles :: .scales :: .units :: netParts ⊆ k) (h : OnlyChanges k s t) :
    OnlyChanges k s (testReport u p r t) :=
  h.before hk (testReport_changes u p r t)

theorem takePress_changes (p : PressNo) (r : PressReport) (s : State) : OnlyChanges (.zones :: .cures :: .accruals :: .ejectors :: .exportQueue :: .profiles :: .scales :: .units :: netParts) s (takePress p r s) := by
  unfold takePress
  repeat' first
    | with_reducible exact .refl _
    | (with_reducible refine modUnit_only _ _ ?_ ?_; decide)
    | (with_reducible refine testReport_only _ _ _ ?_ ?_; decide)

theorem takePress_only (p : PressNo) (r : PressReport) (hk : .zones :: .cures :: .accruals :: .ejectors :: .exportQueue :: .profiles :: .scales :: .units :: netParts ⊆ k) (h : OnlyChanges k s t) :
    OnlyChanges k s (takePress p r t) :=
  h.before hk (takePress_changes p r t)

theorem refuse_changes (n c d : Nat) (r : Reason) (kk : EventKind) (i : EventOn) (s : State) : OnlyChanges netParts s (refuse n c d r kk i s) := by
  unfold refuse
  repeat' first
    | with_reducible exact .refl _
    | (with_reducible refine raiseNow_only _ _ ?_ ?_; decide)
    | (with_reducible refine originate_only _ _ _ _ _ ?_ ?_; decide)

theorem refuse_only (n c d : Nat) (r : Reason) (kk : EventKind) (i : EventOn) (hk : netParts ⊆ k) (h : OnlyChanges k s t) :
    OnlyChanges k s (refuse n c d r kk i t) :=
  h.before hk (refuse_changes n c d r kk i t)

theorem beginCycle_changes (p : PressNo) (tm : Time) (s : State) : OnlyChanges (.zones :: .units :: closeParts) s (beginCycle p tm s) := by
  unfold beginCycle
  repeat' first
    | with_reducible exact .refl _
    | (with_reducible refine modUnit_only _ _ ?_ ?_; decide)
    | (with_reducible refine allocate_only _ _ _ _ ?_ ?_; decide)
    | (with_reducible refine returnToPrimary_only _ ?_ ?_; decide)
    | with_reducible refine .each (fun _ _ => ?_) _ ?_
    | split

theorem beginCycle_only (p : PressNo) (tm : Time) (hk : .zones :: .units :: closeParts ⊆ k) (h : OnlyChanges k s t) :
    OnlyChanges k s (beginCycle p tm t) :=
  h.before hk (beginCycle_changes p tm t)

theorem enterOpening_changes (p : PressNo) (b : Bool) (tm : Time) (s : State) : OnlyChanges [.units, .history] s (enterOpening p b tm s) := by
  unfold enterOpening
  repeat' first
    | with_reducible exact .refl _
    | (with_reducible refine modUnit_only _ _ ?_ ?_; decide)
    | (with_reducible refine modRecord_only _ _ ?_ ?_; decide)

theorem enterOpening_only (p : PressNo) (b : Bool) (tm : Time) (hk : [.units, .history] ⊆ k) (h : OnlyChanges k s t) :
    OnlyChanges k s (enterOpening p b tm t) :=
  h.before hk (enterOpening_changes p b tm t)

theorem emergencyOpening_changes (p : PressNo) (s : State) : OnlyChanges [.units, .history] s (emergencyOpening p s) := by
  unfold emergencyOpening
  repeat' first
    | with_reducible exact .refl _
    | (with_reducible refine setFlag_only _ _ ?_ ?_; decide)
    | (with_reducible refine enterOpening_only _ _ _ ?_ ?_; decide)

theorem emergencyOpening_only (p : PressNo) (hk : [.units, .history] ⊆ k) (h : OnlyChanges k s t) :
    OnlyChanges k s (emergencyOpening p t) :=
  h.before hk (emergencyOpening_changes p t)

theorem gateEmergency_changes (p : PressNo) (s : State) : OnlyChanges (.cures :: .units :: raiseParts) s (gateEmergency p s) := by
  unfold gateEmergency; dsimp only
  repeat' first
    | with_reducible exact .refl _
    | (with_reducible refine raiseNow_only _ _ ?_ ?_; decide)
    | (with_reducible refine endCure_only _ _ ?_ ?_; decide)
    | (with_reducible refine emergencyOpening_only _ ?_ ?_; decide)
    | split

theorem gateEmergency_only (p : PressNo) (hk : .cures :: .units :: raiseParts ⊆ k) (h : OnlyChanges k s t) :
    OnlyChanges k s (gateEmergency p t) :=
  h.before hk (gateEmergency_changes p t)

theorem cutCycle_changes (p : PressNo) (c : CloseCause) (s : State) : OnlyChanges (.cures :: .ejectors :: .offNumber :: .zones :: .exportQueue :: .profiles :: .scales :: .units :: netParts) s (cutCycle p c s) := by
  unfold cutCycle; dsimp only
  repeat' first
    | with_reducible exact .refl _
    | (with_reducible refine closeRecord_only _ _ _ ?_ ?_; decide)
    | (with_reducible refine endCure_only _ _ ?_ ?_; decide)
    | (with_reducible refine cutEjection_only _ ?_ ?_; decide)
    | with_reducible refine .doIf _ (fun _ => ?_) ?_

theorem cutCycle_only (p : PressNo) (c : CloseCause) (hk : .cures :: .ejectors :: .offNumber :: .zones :: .exportQueue :: .profiles :: .scales :: .units :: netParts ⊆ k) (h : OnlyChanges k s t) :
    OnlyChanges k s (cutCycle p c t) :=
  h.before hk (cutCycle_changes p c t)

theorem resetUnit_changes (p : PressNo) (c : CloseCause) (s : State) : OnlyChanges (.cures :: .ejectors :: .offNumber :: .zones :: .exportQueue :: .profiles :: .scales :: .units :: netParts) s (resetUnit p c s) := by
  unfold resetUnit
  repeat' first
    | with_reducible exact .refl _
    | (with_reducible refine modUnit_only _ _ ?_ ?_; decide)
    | (with_reducible refine giveUpCharge_only _ ?_ ?_; decide)
    | (with_reducible refine cutCycle_only _ _ ?_ ?_; decide)
    | split

theorem resetUnit_only (p : PressNo) (c : CloseCause) (hk : .cures :: .ejectors :: .offNumber :: .zones :: .exportQueue :: .profiles :: .scales :: .units :: netParts ⊆ k) (h : OnlyChanges k s t) :
    OnlyChanges k s (resetUnit p c t) :=
  h.before hk (resetUnit_changes p c t)

theorem lowerDuty_changes (z : ZoneNo) (s : State) : OnlyChanges (.zones :: netParts) s (lowerDuty z s) := by
  unfold lowerDuty; dsimp only
  repeat' first
    | with_reducible exact .refl _
    | (with_reducible refine modZone_only _ _ ?_ ?_; decide)
    | (with_reducible refine immediateHeat_only _ ?_ ?_; decide)
    | with_reducible refine .doIf _ (fun _ => ?_) ?_

theorem lowerDuty_only (z : ZoneNo) (hk : .zones :: netParts ⊆ k) (h : OnlyChanges k s t) :
    OnlyChanges k s (lowerDuty z t) :=
  h.before hk (lowerDuty_changes z t)

theorem offsetWritten_changes (z : ZoneNo) (s : State) : OnlyChanges [.zones] s (offsetWritten z s) := by
  unfold offsetWritten
  repeat' first
    | with_reducible exact .refl _
    | (with_reducible refine takeRecipeBase_only _ _ ?_ ?_; decide)
    | split

theorem offsetWritten_only (z : ZoneNo) (hk : [.zones] ⊆ k) (h : OnlyChanges k s t) :
    OnlyChanges k s (offsetWritten z t) :=
  h.before hk (offsetWritten_changes z t)

theorem zoneWritten_changes (v : Vector ZoneEntry 48) (z : ZoneNo) (s : State) : OnlyChanges (.zones :: netParts) s (zoneWritten v z s) := by
  unfold zoneWritten; dsimp only
  repeat' first
    | with_reducible exact .refl _
    | (with_reducible refine modZone_only _ _ ?_ ?_; decide)
    | (with_reducible refine formTarget_only _ ?_ ?_; decide)
    | (with_reducible refine lowerDuty_only _ ?_ ?_; decide)
    | (with_reducible refine offsetWritten_only _ ?_ ?_; decide)
    | with_reducible refine .doIf _ (fun _ => ?_) ?_

theorem zoneWritten_only (v : Vector ZoneEntry 48) (z : ZoneNo) (hk : .zones :: netParts ⊆ k) (h : OnlyChanges k s t) :
    OnlyChanges k s (zoneWritten v z t) :=
  h.before hk (zoneWritten_changes v z t)

theorem storeZones_changes (a n : Nat) (v : Vector ZoneEntry 48) (s : State) : OnlyChanges (.tables :: .zones :: netParts) s (storeZones a n v s) := by
  unfold storeZones
  repeat' first
    | with_reducible exact .refl _
    | (with_reducible refine modTables_only _ ?_ ?_; decide)
    | (with_reducible refine zoneWritten_only _ _ ?_ ?_; decide)
    | with_reducible refine .each (fun _ _ => ?_) _ ?_

theorem storeZones_only (a n : Nat) (v : Vector ZoneEntry 48) (hk : .tables :: .zones :: netParts ⊆ k) (h : OnlyChanges k s t) :
    OnlyChanges k s (storeZones a n v t) :=
  h.before hk (storeZones_changes a n v t)

theorem storeScales_changes (v : Vector ScaleEntry 2) (s : State) : OnlyChanges [.tables, .scales] s (storeScales v s) := by
  unfold storeScales
  repeat' first
    | with_reducible exact .refl _
    | (with_reducible refine modScale_only _ _ ?_ ?_; decide)
    | (with_reducible refine modTables_only _ ?_ ?_; decide)
    | with_reducible refine .each (fun _ _ => ?_) _ ?_

theorem storeScales_only (v : Vector ScaleEntry 2) (hk : [.tables, .scales] ⊆ k) (h : OnlyChanges k s t) :
    OnlyChanges k s (storeScales v t) :=
  h.before hk (storeScales_changes v t)

theorem respond_changes (f : RxFrame) (r : Result) (d : List Byte) (m : Mark) (s : State) : OnlyChanges netParts s (respond f r d m s) := by
  unfold respond
  repeat' first
    | with_reducible exact .refl _
    | (with_reducible refine originate_only _ _ _ _ _ ?_ ?_; decide)

theorem respond_only (f : RxFrame) (r : Result) (d : List Byte) (m : Mark) (hk : netParts ⊆ k) (h : OnlyChanges k s t) :
    OnlyChanges k s (respond f r d m t) :=
  h.before hk (respond_changes f r d m t)

theorem checkFailed_changes (p : Port) (s : State) : OnlyChanges netParts s (checkFailed p s) := by
  unfold checkFailed
  repeat' first
    | with_reducible exact .refl _
    | (with_reducible refine raiseNow_only _ _ ?_ ?_; decide)
    | (with_reducible refine countCheck_only _ ?_ ?_; decide)
    | split

theorem checkFailed_only (p : Port) (hk : netParts ⊆ k) (h : OnlyChanges k s t) :
    OnlyChanges k s (checkFailed p t) :=
  h.before hk (checkFailed_changes p t)

theorem formatError_changes (p : Port) (s : State) : OnlyChanges netParts s (formatError p s) := by
  unfold formatError
  repeat' first
    | with_reducible exact .refl _
    | (with_reducible refine raiseNow_only _ _ ?_ ?_; decide)
    | (with_reducible refine countFormat_only _ ?_ ?_; decide)

theorem formatError_only (p : Port) (hk : netParts ⊆ k) (h : OnlyChanges k s t) :
    OnlyChanges k s (formatError p t) :=
  h.before hk (formatError_changes p t)

theorem heatUnless_changes (c : Bool) (n : Nat) (b : List Byte) (s : State) : OnlyChanges netParts s (heatUnless c n b s) := by
  unfold heatUnless
  repeat' first
    | with_reducible exact .refl _
    | (with_reducible refine raiseNow_only _ _ ?_ ?_; decide)
    | (with_reducible refine forwardTo_only _ _ ?_ ?_; decide)
    | split

theorem heatUnless_only (c : Bool) (n : Nat) (b : List Byte) (hk : netParts ⊆ k) (h : OnlyChanges k s t) :
    OnlyChanges k s (heatUnless c n b t) :=
  h.before hk (heatUnless_changes c n b t)

theorem refuseBroadcast_changes (c d : Nat) (kk : EventKind) (s : State) : OnlyChanges netParts s (refuseBroadcast c d kk s) := by
  unfold refuseBroadcast
  repeat' first
    | with_reducible exact .refl _
    | (with_reducible refine refuse_only _ _ _ _ _ _ ?_ ?_; decide)

theorem refuseBroadcast_only (c d : Nat) (kk : EventKind) (hk : netParts ⊆ k) (h : OnlyChanges k s t) :
    OnlyChanges k s (refuseBroadcast c d kk t) :=
  h.before hk (refuseBroadcast_changes c d kk t)

theorem broadcastEmergency_changes (b : List Byte) (s : State) : OnlyChanges (.cures :: .units :: netParts) s (broadcastEmergency b s) := by
  unfold broadcastEmergency
  repeat' first
    | with_reducible exact .refl _
    | (with_reducible refine forwardTo_only _ _ ?_ ?_; decide)
    | (with_reducible refine gateEmergency_only _ ?_ ?_; decide)
    | with_reducible refine .each (fun _ _ => ?_) _ ?_

theorem broadcastEmergency_only (b : List Byte) (hk : .cures :: .units :: netParts ⊆ k) (h : OnlyChanges k s t) :
    OnlyChanges k s (broadcastEmergency b t) :=
  h.before hk (broadcastEmergency_changes b t)

theorem broadcastCommand_changes (f : RxFrame) (s : State) : OnlyChanges (.cures :: .units :: netParts) s (broadcastCommand f s) := by
  unfold broadcastCommand
  repeat' first
    | with_reducible exact .refl _
    | (with_reducible refine forwardTo_only _ _ ?_ ?_; decide)
    | (with_reducible refine refuseBroadcast_only _ _ _ ?_ ?_; decide)
    | (with_reducible refine broadcastEmergency_only _ ?_ ?_; decide)
    | split

theorem broadcastCommand_only (f : RxFrame) (hk : .cures :: .units :: netParts ⊆ k) (h : OnlyChanges k s t) :
    OnlyChanges k s (broadcastCommand f t) :=
  h.before hk (broadcastCommand_changes f t)

theorem takeBroadcast_changes (f : RxFrame) (s : State) : OnlyChanges (.cures :: .units :: netParts) s (takeBroadcast f s) := by
  unfold takeBroadcast
  repeat' first
    | with_reducible exact .refl _
    | (with_reducible refine forwardTo_only _ _ ?_ ?_; decide)
    | (with_reducible refine heatUnless_only _ _ _ ?_ ?_; decide)
    | (with_reducible refine broadcastCommand_only _ ?_ ?_; decide)
    | split

theorem takeBroadcast_only (f : RxFrame) (hk : .cures :: .units :: netParts ⊆ k) (h : OnlyChanges k s t) :
    OnlyChanges k s (takeBroadcast f t) :=
  h.before hk (takeBroadcast_changes f t)

theorem fieldRequest_changes (f : RxFrame) (s : State) : OnlyChanges netParts s (fieldRequest f s) := by
  unfold fieldRequest
  repeat' first
    | with_reducible exact .refl _
    | (with_reducible refine forwardTo_only _ _ ?_ ?_; decide)
    | (with_reducible refine countForeign_only _ ?_ ?_; decide)
    | with_reducible refine .doIf _ (fun _ => ?_) ?_

theorem fieldRequest_only (f : RxFrame) (hk : netParts ⊆ k) (h : OnlyChanges k s t) :
    OnlyChanges k s (fieldRequest f t) :=
  h.before hk (fieldRequest_changes f t)

end Sys2Proof.Machine.State
end

