-- ==== Sys2Proof/WellFormed.lean ====
section
/-! DEFINITION. When a command agrees with its name: the bytes of a frame row are a frame of the kind the
row names (R6, R9, R13 to R19, R190, R203, R204). What depends on the state (the Node table, the own and
controller addresses, the mode, a pending reset) is not part of it: the part judges that itself (log 1). -/

namespace Sys2Proof

open Machine

/-- The bytes are a frame that passes the receive check (R6), with a property of its header and payload. -/
def frameIs (bytes : List Byte) (test : RxFrame → Bool) : Bool := (parseFrame bytes).any test

/-- A frame of a kind. -/
def ofKind (k : FrameKind) (f : RxFrame) : Bool := f.kind == k.code

/-- A frame to the broadcast address (R14). -/
def toAll (f : RxFrame) : Bool := f.dst == Config.broadcast

/-- A COMMAND whose payload spells a command of a sort (R15, R203). -/
def commandIs (test : PressCommand → Bool) (f : RxFrame) : Bool :=
  ofKind .command f && (pressCommandOf f.payload).any test

/-- A MGMT_REQ whose payload spells a request of a sort (R190, R204). -/
def requestIs (bytes : List Byte) (test : Request → Bool) : Bool :=
  frameIs bytes fun f => ofKind .mgmtReq f && (decodeRequest f.payload).any test

/-- A command agrees with its name. -/
def Instr.wf : Instr → Bool
  | .checkFailedFrame _ bytes => (parseFrame bytes).isNone
  | .passiveForward _ bytes => frameIs bytes fun _ => true
  | .forwardFrame _ bytes => frameIs bytes fun _ => true
  | .discardOwnAddressFrame bytes => frameIs bytes fun f => !ofKind .mgmtReq f && !toAll f
  | .foreignMgmtReq bytes => frameIs bytes fun f => ofKind .mgmtReq f && !toAll f
  | .fieldMgmtReq bytes => frameIs bytes (ofKind .mgmtReq)
  | .mgmtReqDroppedPending bytes => frameIs bytes fun f => ofKind .mgmtReq f && !toAll f
  | .mgmtBadRequest bytes => frameIs bytes fun f =>
      ofKind .mgmtReq f && !toAll f && (decodeRequest f.payload).isNone
  | .thermoSample bytes => frameIs bytes (ofKind .sample)
  | .scaleSample bytes => frameIs bytes (ofKind .sample)
  | .pressStatus bytes => frameIs bytes (ofKind .status)
  | .ejectorStatus bytes => frameIs bytes (ofKind .status)
  | .closeCommand bytes => frameIs bytes fun f => !toAll f && commandIs (· == .close) f
  | .openCommand bytes => frameIs bytes fun f => !toAll f && commandIs (· == .openPlain) f
  | .openEmergency bytes => frameIs bytes fun f => !toAll f && commandIs (· == .openEmergency) f
  | .serviceCommand bytes => frameIs bytes fun f =>
      !toAll f && commandIs (fun | .service _ => true | _ => false) f
  | .commandNotWellFormed bytes => frameIs bytes fun f =>
      !toAll f && ofKind .command f && (pressCommandOf f.payload).isNone
  | .broadcastCloseOpen bytes => frameIs bytes fun f =>
      toAll f && commandIs (fun x => x == .close || x == .openPlain) f
  | .broadcastOpenEmergency bytes => frameIs bytes fun f => toAll f && commandIs (· == .openEmergency) f
  | .broadcastHeat bytes => frameIs bytes fun f => toAll f && ofKind .heat f
  | .heat bytes => frameIs bytes fun f => !toAll f && ofKind .heat f
  | .readTable bytes => requestIs bytes fun | .readTable .. => true | _ => false
  | .writeTable bytes => requestIs bytes fun | .writeTable .. => true | _ => false
  | .setSetpointSet bytes => requestIs bytes fun | .setSetpoint .. => true | _ => false
  | .setSetpointClearOverride bytes => requestIs bytes fun | .clearOverride _ => true | _ => false
  | .zoneControlEnable bytes => requestIs bytes fun | .zoneEnable _ => true | _ => false
  | .zoneControlDisable bytes => requestIs bytes fun | .zoneDisable _ => true | _ => false
  | .zoneControlRestorePrimary bytes => requestIs bytes fun | .zoneRestore _ => true | _ => false
  | .pressControlEnable bytes => requestIs bytes fun | .pressEnable _ => true | _ => false
  | .pressControlDisable bytes => requestIs bytes fun | .pressDisable _ => true | _ => false
  | .pressControlReset bytes => requestIs bytes fun | .pressReset _ => true | _ => false
  | .pressControlForceDemould bytes => requestIs bytes fun | .forceDemould _ => true | _ => false
  | .pressControlSetupOn bytes => requestIs bytes fun | .setupOn _ => true | _ => false
  | .pressControlSetupOff bytes => requestIs bytes fun | .setupOff _ => true | _ => false
  | .pressControlStep bytes => requestIs bytes fun | .step _ => true | _ => false
  | .scaleControlTare bytes => requestIs bytes fun | .scaleTare _ => true | _ => false
  | .readStatus bytes => requestIs bytes fun | .readStatus .. => true | _ => false
  | .readHistory bytes => requestIs bytes fun | .readHistory .. => true | _ => false
  | .advanceRead bytes => requestIs bytes fun | .advanceRead _ => true | _ => false
  | .setSerialBase bytes => requestIs bytes fun | .setSerialBase _ => true | _ => false
  | .lockProfile bytes => requestIs bytes fun | .lockProfile .. => true | _ => false
  | .unlockProfile bytes => requestIs bytes fun | .unlockProfile .. => true | _ => false
  | .readProfile bytes => requestIs bytes fun | .readProfile .. => true | _ => false
  | .readEvents bytes => requestIs bytes fun | .readEvents => true | _ => false
  | .clearEvents bytes => requestIs bytes fun | .clearEvents _ => true | _ => false
  | .setEventEnable bytes => requestIs bytes fun | .setEventEnable _ => true | _ => false
  | .resetWarm bytes => requestIs bytes (· == .reset .warm)
  | .resetCold bytes => requestIs bytes (· == .reset .cold)
  | .powerOnReset | .resetNAssert | .timebaseTick | .transmitStart _ | .transmitEnd _ | .linkPinExpiry
  | .windowEnd _ | .dwellExpiry _ | .maxCureExpiry _ | .liftTimerExpiry _ | .exportMove | .compareA _
  | .compareB _ | .ejectOffPlace | .offCommandPlace | .closeTimerExpiry _ | .warmResetEffect
  | .coldShutdownStart | .coldResetEffect | .strapChange _ => true

end Sys2Proof
end

