-- ==== Sys2Proof/Laws/PerInstr.lean ====
section
/-! SUPPORT. A law of every command as syntax: the bytes of a well-formed frame command pass the receive check
(R6), but for CHECK_FAILED_FRAME, whose bytes fail it (R7). -/

namespace Sys2Proof.Laws.Frame

open Sys2Proof Sys2Proof.Machine

/-- The bytes that a command carries, if it is a received frame. -/
def carried : Instr → Option (List Byte)
  | .checkFailedFrame _ bytes | .passiveForward _ bytes | .forwardFrame _ bytes => some bytes
  | .discardOwnAddressFrame bytes | .foreignMgmtReq bytes | .fieldMgmtReq bytes
  | .mgmtReqDroppedPending bytes | .mgmtBadRequest bytes | .thermoSample bytes
  | .scaleSample bytes | .pressStatus bytes | .ejectorStatus bytes | .closeCommand bytes
  | .openCommand bytes | .openEmergency bytes | .serviceCommand bytes | .broadcastCloseOpen bytes
  | .broadcastOpenEmergency bytes | .broadcastHeat bytes | .heat bytes | .readTable bytes
  | .writeTable bytes | .setSetpointSet bytes | .setSetpointClearOverride bytes
  | .zoneControlEnable bytes | .zoneControlDisable bytes | .zoneControlRestorePrimary bytes
  | .pressControlEnable bytes | .pressControlDisable bytes | .pressControlReset bytes
  | .pressControlForceDemould bytes | .pressControlSetupOn bytes | .pressControlSetupOff bytes
  | .pressControlStep bytes | .scaleControlTare bytes | .readStatus bytes | .readHistory bytes
  | .advanceRead bytes | .setSerialBase bytes | .lockProfile bytes | .unlockProfile bytes
  | .readProfile bytes | .readEvents bytes | .clearEvents bytes | .setEventEnable bytes
  | .resetWarm bytes | .resetCold bytes | .commandNotWellFormed bytes => some bytes
  | .powerOnReset | .resetNAssert | .timebaseTick | .transmitStart _ | .transmitEnd _
  | .linkPinExpiry | .windowEnd _ | .dwellExpiry _ | .maxCureExpiry _ | .liftTimerExpiry _
  | .exportMove | .compareA _ | .compareB _ | .ejectOffPlace | .offCommandPlace
  | .closeTimerExpiry _ | .warmResetEffect | .coldShutdownStart | .coldResetEffect
  | .strapChange _ => none

/-- Whether the bytes of a command pass the receive check. -/
def passes : Instr → Bool
  | .checkFailedFrame _ _ => false
  | _ => true

/-- A well-formed frame command carries bytes that pass the check, or fail it, as its name says. -/
def Statement (i : Instr) : Prop :=
  ∀ bytes, carried i = some bytes → i.wf = true → (parseFrame bytes).isSome = passes i

/-- A frame with a property passes the check. -/
theorem isSome_of_frameIs {bytes : List Byte} {test : RxFrame → Bool} (h : frameIs bytes test = true) :
    (parseFrame bytes).isSome = true := by
  unfold frameIs at h
  cases hp : parseFrame bytes with
  | none => simp [hp] at h
  | some f => rfl

/-- A request of a sort passes the check. -/
theorem isSome_of_requestIs {bytes : List Byte} {test : Request → Bool}
    (h : requestIs bytes test = true) : (parseFrame bytes).isSome = true :=
  isSome_of_frameIs h

/-- A command that carries no frame has nothing to check. -/
theorem statement_of_none {i : Instr} (h : carried i = none) : Statement i := by
  intro bytes hb; rw [h] at hb; cases hb

theorem powerOnReset : Statement .powerOnReset := statement_of_none rfl
theorem resetNAssert : Statement .resetNAssert := statement_of_none rfl
theorem timebaseTick : Statement .timebaseTick := statement_of_none rfl
theorem checkFailedFrame (port : Port) (bytes : List Byte) :
    Statement (.checkFailedFrame port bytes) := by
  intro b hb hw
  simp only [carried, Option.some.injEq] at hb; subst hb
  simp only [Instr.wf, Option.isNone_iff_eq_none] at hw
  simp [hw, passes]
theorem passiveForward (port : Port) (bytes : List Byte) : Statement (.passiveForward port bytes) :=
  fun _ hb hw => by cases hb; exact isSome_of_frameIs hw
theorem forwardFrame (port : Port) (bytes : List Byte) : Statement (.forwardFrame port bytes) :=
  fun _ hb hw => by cases hb; exact isSome_of_frameIs hw
theorem discardOwnAddressFrame (bytes : List Byte) : Statement (.discardOwnAddressFrame bytes) :=
  fun _ hb hw => by cases hb; exact isSome_of_frameIs hw
theorem foreignMgmtReq (bytes : List Byte) : Statement (.foreignMgmtReq bytes) :=
  fun _ hb hw => by cases hb; exact isSome_of_frameIs hw
theorem fieldMgmtReq (bytes : List Byte) : Statement (.fieldMgmtReq bytes) :=
  fun _ hb hw => by cases hb; exact isSome_of_frameIs hw
theorem mgmtReqDroppedPending (bytes : List Byte) : Statement (.mgmtReqDroppedPending bytes) :=
  fun _ hb hw => by cases hb; exact isSome_of_frameIs hw
theorem mgmtBadRequest (bytes : List Byte) : Statement (.mgmtBadRequest bytes) :=
  fun _ hb hw => by cases hb; exact isSome_of_frameIs hw
theorem transmitStart (port : Port) : Statement (.transmitStart port) := statement_of_none rfl
theorem transmitEnd (port : Port) : Statement (.transmitEnd port) := statement_of_none rfl
theorem linkPinExpiry : Statement .linkPinExpiry := statement_of_none rfl
theorem thermoSample (bytes : List Byte) : Statement (.thermoSample bytes) :=
  fun _ hb hw => by cases hb; exact isSome_of_frameIs hw
theorem windowEnd (press : PressNo) : Statement (.windowEnd press) := statement_of_none rfl
theorem dwellExpiry (press : PressNo) : Statement (.dwellExpiry press) := statement_of_none rfl
theorem maxCureExpiry (press : PressNo) : Statement (.maxCureExpiry press) := statement_of_none rfl
theorem scaleSample (bytes : List Byte) : Statement (.scaleSample bytes) :=
  fun _ hb hw => by cases hb; exact isSome_of_frameIs hw
theorem liftTimerExpiry (scale : ScaleNo) : Statement (.liftTimerExpiry scale) := statement_of_none rfl
theorem pressStatus (bytes : List Byte) : Statement (.pressStatus bytes) :=
  fun _ hb hw => by cases hb; exact isSome_of_frameIs hw
theorem exportMove : Statement .exportMove := statement_of_none rfl
theorem ejectorStatus (bytes : List Byte) : Statement (.ejectorStatus bytes) :=
  fun _ hb hw => by cases hb; exact isSome_of_frameIs hw
theorem compareA (press : PressNo) : Statement (.compareA press) := statement_of_none rfl
theorem compareB (press : PressNo) : Statement (.compareB press) := statement_of_none rfl
theorem ejectOffPlace : Statement .ejectOffPlace := statement_of_none rfl
theorem offCommandPlace : Statement .offCommandPlace := statement_of_none rfl
theorem closeCommand (bytes : List Byte) : Statement (.closeCommand bytes) :=
  fun _ hb hw => by cases hb; exact isSome_of_frameIs hw
theorem openCommand (bytes : List Byte) : Statement (.openCommand bytes) :=
  fun _ hb hw => by cases hb; exact isSome_of_frameIs hw
theorem openEmergency (bytes : List Byte) : Statement (.openEmergency bytes) :=
  fun _ hb hw => by cases hb; exact isSome_of_frameIs hw
theorem serviceCommand (bytes : List Byte) : Statement (.serviceCommand bytes) :=
  fun _ hb hw => by cases hb; exact isSome_of_frameIs hw
theorem broadcastCloseOpen (bytes : List Byte) : Statement (.broadcastCloseOpen bytes) :=
  fun _ hb hw => by cases hb; exact isSome_of_frameIs hw
theorem broadcastOpenEmergency (bytes : List Byte) : Statement (.broadcastOpenEmergency bytes) :=
  fun _ hb hw => by cases hb; exact isSome_of_frameIs hw
theorem broadcastHeat (bytes : List Byte) : Statement (.broadcastHeat bytes) :=
  fun _ hb hw => by cases hb; exact isSome_of_frameIs hw
theorem heat (bytes : List Byte) : Statement (.heat bytes) :=
  fun _ hb hw => by cases hb; exact isSome_of_frameIs hw
theorem closeTimerExpiry (press : PressNo) : Statement (.closeTimerExpiry press) := statement_of_none rfl
theorem readTable (bytes : List Byte) : Statement (.readTable bytes) :=
  fun _ hb hw => by cases hb; exact isSome_of_requestIs hw
theorem writeTable (bytes : List Byte) : Statement (.writeTable bytes) :=
  fun _ hb hw => by cases hb; exact isSome_of_requestIs hw
theorem setSetpointSet (bytes : List Byte) : Statement (.setSetpointSet bytes) :=
  fun _ hb hw => by cases hb; exact isSome_of_requestIs hw
theorem setSetpointClearOverride (bytes : List Byte) : Statement (.setSetpointClearOverride bytes) :=
  fun _ hb hw => by cases hb; exact isSome_of_requestIs hw
theorem zoneControlEnable (bytes : List Byte) : Statement (.zoneControlEnable bytes) :=
  fun _ hb hw => by cases hb; exact isSome_of_requestIs hw
theorem zoneControlDisable (bytes : List Byte) : Statement (.zoneControlDisable bytes) :=
  fun _ hb hw => by cases hb; exact isSome_of_requestIs hw
theorem zoneControlRestorePrimary (bytes : List Byte) : Statement (.zoneControlRestorePrimary bytes) :=
  fun _ hb hw => by cases hb; exact isSome_of_requestIs hw
theorem pressControlEnable (bytes : List Byte) : Statement (.pressControlEnable bytes) :=
  fun _ hb hw => by cases hb; exact isSome_of_requestIs hw
theorem pressControlDisable (bytes : List Byte) : Statement (.pressControlDisable bytes) :=
  fun _ hb hw => by cases hb; exact isSome_of_requestIs hw
theorem pressControlReset (bytes : List Byte) : Statement (.pressControlReset bytes) :=
  fun _ hb hw => by cases hb; exact isSome_of_requestIs hw
theorem pressControlForceDemould (bytes : List Byte) : Statement (.pressControlForceDemould bytes) :=
  fun _ hb hw => by cases hb; exact isSome_of_requestIs hw
theorem pressControlSetupOn (bytes : List Byte) : Statement (.pressControlSetupOn bytes) :=
  fun _ hb hw => by cases hb; exact isSome_of_requestIs hw
theorem pressControlSetupOff (bytes : List Byte) : Statement (.pressControlSetupOff bytes) :=
  fun _ hb hw => by cases hb; exact isSome_of_requestIs hw
theorem pressControlStep (bytes : List Byte) : Statement (.pressControlStep bytes) :=
  fun _ hb hw => by cases hb; exact isSome_of_requestIs hw
theorem scaleControlTare (bytes : List Byte) : Statement (.scaleControlTare bytes) :=
  fun _ hb hw => by cases hb; exact isSome_of_requestIs hw
theorem readStatus (bytes : List Byte) : Statement (.readStatus bytes) :=
  fun _ hb hw => by cases hb; exact isSome_of_requestIs hw
theorem readHistory (bytes : List Byte) : Statement (.readHistory bytes) :=
  fun _ hb hw => by cases hb; exact isSome_of_requestIs hw
theorem advanceRead (bytes : List Byte) : Statement (.advanceRead bytes) :=
  fun _ hb hw => by cases hb; exact isSome_of_requestIs hw
theorem setSerialBase (bytes : List Byte) : Statement (.setSerialBase bytes) :=
  fun _ hb hw => by cases hb; exact isSome_of_requestIs hw
theorem lockProfile (bytes : List Byte) : Statement (.lockProfile bytes) :=
  fun _ hb hw => by cases hb; exact isSome_of_requestIs hw
theorem unlockProfile (bytes : List Byte) : Statement (.unlockProfile bytes) :=
  fun _ hb hw => by cases hb; exact isSome_of_requestIs hw
theorem readProfile (bytes : List Byte) : Statement (.readProfile bytes) :=
  fun _ hb hw => by cases hb; exact isSome_of_requestIs hw
theorem readEvents (bytes : List Byte) : Statement (.readEvents bytes) :=
  fun _ hb hw => by cases hb; exact isSome_of_requestIs hw
theorem clearEvents (bytes : List Byte) : Statement (.clearEvents bytes) :=
  fun _ hb hw => by cases hb; exact isSome_of_requestIs hw
theorem setEventEnable (bytes : List Byte) : Statement (.setEventEnable bytes) :=
  fun _ hb hw => by cases hb; exact isSome_of_requestIs hw
theorem resetWarm (bytes : List Byte) : Statement (.resetWarm bytes) :=
  fun _ hb hw => by cases hb; exact isSome_of_requestIs hw
theorem resetCold (bytes : List Byte) : Statement (.resetCold bytes) :=
  fun _ hb hw => by cases hb; exact isSome_of_requestIs hw
theorem warmResetEffect : Statement .warmResetEffect := statement_of_none rfl
theorem coldShutdownStart : Statement .coldShutdownStart := statement_of_none rfl
theorem coldResetEffect : Statement .coldResetEffect := statement_of_none rfl
theorem commandNotWellFormed (bytes : List Byte) : Statement (.commandNotWellFormed bytes) :=
  fun _ hb hw => by cases hb; exact isSome_of_frameIs hw
theorem strapChange (strap : BitVec 6) : Statement (.strapChange strap) := statement_of_none rfl

end Sys2Proof.Laws.Frame
end

