-- ==== Sys2Proof/Laws/Shared.lean ====
section
/-! SUPPORT. What every command has in common: when a command runs, what a received frame reaches, and what
raising an event, joining a queue and answering a request do. -/

namespace Sys2Proof.Machine

open State

variable {s : State} {own : Nat} {bytes : List Byte} {f : RxFrame} {r : Request}

/-! ## The LINK pin's own fields -/

@[simp] theorem State.linkActivity_port (p : Port) : s.linkActivity.port p = s.port p := by cases p <;> rfl
@[simp] theorem State.linkActivity_live : s.linkActivity.live = s.live := rfl
@[simp] theorem State.linkActivity_ownAddress : s.linkActivity.ownAddress = s.ownAddress := rfl
@[simp] theorem State.linkActivity_controller : s.linkActivity.controller = s.controller := rfl
@[simp] theorem State.linkActivity_node (a : Nat) : s.linkActivity.node a = s.node a := rfl
@[simp] theorem State.linkActivity_timebase : s.linkActivity.timebase = s.timebase := rfl
@[simp] theorem State.linkActivity_resetPending : s.linkActivity.resetPending = s.resetPending := rfl
@[simp] theorem State.linkActivity_zone (z : ZoneNo) : s.linkActivity.zone z = s.zone z := rfl
@[simp] theorem State.linkActivity_window (p : PressNo) : s.linkActivity.window p = s.window p := rfl
@[simp] theorem State.linkActivity_cure (p : PressNo) : s.linkActivity.cure p = s.cure p := rfl
@[simp] theorem State.linkActivity_accrual (z : ZoneNo) : s.linkActivity.accrual z = s.accrual z := rfl
@[simp] theorem State.linkActivity_scale (k : ScaleNo) : s.linkActivity.scale k = s.scale k := rfl
@[simp] theorem State.linkActivity_unit (p : PressNo) : s.linkActivity.unit p = s.unit p := rfl
@[simp] theorem State.linkActivity_ejector (p : PressNo) : s.linkActivity.ejector p = s.ejector p := rfl
@[simp] theorem State.linkActivity_zoneEntry (z : ZoneNo) : s.linkActivity.zoneEntry z = s.zoneEntry z := rfl
@[simp] theorem State.linkActivity_pressEntry (p : PressNo) :
    s.linkActivity.pressEntry p = s.pressEntry p := rfl
@[simp] theorem State.linkActivity_scaleEntry (k : ScaleNo) :
    s.linkActivity.scaleEntry k = s.scaleEntry k := rfl
@[simp] theorem State.linkActivity_enabled (z : ZoneNo) : s.linkActivity.enabled z = s.enabled z := rfl
@[simp] theorem State.linkActivity_boundRecipe (p : PressNo) :
    s.linkActivity.boundRecipe p = s.boundRecipe p := rfl
@[simp] theorem State.linkActivity_rateOf (r : Recipe) : s.linkActivity.rateOf r = s.rateOf r := rfl
@[simp] theorem State.linkActivity_openRecord (p : PressNo) :
    s.linkActivity.openRecord p = s.openRecord p := rfl

/-! ## When a command runs -/

/-- With no reset due, nothing comes before the command. -/
theorem State.takeDueReset_of_settled (h : s.Settled) : s.takeDueReset = s := by
  obtain ⟨_, h2, h3⟩ := h
  have hd : s.takeDue = s := by
    unfold takeDue; split <;> simp_all [ResetPending.isDue]
  simp [takeDueReset, hd, endShutdown, h2]

/-- A settled part takes the command at once. -/
theorem running_of_settled (h : s.Settled) (g : State → State) : running g s = .next (g s) := by
  simp [running, h.1, takeDueReset_of_settled h]

theorem State.Normal.live (h : s.Normal own) : s.live = true := by
  simp [State.live, h.2.1, h.1.2.1]

theorem State.Normal.ownAddress (h : s.Normal own) : s.ownAddress = own := by
  simp [State.ownAddress, h.2.1]

/-! ## What a received frame reaches -/

theorem parseFrame_bytes (h : parseFrame bytes = some f) : f.bytes = bytes := by
  unfold parseFrame at h
  split at h
  · simp only [Option.some.injEq] at h; rw [← h]; rfl
  · cases h

/-- A NORMAL part classifies an accepted frame on Port U. -/
theorem running_receive_up (h : s.Normal own) (hp : parseFrame bytes = some f) :
    running (receive .U bytes) s = .next (takeUp f s.linkActivity) := by
  simp [running_of_settled h.1, receive, hp, accepted, h.live]

/-- A NORMAL part classifies an accepted frame on Port D. -/
theorem running_receive_down (h : s.Normal own) (hp : parseFrame bytes = some f) :
    running (receive .D bytes) s = .next (takeDown f s.linkActivity) := by
  simp [running_of_settled h.1, receive, hp, accepted, h.live]

/-- A frame to the own address is not classified further. -/
theorem running_receive_own (h : s.Normal f.dst) (hp : parseFrame bytes = some f) :
    running (receive .U bytes) s = .next (takeOwn f s.linkActivity) := by
  simp [running_receive_up h hp, takeUp, h.ownAddress]

/-- A request that is asked is served. -/
theorem running_asked (h : s.Asked bytes f r) :
    running (receive .U bytes) s = .next (serve f s.linkActivity) := by
  obtain ⟨hn, hi, hp, hk, hs, _⟩ := h
  simp [running_receive_own hn hp, takeOwn, hk, hs, hi]

/-- A frame that passes by, by role and kind. -/
theorem running_passing (h : s.Passing bytes f) :
    running (receive .U bytes) s = .next
      (if (s.node f.dst).role = .press ∧ f.kind = FrameKind.command.code then
        commandToPress (pressNo (s.node f.dst).unit) f s.linkActivity
      else if (s.node f.dst).role = .heater ∧ f.kind = FrameKind.heat.code then
        heatUnless (s.linkActivity.heaterInUse f.dst) f.dst bytes s.linkActivity
      else forwardTo .D bytes s.linkActivity) := by
  obtain ⟨⟨own, hn, hd⟩, hb, hp⟩ := h
  simp [running_receive_up hn hp, takeUp, hn.ownAddress, hd, hb, parseFrame_bytes hp]

theorem pressNo_val (p : PressNo) : pressNo p.val = p := by
  apply Fin.ext; show p.val % 4 = p.val; omega

theorem scaleNo_val (k : ScaleNo) : scaleNo k.val = k := by
  apply Fin.ext; show k.val % 2 = k.val; omega

/-- A command to a press node reaches its gate. -/
theorem running_commanded {p : PressNo} {c : PressCommand} (h : s.Commanded bytes f p c) :
    running (receive .U bytes) s = .next (commandToPress p f s.linkActivity) := by
  obtain ⟨hp, hk, hr, hu, _⟩ := h
  simp [running_passing hp, hk, hr, hu, pressNo_val]

/-! ## Events and queues -/

/-- Outside NORMAL mode and during a COLD shutdown no event is raised (R5, R194). -/
theorem State.raise_of_not_live (h : s.live = false) (t : Time) (k : EventKind) (i : EventOn) :
    s.raise t k i = s := by simp [State.raise, h]

/-- Outside NORMAL mode and during a COLD shutdown nothing is originated (R5, R194). -/
theorem State.originate_of_not_live (h : s.live = false) (p : Port) (d : Nat) (k : FrameKind)
    (b : List Byte) (m : Mark) : s.originate p d k b m = s := by simp [State.originate, h]

theorem State.originate_of_room (h : s.live = true) (p : Port) (hr : (s.port p).own.length < Config.ownPlaces)
    (d : Nat) (k : FrameKind) (b : List Byte) (m : Mark) :
    s.originate p d k b m
      = s.pushOwn p { dst := d, src := s.ownAddress, kind := k, payload := b, mark := m } := by
  simp [State.originate, h, hr]

theorem State.originate_of_full (h : s.live = true) (p : Port) (hr : ¬(s.port p).own.length < Config.ownPlaces)
    (d : Nat) (k : FrameKind) (b : List Byte) (m : Mark) :
    s.originate p d k b m = raiseNow .linkDrop (.port p) (countOwnDrop p s) := by
  simp [State.originate, h, hr]

theorem State.forwardTo_of_room (p : Port) (h : (s.port p).fwd.length < Config.fwdPlaces) (b : List Byte) :
    s.forwardTo p b = s.modPort p fun x => { x with fwd := x.fwd ++ [b] } := by
  simp [State.forwardTo, h]

theorem State.forwardTo_of_full (h : s.live = true) (p : Port)
    (hf : ¬(s.port p).fwd.length < Config.fwdPlaces) (b : List Byte) :
    s.forwardTo p b = raiseNow .linkDrop (.port p) (countFwdDrop p s) := by
  simp [State.forwardTo, h, hf]

/-! ## An EVENT frame in a full queue (R185) -/

theorem State.sendEvent_of_full (h : ¬s.portU.own.length < Config.ownPlaces) (t : Time) :
    s.sendEvent t = raiseEntry t .linkDrop (.port .U)
      (s.modPort .U fun x => { x with ownDrops := satSucc Config.max16 x.ownDrops }) := by
  simp [State.sendEvent, h]

/-! ## What a HEAT status shows (R82, R190) -/

theorem State.shownOffs_prefix (z : ZoneNo) : s.shownOffs z <+: (s.zone z).offs := List.take_prefix _ _

theorem State.shownOffs_of_fits (z : ZoneNo)
    (h : (((zonesOf (pressOf z)).filter (· < z)).flatMap fun z' => (s.zone z').offs).length
      + (s.zone z).offs.length ≤ offsPerStatus) : s.shownOffs z = (s.zone z).offs := by
  simp only [State.shownOffs]
  exact List.take_of_length_le (by omega)

/-! ## What stays -/

theorem State.KeepsZone.of_eq {t : State} {z : ZoneNo} (h : t.zone z = s.zone z) : s.KeepsZone t z := by
  simp [State.KeepsZone, h]

theorem State.KeepsEjector.of_eq {t : State} {p : PressNo} (h : t.ejector p = s.ejector p) :
    s.KeepsEjector t p := by
  simp [State.KeepsEjector, h]

end Sys2Proof.Machine
end

