-- ==== Sys2Proof/Tests/Slice0.lean ====
section
/-! SUPPORT. The model's own tests: ill-formed commands that WellFormed refuses, worked examples of the spec,
and for each statement with hypotheses a state that meets them. -/

namespace Sys2Proof.Tests

set_option Elab.async false

open Sys2Proof Sys2Proof.Machine Sys2Proof.Machine.State

/-! ## Helpers -/

/-- A frame with the attention flag clear. -/
def frame (dst src kind : Nat) (payload : List Byte) : List Byte := frameBytes dst src kind false payload

/-- A request from address 0 to own address 40. -/
def ask (payload : List Byte) : List Byte := frame 40 0 3 payload

/-- The state that a command leaves. -/
def after (c : Instr) (s : State) : State :=
  match exec c s with
  | .next t => t
  | .fault _ => s
  | .refused _ => s

/-- Change a Node entry. -/
def withNode (a : Fin 64) (role : Role) (unit : Nat) (s : State) : State :=
  s.modTables fun t => { t with nodes := t.nodes.set a { role := role, unit := unit, forwardUp := true } }

/-- Zone 14's entry in section 3.11. -/
def entry14 : ZoneEntry :=
  { primary := some ⟨12, 2⟩, backup := some ⟨13, 2⟩, heater := some ⟨30, 2⟩, cureReference := true
    offset := 0, feedForward := 300, maxDuty := 850, limit := 2000, kp := 40, ki := 5 }

/-- A recipe for mould 3310 (sections 5.10 and 6.9). -/
def recipe2 : Recipe :=
  { valid := true, mould := 3310, upper := 1500, lower := 1480, rateTable := 2, cureTarget := 3
    minDwell := 4, maxCure := 60, profileInterval := 5, scale := 0, chargeTarget := 24500
    tolMinus := 150, tolPlus := 100, loadLimit := 20, minTonnage := 1500, closeTimeout := 15
    ejectA := 500, ejectB := 2500, stuckForce := 350, deviationBand := 50, readyBand := 50 }

/-- Rate table 2 of section 5.10. -/
def rate2 : List RatePoint := [⟨1300, 256⟩, ⟨1400, 512⟩, ⟨1500, 1024⟩, ⟨1600, 2048⟩]

/-- Scale 0's entry in section 6.9. -/
def scale0 : ScaleEntry :=
  { ScaleEntry.atReset with enabled := true, channelA := some ⟨22, 0⟩, zeroTrack := 30 }

/-- A cell with the nodes and tables of the worked sequences, at a time. -/
def cell (now : Nat := 60000) : State :=
  let s := { State.reset with timebase := BitVec.ofNat 32 now }
  let s := withNode 12 .thermo 0 (withNode 13 .thermo 0 (withNode 30 .heater 0 s))
  let s := withNode 20 .press 1 (withNode 21 .ejector 1 (withNode 22 .scale 0 s))
  s.modTables fun t => { t with
    zones := t.zones.set 14 entry14, recipes := t.recipes.set 2 recipe2
    moulds := t.moulds.set 4 ⟨3310, 2⟩, rates := t.rates.set 2 rate2, scales := t.scales.set 0 scale0 }

/-- Zone 14 REGULATING as section 3.11 begins, with a change. -/
def zone14 (f : Zone → Zone := id) (s : State := cell) : State :=
  (s.modZone 14 fun c => f { c with
    state := .regulating, setpoint := 1500, target := 1500, base := 1500, integral := 180000
    firstSample := false, prevArrival := some 59500#32
    backupLast := some ⟨.ok, 1500, 59800#32⟩ }).modWindow 1 fun w =>
      { w with running := true, start := some 59500#32 }

/-- Press 1's unit in a state, bound to recipe 2, with a change. -/
def unit1 (st : UnitState) (f : PressUnit → PressUnit := id) (s : State := zone14) : State :=
  s.modUnit 1 fun u => f { u with state := st, binding := some ⟨2, 3310⟩ }

/-- A charge record. -/
def charge : ChargeRecord :=
  { scale := 0, net := 24562, mean := 24599, tare := 37, target := 24500, tolMinus := 150
    tolPlus := 100, attempts := 1, release := 50000#32 }

/-- Press 1's unit in a cycle state, with a charge and its OPEN record in slot 0. -/
def cycle1 (st : UnitState) (f : PressUnit → PressUnit := id) (s : State := zone14) : State :=
  let s := unit1 st (fun u => f { u with charge := some charge, closingEntry := some 55000#32 }) s
  let r := newRecord s 1 ⟨2, 3310⟩ charge 55000#32
  s.modHistory fun h => { h with
    slots := h.slots.set 0 (some r), stored := 1, unread := 1, writePos := 1, nextSerial := 1
    openRecord := h.openRecord.set 1 (some 0) }

/-- Press 1 in CURE since 55000, with zone 14 INCLUDED. -/
def cure1 (f : Cure → Cure := id) (s : State := cycle1 .cure) : State :=
  (s.modCure 1 fun _ => f (startContext recipe2 55000#32 1)).modAccrual 14 fun _ =>
    { inclusion := .included, accumulator := 882, residue := 332, prevArrival := some 59500#32 }

/-- Press 1 in EJECT in a phase. -/
def eject1 (phase : EjectPhase) (f : Ejector → Ejector := id) : State :=
  (cycle1 .eject).modEjector 1 fun e => f { e with
    phase := phase, node := some 21, compareA := 500, compareB := 2500, stuckForce := 350
    timerStart := some 59000#32 }

/-- Scale 0 in a state, with a window and a queue of press 1. -/
def scale1 (st : ScaleState) (f : Scale → Scale := id) (s : State := unit1 .chargeWait) : State :=
  s.modScale 0 fun c => f { c with
    state := st, tare := 37, queue := [{ press := 1, attempts := 0, joined := 50000#32 }] }

/-- A verdict ACCEPTED for press 1. -/
def accepted1 : Verdict := { kind := .accepted, press := some 1, mean := 24599, net := 24562, trim := 0 }

/-! ## When a frame is heard, passes or asks -/

/-- The part is settled in NORMAL mode at own address 40. -/
def calm (s : State) : Bool :=
  !s.resetHeld && !s.shutdown && !s.resetPending.isDue && decide (s.mode = .normal 40)

theorem settled_of_calm {s : State} (h : calm s = true) : s.Settled := by
  simp [calm] at h; exact ⟨h.1.1.1, h.1.1.2, h.1.2⟩

theorem normal_of_calm {s : State} (h : calm s = true) : s.Normal 40 := by
  refine ⟨settled_of_calm h, ?_, by decide, by decide⟩
  simp [calm] at h; exact h.2

theorem parse_of_passes {bytes : List Byte} (h : checkPasses bytes = true) :
    parseFrame bytes = some (headerOf bytes) := by simp [parseFrame, h]

theorem hears_of {s : State} {bytes : List Byte} (h : (calm s && checkPasses bytes) = true) :
    s.Hears bytes (headerOf bytes) := by
  simp only [Bool.and_eq_true] at h
  exact ⟨⟨40, normal_of_calm h.1⟩, parse_of_passes h.2⟩

theorem passing_of {s : State} {bytes : List Byte}
    (h : (calm s && checkPasses bytes && (headerOf bytes).dst != 40 && (headerOf bytes).dst != 63) = true) :
    s.Passing bytes (headerOf bytes) := by
  simp only [Bool.and_eq_true, bne_iff_ne, ne_eq] at h
  exact ⟨⟨40, normal_of_calm h.1.1.1, h.1.2⟩, h.2, parse_of_passes h.1.1.2⟩

/-- A payload is asked of the part at address 40. -/
def askedTest (s : State) (bytes : List Byte) (r : Request) : Bool :=
  calm s && decide (s.resetPending = .idle) && checkPasses bytes && decide ((headerOf bytes).dst = 40)
    && decide ((headerOf bytes).kind = 3) && decide ((headerOf bytes).src = s.controller)
    && decide (decodeRequest (headerOf bytes).payload = some r)

theorem asked_of {s : State} {bytes : List Byte} {r : Request} (h : askedTest s bytes r = true) :
    s.Asked bytes (headerOf bytes) r := by
  simp only [askedTest, Bool.and_eq_true, decide_eq_true_eq] at h
  obtain ⟨⟨⟨⟨⟨⟨h1, h2⟩, h3⟩, h4⟩, h5⟩, h6⟩, h7⟩ := h
  refine ⟨?_, h2, parse_of_passes h3, h5, h6, h7⟩
  rw [h4]; exact normal_of_calm h1

/-- A COMMAND to press 1's node. -/
def commandTest (s : State) (bytes : List Byte) (p : PressNo) (c : PressCommand) : Bool :=
  calm s && checkPasses bytes && (headerOf bytes).dst != 40 && (headerOf bytes).dst != 63
    && decide ((headerOf bytes).kind = 1) && decide ((s.node (headerOf bytes).dst).role = .press)
    && decide ((s.node (headerOf bytes).dst).unit = p.val)
    && decide (pressCommandOf (headerOf bytes).payload = some c)

theorem commanded_of {s : State} {bytes : List Byte} {p : PressNo} {c : PressCommand}
    (h : commandTest s bytes p c = true) : s.Commanded bytes (headerOf bytes) p c := by
  simp only [commandTest, Bool.and_eq_true, decide_eq_true_eq] at h
  obtain ⟨⟨⟨⟨h1, h5⟩, h6⟩, h7⟩, h8⟩ := h
  exact ⟨passing_of (by simp only [Bool.and_eq_true]; exact h1), h5, h6, h7, h8⟩

/-- A frame of a node. -/
def nodeTest (s : State) (bytes : List Byte) (role : Role) (unit : Nat) (kind : FrameKind) : Bool :=
  calm s && checkPasses bytes && decide ((s.node (headerOf bytes).src).role = role)
    && decide ((s.node (headerOf bytes).src).unit = unit) && decide ((headerOf bytes).kind = kind.code)

theorem fromNode_of {s : State} {bytes : List Byte} {role : Role} {unit : Nat} {kind : FrameKind}
    (h : nodeTest s bytes role unit kind = true) : s.FromNode bytes (headerOf bytes) role unit kind := by
  simp only [nodeTest, Bool.and_eq_true, decide_eq_true_eq] at h
  obtain ⟨⟨⟨h1, h2⟩, h3⟩, h4⟩ := h
  exact ⟨hears_of (by simp only [Bool.and_eq_true]; exact h1), h2, h3, h4⟩

/-- A SAMPLE of one OK entry on channel `c`. -/
def sample (node c : Nat) (v : Int) : List Byte :=
  frame 1 node 0 (BitVec.ofNat 8 (c * 32) :: intBytes 3 v)

/-- The sample of one entry of a THERMO node. -/
def measureTest (s : State) (bytes : List Byte) (e : ChannelEntry) : Bool :=
  calm s && checkPasses bytes && decide ((s.node (headerOf bytes).src).role = .thermo)
    && decide ((headerOf bytes).kind = 0) && decide (sampleOf (headerOf bytes).payload = some [e])

theorem measures_of {s : State} {bytes : List Byte} {e : ChannelEntry}
    (h : measureTest s bytes e = true) : s.Measures bytes (headerOf bytes) e := by
  simp only [measureTest, Bool.and_eq_true, decide_eq_true_eq] at h
  obtain ⟨⟨⟨h1, h2⟩, h3⟩, h4⟩ := h
  exact ⟨hears_of (by simp only [Bool.and_eq_true]; exact h1), h2, h3, h4⟩

/-- The sample of one OK entry of a scale. -/
def weighTest (s : State) (bytes : List Byte) (k : ScaleNo) (e : ChannelEntry) : Bool :=
  nodeTest s bytes .scale k.val .sample && decide (sampleOf (headerOf bytes).payload = some [e])
    && decide (e.status = .ok) && decide ((s.scaleEntry k).mode = .single)
    && decide ((s.scaleEntry k).channelA = some { node := (headerOf bytes).src, line := e.channel })
    && decide ((s.scale k).state ≠ .disabled)

theorem forms_of {s : State} {bytes : List Byte} {k : ScaleNo} {e : ChannelEntry}
    (h : weighTest s bytes k e = true) : s.Forms bytes (headerOf bytes) k e e.value
      { s.scale k with lastA := some { status := .ok, value := e.value, arrival := s.timebase } } := by
  simp only [weighTest, Bool.and_eq_true, decide_eq_true_eq] at h
  obtain ⟨⟨⟨⟨⟨h1, h2⟩, h3⟩, h4⟩, h5⟩, h6⟩ := h
  exact ⟨fromNode_of h1, h2, h3, h6, Or.inl ⟨h4, h5, rfl, rfl⟩⟩

/-- A press STATUS of node 20. -/
def press (position tonnage mould clear : Nat) : List Byte :=
  frame 1 20 2 (natBytes 1 position ++ natBytes 2 tonnage ++ natBytes 2 mould ++ natBytes 1 clear)

/-- What it reports. -/
def report (p : Position) (tonnage mould : Nat) (clear : Bool) : PressReport :=
  { position := p, tonnage := tonnage, mould := mould, cavityClear := clear, arrival := 60000#32 }

/-- An ejector STATUS of node 21. -/
def force (n : Nat) : List Byte := frame 1 21 2 (natBytes 3 n ++ [1#8])

/-- What it reports. -/
def forced (n : Nat) : EjectorReport := { force := n, position := .extended, arrival := 60000#32 }

/-- A SAMPLE entry as it is read. -/
def ok (c : Nat) (v : Int) : ChannelEntry := { channel := c, status := .ok, value := v }

/-- A sample of scale 0's channel A forms its value as the gross value. -/
def FormsA (s : State) (v : Int) : Prop :=
  s.Forms (sample 22 0 v) (headerOf (sample 22 0 v)) 0 (ok 0 v) v
    { s.scale 0 with lastA := some ⟨.ok, v, s.timebase⟩ }

theorem formsA_of {s : State} {v : Int} (h : weighTest s (sample 22 0 v) 0 (ok 0 v) = true) :
    FormsA s v := forms_of h

/-- A request with tag 5. -/
def req (code : Byte) (args : List Byte) : List Byte := ask (code :: 5#8 :: args)

/-- Fill an OWN queue to a length. -/
def fillOwn (p : Port) (n : Nat) (s : State) : State :=
  s.modPort p fun x => { x with own := List.replicate n ⟨1, 40, .status, [], .plain⟩ }

/-- Fill a FWD queue to a length. -/
def fillFwd (p : Port) (n : Nat) (s : State) : State :=
  s.modPort p fun x => { x with fwd := List.replicate n [] }

theorem own_of {s : State} {bytes : List Byte}
    (h : (calm s && decide ((headerOf bytes).dst = 40)) = true) : s.Normal (headerOf bytes).dst := by
  simp only [Bool.and_eq_true, decide_eq_true_eq] at h
  rw [h.2]; exact normal_of_calm h.1

/-- What holds of each element of a vector with its index. -/
theorem forall_index {α : Type} {n : Nat} {v : Vector α n} (f : α → Nat → Bool)
    (h : (v.toList.zipIdx.all fun x => f x.1 x.2) = true) (i : Fin n) : f v[i] i.val = true := by
  refine List.all_eq_true.mp h (v[i], i.val) ?_
  rw [List.mem_zipIdx_iff_getElem?]
  simp

/-! ## Ill-formed commands -/

theorem test_wf_checkFailed : Instr.wf (.checkFailedFrame .U (frame 1 2 0 [])) = false := by decide +kernel
theorem test_wf_passiveForward : Instr.wf (.passiveForward .U [1#8]) = false := by decide +kernel
theorem test_wf_forwardFrame : Instr.wf (.forwardFrame .D []) = false := by decide +kernel
theorem test_wf_discard : Instr.wf (.discardOwnAddressFrame (frame 40 0 3 [])) = false
    ∧ Instr.wf (.discardOwnAddressFrame (frame 63 0 0 [])) = false := by decide +kernel
theorem test_wf_foreign : Instr.wf (.foreignMgmtReq (frame 40 9 0 [])) = false
    ∧ Instr.wf (.mgmtReqDroppedPending (frame 63 0 3 [])) = false
    ∧ Instr.wf (.fieldMgmtReq (frame 40 9 0 [])) = false := by decide +kernel
theorem test_wf_badRequest : Instr.wf (.mgmtBadRequest (req 14 [])) = false
    ∧ Instr.wf (.mgmtBadRequest (req 18 [])) = true := by decide +kernel
theorem test_wf_fieldFrames : Instr.wf (.thermoSample (force 3)) = false
    ∧ Instr.wf (.scaleSample (force 3)) = false ∧ Instr.wf (.pressStatus (sample 12 2 0)) = false
    ∧ Instr.wf (.ejectorStatus (sample 12 2 0)) = false := by decide +kernel
theorem test_wf_commands : Instr.wf (.closeCommand (frame 20 0 1 [2#8])) = false
    ∧ Instr.wf (.openCommand (frame 20 0 1 [3#8])) = false
    ∧ Instr.wf (.openEmergency (frame 63 0 1 [3#8])) = false
    ∧ Instr.wf (.serviceCommand (frame 20 0 1 [1#8])) = false
    ∧ Instr.wf (.commandNotWellFormed (frame 20 0 1 [1#8])) = false := by decide +kernel
theorem test_wf_broadcasts : Instr.wf (.broadcastCloseOpen (frame 63 0 1 [3#8])) = false
    ∧ Instr.wf (.broadcastOpenEmergency (frame 63 0 1 [1#8])) = false
    ∧ Instr.wf (.broadcastHeat (frame 30 0 5 [])) = false
    ∧ Instr.wf (.heat (frame 63 0 5 [])) = false := by decide +kernel

/-- A request that each request row refuses: READ_EVENTS, and for its own row CLEAR_EVENTS. -/
theorem test_wf_requests :
    ([Instr.readTable, .writeTable, .setSetpointSet, .setSetpointClearOverride, .zoneControlEnable,
      .zoneControlDisable, .zoneControlRestorePrimary, .pressControlEnable, .pressControlDisable,
      .pressControlReset, .pressControlForceDemould, .pressControlSetupOn, .pressControlSetupOff,
      .pressControlStep, .scaleControlTare, .readStatus, .readHistory, .advanceRead, .setSerialBase,
      .lockProfile, .unlockProfile, .readProfile, .clearEvents, .setEventEnable, .resetWarm,
      .resetCold].all fun row => !(row (req 14 [])).wf) = true
    ∧ Instr.wf (.readEvents (req 15 [0#8, 0#8, 0#8, 1#8])) = false := by decide +kernel

/-! ## Worked sequences of the spec -/

/-- A frame sent from own address 40: destination 9, kind STATUS, payload 01 02, check as R6 gives it. -/
theorem test_frame : frameBytes 9 40 2 true [1#8, 2#8] =
    [0x26#8, 0x82#8, 0x80#8, 0x02#8, 0x01#8, 0x02#8] ++ natBytes 2
      (crc16 [0x26#8, 0x82#8, 0x80#8, 0x02#8, 0x01#8, 0x02#8]).toNat
    ∧ crc16 [0x31#8, 0x32#8, 0x33#8, 0x34#8, 0x35#8, 0x36#8, 0x37#8, 0x38#8, 0x39#8] = 0x29B1#16 := by
  decide +kernel

/-- Section 3.11, step 1. -/
theorem test_regulator_step1 :
    let t := after (.thermoSample (sample 12 2 1472)) zone14
    (t.zone 14).integral = 187000 ∧ (t.zone 14).staged = 599 := by decide +kernel

/-- Section 3.11, step 2. -/
theorem test_regulator_step2 :
    let t := after (.thermoSample (sample 12 2 1490)) { zone14 (fun c => { c with integral := 187000 }) with
      timebase := 60000#32 }
    (t.zone 14).integral = 189500 ∧ (t.zone 14).staged = 529 := by decide +kernel

/-- Section 3.11, steps 4 and 5: the failover, then the backup's first sample. -/
theorem test_failover :
    let s := zone14 fun c => { c with integral := 189500, staged := 529, prevArrival := some 59200#32 }
    let t := after (.thermoSample (frame 1 12 0 [0x48#8, 0#8, 0#8, 0#8])) s
    (t.zone 14).state = .regulating ∧ (t.zone 14).active = .backup ∧ (t.zone 14).staged = 529
      ∧ (t.events[3]).raw = true ∧ (t.events[4]).raw = true
      ∧ (let u := after (.thermoSample (sample 13 2 1512)) t
         (u.zone 14).integral = 184700 ∧ (u.zone 14).staged = 436) := by decide +kernel

/-- Section 3.11, steps 6 and 8: the output pinned high and low. -/
theorem test_pinned :
    let s := zone14 fun c => { c with integral := 184700, prevArrival := some 59000#32 }
    ((after (.thermoSample (sample 12 2 1200)) s).zone 14).staged = 850
      ∧ ((after (.thermoSample (sample 12 2 1200)) s).zone 14).integral = 184700
      ∧ ((after (.thermoSample (sample 12 2 1900)) s).zone 14).staged = 0 := by decide +kernel

/-- Section 3.12, step 1. -/
theorem test_overtemp :
    let t := after (.thermoSample (sample 12 2 2003)) (zone14 fun c => { c with committed := 400 })
    (t.zone 14).state = .overtemp ∧ (t.zone 14).committed = 0 ∧ (t.events[6]).raw = true
      ∧ t.portD.own.map (·.payload) = [[2#8, 0#8, 0#8]] := by decide +kernel

/-- Section 5.10: the factors and the three accruals. -/
theorem test_accrual : rateFactor rate2 1453 = 783 ∧ rateFactor rate2 1500 = 1024
    ∧ rateFactor rate2 1520 = 1228 ∧ rateFactor rate2 1290 = 0
    ∧ (let s := (cure1).modAccrual 14 fun _ =>
         { inclusion := .included, accumulator := 882, residue := 332, prevArrival := some 56800#32 }
       let s := s.modCure 1 fun c => { c with dwellMet := true, progress := 882 }
       let t := after (.thermoSample (sample 12 2 1520)) s
       (t.accrual 14).accumulator = 3280 ∧ (t.accrual 14).residue = 780 ∧ (t.cure 1).progress = 3280
         ∧ (t.cure 1).status = .permitted ∧ (t.unit 1).state = .demouldWait
         ∧ (t.events[8]).raw = true) := by decide +kernel

/-- Section 6.9's window, full and stable at its last value. -/
def window9 : List Int := [24512, 24590, 24602, 24598, 24605, 24600, 24596, 24603]

/-- Section 6.9: the verdict at 50900. -/
theorem test_verdict :
    let s := scale1 .loading fun c => { c with window := window9 }
    let t := after (.scaleSample (sample 22 0 24601)) s
    (t.scale 0).state = .accepted ∧ (t.scale 0).verdict = some accepted1
      ∧ (t.scale 0).queue.map QueueEntry.attempts = [1] ∧ t.portU.own.map (·.payload) =
        [[0#8, 1#8, 0#8, 0#8, 0#8, 0x5F#8, 0xF2#8, 0#8, 0#8, 0#8, 0#8]] := by decide +kernel

/-- Section 6.10: the release at 52300. -/
theorem test_release :
    let s := scale1 .accepted fun c => { c with verdict := some accepted1 }
    let t := after (.scaleSample (sample 22 0 40)) s
    (t.scale 0).state = .empty ∧ (t.scale 0).window = [40] ∧ (t.scale 0).queue = []
      ∧ (t.unit 1).state = .chargeReady ∧ (t.unit 1).charge.map ChargeRecord.net = some 24562 := by
  decide +kernel

/-! ## Witnesses: states that meet the hypotheses of each statement -/

/-! ### Steps and invariants -/

theorem witness_StepAlwaysAnswers : (cell).pending = [] := by decide +kernel

/-- A cure with its record, its zone and a tick to take. -/
def busy : State := { cure1 with pending := [.timebaseTick] }

theorem witness_invariants_step : step busy = .next { busy with pending := [], timebase := 60001#32 } := by
  rfl
theorem witness_StepKeepsBounded : busy.Bounded := by
  unfold State.Bounded PortState.bounded Accrual.bounded; decide +kernel
theorem witness_StepKeepsAttentionAndOffLaws : busy.AttentionLaw ∧ busy.OffLaw := by
  unfold State.AttentionLaw State.OffLaw; decide +kernel
theorem witness_StepKeepsHeatLaws : busy.DutyLaw ∧ busy.WindowLaw := by
  unfold State.DutyLaw State.WindowLaw; decide +kernel
theorem witness_StepKeepsRingLaw : busy.RingLaw := by
  refine ⟨by decide +kernel, by decide +kernel, fun i => ?_, by decide +kernel⟩
  exact of_decide_eq_true (forall_index (v := busy.history.slots)
    (fun o j => decide (o.isSome = decide (j < busy.history.stored))) (by decide +kernel) i)
theorem witness_StepKeepsCycleLaw : busy.CycleLaw := by
  unfold State.CycleLaw State.UnitLaw Scale.verdictLaw; decide +kernel
theorem witness_CureProgressNeverFalls : busy.ProgressLaw ∧ (busy.cure 1).status = .accruing := by
  unfold State.ProgressLaw; decide +kernel
/-- A cure that has ended, and the CLOSED_PRESSURE frame that begins one. -/
theorem witness_CureProgressNeverFalls_after :
    let s := cure1 fun c => { c with status := .stopped, progress := 7 }
    let b : State := (cycle1 .closing).modCure 1 fun c => { c with status := .permitted, progress := 9 }
    s.ProgressLaw ∧ (s.cure 1).status = .stopped ∧ ((after .timebaseTick s).cure 1).progress = 7
      ∧ b.ProgressLaw ∧ (b.unit 1).state = .closing ∧ (b.cure 1).status = .permitted
      ∧ ((after (.pressStatus (press 2 1500 3310 0)) b).cure 1).entryTime = some b.timebase
      ∧ ((after (.pressStatus (press 2 1500 3310 0)) b).cure 1).progress = 0 := by
  unfold State.ProgressLaw; decide +kernel

/-! ### Frames and encodings -/

theorem witness_FrameRoundTrip : (63 : Nat) < 64 ∧ (15 : Nat) < 16
    ∧ (List.replicate 248 0#8).length ≤ 248 := by decide +kernel
/-- Numbers, and each payload that the part reads with a neighbour that it does not take. -/
theorem witness_FrameRoundTrip_payloads :
    natBytes 3 66051 = [1#8, 2#8, 3#8] ∧ intBytes 2 (-2) = [255#8, 254#8] ∧ intOf [255#8, 254#8] = -2
      ∧ sampleOf [67#8, 0#8, 5#8, 192#8, 8#8, 255#8, 255#8, 255#8] = some [ok 2 1472, ⟨0, .openSensor, -1⟩]
      ∧ sampleOf [67#8, 0#8, 5#8] = none
      ∧ pressReportOf [2#8, 3#8, 132#8, 12#8, 238#8, 1#8] 60000#32 = some (report .closedPressure 900 3310 true)
      ∧ pressReportOf [5#8, 3#8, 132#8, 12#8, 238#8, 1#8] 60000#32 = none
      ∧ ejectorReportOf [0#8, 3#8, 132#8, 1#8] 60000#32 = some (forced 900)
      ∧ ejectorReportOf [0#8, 3#8, 132#8, 2#8] 60000#32 = none
      ∧ pressCommandOf [1#8] = some .close ∧ pressCommandOf [4#8, 9#8] = some (.service 4)
      ∧ pressCommandOf [1#8, 0#8] = none := by decide +kernel
theorem witness_TableEntryRoundTrip : zoneRanges entry14 = true
    ∧ (∀ r ∈ [entry14.primary, entry14.backup, entry14.heater], ∀ x ∈ r, x.node ≤ 63 ∧ x.line ≤ 7)
    ∧ recipeValid recipe2 = true ∧ rateValid rate2 = true ∧ (∀ p ∈ rate2, p.factor < 65536)
    ∧ scaleRanges scale0 = true ∧ (∀ x ∈ channelsOf scale0, x.node ≤ 63 ∧ x.line ≤ 7)
    ∧ pressEntryValid PressEntry.atReset = true ∧ cellValid 40 CellEntry.atReset = true
    ∧ ∀ f ∈ ExportEntry.atReset.filters.toList, f.low < 65536 ∧ f.high < 65536 := by
  refine ⟨by decide +kernel, ?_, ?_⟩
  · intro r hr x hx
    simp only [entry14, List.mem_cons, List.not_mem_nil, or_false] at hr
    rcases hr with rfl | rfl | rfl <;> cases hx <;> decide
  · decide +kernel

/-! ### Pins, clock and mode -/

theorem witness_PinsAndClock : { cell with resetHeld := true }.resetHeld = true ∧ (cell).Settled
    ∧ { cell with timebase := 4294967295#32 }.timebase.toNat = 4294967295 :=
  ⟨rfl, settled_of_calm (by decide +kernel), by decide⟩

/-- A part strapped to 0. -/
def passive : State := State.atPowerOn 0#6

theorem witness_PassiveForwards : passive.Settled ∧ passive.mode = .passive
    ∧ (parseFrame (frame 1 2 0 [])).isSome = true ∧ (passive.port .D).fwd.length < 24
    ∧ 24 ≤ ((fillFwd .D 24 passive).port .D).fwd.length ∧ (fillFwd .D 24 passive).mode = .passive
    ∧ parseFrame [1#8] = none := by unfold State.Settled; decide +kernel

/-! ### Received frames -/

theorem witness_JoiningAQueue : (cell).live = true ∧ ((cell).port .D).fwd.length < 24
    ∧ ((cell).port .U).own.length < 16 ∧ (fillFwd .D 24 cell).live = true
    ∧ 24 ≤ ((fillFwd .D 24 cell).port .D).fwd.length ∧ (fillOwn .U 16 cell).live = true
    ∧ 16 ≤ ((fillOwn .U 16 cell).port .U).own.length := by decide +kernel

theorem witness_OtherFramesPassDown :
    (cell).Passing (frame 12 0 1 [1#8]) (headerOf (frame 12 0 1 [1#8]))
    ∧ ¬(((cell).node (headerOf (frame 12 0 1 [1#8])).dst).role = .press
      ∧ (headerOf (frame 12 0 1 [1#8])).kind = FrameKind.command.code)
    ∧ ¬(((cell).node (headerOf (frame 12 0 1 [1#8])).dst).role = .heater
      ∧ (headerOf (frame 12 0 1 [1#8])).kind = FrameKind.heat.code) :=
  ⟨passing_of (by decide +kernel), by decide +kernel⟩

theorem witness_FieldFramesPassUp_none : (cell).Hears (frame 1 5 0 []) (headerOf (frame 1 5 0 []))
    ∧ (headerOf (frame 1 5 0 [])).kind ≠ FrameKind.mgmtReq.code
    ∧ ((cell).node (headerOf (frame 1 5 0 [])).src).role = .none :=
  ⟨hears_of (by decide +kernel), by decide +kernel⟩
theorem witness_FieldFramesPassUp_request : (cell).Hears (frame 40 5 3 []) (headerOf (frame 40 5 3 []))
    ∧ (headerOf (frame 40 5 3 [])).kind = FrameKind.mgmtReq.code
    ∧ (headerOf (frame 40 5 3 [])).dst = (cell).ownAddress
    ∧ (cell).Hears (frame 41 5 3 []) (headerOf (frame 41 5 3 []))
    ∧ (headerOf (frame 41 5 3 [])).dst ≠ (cell).ownAddress :=
  ⟨hears_of (by decide +kernel), by decide +kernel, by decide +kernel, hears_of (by decide +kernel),
    by decide +kernel⟩

theorem witness_ServedNodes_thermo :
    (zone14).Measures (sample 12 2 1472) (headerOf (sample 12 2 1472)) (ok 2 1472) :=
  measures_of (by decide +kernel)
theorem witness_ServedNodes_scale :
    (cell).FromNode (sample 22 0 9) (headerOf (sample 22 0 9)) .scale 0 .sample
    ∧ sampleOf (headerOf (sample 22 0 9)).payload = some [ok 0 9] :=
  ⟨fromNode_of (by decide +kernel), by decide +kernel⟩
theorem witness_ServedNodes_press :
    (cell).FromNode (press 4 65535 0 1) (headerOf (press 4 65535 0 1)) .press 1 .status
    ∧ pressReportOf (headerOf (press 4 65535 0 1)).payload (cell).timebase
      = some (report .stopped 65535 0 true) := ⟨fromNode_of (by decide +kernel), by decide +kernel⟩
theorem witness_ServedNodes_ejector :
    (cell).FromNode (force 9) (headerOf (force 9)) .ejector 1 .status
    ∧ ejectorReportOf (headerOf (force 9)).payload (cell).timebase = some (forced 9) :=
  ⟨fromNode_of (by decide +kernel), by decide +kernel⟩
theorem witness_ServedNodes_others : (cell).Hears (frame 1 30 2 []) (headerOf (frame 1 30 2 []))
    ∧ ((cell).node (headerOf (frame 1 30 2 [])).src).role = .heater
    ∧ ((cell).node (headerOf (frame 1 12 2 [])).src).role = .thermo
    ∧ ((cell).node (headerOf (frame 1 22 2 [])).src).role = .scale
    ∧ ((cell).node (headerOf (frame 1 20 0 [])).src).role = .press
    ∧ ((cell).node (headerOf (frame 1 21 0 [])).src).role = .ejector :=
  ⟨hears_of (by decide +kernel), by decide +kernel⟩

theorem witness_BadFrames_check : (cell).Normal 40 ∧ parseFrame (frame 1 2 0 [] ++ [0#8]) = none :=
  ⟨normal_of_calm (by decide +kernel), by decide +kernel⟩
theorem witness_BadFrames_thermo :
    (cell).FromNode (frame 1 12 0 []) (headerOf (frame 1 12 0 [])) .thermo 0 .sample
    ∧ sampleOf (headerOf (frame 1 12 0 [])).payload = none :=
  ⟨fromNode_of (by decide +kernel), by decide +kernel⟩
theorem witness_BadFrames_scale :
    (cell).FromNode (frame 1 22 0 [0#8]) (headerOf (frame 1 22 0 [0#8])) .scale 0 .sample
    ∧ sampleOf (headerOf (frame 1 22 0 [0#8])).payload = none :=
  ⟨fromNode_of (by decide +kernel), by decide +kernel⟩
theorem witness_BadFrames_press :
    (cell).FromNode (press 5 0 0 0) (headerOf (press 5 0 0 0)) .press 1 .status
    ∧ pressReportOf (headerOf (press 5 0 0 0)).payload (cell).timebase = none :=
  ⟨fromNode_of (by decide +kernel), by decide +kernel⟩
theorem witness_BadFrames_ejector :
    (cell).FromNode (frame 1 21 2 [1#8]) (headerOf (frame 1 21 2 [1#8])) .ejector 1 .status
    ∧ ejectorReportOf (headerOf (frame 1 21 2 [1#8])).payload (cell).timebase = none :=
  ⟨fromNode_of (by decide +kernel), by decide +kernel⟩

theorem witness_OwnAddressFrames : (cell).Normal (headerOf (frame 40 9 0 [])).dst
    ∧ (parseFrame (frame 40 9 0 [])).isSome = true
    ∧ (headerOf (frame 40 9 0 [])).kind ≠ FrameKind.mgmtReq.code
    ∧ (cell).Normal (headerOf (frame 40 9 3 [])).dst
    ∧ (headerOf (frame 40 9 3 [])).kind = FrameKind.mgmtReq.code
    ∧ (headerOf (frame 40 9 3 [])).src ≠ (cell).controller :=
  ⟨own_of (by decide +kernel), by decide +kernel, by decide +kernel, own_of (by decide +kernel),
    by decide +kernel⟩
theorem witness_OwnAddressFrames_pending :
    { cell with resetPending := .waiting .warm }.Normal (headerOf (req 14 [])).dst
    ∧ (headerOf (req 14 [])).kind = FrameKind.mgmtReq.code
    ∧ (headerOf (req 14 [])).src = { cell with resetPending := .waiting .warm }.controller
    ∧ { cell with resetPending := .waiting .warm }.resetPending ≠ .idle :=
  ⟨own_of (by decide +kernel), by decide +kernel, by decide +kernel, by decide⟩

theorem witness_Unserved_bad : (cell).Normal (headerOf (req 18 [])).dst ∧ (cell).resetPending = .idle
    ∧ (headerOf (req 18 [])).src = (cell).controller ∧ decodeRequest (headerOf (req 18 [])).payload = none
    ∧ decodeRequest (headerOf (req 0 [])).payload = none ∧ decodeRequest [14#8] = none
    ∧ decodeRequest (headerOf (req 14 [0#8])).payload = none :=
  ⟨own_of (by decide +kernel), by decide +kernel⟩
theorem witness_Unserved_zone :
    (cell).Asked (req 3 [48#8, 0#8, 5#8, 0#8]) (headerOf (req 3 [48#8, 0#8, 5#8, 0#8])) (.setSetpoint 48 1280)
    ∧ (cell).Asked (req 3 [48#8, 1#8]) (headerOf (req 3 [48#8, 1#8])) (.clearOverride 48)
    ∧ (cell).Asked (req 4 [48#8, 0#8]) (headerOf (req 4 [48#8, 0#8])) (.zoneEnable 48)
    ∧ (cell).Asked (req 4 [48#8, 1#8]) (headerOf (req 4 [48#8, 1#8])) (.zoneDisable 48)
    ∧ (cell).Asked (req 4 [48#8, 2#8]) (headerOf (req 4 [48#8, 2#8])) (.zoneRestore 48) := by
  refine ⟨?_, ?_, ?_, ?_, ?_⟩ <;> exact asked_of (by decide +kernel)
theorem witness_Unserved_press :
    (cell).Asked (req 5 [4#8, 0#8]) (headerOf (req 5 [4#8, 0#8])) (.pressEnable 4)
    ∧ (cell).Asked (req 5 [4#8, 1#8]) (headerOf (req 5 [4#8, 1#8])) (.pressDisable 4)
    ∧ (cell).Asked (req 5 [4#8, 2#8]) (headerOf (req 5 [4#8, 2#8])) (.pressReset 4)
    ∧ (cell).Asked (req 5 [4#8, 3#8]) (headerOf (req 5 [4#8, 3#8])) (.forceDemould 4)
    ∧ (cell).Asked (req 5 [4#8, 4#8]) (headerOf (req 5 [4#8, 4#8])) (.setupOn 4)
    ∧ (cell).Asked (req 5 [4#8, 5#8]) (headerOf (req 5 [4#8, 5#8])) (.setupOff 4)
    ∧ (cell).Asked (req 5 [4#8, 6#8]) (headerOf (req 5 [4#8, 6#8])) (.step 4) := by
  refine ⟨?_, ?_, ?_, ?_, ?_, ?_, ?_⟩ <;> exact asked_of (by decide +kernel)
theorem witness_Unserved_others :
    (cell).Asked (req 6 [2#8, 0#8]) (headerOf (req 6 [2#8, 0#8])) (.scaleTare 2)
    ∧ (cell).Asked (req 11 [3#8, 2#8]) (headerOf (req 11 [3#8, 2#8])) (.lockProfile 3 2)
    ∧ (cell).Asked (req 12 [4#8, 1#8]) (headerOf (req 12 [4#8, 1#8])) (.unlockProfile 4 1)
    ∧ (cell).Asked (req 13 [4#8, 2#8, 0#8, 1#8]) (headerOf (req 13 [4#8, 2#8, 0#8, 1#8]))
      (.readProfile 4 2 0 1) :=
  ⟨asked_of (by decide +kernel), asked_of (by decide +kernel), asked_of (by decide +kernel),
    asked_of (by decide +kernel)⟩

/-- Lengths and named values that a request takes, and their neighbours. -/
theorem test_requestArguments :
    ([[1#8, 5#8, 8#8, 0#8, 1#8], [2#8, 5#8, 3#8, 0#8, 1#8, 0#8, 0#8, 0#8], [2#8, 5#8, 4#8, 0#8, 1#8, 0#8],
      [4#8, 5#8, 14#8, 2#8], [7#8, 5#8, 1#8, 44#8, 4#8], [7#8, 5#8, 8#8, 0#8], [17#8, 5#8, 1#8]].all
        fun b => (decodeRequest b).isSome) = true
    ∧ ([[1#8, 5#8, 9#8, 0#8, 1#8], [1#8, 5#8, 8#8, 0#8, 0#8], [2#8, 5#8, 3#8, 0#8, 1#8, 0#8, 0#8],
      [4#8, 5#8, 14#8, 3#8], [7#8, 5#8, 1#8, 44#8], [7#8, 5#8, 9#8, 0#8], [17#8, 5#8, 2#8]].all
        fun b => (decodeRequest b).isNone) = true := by decide +kernel

/-- The requests that some payloads spell. -/
theorem test_requestSpelled :
    decodeRequest [1#8, 5#8, 8#8, 0#8, 1#8] = some (.readTable .exports 0 1)
      ∧ decodeRequest [3#8, 5#8, 14#8, 0#8, 255#8, 254#8] = some (.setSetpoint 14 (-2))
      ∧ decodeRequest [8#8, 5#8, 1#8, 0#8, 1#8, 2#8, 3#8, 2#8] = some (.readHistory (some 66051) 2)
      ∧ decodeRequest [11#8, 5#8, 3#8, 1#8] = some (.lockProfile 3 1)
      ∧ decodeRequest [15#8, 5#8, 0#8, 0#8, 1#8, 2#8] = some (.clearEvents 258#32)
      ∧ decodeRequest [17#8, 5#8, 1#8] = some (.reset .cold) := by decide +kernel

theorem witness_ResponseIsSent : (cell).live = true ∧ (cell).portU.own.length < 16
    ∧ (fillOwn .U 16 cell).live = true ∧ 16 ≤ (fillOwn .U 16 cell).portU.own.length := by decide +kernel


/-! ### Transmitters -/

/-- The record of press 1's cycle, and one with chosen flags. -/
def record1 (flags : BitVec 17 := 0) : Record :=
  { newRecord zone14 1 ⟨2, 3310⟩ charge 55000#32 with flags := flags }

/-- A record with no notes: its serial, its press, its state and the length of its 110 bytes. -/
theorem witness_FrameRoundTrip_record :
    let b := recordBytes { record1 with serial := 66051, state := .closed, outcome := some .suspect }
    (record1).notes.length ≤ 4 ∧ b.length = 110 ∧ b.take 5 = [0#8, 1#8, 2#8, 3#8, 1#8]
      ∧ b.getD 8 0#8 = 130#8 ∧ b.drop 84 = List.replicate 26 0#8 := by decide +kernel

/-- One CLOSED record and one OPEN one in slots 0 and 1. -/
def two (f : History → History := id) : State :=
  (cell).modHistory fun h => f { h with
    slots := (h.slots.set 0 (some { record1 with state := .closed, outcome := some .good })).set 1
      (some { record1 with serial := 1 })
    stored := 2, writePos := 2, unread := 2, nextSerial := 2 }

/-- The OPEN record's serial waits for export, with Port U OWN filled. -/
def exporting (n : Nat) : State := fillOwn .U n { two with exportQueue := [0] }

/-- Press 1 owes EJECT_OFF, and zone 14 an off command; both wait. -/
def owing (ejector : Bool) : State :=
  let s := (zone14).modZone 14 fun c => { c with offs := [⟨30, 1, true, 3⟩, ⟨30, 2, false, 4⟩] }
  if ejector then s.modEjector 1 fun e => { e with offOwed := some ⟨21, false, 5⟩ } else s

/-- Port U sends a frame. -/
def sendingOf (m : Mark) (s : State := cell) : State :=
  s.modPort .U fun x => { x with sending := some ⟨[], m⟩ }

theorem witness_TransmissionStarts : (sendingOf .plain).Settled ∧ ((sendingOf .plain).port .U).sending ≠ none
    ∧ (fillOwn .D 1 cell).Settled ∧ ((fillOwn .D 1 cell).port .D).sending = none
    ∧ ((fillOwn .D 1 cell).port .D).own = [⟨1, 40, .status, [], .plain⟩] ∧ (fillFwd .D 1 cell).Settled
    ∧ ((fillFwd .D 1 cell).port .D).sending = none ∧ ((fillFwd .D 1 cell).port .D).own = []
    ∧ ((fillFwd .D 1 cell).port .D).fwd = [[]] ∧ ((cell).port .D).own = [] ∧ ((cell).port .D).fwd = [] := by
  unfold State.Settled; decide +kernel

/-- A COLD shutdown with off frames present, and one with none left. -/
theorem witness_TransmissionStarts_shutdown :
    let s := fillOwn .D 1 { owing true with shutdown := true }
    s.Quiet ∧ s.shutdown = true ∧ (s.port .D).sending = none
      ∧ (s.port .D).own = [⟨1, 40, .status, [], .plain⟩]
      ∧ { cell with shutdown := true }.resetPending.isDue = false
      ∧ { cell with shutdown := true }.offPresent = false := by unfold State.Quiet; decide +kernel
theorem witness_TransmissionStarts_after : (owing true).normal = true ∧ (exporting 12).live = true
    ∧ (exporting 12).warmTaking = false ∧ (owing true).offWaits = true := by decide +kernel

/-- Two serials wait: with 12 frames in Port U OWN one moves, with 11 both, in their order. -/
theorem witness_TransmissionStarts_exports :
    let s (n : Nat) : State := { exporting n with exportQueue := [1, 0] }
    let moved (n : Nat) : State := afterStart .U (s n)
    (s 11).live = true ∧ (s 11).warmTaking = false ∧ (moved 12).exportQueue = [0]
      ∧ (moved 12).portU.own.length = 13 ∧ (moved 11).exportQueue = []
      ∧ ((moved 11).portU.own.drop 11).map (fun x => (x.kind, x.dst, x.payload.take 4)) =
        [(.report, 0, [0#8, 0#8, 0#8, 1#8]), (.report, 0, [0#8, 0#8, 0#8, 0#8])] := by decide +kernel

theorem witness_TransmissionEnds : (cell).Settled ∧ ((cell).port .U).sending = none
    ∧ (sendingOf .plain).Settled ∧ ((sendingOf .plain).port .U).sending = some ⟨[], .plain⟩
    ∧ (let s := sendingOf .resetResponse { cell with resetPending := .waiting .cold }
       s.Settled ∧ (s.port .U).sending = some ⟨[], .resetResponse⟩ ∧ s.resetPending = .waiting .cold)
    ∧ (let s := { cell with linkPin := true, linkStart := some 59950#32 }
       s.Settled ∧ s.linkPin = true ∧ s.linkStart = some 59950#32
        ∧ 50 ≤ (s.timebase - 59950#32).toNat)
    ∧ (let s := { cell with linkPin := true, linkStart := some 59951#32 }
       s.Settled ∧ s.linkPin = true ∧ (s.timebase - 59951#32).toNat < 50)
    ∧ (cell).linkPin = false := by unfold State.Settled; decide +kernel

/-! ### Heat, service commands and broadcasts -/

theorem none_enabled : ∀ z, (cell).enabled z = false := by decide +kernel

theorem witness_Heat_conflict : (zone14).Passing (frame 30 0 5 []) (headerOf (frame 30 0 5 []))
    ∧ ((zone14).node (headerOf (frame 30 0 5 [])).dst).role = .heater
    ∧ (headerOf (frame 30 0 5 [])).kind = FrameKind.heat.code
    ∧ ∃ z h, (zone14).enabled z = true ∧ ((zone14).zoneEntry z).heater = some h
      ∧ h.node = (headerOf (frame 30 0 5 [])).dst :=
  ⟨passing_of (by decide +kernel), by decide +kernel, by decide +kernel, 14, ⟨30, 2⟩, by decide +kernel⟩
theorem witness_Heat_passes : (cell).Passing (frame 30 0 5 []) (headerOf (frame 30 0 5 []))
    ∧ ((cell).node (headerOf (frame 30 0 5 [])).dst).role = .heater
    ∧ ¬∃ z h, (cell).enabled z = true ∧ ((cell).zoneEntry z).heater = some h
      ∧ h.node = (headerOf (frame 30 0 5 [])).dst :=
  ⟨passing_of (by decide +kernel), by decide +kernel, fun ⟨z, _, e, _⟩ => by
    rw [none_enabled z] at e; cases e⟩
theorem witness_ServiceCommands :
    (cell).Commanded (frame 20 0 1 [4#8, 9#8]) (headerOf (frame 20 0 1 [4#8, 9#8])) 1 (.service 4)
    ∧ (cell).Passing (frame 20 0 1 [1#8, 1#8]) (headerOf (frame 20 0 1 [1#8, 1#8]))
    ∧ ((cell).node (headerOf (frame 20 0 1 [1#8, 1#8])).dst).role = .press
    ∧ pressCommandOf (headerOf (frame 20 0 1 [1#8, 1#8])).payload = none
    ∧ pressCommandOf (headerOf (frame 20 0 1 [])).payload = none :=
  ⟨commanded_of (by decide +kernel), passing_of (by decide +kernel), by decide +kernel⟩

theorem witness_BroadcastFrames_commands :
    ([1#8, 2#8, 3#8, 4#8].all fun c => calm cell && checkPasses (frame 63 0 1 [c])
      && decide ((headerOf (frame 63 0 1 [c])).dst = 63)) = true
    ∧ (cell).Hears (frame 63 0 1 [1#8]) (headerOf (frame 63 0 1 [1#8]))
    ∧ pressCommandOf (headerOf (frame 63 0 1 [1#8])).payload = some .close
    ∧ pressCommandOf (headerOf (frame 63 0 1 [2#8])).payload = some .openPlain
    ∧ pressCommandOf (headerOf (frame 63 0 1 [3#8])).payload = some .openEmergency
    ∧ pressCommandOf (headerOf (frame 63 0 1 [4#8])).payload = some (.service 4)
    ∧ pressCommandOf (headerOf (frame 63 0 1 [])).payload = none :=
  ⟨by decide +kernel, hears_of (by decide +kernel), by decide +kernel⟩
theorem witness_BroadcastFrames_heat : (zone14).Hears (frame 63 0 5 []) (headerOf (frame 63 0 5 []))
    ∧ (headerOf (frame 63 0 5 [])).kind = FrameKind.heat.code ∧ (∃ z, (zone14).enabled z = true)
    ∧ (cell).Hears (frame 63 0 5 []) (headerOf (frame 63 0 5 [])) ∧ ¬∃ z, (cell).enabled z = true :=
  ⟨hears_of (by decide +kernel), by decide +kernel, by decide +kernel, hears_of (by decide +kernel),
    by decide +kernel⟩

/-! ### The gate -/

/-- A COMMAND to press 1's node. -/
def order (code : Byte) : List Byte := frame 20 0 1 [code]

/-- Press 1 in CHARGE_READY with its charge, its mould reported and zone 14 at its setpoint. -/
def ready1 (f : Zone → Zone := id) (h : History → History := id) : State :=
  (unit1 .chargeReady (fun u => { u with charge := some charge, lastStatus := some (report .openFull 0 3310 true) })
    (zone14 fun z => f { z with measured := some 1500 })).modHistory h

/-- What CloseConditions calls ready. -/
def readyTest (s : State) (p : PressNo) (r : Recipe) : Bool :=
  decide (s.boundRecipe p = some r) && decide (∀ z, pressOf z = p → s.enabled z = true →
    (s.zone z).state = .regulating ∧ (s.zone z).setpoint = (s.zone z).target
      ∧ ((s.zone z).measured.any fun m => decide (|m - (s.zone z).setpoint| ≤ (r.readyBand : Int))) = true)

theorem ready_of {s : State} {p : PressNo} {r : Recipe} (h : readyTest s p r = true) :
    ∃ r, s.boundRecipe p = some r ∧ ∀ z, pressOf z = p → s.enabled z = true →
      (s.zone z).state = .regulating ∧ (s.zone z).setpoint = (s.zone z).target
        ∧ ∃ m, (s.zone z).measured = some m ∧ |m - (s.zone z).setpoint| ≤ (r.readyBand : Int) := by
  simp only [readyTest, Bool.and_eq_true, decide_eq_true_eq] at h
  refine ⟨r, h.1, fun z hz he => ?_⟩
  obtain ⟨h1, h2, h3⟩ := h.2 z hz he
  refine ⟨h1, h2, ?_⟩
  cases hm : (s.zone z).measured with
  | none => rw [hm] at h3; cases h3
  | some m => rw [hm] at h3; exact ⟨m, rfl, of_decide_eq_true h3⟩

theorem witness_CloseConditions_states : ((cell).unit 1).state = .disabled
    ∧ ((unit1 .chargeWait).unit 1).state ≠ .disabled ∧ ((unit1 .chargeWait).unit 1).state ≠ .chargeReady
    ∧ ((ready1).unit 1).state = .chargeReady := by decide +kernel
theorem witness_CloseConditions_mould :
    ((unit1 .chargeReady).unit 1).state = .chargeReady ∧ ¬∃ r b, ((unit1 .chargeReady).unit 1).lastStatus = some r
      ∧ ((unit1 .chargeReady).unit 1).binding = some b ∧ r.mould = b.mould := by
  refine ⟨by decide +kernel, fun ⟨r, b, h, _⟩ => ?_⟩
  have : ((unit1 .chargeReady).unit 1).lastStatus = none := by decide +kernel
  rw [this] at h; cases h
theorem witness_CloseConditions_held : (∃ r b, ((ready1).unit 1).lastStatus = some r
      ∧ ((ready1).unit 1).binding = some b ∧ r.mould = b.mould)
    ∧ (∃ z, pressOf z = 1 ∧ (((ready1 fun c => { c with state := .lost }).zone z).state = .lost
      ∨ ((ready1 fun c => { c with state := .lost }).zone z).state = .overtemp))
    ∧ (¬∃ z, pressOf z = 1 ∧ (((ready1).zone z).state = .lost ∨ ((ready1).zone z).state = .overtemp)) :=
  ⟨⟨report .openFull 0 3310 true, ⟨2, 3310⟩, by decide +kernel, by decide +kernel, rfl⟩, by decide +kernel⟩
theorem witness_CloseConditions_notReady :
    let s := ready1 fun c => { c with state := .holding }
    s.closeReason 1 = some .notAtTemp ∧ ¬∃ r, s.boundRecipe 1 = some r
      ∧ ∀ z, pressOf z = 1 → s.enabled z = true → (s.zone z).state = .regulating
        ∧ (s.zone z).setpoint = (s.zone z).target
        ∧ ∃ m, (s.zone z).measured = some m ∧ |m - (s.zone z).setpoint| ≤ (r.readyBand : Int) := by
  refine ⟨by decide +kernel, fun ⟨r, _, h⟩ => ?_⟩
  have h14 := (h 14 (by decide) (by decide +kernel)).1
  exact absurd h14 (by decide +kernel)
theorem witness_CloseConditions_ready :
    (∃ r, (ready1).boundRecipe 1 = some r ∧ ∀ z, pressOf z = 1 → (ready1).enabled z = true →
      ((ready1).zone z).state = .regulating ∧ ((ready1).zone z).setpoint = ((ready1).zone z).target
        ∧ ∃ m, ((ready1).zone z).measured = some m
          ∧ |m - ((ready1).zone z).setpoint| ≤ (r.readyBand : Int))
    ∧ (ready1).admission = .admitted ∧ (ready1 id fun h => { h with hold := true }).admission = .historyHold
    ∧ (ready1 id fun h => { h with exhausted := true }).admission = .historyFull :=
  ⟨ready_of (r := recipe2) (by decide +kernel), by decide +kernel⟩

theorem witness_CloseGate : (cycle1 .closing).Commanded (order 1) (headerOf (order 1)) 1 .close
    ∧ ((cycle1 .closing).unit 1).state = .closing
    ∧ (cell).Commanded (order 1) (headerOf (order 1)) 1 .close
    ∧ ((cell).unit 1).state ≠ .closing ∧ (cell).closeReason 1 = some .notEnabled :=
  ⟨commanded_of (by decide +kernel), by decide +kernel, commanded_of (by decide +kernel), by decide +kernel⟩

theorem witness_CycleBegins : (ready1).Commanded (order 1) (headerOf (order 1)) 1 .close
    ∧ (ready1).closeReason 1 = none ∧ ((ready1).unit 1).state = .chargeReady
    ∧ ((ready1).unit 1).binding = some ⟨2, 3310⟩ ∧ ((ready1).unit 1).charge = some charge
    ∧ (ready1).history.nextSerial < 4294967295 :=
  ⟨commanded_of (by decide +kernel), by decide +kernel⟩
theorem witness_CycleBegins_last :
    let s := ready1 (fun c => { c with active := .backup, primaryLast := some ⟨.ok, 1500, 59900#32⟩ })
      fun h => { h with nextSerial := 4294967295 }
    s.Commanded (order 1) (headerOf (order 1)) 1 .close ∧ s.closeReason 1 = none
      ∧ s.history.nextSerial = 4294967295 ∧ (s.zone 14).active = .backup ∧ s.primaryOk 14 = true :=
  ⟨commanded_of (by decide +kernel), by decide +kernel⟩

theorem witness_OpenGate :
    ([UnitState.demouldWait, .closing, .cure, .disabled, .idle, .chargeWait, .chargeReady, .opening, .eject,
      .unload, .fault].all fun st => commandTest (unit1 st) (order 2) 1 .openPlain
        && decide (((unit1 st).unit 1).state = st)) = true
    ∧ (unit1 .closing).Commanded (order 2) (headerOf (order 2)) 1 .openPlain
    ∧ ((unit1 .closing).unit 1).closeTimedOut = false
    ∧ (unit1 .closing fun u => { u with closeTimedOut := true }).Commanded (order 2) (headerOf (order 2)) 1
      .openPlain
    ∧ ((unit1 .closing fun u => { u with closeTimedOut := true }).unit 1).closeTimedOut = true :=
  ⟨by decide +kernel, commanded_of (by decide +kernel), by decide +kernel, commanded_of (by decide +kernel),
    by decide +kernel⟩

theorem witness_EmergencyGate :
    ([UnitState.demouldWait, .closing, .disabled, .idle, .chargeWait, .chargeReady, .opening, .eject,
      .unload, .fault].all fun st => commandTest (unit1 st) (order 3) 1 .openEmergency
        && decide (((unit1 st).unit 1).state = st)) = true
    ∧ (cure1).Commanded (order 3) (headerOf (order 3)) 1 .openEmergency
    ∧ ((cure1).unit 1).state = .cure ∧ ((cure1).cure 1).status = .accruing :=
  ⟨by decide +kernel, commanded_of (by decide +kernel), by decide +kernel⟩

/-! ### Zones -/

theorem witness_SampleRegulates :
    (zone14).Measures (sample 12 2 1472) (headerOf (sample 12 2 1472)) (ok 2 1472)
    ∧ (ok 2 1472).status = .ok ∧ -500 ≤ (ok 2 1472).value ∧ (ok 2 1472).value ≤ 6000
    ∧ (zone14).sensorOf 14 (headerOf (sample 12 2 1472)).src 2 = some ((zone14).zone 14).active
    ∧ ((zone14).zone 14).state = .regulating ∧ (ok 2 1472).value < (((zone14).zoneEntry 14).limit : Int) :=
  ⟨measures_of (by decide +kernel), by decide +kernel⟩
theorem witness_SampleRegulates_low :
    let s := zone14 fun c => { c with state := .holding, firstSample := true }
    s.Measures (sample 12 2 (-500)) (headerOf (sample 12 2 (-500))) (ok 2 (-500))
    ∧ s.sensorOf 14 (headerOf (sample 12 2 (-500))).src 2 = some (s.zone 14).active
    ∧ (s.zone 14).state = .holding := ⟨measures_of (by decide +kernel), by decide +kernel⟩

theorem alone_of {s : State} {z : ZoneNo} {n c : Nat}
    (h : decide (∀ z' : ZoneNo, z' ≠ z → s.sensorOf z' n c = none) = true) : s.TakesAlone z n c :=
  fun z' hz => of_decide_eq_true h z' hz

theorem witness_SampleRegulates_deviation :
    let s := (cure1).modZone 14 fun c => { c with deviationCount := 2 }
    s.Measures (sample 12 2 1449) (headerOf (sample 12 2 1449)) (ok 2 1449)
      ∧ s.TakesAlone 14 (headerOf (sample 12 2 1449)).src 2 ∧ (s.unit (pressOf 14)).state = .cure
      ∧ s.boundRecipe (pressOf 14) = some recipe2 ∧ (s.zone 14).deviationNoted = false
      ∧ (recipe2.deviationBand : Int) < |1449 - (s.zone 14).setpoint|
      ∧ |1450 - (s.zone 14).setpoint| ≤ (recipe2.deviationBand : Int) :=
  ⟨measures_of (by decide +kernel), alone_of (by decide +kernel), by decide +kernel⟩
/-- An open sensor, one over the range, and the sensor that does not regulate. -/
theorem witness_SampleRegulates_fault :
    let b := frame 1 12 0 [0x48#8, 0#8, 0#8, 0#8]
    let other := frame 1 13 0 [0x48#8, 0#8, 0#8, 0#8]
    (zone14).Measures b (headerOf b) ⟨2, .openSensor, 0⟩
      ∧ (zone14).Measures (sample 12 2 6001) (headerOf (sample 12 2 6001)) (ok 2 6001)
      ∧ (zone14).Measures other (headerOf other) ⟨2, .openSensor, 0⟩
      ∧ (zone14).sensorOf 14 (headerOf b).src 2 = some .primary
      ∧ (zone14).sensorOf 14 (headerOf other).src 2 = some .backup
      ∧ (zone14).TakesAlone 14 (headerOf b).src 2 ∧ (zone14).TakesAlone 14 (headerOf other).src 2
      ∧ ((zone14).zone 14).active = .primary ∧ ((zone14).zoneEntry 14).backup = some ⟨13, 2⟩
      ∧ ((zone14).zone 14).backupLast = some ⟨.ok, 1500, 59800#32⟩
      ∧ ((zone14).timebase - 59800#32).toNat
        ≤ ((zone14).pressEntry 1).holdLimit * ((zone14).pressEntry 1).period
      ∧ ((zone14 fun c => { c with backupLast := none }).zone 14).backupLast = none :=
  ⟨measures_of (by decide +kernel), measures_of (by decide +kernel), measures_of (by decide +kernel),
    by decide +kernel, by decide +kernel, alone_of (by decide +kernel), alone_of (by decide +kernel),
    by decide +kernel⟩

theorem witness_OvertempEntry :
    (cure1).Measures (sample 12 2 2000) (headerOf (sample 12 2 2000)) (ok 2 2000)
    ∧ (cure1).sensorOf 14 (headerOf (sample 12 2 2000)).src 2 = some ((cure1).zone 14).active
    ∧ (cure1).TakesAlone 14 (headerOf (sample 12 2 2000)).src 2 ∧ ((cure1).zone 14).state = .regulating
    ∧ (((cure1).zoneEntry 14).limit : Int) ≤ (ok 2 2000).value :=
  ⟨measures_of (by decide +kernel), by decide +kernel, alone_of (by decide +kernel), by decide +kernel⟩

/-- OVERTEMP at 195.0 and 195.1 degrees, a LOST zone heard by its backup, and a DISABLED one. -/
theorem witness_OvertempEntry_returns :
    let s := zone14 fun c => { c with state := .overtemp }
    let t := zone14 fun c => { c with state := .lost }
    s.Measures (sample 12 2 1950) (headerOf (sample 12 2 1950)) (ok 2 1950)
      ∧ s.Measures (sample 12 2 1951) (headerOf (sample 12 2 1951)) (ok 2 1951)
      ∧ t.Measures (sample 13 2 1999) (headerOf (sample 13 2 1999)) (ok 2 1999)
      ∧ t.TakesAlone 14 (headerOf (sample 13 2 1999)).src 2 ∧ (s.zone 14).active = .primary
      ∧ t.sensorOf 14 (headerOf (sample 13 2 1999)).src 2 = some .backup
      ∧ ((s.zoneEntry 14).limit : Int) - 50 = 1950 ∧ (t.zone 14).state = .lost
      ∧ (s.zone 14).state = .overtemp ∧ ((cell).zone 14).state = .disabled :=
  ⟨measures_of (by decide +kernel), measures_of (by decide +kernel), measures_of (by decide +kernel),
    alone_of (by decide +kernel), by decide +kernel⟩

/-- Zone 14 as it accrues at a value of its accumulator. -/
def accruing (n : Nat) (t : Time) : State :=
  (cure1 fun c => { c with dwellMet := true }).modAccrual 14 fun a =>
    { a with accumulator := n, prevArrival := some t }

theorem witness_SampleAccrues :
    (cure1).Measures (sample 12 2 1500) (headerOf (sample 12 2 1500)) (ok 2 1500)
    ∧ (cure1).sensorOf 14 (headerOf (sample 12 2 1500)).src 2 = some ((cure1).zone 14).active
    ∧ (cure1).TakesAlone 14 (headerOf (sample 12 2 1500)).src 2
    ∧ ((cure1).cure 1).status = .accruing ∧ ((cure1).accrual 14).inclusion = .included
    ∧ ((cure1).cure 1).entryTime = some 55000#32 ∧ (cure1).boundRecipe 1 = some recipe2
    ∧ isUpper 14 = true ∧ ((cure1).cure 1).dwellMet = false :=
  ⟨measures_of (by decide +kernel), by decide +kernel, alone_of (by decide +kernel), by decide +kernel,
    by decide +kernel, by decide +kernel, by decide +kernel, by decide, by decide +kernel⟩
theorem witness_SampleAccrues_full :
    let s := accruing 4294967295 57999#32
    s.Measures (sample 12 2 1500) (headerOf (sample 12 2 1500)) (ok 2 1500)
      ∧ (s.accrual 14).inclusion = .included ∧ (s.cure 1).status = .accruing
      ∧ (s.accrual 14).accumulator = 4294967295 ∧ (s.pressEntry 1).maxGap < (s.timebase - 57999#32).toNat
      ∧ (s.cure 1).lost = false ∧ (s.cure 1).dwellMet = true :=
  ⟨measures_of (by decide +kernel), by decide +kernel⟩
/-- A lower zone that is INCLUDED. -/
theorem witness_SampleAccrues_lower :
    let s := (cure1).modZone 18 fun c => { c with state := .holding }
    let s := s.modTables fun t => { t with zones := t.zones.set 18 { entry14 with primary := some ⟨12, 3⟩ } }
    let s := s.modAccrual 18 fun a => { a with inclusion := .included }
    s.Measures (sample 12 3 1400) (headerOf (sample 12 3 1400)) (ok 3 1400)
      ∧ s.sensorOf 18 (headerOf (sample 12 3 1400)).src 3 = some (s.zone 18).active
      ∧ s.TakesAlone 18 (headerOf (sample 12 3 1400)).src 3 ∧ isUpper 18 = false
      ∧ (s.cure 1).status = .accruing ∧ (s.accrual 18).inclusion = .included :=
  ⟨measures_of (by decide +kernel), by decide +kernel, alone_of (by decide +kernel), by decide,
    by decide +kernel⟩

theorem witness_RateFactor : (unit1 .chargeWait).boundRecipe 1 = some recipe2 ∧ recipe2.rateTable < 4
    ∧ rate2.Pairwise (fun a b => a.temp < b.temp) ∧ (1299 : Int) < 1300
    ∧ rate2 = [⟨1300, 256⟩] ++ ⟨1400, 512⟩ :: ⟨1500, 1024⟩ :: [⟨1600, 2048⟩]
    ∧ rate2 = [⟨1300, 256⟩, ⟨1400, 512⟩, ⟨1500, 1024⟩] ++ [⟨1600, 2048⟩] := by decide +kernel

/-- What ZoneEnable calls configured. -/
theorem configured14 : (∃ a, ((cell).zoneEntry 14).primary = some a ∧ ((cell).node a.node).role = .thermo)
    ∧ (∃ h, ((cell).zoneEntry 14).heater = some h ∧ ((cell).node h.node).role = .heater)
    ∧ ∀ b, ((cell).zoneEntry 14).backup = some b → ((cell).node b.node).role = .thermo := by
  refine ⟨⟨⟨12, 2⟩, by decide +kernel⟩, ⟨⟨30, 2⟩, by decide +kernel⟩, ?_⟩
  intro b h
  have h13 : ((cell).zoneEntry 14).backup = some ⟨13, 2⟩ := by decide +kernel
  rw [h13] at h; cases h; decide +kernel

theorem witness_ZoneEnable_enabled :
    (zone14).Asked (req 4 [14#8, 0#8]) (headerOf (req 4 [14#8, 0#8])) (.zoneEnable (14 : ZoneNo).val)
    ∧ ((zone14).zone 14).state ≠ .disabled := ⟨asked_of (by decide +kernel), by decide +kernel⟩
theorem witness_ZoneEnable_configured :
    (cell).Asked (req 4 [14#8, 0#8]) (headerOf (req 4 [14#8, 0#8])) (.zoneEnable (14 : ZoneNo).val)
    ∧ ((cell).zone 14).state = .disabled := ⟨asked_of (by decide +kernel), by decide +kernel⟩
theorem witness_ZoneEnable_unconfigured :
    (cell).Asked (req 4 [0#8, 0#8]) (headerOf (req 4 [0#8, 0#8])) (.zoneEnable (0 : ZoneNo).val)
    ∧ ((cell).zone 0).state = .disabled ∧ ((cell).zoneEntry 0).primary = none :=
  ⟨asked_of (by decide +kernel), by decide +kernel⟩

theorem witness_ZoneDisable :
    (cell).Asked (req 4 [14#8, 1#8]) (headerOf (req 4 [14#8, 1#8])) (.zoneDisable (14 : ZoneNo).val)
    ∧ ((cell).zone 14).state = .disabled
    ∧ (cure1).Asked (req 4 [14#8, 1#8]) (headerOf (req 4 [14#8, 1#8])) (.zoneDisable (14 : ZoneNo).val)
    ∧ ((cure1).zone 14).state ≠ .disabled ∧ ((cure1).zoneEntry 14).heater = some ⟨30, 2⟩
    ∧ (cure1).portD.own.length < 16 ∧ (cure1).offWaits = false
    ∧ ((cure1).accrual 14).inclusion = .included ∧ ((cure1).cure 1).status = .accruing
    ∧ ¬∃ z', z' ≠ 14 ∧ pressOf z' = 1 ∧ (cure1).enabled z' = true :=
  ⟨asked_of (by decide +kernel), by decide +kernel, asked_of (by decide +kernel), by decide +kernel⟩
/-- Another zone of the press stays enabled, no cure accrues and Port D OWN is full. -/
theorem witness_ZoneDisable_full :
    let s := fillOwn .D 16 ((zone14).modZone 15 fun c => { c with state := .lost })
    s.Asked (req 4 [14#8, 1#8]) (headerOf (req 4 [14#8, 1#8])) (.zoneDisable (14 : ZoneNo).val)
      ∧ (s.zone 14).state ≠ .disabled ∧ 16 ≤ s.portD.own.length
      ∧ (∃ z', z' ≠ 14 ∧ pressOf z' = 1 ∧ s.enabled z' = true)
      ∧ (s.accrual 14).inclusion ≠ .included :=
  ⟨asked_of (by decide +kernel), by decide +kernel⟩

/-- A second INCLUDED zone of press 1, with what it has accrued. -/
def second (n : Nat) (s : State) : State :=
  let s := s.modTables fun t => { t with zones := t.zones.set 15 { entry14 with primary := some ⟨12, 3⟩ } }
  (s.modZone 15 fun c => { c with state := .regulating, fresh := true }).modAccrual 15 fun _ =>
    { inclusion := .included, accumulator := n, residue := 0, prevArrival := none }

/-- Zone 14 leaves a cure that its other zone takes on to its permit, keeps accruing, or had lost. -/
theorem witness_ZoneDisable_excludes :
    let s := second 3000 (accruing 882 59500#32)
    let t := after (.zoneControlDisable (req 4 [14#8, 1#8])) s
    let u := after (.zoneControlDisable (req 4 [14#8, 1#8])) (second 2999 (accruing 882 59500#32))
    (s.accrual 14).inclusion = .included ∧ (s.cure 1).status = .accruing ∧ (t.cure 1).status = .permitted
      ∧ (t.accrual 15).inclusion = .included ∧ (u.cure 1).status = .accruing
      ∧ ((after (.zoneControlDisable (req 4 [14#8, 1#8])) cure1).cure 1).lost = true := by decide +kernel

theorem witness_SetpointAndRestore :
    (cell).Asked (req 3 [14#8, 0#8, 0xFE#8, 0x0C#8]) (headerOf (req 3 [14#8, 0#8, 0xFE#8, 0x0C#8]))
      (.setSetpoint (14 : ZoneNo).val (-500))
    ∧ (unit1 .chargeWait).Asked (req 3 [14#8, 1#8]) (headerOf (req 3 [14#8, 1#8]))
      (.clearOverride (14 : ZoneNo).val)
    ∧ (unit1 .chargeWait).boundRecipe (pressOf 14) = some recipe2
    ∧ (cell).Asked (req 3 [14#8, 1#8]) (headerOf (req 3 [14#8, 1#8])) (.clearOverride (14 : ZoneNo).val)
    ∧ (cell).boundRecipe (pressOf 14) = none :=
  ⟨asked_of (by decide +kernel), asked_of (by decide +kernel), by decide +kernel, asked_of (by decide +kernel),
    by decide +kernel⟩
theorem witness_Restore :
    let s := zone14 fun c => { c with active := .backup, primaryLast := some ⟨.ok, 1500, 59900#32⟩ }
    let t := zone14 fun c => { c with active := .backup }
    s.Asked (req 4 [14#8, 2#8]) (headerOf (req 4 [14#8, 2#8])) (.zoneRestore (14 : ZoneNo).val)
      ∧ (s.zone 14).state ≠ .disabled ∧ (s.zone 14).state ≠ .lost ∧ (s.zone 14).active = .backup
      ∧ (∃ l, (s.zone 14).primaryLast = some l ∧ l.status = .ok)
      ∧ t.Asked (req 4 [14#8, 2#8]) (headerOf (req 4 [14#8, 2#8])) (.zoneRestore (14 : ZoneNo).val)
      ∧ (t.zone 14).primaryLast = none ∧ (t.zone 14).active = .backup
      ∧ (zone14).Asked (req 4 [14#8, 2#8]) (headerOf (req 4 [14#8, 2#8])) (.zoneRestore (14 : ZoneNo).val)
      ∧ ((zone14).zone 14).active = .primary ∧ ((cell).zone 14).state = .disabled :=
  ⟨asked_of (by decide +kernel), by decide +kernel, by decide +kernel, by decide +kernel,
    ⟨⟨.ok, 1500, 59900#32⟩, by decide +kernel, rfl⟩, asked_of (by decide +kernel), by decide +kernel,
    by decide +kernel, asked_of (by decide +kernel), by decide +kernel⟩

/-! ### Windows and timers -/

theorem witness_WindowEnd : (cell).Normal 40 ∧ ((cell).window 1).running = false
    ∧ (zone14).Normal 40 ∧ ((zone14).window 1).running = true
    ∧ ((zone14).window 1).start = some 59500#32
    ∧ ((zone14).timebase - 59500#32).toNat < ((zone14).window 1).period :=
  ⟨normal_of_calm (by decide +kernel), by decide +kernel, normal_of_calm (by decide +kernel),
    by decide +kernel⟩

/-- Zone 14 at a window end that is due, 1000 ms after its start. -/
def due14 (f : Zone → Zone := id) (s : State := { zone14 f with timebase := 60500#32 }) : State := s

theorem witness_WindowEnd_due : (due14).Normal 40 ∧ ((due14).window 1).start = some 59500#32
    ∧ ((due14).window 1).period ≤ ((due14).timebase - 59500#32).toNat ∧ (due14).enabled 14 = true
    ∧ ((due14).zone 14).fresh = false ∧ ((due14).zone 14).grace = false
    ∧ ((due14).zone 14).state ≠ .lost ∧ pressOf 0 ≠ 1 :=
  ⟨normal_of_calm (by decide +kernel), by decide +kernel⟩
/-- A fresh zone, which does not rise. -/
theorem witness_WindowEnd_fresh :
    ((due14 fun c => { c with fresh := true }).zone 14).fresh = true ∧ (due14).enabled 0 = false := by
  decide +kernel
/-- The primary is bad and the backup good: the zone switches. -/
theorem witness_WindowEnd_switch : (¬∃ l, ((due14).zone 14).primaryLast = some l ∧ l.status = .ok)
    ∧ ((due14).zone 14).active = .primary ∧ ((due14).zoneEntry 14).backup ≠ none
    ∧ ∃ l, ((due14).zone 14).backupLast = some l ∧ l.status = .ok
      ∧ ((59500#32 + BitVec.ofNat 32 1000 : Time) - l.arrival).toNat
        ≤ ((due14).pressEntry 1).holdLimit * ((due14).window 1).period := by
  refine ⟨fun ⟨l, h, _⟩ => ?_, by decide +kernel, by decide +kernel, ⟨.ok, 1500, 59800#32⟩, by decide +kernel,
    rfl, by decide +kernel⟩
  have : ((due14).zone 14).primaryLast = none := by decide +kernel
  rw [this] at h; cases h
/-- No backup: held until the hold limit, then lost. -/
theorem witness_WindowEnd_lost :
    let s := due14 fun c => { c with active := .backup, holdCount := 2 }
    let t := due14 fun c => { c with active := .backup }
    (s.zone 14).active = .backup ∧ (s.pressEntry 1).holdLimit ≤ min 15 ((s.zone 14).holdCount + 1)
      ∧ (t.zone 14).active = .backup ∧ min 15 ((t.zone 14).holdCount + 1) < (t.pressEntry 1).holdLimit := by
  decide +kernel

/-- Press 1 accrues, and its window end finds zone 14 at its hold limit. -/
def failing (s : State := accruing 882 59500#32) : State :=
  { s.modZone 14 fun c => { c with active := .backup, holdCount := 2 } with timebase := 60500#32 }

/-- Zone 14 falls from the cure: alone, beside a zone that goes on, and beside one that has its permit. -/
theorem witness_WindowEnd_falls :
    ((failing).accrual 14).inclusion = .included ∧ ((failing).zone 14).state ≠ .lost
    ∧ ((failing).cure 1).status = .accruing
    ∧ ((after (.windowEnd 1) failing).zone 14).state = .lost
    ∧ ((after (.windowEnd 1) failing).cure 1).lost = true
    ∧ ((after (.windowEnd 1) (failing (second 2999 (accruing 882 59500#32)))).cure 1).status = .accruing
    ∧ ((after (.windowEnd 1) (failing (second 2999 (accruing 882 59500#32)))).accrual 15).inclusion = .included
    ∧ ((after (.windowEnd 1) (failing (second 3000 (accruing 882 59500#32)))).cure 1).status = .permitted := by
  decide +kernel

/-- A cure whose record fills profile buffer 0. -/
def profiled (n next : Nat) : State :=
  ({ (cure1).modRecord 1 fun r => { r with profileBuffer := some 0 } with timebase := 60500#32 }).modProfile 1 0
    fun _ => { phase := .filling, tag := some 0, points := List.replicate n ⟨0, none, 0⟩, truncated := false
               nextDue := next, locked := false }

theorem witness_WindowEndSends : (profiled 0 6000).Normal 40 ∧ ((profiled 0 6000).window 1).running = true
    ∧ ((profiled 0 6000).window 1).start = some 59500#32
    ∧ ((profiled 0 6000).window 1).period ≤ ((profiled 0 6000).timebase - 59500#32).toNat
    ∧ (((profiled 0 6000).openRecord 1).bind fun r => r.profileBuffer) = some 0
    ∧ (profiled 0 6000).boundRecipe 1 = some recipe2 ∧ ((profiled 0 6000).cure 1).entryTime = some 55000#32
    ∧ ((profiled 0 6000).profile 1 0).phase = .filling
    ∧ (((after (.windowEnd 1) (profiled 0 6000)).cure 1).status = .accruing)
    ∧ (profiled 0 6000).portD.own.length + 1 ≤ 16
    ∧ ((60500#32 : Time) - 55000#32).toNat < ((profiled 0 6000).profile 1 0).nextDue
    ∧ ((profiled 119 5500).profile 1 0).nextDue ≤ ((60500#32 : Time) - 55000#32).toNat
    ∧ ((profiled 119 5500).profile 1 0).points.length < 120
    ∧ 120 ≤ ((profiled 120 5500).profile 1 0).points.length
    ∧ (let s := (profiled 119 5500).modZone 14 fun c => { c with measured := some 1453 }
       (((after (.windowEnd 1) s).profile 1 0).points.drop 119).map ProfilePoint.temps = [some (1453, 1453)]) :=
  ⟨normal_of_calm (by decide +kernel), by decide +kernel⟩

/-- The window's HEAT frame clears the off command of the output it carries; with Port D OWN full it is lost. -/
theorem witness_WindowEndSends_full :
    let s := due14 fun c => { c with offs := [⟨30, 2, false, 3⟩, ⟨30, 3, false, 4⟩] }
    let t := after (.windowEnd 1) s
    let u := after (.windowEnd 1) (fillOwn .D 16 s)
    (t.window 1).placed = 1 ∧ (t.zone 14).offs = [⟨30, 3, false, 4⟩] ∧ (u.window 1).lost = 1
      ∧ (u.zone 14).offs.length = 2 ∧ u.portD.ownDrops = 1 := by decide +kernel

/-- Press 1 in CURE, entered `age` ms ago, with a progress. -/
def aged (age progress : Nat) : State :=
  (cure1).modCure 1 fun c => { c with
    entryTime := some ((cure1).timebase - BitVec.ofNat 32 age), progress := progress }

theorem witness_TimerExpiries_cure : (cell).Normal 40 ∧ ((cell).cure 1).status ≠ .accruing
    ∧ (unit1 .chargeWait).boundRecipe 1 = some recipe2 ∧ (aged 4000 3000).Normal 40
    ∧ ((aged 4000 3000).cure 1).status = .accruing
    ∧ ((aged 4000 3000).cure 1).entryTime = some 56000#32
    ∧ recipe2.minDwell * 1000 ≤ ((aged 4000 3000).timebase - 56000#32).toNat
    ∧ ((aged 3999 0).timebase - 56001#32).toNat < recipe2.minDwell * 1000
    ∧ ((aged 4000 3000).cure 1).dwellMet = false ∧ ((aged 4000 3000).cure 1).lost = false
    ∧ recipe2.cureTarget * 1000 ≤ ((aged 4000 3000).cure 1).progress
    ∧ ¬recipe2.cureTarget * 1000 ≤ ((aged 4000 2999).cure 1).progress :=
  ⟨normal_of_calm (by decide +kernel), by decide +kernel, by decide +kernel,
    normal_of_calm (by decide +kernel), by decide +kernel⟩
theorem witness_TimerExpiries_maxCure :
    ((aged 60000 0).cure 1).entryTime = some 0#32
    ∧ recipe2.maxCure * 1000 ≤ ((aged 60000 0).timebase - 0#32).toNat
    ∧ ((aged 59999 0).timebase - 1#32).toNat < recipe2.maxCure * 1000 := by decide +kernel
theorem witness_TimerExpiries_close :
    ((unit1 .chargeWait).unit 1).state ≠ .closing ∧ ((cycle1 .closing).unit 1).state = .closing
    ∧ ((cycle1 .closing).unit 1).closeTimedOut = false
    ∧ ((cycle1 .closing).unit 1).closingEntry = some 55000#32
    ∧ ((cycle1 .closing).timebase - 55000#32).toNat < recipe2.closeTimeout * 1000
    ∧ recipe2.closeTimeout * 1000 ≤ ((70000#32 : Time) - 55000#32).toNat := by decide +kernel
theorem witness_TimerExpiries_lift :
    let s := scale1 .lifting fun c => { c with verdict := some accepted1, liftStart := some 59000#32 }
    let t := scale1 .lifting fun c => { c with verdict := some accepted1, liftStart := some 59001#32 }
    ((cell).scale 0).state ≠ .lifting ∧ s.Normal 40 ∧ (s.scale 0).state = .lifting
      ∧ (s.scale 0).liftStart = some 59000#32 ∧ (s.scale 0).liftTime ≤ (s.timebase - 59000#32).toNat
      ∧ (t.scale 0).liftStart = some 59001#32 ∧ (t.timebase - 59001#32).toNat < (t.scale 0).liftTime :=
  ⟨by decide +kernel, normal_of_calm (by decide +kernel), by decide +kernel⟩

/-! ### Scales -/

theorem steady_of {e : ScaleEntry} {w : List Int}
    (h : decide (w.length = e.windowN ∧ w ≠ [] ∧ ∀ a ∈ w, ∀ b ∈ w, a - b ≤ (e.settleBand : Int)) = true) :
    e.Steady w := by unfold ScaleEntry.Steady; exact of_decide_eq_true h

/-- Eight empty-pan values and the ninth. -/
def calmPan (v : Int) : List Int := List.replicate 7 v ++ [v]

/-- An empty scale 0 whose window is full. -/
def empty0 (v : Int) (f : Scale → Scale := id) : State :=
  scale1 .empty fun c => f { c with window := calmPan v }

theorem witness_WeighedLoad_empty :
    FormsA (empty0 40) 2037
    ∧ ((empty0 40).scale 0).state = .empty ∧ ((empty0 40).scale 0).tare = 37
    ∧ (((empty0 40).scaleEntry 0).loadThreshold : Int) ≤ 2037 - 37
    ∧ FormsA (empty0 40) 40
    ∧ ((empty0 40).scaleEntry 0).Steady (calmPan 40) ∧ ((empty0 40).scaleEntry 0).zeroTrack ≠ 0
    ∧ FormsA (empty0 100) 100
    ∧ (((empty0 100).scaleEntry 0).zeroTrack : Int) < |100 - ((empty0 100).scale 0).tare|
    ∧ ((empty0 100).scale 0).tareNoted = false
    ∧ ((empty0 100 fun c => { c with tareNoted := true }).scale 0).tareNoted = true
    ∧ ((scale1 .empty).scale 0).window.length + 1 ≠ ((scale1 .empty).scaleEntry 0).windowN :=
  ⟨formsA_of (by decide +kernel), by decide +kernel, by decide +kernel, by decide +kernel,
    formsA_of (by decide +kernel), steady_of (by decide +kernel), by decide +kernel,
    formsA_of (by decide +kernel), by decide +kernel⟩
theorem witness_WeighedLoad_overload :
    FormsA (scale1 .accepted fun c => { c with verdict := some accepted1 }) 300001
    ∧ (((scale1 .accepted).scaleEntry 0).capacity : Int) < 300001 :=
  ⟨formsA_of (by decide +kernel), by decide +kernel⟩

/-- Scale 0 as section 6.9 stands before its verdict. -/
def loading0 (f : Scale → Scale := id) : State := scale1 .loading fun c => f { c with window := window9 }

theorem witness_WeighedLoad_loading :
    FormsA (loading0) 24601
    ∧ ((loading0).scale 0).state = .loading ∧ ((loading0).scaleEntry 0).Steady (window9.drop 1 ++ [24601])
    ∧ (loading0).boundRecipe 1 = some recipe2 ∧ (loading0).portU.own.length < 15
    ∧ ((loading0).scale 0).queue = [{ press := 1, attempts := 0, joined := 50000#32 }]
    ∧ ((loading0 fun c => { c with queue := [] }).scale 0).queue = []
    ∧ FormsA (loading0) 536
    ∧ (536 : Int) - 37 < ((loading0).scaleEntry 0).emptyThreshold
    ∧ (((loading0).scaleEntry 0).emptyThreshold : Int) ≤ 537 - 37 :=
  ⟨formsA_of (by decide +kernel), by decide +kernel, steady_of (by decide +kernel), by decide +kernel,
    by decide +kernel, by decide +kernel, by decide +kernel, formsA_of (by decide +kernel),
    by decide +kernel⟩

/-- Scale 0 of two channels in a mode, with a held channel A value. -/
def paired (mode : ScaleMode) (st : ScaleState) (a : Option Int) (f : Scale → Scale := id) : State :=
  (scale1 st fun c => f { c with heldA := a.map fun v => { value := v, arrival := 59000#32 } }).modTables
    fun t => { t with scales := t.scales.set 0 { scale0 with mode := mode, channelB := some ⟨22, 1⟩ } }

/-- A SAMPLE of an entry of scale 0. -/
def ScaleEntryHeard (s : State) (bytes : List Byte) (e : ChannelEntry) : Prop :=
  s.FromNode bytes (headerOf bytes) .scale (0 : ScaleNo).val .sample
    ∧ sampleOf (headerOf bytes).payload = some [e]

theorem heard_of {s : State} {bytes : List Byte} {e : ChannelEntry}
    (h : (nodeTest s bytes .scale 0 .sample && decide (sampleOf (headerOf bytes).payload = some [e])) = true) :
    ScaleEntryHeard s bytes e := by
  simp only [Bool.and_eq_true, decide_eq_true_eq] at h
  exact ⟨fromNode_of h.1, h.2⟩

/-- Channel B completes a pair whose gross value is `g`. -/
theorem formsB_of {s : State} {v g : Int} {a : HeldValue}
    (h : (nodeTest s (sample 22 1 v) .scale 0 .sample
      && decide (sampleOf (headerOf (sample 22 1 v)).payload = some [ok 1 v])
      && decide ((s.scale 0).state ≠ .disabled ∧ (s.scaleEntry 0).channelA = some ⟨22, 0⟩
        ∧ (headerOf (sample 22 1 v)).src = 22 ∧ (s.scaleEntry 0).channelB = some ⟨22, 1⟩
        ∧ (s.scale 0).heldA = some a
        ∧ (((s.scaleEntry 0).mode = .sum ∧ g = a.value + v) ∨ ((s.scaleEntry 0).mode = .check
          ∧ |a.value - v| ≤ ((s.scaleEntry 0).checkBand : Int) ∧ (s.scale 0).state ≠ .mismatch
          ∧ g = (a.value + v).tdiv 2)))) = true) :
    s.Forms (sample 22 1 v) (headerOf (sample 22 1 v)) 0 (ok 1 v) g
      { s.scale 0 with lastB := some ⟨.ok, v, s.timebase⟩, heldA := none } := by
  simp only [Bool.and_eq_true, decide_eq_true_eq] at h
  obtain ⟨⟨h1, h2⟩, h3, h4, h5, h6, h7, h8⟩ := h
  refine ⟨fromNode_of h1, h2, rfl, h3, Or.inr ⟨?_, ?_, rfl, a, h7, h8⟩⟩
  · rw [h4, h5]; simp [ok]
  · rw [h6, h5]; rfl

theorem witness_WeighedLoad_pairs :
    (∃ c, (paired .sum .loading (some 2000)).Forms (sample 22 1 (-500)) (headerOf (sample 22 1 (-500))) 0
      (ok 1 (-500)) 1500 c)
    ∧ (∃ c, (paired .check .empty (some 50)).Forms (sample 22 1 0) (headerOf (sample 22 1 0)) 0 (ok 1 0) 25 c)
    ∧ FormsA (scale1 .overload) 30 ∧ FormsA (scale1 .overload) 300001
    ∧ ((scale1 .overload).scale 0).state = .overload :=
  ⟨⟨_, formsB_of (a := ⟨2000, 59000#32⟩) (by decide +kernel)⟩,
    ⟨_, formsB_of (a := ⟨50, 59000#32⟩) (by decide +kernel)⟩, formsA_of (by decide +kernel),
    formsA_of (by decide +kernel), by decide +kernel⟩
theorem witness_WeighedLoad_heads : (loading0).Heads ((loading0).scale 0) (some (1, recipe2))
    ∧ (loading0 fun c => { c with queue := [] }).Heads
      ((loading0 fun c => { c with queue := [] }).scale 0) none :=
  ⟨Or.inr ⟨_, [], recipe2, rfl, by decide +kernel, rfl⟩, Or.inl ⟨rfl, rfl⟩⟩
theorem witness_WeighedLoad_entries :
    let noA := frame 1 22 0 [0x08#8, 0#8, 0#8, 0#8]
    let noB := frame 1 22 0 [0x28#8, 0#8, 0#8, 0#8]
    let s := paired .check .mismatch (some 2000)
    ScaleEntryHeard s noA ⟨0, .openSensor, 0⟩ ∧ ScaleEntryHeard s noB ⟨1, .openSensor, 0⟩
      ∧ ScaleEntryHeard s (sample 22 2 9) (ok 2 9) ∧ ScaleEntryHeard s (sample 22 0 9) (ok 0 9)
      ∧ ScaleEntryHeard s (sample 22 1 2050) (ok 1 2050) ∧ ScaleEntryHeard s (sample 22 1 2051) (ok 1 2051) := by
  refine ⟨?_, ?_, ?_, ?_, ?_, ?_⟩ <;> exact heard_of (by decide +kernel)
theorem witness_WeighedLoad_mismatch :
    let s := paired .check .mismatch (some 2100)
    let t := paired .check .mismatch (some 2100) fun c => { c with agree := 7 }
    (s.scale 0).heldA = some ⟨2100, 59000#32⟩ ∧ ((s.scaleEntry 0).checkBand : Int) = |2100 - 2150|
      ∧ (s.scale 0).agree + 1 < 8 ∧ 8 ≤ (t.scale 0).agree + 1
      ∧ ((after (.scaleSample (sample 22 1 2150)) t).scale 0).state = .loading
      ∧ ((after (.scaleSample (sample 22 1 2151)) t).scale 0).state = .mismatch
      ∧ ((paired .check .loading none).scale 0).heldA = none
      ∧ ((paired .check .disabled none).scale 0).state = .disabled := by decide +kernel

theorem witness_Tare :
    (empty0 40).Asked (req 6 [0#8, 0#8]) (headerOf (req 6 [0#8, 0#8])) (.scaleTare (0 : ScaleNo).val)
    ∧ ((empty0 40).scale 0).state = .empty
    ∧ ((empty0 40).scaleEntry 0).Steady ((empty0 40).scale 0).window
    ∧ (loading0).Asked (req 6 [0#8, 0#8]) (headerOf (req 6 [0#8, 0#8])) (.scaleTare (0 : ScaleNo).val)
    ∧ ((loading0).scale 0).state ≠ .empty :=
  ⟨asked_of (by decide +kernel), by decide +kernel, steady_of (by decide +kernel),
    asked_of (by decide +kernel), by decide +kernel⟩

/-- Scale 0 under a verdict. -/
def judged (st : ScaleState) (k : VerdictKind := .accepted) : State :=
  scale1 st fun c => { c with verdict := some { accepted1 with kind := k } }

theorem witness_Release :
    FormsA (judged .accepted) 40
    ∧ (ok 0 40).value ≤ ((judged .accepted).scaleEntry 0).capacity
    ∧ ((judged .accepted).scale 0).verdict = some accepted1 ∧ ((judged .accepted).scale 0).tare = 37
    ∧ (40 : Int) - 37 < ((judged .accepted).scaleEntry 0).emptyThreshold
    ∧ (judged .accepted).boundRecipe 1 = some recipe2
    ∧ FormsA (judged .rejected .light) 40
    ∧ ((judged .rejected .light).scale 0).state = .rejected
    ∧ FormsA (judged .lifting .heavy) 40
    ∧ ((judged .lifting).scale 0).state = .lifting :=
  ⟨formsA_of (by decide +kernel), by decide +kernel, by decide +kernel, by decide +kernel, by decide +kernel,
    by decide +kernel, formsA_of (by decide +kernel), by decide +kernel, formsA_of (by decide +kernel),
    by decide +kernel⟩
theorem witness_Rests :
    FormsA (judged .accepted) 24619
    ∧ |(24619 : Int) - accepted1.mean| ≤ ((judged .accepted).scaleEntry 0).settleBand
    ∧ FormsA (judged .accepted) 24620
    ∧ (((judged .accepted).scaleEntry 0).settleBand : Int) < |24620 - accepted1.mean|
    ∧ (((judged .accepted).scaleEntry 0).emptyThreshold : Int) ≤ 24619 - 37 :=
  ⟨formsA_of (by decide +kernel), by decide +kernel, formsA_of (by decide +kernel), by decide +kernel⟩

/-- A load set down again in LIFTING is steady, or not yet; a new head is judged on the old mean. -/
theorem witness_Reload :
    let s := scale1 .lifting fun c => { c with
      window := window9, verdict := some accepted1, liftStart := some 59500#32 }
    FormsA s 24601 ∧ (s.scale 0).state = .lifting ∧ (s.scaleEntry 0).Steady (window9.drop 1 ++ [24601])
      ∧ ((s.scaleEntry 0).loadThreshold : Int) ≤ 24599 - (s.scale 0).tare
      ∧ (judged .lifting).live = true
      ∧ ((requeue 0 (fun _ => []) (judged .lifting)).scale 0).verdict.map Verdict.kind = some .noRequest
      ∧ ((requeue 0 (fun _ => []) (judged .lifting)).scale 0).state = .lifting
      ∧ ((requeue 0 (fun _ => []) (judged .rejected .light)).scale 0).state = .noRequest
      ∧ ((requeue 0 id (judged .accepted)).scale 0) = (judged .accepted).scale 0 :=
  ⟨formsA_of (by decide +kernel), by decide +kernel, steady_of (by decide +kernel), by decide +kernel⟩

/-! ### Press units -/

/-- PRESS_CONTROL of press 1 with an action. -/
def control (action : Byte) : List Byte := req 5 [1#8, action]

/-- Press 1's unit halting. -/
def halting (st : UnitState) : State := unit1 st fun u => { u with haltPending := true }

theorem witness_PressEnable : (cell).Asked (control 0) (headerOf (control 0)) (.pressEnable (1 : PressNo).val)
    ∧ ((cell).unit 1).state = .disabled
    ∧ (∃ a, a < 64 ∧ ((cell).node a).role = .press ∧ ((cell).node a).unit = (1 : PressNo).val)
    ∧ (cell).Asked (req 5 [0#8, 0#8]) (headerOf (req 5 [0#8, 0#8])) (.pressEnable (0 : PressNo).val)
    ∧ ¬(∃ a, a < 64 ∧ ((cell).node a).role = .press ∧ ((cell).node a).unit = (0 : PressNo).val)
    ∧ (halting .cure).Asked (control 0) (headerOf (control 0)) (.pressEnable (1 : PressNo).val)
    ∧ ((halting .cure).unit 1).haltPending = true ∧ ((unit1 .chargeWait).unit 1).haltPending = false :=
  ⟨asked_of (by decide +kernel), by decide +kernel, ⟨20, by decide +kernel⟩, asked_of (by decide +kernel),
    by decide +kernel, asked_of (by decide +kernel), by decide +kernel⟩
theorem witness_PressDisable :
    ([UnitState.disabled, .idle, .chargeWait, .chargeReady, .cure, .fault].all fun st =>
      askedTest (unit1 st) (control 1) (.pressDisable 1) && decide (((unit1 st).unit 1).state = st)) = true
    ∧ (unit1 .idle).Asked (control 1) (headerOf (control 1)) (.pressDisable (1 : PressNo).val)
    ∧ UnitState.inCycle .cure = true := ⟨by decide +kernel, asked_of (by decide +kernel), rfl⟩
theorem witness_PressReset :
    (cell).Asked (control 2) (headerOf (control 2)) (.pressReset (1 : PressNo).val)
    ∧ (unit1 .idle).Asked (control 2) (headerOf (control 2)) (.pressReset (1 : PressNo).val)
    ∧ (cure1).Asked (control 2) (headerOf (control 2)) (.pressReset (1 : PressNo).val)
    ∧ ((cure1).unit 1).state = .cure
    ∧ (eject1 .runToA).Asked (control 2) (headerOf (control 2)) (.pressReset (1 : PressNo).val)
    ∧ ((eject1 .runToA).unit 1).state = .eject ∧ ((eject1 .runToA).ejector 1).node = some 21
    ∧ (scale1 .empty).Asked (control 2) (headerOf (control 2)) (.pressReset (1 : PressNo).val)
    ∧ ((scale1 .empty).unit 1).state = .chargeWait
    ∧ (ready1).Asked (control 2) (headerOf (control 2)) (.pressReset (1 : PressNo).val) :=
  ⟨asked_of (by decide +kernel), asked_of (by decide +kernel), asked_of (by decide +kernel),
    by decide +kernel, asked_of (by decide +kernel), by decide +kernel, by decide +kernel,
    asked_of (by decide +kernel), by decide +kernel, asked_of (by decide +kernel)⟩
theorem witness_PressReset_laws : (cure1).UnitLaw 1 ∧ (eject1 .runToA).UnitLaw 1 ∧ (scale1 .empty).UnitLaw 1
    ∧ (ready1).UnitLaw 1 := by unfold State.UnitLaw; decide +kernel
/-- Press 1 leaves the queue it heads, and its load is judged again for press 2. -/
theorem witness_LeavesQueue :
    let s := (scale1 .accepted fun c => { c with
      verdict := some accepted1, queue := [⟨1, 1, 50000#32⟩, ⟨2, 0, 51000#32⟩] }).modUnit 2 fun u =>
        { u with state := .chargeWait, binding := some ⟨2, 3310⟩ }
    let t := after (.pressControlReset (control 2)) s
    (s.unit 1).state = .chargeWait ∧ s.boundRecipe 2 = some recipe2
      ∧ (t.scale 0).queue = [⟨2, 1, 51000#32⟩] ∧ (t.scale 0).verdict = some { accepted1 with press := some 2 }
      ∧ t.scale 1 = s.scale 1 := by decide +kernel
theorem witness_ForceDemould :
    (cell).Asked (control 3) (headerOf (control 3)) (.forceDemould (1 : PressNo).val)
    ∧ ((cell).unit 1).state ≠ .cure
    ∧ (cure1).Asked (control 3) (headerOf (control 3)) (.forceDemould (1 : PressNo).val)
    ∧ ((cure1).cure 1).status = .accruing :=
  ⟨asked_of (by decide +kernel), by decide +kernel, asked_of (by decide +kernel), by decide +kernel⟩

/-- Press 1's unit IDLE, in a cell with changed tables. -/
def idle1 (f : Tables → Tables := id) (s : State := zone14) : State :=
  (s.modTables f).modUnit 1 fun u => { u with state := .idle }

/-- A frame of press 1 that reports mould 3310. -/
def mounted : List Byte := press 0 0 3310 1

theorem witness_BindingAttempt :
    (idle1).FromNode mounted (headerOf mounted) .press (1 : PressNo).val .status
    ∧ pressReportOf (headerOf mounted).payload (idle1).timebase = some (report .openFull 0 3310 true)
    ∧ ((idle1).unit 1).state = .idle ∧ (idle1).slotFor 3310 = some ⟨3310, 2⟩ ∧ (2 : Nat) < 32
    ∧ (idle1).tables.recipes[2] = recipe2 ∧ ((idle1).rateOf recipe2).length = 4
    ∧ ∃ z, pressOf z = 1 ∧ (idle1).enabled z = true ∧ ((idle1).zoneEntry z).cureReference = true :=
  ⟨fromNode_of (by decide +kernel), by decide +kernel, by decide +kernel, by decide +kernel,
    by decide +kernel, by decide +kernel, by decide +kernel, 14, by decide +kernel⟩
theorem witness_BindingAttempt_unknown :
    (idle1).FromNode (press 0 0 3311 1) (headerOf (press 0 0 3311 1)) .press (1 : PressNo).val .status
    ∧ (∀ m ∈ (idle1).tables.moulds.toList, m.mould ≠ 3311)
    ∧ (idle1).FromNode (press 0 0 0 1) (headerOf (press 0 0 0 1)) .press (1 : PressNo).val .status :=
  ⟨fromNode_of (by decide +kernel), by decide +kernel, fromNode_of (by decide +kernel)⟩
theorem witness_BindingAttempt_fails :
    let other := idle1 fun t => { t with moulds := t.moulds.set 4 ⟨3310, 5⟩ }
    let short := idle1 fun t => { t with rates := t.rates.set 2 [⟨1300, 256⟩] }
    let plain := idle1 id cell
    other.slotFor 3310 = some ⟨3310, 5⟩ ∧ other.tables.recipes[5].valid = false
      ∧ (short.rateOf recipe2).length < 2
      ∧ plain.FromNode mounted (headerOf mounted) .press (1 : PressNo).val .status
      ∧ ¬∃ z, pressOf z = 1 ∧ plain.enabled z = true ∧ (plain.zoneEntry z).cureReference = true :=
  ⟨by decide +kernel, by decide +kernel, by decide +kernel, fromNode_of (by decide +kernel),
    by decide +kernel⟩
theorem witness_BindingAttempt_overridden :
    let s := idle1 id (zone14 fun c => { c with overridden := true })
    (s.zone 14).overridden = true ∧ ((idle1).zone 14).overridden = false := by decide +kernel

/-- Another mould under a unit that waits for its charge, and under one that holds it. -/
theorem witness_BindingAttempt_change :
    let b := press 0 0 3311 1
    (unit1 .chargeWait).FromNode b (headerOf b) .press (1 : PressNo).val .status
      ∧ (ready1).FromNode b (headerOf b) .press (1 : PressNo).val .status
      ∧ pressReportOf (headerOf b).payload (ready1).timebase = some (report .openFull 0 3311 true)
      ∧ ((unit1 .chargeWait).unit 1).binding = some ⟨2, 3310⟩
      ∧ ((unit1 .chargeWait).unit 1).state = .chargeWait ∧ ((ready1).unit 1).state = .chargeReady
      ∧ ((ready1).unit 1).binding = some ⟨2, 3310⟩ :=
  ⟨fromNode_of (by decide +kernel), fromNode_of (by decide +kernel), by decide +kernel⟩

theorem witness_PressureBeginsCure :
    (cycle1 .closing).FromNode (press 2 1500 3310 0) (headerOf (press 2 1500 3310 0)) .press
      (1 : PressNo).val .status
    ∧ pressReportOf (headerOf (press 2 1500 3310 0)).payload (cycle1 .closing).timebase
      = some (report .closedPressure 1500 3310 false)
    ∧ (cycle1 .closing).FromNode (press 2 1499 3310 0) (headerOf (press 2 1499 3310 0)) .press
      (1 : PressNo).val .status
    ∧ ((cycle1 .closing).unit 1).state = .closing
    ∧ ((cycle1 .closing).unit 1).binding = some ⟨2, 3310⟩
    ∧ ((cycle1 .closing).unit 1).charge = some charge ∧ ((cycle1 .closing).openRecord 1).isSome = true
    ∧ ((cycle1 .closing).unit 1).closeTimedOut = false ∧ recipe2.minTonnage = 1500 ∧ 1 ≤ recipe2.cureTarget :=
  ⟨fromNode_of (by decide +kernel), by decide +kernel, fromNode_of (by decide +kernel), by decide +kernel⟩
/-- A LOST reference zone, and a charge that waited too long. -/
theorem witness_PressureBeginsCure_lost :
    let s := (cycle1 .closing).modZone 14 fun c => { c with state := .lost }
    s.FromNode (press 2 65535 0 0) (headerOf (press 2 65535 0 0)) .press (1 : PressNo).val .status
      ∧ (s.zone 14).state = .lost ∧ (s.zoneEntry 14).cureReference = true
      ∧ recipe2.loadLimit * 1000 < ((80000#32 : Time) - charge.release).toNat :=
  ⟨fromNode_of (by decide +kernel), by decide +kernel⟩

/-- Another mould and a lost pressure in each state of a cycle. -/
theorem witness_PressureBeginsCure_mould :
    let b := press 0 1499 3311 0
    ([UnitState.demouldWait, .eject, .cure, .closing, .opening, .unload].all fun st =>
      nodeTest (cycle1 st) b .press 1 .status && !((cycle1 st).unit 1).mouldChanged
        && decide (((cycle1 st).unit 1).binding = some ⟨2, 3310⟩)) = true
      ∧ pressReportOf (headerOf b).payload (cycle1 .cure).timebase = some (report .openFull 1499 3311 false)
      ∧ (cycle1 .cure).FromNode b (headerOf b) .press (1 : PressNo).val .status ∧ 1499 < recipe2.minTonnage :=
  ⟨by decide +kernel, by decide +kernel, fromNode_of (by decide +kernel), by decide⟩

/-- Press 1 in a state past its cure. -/
def past (st : UnitState) (f : PressUnit → PressUnit := id) : State := cycle1 st f

theorem witness_Unload :
    (past .unload).FromNode (press 0 0 3310 0) (headerOf (press 0 0 3310 0)) .press (1 : PressNo).val .status
    ∧ pressReportOf (headerOf (press 0 0 3310 0)).payload (past .unload).timebase
      = some (report .openFull 0 3310 false)
    ∧ (past .unload).FromNode mounted (headerOf mounted) .press (1 : PressNo).val .status
    ∧ pressReportOf (headerOf mounted).payload (past .unload).timebase
      = some (report .openFull 0 3310 true)
    ∧ ((past .unload).unit 1).binding = some ⟨2, 3310⟩ ∧ ((past .unload).unit 1).state = .unload
    ∧ ((past .unload).unit 1).haltPending = false ∧ ((past .unload).unit 1).mouldChanged = false
    ∧ ((past .unload fun u => { u with haltPending := true }).unit 1).haltPending = true
    ∧ ((past .unload fun u => { u with mouldChanged := true }).unit 1).mouldChanged = true :=
  ⟨fromNode_of (by decide +kernel), by decide +kernel, fromNode_of (by decide +kernel), by decide +kernel⟩
theorem witness_Unload_laws : (past .unload).UnitLaw 1
    ∧ (past .unload fun u => { u with haltPending := true }).UnitLaw 1
    ∧ (past .unload fun u => { u with mouldChanged := true, aborted := true }).UnitLaw 1 := by
  unfold State.UnitLaw; decide +kernel
theorem witness_Opening :
    (past .opening).FromNode mounted (headerOf mounted) .press (1 : PressNo).val .status
    ∧ ((past .opening).unit 1).state = .opening ∧ ((past .opening).unit 1).aborted = false
    ∧ ((past .opening fun u => { u with aborted := true }).unit 1).aborted = true ∧ 0 < recipe2.ejectA
    ∧ (past .opening).FromNode (press 3 0 3310 0) (headerOf (press 3 0 3310 0)) .press (1 : PressNo).val .status
    ∧ ((past .opening).modTables fun t =>
        { t with recipes := t.recipes.set 2 { recipe2 with ejectA := 0 } }).tables.recipes[2].ejectA = 0 :=
  ⟨fromNode_of (by decide +kernel), by decide +kernel, by decide +kernel, by decide +kernel, by decide +kernel,
    fromNode_of (by decide +kernel), by decide +kernel⟩

/-! ### Ejection -/

theorem witness_EjectionControl : (eject1 .runToA).Normal 40
    ∧ ((eject1 .runToA).ejector 1).timerStart = some 59000#32
    ∧ ((eject1 .runToA).ejector 1).compareA ≤ ((eject1 .runToA).timebase - 59000#32).toNat
    ∧ ((59499#32 : Time) - 59000#32).toNat < ((eject1 .runToA).ejector 1).compareA
    ∧ ((eject1 .runToA).timebase - 59000#32).toNat < ((eject1 .runToA).ejector 1).compareB
    ∧ ((eject1 .runToB fun e => { e with compareB := 1000 }).ejector 1).compareB
      ≤ ((eject1 .runToB).timebase - 59000#32).toNat
    ∧ ((eject1 .runToB).ejector 1).phase = .runToB ∧ ((eject1 .runToB).ejector 1).setup = false
    ∧ ((eject1 .runToB fun e => { e with setup := true }).ejector 1).setup = true
    ∧ ((eject1 .runToB).ejector 1).node = some 21 ∧ (eject1 .runToB).portD.own.length < 16
    ∧ (eject1 .runToB).offWaits = false ∧ 16 ≤ (fillOwn .D 16 (eject1 .runToB)).portD.own.length
    ∧ ((eject1 .runToB fun e => { e with node := none }).ejector 1).node = none :=
  ⟨normal_of_calm (by decide +kernel), by decide +kernel⟩
theorem witness_EjectionRequests :
    (eject1 .heldAtA).Asked (control 4) (headerOf (control 4)) (.setupOn (1 : PressNo).val)
    ∧ (eject1 .heldAtA).Asked (control 5) (headerOf (control 5)) (.setupOff (1 : PressNo).val)
    ∧ (eject1 .heldAtA).Asked (control 6) (headerOf (control 6)) (.step (1 : PressNo).val)
    ∧ ((eject1 .heldAtA).ejector 1).phase = .heldAtA
    ∧ (eject1 .heldAtB).Asked (control 6) (headerOf (control 6)) (.step (1 : PressNo).val)
    ∧ ((eject1 .heldAtB).ejector 1).phase = .heldAtB ∧ ((cell).ejector 1).phase = .stopped
    ∧ (cell).Asked (control 6) (headerOf (control 6)) (.step (1 : PressNo).val) :=
  ⟨asked_of (by decide +kernel), asked_of (by decide +kernel), asked_of (by decide +kernel),
    by decide +kernel, asked_of (by decide +kernel), by decide +kernel, by decide +kernel,
    asked_of (by decide +kernel)⟩

theorem witness_EjectorForce :
    (eject1 .runToB).FromNode (force 350) (headerOf (force 350)) .ejector (1 : PressNo).val .status
    ∧ ejectorReportOf (headerOf (force 350)).payload (eject1 .runToB).timebase = some (forced 350)
    ∧ ((eject1 .runToB).ejector 1).phase = .runToB ∧ ((eject1 .runToB).ejector 1).peak = none
    ∧ ((eject1 .runToB).ejector 1).stuckForce = 350
    ∧ ((eject1 .runToB fun e => { e with peak := some 350 }).ejector 1).peak = some 350
    ∧ (eject1 .runToB).FromNode (force 351) (headerOf (force 351)) .ejector (1 : PressNo).val .status
    ∧ ((eject1 .runToB).ejector 1).node = some 21
    ∧ (eject1 .runToB).history.openRecord[(1 : PressNo)] = some 0
    ∧ ((eject1 .runToB).history.slots[(0 : Fin 512)]).isSome = true
    ∧ ((eject1 .runToA).ejector 1).phase = .runToA :=
  ⟨fromNode_of (by decide +kernel), by decide +kernel, by decide +kernel, by decide +kernel, by decide +kernel,
    by decide +kernel, fromNode_of (by decide +kernel), by decide +kernel⟩

/-! ### History and export -/

theorem witness_RecordJudgements_record : (record1 (1#17 <<< 11)).flags.getLsbD 11 = true
    ∧ (record1 (1#17 <<< 4)).flags.getLsbD 4 = true ∧ (record1 0).flags.getLsbD 4 = false
    ∧ (record1 2).flags.getLsbD 1 = true ∧ (record1 2).flags.getLsbD 9 = false := by decide +kernel
theorem witness_RecordJudgements_admission :
    let overwriting (u : Nat) : State :=
      ((cure1).modTables fun t => { t with cell := { t.cell with policy := .overwrite } }).modHistory
        fun h => { h with unread := u }
    (overwriting 0).tables.cell.policy = .overwrite ∧ (overwriting 0).history.exhausted = false
      ∧ (overwriting 0).history.unread ≠ 512 ∧ (overwriting 512).history.unread = 512
      ∧ (((overwriting 512).history.slots[(overwriting 512).history.readCursor]).map Record.state) = some .opened
      ∧ (cell).tables.cell.policy = .hold := by decide +kernel
theorem witness_RecordJudgements_export :
    ({ record1 with outcome := some .suspect } : Record).outcome = some .suspect := rfl

theorem witness_RecordJudgements_close : (past .unload).history.openRecord[(1 : PressNo)] = some 0
    ∧ (((past .unload).modRecord 1 fun r => { r with profileBuffer := none }).openRecord 1).map
        Record.profileBuffer = some none
    ∧ ((profiled 0 0).openRecord 1).map Record.profileBuffer = some (some 0) := by decide +kernel

/-- The export of everything that is enabled. -/
def open16 (s : State) : State := s.modTables fun t => { t with exports := { t.exports with enable := true } }

theorem witness_RecordJudgements_queue :
    let r := { record1 with state := .closed, outcome := some .good }
    exportPasses (cell).tables.exports r = false ∧ exportPasses (open16 cell).tables.exports r = true
      ∧ (open16 cell).exportQueue.length < 16 ∧ (open16 (exporting 12)).portU.own.length ≤ 12
      ∧ 12 < (open16 (exporting 13)).portU.own.length ∧ (open16 (exporting 12)).warmTaking = false
      ∧ (open16 (exporting 12)).live = true
      ∧ 16 ≤ { open16 cell with exportQueue := List.replicate 16 0 }.exportQueue.length := by decide +kernel

/-- READ_HISTORY. -/
def readBytes (start serial n : Byte) : List Byte := req 8 [start, 0#8, 0#8, 0#8, serial, n]

theorem witness_ReadHistory :
    (two).Asked (readBytes 0 0 2) (headerOf (readBytes 0 0 2)) (.readHistory none 2)
    ∧ (two).Asked (readBytes 0 0 0) (headerOf (readBytes 0 0 0)) (.readHistory none 0)
    ∧ (two).Asked (readBytes 0 0 3) (headerOf (readBytes 0 0 3)) (.readHistory none 3)
    ∧ (two).Asked (readBytes 1 1 2) (headerOf (readBytes 1 1 2)) (.readHistory (some 1) 2)
    ∧ (two).Asked (readBytes 1 7 1) (headerOf (readBytes 1 7 1)) (.readHistory (some 7) 1)
    ∧ (cell).Asked (readBytes 0 0 1) (headerOf (readBytes 0 0 1)) (.readHistory none 1)
    ∧ (cell).history.unread = 0 :=
  ⟨asked_of (by decide +kernel), by
    refine ⟨asked_of ?_, asked_of ?_, asked_of ?_, asked_of ?_, asked_of ?_, ?_⟩ <;> decide +kernel⟩
theorem witness_ReadHistory_slots : (two).history.unread ≠ 0
    ∧ ((two).history.slots[(two).history.readCursor]).map Record.serial = some 0
    ∧ nextSlot 0 ≠ (two).history.writePos ∧ ((two).history.slots[nextSlot 0]).isSome = true
    ∧ nextSlot 1 = (two).history.writePos := by decide +kernel
theorem witness_ReadHistory_serial :
    (∀ i : Fin 512, ((two).history.slots[i].all fun r => r.serial != 7) = true)
    ∧ ∀ i : Fin 512, ((two).history.slots[i].all fun r => r.serial != 1 || i.val == 1) = true :=
  ⟨forall_index (fun (o : Option Record) _ => o.all fun r => r.serial != 7) (by decide +kernel),
    forall_index (fun (o : Option Record) j => o.all fun r => r.serial != 1 || j == 1) (by decide +kernel)⟩

theorem witness_AdvanceRead :
    (two).Asked (req 9 [0#8, 2#8]) (headerOf (req 9 [0#8, 2#8])) (.advanceRead 2)
    ∧ (two).Asked (req 9 [0#8, 0#8]) (headerOf (req 9 [0#8, 0#8])) (.advanceRead 0)
    ∧ (two).Asked (req 9 [2#8, 1#8]) (headerOf (req 9 [2#8, 1#8])) (.advanceRead 513)
    ∧ (two).Asked (req 9 [2#8, 0#8]) (headerOf (req 9 [2#8, 0#8])) (.advanceRead 512) :=
  ⟨asked_of (by decide +kernel), asked_of (by decide +kernel), asked_of (by decide +kernel),
    asked_of (by decide +kernel)⟩

theorem witness_SetSerialBase :
    (cure1).Asked (req 10 [0#8, 0#8, 0#8, 9#8]) (headerOf (req 10 [0#8, 0#8, 0#8, 9#8])) (.setSerialBase 9)
    ∧ (∃ p : PressNo, (cure1).history.openRecord[p] ≠ none)
    ∧ (two).Asked (req 10 [0#8, 0#8, 0#8, 1#8]) (headerOf (req 10 [0#8, 0#8, 0#8, 1#8])) (.setSerialBase 1)
    ∧ (¬∃ p : PressNo, (two).history.openRecord[p] ≠ none)
    ∧ ((two).history.slots[prevSlot (two).history.writePos]).map Record.serial = some 1
    ∧ (two).Asked (req 10 [0#8, 0#8, 0#8, 2#8]) (headerOf (req 10 [0#8, 0#8, 0#8, 2#8])) (.setSerialBase 2)
    ∧ (cell).history.slots[prevSlot (cell).history.writePos] = none :=
  ⟨asked_of (by decide +kernel), by decide +kernel, asked_of (by decide +kernel), by decide +kernel,
    by decide +kernel, asked_of (by decide +kernel), by decide +kernel⟩

theorem witness_ProfileRequests :
    (profiled 0 0).Asked (req 11 [1#8, 0#8]) (headerOf (req 11 [1#8, 0#8]))
      (.lockProfile (1 : PressNo).val (0 : Fin 2).val)
    ∧ ((profiled 0 0).profile 1 0).phase = .filling
    ∧ (cell).Asked (req 11 [1#8, 0#8]) (headerOf (req 11 [1#8, 0#8]))
      (.lockProfile (1 : PressNo).val (0 : Fin 2).val)
    ∧ ((cell).profile 1 0).phase ≠ .filling
    ∧ (cell).Asked (req 12 [1#8, 1#8]) (headerOf (req 12 [1#8, 1#8]))
      (.unlockProfile (1 : PressNo).val (1 : Fin 2).val) :=
  ⟨asked_of (by decide +kernel), by decide +kernel, asked_of (by decide +kernel), by decide +kernel,
    asked_of (by decide +kernel)⟩
theorem witness_ReadProfile :
    let s := (profiled 3 0).modProfile 1 0 fun x => { x with locked := true }
    s.Asked (req 13 [1#8, 0#8, 3#8, 24#8]) (headerOf (req 13 [1#8, 0#8, 3#8, 24#8]))
      (.readProfile (1 : PressNo).val (0 : Fin 2).val 3 24)
    ∧ (s.profile 1 0).locked = true ∧ (s.profile 1 0).points.length = 3
    ∧ s.Asked (req 13 [1#8, 0#8, 4#8, 1#8]) (headerOf (req 13 [1#8, 0#8, 4#8, 1#8]))
      (.readProfile (1 : PressNo).val (0 : Fin 2).val 4 1)
    ∧ s.Asked (req 13 [1#8, 0#8, 0#8, 25#8]) (headerOf (req 13 [1#8, 0#8, 0#8, 25#8]))
      (.readProfile (1 : PressNo).val (0 : Fin 2).val 0 25)
    ∧ ((profiled 3 0).profile 1 0).locked = false :=
  ⟨asked_of (by decide +kernel), by decide +kernel, by decide +kernel, asked_of (by decide +kernel),
    asked_of (by decide +kernel), by decide +kernel⟩

theorem witness_ExportMove : (cell).Normal 40 ∧ (cell).exportQueue = [] ∧ (exporting 12).Normal 40
    ∧ (exporting 12).exportQueue = [0] ∧ (exporting 12).portU.own.length ≤ 12
    ∧ (exporting 12).warmTaking = false ∧ 12 < (exporting 13).portU.own.length
    ∧ ((exporting 12).history.slots[(0 : Fin 512)].map Record.serial) = some 0
    ∧ ∀ i : Fin 512, ((exporting 12).history.slots[i].all fun r => r.serial != 0 || i.val == 0) = true :=
  ⟨normal_of_calm (by decide +kernel), by decide +kernel, normal_of_calm (by decide +kernel),
    by decide +kernel, by decide +kernel, by decide +kernel, by decide +kernel, by decide +kernel,
    forall_index (fun (o : Option Record) j => o.all fun r => r.serial != 0 || j == 0) (by decide +kernel)⟩

theorem witness_OffPlacement : (owing true).Normal 40 ∧ (owing true).portD.own.length < 16
    ∧ ((owing true).ejector 1).offOwed = some ⟨21, false, 5⟩
    ∧ (∀ q : PressNo, q < 1 → ((owing true).ejector q).offOwed = none) ∧ (owing false).Normal 40
    ∧ (∀ q, ((owing false).ejector q).offOwed = none)
    ∧ (∀ z' : ZoneNo, z' < 14 → ((owing false).zone z').offs = [])
    ∧ ((owing false).zone 14).offs = [⟨30, 1, true, 3⟩] ++ ⟨30, 2, false, 4⟩ :: []
    ∧ (cell).offWaits = false ∧ 16 ≤ (fillOwn .D 16 (owing true)).portD.own.length :=
  ⟨normal_of_calm (by decide +kernel), by decide +kernel, by decide +kernel, by decide +kernel,
    normal_of_calm (by decide +kernel), by decide +kernel⟩

/-! ### Events -/

theorem witness_RaisingAnEvent : passive.live = false ∧ (cure1).live = true ∧ (cure1).warmTaking = false
    ∧ (cure1).portU.own.length < 16 ∧ ((cure1).openRecord 1).isSome = true ∧ pressOf 14 = 1 := by
  decide +kernel

/-- A kind that pends with Port U OWN full: the EVENT frame is dropped, and LINK_DROP is raised once. -/
theorem witness_RaisingAnEvent_full :
    let s := fillOwn .U 16 { cell with events := (cell).events.map fun e => { e with enable := true } }
    let t := raiseNow .chargeReject (.scale 0) s
    s.live = true ∧ s.warmTaking = false ∧ 16 ≤ s.portU.own.length ∧ s.attention = false
      ∧ t.attention = true ∧ t.portU.own = s.portU.own ∧ t.portU.ownDrops = 1
      ∧ (t.events[1]).count = 1 ∧ (t.events[1]).first = 0 ∧ (t.events[9]).raw = true := by decide +kernel
/-- A scale's event is noted in the record of the press bound to a recipe that names the scale, a port's nowhere. -/
theorem witness_RaisingAnEvent_notes :
    ((cycle1 .closing).boundRecipe 1).map Recipe.scale = some 0
      ∧ (cycle1 .closing).history.openRecord[(1 : PressNo)] = some 0
      ∧ (∀ q : PressNo, q ≠ 1 → (cycle1 .closing).history.openRecord[q] ≠ some 0)
      ∧ ((raiseNow .chargeReject (.scale 0) (cycle1 .closing)).openRecord 1).map Record.notes =
        some [⟨60000#32, .chargeReject, 0⟩]
      ∧ ((raiseNow .linkDrop (.port .U) (cycle1 .closing)).openRecord 1).map Record.notes = some [] := by
  decide +kernel

theorem witness_EventRequests : (cell).AttentionLaw
    ∧ (cell).Asked (req 15 [1#8, 255#8, 255#8, 255#8]) (headerOf (req 15 [1#8, 255#8, 255#8, 255#8]))
      (.clearEvents 0x1FFFFFF#32)
    ∧ (0x1FFFFFF#32).toNat < 2 ^ 25
    ∧ (cell).Asked (req 15 [2#8, 0#8, 0#8, 0#8]) (headerOf (req 15 [2#8, 0#8, 0#8, 0#8]))
      (.clearEvents 0x2000000#32)
    ∧ 2 ^ 25 ≤ (0x2000000#32).toNat
    ∧ (cell).Asked (req 16 [0#8, 0#8, 0#8, 2#8]) (headerOf (req 16 [0#8, 0#8, 0#8, 2#8]))
      (.setEventEnable 2#32)
    ∧ (cell).Asked (req 16 [2#8, 0#8, 0#8, 0#8]) (headerOf (req 16 [2#8, 0#8, 0#8, 0#8]))
      (.setEventEnable 0x2000000#32)
    ∧ (cell).Asked (req 14 []) (headerOf (req 14 [])) .readEvents ∧ (cell).portU.own.length < 16 :=
  ⟨by unfold State.AttentionLaw; decide +kernel, asked_of (by decide +kernel), by decide +kernel,
    asked_of (by decide +kernel), by decide +kernel, asked_of (by decide +kernel), asked_of (by decide +kernel),
    asked_of (by decide +kernel), by decide +kernel⟩

/-! ### Tables and status -/

/-- WRITE_TABLE of one Recipe entry at an index. -/
def writeRecipe (i : Byte) (r : Recipe) : List Byte := req 2 ([2#8, i, 1#8] ++ recipeBytes r)

/-- WRITE_TABLE of one Press entry at an index. -/
def writePress (i : Byte) (e : PressEntry) : List Byte := req 2 ([6#8, i, 1#8] ++ pressEntryBytes e)

theorem witness_ReadTable :
    (cell).Asked (req 1 [0#8, 63#8, 1#8]) (headerOf (req 1 [0#8, 63#8, 1#8])) (.readTable .node 63 1)
    ∧ (cell).Asked (req 1 [0#8, 63#8, 2#8]) (headerOf (req 1 [0#8, 63#8, 2#8])) (.readTable .node 63 2)
    ∧ TableId.node.entries = 64 :=
  ⟨asked_of (by decide +kernel), asked_of (by decide +kernel), rfl⟩
theorem witness_WriteRecipe :
    (unit1 .chargeWait).Asked (writeRecipe 2 { recipe2 with mould := 9 })
      (headerOf (writeRecipe 2 { recipe2 with mould := 9 }))
      (.writeTable .recipe 2 1 (recipeBytes { recipe2 with mould := 9 }))
    ∧ entriesOf 38 recipeOf 1 (recipeBytes { recipe2 with mould := 9 }) = some [{ recipe2 with mould := 9 }]
    ∧ recipeValid { recipe2 with mould := 9 } = true
    ∧ ({ recipe2 with mould := 9 } : Recipe) ≠ (unit1 .chargeWait).tables.recipes[(2 : Fin 32)]
    ∧ ((unit1 .chargeWait).unit 1).binding = some ⟨2, 3310⟩
    ∧ (cell).Asked (writeRecipe 31 recipe2) (headerOf (writeRecipe 31 recipe2))
      (.writeTable .recipe 31 1 (recipeBytes recipe2))
    ∧ (∀ p, ((cell).unit p).binding = none)
    ∧ (cell).Asked (writeRecipe 32 recipe2) (headerOf (writeRecipe 32 recipe2))
      (.writeTable .recipe 32 1 (recipeBytes recipe2))
    ∧ (cell).Asked (writeRecipe 0 { recipe2 with mould := 0 })
      (headerOf (writeRecipe 0 { recipe2 with mould := 0 }))
      (.writeTable .recipe 0 1 (recipeBytes { recipe2 with mould := 0 }))
    ∧ recipeValid { recipe2 with mould := 0 } = false :=
  ⟨asked_of (by decide +kernel), by decide +kernel, by decide +kernel, by decide +kernel, by decide +kernel,
    asked_of (by decide +kernel), by decide +kernel, asked_of (by decide +kernel),
    asked_of (by decide +kernel), by decide +kernel⟩
theorem witness_WritePress :
    (cell).Asked (writePress 3 ⟨1000, 1, 1000, 0⟩) (headerOf (writePress 3 ⟨1000, 1, 1000, 0⟩))
      (.writeTable .press 3 1 (pressEntryBytes ⟨1000, 1, 1000, 0⟩))
    ∧ entriesOf 7 pressEntryOf 1 (pressEntryBytes ⟨1000, 1, 1000, 0⟩) = some [⟨1000, 1, 1000, 0⟩]
    ∧ pressEntryValid ⟨1000, 1, 1000, 0⟩ = true ∧ pressEntryValid ⟨0, 0, 0, 0⟩ = false :=
  ⟨asked_of (by decide +kernel), by decide +kernel⟩
/-- WRITE_TABLE of one entry. -/
def writeOne (table : TableId) (i : Byte) (es : List Byte) : List Byte :=
  req 2 ([BitVec.ofNat 8 table.code, i, 1#8] ++ es)

/-- A WRITE_TABLE of one entry is asked, and answered with a result. -/
def WriteAsked (s : State) (table : TableId) (i : Nat) (es : List Byte) (r : Result) : Prop :=
  let b := writeOne table (BitVec.ofNat 8 i) es
  s.Asked b (headerOf b) (.writeTable table i 1 es)
    ∧ (after (.writeTable b) s).portU.own.map (fun f => f.payload.getD 2 0#8) = [BitVec.ofNat 8 r.code]

theorem writeAsked_of {s : State} {table : TableId} {i : Nat} {es : List Byte} {r : Result}
    (h : (askedTest s (writeOne table (BitVec.ofNat 8 i) es) (.writeTable table i 1 es)
      && decide ((after (.writeTable (writeOne table (BitVec.ofNat 8 i) es)) s).portU.own.map
        (fun f => f.payload.getD 2 0#8) = [BitVec.ofNat 8 r.code])) = true) : WriteAsked s table i es r := by
  simp only [Bool.and_eq_true, decide_eq_true_eq] at h
  exact ⟨asked_of h.1, h.2⟩

/-- Writes that are done, of ill entries, and of entries in use. -/
theorem witness_TableWrites_net :
    WriteAsked zone14 .node 50 (nodeEntryBytes ⟨.ejector, 0, false⟩) .ok
    ∧ WriteAsked zone14 .node 63 (nodeEntryBytes ⟨.thermo, 0, false⟩) .badEntry
    ∧ WriteAsked zone14 .node 30 (nodeEntryBytes ⟨.none, 0, false⟩) .inUse
    ∧ WriteAsked (due14 fun c => { c with committed := 101 }) .zone 14
      (zoneEntryBytes true { entry14 with maxDuty := 100, limit := 1400 }) .ok
    ∧ WriteAsked zone14 .zone 15 (zoneEntryBytes false entry14) .badEntry
    ∧ WriteAsked zone14 .zone 14 (zoneEntryBytes true { entry14 with backup := none }) .inUse := by
  refine ⟨?_, ?_, ?_, ?_, ?_, ?_⟩ <;> exact writeAsked_of (by decide +kernel)
theorem witness_TableWrites_recipes :
    WriteAsked (unit1 .cure) .mould 5 (mouldEntryBytes ⟨9, 31⟩) .ok
    ∧ WriteAsked (unit1 .cure) .mould 5 (mouldEntryBytes ⟨3310, 31⟩) .badEntry
    ∧ WriteAsked (unit1 .cure) .mould 4 (mouldEntryBytes ⟨0, 0⟩) .inUse
    ∧ WriteAsked (unit1 .chargeWait) .rate 2 (rateEntryBytes (rate2.take 2)) .ok
    ∧ WriteAsked (unit1 .chargeWait) .rate 2 (rateEntryBytes (rate2.take 1)) .badEntry
    ∧ WriteAsked (unit1 .cure) .rate 2 (rateEntryBytes (rate2.take 2)) .inUse := by
  refine ⟨?_, ?_, ?_, ?_, ?_, ?_⟩ <;> exact writeAsked_of (by decide +kernel)
theorem witness_TableWrites_others :
    WriteAsked (judged .accepted) .scale 0 (scaleEntryBytes { scale0 with enabled := false }) .ok
    ∧ WriteAsked (judged .accepted) .scale 1 (scaleEntryBytes scale0) .badEntry
    ∧ WriteAsked (judged .accepted) .scale 0 (scaleEntryBytes { scale0 with zeroTrack := 0 }) .inUse
    ∧ WriteAsked two .cell 0 (cellEntryBytes { CellEntry.atReset with policy := .overwrite }) .ok
    ∧ WriteAsked two .cell 0 (cellEntryBytes { CellEntry.atReset with controller := 40 }) .badEntry
    ∧ WriteAsked two .exports 0 (exportEntryBytes ExportEntry.atReset) .ok := by
  refine ⟨?_, ?_, ?_, ?_, ?_, ?_⟩ <;> exact writeAsked_of (by decide +kernel)
theorem witness_TableWrites_read :
    entriesOf 3 nodeEntryOf 1 (nodeEntryBytes ⟨.ejector, 0, false⟩) = some [⟨.ejector, 0, false⟩]
    ∧ entriesOf 20 zoneEntryOf 1 (zoneEntryBytes true entry14) = some [entry14]
    ∧ entriesOf 3 mouldEntryOf 1 (mouldEntryBytes ⟨9, 31⟩) = some [⟨9, 31⟩]
    ∧ rateEntryOf (rateEntryBytes rate2) = some rate2
    ∧ entriesOf 24 scaleEntryOf 1 (scaleEntryBytes scale0) = some [scale0]
    ∧ cellEntryOf (cellEntryBytes CellEntry.atReset) = some CellEntry.atReset
    ∧ exportEntryOf (exportEntryBytes ExportEntry.atReset) = some ExportEntry.atReset
    ∧ entriesOf 3 nodeEntryOf 1 [6#8, 0#8, 0#8] = none := by decide +kernel
/-- The Cell write at each mark of the history. -/
theorem witness_TableWrites_marks :
    let at' (n : Nat) (h : Bool) : State := (cell).modHistory fun x => { x with unread := n, hold := h }
    let put (s : State) : Bool :=
      (after (.writeTable (writeOne .cell 0 (cellEntryBytes CellEntry.atReset))) s).history.hold
    put (at' 448 false) = true ∧ put (at' 447 false) = false ∧ put (at' 385 true) = true
      ∧ put (at' 384 true) = false := by decide +kernel

theorem witness_StatusReads :
    (cell).Asked (req 7 [0#8, 0#8]) (headerOf (req 7 [0#8, 0#8])) (.readStatus .link 0 0)
    ∧ (cell).Asked (req 7 [1#8, 44#8, 4#8]) (headerOf (req 7 [1#8, 44#8, 4#8])) (.readStatus .zone 44 4)
    ∧ (cell).Asked (req 7 [1#8, 45#8, 4#8]) (headerOf (req 7 [1#8, 45#8, 4#8])) (.readStatus .zone 45 4)
    ∧ (cell).Asked (req 7 [4#8, 1#8]) (headerOf (req 7 [4#8, 1#8])) (.readStatus .scale 1 0)
    ∧ (cell).Asked (req 7 [5#8, 3#8]) (headerOf (req 7 [5#8, 3#8])) (.readStatus .press 3 0)
    ∧ (cell).Asked (req 7 [5#8, 4#8]) (headerOf (req 7 [5#8, 4#8])) (.readStatus .press 4 0) := by
  refine ⟨?_, ?_, ?_, ?_, ?_, ?_⟩ <;> exact asked_of (by decide +kernel)

theorem witness_StatusReads_blocks :
    (cure1).Asked (req 7 [2#8, 1#8]) (headerOf (req 7 [2#8, 1#8])) (.readStatus .heat 1 0)
    ∧ (cure1).Asked (req 7 [3#8, 1#8]) (headerOf (req 7 [3#8, 1#8])) (.readStatus .cure 1 0)
    ∧ (cure1).Asked (req 7 [6#8, 1#8]) (headerOf (req 7 [6#8, 1#8])) (.readStatus .eject 1 0)
    ∧ (cure1).Asked (req 7 [7#8, 0#8]) (headerOf (req 7 [7#8, 0#8])) (.readStatus .history 0 0)
    ∧ (cure1).Asked (req 7 [8#8, 0#8]) (headerOf (req 7 [8#8, 0#8])) (.readStatus .report 0 0) := by
  refine ⟨?_, ?_, ?_, ?_, ?_⟩ <;> exact asked_of (by decide +kernel)

/-- Of 68 off commands a HEAT status shows 67, in 248 bytes with the response header. -/
theorem witness_StatusReads_heat :
    let s := zone14 fun c => { c with offs := List.replicate 68 ⟨30, 1, false, 0⟩ }
    (s.shownOffs 14).length = 67 ∧ 3 + (s.heatStatus 1).length = 248 := by decide +kernel

/-! ### Resets -/

theorem witness_ResetRequests :
    (cell).Asked (req 17 [0#8]) (headerOf (req 17 [0#8])) (.reset .warm)
    ∧ (cell).Asked (req 17 [1#8]) (headerOf (req 17 [1#8])) (.reset .cold)
    ∧ (cell).portU.own.length < 16
    ∧ (fillOwn .U 16 cell).Asked (req 17 [1#8]) (headerOf (req 17 [1#8])) (.reset .cold)
    ∧ 16 ≤ (fillOwn .U 16 cell).portU.own.length :=
  ⟨asked_of (by decide +kernel), asked_of (by decide +kernel), by decide +kernel, asked_of (by decide +kernel),
    by decide +kernel⟩
theorem witness_WarmResetEffect :
    let s := { cure1 with resetPending := .due .warm }
    s.resetHeld = false ∧ s.shutdown = false ∧ s.mode = .normal 40 ∧ (s.unit 1).state = .cure
      ∧ (s.unit 0).state = .disabled ∧ (s.unit 1).haltPending = false
      ∧ UnitState.inCycle .cure = true := by decide +kernel
theorem witness_WarmResetEffect_law : { cure1 with resetPending := .due .warm }.UnitLaw 1 := by
  unfold State.UnitLaw; decide +kernel
/-- A cycle's record with a profile, an ejection, and off commands on both sides. -/
theorem witness_WarmResetEffect_cycle :
    let s := { profiled 0 0 with resetPending := .due .warm }
    let e := { owing true with resetPending := .due .warm }
    s.history.openRecord[(1 : PressNo)] = some 0
      ∧ (s.history.slots[(0 : Fin 512)]).map Record.profileBuffer = some (some 0)
      ∧ (s.cure 1).status = .accruing ∧ ((eject1 .runToB).unit 1).state = .eject
      ∧ ((eject1 .runToB).ejector 1).phase ≠ .stopped ∧ ((eject1 .runToB).ejector 1).node = some 21
      ∧ (e.zone 14).offs ≠ [] ∧ (e.ejector 1).offOwed = some ⟨21, false, 5⟩
      ∧ ((after .warmResetEffect e).ejector 1).offOwed = some ⟨21, true, 5⟩ := by decide +kernel

theorem witness_ColdResetEffect :
    let s := { eject1 .runToB with resetPending := .due .cold }
    let t := { cell with resetPending := .due .cold }
    let during := { owing true with shutdown := true }
    s.resetHeld = false ∧ s.mode = .normal 40 ∧ s.shutdown = false ∧ s.enabled 14 = true
      ∧ (s.zoneEntry 14).heater = some ⟨30, 2⟩ ∧ (s.unit 1).state = .eject
      ∧ (s.ejector 1).node = some 21
      ∧ (∀ z, t.enabled z = false ∧ (t.zone z).offs = [])
      ∧ (∀ p, (t.unit p).state ≠ .eject ∧ (t.ejector p).offOwed = none)
      ∧ (∀ q, (t.ejector q).offOwed = none) ∧ ((after .coldShutdownStart s).shutdown = true)
      ∧ (after .coldShutdownStart t).timebase = 0 ∧ (after .coldShutdownStart t).shutdown = false
      ∧ (after (.forwardFrame .U (frame 20 0 1 [1#8])) during).portD.fwd = [frame 20 0 1 [1#8]]
      ∧ (after (.closeCommand (frame 20 0 1 [1#8])) (fillFwd .D 24 during)).portD.fwd.length = 24
      ∧ during.shutdown = true ∧ during.resetPending.isDue = false ∧ during.offPresent = true
      ∧ { cell with shutdown := true }.offPresent = false := by decide +kernel

end Sys2Proof.Tests
end

