-- ==== Sys2Proof/Proofs/FrameHandling.lean ====
section
/-! PROOFS. Frames that the part forwards or drops by role and kind: R15 and R16 on Port U, R17, and R19 on Port D.

Each command of a received frame is the receiver with its bytes; Laws/Shared.lean says what the receiver
reaches in a NORMAL part. Left to say here is each branch of the classification, once. -/

namespace Sys2Proof.Proofs.FrameHandling

open Sys2Proof.Machine Sys2Proof.Machine.State

variable {s : State} {own : Nat} {bytes : List Byte} {f : RxFrame}

/-! ## Each command is the receiver of its port -/

theorem exec_forwardFrame (p : Port) (bytes : List Byte) (s : State) :
    exec (.forwardFrame p bytes) s = running (receive p bytes) s := rfl

theorem exec_fieldMgmtReq (bytes : List Byte) (s : State) :
    exec (.fieldMgmtReq bytes) s = running (receive .D bytes) s := rfl

theorem exec_heat (bytes : List Byte) (s : State) :
    exec (.heat bytes) s = running (receive .U bytes) s := rfl

theorem exec_serviceCommand (bytes : List Byte) (s : State) :
    exec (.serviceCommand bytes) s = running (receive .U bytes) s := rfl

theorem exec_commandNotWellFormed (bytes : List Byte) (s : State) :
    exec (.commandNotWellFormed bytes) s = running (receive .U bytes) s := rfl

/-! ## The counts of R9 and R19, up to 65535 (R25) -/

theorem formatError_eq (p : Port) (s : State) : formatError p s = raiseNow .linkCheck (.port p)
    (s.modPort p fun x => { x with formatErrors := min (x.formatErrors + 1) 65535 }) := rfl

theorem countForeign_eq (p : Port) (s : State) : countForeign p s =
    s.modPort p fun x => { x with foreignRequests := min (x.foreignRequests + 1) 65535 } := rfl

/-! ## Port U: a frame that passes by, by role and kind -/

/-- R17: neither R15 nor R16 takes the frame. -/
theorem running_passing_other (h : s.Passing bytes f)
    (hpress : ¬((s.node f.dst).role = .press ∧ f.kind = FrameKind.command.code))
    (hheater : ¬((s.node f.dst).role = .heater ∧ f.kind = FrameKind.heat.code)) :
    running (receive .U bytes) s = .next (s.linkActivity.forwardTo .D bytes) := by
  rw [running_passing h, if_neg hpress, if_neg hheater]

/-- R15: a COMMAND to a PRESS node goes to the press that the node's unit names. -/
theorem running_passing_command (h : s.Passing bytes f) (hr : (s.node f.dst).role = .press)
    (hk : f.kind = FrameKind.command.code) :
    running (receive .U bytes) s = .next (commandToPress (pressNo (s.node f.dst).unit) f s.linkActivity) := by
  rw [running_passing h, if_pos ⟨hr, hk⟩]

/-- R16: a HEAT frame to a HEATER node meets the test for a conflict. -/
theorem running_passing_heat (h : s.Passing bytes f) (hr : (s.node f.dst).role = .heater)
    (hk : f.kind = FrameKind.heat.code) :
    running (receive .U bytes) s
      = .next (heatUnless (s.linkActivity.heaterInUse f.dst) f.dst bytes s.linkActivity) := by
  have hpress : ¬((s.node f.dst).role = .press ∧ f.kind = FrameKind.command.code) := by simp [hr]
  rw [running_passing h, if_neg hpress, if_pos ⟨hr, hk⟩]

/-! ## A heater in use (R16) -/

@[simp] theorem linkActivity_heaterInUse (s : State) (a : Nat) :
    s.linkActivity.heaterInUse a = s.heaterInUse a := rfl

theorem heaterInUse_iff {a : Nat} : s.heaterInUse a = true ↔
    ∃ z h, s.enabled z = true ∧ (s.zoneEntry z).heater = some h ∧ h.node = a := by
  simp [heaterInUse, Option.any_eq_true]

theorem heatUnless_of_conflict (node : Nat) (bytes : List Byte) (s : State) :
    heatUnless true node bytes s = raiseNow .heaterConflict (.node node) s := rfl

theorem heatUnless_of_no_conflict (node : Nat) (bytes : List Byte) (s : State) :
    heatUnless false node bytes s = forwardTo .D bytes s := rfl

/-! ## Commands that the gate does not answer (R15) -/

theorem commandToPress_of_service {n : Nat} (h : pressCommandOf f.payload = some (.service n))
    (p : PressNo) (s : State) : commandToPress p f s = forwardTo .D f.bytes s := by
  simp [commandToPress, h]

theorem commandToPress_of_malformed (h : pressCommandOf f.payload = none) (p : PressNo) (s : State) :
    commandToPress p f s = formatError .U s := by
  simp [commandToPress, h]

/-! ## Port D: frames that only pass up (R19) -/

theorem takeDown_of_mgmtReq (hk : f.kind = FrameKind.mgmtReq.code) (s : State) :
    takeDown f s = fieldRequest f s := by
  simp [takeDown, hk]

theorem takeDown_of_role_none (hk : f.kind ≠ FrameKind.mgmtReq.code) (hr : (s.node f.src).role = .none) :
    takeDown f s = forwardTo .U f.bytes s := by
  simp [takeDown, hk, hr]

theorem fieldRequest_of_ne (h : f.dst ≠ s.ownAddress) : fieldRequest f s = forwardTo .U f.bytes s := by
  simp [fieldRequest, doIf, h]

/-- A request from the field to the own address is counted as foreign before it passes up. -/
theorem fieldRequest_of_eq (h : f.dst = s.ownAddress) :
    fieldRequest f s = forwardTo .U f.bytes (countForeign .D s) := by
  simp [fieldRequest, doIf, h]

/-! ## The obligations -/

/-- Settles O15: the classification on Port U falls through to its last branch. -/
theorem otherFramesPassDown : Obligations.OtherFramesPassDown := by
  intro s bytes f h hpress hheater
  rw [exec_forwardFrame, running_passing_other h hpress hheater]

/-- Settles O16: by kind, and for a MGMT_REQ by its destination. -/
theorem fieldFramesPassUp : Obligations.FieldFramesPassUp := by
  intro s bytes f h
  obtain ⟨⟨own, hn⟩, hp⟩ := h
  refine ⟨fun hk hr => ?roleNone, fun hk hd => ?requestElsewhere, fun hk hd => ?requestToOwn⟩
  case roleNone =>
    have hr' : (s.linkActivity.node f.src).role = .none := hr
    rw [exec_forwardFrame, running_receive_down hn hp, takeDown_of_role_none hk hr', parseFrame_bytes hp]
  case requestElsewhere =>
    have hd' : f.dst ≠ s.linkActivity.ownAddress := hd
    rw [exec_fieldMgmtReq, running_receive_down hn hp, takeDown_of_mgmtReq hk, fieldRequest_of_ne hd',
      parseFrame_bytes hp]
  case requestToOwn =>
    have hd' : f.dst = s.linkActivity.ownAddress := hd
    rw [exec_fieldMgmtReq, running_receive_down hn hp, takeDown_of_mgmtReq hk, fieldRequest_of_eq hd',
      parseFrame_bytes hp, countForeign_eq]

/-- Settles O24: R16 by whether an enabled zone drives the heater, R15 by what the payload spells. -/
theorem heatAndServiceCommands : Obligations.HeatAndServiceCommands := by
  intro s bytes f h
  have ⟨_, _, hp⟩ := h
  refine ⟨fun hr hk => ⟨fun hz => ?conflict, fun hz => ?noConflict⟩, fun hr hk => ?otherKind,
    fun hr hk => ⟨fun n hc => ?service, fun hc => ?malformed⟩⟩
  case conflict =>
    rw [exec_heat, running_passing_heat h hr hk, linkActivity_heaterInUse, heaterInUse_iff.mpr hz,
      heatUnless_of_conflict]
  case noConflict =>
    have hfree : s.heaterInUse f.dst = false := Bool.eq_false_iff.mpr (mt heaterInUse_iff.mp hz)
    rw [exec_heat, running_passing_heat h hr hk, linkActivity_heaterInUse, hfree, heatUnless_of_no_conflict]
  case otherKind =>
    rw [exec_forwardFrame, running_passing_other h (by simp [hr]) (by simp [hk])]
  case service =>
    rw [exec_serviceCommand, running_passing_command h hr hk, commandToPress_of_service hc,
      parseFrame_bytes hp]
  case malformed =>
    rw [exec_commandNotWellFormed, running_passing_command h hr hk, commandToPress_of_malformed hc,
      formatError_eq]

end Sys2Proof.Proofs.FrameHandling
end

