-- ==== Sys2Proof/Proofs/CloseConditions.lean ====
section
/-! PROOFS. The conditions of a CLOSE in their order, R131, with the zone conditions of R65 and R66.

The gate's tests are computed over the twelve zones of the press. Each is first said by what it asks of the
state; then each reason of R131 follows from the conditions before it holding and its own failing. -/

namespace Sys2Proof.Proofs.CloseConditions

open Sys2Proof.Machine Sys2Proof.Machine.State

variable {s : State} {p : PressNo}

/-! ## The gate's tests -/

theorem mem_zonesOf {z : ZoneNo} : z ∈ zonesOf p ↔ pressOf z = p := by
  simp only [zonesOf, pressOf, List.mem_map, List.mem_finRange, true_and, Fin.ext_iff]
  constructor
  · rintro ⟨i, hi⟩
    omega
  · intro hz
    exact ⟨⟨z.val % 12, Nat.mod_lt _ (by decide)⟩, by dsimp only; omega⟩

theorem mem_enabledZones {z : ZoneNo} :
    z ∈ s.enabledZones p ↔ pressOf z = p ∧ s.enabled z = true := by
  rw [enabledZones, List.mem_filter, mem_zonesOf]

theorem mouldMatches_iff : s.mouldMatches p = true ↔
    ∃ r b, (s.unit p).lastStatus = some r ∧ (s.unit p).binding = some b ∧ r.mould = b.mould := by
  simp [mouldMatches, Option.any_eq_true]

/-- A zone in LOST or OVERTEMP is enabled, so the test of R66 need not ask for it. -/
theorem zoneFault_iff : s.zoneFault p = true ↔
    ∃ z, pressOf z = p ∧ ((s.zone z).state = .lost ∨ (s.zone z).state = .overtemp) := by
  simp [zoneFault, List.any_eq_true, mem_zonesOf]

/-- R65. -/
theorem ready_iff {r : Recipe} {z : ZoneNo} : s.ready r z = true ↔
    (s.zone z).state = .regulating ∧ (s.zone z).setpoint = (s.zone z).target
      ∧ ∃ m, (s.zone z).measured = some m ∧ |m - (s.zone z).setpoint| ≤ (r.readyBand : Int) := by
  simp [ready, Option.any_eq_true, and_assoc]

/-- R66: only enabled zones are asked. -/
theorem zonesReady_iff : s.zonesReady p = true ↔
    ∃ r, s.boundRecipe p = some r ∧ ∀ z, pressOf z = p → s.enabled z = true →
      (s.zone z).state = .regulating ∧ (s.zone z).setpoint = (s.zone z).target
        ∧ ∃ m, (s.zone z).measured = some m ∧ |m - (s.zone z).setpoint| ≤ (r.readyBand : Int) := by
  simp only [zonesReady, allReady, Option.any_eq_true, List.all_eq_true, mem_enabledZones, ready_iff, and_imp]

/-! ## The reason of each condition that fails (R131) -/

theorem closeReason_of_disabled (h : (s.unit p).state = .disabled) : s.closeReason p = some .notEnabled := by
  rw [closeReason, if_pos h]

theorem closeReason_of_no_charge (hd : (s.unit p).state ≠ .disabled) (h : (s.unit p).state ≠ .chargeReady) :
    s.closeReason p = some .noCharge := by
  rw [closeReason, if_neg hd, if_pos h]

/-- What is left of the tests in CHARGE_READY. -/
theorem closeReason_of_chargeReady (hc : (s.unit p).state = .chargeReady) :
    s.closeReason p = if s.mouldMatches p = false then some .mouldMismatch
      else if s.zoneFault p = true then some .zoneFault
      else if s.zonesReady p = false then some .notAtTemp
      else s.historyReason := by
  have hd : (s.unit p).state ≠ .disabled := by simp [hc]
  rw [closeReason, if_neg hd, if_neg (not_not_intro hc)]

theorem closeReason_of_mould_mismatch (hc : (s.unit p).state = .chargeReady) (h : s.mouldMatches p = false) :
    s.closeReason p = some .mouldMismatch := by
  rw [closeReason_of_chargeReady hc, if_pos h]

theorem closeReason_of_zone_fault (hc : (s.unit p).state = .chargeReady) (hm : s.mouldMatches p = true)
    (h : s.zoneFault p = true) : s.closeReason p = some .zoneFault := by
  simp [closeReason_of_chargeReady hc, hm, h]

theorem closeReason_of_not_ready (hc : (s.unit p).state = .chargeReady) (hm : s.mouldMatches p = true)
    (hf : s.zoneFault p = false) (h : s.zonesReady p = false) : s.closeReason p = some .notAtTemp := by
  simp [closeReason_of_chargeReady hc, hm, hf, h]

/-- The unit's own conditions all hold, so the answer is the History Unit's (R163). -/
theorem closeReason_of_ready (hc : (s.unit p).state = .chargeReady) (hm : s.mouldMatches p = true)
    (hf : s.zoneFault p = false) (h : s.zonesReady p = true) : s.closeReason p = s.historyReason := by
  simp [closeReason_of_chargeReady hc, hm, hf, h]

/-! ## The History Unit's answer (R163) -/

theorem historyReason_of_hold (h : s.admission = .historyHold) : s.historyReason = some .historyHold := by
  simp [historyReason, h]

theorem historyReason_of_full (h : s.admission = .historyFull) : s.historyReason = some .historyFull := by
  simp [historyReason, h]

theorem historyReason_of_admitted (h : s.admission = .admitted) : s.historyReason = none := by
  simp [historyReason, h]

/-! ## The obligation -/

/-- Settles O26: one reason for each place in the order of R131. -/
theorem closeConditions : Obligations.CloseConditions := by
  intro s p mouldHeld faulty ready
  have mould : s.mouldMatches p = true ↔ mouldHeld := mouldMatches_iff
  have fault : s.zoneFault p = true ↔ faulty := zoneFault_iff
  have temp : s.zonesReady p = true ↔ ready := zonesReady_iff
  refine ⟨closeReason_of_disabled, closeReason_of_no_charge, fun hc => ⟨fun hm => ?mouldMismatch,
    fun hm hf => ?zoneFault, fun hm hf hr => ?notAtTemp, fun hm hf hr => ?history⟩⟩
  case mouldMismatch =>
    exact closeReason_of_mould_mismatch hc (Bool.eq_false_iff.mpr (mt mould.mp hm))
  case zoneFault =>
    exact closeReason_of_zone_fault hc (mould.mpr hm) (fault.mpr hf)
  case notAtTemp =>
    exact closeReason_of_not_ready hc (mould.mpr hm) (Bool.eq_false_iff.mpr (mt fault.mp hf))
      (Bool.eq_false_iff.mpr (mt temp.mp hr))
  case history =>
    rw [closeReason_of_ready hc (mould.mpr hm) (Bool.eq_false_iff.mpr (mt fault.mp hf)) (temp.mpr hr)]
    exact ⟨historyReason_of_hold, historyReason_of_full, historyReason_of_admitted⟩

end Sys2Proof.Proofs.CloseConditions
end

