-- ==== Sys2Proof/Proofs/RateFactor.lean ====
section
/-! PROOFS. The rate factor at a temperature, R84.

The scan of a table passes every point at or below the temperature, so it stops at the last of them. Between two
points the truncated quotient keeps to the side of zero of the difference of the factors and does not pass it. -/

namespace Sys2Proof.Proofs.RateFactor

open Sys2Proof.Machine Sys2Proof.Machine.State

variable {m : Int} {p q : RatePoint} {l rest : List RatePoint}

/-! ## The table of the bound recipe -/

theorem rateOf_of_lt {s : State} {r : Recipe} (h : r.rateTable < 4) :
    s.rateOf r = s.tables.rates[r.rateTable] := by
  simp [rateOf, h]

theorem factorAt_of_bound {s : State} {press : PressNo} {r : Recipe} (hr : s.boundRecipe press = some r) :
    s.factorAt press m = rateFactor (s.rateOf r) m := by
  simp [factorAt, hr]

/-! ## The scan of the points -/

@[simp] theorem factorFrom_nil : factorFrom p m [] = p.factor := rfl

theorem factorFrom_of_lt (h : m < q.temp) : factorFrom p m (q :: rest) = segmentFactor p q m := by
  simp [factorFrom, h]

theorem factorFrom_of_le (h : q.temp ≤ m) : factorFrom p m (q :: rest) = factorFrom q m rest := by
  simp [factorFrom, h]

theorem rateFactor_of_lt (h : m < p.temp) : rateFactor (p :: rest) m = 0 := by
  simp [rateFactor, h]

theorem rateFactor_of_le (h : p.temp ≤ m) : rateFactor (p :: rest) m = factorFrom p m rest := by
  simp [rateFactor, h]

theorem factorFrom_append (hl : ∀ x ∈ l, x.temp ≤ m) (hp : p.temp ≤ m) {first : RatePoint} :
    factorFrom first m (l ++ p :: rest) = factorFrom p m rest := by
  induction l generalizing first with
  | nil => exact factorFrom_of_le hp
  | cons x l ih =>
    rw [List.forall_mem_cons] at hl
    rw [List.cons_append, factorFrom_of_le hl.left, ih hl.right]

theorem rateFactor_append (hl : ∀ x ∈ l, x.temp ≤ m) (hp : p.temp ≤ m) :
    rateFactor (l ++ p :: rest) m = factorFrom p m rest := by
  cases l with
  | nil => exact rateFactor_of_le hp
  | cons x l =>
    rw [List.forall_mem_cons] at hl
    rw [List.cons_append, rateFactor_of_le hl.left, factorFrom_append hl.right hp]

/-- In an ascending table the points before one at or below the temperature are below it too (R84). -/
theorem rateFactor_of_ascending (h : (l ++ p :: rest).Pairwise fun a b => a.temp < b.temp) (hp : p.temp ≤ m) :
    rateFactor (l ++ p :: rest) m = factorFrom p m rest := by
  obtain ⟨_, _, cross⟩ := List.pairwise_append.mp h
  have before : ∀ x ∈ l, x.temp ≤ m := fun x hx => (cross x hx p List.mem_cons_self).le.trans hp
  exact rateFactor_append before hp

/-! ## The factor between two points -/

/-- A part `a` of `b` takes a truncated share of `d` between nothing and the whole, whatever the sign of `d`. -/
theorem min_le_tdiv_le_max {d a b : Int} (ha : 0 ≤ a) (hab : a ≤ b) (hb : 0 < b) :
    min 0 d ≤ (d * a).tdiv b ∧ (d * a).tdiv b ≤ max 0 d := by
  have nothing : (0 : Int).tdiv b = 0 := Int.zero_tdiv b
  have whole : (d * b).tdiv b = d := Int.mul_tdiv_cancel d hb.ne'
  rcases le_total 0 d with hd | hd
  · have low := Int.tdiv_le_tdiv hb (mul_nonneg hd ha)
    have high := Int.tdiv_le_tdiv hb (mul_le_mul_of_nonneg_left hab hd)
    omega
  · have low := Int.tdiv_le_tdiv hb (mul_le_mul_of_nonpos_left hab hd)
    have high := Int.tdiv_le_tdiv hb (mul_nonpos_of_nonpos_of_nonneg hd ha)
    omega

/-- The sum of R84 lies between two factors, so it is no negative number and the model's cut at 0 changes nothing. -/
theorem segmentFactor_spec (hp : p.temp ≤ m) (hq : m < q.temp) :
    (segmentFactor p q m : Int) =
        p.factor + (((q.factor : Int) - p.factor) * (m - p.temp)).tdiv (q.temp - p.temp)
      ∧ min p.factor q.factor ≤ segmentFactor p q m ∧ segmentFactor p q m ≤ max p.factor q.factor := by
  have share := min_le_tdiv_le_max (d := (q.factor : Int) - p.factor) (a := m - p.temp)
    (b := q.temp - p.temp) (by omega) (by omega) (by omega)
  unfold segmentFactor
  generalize (((q.factor : Int) - p.factor) * (m - p.temp)).tdiv (q.temp - p.temp) = quotient at share ⊢
  omega

/-! ## The obligation -/

/-- Settles O34: the scan stops at the last point at or below the temperature, and the next point, where there is
one, closes the segment. -/
theorem rateFactor : Obligations.RateFactor := by
  refine ⟨fun s press r m h hr => ?table, fun points m ascending => ⟨?below, ?between, ?last⟩⟩
  case table => rw [factorAt_of_bound hr, rateOf_of_lt h]
  case below =>
    rintro p rest rfl hm
    exact rateFactor_of_lt hm
  case between =>
    rintro l p q rest rfl hp hq
    rw [rateFactor_of_ascending ascending hp, factorFrom_of_lt hq]
    exact segmentFactor_spec hp hq
  case last =>
    rintro l p rfl hp
    rw [rateFactor_of_ascending ascending hp, factorFrom_nil]

end Sys2Proof.Proofs.RateFactor
end

