-- ==== Sys2Proof/Proofs/PlainGates.lean ====
section
/-! PROOFS. The gate's answers to a CLOSE and to a plain OPEN, R130, R133 and R137.

Both commands reach the gate of the press with the LINK pin on, and the port then acts on the gate's PASS or
DROP. So each clause is one answer of the gate, for the state in which the command finds the unit. -/

namespace Sys2Proof.Proofs.PlainGates

open Sys2Proof.Machine Sys2Proof.Machine.State

variable {s : State} {bytes : List Byte} {f : RxFrame} {p : PressNo} {src : Nat}

/-! ## A command on its way to the gate and back (R15) -/

theorem passOn_of_pass (bytes : List Byte) (s : State) : passOn bytes (s, true) = forwardTo .D bytes s := rfl

theorem passOn_of_drop (bytes : List Byte) (s : State) : passOn bytes (s, false) = s := rfl

theorem exec_closeCommand (h : s.Commanded bytes f p .close) :
    exec (.closeCommand bytes) s = .next (passOn bytes (gateClose p f.src s.linkActivity)) := by
  have hrun : exec (.closeCommand bytes) s = running (receive .U bytes) s := rfl
  have ⟨⟨_, _, hparse⟩, _, _, _, hclose⟩ := h
  rw [hrun, running_commanded h, commandToPress, hclose, parseFrame_bytes hparse]

theorem exec_openCommand (h : s.Commanded bytes f p .openPlain) :
    exec (.openCommand bytes) s = .next (passOn bytes (gateOpen p f.src s.linkActivity)) := by
  have hrun : exec (.openCommand bytes) s = running (receive .U bytes) s := rfl
  have ⟨⟨_, _, hparse⟩, _, _, _, hopen⟩ := h
  rw [hrun, running_commanded h, commandToPress, hopen, parseFrame_bytes hparse]

/-! ## A refusal (R130, R203) -/

theorem refusalBytes_eq (press code : Nat) (reason : Reason) : refusalBytes press code reason =
    [BitVec.ofNat 8 press, BitVec.ofNat 8 code, BitVec.ofNat 8 reason.code] := by
  simp [refusalBytes, natBytes]

theorem refuse_eq (press code src : Nat) (reason : Reason) (k : EventKind) (i : EventOn) (s : State) :
    refuse press code src reason k i s = raiseNow k i (originate .U src .refusal
      [BitVec.ofNat 8 press, BitVec.ofNat 8 code, BitVec.ofNat 8 reason.code] .plain s) := by
  rw [refuse, refusalBytes_eq]

/-! ## The gate of a CLOSE (R133) -/

/-- The LINK pin is no condition of R131. -/
theorem linkActivity_closeReason (s : State) (p : PressNo) :
    s.linkActivity.closeReason p = s.closeReason p := rfl

theorem gateClose_of_closing (h : (s.unit p).state = .closing) : gateClose p src s = (s, true) := by
  rw [gateClose, if_pos h]

theorem gateClose_of_reason {reason : Reason} (hs : (s.unit p).state ≠ .closing)
    (hr : s.closeReason p = some reason) :
    gateClose p src s = (refuse p.val closeCode src reason .closeRefused (.press p) s, false) := by
  rw [gateClose, if_neg hs, hr]

/-! ## The gate of a plain OPEN (R137) -/

/-- An opening that aborts nothing leaves the aborted flag as it is. -/
theorem enterOpening_of_not_abort (p : PressNo) (t : Time) (s : State) : enterOpening p false t s =
    (s.modUnit p fun u => { u with state := .opening }).modRecord p fun r => { r with openTime := some t } := by
  simp only [enterOpening, Bool.or_false]

theorem enterOpening_of_abort (p : PressNo) (t : Time) (s : State) : enterOpening p true t s =
    (s.modUnit p fun u => { u with state := .opening, aborted := true }).modRecord p
      fun r => { r with openTime := some t } := by
  simp only [enterOpening, Bool.or_true]

theorem gateOpen_of_demouldWait (h : (s.unit p).state = .demouldWait) :
    gateOpen p src s = (enterOpening p false s.timebase s, true) := by
  simp only [gateOpen, h]

theorem gateOpen_of_timed_out (h : (s.unit p).state = .closing) (ht : (s.unit p).closeTimedOut = true) :
    gateOpen p src s = (enterOpening p true s.timebase s, true) := by
  simp only [gateOpen, h, ht, if_true]

/-- The law of R137: no plain OPEN passes in CURE, nor in CLOSING before the close timeout expired. -/
theorem gateOpen_of_cure_incomplete (h : (s.unit p).state = .cure
      ∨ (s.unit p).state = .closing ∧ (s.unit p).closeTimedOut = false) :
    gateOpen p src s = (refuse p.val openCode src .cureIncomplete .openRefused (.press p) s, false) := by
  obtain hc | ⟨hc, ht⟩ := h
  · simp only [gateOpen, hc]
  · simp [gateOpen, hc, ht]

/-- In every other state the OPEN has nothing to interrupt, so it passes without effect. -/
theorem gateOpen_of_no_effect (h : (s.unit p).state ∈
      [.disabled, .idle, .chargeWait, .chargeReady, .opening, .eject, .unload, .fault]) :
    gateOpen p src s = (s, true) := by
  cases hs : (s.unit p).state with
  | closing | cure | demouldWait => simp [hs] at h
  | disabled | idle | chargeWait | chargeReady | opening | eject | unload | fault => simp only [gateOpen, hs]

/-! ## The obligations -/

/-- Settles O27: in CLOSING the gate answers PASS with the state it found, elsewhere a reason is a refusal. -/
theorem closeGate : Obligations.CloseGate := by
  refine ⟨rfl, fun s bytes f p h => ⟨fun hs => ?closing, fun reason hs hr => ?refused⟩⟩
  case closing =>
    rw [exec_closeCommand h, gateClose_of_closing (s := s.linkActivity) hs, passOn_of_pass]
  case refused =>
    have hr' : s.linkActivity.closeReason p = some reason := (linkActivity_closeReason s p).trans hr
    rw [exec_closeCommand h, gateClose_of_reason (s := s.linkActivity) hs hr', passOn_of_drop, refuse_eq,
      closeCode]

/-- Settles O29: the three answers of the gate, PASS into OPENING, DROP with a refusal, and PASS without effect,
over the states of the unit. -/
theorem openGate : Obligations.OpenGate := by
  intro s bytes f p h refused
  have drops (hc : (s.unit p).state = .cure
      ∨ (s.unit p).state = .closing ∧ (s.unit p).closeTimedOut = false) :
      exec (.openCommand bytes) s = .next refused := by
    rw [exec_openCommand h, gateOpen_of_cure_incomplete (s := s.linkActivity) hc, passOn_of_drop, refuse_eq]
    rfl
  refine ⟨fun hs => ?demouldWait, fun hs ht => ?timedOut, fun hs ht => drops (.inr ⟨hs, ht⟩),
    fun hs => drops (.inl hs), fun hs => ?passes⟩
  case demouldWait =>
    rw [exec_openCommand h, gateOpen_of_demouldWait (s := s.linkActivity) hs, passOn_of_pass,
      enterOpening_of_not_abort, linkActivity_timebase]
  case timedOut =>
    rw [exec_openCommand h, gateOpen_of_timed_out (s := s.linkActivity) hs ht, passOn_of_pass,
      enterOpening_of_abort, linkActivity_timebase]
  case passes =>
    rw [exec_openCommand h, gateOpen_of_no_effect (s := s.linkActivity) hs, passOn_of_pass]

end Sys2Proof.Proofs.PlainGates
end

