-- ==== Sys2Proof/Proofs/HistoryRequests.lean ====
section
/-! PROOFS. The history requests, R165 and R167 to R169: READ_HISTORY, ADVANCE_READ and SET_SERIAL_BASE.

A request reaches its server and the response carries what it answers. So each clause is one answer of a server
on the ring: the records from a slot on, the records that the read cursor passes, the newest record's serial. -/

namespace Sys2Proof.Proofs.HistoryRequests

open Sys2Proof.Machine Sys2Proof.Machine.State

variable {s : State} {bytes : List Byte} {f : RxFrame} {n m serial v : Nat} {start : Option Nat} {i : Fin 512}
  {r r' : Record} {h : History}

/-! ## A request on its way to its server (R190) -/

/-- A request other than RESET is answered with what its server gives. -/
theorem running_answer {q : Request} (h : s.Asked bytes f q) (hq : ∀ kind, q ≠ .reset kind) :
    running (receive .U bytes) s = .next (answer f q s.linkActivity) := by
  have ⟨_, _, _, _, _, hdecode⟩ := h
  rw [running_asked h, serve, hdecode]
  cases q with
  | reset kind => exact absurd rfl (hq kind)
  | _ => rfl

theorem exec_readHistory (h : s.Asked bytes f (.readHistory start n)) :
    exec (.readHistory bytes) s = .next (s.linkActivity.respond f (s.linkActivity.readHistory start n).1
      (s.linkActivity.readHistory start n).2 .plain) :=
  running_answer h nofun

theorem exec_advanceRead (h : s.Asked bytes f (.advanceRead n)) :
    exec (.advanceRead bytes) s = .next ((s.linkActivity.advanceRead n).1.respond f
      (s.linkActivity.advanceRead n).2.1 (s.linkActivity.advanceRead n).2.2 .plain) :=
  running_answer h nofun

theorem exec_setSerialBase (h : s.Asked bytes f (.setSerialBase v)) :
    exec (.setSerialBase bytes) s = .next ((s.linkActivity.setSerialBase v).1.respond f
      (s.linkActivity.setSerialBase v).2.1 (s.linkActivity.setSerialBase v).2.2 .plain) :=
  running_answer h nofun

@[simp] theorem linkActivity_history (s : State) : s.linkActivity.history = s.history := rfl

/-! ## The records from a slot on (R168) -/

theorem recordsFrom_newest (hi : s.history.slots[i] = some r) (hlast : nextSlot i = s.history.writePos) :
    s.recordsFrom (n + 1) i = [r] := by
  simp only [recordsFrom, hi, if_pos hlast]

theorem recordsFrom_succ (hi : s.history.slots[i] = some r) (hmore : nextSlot i ≠ s.history.writePos) :
    s.recordsFrom (n + 1) i = r :: s.recordsFrom n (nextSlot i) := by
  simp only [recordsFrom, hi, if_neg hmore]

theorem recordsFrom_one (hi : s.history.slots[i] = some r) : s.recordsFrom 1 i = [r] := by
  by_cases hlast : nextSlot i = s.history.writePos
  · exact recordsFrom_newest hi hlast
  · exact recordsFrom_succ hi hlast

theorem recordsFrom_two (hi : s.history.slots[i] = some r) (hmore : nextSlot i ≠ s.history.writePos)
    (hnext : s.history.slots[nextSlot i] = some r') : s.recordsFrom 2 i = [r, r'] := by
  rw [recordsFrom_succ hi hmore, recordsFrom_one hnext]

/-! ## The slot of a serial -/

theorem holds_serial_iff : (s.history.slots[i].any fun r => r.serial == serial) = true ↔
    ∃ r, s.history.slots[i] = some r ∧ r.serial = serial := by
  simp [Option.any_eq_true]

theorem holds_serial_of_slotOf (h : s.slotOf serial = some i) :
    ∃ r, s.history.slots[i] = some r ∧ r.serial = serial := by
  rw [slotOf, List.find?_eq_some_iff_append] at h
  obtain ⟨hfits, _⟩ := h
  exact holds_serial_iff.mp hfits

theorem slotOf_eq_none_iff : s.slotOf serial = none ↔
    ∀ (i : Fin 512) r, s.history.slots[i] = some r → r.serial ≠ serial := by
  simp only [slotOf, List.find?_eq_none, List.mem_finRange, true_implies, holds_serial_iff, not_exists, not_and,
    ne_eq]

theorem slotOf_of_unique (hi : s.history.slots[i] = some r) (hserial : r.serial = serial)
    (hone : ∀ (j : Fin 512) r', s.history.slots[j] = some r' → r'.serial = serial → j = i) :
    s.slotOf serial = some i := by
  cases hfound : s.slotOf serial with
  | none => exact absurd hserial (slotOf_eq_none_iff.mp hfound i r hi)
  | some j =>
    obtain ⟨r', hj, hserial'⟩ := holds_serial_of_slotOf hfound
    rw [hone j r' hj hserial']

/-! ## What READ_HISTORY reads (R168) -/

theorem readHistory_of_bad_count (h : n = 0 ∨ 2 < n) : s.readHistory start n = (.range, []) := by
  have hbad : inRange 1 2 n = false := by simp only [inRange, decide_eq_false_iff_not]; omega
  simp only [State.readHistory, hbad, if_true]

theorem readHistory_none (hn : n = 1 ∨ n = 2) : s.readHistory none n = (.ok, s.readCursorRecords n) := by
  have hgood : inRange 1 2 n = true := by simp only [inRange, decide_eq_true_eq]; omega
  simp [State.readHistory, hgood]

theorem readHistory_some (hn : n = 1 ∨ n = 2) : s.readHistory (some serial) n = s.readSerial serial n := by
  have hgood : inRange 1 2 n = true := by simp only [inRange, decide_eq_true_eq]; omega
  simp [State.readHistory, hgood]

theorem readCursorRecords_of_no_unread (h : s.history.unread = 0) : s.readCursorRecords n = [] := by
  rw [readCursorRecords, if_pos h]

theorem readCursorRecords_of_unread (h : s.history.unread ≠ 0) :
    s.readCursorRecords n = (s.recordsFrom n s.history.readCursor).flatMap recordBytes := by
  rw [readCursorRecords, if_neg h]

theorem readSerial_of_slot (h : s.slotOf serial = some i) :
    s.readSerial serial n = (.ok, (s.recordsFrom n i).flatMap recordBytes) := by
  unfold readSerial
  rw [h]

theorem readSerial_of_unknown (h : s.slotOf serial = none) : s.readSerial serial n = (.range, []) := by
  unfold readSerial
  rw [h]

/-! ## The read cursor moves (R169) -/

/-- The ring after the read cursor has passed `m` records. -/
def passed (m : Nat) (h : History) : History :=
  { h with readCursor := ⟨(h.readCursor.val + m) % 512, Nat.mod_lt _ (by decide)⟩, unread := h.unread - m }

/-- What the slot holds that stands `j` slots after the read cursor. -/
def ahead (h : History) (j : Nat) : Option Record :=
  h.slots[(h.readCursor.val + j) % 512]'(Nat.mod_lt _ (by decide))

/-- A read cursor asked to pass `n` records stops after `m`: they are unread and none of them is OPEN, and it
stops at the count, at the newest record, or at an OPEN record. -/
def StopsAfter (h : History) (n m : Nat) : Prop :=
  m ≤ n ∧ m ≤ h.unread ∧ (∀ j, j < m → ∀ r, ahead h j = some r → r.state ≠ .opened)
    ∧ (m = n ∨ m = h.unread ∨ ∃ r, ahead h m = some r ∧ r.state = .opened)

@[simp] theorem passed_unread : (passed m h).unread = h.unread - m := rfl

theorem passed_zero (h : History) : passed 0 h = h := by
  have hcursor : (⟨(h.readCursor.val + 0) % 512, Nat.mod_lt _ (by decide)⟩ : Fin 512) = h.readCursor :=
    Fin.ext (Nat.mod_eq_of_lt h.readCursor.isLt)
  rw [passed, hcursor]
  rfl

theorem passed_passed_one (m : Nat) (h : History) : passed m (passed 1 h) = passed (m + 1) h := by
  have hcursor : ((h.readCursor.val + 1) % 512 + m) % 512 = (h.readCursor.val + (m + 1)) % 512 := by omega
  have hunread : h.unread - 1 - m = h.unread - (m + 1) := by omega
  simp only [passed, hcursor, hunread]

theorem ahead_passed_one (h : History) (j : Nat) : ahead (passed 1 h) j = ahead h (j + 1) := by
  have hslot : ((h.readCursor.val + 1) % 512 + j) % 512 = (h.readCursor.val + (j + 1)) % 512 := by omega
  simp only [ahead, passed, hslot]

theorem ahead_zero (h : History) : ahead h 0 = h.slots[h.readCursor] := by
  simp only [ahead, Nat.add_zero, Nat.mod_eq_of_lt h.readCursor.isLt]
  rfl

theorem cursorOpen_iff : s.cursorOpen = true ↔ ∃ r, ahead s.history 0 = some r ∧ r.state = .opened := by
  simp [cursorOpen, ahead_zero, Option.any_eq_true]

/-- It stops where it stands: no record is unread, or the one at the cursor is OPEN. -/
theorem stopsAfter_zero (hstop : h.unread = 0 ∨ ∃ r, ahead h 0 = some r ∧ r.state = .opened) :
    StopsAfter h n 0 :=
  ⟨Nat.zero_le n, Nat.zero_le _, nofun, .inr (hstop.imp_left Eq.symm)⟩

/-- It passes an unread record that is not OPEN, and stops where it does from the next slot on. -/
theorem stopsAfter_succ (hunread : h.unread ≠ 0) (hclosed : ∀ r, ahead h 0 = some r → r.state ≠ .opened)
    (hrest : StopsAfter (passed 1 h) n m) : StopsAfter h (n + 1) (m + 1) := by
  obtain ⟨hcount, hbound, hpassed, hend⟩ := hrest
  rw [passed_unread] at hbound hend
  simp only [ahead_passed_one] at hpassed hend
  refine ⟨by omega, by omega, fun j hj => ?notOpen, ?stops⟩
  case notOpen =>
    cases j with
    | zero => exact hclosed
    | succ j => exact hpassed j (by omega)
  case stops =>
    obtain hn | hu | hopen := hend
    · exact .inl (by omega)
    · exact .inr (.inl (by omega))
    · exact .inr (.inr hopen)

theorem advanceCursor_of_stop (hstop : s.history.unread = 0 ∨ s.cursorOpen = true) :
    advanceCursor n s = (0, s) := by
  cases n with
  | zero => rfl
  | succ n => rw [advanceCursor, if_pos hstop]

theorem advanceCursor_succ (hpass : ¬(s.history.unread = 0 ∨ s.cursorOpen = true)) :
    advanceCursor (n + 1) s = ((advanceCursor n (s.modHistory (passed 1))).1 + 1,
      (advanceCursor n (s.modHistory (passed 1))).2) := by
  rw [advanceCursor, if_neg hpass]
  rfl

theorem modHistory_passed_zero (s : State) : s.modHistory (passed 0) = s := by
  simp only [modHistory, passed_zero]

/-- What moving the read cursor does: it passes as many records as R169 lets it. -/
theorem advanceCursor_stopsAfter (n : Nat) (s : State) : ∃ m, StopsAfter s.history n m
    ∧ advanceCursor n s = (m, s.modHistory (passed m)) := by
  induction n generalizing s with
  | zero => exact ⟨0, ⟨Nat.le_refl 0, Nat.zero_le _, nofun, .inl rfl⟩, by rw [modHistory_passed_zero]; rfl⟩
  | succ n ih =>
    by_cases hstop : s.history.unread = 0 ∨ s.cursorOpen = true
    · exact ⟨0, stopsAfter_zero (hstop.imp_right cursorOpen_iff.mp),
        by rw [modHistory_passed_zero, advanceCursor_of_stop hstop]⟩
    · obtain ⟨hunread, hclosed⟩ := not_or.mp hstop
      obtain ⟨m, hrest, hmoved⟩ := ih (s.modHistory (passed 1))
      have hnotOpen (r : Record) (hr : ahead s.history 0 = some r) : r.state ≠ .opened :=
        fun hopen => hclosed (cursorOpen_iff.mpr ⟨r, hr, hopen⟩)
      refine ⟨m + 1, stopsAfter_succ hunread hnotOpen hrest, ?_⟩
      rw [advanceCursor_succ hstop, hmoved]
      simp only [modHistory, passed_passed_one]

/-! ## The hold state after the move (R165) -/

/-- The hold state ends under HOLD once the unread count is at the low mark or below. -/
theorem holdAfterAdvance_eq (s : State) : holdAfterAdvance s = s.modHistory fun h =>
    { h with hold := h.hold && !(decide (s.tables.cell.policy = .hold)
      && decide (h.unread ≤ s.tables.cell.lowMark)) } := by
  unfold holdAfterAdvance
  split
  case isTrue hends =>
    obtain ⟨hpolicy, _, hlow⟩ := hends
    simp only [modHistory, hpolicy, hlow, decide_true, Bool.and_true, Bool.not_true, Bool.and_false]
  case isFalse hstays =>
    have hkept : (s.history.hold && !(decide (s.tables.cell.policy = .hold)
        && decide (s.history.unread ≤ s.tables.cell.lowMark))) = s.history.hold := by grind
    simp only [modHistory, hkept]

/-! ## What ADVANCE_READ answers (R169) -/

theorem advanceRead_of_bad_count (h : n = 0 ∨ 512 < n) : s.advanceRead n = (s, .range, []) := by
  have hbad : inRange 1 512 n = false := by simp only [inRange, decide_eq_false_iff_not]; omega
  rw [State.advanceRead, if_pos hbad]

theorem advanceRead_of_moved (h1 : 1 ≤ n) (h512 : n ≤ 512)
    (hmoved : advanceCursor n s = (m, s.modHistory (passed m))) :
    s.advanceRead n = (holdAfterAdvance (s.modHistory (passed m)), .ok, natBytes 2 m) := by
  have hgood : ¬inRange 1 512 n = false := by simp [inRange, h1, h512]
  simp only [State.advanceRead, if_neg hgood, hmoved]

/-! ## What SET_SERIAL_BASE answers (R167) -/

theorem anyOpen_iff : s.anyOpen = true ↔ ∃ p : PressNo, s.history.openRecord[p] ≠ none := by
  simp [anyOpen, Option.isSome_iff_ne_none]

theorem setSerialBase_of_open (h : s.anyOpen = true) : s.setSerialBase v = (s, .inUse, []) := by
  rw [State.setSerialBase, if_pos h]

theorem setSerialBase_of_newest (h : ¬s.anyOpen = true) (hr : s.newest = some r) (hv : v ≤ r.serial) :
    s.setSerialBase v = (s, .range, []) := by
  simp [State.setSerialBase, h, hr, hv]

theorem setSerialBase_of_above (h : ¬s.anyOpen = true) (hv : ∀ r, s.newest = some r → r.serial < v) :
    s.setSerialBase v = (s.modHistory fun h => { h with nextSerial := v }, .ok, natBytes 4 v) := by
  have habove : ¬(s.newest.any fun r => decide (v ≤ r.serial)) = true := by
    rw [Option.any_eq_true]
    rintro ⟨r, hr, hle⟩
    exact absurd (hv r hr) (Nat.not_lt.mpr (of_decide_eq_true hle))
  rw [State.setSerialBase, if_neg h, if_neg habove]

/-! ## The obligation -/

/-- Settles O51: READ_HISTORY by its start, ADVANCE_READ by where the read cursor stops, SET_SERIAL_BASE by its
two tests. -/
theorem historyRequests : Obligations.HistoryRequests := by
  intro s bytes f
  refine ⟨fun start n h => ?read, fun n h => ⟨fun hn => ?badAdvance, fun h1 h512 => ?advance⟩,
    fun v h => ⟨fun hopen => ?inUse, fun r hopen hr hv => ?notAbove, fun hopen hv => ?base⟩⟩
  case read =>
    intro from'
    have records (i : Fin 512) (r : Record) (hi : s.linkActivity.history.slots[i] = some r)
        (hread : s.linkActivity.readHistory start n
          = (.ok, (s.linkActivity.recordsFrom n i).flatMap recordBytes)) : from' i r := by
      refine ⟨?one, ?newest, ?two⟩
      case one =>
        rintro rfl
        rw [exec_readHistory h, hread, recordsFrom_one hi, List.flatMap_singleton]
      case newest =>
        rintro rfl hlast
        rw [exec_readHistory h, hread, recordsFrom_newest hi hlast, List.flatMap_singleton]
      case two =>
        rintro r' rfl hmore hnext
        rw [exec_readHistory h, hread, recordsFrom_two hi hmore hnext, List.flatMap_cons, List.flatMap_singleton]
    refine ⟨fun hn => ?badCount, fun hn => ⟨?noneUnread, ?cursor, ?unknown, ?serial⟩⟩
    case badCount => rw [exec_readHistory h, readHistory_of_bad_count hn]
    case noneUnread =>
      rintro rfl hunread
      rw [exec_readHistory h, readHistory_none hn, readCursorRecords_of_no_unread (s := s.linkActivity) hunread]
    case cursor =>
      rintro r rfl hunread hr
      refine records _ r hr ?_
      rw [readHistory_none hn, readCursorRecords_of_unread (s := s.linkActivity) hunread, linkActivity_history]
    case unknown =>
      rintro serial rfl hserial
      rw [exec_readHistory h, readHistory_some hn,
        readSerial_of_unknown (slotOf_eq_none_iff (s := s.linkActivity) |>.mpr hserial)]
    case serial =>
      rintro serial i r rfl hi hserial hone
      refine records i r hi ?_
      rw [readHistory_some hn, readSerial_of_slot (slotOf_of_unique (s := s.linkActivity) hi hserial hone)]
  case badAdvance => rw [exec_advanceRead h, advanceRead_of_bad_count hn]
  case advance =>
    obtain ⟨m, ⟨hcount, hbound, hclosed, hend⟩, hmoved⟩ := advanceCursor_stopsAfter n s.linkActivity
    refine ⟨m, hcount, hbound, ⟨hclosed, hend⟩, ?_⟩
    rw [exec_advanceRead h, advanceRead_of_moved h1 h512 hmoved, holdAfterAdvance_eq]
    rfl
  case inUse => rw [exec_setSerialBase h, setSerialBase_of_open (s := s.linkActivity) (anyOpen_iff.mpr hopen)]
  case notAbove =>
    rw [exec_setSerialBase h, setSerialBase_of_newest (s := s.linkActivity) (mt anyOpen_iff.mp hopen) hr hv]
  case base =>
    rw [exec_setSerialBase h, setSerialBase_of_above (s := s.linkActivity) (mt anyOpen_iff.mp hopen) hv]

end Sys2Proof.Proofs.HistoryRequests
end

