-- ==== Sys2Proof/Proofs/StepRules.lean ====
section
/-! PROOFS. What a step can do, said once: a pin changes, or a running part takes a reset that is due and then
one action. An action is an event of the part's own or the end of a received frame, and a received frame is
classified, reaches a block or a request, and is forwarded or answered.

Each invariant is then a set of rules, one per thing that a step can do. A rule takes a predicate `Q` of the state
that an action finds to a predicate `Q'` of the state that it leaves; for an invariant the two are one. -/

namespace Sys2Proof.Proofs.StepRules

set_option Elab.async false

open Sys2Proof.Machine Sys2Proof.Machine.State

variable {P Q Q' : State → Prop}

/-! ## Actions -/

/-- What the commands of a running part do. -/
inductive Action : (State → State) → Prop
  | nothing : Action id
  | tick : Action Machine.tick
  | start (p : Port) : Action (startTransmission p)
  | ends (p : Port) : Action (endTransmission p)
  | linkExpiry : Action fun s => if linkDue s then { s with linkPin := false, linkStart := none } else s
  | windowEnd (p : PressNo) : Action fun s => doIf (s.windowDue p) (windowEnds p) s
  | dwell (p : PressNo) : Action fun s => doIf (s.dwellDue p) (dwellExpires p) s
  | maxCure (p : PressNo) : Action fun s => doIf (s.maxCureDue p) (maxCureExpires p) s
  | lift (k : ScaleNo) : Action fun s => doIf (s.liftDue k) (liftExpires k) s
  | closeTimer (p : PressNo) : Action fun s => doIf (s.closeTimerDue p) (closeTimerExpires p) s
  | compareA (p : PressNo) : Action fun s => doIf (s.compareADue p) (reachA p) s
  | compareB (p : PressNo) : Action fun s => doIf (s.compareBDue p) (reachB p) s
  | exports : Action exportMoves
  | ejectOffs : Action placeEjectOffs
  | offs : Action placeOwed
  | frame (p : Port) (bytes : List Byte) : Action (receive p bytes)

/-- The commands that are changes of the pins. -/
def isPin : Instr → Bool
  | .powerOnReset | .resetNAssert | .strapChange _ => true
  | _ => false

/-- Every other command is an action of a running part. -/
theorem exec_eq_running (c : Instr) (h : isPin c = false) :
    ∃ g, Action g ∧ ∀ s, exec c s = running g s := by
  cases c
  case powerOnReset | resetNAssert | strapChange => cases h
  case timebaseTick => exact ⟨_, .tick, fun _ => rfl⟩
  case transmitStart p => exact ⟨_, .start p, fun _ => rfl⟩
  case transmitEnd p => exact ⟨_, .ends p, fun _ => rfl⟩
  case linkPinExpiry => exact ⟨_, .linkExpiry, fun _ => rfl⟩
  case windowEnd p => exact ⟨_, .windowEnd p, fun _ => rfl⟩
  case dwellExpiry p => exact ⟨_, .dwell p, fun _ => rfl⟩
  case maxCureExpiry p => exact ⟨_, .maxCure p, fun _ => rfl⟩
  case liftTimerExpiry k => exact ⟨_, .lift k, fun _ => rfl⟩
  case closeTimerExpiry p => exact ⟨_, .closeTimer p, fun _ => rfl⟩
  case compareA p => exact ⟨_, .compareA p, fun _ => rfl⟩
  case compareB p => exact ⟨_, .compareB p, fun _ => rfl⟩
  case exportMove => exact ⟨_, .exports, fun _ => rfl⟩
  case ejectOffPlace => exact ⟨_, .ejectOffs, fun _ => rfl⟩
  case offCommandPlace => exact ⟨_, .offs, fun _ => rfl⟩
  case warmResetEffect | coldShutdownStart | coldResetEffect => exact ⟨_, .nothing, fun _ => rfl⟩
  all_goals exact ⟨_, .frame _ _, fun _ => rfl⟩

/-- Every command answers a next state. -/
theorem exec_answers (c : Instr) (s : State) : ∃ t, exec c s = .next t := by
  by_cases h : isPin c = false
  · obtain ⟨g, _, hg⟩ := exec_eq_running c h
    exact ⟨_, hg s⟩
  · cases c
    case powerOnReset | resetNAssert | strapChange => exact ⟨_, rfl⟩
    all_goals exact absurd rfl h

/-! ## Rules -/

/-- The small effects that go with every frame: queues, counters and events. -/
structure LinkRules (Q : State → Prop) : Prop where
  link {s} : Q s → Q s.linkActivity
  raise {s} (k : EventKind) (i : EventOn) : Q s → Q (s.raiseNow k i)
  forward {s} (p : Port) (b : List Byte) : Q s → Q (s.forwardTo p b)
  originate {s} (p : Port) (d : Nat) (k : FrameKind) (b : List Byte) (m : Mark) :
    Q s → Q (s.originate p d k b m)
  check {s} (p : Port) : Q s → Q (s.countCheck p)
  format {s} (p : Port) : Q s → Q (s.countFormat p)
  foreign {s} (p : Port) : Q s → Q (s.countForeign p)
  reset {s} (r : ResetPending) : Q s → Q { s with resetPending := r }

/-- What a received frame can do. The rules that take `Q` to `Q` are those that one frame can use many times. -/
structure FrameRules (Q Q' : State → Prop) : Prop where
  before : LinkRules Q
  after : LinkRules Q'
  into {s} : Q s → Q' s
  thermo {s} (node : Nat) (e : ChannelEntry) (time : Time) (z : ZoneNo) :
    Q s → Q (s.zoneTakes node e time z)
  scale {s} (k : ScaleNo) (node : Nat) (time : Time) (e : ChannelEntry) :
    Q s → Q (s.takeScaleEntry k node time e)
  press {s} (p : PressNo) (r : PressReport) : Q s → r.arrival = s.timebase → Q' (s.takePress p r)
  ejector {s} (p : PressNo) (r : EjectorReport) : Q s → Q' (s.takeEjector p r)
  close {s} (p : PressNo) : Q s → s.closeReason p = none → Q' (s.beginCycle p s.timebase)
  opens {s} (p : PressNo) : Q s → (s.unit p).state = .demouldWait → Q' (s.enterOpening p false s.timebase)
  aborts {s} (p : PressNo) : Q s → (s.unit p).state = .closing → Q' (s.enterOpening p true s.timebase)
  emergency {s} (p : PressNo) : Q s → Q (s.gateEmergency p)
  request {s} (r : Request) : Q s → Q' (s.serveRequest r).1

/-- What an action can do. -/
structure ActionRules (Q Q' : State → Prop) : Prop where
  frames : FrameRules Q Q'
  tick {s} : Q s → Q' (tick s)
  start {s} (p : Port) : Q s → Q' (startTransmission p s)
  sent {s} (p : Port) : Q s → Q' (s.modPort p fun x => { x with sending := none })
  linkOff {s} : Q s → Q' { s with linkPin := false, linkStart := none }
  windowEnd {s} (p : PressNo) : Q s → s.windowDue p = true → Q' (s.windowEnds p)
  dwell {s} (p : PressNo) : Q s → s.dwellDue p = true → Q' (s.dwellExpires p)
  maxCure {s} (p : PressNo) : Q s → s.maxCureDue p = true → Q' (s.maxCureExpires p)
  lift {s} (k : ScaleNo) : Q s → s.liftDue k = true → Q' (s.liftExpires k)
  closeTimer {s} (p : PressNo) : Q s → s.closeTimerDue p = true → Q' (s.closeTimerExpires p)
  compareA {s} (p : PressNo) : Q s → s.compareADue p = true → Q' (s.reachA p)
  compareB {s} (p : PressNo) : Q s → s.compareBDue p = true → Q' (s.reachB p)
  exports {s} : Q s → Q' s.exportMoves
  ejectOffs {s} : Q s → Q' s.placeEjectOffs
  offs {s} : Q s → Q' s.placeOwed

/-- What a reset that is due can do. -/
structure DueRules (Q : State → Prop) : Prop where
  warm {s} : Q s → s.resetPending = .due .warm → Q s.warmEffect
  shutdown {s} : Q s → s.resetPending = .due .cold → Q s.coldShutdown
  cold {s} : Q s → Q s.coldEffect

/-! ## A received frame -/

variable {s t : State}

theorem doIf_rule {c : Bool} {g : State → State} (h : Q s → c = true → Q' (g s)) (h0 : Q s → Q' s) (hs : Q s) :
    Q' (doIf c g s) := by
  cases c
  · exact h0 hs
  · exact h hs rfl

theorem each_rule {α : Type} {g : α → State → State} (h : ∀ a {s}, Q s → Q (g a s)) (l : List α) (hs : Q s) :
    Q (each g l s) :=
  each_invariant g Q (fun a _ => h a) l s hs

section

variable (rules : FrameRules Q Q')
include rules

theorem FrameRules.refuse (press code src : Nat) (reason : Reason) (k : EventKind) (i : EventOn) (hs : Q s) :
    Q' (s.refuse press code src reason k i) :=
  rules.after.raise k i (rules.after.originate _ _ _ _ _ (rules.into hs))

theorem FrameRules.passOn (bytes : List Byte) {x : State × Bool} (h : Q' x.1) : Q' (passOn bytes x) := by
  unfold Machine.State.passOn
  split
  · exact rules.after.forward _ _ h
  · exact h

theorem FrameRules.gateClose (p : PressNo) (src : Nat) (hs : Q s) : Q' (s.gateClose p src).1 := by
  unfold Machine.State.gateClose
  split
  · exact rules.into hs
  · split
    · exact rules.refuse _ _ _ _ _ _ hs
    · rename_i hreason
      exact rules.close p hs hreason

theorem FrameRules.gateOpen (p : PressNo) (src : Nat) (hs : Q s) : Q' (s.gateOpen p src).1 := by
  have refused : Q' (s.refuse p.val openCode src .cureIncomplete .openRefused (.press p)) :=
    rules.refuse _ _ _ _ _ _ hs
  unfold Machine.State.gateOpen
  cases hst : (s.unit p).state with
  | demouldWait => exact rules.opens p hs hst
  | closing =>
    dsimp only
    split
    · exact rules.aborts p hs hst
    · exact refused
  | cure => exact refused
  | _ => exact rules.into hs

theorem FrameRules.commandToPress (p : PressNo) (f : RxFrame) (hs : Q s) : Q' (s.commandToPress p f) := by
  unfold Machine.State.commandToPress
  split
  · exact rules.after.raise _ _ (rules.into (rules.before.format _ hs))
  · exact rules.passOn _ (rules.gateClose _ _ hs)
  · exact rules.passOn _ (rules.gateOpen _ _ hs)
  · exact rules.after.forward _ _ (rules.into (rules.emergency p hs))
  · exact rules.after.forward _ _ (rules.into hs)

theorem FrameRules.heatUnless (c : Bool) (n : Nat) (b : List Byte) (hs : Q s) : Q' (s.heatUnless c n b) := by
  cases c
  · exact rules.after.forward _ _ (rules.into hs)
  · exact rules.after.raise _ _ (rules.into hs)

theorem FrameRules.takeBroadcast (f : RxFrame) (hs : Q s) : Q' (s.takeBroadcast f) := by
  have forwarded : Q' (s.forwardTo .D f.bytes) := rules.after.forward _ _ (rules.into hs)
  unfold Machine.State.takeBroadcast broadcastCommand
  split
  · split
    · exact rules.refuse _ _ _ _ _ _ hs
    · exact rules.refuse _ _ _ _ _ _ hs
    · exact rules.into (each_rule (fun p => rules.emergency p) _ (rules.before.forward _ _ hs))
    · exact forwarded
    · exact forwarded
  · split
    · exact rules.heatUnless _ _ _ hs
    · exact forwarded

theorem FrameRules.serve (f : RxFrame) (hs : Q s) : Q' (s.serve f) := by
  unfold Machine.State.serve
  split
  · exact rules.after.originate _ _ _ _ _ (rules.into hs)
  · unfold serveReset
    split
    · exact rules.after.originate _ _ _ _ _ (rules.after.reset _ (rules.into hs))
    · exact rules.after.reset _ (rules.after.originate _ _ _ _ _ (rules.into hs))
  · exact rules.after.originate _ _ _ _ _ (rules.request _ hs)

theorem FrameRules.takeOwn (f : RxFrame) (hs : Q s) : Q' (s.takeOwn f) := by
  unfold Machine.State.takeOwn
  repeat' split
  · exact rules.serve f hs
  · exact rules.into hs
  · exact rules.into (rules.before.foreign _ hs)
  · exact rules.into hs

/-- Classification on Port U. -/
theorem FrameRules.takeUp (f : RxFrame) (hs : Q s) : Q' (s.takeUp f) := by
  unfold Machine.State.takeUp
  repeat' split
  · exact rules.takeOwn f hs
  · exact rules.takeBroadcast f hs
  · exact rules.commandToPress _ f hs
  · exact rules.heatUnless _ _ _ hs
  · exact rules.after.forward _ _ (rules.into hs)

theorem FrameRules.deliver {α : Type} (x : Option α) (g : α → State → State)
    (h : ∀ a, x = some a → Q' (g a s)) (hs : Q s) : Q' (deliver x g s) := by
  cases x with
  | none => exact rules.after.raise _ _ (rules.into (rules.before.format _ hs))
  | some a => exact h a rfl

theorem FrameRules.consume (n : NodeEntry) (f : RxFrame) (hs : Q s) : Q' (s.consume n f) := by
  unfold Machine.State.consume
  cases n.role with
  | none | heater => exact rules.into hs
  | thermo =>
    refine doIf_rule (fun hs _ => rules.deliver _ _ (fun es _ => ?_) hs) rules.into hs
    exact rules.into (each_rule (fun e _ => each_rule (fun z => rules.thermo _ e _ z) _) es hs)
  | scale =>
    refine doIf_rule (fun hs _ => rules.deliver _ _ (fun es _ => ?_) hs) rules.into hs
    exact rules.into (each_rule (fun e => rules.scale _ _ _ e) es hs)
  | press =>
    refine doIf_rule (fun hs _ => rules.deliver _ _ (fun r hr => rules.press _ r hs ?_) hs) rules.into hs
    unfold pressReportOf at hr
    split at hr
    · obtain ⟨_, _, rfl⟩ := Option.map_eq_some_iff.mp hr
      rfl
    · cases hr
  | ejector => exact doIf_rule (fun hs _ => rules.deliver _ _ (fun r _ => rules.ejector _ r hs) hs) rules.into hs

/-- Classification on Port D. -/
theorem FrameRules.takeDown (f : RxFrame) (hs : Q s) : Q' (s.takeDown f) := by
  unfold Machine.State.takeDown fieldRequest
  dsimp only
  repeat' split
  · exact rules.after.forward _ _ (rules.into (doIf_rule (fun hs _ => rules.before.foreign _ hs) id hs))
  · exact rules.after.forward _ _ (rules.into hs)
  · exact doIf_rule (fun h _ => rules.after.forward _ _ h) id (rules.consume _ f hs)

/-- The end of a frame. -/
theorem FrameRules.receive (p : Port) (bytes : List Byte) (hs : Q s) : Q' (s.receive p bytes) := by
  unfold Machine.State.receive accepted checkFailed
  dsimp only
  have hl : Q s.linkActivity := rules.before.link hs
  repeat' split
  · exact rules.takeUp _ hl
  · exact rules.takeDown _ hl
  · exact rules.after.forward _ _ (rules.into hl)
  · exact rules.after.raise _ _ (rules.into (rules.before.check _ hs))
  · exact rules.into hs

end

/-! ## A command and a step -/

theorem ActionRules.action (rules : ActionRules Q Q') {g : State → State} (hg : Action g) (hs : Q s) :
    Q' (g s) := by
  have into {s} : Q s → Q' s := rules.frames.into
  cases hg with
  | nothing => exact into hs
  | tick => exact rules.tick hs
  | start p => exact rules.start p hs
  | ends p =>
    unfold endTransmission
    split
    · exact into hs
    · refine doIf_rule (Q := Q') (fun h _ => ?_) id (rules.frames.after.link (rules.sent p hs))
      unfold responseSent
      split
      · exact rules.frames.after.reset _ h
      · exact h
      · exact h
  | linkExpiry =>
    dsimp only
    split
    · exact rules.linkOff hs
    · exact into hs
  | windowEnd p => exact doIf_rule (rules.windowEnd p) into hs
  | dwell p => exact doIf_rule (rules.dwell p) into hs
  | maxCure p => exact doIf_rule (rules.maxCure p) into hs
  | lift k => exact doIf_rule (rules.lift k) into hs
  | closeTimer p => exact doIf_rule (rules.closeTimer p) into hs
  | compareA p => exact doIf_rule (rules.compareA p) into hs
  | compareB p => exact doIf_rule (rules.compareB p) into hs
  | exports => exact rules.exports hs
  | ejectOffs => exact rules.ejectOffs hs
  | offs => exact rules.offs hs
  | frame p bytes => exact rules.frames.receive p bytes hs

theorem DueRules.takeDueReset (rules : DueRules Q) (hs : Q s) : Q s.takeDueReset := by
  have hdue : Q s.takeDue := by
    unfold takeDue
    split
    · exact rules.warm hs ‹_›
    · exact rules.shutdown hs ‹_›
    · exact hs
    · exact hs
  unfold Machine.State.takeDueReset endShutdown
  split
  · exact rules.cold hdue
  · exact hdue

/-- A command keeps what the pins, a reset that is due and every action keep. `Q` is what is known while the part
runs, with RESET_N high. -/
theorem exec_keeps (enter : ∀ {s}, P s → s.resetHeld = false → Q s) (exit : ∀ {s}, Q s → P s)
    (hold : ∀ {s}, P s → P s.holdReset) (strap : ∀ {s} (v : BitVec 6), P s → P { s with strap := v })
    (power : ∀ {s}, P s → P s.coldEffect) (due : DueRules Q) (actions : ActionRules Q Q)
    {c : Instr} (hs : P s) (h : exec c s = .next t) : P t := by
  by_cases hc : isPin c = false
  · obtain ⟨g, hg, hrun⟩ := exec_eq_running c hc
    rw [hrun, running] at h
    cases h
    split
    · exact hs
    · exact exit (actions.action hg (due.takeDueReset (enter hs (Bool.eq_false_iff.mpr ‹_›))))
  · cases c
    case powerOnReset => cases h; exact power hs
    case resetNAssert => cases h; exact hold hs
    case strapChange v =>
      cases h
      refine strap v ?_
      split
      · exact hs
      · exact exit (due.takeDueReset (enter hs (Bool.eq_false_iff.mpr ‹_›)))
    all_goals exact absurd rfl hc

/-- A step keeps what every command keeps and the queue of commands has no part in. -/
theorem step_keeps (queue : ∀ {s} (l : List Instr), P s → P { s with pending := l })
    (exec_keeps : ∀ {s t c}, P s → exec c s = .next t → P t) (hs : P s) (h : step s = .next t) : P t := by
  unfold step at h
  split at h
  · cases h; exact hs
  · exact exec_keeps (queue _ hs) h

end Sys2Proof.Proofs.StepRules
end

