-- ==== Sys2Proof/Proofs/UpheldLaws.lean ====
section
/-! PROOFS. Laws of the queues, the counters, the events, the off frames and the ring.

Most operations change parts that these laws do not speak of, in ways that they do not mind. `Upheld Q` lists the
updates that a law of this sort has to be kept by; that every action then keeps it is proved once, operation by
operation, in the order of the model's files. -/

namespace Sys2Proof.Proofs.UpheldLaws

set_option Elab.async false

open Sys2Proof.Machine Sys2Proof.Machine.State Sys2Proof.Proofs.StepRules

/-- The ring's counts agree with its slots (the body of `RingLaw`). -/
def Agrees (h : History) : Prop :=
  h.unread ≤ h.stored ∧ h.stored ≤ 512 ∧ (∀ i : Fin 512, h.slots[i].isSome = decide (i.val < h.stored))
    ∧ (h.stored < 512 → h.writePos.val = h.stored) ∧ (h.readCursor.val + h.unread) % 512 = h.writePos.val

theorem ringLaw_iff {s : State} : s.RingLaw ↔ Agrees s.history := Iff.rfl

/-- The updates that keep a law `Q`. -/
structure Upheld (Q : State → Prop) : Prop where
  links : LinkRules Q
  raise {s} (t : Time) (k : EventKind) (i : EventOn) : Q s → Q (s.raise t k i)
  clear {s} (kinds : Fin 25 → Bool) : Q s → Q (s.clearEvents kinds)
  enable {s} (kinds : Fin 25 → Bool) : Q s → Q (s.enableEvents kinds)
  zone {s} (z : ZoneNo) (f : Zone → Zone) (hf : (f (s.zone z)).offs ⊆ (s.zone z).offs) :
    Q s → Q (s.modZone z f)
  window {s} (p : PressNo) (f : HeatWindow → HeatWindow) : Q s → Q (s.modWindow p f)
  cure {s} (p : PressNo) (f : Cure → Cure) : Q s → Q (s.modCure p f)
  accrual {s} (z : ZoneNo) (f : Accrual → Accrual) (hf : (s.accrual z).bounded → (f (s.accrual z)).bounded) :
    Q s → Q (s.modAccrual z f)
  scale {s} (k : ScaleNo) (f : Scale → Scale) : Q s → Q (s.modScale k f)
  unit {s} (p : PressNo) (f : PressUnit → PressUnit) : Q s → Q (s.modUnit p f)
  ejector {s} (p : PressNo) (f : Ejector → Ejector) (hf : (f (s.ejector p)).offOwed = (s.ejector p).offOwed) :
    Q s → Q (s.modEjector p f)
  profile {s} (p : PressNo) (b : Fin 2) (f : Profile → Profile)
    (hf : (s.profile p b).points.length ≤ Config.profilePlaces →
      (f (s.profile p b)).points.length ≤ Config.profilePlaces) : Q s → Q (s.modProfile p b f)
  tables {s} (f : Tables → Tables) : Q s → Q (s.modTables f)
  history {s} (f : History → History) (hf : Agrees s.history → Agrees (f s.history)) : Q s → Q (s.modHistory f)
  store {s} (p : PressNo) (r : Record) : Q s → Q (storeRecord p r s.takeSlot)
  hand {s} (r : Record) : Q s → Q (s.handToExport r)
  moves {s} : Q s → Q s.exportMoves
  places {s} : Q s → Q s.placeOwed
  ejectOffs {s} : Q s → Q s.placeEjectOffs
  offCreated {s} (z : ZoneNo) : Q s → Q (s.createOff z).placeOwed
  offOwed {s} (p : PressNo) : Q s → Q (s.oweEjectOff p).placeOwed
  cut {s} (p : PressNo) : Q s → Q (doIf (!s.warmTaking) placeOwed (s.oweEjectOff p))
  start {s} (p : Port) : Q s → Q (startTransmission p s)
  sent {s} (p : Port) : Q s → Q (s.modPort p fun x => { x with sending := none })
  tick {s} : Q s → Q (tick s)
  linkOff {s} : Q s → Q { s with linkPin := false, linkStart := none }
  free {s} (n : Nat) : Q s → Q { s with freeCounter := n }

/-- What the steps of a reset do beside the operations that `Upheld` speaks of. -/
structure ResetRules (Q : State → Prop) : Prop where
  queues {s} : Q s → Q s.warmQueues
  taking {s} : Q s → Q { s with exportQueue := [], warmTaking := true }
  taken {s} : Q s → Q { s with warmTaking := false }
  locks {s} : Q s → Q s.warmLocks
  events {s} : Q s → Q s.warmEvents
  shutdown {s} : Q s → Q { s with resetPending := .idle, shutdown := true }
  off {s} (z : ZoneNo) : Q s → Q (s.createOff z)
  owed {s} (p : PressNo) : Q s → Q (s.oweEjectOff p)
  cold {s} : Q s → Q s.coldEffect

variable {Q : State → Prop} {s : State}

namespace Upheld

variable (up : Upheld Q)
include up

omit up in
theorem doIf {c : Bool} {g : State → State} (h : Q s → Q (g s)) (hs : Q s) : Q (doIf c g s) :=
  doIf_rule (fun hs _ => h hs) id hs

theorem raiseNow (k : EventKind) (i : EventOn) (hs : Q s) : Q (s.raiseNow k i) := up.raise _ k i hs

/-! ## Records (R158 to R173) -/

theorem record (p : PressNo) (f : Record → Record) (hs : Q s) : Q (s.modRecord p f) := by
  unfold modRecord
  split
  · rename_i i _
    refine up.history _ (fun ⟨hu, hst, hsl, hw, hr⟩ => ⟨hu, hst, fun j => ?_, hw, hr⟩) hs
    rw [← hsl j]
    by_cases hij : i.val = j.val
    · simp [hij]
    · simp [hij]
  · exact hs

theorem setFlag (p : PressNo) (f : RecordFlag) (hs : Q s) : Q (s.setFlag p f) := up.record p _ hs

/-- A change of the ring's fields beside its counts and slots. -/
theorem historyField (f : History → History) (hs : Q s)
    (hf : ∀ h, (f h).unread = h.unread ∧ (f h).stored = h.stored ∧ (f h).slots = h.slots
      ∧ (f h).writePos = h.writePos ∧ (f h).readCursor = h.readCursor := by
        intros; exact ⟨rfl, rfl, rfl, rfl, rfl⟩) : Q (s.modHistory f) := by
  refine up.history f (fun h => ?_) hs
  obtain ⟨hu, hst, hsl, hw, hr⟩ := hf s.history
  simp only [Agrees, hu, hst, hsl, hw, hr]
  exact h

theorem closeRecord (p : PressNo) (c : CloseCause) (t : Time) (hs : Q s) : Q (s.closeRecord p c t) := by
  unfold Machine.State.closeRecord
  dsimp only
  split
  · exact hs
  · rename_i r _
    refine up.hand _ ?_
    have h2 : Q ((s.modRecord p fun _ => closedRecord c t r).modHistory
        fun h => { h with openRecord := h.openRecord.set p none }) :=
      up.historyField _ (up.record p _ hs)
    split
    · exact up.profile p _ _ id h2
    · exact h2

theorem takeBuffer (p : PressNo) (n : Nat) (hs : Q s) : Q (s.takeBuffer p n) := by
  unfold Machine.State.takeBuffer
  split
  · exact hs
  · exact up.profile _ _ _ (fun _ => Nat.zero_le _) hs

theorem holdAfterAllocation (hs : Q s) : Q s.holdAfterAllocation := by
  unfold Machine.State.holdAfterAllocation
  split
  · exact up.raiseNow _ _ (up.historyField _ hs)
  · exact hs

theorem holdAfterAdvance (hs : Q s) : Q s.holdAfterAdvance := by
  unfold Machine.State.holdAfterAdvance
  split
  · exact up.historyField _ hs
  · exact hs

theorem holdAfterCellWrite (hs : Q s) : Q s.holdAfterCellWrite := by
  have held (f : History → Bool) : Q (s.modHistory fun h => { h with hold := f h }) :=
    up.historyField _ hs
  unfold Machine.State.holdAfterCellWrite
  repeat' split
  · exact held _
  · exact held _
  · exact up.raiseNow _ _ (held _)
  · exact hs

theorem allocate (p : PressNo) (b : Binding) (c : ChargeRecord) (t : Time) (hs : Q s) :
    Q (s.allocate p b c t) :=
  up.holdAfterAllocation (up.takeBuffer _ _ (up.store _ _ hs))

theorem takePoint (p : PressNo) (b : Fin 2) (offset interval : Nat) (hs : Q s) :
    Q (s.takePoint p b offset interval) := by
  have hpoint (point : ProfilePoint) (next : Nat) : Q (s.modProfile p b (addPoint point next)) := by
    refine up.profile p b _ (fun h => ?_) hs
    unfold addPoint
    split
    · simpa using ‹_›
    · exact h
  unfold Machine.State.takePoint
  dsimp only
  split
  · exact hpoint _ _
  · exact up.setFlag _ _ (hpoint _ _)

theorem windowEndHistory (p : PressNo) (t : Time) (hs : Q s) : Q (s.windowEndHistory p t) := by
  unfold Machine.State.windowEndHistory
  repeat' split
  · exact up.takePoint _ _ _ _ hs
  · exact hs
  · exact hs

omit up in
/-- One record passed by the read cursor: one unread record fewer before the write position. -/
theorem agrees_passed {h : History} (hpos : h.unread ≠ 0) (hh : Agrees h) :
    Agrees { h with readCursor := nextSlot h.readCursor, unread := h.unread - 1 } := by
  obtain ⟨hu, hst, hsl, hw, hr⟩ := hh
  refine ⟨by simp only; omega, hst, hsl, hw, ?_⟩
  simp only [nextSlot]
  omega

theorem advanceCursor (n : Nat) (hs : Q s) : Q (s.advanceCursor n).2 := by
  induction n generalizing s with
  | zero => exact hs
  | succ n ih =>
    unfold Machine.State.advanceCursor
    split
    · exact hs
    · rename_i hpass
      exact ih (up.history _ (agrees_passed (fun h => hpass (.inl h))) hs)

/-! ## Cures (section 5) -/

theorem recomputeProgress (p : PressNo) (hs : Q s) : Q (s.recomputeProgress p) := by
  unfold Machine.State.recomputeProgress
  split
  · exact up.cure _ _ hs
  · exact hs

theorem endCure (p : PressNo) (t : Time) (hs : Q s) : Q (s.endCure p t) := up.record _ _ (up.cure _ _ hs)

theorem permitTest (p : PressNo) (t : Time) (hs : Q s) : Q (s.permitTest p t) := by
  unfold Machine.State.permitTest
  split
  · exact up.unit _ _ (up.endCure _ _ (up.raise _ _ _ (up.cure _ _ hs)))
  · exact hs

theorem loseCure (p : PressNo) (t : Time) (hs : Q s) : Q (s.loseCure p t) :=
  up.setFlag _ _ (up.raise _ _ _ (up.cure _ _ hs))

theorem excludeZone (z : ZoneNo) (t : Time) (hs : Q s) : Q (s.excludeZone z t) := by
  unfold Machine.State.excludeZone
  dsimp only
  split
  · have h2 (g : Record → Record) : Q (((s.modAccrual z fun a => { a with inclusion := .excluded }).modCure
        (pressOf z) fun x => { x with excluded := x.excluded + 1 }).modRecord (pressOf z) g) :=
      up.record _ _ (up.cure _ _ (up.accrual z _ id hs))
    split
    · exact up.loseCure _ _ (h2 _)
    · exact up.permitTest _ _ (up.recomputeProgress _ (h2 _))
  · exact hs

omit up in
theorem includeZone_bounded (s' : State) (z : ZoneNo) {a : Accrual} (ha : a.bounded) :
    (includeZone s' z a).bounded := by
  unfold includeZone
  split
  · exact ⟨Nat.zero_le _, by decide⟩
  · exact ha

theorem startCure (p : PressNo) (r : Recipe) (t : Time) (hs : Q s) : Q (s.startCure p r t) := by
  have h1 : Q (s.includeZones p) :=
    each_rule (fun z {_} h => up.accrual z _ (includeZone_bounded s z) h) _ hs
  unfold Machine.State.startCure
  dsimp only
  split
  · exact up.loseCure _ _ (up.record _ _ (up.cure _ _ h1))
  · exact each_rule (fun z {_} => up.excludeZone z t) _ (up.record _ _ (up.cure _ _ h1))

omit up in
theorem accrueStep_bounded (factor dt : Nat) {a : Accrual} (ha : a.bounded) (prev : Option Time) :
    ({ accrueStep factor dt a with prevArrival := prev } : Accrual).bounded := by
  unfold accrueStep
  dsimp only
  split
  · exact ⟨Nat.le_refl _, Nat.zero_lt_succ _⟩
  · have := ha.1
    exact ⟨by simp only; omega, Nat.mod_lt _ (by decide)⟩

theorem accrue (z : ZoneNo) (m : Int) (t : Time) (hs : Q s) : Q (s.accrue z m t) :=
  up.permitTest _ _ (up.recomputeProgress _
    (up.accrual z _ (fun h => accrueStep_bounded _ _ h _) (Upheld.doIf (up.raise _ _ _) hs)))

theorem takeHanded (z : ZoneNo) (m : Int) (t : Time) (hs : Q s) : Q (s.takeHanded z m t) := by
  unfold Machine.State.takeHanded
  dsimp only
  repeat' split
  · exact up.accrue _ _ _ (up.record _ _ (up.cure _ _ hs))
  · exact up.record _ _ (up.cure _ _ hs)
  · exact hs

theorem dwellExpires (p : PressNo) (hs : Q s) : Q (s.dwellExpires p) := up.permitTest _ _ (up.cure _ _ hs)

theorem maxCureExpires (p : PressNo) (hs : Q s) : Q (s.maxCureExpires p) := by
  unfold Machine.State.maxCureExpires timeOutCure
  dsimp only
  split
  · exact up.permitTest _ _ (up.cure _ _ hs)
  · exact up.unit _ _ (up.endCure _ _ (up.setFlag _ _ (up.raiseNow _ _ (up.cure _ _ (up.cure _ _ hs)))))

/-! ## Heat (section 4) -/

/-- A change of a zone that leaves its off commands. -/
theorem zoneField (z : ZoneNo) (f : Zone → Zone) (hs : Q s)
    (hf : ∀ c, (f c).offs = c.offs := by intros; rfl) : Q (s.modZone z f) :=
  up.zone z f (by rw [hf]; exact List.Subset.refl _) hs

theorem setBase (z : ZoneNo) (b : Int) (hs : Q s) : Q (s.setBase z b) := up.zoneField z _ hs

theorem takeRecipeBase (r : Recipe) (z : ZoneNo) (hs : Q s) : Q (s.takeRecipeBase r z) := by
  unfold Machine.State.takeRecipeBase
  split
  · exact up.setBase _ _ hs
  · exact hs

theorem immediateHeat (z : ZoneNo) (hs : Q s) : Q (s.immediateHeat z) := by
  unfold Machine.State.immediateHeat
  split
  · exact up.links.originate _ _ _ _ _ hs
  · exact hs

theorem clearOffsFor (n o : Nat) (z : ZoneNo) (hs : Q s) : Q (s.clearOffsFor n o z) :=
  up.zone z _ (List.filter_subset_self _) hs

theorem startWindow (p : PressNo) (hs : Q s) : Q (s.startWindow p) := by
  unfold Machine.State.startWindow
  split
  · exact hs
  · exact up.window _ _ hs

theorem stopWindow (p : PressNo) (hs : Q s) : Q (s.stopWindow p) := by
  unfold Machine.State.stopWindow
  split
  · exact up.window _ _ hs
  · exact hs

theorem raiseSwitch (z : ZoneNo) (t : Time) (hs : Q s) : Q (s.raiseSwitch z t) :=
  up.setFlag _ _ (up.raise _ _ _ hs)

theorem switchToBackup (z : ZoneNo) (t : Time) (hs : Q s) : Q (s.switchToBackup z t) :=
  up.raiseSwitch _ _ (up.zoneField z _ hs)

theorem loseZone (z : ZoneNo) (t : Time) (hs : Q s) : Q (s.loseZone z t) :=
  up.excludeZone _ _ (up.raise _ _ _ (up.zoneField z _ hs))

theorem failoverOrLose (z : ZoneNo) (t : Time) (hs : Q s) : Q (s.failoverOrLose z t) := by
  unfold Machine.State.failoverOrLose
  repeat' split
  · exact up.switchToBackup _ _ (up.zoneField z _ hs)
  · exact up.loseZone _ _ hs
  · exact hs

omit up in
theorem holdCounted_offs (c : Zone) : (holdCounted c).offs = c.offs := by
  unfold holdCounted; split <;> rfl

theorem commitAndRamp (z : ZoneNo) (hs : Q s) : Q (s.commitAndRamp z) := up.zoneField z _ hs

theorem zoneWindowEnd (t : Time) (z : ZoneNo) (hs : Q s) : Q (s.zoneWindowEnd t z) :=
  up.commitAndRamp z
    (Upheld.doIf (up.failoverOrLose z t) (up.zoneField z _ hs holdCounted_offs))

theorem sendNodeHeat (p : PressNo) (n : Nat) (hs : Q s) : Q (s.sendNodeHeat p n) := by
  unfold Machine.State.sendNodeHeat clearCarried
  dsimp only
  repeat' split
  · exact hs
  · exact each_rule (fun e {_} => each_rule (fun z {_} => up.clearOffsFor _ _ z) _) _
      (up.window _ _ (up.links.originate _ _ _ _ _ hs))
  · exact up.window _ _ (up.links.originate _ _ _ _ _ hs)

theorem sendHeatFrames (p : PressNo) (hs : Q s) : Q (s.sendHeatFrames p) := by
  unfold Machine.State.sendHeatFrames
  exact each_rule (fun n {_} => up.sendNodeHeat p n) _ (up.window _ _ hs)

theorem windowEnds (p : PressNo) (hs : Q s) : Q (s.windowEnds p) := by
  unfold Machine.State.windowEnds nextWindow
  exact up.windowEndHistory _ _ (up.sendHeatFrames p
    (each_rule (fun z {_} => up.zoneWindowEnd _ z) _ (up.window _ _ hs)))

/-! ## Zones (section 3) -/

theorem regulate (z : ZoneNo) (m : Int) (t : Time) (hs : Q s) : Q (s.regulate z m t) :=
  up.zoneField z _ hs

theorem overtempEntry (z : ZoneNo) (t : Time) (hs : Q s) : Q (s.overtempEntry z t) :=
  up.setFlag _ _ (up.raise _ _ _ (up.immediateHeat _ (up.zoneField z _ hs)))

theorem deviationTest (z : ZoneNo) (m : Int) (t : Time) (hs : Q s) : Q (s.deviationTest z m t) := by
  have counted (n : Nat) : Q (s.modZone z fun c => { c with deviationCount := n }) :=
    up.zoneField z _ hs
  unfold Machine.State.deviationTest
  dsimp only
  repeat' split
  · exact up.zoneField z _ (up.setFlag _ _ (up.raise _ _ _ (counted _)))
  · exact counted _
  · exact counted _
  · exact hs
  · exact hs

theorem finishSample (z : ZoneNo) (m : Int) (t : Time) (hs : Q s) : Q (s.finishSample z m t) :=
  up.takeHanded _ _ _ (up.deviationTest _ _ _ (up.zoneField z _ hs))

theorem sampleRegulating (z : ZoneNo) (m : Int) (t : Time) (hs : Q s) : Q (s.sampleRegulating z m t) := by
  have h1 : Q (s.modZone z fun c => { withSample m c with state := .regulating }) :=
    up.zoneField z _ hs
  refine up.finishSample _ _ _ ?_
  split
  · exact up.overtempEntry _ _ h1
  · exact up.regulate _ _ _ h1

theorem sampleOvertemp (z : ZoneNo) (m : Int) (t : Time) (hs : Q s) : Q (s.sampleOvertemp z m t) := by
  have h1 : Q (s.modZone z (withSample m)) := up.zoneField z _ hs
  refine up.finishSample _ _ _ ?_
  split
  · exact up.regulate _ _ _ (up.zoneField z _ h1)
  · exact h1

theorem sampleLost (z : ZoneNo) (a : ActiveSensor) (m : Int) (t : Time) (hs : Q s) : Q (s.sampleLost z a m t) :=
  up.sampleRegulating _ _ _ (up.zoneField z _
    (Upheld.doIf (up.raiseSwitch z t) (up.zoneField z _ hs)))

theorem sensorFault (z : ZoneNo) (t : Time) (hs : Q s) : Q (s.sensorFault z t) := by
  unfold Machine.State.sensorFault
  dsimp only
  split
  · exact up.switchToBackup _ _ (up.raise _ _ _ hs)
  · exact up.zoneField z _ (up.raise _ _ _ hs)

theorem treatEntry (z : ZoneNo) (a : ActiveSensor) (st : ChannelStatus) (m : Int) (t : Time) (hs : Q s) :
    Q (s.treatEntry z a st m t) := by
  unfold Machine.State.treatEntry
  dsimp only
  split
  · exact hs
  · exact up.sampleLost _ _ _ _ hs
  · exact hs
  · split
    · exact up.sampleRegulating _ _ _ hs
    · exact hs
  · split
    · exact up.sampleRegulating _ _ _ hs
    · exact hs
  · split
    · exact up.sampleOvertemp _ _ _ hs
    · exact hs
  · split
    · exact up.sensorFault _ _ hs
    · exact hs

theorem zoneTakes (n : Nat) (e : ChannelEntry) (t : Time) (z : ZoneNo) (hs : Q s) : Q (s.zoneTakes n e t z) := by
  unfold Machine.State.zoneTakes recordEntry
  split
  · refine up.treatEntry _ _ _ _ _ (up.zoneField z _ hs fun c => ?_)
    split <;> rfl
  · exact hs

theorem returnToPrimary (z : ZoneNo) (hs : Q s) : Q (s.returnToPrimary z) := by
  unfold Machine.State.returnToPrimary
  split
  · exact up.zoneField z _ hs
  · exact hs

theorem enableZone (z : ZoneNo) (hs : Q s) : Q (s.enableZone z) := by
  have h1 : Q (s.modZone z enabledContext) := up.zoneField z _ hs
  unfold Machine.State.enableZone
  refine up.startWindow _ (up.setBase _ _ ?_)
  repeat' split
  · exact up.clearOffsFor _ _ _ (up.takeRecipeBase _ _ h1)
  · exact up.clearOffsFor _ _ _ h1
  · exact up.takeRecipeBase _ _ h1
  · exact h1

theorem disableZone (z : ZoneNo) (t : Time) (hs : Q s) : Q (s.disableZone z t) :=
  up.excludeZone _ _ (up.stopWindow _ (up.offCreated z (up.zoneField z _ hs)))

theorem setOverride (z : ZoneNo) (v : Int) (hs : Q s) : Q (s.setOverride z v) :=
  up.zoneField z _ (up.setBase _ _ hs)

theorem clearOverride (z : ZoneNo) (hs : Q s) : Q (s.clearOverride z) := by
  unfold Machine.State.clearOverride
  dsimp only
  split
  · exact up.setBase _ _ (up.zoneField z _ hs)
  · exact up.zoneField z _ hs

/-! ## Scales (section 6) -/

theorem evaluate (k : ScaleNo) (v : Int) (hs : Q s) : Q (s.evaluate k v) :=
  up.links.originate _ _ _ _ _ (Upheld.doIf (up.raiseNow _ _) (up.scale _ _ hs))

theorem evaluateTo (k : ScaleNo) (v : Int) (hs : Q s) : Q (s.evaluateTo k v) := up.scale _ _ (up.evaluate _ _ hs)

theorem requeue (k : ScaleNo) (f : List QueueEntry → List QueueEntry) (hs : Q s) : Q (s.requeue k f) := by
  have h1 : Q (s.modScale k fun c => { c with queue := f c.queue }) := up.scale _ _ hs
  unfold Machine.State.requeue changeOfHead
  dsimp only
  repeat' split
  all_goals first
    | exact h1
    | exact up.evaluateTo _ _ h1
    | exact up.evaluate _ _ h1

theorem leaveQueue (p : PressNo) (hs : Q s) : Q (s.leaveQueue p) := by
  refine each_rule (fun k {x} hx => ?_) _ hs
  split
  · exact up.requeue _ _ hx
  · exact hx

theorem release (k : ScaleNo) (g : Int) (t : Time) (hs : Q s) : Q (s.release k g t) := by
  unfold Machine.State.release
  refine up.scale _ _ ?_
  repeat' split
  all_goals first
    | exact hs
    | exact up.unit _ _ hs

theorem takeGross (k : ScaleNo) (g : Int) (t : Time) (hs : Q s) : Q (s.takeGross k g t) := by
  have scaled (f : Scale → Scale) : Q (s.modScale k f) := up.scale _ _ hs
  unfold Machine.State.takeGross toOverload grossEmpty grossLoading grossVerdict grossLifting grossOverload
    toLifting
  dsimp only
  repeat' split
  all_goals first
    | exact hs
    | exact scaled _
    | exact up.release _ _ _ hs
    | exact up.raiseNow _ _ (scaled _)
    | exact up.evaluateTo _ _ (up.scale _ _ (scaled _))
    | exact Upheld.doIf (up.evaluateTo _ _) (scaled _)
    | refine Upheld.doIf (fun h => ?_) (scaled _)
  unfold zeroTrack
  dsimp only
  repeat' split
  all_goals first
    | exact h
    | exact up.scale _ _ h
    | exact up.raiseNow _ _ (up.scale _ _ h)

theorem takePair (k : ScaleNo) (a b : Int) (t : Time) (hs : Q s) : Q (s.takePair k a b t) := by
  have scaled (f : Scale → Scale) : Q (s.modScale k f) := up.scale _ _ hs
  unfold Machine.State.takePair pairAgreesMismatch pairDisagrees toOverload
  dsimp only
  repeat' split
  all_goals first
    | exact scaled _
    | exact up.raiseNow _ _ (scaled _)
    | exact up.takeGross _ _ _ hs

theorem takeScaleEntry (k : ScaleNo) (n : Nat) (t : Time) (e : ChannelEntry) (hs : Q s) :
    Q (s.takeScaleEntry k n t e) := by
  have scaled (f : Scale → Scale) : Q (s.modScale k f) := up.scale _ _ hs
  unfold Machine.State.takeScaleEntry takeChannelA takeChannelB takeA takeB skip
  dsimp only
  repeat' split
  all_goals first
    | exact hs
    | exact scaled _
    | exact up.scale _ _ (scaled _)
    | exact up.scale _ _ (up.scale _ _ (scaled _))
    | exact up.takeGross _ _ _ (scaled _)
    | exact up.takeGross _ _ _ (up.scale _ _ (scaled _))
    | exact up.takePair _ _ _ _ (up.scale _ _ (scaled _))

/-! ## Ejectors (section 8) -/

theorem ejectorField (p : PressNo) (f : Ejector → Ejector) (hs : Q s)
    (hf : ∀ e, (f e).offOwed = e.offOwed := by intros; rfl) : Q (s.modEjector p f) := up.ejector p f (hf _) hs

theorem ejectOn (p : PressNo) (hs : Q s) : Q (s.ejectOn p) := by
  unfold Machine.State.ejectOn
  split
  · exact up.links.originate _ _ _ _ _ hs
  · exact hs

theorem setSetup (p : PressNo) (on : Bool) (hs : Q s) : Q (s.setSetup p on) := up.ejectorField p _ hs

theorem stopEjection (p : PressNo) (hs : Q s) : Q (s.stopEjection p) :=
  up.ejectorField p _ (up.offOwed p hs)

theorem cutEjection (p : PressNo) (hs : Q s) : Q (s.cutEjection p) := by
  unfold Machine.State.cutEjection
  split
  · exact hs
  · exact up.ejectorField p _ (up.cut p hs)

theorem reachA (p : PressNo) (hs : Q s) : Q (s.reachA p) := by
  unfold Machine.State.reachA
  split
  · exact up.setFlag _ _ (up.ejectorField p _ hs)
  · exact up.ejectorField p _ (up.ejectOn p hs)

theorem finishEjection (p : PressNo) (hs : Q s) : Q (s.finishEjection p) := up.unit _ _ (up.stopEjection p hs)

theorem reachB (p : PressNo) (hs : Q s) : Q (s.reachB p) := by
  unfold Machine.State.reachB
  split
  · exact up.setFlag _ _ (up.ejectorField p _ hs)
  · exact up.finishEjection p hs

theorem ejectStep (p : PressNo) (hs : Q s) : Q (s.ejectStep p).1 := by
  unfold Machine.State.ejectStep
  split
  all_goals dsimp only
  · exact up.ejectorField p _ (up.ejectOn p hs)
  · exact up.finishEjection p hs
  all_goals exact hs

theorem takeEjector (p : PressNo) (r : EjectorReport) (hs : Q s) : Q (s.takeEjector p r) := by
  have h1 : Q (s.modEjector p fun e => { e with lastStatus := some r }) :=
    up.ejectorField p _ hs
  unfold Machine.State.takeEjector followPeak stuckPart
  dsimp only
  split
  · refine Upheld.doIf (fun h => up.closeRecord _ _ _ (up.unit _ _ (up.setFlag _ _ (up.raise _ _ _
      (up.stopEjection p h))))) ?_
    split
    · exact up.record _ _ (up.ejectorField p _ h1)
    · exact h1
  · exact h1

/-! ## Press units (section 7) -/

theorem attemptBinding (p : PressNo) (r : PressReport) (hs : Q s) : Q (s.attemptBinding p r) := by
  unfold Machine.State.attemptBinding bindUnit joinQueue
  split
  · exact up.requeue _ _ (up.unit _ _ (each_rule (fun z {_} => up.takeRecipeBase _ z) _ (up.unit _ _ hs)))
  · exact up.unit _ _ hs

theorem giveUpCharge (p : PressNo) (hs : Q s) : Q (s.giveUpCharge p) := by
  unfold Machine.State.giveUpCharge discardCharge
  split
  · exact up.leaveQueue p hs
  · exact up.raiseNow _ _ (up.unit _ _ hs)
  · exact hs

theorem pressEnable (p : PressNo) (hs : Q s) : Q (s.pressEnable p).1 := by
  unfold Machine.State.pressEnable
  repeat' split
  all_goals dsimp only
  all_goals first
    | exact hs
    | exact up.unit _ _ hs

theorem pressDisable (p : PressNo) (hs : Q s) : Q (s.pressDisable p) := by
  unfold Machine.State.pressDisable
  split
  · exact hs
  all_goals first
    | exact up.unit _ _ hs
    | exact up.unit _ _ (up.giveUpCharge p hs)

theorem mouldTestCycle (p : PressNo) (r : PressReport) (hs : Q s) : Q (s.mouldTestCycle p r) := by
  unfold Machine.State.mouldTestCycle
  split
  · exact up.setFlag _ _ (up.raise _ _ _ (up.unit _ _ hs))
  · exact hs

theorem closingTest (p : PressNo) (r : PressReport) (hs : Q s) : Q (s.closingTest p r) := by
  unfold Machine.State.closingTest enterCure
  repeat' split
  · exact each_rule (fun z {_} => (fun h => up.zoneField z _ h)) _
      (up.startCure _ _ _ (up.record _ _ (up.unit _ _ hs)))
  · exact hs
  · exact hs

theorem openingTest (p : PressNo) (r : PressReport) (hs : Q s) : Q (s.openingTest p r) := by
  unfold Machine.State.openingTest beginEjection
  repeat' split
  · exact up.unit _ _ hs
  · exact Upheld.doIf (up.reachA p) (up.ejectorField p _ (up.unit _ _ hs))
  · exact hs
  · exact hs

theorem endCycle (p : PressNo) (t : Time) (hs : Q s) : Q (s.endCycle p t) := by
  have h1 (c : CloseCause) (g : PressUnit → PressUnit) : Q ((s.closeRecord p c t).modUnit p g) :=
    up.unit _ _ (up.closeRecord _ _ _ hs)
  unfold Machine.State.endCycle afterCycle joinQueue
  dsimp only
  generalize hc : (if (s.unit p).aborted then CloseCause.endAborted else .endOfCycle) = c
  repeat' split
  · exact up.unit _ _ (h1 _ _)
  · exact up.unit _ _ (h1 _ _)
  · exact up.requeue _ _ (up.unit _ _ (h1 _ _))
  · exact h1 _ _

theorem takePress (p : PressNo) (r : PressReport) (hs : Q s) : Q (s.takePress p r) := by
  have h1 : Q (s.modUnit p fun u => { u with lastStatus := some r }) := up.unit _ _ hs
  have h2 := up.mouldTestCycle p r h1
  unfold Machine.State.takePress testReport cureTest unloadTest mouldTestWaiting
  repeat' split
  all_goals first
    | exact h1
    | exact h2
    | exact up.attemptBinding _ _ h1
    | exact up.unit _ _ (up.giveUpCharge _ h1)
    | exact up.closingTest _ _ h2
    | exact up.setFlag _ _ h2
    | exact up.openingTest _ _ h2
    | exact up.endCycle _ _ h2

theorem forceDemould (p : PressNo) (hs : Q s) : Q (s.forceDemould p).1 := by
  unfold Machine.State.forceDemould
  split
  · dsimp only
    exact up.unit _ _ (up.setFlag _ _ (up.endCure _ _ hs))
  · exact hs

theorem beginCycle (p : PressNo) (t : Time) (hs : Q s) : Q (s.beginCycle p t) := by
  unfold Machine.State.beginCycle
  split
  · exact up.unit _ _ (each_rule (fun z {_} => up.returnToPrimary z) _ (up.allocate _ _ _ _ hs))
  · exact hs

theorem enterOpening (p : PressNo) (a : Bool) (t : Time) (hs : Q s) : Q (s.enterOpening p a t) :=
  up.record _ _ (up.unit _ _ hs)

theorem gateEmergency (p : PressNo) (hs : Q s) : Q (s.gateEmergency p) := by
  have h1 := up.raiseNow .emergencyOpen (.press p) hs
  unfold Machine.State.gateEmergency emergencyOpening
  dsimp only
  split
  · exact up.setFlag _ _ (up.enterOpening _ _ _ h1)
  · exact up.setFlag _ _ (up.enterOpening _ _ _ h1)
  · exact up.setFlag _ _ (up.enterOpening _ _ _ (up.endCure _ _ h1))
  all_goals exact h1

theorem resetUnit (p : PressNo) (c : CloseCause) (hs : Q s) : Q (s.resetUnit p c) := by
  unfold Machine.State.resetUnit cutCycle
  split
  · exact hs
  · exact up.unit _ _ hs
  · exact up.unit _ _ (up.giveUpCharge p (Upheld.doIf (up.closeRecord _ _ _)
      (Upheld.doIf (up.cutEjection p) (Upheld.doIf (up.endCure _ _) hs))))

/-! ## Tables (section 2) -/

omit up in
theorem judgeWrite (valid guarded : Bool) {store : State → State} (h : Q s → Q (store s)) (hs : Q s) :
    Q (judgeWrite valid guarded store s).1 := by
  unfold Machine.State.judgeWrite
  repeat' split
  · exact hs
  · exact hs
  · exact h hs

theorem lowerDuty (z : ZoneNo) (hs : Q s) : Q (s.lowerDuty z) :=
  Upheld.doIf (up.immediateHeat z) (up.zoneField z _ hs)

theorem offsetWritten (z : ZoneNo) (hs : Q s) : Q (s.offsetWritten z) := by
  unfold Machine.State.offsetWritten
  split
  · exact up.takeRecipeBase _ _ hs
  · exact hs

theorem zoneWritten (old : Vector ZoneEntry 48) (z : ZoneNo) (hs : Q s) : Q (s.zoneWritten old z) :=
  Upheld.doIf (up.offsetWritten z) (Upheld.doIf (up.setBase z _) (up.lowerDuty z (up.zoneField z _ hs)))

theorem storeZones (start count : Nat) (v : Vector ZoneEntry 48) (hs : Q s) : Q (s.storeZones start count v) :=
  each_rule (fun z {_} => up.zoneWritten _ z) _ (up.tables _ hs)

theorem storeScales (v : Vector ScaleEntry 2) (hs : Q s) : Q (s.storeScales v) :=
  each_rule (fun k {_} => up.scale k _) _ (up.tables _ hs)

omit up in
theorem writeEntries {α : Type} (table : TableId) (count : Nat) (bytes : List Byte) (read : List Byte → Option α)
    {write : List α → State → State × Result} (h : ∀ es, Q (write es s).1) (hs : Q s) :
    Q (writeEntries table count bytes read write s).1 := by
  unfold Machine.State.writeEntries
  split
  · exact h _
  · exact hs

omit up in
theorem writeSingle {α : Type} (bytes : List Byte) (read : List Byte → Option α)
    {write : α → State → State × Result} (h : ∀ e, Q (write e s).1) (hs : Q s) :
    Q (writeSingle bytes read write s).1 := by
  unfold Machine.State.writeSingle
  split
  · exact h _
  · exact hs

theorem writeTo (table : TableId) (start count : Nat) (bytes : List Byte) (hs : Q s) :
    Q (s.writeTo table start count bytes).1 := by
  unfold Machine.State.writeTo
  cases table with
  | node => exact writeEntries _ _ _ _ (fun _ => judgeWrite _ _ (up.tables _) hs) hs
  | zone => exact writeEntries _ _ _ _ (fun _ => judgeWrite _ _ (up.storeZones _ _ _) hs) hs
  | recipe => exact writeEntries _ _ _ _ (fun _ => judgeWrite _ _ (up.tables _) hs) hs
  | mould => exact writeEntries _ _ _ _ (fun _ => judgeWrite _ _ (up.tables _) hs) hs
  | rate => exact writeSingle _ _ (fun _ => judgeWrite _ _ (up.tables _) hs) hs
  | scale => exact writeEntries _ _ _ _ (fun _ => judgeWrite _ _ (up.storeScales _) hs) hs
  | press => exact writeEntries _ _ _ _ (fun _ => judgeWrite _ _ (up.tables _) hs) hs
  | cell => exact writeSingle _ _ (fun _ => judgeWrite _ _ (fun h => up.holdAfterCellWrite (up.tables _ h)) hs) hs
  | exports => exact writeSingle _ _ (fun _ => judgeWrite _ _ (up.tables _) hs) hs

/-! ## Requests (section 11) -/

omit up in
theorem onZone {n : Nat} {g : ZoneNo → State → Served} (h : ∀ z, Q (g z s).1) (hs : Q s) :
    Q (onZone n g s).1 := by
  unfold Machine.State.onZone
  split
  · exact h _
  · exact hs

omit up in
theorem onPress {n : Nat} {g : PressNo → State → Served} (h : ∀ p, Q (g p s).1) (hs : Q s) :
    Q (onPress n g s).1 := by
  unfold Machine.State.onPress
  split
  · exact h _
  · exact hs

omit up in
theorem onScale {n : Nat} {g : ScaleNo → State → Served} (h : ∀ k, Q (g k s).1) (hs : Q s) :
    Q (onScale n g s).1 := by
  unfold Machine.State.onScale
  split
  · exact h _
  · exact hs

omit up in
theorem onBuffer {n m : Nat} {g : PressNo → Fin 2 → State → Served} (h : ∀ p b, Q (g p b s).1) (hs : Q s) :
    Q (onBuffer n m g s).1 := by
  unfold Machine.State.onBuffer
  split
  · exact h _ _
  · exact hs

theorem zoneEnable (z : ZoneNo) (hs : Q s) : Q (s.zoneEnable z).1 := by
  unfold Machine.State.zoneEnable
  repeat' split
  · exact hs
  · exact up.enableZone z hs
  · exact hs

theorem zoneDisable (z : ZoneNo) (hs : Q s) : Q (s.zoneDisable z).1 := by
  unfold Machine.State.zoneDisable
  split
  · exact up.disableZone z _ hs
  · exact hs

theorem zoneRestore (z : ZoneNo) (hs : Q s) : Q (s.zoneRestore z).1 := by
  unfold Machine.State.zoneRestore
  dsimp only
  repeat' split
  · exact hs
  · exact hs
  · dsimp only
    exact up.zoneField z _ hs
  · exact hs

theorem scaleTare (k : ScaleNo) (hs : Q s) : Q (s.scaleTare k).1 := by
  unfold Machine.State.scaleTare
  dsimp only
  split
  · dsimp only
    exact up.scale _ _ hs
  · exact hs

theorem afterStatusRead (b : Block) (i : Nat) (hs : Q s) : Q (s.afterStatusRead b i) := by
  unfold Machine.State.afterStatusRead afterScaleRead
  repeat' split
  · exact up.free _ hs
  all_goals exact hs

theorem advanceRead (n : Nat) (hs : Q s) : Q (s.advanceRead n).1 := by
  unfold Machine.State.advanceRead
  dsimp only
  split
  · exact hs
  · exact up.holdAfterAdvance (up.advanceCursor n hs)

theorem setSerialBase (v : Nat) (hs : Q s) : Q (s.setSerialBase v).1 := by
  unfold Machine.State.setSerialBase
  repeat' split
  · exact hs
  · exact hs
  · dsimp only
    exact up.historyField _ hs

theorem setLock (p : PressNo) (b : Fin 2) (on : Bool) (hs : Q s) : Q (s.setLock p b on).1 :=
  up.profile p b (fun x => { x with locked := on }) id hs

theorem lockProfile (p : PressNo) (b : Fin 2) (hs : Q s) : Q (s.lockProfile p b).1 := by
  unfold Machine.State.lockProfile
  split
  · exact hs
  · exact up.setLock p b true hs

omit up in
theorem readProfile (p : PressNo) (b : Fin 2) (i n : Nat) (hs : Q s) : Q (s.readProfile i n p b).1 := by
  unfold Machine.State.readProfile
  dsimp only
  repeat' split
  all_goals exact hs

theorem serveClear (kinds : BitVec 32) (hs : Q s) : Q (s.serveClear kinds).1 := by
  unfold Machine.State.serveClear
  split
  · exact hs
  · exact up.clear _ hs

theorem serveEnable (kinds : BitVec 32) (hs : Q s) : Q (s.serveEnable kinds).1 := by
  unfold Machine.State.serveEnable
  split
  · exact hs
  · exact up.enable _ hs

theorem serveRequest (r : Request) (hs : Q s) : Q (s.serveRequest r).1 := by
  cases r with
  | readTable | readHistory | readEvents | reset => exact hs
  | writeTable t start count es =>
    unfold Machine.State.serveRequest writeTable
    dsimp only
    split
    · exact hs
    · exact up.writeTo _ _ _ _ hs
  | setSetpoint z v => exact onZone (fun z => up.setOverride z _ hs) hs
  | clearOverride z => exact onZone (fun z => up.clearOverride z hs) hs
  | zoneEnable z => exact onZone (fun z => up.zoneEnable z hs) hs
  | zoneDisable z => exact onZone (fun z => up.zoneDisable z hs) hs
  | zoneRestore z => exact onZone (fun z => up.zoneRestore z hs) hs
  | pressEnable p => exact onPress (fun p => up.pressEnable p hs) hs
  | pressDisable p => exact onPress (fun p => up.pressDisable p hs) hs
  | pressReset p => exact onPress (fun p => up.resetUnit p _ hs) hs
  | forceDemould p => exact onPress (fun p => up.forceDemould p hs) hs
  | setupOn p => exact onPress (fun p => up.setSetup p _ hs) hs
  | setupOff p => exact onPress (fun p => up.setSetup p _ hs) hs
  | step p => exact onPress (fun p => up.ejectStep p hs) hs
  | scaleTare k => exact onScale (fun k => up.scaleTare k hs) hs
  | readStatus b i n => exact up.afterStatusRead _ _ hs
  | advanceRead n => exact up.advanceRead n hs
  | setSerialBase v => exact up.setSerialBase v hs
  | lockProfile p b => exact onBuffer (fun p b => up.lockProfile p b hs) hs
  | unlockProfile p b => exact onBuffer (fun p b => up.setLock p b false hs) hs
  | readProfile p b i n => exact onBuffer (fun p b => readProfile p b i n hs) hs
  | clearEvents kinds => exact up.serveClear kinds hs
  | setEventEnable kinds => exact up.serveEnable kinds hs

/-! ## Every action -/

theorem frames : FrameRules Q Q where
  before := up.links
  after := up.links
  into := id
  thermo n e t z := up.zoneTakes n e t z
  scale k n t e := up.takeScaleEntry k n t e
  press p r hs _ := up.takePress p r hs
  ejector p r := up.takeEjector p r
  close p hs _ := up.beginCycle p _ hs
  opens p hs _ := up.enterOpening p _ _ hs
  aborts p hs _ := up.enterOpening p _ _ hs
  emergency p := up.gateEmergency p
  request r := up.serveRequest r

theorem actions : ActionRules Q Q where
  frames := up.frames
  tick := up.tick
  start := up.start
  sent := up.sent
  linkOff := up.linkOff
  windowEnd p hs _ := up.windowEnds p hs
  dwell p hs _ := up.dwellExpires p hs
  maxCure p hs _ := up.maxCureExpires p hs
  lift _ hs _ := up.scale _ _ hs
  closeTimer _ hs _ := up.setFlag _ _ (up.raiseNow _ _ (up.unit _ _ hs))
  compareA p hs _ := up.reachA p hs
  compareB p hs _ := up.reachB p hs
  exports := up.moves
  ejectOffs := up.ejectOffs
  offs := up.places

end Upheld

/-! ## A reset that is due -/

namespace Upheld

variable (up : Upheld Q) (rules : ResetRules Q)
include up rules

theorem warmBody (hs : Q s) : Q s.warmBody := by
  refine rules.taken (rules.locks ?_)
  unfold warmUnits warmScales
  exact each_rule (fun p {_} => up.resetUnit p _) _ (each_rule (fun k {_} => up.scale k _) _ (rules.taking hs))

theorem coldShutdown (hs : Q s) : Q s.coldShutdown := by
  unfold Machine.State.coldShutdown
  refine up.places (each_rule (fun p {x} hx => ?_) _ (each_rule (fun z {x} hx => ?_) _ (rules.shutdown hs)))
  · unfold shutOffEjector
    split
    · exact rules.owed p hx
    · exact hx
  · unfold shutOffZone
    split
    · exact rules.off z (up.zoneField z _ hx)
    · exact hx

theorem due : DueRules Q where
  warm hs _ := up.moves (up.places (rules.events (up.warmBody rules (rules.queues hs))))
  shutdown hs _ := up.coldShutdown rules hs
  cold := rules.cold

end Upheld

end Sys2Proof.Proofs.UpheldLaws
end

