-- ==== Sys2Proof/Proofs/Steps.lean ====
section
/-! PROOFS. A step runs the front command and always answers; the state after reset has every law. -/

namespace Sys2Proof.Proofs.Steps

set_option Elab.async false

open Sys2Proof.Machine Sys2Proof.Machine.State Sys2Proof.Proofs.StepRules Sys2Proof.Proofs.UpheldLaws

variable {s t : State} {l : List Instr}

/-! ## No operation touches the queue of commands -/

theorem pending_of_changes {k : List Part} (h : OnlyChanges k s t) (hs : s.pending = l)
    (hk : Part.pending ∉ k := by decide) : t.pending = l :=
  (h .pending hk).symm.trans hs

theorem markStarts_pending (m : Mark) (s : State) : (markStarts m s).pending = s.pending := by
  cases m <;> rfl

theorem startTransmission_pending (p : Port) (s : State) : (startTransmission p s).pending = s.pending := by
  have hafter (s : State) : (afterStart p s).pending = s.pending := by cases p <;> simp [afterStart]
  unfold startTransmission takeFrame
  split
  · rw [hafter]
    split
    · rw [markStarts_pending, modPort_pending]
    · rw [modPort_pending]
    · rfl
    · rfl
  · rfl

theorem pending_links (l : List Instr) : LinkRules fun s => s.pending = l where
  link := id
  raise k i hs := pending_of_changes (raiseNow_changes k i _) hs
  forward p b hs := pending_of_changes (forwardTo_changes p b _) hs
  originate p d k b m hs := pending_of_changes (originate_changes p d k b m _) hs
  check p hs := pending_of_changes (countCheck_changes p _) hs
  format p hs := pending_of_changes (countFormat_changes p _) hs
  foreign p hs := pending_of_changes (countForeign_changes p _) hs
  reset _ := id

theorem pending_upheld (l : List Instr) : Upheld fun s => s.pending = l where
  links := pending_links l
  raise t k i hs := pending_of_changes (raise_changes t k i _) hs
  clear kinds hs := by rw [clearEvents, evalAttention_pending, hs]
  enable kinds hs := by rw [enableEvents, evalAttention_pending, hs]
  zone _ _ _ := id
  window _ _ := id
  cure _ _ := id
  accrual _ _ _ := id
  scale _ _ := id
  unit _ _ := id
  ejector _ _ _ := id
  profile _ _ _ _ := id
  tables _ := id
  history _ _ := id
  store p r hs := pending_of_changes (storeRecord_changes p r _) (pending_of_changes (takeSlot_changes _) hs)
  hand r hs := pending_of_changes (handToExport_changes r _) hs
  moves hs := pending_of_changes (exportMoves_changes _) hs
  places hs := pending_of_changes (placeOwed_changes _) hs
  ejectOffs hs := pending_of_changes (placeEjectOffs_changes _) hs
  offCreated z hs := pending_of_changes (placeOwed_changes _) (pending_of_changes (createOff_changes z _) hs)
  offOwed p hs := pending_of_changes (placeOwed_changes _) (pending_of_changes (oweEjectOff_changes p _) hs)
  cut p hs := (doIf_keeps _ _ State.pending _ (placeOwed_pending _)).trans
    (pending_of_changes (oweEjectOff_changes p _) hs)
  start p hs := (startTransmission_pending p _).trans hs
  sent p hs := (modPort_pending p _ _).trans hs
  tick := id
  linkOff := id
  free _ := id

theorem pending_resets (l : List Instr) : ResetRules fun s => s.pending = l where
  queues := id
  taking := id
  taken := id
  locks := id
  events := id
  shutdown := id
  off z hs := pending_of_changes (createOff_changes z _) hs
  owed p hs := pending_of_changes (oweEjectOff_changes p _) hs
  cold := id

theorem exec_pending {c : Instr} (h : exec c s = .next t) : t.pending = s.pending :=
  exec_keeps (P := fun x => x.pending = s.pending) (fun h _ => h) id id (fun _ => id) id
    ((pending_upheld _).due (pending_resets _)) (pending_upheld _).actions rfl h

/-! ## The laws after reset -/

theorem atReset_bounded : State.reset.Bounded := by
  have port : PortState.atReset.bounded := by simp [PortState.bounded, PortState.atReset]
  refine ⟨port, port, by decide, fun z => ?_, fun i => ?_, by decide⟩
  · simp [State.reset, State.atPowerOn, Accrual.bounded, Accrual.atReset]
  · simp [State.reset, State.atPowerOn, Profile.atReset]

theorem atReset_ringLaw : State.reset.RingLaw := by
  refine ⟨by decide, by decide, fun i => ?_, fun _ => rfl, by decide⟩
  simp [State.reset, State.atPowerOn, History.atReset]

theorem atReset_cycleLaw : State.reset.CycleLaw := by
  refine ⟨fun p => ?_, by decide, fun k => by simp [State.reset, State.atPowerOn, Scale.atReset, Scale.verdictLaw]⟩
  simp [State.UnitLaw, State.reset, State.atPowerOn, State.unit, State.cure, State.ejector, State.openRecord,
    State.queuedPresses, History.atReset, PressUnit.atReset, Cure.atReset, Ejector.atReset, Scale.atReset,
    UnitState.isBound, UnitState.holdsCharge, UnitState.inCycle]

/-- Every zone is DISABLED after reset. -/
theorem atReset_enabledZones (p : PressNo) : State.reset.enabledZones p = [] := by
  simp [enabledZones, enabled, State.zone, State.reset, State.atPowerOn, Zone.atReset]

/-! ## The obligations -/

/-- Settles O3: each law holds of the Power-on values. -/
theorem resetStateHoldsLaws : Obligations.ResetStateHoldsLaws := by
  refine ⟨atReset_bounded, ⟨by decide, rfl, rfl⟩, fun z => ?duty, fun p => ?window, atReset_ringLaw, atReset_cycleLaw,
    fun z hz => ?progress, fun _ hw => ?off⟩
  case duty => simp [State.zone, State.reset, State.atPowerOn, Zone.atReset]
  case window =>
    rw [atReset_enabledZones]
    simp [State.window, State.reset, State.atPowerOn, HeatWindow.atReset]
  case progress => simp [State.cure, State.reset, State.atPowerOn, Cure.atReset] at hz
  case off => simp [State.offWaits, State.zone, State.ejector, State.reset, State.atPowerOn, Zone.atReset,
    Ejector.atReset] at hw

/-- Settles O1: the queue's front is what `step` matches on. -/
theorem stepRunsFrontCommand : Obligations.StepRunsFrontCommand := fun _ _ _ => rfl

/-- Settles O2: every command is a pin's change or an action of a running part, and none touches the queue. -/
theorem stepAlwaysAnswers : Obligations.StepAlwaysAnswers := by
  refine ⟨fun s h => by rw [step, h], fun c s => ?_⟩
  obtain ⟨t, ht⟩ := exec_answers c s
  exact ⟨t, ht, exec_pending ht⟩

end Sys2Proof.Proofs.Steps
end

