-- ==== Sys2Proof/Proofs/Bounded.lean ====
section
/-! PROOFS. Queues, counters, accumulators and buffers stay in their ranges, R20, R21, R25, R89, R173, R180.

A frame joins a queue only after the test for a place, a counter saturates, and REU moves a record only while
Port U OWN holds 12 frames or fewer. -/

namespace Sys2Proof.Proofs.Bounded

set_option Elab.async false

open Sys2Proof.Machine Sys2Proof.Machine.State Sys2Proof.Proofs.StepRules Sys2Proof.Proofs.UpheldLaws
  Sys2Proof.Proofs.Steps

variable {s t : State}

/-- The parts that have a range. -/
def rangedParts : List Part := [.portU, .portD, .exportQueue, .accruals, .profiles, .events]

/-- What leaves the ranged parts leaves their bounds. -/
theorem bounded_of_changes {k : List Part} (h : OnlyChanges k s t) (hs : s.Bounded)
    (hk : ∀ x ∈ rangedParts, x ∉ k := by decide) : t.Bounded := by
  have hU : s.portU = t.portU := h .portU (hk _ (by decide))
  have hD : s.portD = t.portD := h .portD (hk _ (by decide))
  have hX : s.exportQueue = t.exportQueue := h .exportQueue (hk _ (by decide))
  have hA : s.accruals = t.accruals := h .accruals (hk _ (by decide))
  have hP : s.profiles = t.profiles := h .profiles (hk _ (by decide))
  have hE : s.events = t.events := h .events (hk _ (by decide))
  simpa only [State.Bounded, hU, hD, hX, hA, hP, hE] using hs

theorem bounded_port (hs : s.Bounded) (p : Port) : (s.port p).bounded := by
  obtain ⟨hU, hD, _⟩ := hs
  cases p <;> assumption

/-- A port whose queues and counters stay in range keeps the part bounded. -/
theorem bounded_modPort (p : Port) (f : PortState → PortState) (hs : s.Bounded)
    (hf : (f (s.port p)).bounded) : (s.modPort p f).Bounded := by
  obtain ⟨hU, hD, hrest⟩ := hs
  cases p
  · exact ⟨hf, hD, hrest⟩
  · exact ⟨hU, hf, hrest⟩

theorem satSucc_le (max n : Nat) : satSucc max n ≤ max := Nat.min_le_right _ _

/-! ## Events (R184, R185) -/

theorem bounded_events {v : Vector EventEntry 25} (hs : s.Bounded) (hv : ∀ k : Fin 25, v[k].count ≤ 255) :
    { s with events := v }.Bounded := by
  obtain ⟨hU, hD, hX, hA, hP, _⟩ := hs
  exact ⟨hU, hD, hX, hA, hP, hv⟩

theorem bounded_noteEvent (tm : Time) (k : EventKind) (i : EventOn) (hs : s.Bounded) :
    (s.noteEvent tm k i).Bounded :=
  each_rule (Q := State.Bounded) (fun p {_} h => bounded_of_changes (modRecord_changes p _ _) h) _ hs

theorem bounded_raiseEntry (tm : Time) (k : EventKind) (i : EventOn) (hs : s.Bounded) :
    (s.raiseEntry tm k i).Bounded := by
  refine bounded_noteEvent _ _ _ (bounded_events hs fun j => ?_)
  by_cases hj : k.number.val = j.val
  · simp [hj, raisedEntry, satSucc_le]
  · simpa [hj] using hs.2.2.2.2.2 j

theorem bounded_sendEvent (tm : Time) (hs : s.Bounded) : (s.sendEvent tm).Bounded := by
  obtain ⟨hf, ho, hc, hm, hfd, hod, hr⟩ := bounded_port hs .U
  unfold sendEvent
  split
  · refine bounded_modPort .U _ hs ⟨hf, ?_, hc, hm, hfd, hod, hr⟩
    simpa [port] using ‹_›
  · exact bounded_raiseEntry _ _ _ (bounded_modPort .U _ hs ⟨hf, ho, hc, hm, hfd, satSucc_le _ _, hr⟩)

theorem bounded_evalAttention (tm : Time) (hs : s.Bounded) : (s.evalAttention tm).Bounded := by
  unfold evalAttention
  repeat' split
  · exact hs
  · exact hs
  · exact bounded_sendEvent _ hs
  · exact hs

theorem bounded_raise (tm : Time) (k : EventKind) (i : EventOn) (hs : s.Bounded) : (s.raise tm k i).Bounded := by
  unfold State.raise
  split
  · exact bounded_evalAttention _ (bounded_raiseEntry _ _ _ hs)
  · exact hs

theorem bounded_clearEvents (kinds : Fin 25 → Bool) (hs : s.Bounded) : (s.clearEvents kinds).Bounded := by
  refine bounded_evalAttention _ (bounded_events hs fun k => ?_)
  have hk := hs.2.2.2.2.2 k
  simp only [Fin.getElem_fin, Vector.getElem_mapFinIdx]
  split
  · exact Nat.zero_le _
  · exact hk

theorem bounded_enableEvents (kinds : Fin 25 → Bool) (hs : s.Bounded) : (s.enableEvents kinds).Bounded := by
  refine bounded_evalAttention _ (bounded_events hs fun k => ?_)
  simpa using hs.2.2.2.2.2 k

/-! ## Joining a queue (R20, R21) -/

theorem bounded_links : LinkRules State.Bounded where
  link := id
  raise k i := bounded_raise _ k i
  reset _ := id
  forward {s} p b hs := by
    obtain ⟨hf, ho, hc, hm, hfd, hod, hr⟩ := bounded_port hs p
    unfold forwardTo
    repeat' split
    · refine bounded_modPort p _ hs ⟨?_, ho, hc, hm, hfd, hod, hr⟩
      simpa using ‹_›
    · exact bounded_raise _ _ _ (bounded_modPort p _ hs ⟨hf, ho, hc, hm, satSucc_le _ _, hod, hr⟩)
    · exact hs
  originate {s} p d k b m hs := by
    obtain ⟨hf, ho, hc, hm, hfd, hod, hr⟩ := bounded_port hs p
    unfold originate
    repeat' split
    · refine bounded_modPort p _ hs ⟨hf, ?_, hc, hm, hfd, hod, hr⟩
      simpa using ‹_›
    · exact bounded_raise _ _ _ (bounded_modPort p _ hs ⟨hf, ho, hc, hm, hfd, satSucc_le _ _, hr⟩)
    · exact hs
  check {s} p hs := by
    obtain ⟨hf, ho, hc, hm, hfd, hod, hr⟩ := bounded_port hs p
    exact bounded_modPort p _ hs ⟨hf, ho, satSucc_le _ _, hm, hfd, hod, hr⟩
  format {s} p hs := by
    obtain ⟨hf, ho, hc, hm, hfd, hod, hr⟩ := bounded_port hs p
    exact bounded_modPort p _ hs ⟨hf, ho, hc, satSucc_le _ _, hfd, hod, hr⟩
  foreign {s} p hs := by
    obtain ⟨hf, ho, hc, hm, hfd, hod, hr⟩ := bounded_port hs p
    exact bounded_modPort p _ hs ⟨hf, ho, hc, hm, hfd, hod, satSucc_le _ _⟩

/-- A frame that finds a free place of Port D OWN. -/
theorem bounded_pushOwn_D (f : OwnFrame) (hs : s.Bounded) (h : s.freePlaceD = true) :
    (s.pushOwn .D f).Bounded := by
  obtain ⟨hf, _, hrest⟩ := bounded_port hs .D
  refine bounded_modPort .D _ hs ⟨hf, ?_, hrest⟩
  simpa [freePlaceD, port] using h

theorem bounded_placeEjectOff (p : PressNo) (hs : s.Bounded) : (s.placeEjectOff p).Bounded := by
  unfold placeEjectOff
  repeat' split
  · rename_i hw
    exact bounded_of_changes (modEjector_changes p _ _) (bounded_pushOwn_D _ hs (Bool.and_eq_true_iff.mp hw).2)
  · exact hs
  · exact hs

theorem bounded_placeOffCommand (z : ZoneNo) (o : OffCommand) (hs : s.Bounded) :
    (s.placeOffCommand z o).Bounded := by
  unfold placeOffCommand
  split
  · rename_i hw
    exact bounded_of_changes (modZone_changes z _ _) (bounded_pushOwn_D _ hs (Bool.and_eq_true_iff.mp hw).2)
  · exact hs

theorem bounded_placeEjectOffs (hs : s.Bounded) : s.placeEjectOffs.Bounded := by
  unfold placeEjectOffs
  split
  · exact each_rule (Q := State.Bounded) (fun p {_} => bounded_placeEjectOff p) _ hs
  · exact hs

theorem bounded_placeOwed (hs : s.Bounded) : s.placeOwed.Bounded := by
  unfold placeOwed placeHeaterOffs
  split
  · exact each_rule (Q := State.Bounded) (fun z {_} h =>
      each_rule (Q := State.Bounded) (fun o {_} => bounded_placeOffCommand z o) _ h) _ (bounded_placeEjectOffs hs)
  · exact bounded_placeEjectOffs hs

/-! ## The queue of records for REU (R180, R181) -/

theorem bounded_exportQueue {l : List Nat} (hs : s.Bounded) (hl : l.length ≤ Config.exportPlaces) :
    { s with exportQueue := l }.Bounded := by
  obtain ⟨hU, hD, _, hrest⟩ := hs
  exact ⟨hU, hD, hl, hrest⟩

/-- A REPORT joins Port U OWN only while it holds 12 frames or fewer. -/
theorem bounded_moveHead (hs : s.Bounded) (hroom : s.portU.own.length ≤ Config.exportRoom) :
    s.moveHead.Bounded := by
  obtain ⟨hf, _, hrest⟩ := bounded_port hs .U
  have hX := hs.2.2.1
  unfold moveHead
  split
  · exact hs
  · rename_i rest hq
    have hl : rest.length ≤ Config.exportPlaces := by
      rw [hq] at hX
      exact Nat.le_of_succ_le hX
    split
    · exact bounded_exportQueue hs hl
    · refine bounded_exportQueue (bounded_modPort .U _ (bounded_of_changes (modHistory_changes _ s) hs)
        ⟨hf, ?_, hrest⟩) hl
      simp only [port, modHistory_portU, List.length_append, List.length_singleton]
      exact Nat.le_trans (Nat.succ_le_succ hroom) (by decide)

theorem bounded_moveHeads (n : Nat) (hs : s.Bounded) : (s.moveHeads n).Bounded := by
  induction n generalizing s with
  | zero => exact hs
  | succ n ih =>
    unfold moveHeads
    split
    · rename_i hmove
      refine ih (bounded_moveHead hs ?_)
      simp only [canMove, Bool.and_eq_true, decide_eq_true_eq] at hmove
      exact hmove.1.2
    · exact hs

theorem bounded_handToExport (r : Record) (hs : s.Bounded) : (s.handToExport r).Bounded := by
  unfold handToExport
  repeat' split
  · refine bounded_moveHeads _ (bounded_exportQueue hs ?_)
    simpa using ‹_›
  · exact bounded_raise _ _ _ hs
  · exact hs

theorem bounded_takeSlot (hs : s.Bounded) : s.takeSlot.Bounded := by
  unfold takeSlot
  split
  · exact bounded_of_changes (modHistory_changes _ _) hs
  · have hq (n : Nat) : { s with exportQueue := s.exportQueue.filter (· != n) }.Bounded :=
      bounded_exportQueue hs (Nat.le_trans (List.length_filter_le _ _) hs.2.2.1)
    dsimp only
    split
    · exact bounded_raise _ _ _ (bounded_of_changes (modHistory_changes _ _) (hq _))
    · exact bounded_of_changes (modHistory_changes _ _) (hq _)

/-! ## The transmitters (R22) -/

theorem bounded_markStarts (m : Mark) (hs : s.Bounded) : (markStarts m s).Bounded := by
  cases m <;> exact hs

theorem bounded_takeFrame (p : Port) (hs : s.Bounded) : (s.takeFrame p).Bounded := by
  obtain ⟨hf, ho, hrest⟩ := bounded_port hs p
  unfold takeFrame
  split
  · rename_i hq
    refine bounded_markStarts _ (bounded_modPort p _ hs ⟨hf, ?_, hrest⟩)
    rw [hq] at ho
    exact Nat.le_of_succ_le ho
  · rename_i hq
    refine bounded_modPort p _ hs ⟨?_, ho, hrest⟩
    rw [hq] at hf
    exact Nat.le_of_succ_le hf
  · exact hs
  · exact hs

theorem bounded_startTransmission (p : Port) (hs : s.Bounded) : (startTransmission p s).Bounded := by
  unfold startTransmission
  split
  · cases p
    · exact bounded_moveHeads _ (bounded_takeFrame .U hs)
    · exact bounded_placeOwed (bounded_takeFrame .D hs)
  · exact hs

/-! ## Accruals and profiles (R89, R173) -/

theorem bounded_modAccrual (z : ZoneNo) (f : Accrual → Accrual) (hf : (f (s.accrual z)).bounded)
    (hs : s.Bounded) : (s.modAccrual z f).Bounded := by
  obtain ⟨hU, hD, hX, hA, hrest⟩ := hs
  refine ⟨hU, hD, hX, fun z' => ?_, hrest⟩
  by_cases hz : z' = z
  · subst hz
    exact (congrArg Accrual.bounded (accrual_modAccrual z' f s)).mpr hf
  · exact (congrArg Accrual.bounded (accrual_modAccrual_of_ne z f s hz)).mpr (hA z')

theorem bounded_profiles {v : Vector Profile 8} (hs : s.Bounded)
    (hv : ∀ i : Fin 8, v[i].points.length ≤ Config.profilePlaces) : { s with profiles := v }.Bounded := by
  obtain ⟨hU, hD, hX, hA, _, hE⟩ := hs
  exact ⟨hU, hD, hX, hA, hv, hE⟩

theorem bounded_modProfile (p : PressNo) (b : Fin 2) (f : Profile → Profile)
    (hf : (f (s.profile p b)).points.length ≤ Config.profilePlaces) (hs : s.Bounded) :
    (s.modProfile p b f).Bounded := by
  refine bounded_profiles hs fun i => ?_
  by_cases hi : (bufferNo p b).val = i.val
  · simpa [hi, profile] using hf
  · simpa [hi] using hs.2.2.2.2.1 i

/-! ## The rules -/

theorem bounded_upheld : Upheld State.Bounded where
  links := bounded_links
  raise := bounded_raise
  clear := bounded_clearEvents
  enable := bounded_enableEvents
  zone _ _ _ := id
  window _ _ := id
  cure _ _ := id
  accrual z f hf hs := bounded_modAccrual z f (hf (hs.2.2.2.1 z)) hs
  scale _ _ := id
  unit _ _ := id
  ejector _ _ _ := id
  profile p b f hf hs := bounded_modProfile p b f (hf (hs.2.2.2.2.1 (bufferNo p b))) hs
  tables _ := id
  history _ _ := id
  store p r hs := bounded_of_changes (storeRecord_changes p r _) (bounded_takeSlot hs)
  hand := bounded_handToExport
  moves := bounded_moveHeads _
  places := bounded_placeOwed
  ejectOffs := bounded_placeEjectOffs
  offCreated z hs := bounded_placeOwed (bounded_of_changes (createOff_changes z _) hs)
  offOwed p hs := bounded_placeOwed (bounded_of_changes (oweEjectOff_changes p _) hs)
  cut p hs := Upheld.doIf (Q := State.Bounded) bounded_placeOwed (bounded_of_changes (oweEjectOff_changes p _) hs)
  start := bounded_startTransmission
  sent p hs := bounded_modPort p _ hs (bounded_port hs p)
  tick := id
  linkOff := id
  free _ := id

theorem bounded_emptied {x : PortState} (h : x.bounded) : x.emptied.bounded := by
  obtain ⟨_, _, hrest⟩ := h
  exact ⟨Nat.zero_le _, Nat.zero_le _, hrest⟩

theorem bounded_coldEffect (s : State) : s.coldEffect.Bounded := by
  obtain ⟨_, _, hX, hA, hP, hE⟩ := atReset_bounded
  have port (x : Option Sending) : ({ PortState.atReset with sending := x } : PortState).bounded := by
    simp [PortState.bounded, PortState.atReset]
  exact ⟨port _, port _, hX, hA, hP, hE⟩

theorem bounded_resets : ResetRules State.Bounded where
  queues hs := by
    obtain ⟨hU, hD, hrest⟩ := hs
    exact ⟨bounded_emptied hU, bounded_emptied hD, hrest⟩
  taking hs := bounded_exportQueue (l := []) hs (Nat.zero_le _)
  taken := id
  locks {s} hs := bounded_profiles hs fun i => by simpa [Profile.unlocked] using hs.2.2.2.2.1 i
  events {s} hs := bounded_events hs fun k => by simp [warmEvents, clearedEntry]
  shutdown := id
  off z hs := bounded_of_changes (createOff_changes z _) hs
  owed p hs := bounded_of_changes (oweEjectOff_changes p _) hs
  cold _ := bounded_coldEffect _

/-- Settles O4: every join of a queue tests for a place, and every count saturates. -/
theorem stepKeepsBounded : Obligations.StepKeepsBounded := fun _ _ =>
  step_keeps (fun _ => id)
    (exec_keeps (fun h _ => h) id id (fun _ => id) (fun _ => bounded_coldEffect _)
      (bounded_upheld.due bounded_resets) bounded_upheld.actions)

end Sys2Proof.Proofs.Bounded
end

