-- ==== Sys2Proof/Proofs/Ring.lean ====
section
/-! PROOFS. The history ring's counts agree with its slots, R162, R164 and R169.

A write of a record's fields moves no count and fills no slot, so only an allocation and the read cursor have to be
looked at. An allocation first makes room in the counts (`takeSlot`) and then fills the slot (`storeRecord`). -/

namespace Sys2Proof.Proofs.Ring

set_option Elab.async false

open Sys2Proof.Machine Sys2Proof.Machine.State Sys2Proof.Proofs.StepRules Sys2Proof.Proofs.UpheldLaws
  Sys2Proof.Proofs.Steps

variable {s t : State}

/-! ## What the law speaks of -/

/-- The counts of a ring, and which slots hold a record. -/
def shape (h : History) : Nat × Fin 512 × Fin 512 × Nat × (Fin 512 → Bool) :=
  (h.stored, h.writePos, h.readCursor, h.unread, fun i => h.slots[i].isSome)

theorem agrees_iff_shape {h : History} : Agrees h ↔
    (shape h).2.2.2.1 ≤ (shape h).1 ∧ (shape h).1 ≤ 512 ∧ (∀ i, (shape h).2.2.2.2 i = decide (i.val < (shape h).1))
      ∧ ((shape h).1 < 512 → (shape h).2.1.val = (shape h).1)
      ∧ ((shape h).2.2.1.val + (shape h).2.2.2.1) % 512 = (shape h).2.1.val := Iff.rfl

theorem agrees_of_shape {g h : History} (hs : shape g = shape h) (hh : Agrees h) : Agrees g := by
  rw [agrees_iff_shape] at hh ⊢
  rwa [hs]

theorem shape_modRecord (p : PressNo) (f : Record → Record) (s : State) :
    shape (s.modRecord p f).history = shape s.history := by
  simp only [shape, modRecord_history_stored, modRecord_history_writePos, modRecord_history_readCursor,
    modRecord_history_unread, modRecord_slots_isSome]

theorem shape_raiseEntry (tm : Time) (k : EventKind) (i : EventOn) (s : State) :
    shape (s.raiseEntry tm k i).history = shape s.history :=
  each_keeps _ (fun s => shape s.history) (fun p s => shape_modRecord p _ s) _ _

theorem shape_raise (tm : Time) (k : EventKind) (i : EventOn) (s : State) :
    shape (s.raise tm k i).history = shape s.history := by
  have hsend (s : State) : shape (s.sendEvent tm).history = shape s.history := by
    unfold sendEvent
    split
    · rfl
    · exact (shape_raiseEntry _ _ _ _)
  have heval (s : State) : shape (s.evalAttention tm).history = shape s.history := by
    unfold evalAttention
    repeat' split
    · rfl
    · rfl
    · exact hsend _
    · rfl
  unfold State.raise
  split
  · rw [heval, shape_raiseEntry]
  · rfl

theorem history_evalAttention_shape (tm : Time) (s : State) :
    shape (s.evalAttention tm).history = shape s.history := by
  unfold evalAttention sendEvent
  repeat' split
  · rfl
  · rfl
  · rfl
  · exact shape_raiseEntry _ _ _ _
  · rfl

theorem ring_of_shape (h : shape t.history = shape s.history) (hs : s.RingLaw) : t.RingLaw :=
  agrees_of_shape h hs

theorem ring_of_changes {k : List Part} (h : OnlyChanges k s t) (hs : s.RingLaw)
    (hk : Part.history ∉ k := by decide) : t.RingLaw :=
  ring_of_shape (congrArg shape (h .history hk).symm) hs

/-! ## REPORT frames (R181) -/

/-- The exported mark is a field of a record. -/
theorem shape_moveHead (s : State) : shape s.moveHead.history = shape s.history := by
  unfold moveHead
  repeat' split
  · rfl
  · rfl
  · rename_i i _
    simp only [shape, Prod.mk.injEq]
    refine ⟨rfl, rfl, rfl, rfl, funext fun j => ?_⟩
    by_cases hj : i.val = j.val
    · simp [modHistory, pushOwn, modPort, hj]
    · simp [modHistory, pushOwn, modPort, hj]

theorem shape_exportMoves (s : State) : shape s.exportMoves.history = shape s.history := by
  have hmoves (n : Nat) (s : State) : shape (s.moveHeads n).history = shape s.history := by
    induction n generalizing s with
    | zero => rfl
    | succ n ih =>
      unfold moveHeads
      split
      · rw [ih, shape_moveHead]
      · rfl
  exact hmoves _ s

theorem shape_handToExport (r : Record) (s : State) : shape (s.handToExport r).history = shape s.history := by
  unfold handToExport
  repeat' split
  · rw [shape_exportMoves]
  · exact shape_raise _ _ _ _
  · rfl

/-! ## Allocation (R164) -/

/-- A record stored in the slot at the write position. -/
theorem agrees_storeRecord (p : PressNo) (r : Record) {s : State} (stored unread : Nat) (cursor write : Fin 512)
    (held : Fin 512 → Bool) (hs : shape s.history = (stored, write, cursor, unread, held))
    (hu : unread ≤ stored) (hst : stored ≤ 512)
    (hsl : ∀ i, (decide (i = write) || held i) = decide (i.val < stored))
    (hw : stored < 512 → write.val + 1 = stored) (hr : (cursor.val + unread) % 512 = (write.val + 1) % 512) :
    (storeRecord p r s).RingLaw := by
  simp only [shape, Prod.mk.injEq] at hs
  obtain ⟨rfl, rfl, rfl, rfl, rfl⟩ := hs
  refine ⟨hu, hst, fun i => ?slots, fun h => ?write, hr⟩
  case slots =>
    refine Eq.trans ?_ (hsl i)
    by_cases hi : s.history.writePos.val = i.val
    · simp [storeRecord, modHistory, Fin.ext_iff, hi]
    · simp [storeRecord, modHistory, Fin.ext_iff, hi, Ne.symm hi]
  case write =>
    have hlt : s.history.stored < 512 := h
    exact (Nat.mod_eq_of_lt (by rw [hw hlt]; exact hlt)).trans (hw hlt)

theorem ring_store (p : PressNo) (r : Record) (hs : s.RingLaw) : (storeRecord p r s.takeSlot).RingLaw := by
  obtain ⟨hu, hst, hsl, hw, hr⟩ := hs
  have hwrite := hsl s.history.writePos
  have := s.history.writePos.isLt
  unfold takeSlot
  split
  · -- a free slot: the ring is not full, and its first free slot is the one at the write position
    rename_i hnone
    rw [hnone] at hwrite
    have hfree : ¬s.history.writePos.val < s.history.stored := by simpa using hwrite
    have hpos : s.history.writePos.val = s.history.stored := hw (by omega)
    refine agrees_storeRecord p r (s.history.stored + 1) (s.history.unread + 1) s.history.readCursor
      s.history.writePos (fun i => s.history.slots[i].isSome) rfl (by omega) (by omega) (fun i => ?_)
      (fun _ => by omega) (by omega)
    rw [hsl i, ← Bool.decide_or, decide_eq_decide, Fin.ext_iff, hpos]
    omega
  · -- an old record goes: the ring is full
    rename_i old hold
    rw [hold] at hwrite
    have hfull : s.history.writePos.val < s.history.stored := by simpa using hwrite.symm
    have h512 : s.history.stored = 512 := by
      by_contra hlt
      have := hw (by omega)
      omega
    have slots (i : Fin 512) :
        (decide (i = s.history.writePos) || s.history.slots[i].isSome) = decide (i.val < s.history.stored) := by
      rw [hsl i, h512]
      simp [i.isLt]
    dsimp only
    split
    · refine agrees_storeRecord p r s.history.stored s.history.unread (nextSlot s.history.readCursor)
        s.history.writePos (fun i => s.history.slots[i].isSome) (shape_raise _ _ _ _) hu hst slots
        (fun h => by omega) ?_
      simp only [nextSlot]
      omega
    · exact agrees_storeRecord p r s.history.stored (s.history.unread + 1) s.history.readCursor
        s.history.writePos (fun i => s.history.slots[i].isSome) rfl (by omega) hst slots
        (fun h => by omega) (by omega)

/-! ## The rules -/

theorem ring_raise (tm : Time) (k : EventKind) (i : EventOn) (hs : s.RingLaw) : (s.raise tm k i).RingLaw :=
  ring_of_shape (shape_raise tm k i s) hs

theorem ring_links : LinkRules State.RingLaw where
  link := id
  raise k i := ring_raise _ k i
  forward p b hs := by
    unfold forwardTo
    repeat' split
    · exact ring_of_changes (modPort_changes p _ _) hs
    · exact ring_raise _ _ _ (ring_of_changes (modPort_changes p _ _) hs)
    · exact hs
  originate p d k b m hs := by
    unfold originate
    repeat' split
    · exact ring_of_changes (modPort_changes p _ _) hs
    · exact ring_raise _ _ _ (ring_of_changes (modPort_changes p _ _) hs)
    · exact hs
  check p hs := ring_of_changes (countCheck_changes p _) hs
  format p hs := ring_of_changes (countFormat_changes p _) hs
  foreign p hs := ring_of_changes (countForeign_changes p _) hs
  reset _ := id

theorem ring_startTransmission (p : Port) (hs : s.RingLaw) : (startTransmission p s).RingLaw := by
  have hframe : (s.takeFrame p).RingLaw := by
    have hmark (m : Mark) (s : State) (hs : s.RingLaw) : (markStarts m s).RingLaw := by cases m <;> exact hs
    unfold takeFrame
    split
    · exact hmark _ _ (ring_of_changes (modPort_changes p _ _) hs)
    · exact ring_of_changes (modPort_changes p _ _) hs
    · exact hs
    · exact hs
  unfold startTransmission
  split
  · cases p
    · exact ring_of_shape (shape_exportMoves _) hframe
    · exact ring_of_changes (placeOwed_changes _) hframe
  · exact hs

theorem ring_upheld : Upheld State.RingLaw where
  links := ring_links
  raise := ring_raise
  clear _ := ring_of_shape (history_evalAttention_shape _ _)
  enable _ := ring_of_shape (history_evalAttention_shape _ _)
  zone _ _ _ := id
  window _ _ := id
  cure _ _ := id
  accrual _ _ _ := id
  scale _ _ := id
  unit _ _ := id
  ejector _ _ _ := id
  profile _ _ _ _ := id
  tables _ := id
  history _ hf := hf
  store := ring_store
  hand r := ring_of_shape (shape_handToExport r _)
  moves := ring_of_shape (shape_exportMoves _)
  places := ring_of_changes (placeOwed_changes _)
  ejectOffs hs := ring_of_changes (placeEjectOffs_changes _) hs
  offCreated z hs := ring_of_changes (placeOwed_changes _) (ring_of_changes (createOff_changes z _) hs)
  offOwed p hs := ring_of_changes (placeOwed_changes _) (ring_of_changes (oweEjectOff_changes p _) hs)
  cut p hs := Upheld.doIf (Q := State.RingLaw) (fun h => ring_of_changes (placeOwed_changes _) h)
    (ring_of_changes (oweEjectOff_changes p _) hs)
  start := ring_startTransmission
  sent p hs := ring_of_changes (modPort_changes p _ _) hs
  tick := id
  linkOff := id
  free _ := id

theorem ring_resets : ResetRules State.RingLaw where
  queues := id
  taking := id
  taken := id
  locks := id
  events := id
  shutdown := id
  off z hs := ring_of_changes (createOff_changes z _) hs
  owed p hs := ring_of_changes (oweEjectOff_changes p _) hs
  cold _ := atReset_ringLaw

/-- Settles O7: an allocation fills the slot that its counts make room for, and the read cursor passes unread
records only. -/
theorem stepKeepsRingLaw : Obligations.StepKeepsRingLaw := fun _ _ =>
  step_keeps (fun _ => id)
    (exec_keeps (fun h _ => h) id id (fun _ => id) (fun _ => atReset_ringLaw) (ring_upheld.due ring_resets)
      ring_upheld.actions)

end Sys2Proof.Proofs.Ring
end

