-- ==== Sys2Proof/Proofs/OffPlacement.lean ====
section
/-! PROOFS. Off frames take the free places of Port D OWN, R79 and R153.

The two loops of `placeOwed` look at one waiting off frame after the other. `fillPlaces w s` is the state after they
have looked at the frames `w`: those of `w` that find a place have joined the tail, and what they carry is flagged. One
more frame then extends `w` by one, whether it finds a place or not. -/

namespace Sys2Proof.Proofs.OffPlacement

set_option Elab.async false

open Sys2Proof.Machine Sys2Proof.Machine.State

variable {s : State} {w : List OwnFrame}

/-! ## The state after some off frames have been looked at -/

/-- The off frames of a list that find a place. -/
def placedOf (w : List OwnFrame) (s : State) : List OwnFrame := w.take (Config.ownPlaces - s.portD.own.length)

/-- An off frame with this mark has found a place. -/
def hasPlaced (w : List OwnFrame) (s : State) (m : Mark) : Bool := decide (m ∈ (placedOf w s).map OwnFrame.mark)

/-- The off commands of a zone, those with a place flagged. -/
def flaggedZone (w : List OwnFrame) (s : State) (z : ZoneNo) : Zone :=
  { s.zone z with offs := (s.zone z).offs.map fun o =>
      { o with placed := o.placed || hasPlaced w s (.heaterOff z o.number) } }

/-- An owed EJECT_OFF, flagged if it has a place. -/
def flaggedEjector (w : List OwnFrame) (s : State) (p : PressNo) : Ejector :=
  { s.ejector p with offOwed := (s.ejector p).offOwed.map fun o =>
      { o with placed := o.placed || hasPlaced w s (.ejectOff p o.number) } }

/-- The state after the off frames `w` have been looked at. -/
def fillPlaces (w : List OwnFrame) (s : State) : State :=
  { s with portD := { s.portD with own := s.portD.own ++ placedOf w s }
           zones := Vector.ofFn fun z => flaggedZone w s z
           ejectors := Vector.ofFn fun p => flaggedEjector w s p }

/-- The HEAT frame of an off command. -/
def heatOff (s : State) (z : ZoneNo) (o : OffCommand) : OwnFrame :=
  { dst := o.node, src := s.ownAddress, kind := .heat, payload := [BitVec.ofNat 8 o.output, 0#8, 0#8]
    mark := .heaterOff z o.number }

theorem heatEntryBytes_off (n : Nat) : heatEntryBytes n 0 = [BitVec.ofNat 8 n, 0#8, 0#8] := by
  simp [heatEntryBytes, natBytes]

/-- The EJECT_OFF frame of a press that owes one. -/
def ejectOff (s : State) (p : PressNo) (o : OffOwed) : OwnFrame :=
  { dst := o.node, src := s.ownAddress, kind := .command, payload := [5#8], mark := .ejectOff p o.number }

/-- The frames of a zone that wait. -/
def zoneWaiting (s : State) (z : ZoneNo) : List OwnFrame :=
  ((s.zone z).offs.filter fun o => !o.placed).map (heatOff s z)

/-- The frame of a press that waits. -/
def pressWaiting (s : State) (p : PressNo) : Option OwnFrame :=
  ((s.ejector p).offOwed.filter fun o => !o.placed).map (ejectOff s p)

theorem waitingOffs_eq (s : State) : s.waitingOffs =
    (List.finRange 4).filterMap (pressWaiting s) ++ (List.finRange 48).flatMap (zoneWaiting s) := rfl

/-- No frame of `w` carries an off command of the zone. -/
def FreeOfZone (w : List OwnFrame) (z : ZoneNo) : Prop := ∀ f ∈ w, ∀ n, f.mark ≠ .heaterOff z n

/-- No frame of `w` carries the owed EJECT_OFF of the press. -/
def FreeOfPress (w : List OwnFrame) (p : PressNo) : Prop := ∀ f ∈ w, ∀ n, f.mark ≠ .ejectOff p n

@[simp] theorem zone_fillPlaces (w : List OwnFrame) (s : State) (z : ZoneNo) :
    (fillPlaces w s).zone z = flaggedZone w s z := by
  simp [fillPlaces, State.zone]

@[simp] theorem ejector_fillPlaces (w : List OwnFrame) (s : State) (p : PressNo) :
    (fillPlaces w s).ejector p = flaggedEjector w s p := by
  simp [fillPlaces, State.ejector]

@[simp] theorem ownAddress_fillPlaces (w : List OwnFrame) (s : State) :
    (fillPlaces w s).ownAddress = s.ownAddress := rfl

@[simp] theorem normal_fillPlaces (w : List OwnFrame) (s : State) : (fillPlaces w s).normal = s.normal := rfl

/-! ## One frame more -/

theorem placedOf_append_room (f : OwnFrame) (h : w.length + s.portD.own.length < Config.ownPlaces) :
    placedOf (w ++ [f]) s = placedOf w s ++ [f] := by
  rw [placedOf, placedOf, List.take_of_length_le (by simp; omega), List.take_of_length_le (by omega)]

theorem placedOf_append_full (f : OwnFrame) (h : ¬w.length + s.portD.own.length < Config.ownPlaces) :
    placedOf (w ++ [f]) s = placedOf w s := List.take_append_of_le_length (by omega)

theorem freePlaceD_fillPlaces (w : List OwnFrame) (s : State) :
    (fillPlaces w s).freePlaceD = decide (w.length + s.portD.own.length < Config.ownPlaces) := by
  simp only [freePlaceD, fillPlaces, placedOf, List.length_append, List.length_take, decide_eq_decide]
  omega

theorem fillPlaces_append_full (f : OwnFrame) (h : ¬w.length + s.portD.own.length < Config.ownPlaces) :
    fillPlaces (w ++ [f]) s = fillPlaces w s := by
  simp only [fillPlaces, flaggedZone, flaggedEjector, hasPlaced, placedOf_append_full f h]

/-- A frame that has found a place flags what has its mark. -/
theorem hasPlaced_append_room (f : OwnFrame) (h : w.length + s.portD.own.length < Config.ownPlaces) (m : Mark) :
    hasPlaced (w ++ [f]) s m = (hasPlaced w s m || decide (m = f.mark)) := by
  rw [hasPlaced, hasPlaced, placedOf_append_room f h, ← Bool.decide_or, decide_eq_decide]
  simp only [List.map_append, List.map_cons, List.map_nil, List.mem_append, List.mem_singleton]

theorem hasPlaced_eq_false {m : Mark} (h : ∀ f ∈ w, f.mark ≠ m) : hasPlaced w s m = false := by
  rw [hasPlaced, decide_eq_false_iff_not, List.mem_map]
  rintro ⟨f, hf, rfl⟩
  exact h f (List.mem_of_mem_take hf) rfl

theorem flaggedZone_of_free {z : ZoneNo} (h : FreeOfZone w z) : flaggedZone w s z = s.zone z := by
  have hnone (n : Nat) : hasPlaced w s (.heaterOff z n) = false := hasPlaced_eq_false fun f hf => h f hf n
  simp [flaggedZone, hnone]

theorem flaggedEjector_of_free {p : PressNo} (h : FreeOfPress w p) : flaggedEjector w s p = s.ejector p := by
  have hnone (n : Nat) : hasPlaced w s (.ejectOff p n) = false := hasPlaced_eq_false fun f hf => h f hf n
  simp [flaggedEjector, hnone]

/-- The flags of a zone after one frame more. -/
theorem flaggedZone_append_room (f : OwnFrame) (h : w.length + s.portD.own.length < Config.ownPlaces) (z : ZoneNo) :
    flaggedZone (w ++ [f]) s z = { flaggedZone w s z with offs := (flaggedZone w s z).offs.map fun o =>
      { o with placed := o.placed || decide (Mark.heaterOff z o.number = f.mark) } } := by
  simp [flaggedZone, hasPlaced_append_room f h, Bool.or_assoc]

/-- The flag of a press after one frame more. -/
theorem flaggedEjector_append_room (f : OwnFrame) (h : w.length + s.portD.own.length < Config.ownPlaces)
    (p : PressNo) :
    flaggedEjector (w ++ [f]) s p = { flaggedEjector w s p with
      offOwed := (flaggedEjector w s p).offOwed.map fun o =>
        { o with placed := o.placed || decide (Mark.ejectOff p o.number = f.mark) } } := by
  simp [flaggedEjector, hasPlaced_append_room f h, Function.comp_def, Bool.or_assoc]

theorem vector_eq_set {α : Type} {n : Nat} {g g' : Fin n → α} (i : Fin n) (x : α) (hi : g i = x)
    (hne : ∀ j, j ≠ i → g j = g' j) : Vector.ofFn g = (Vector.ofFn g').set i x := by
  refine Vector.ext fun j hj => ?_
  by_cases hij : i.val = j
  · subst hij
    simpa using hi
  · simpa [hij] using hne ⟨j, hj⟩ fun h => hij (congrArg Fin.val h).symm

/-- The HEAT frame of an off command joins, and the off commands of its number are flagged. -/
theorem fillPlaces_append_heatOff (z : ZoneNo) (o : OffCommand)
    (h : w.length + s.portD.own.length < Config.ownPlaces) :
    fillPlaces (w ++ [heatOff s z o]) s =
      (pushOwn .D (heatOff s z o) (fillPlaces w s)).modZone z fun c =>
        { c with offs := c.offs.map (markPlaced o.number) } := by
  have hown : placedOf (w ++ [heatOff s z o]) s = placedOf w s ++ [heatOff s z o] := placedOf_append_room _ h
  have hejector (p : PressNo) : flaggedEjector (w ++ [heatOff s z o]) s p = flaggedEjector w s p := by
    rw [flaggedEjector_append_room _ h]
    simp [heatOff]
  have hother (y : ZoneNo) (hy : y ≠ z) : flaggedZone (w ++ [heatOff s z o]) s y = flaggedZone w s y := by
    rw [flaggedZone_append_room _ h]
    simp [heatOff, hy]
  have hzone : flaggedZone (w ++ [heatOff s z o]) s z = { flaggedZone w s z with
      offs := (flaggedZone w s z).offs.map (markPlaced o.number) } := by
    have hmark : (fun x : OffCommand =>
        { x with placed := x.placed || decide (Mark.heaterOff z x.number = (heatOff s z o).mark) })
          = markPlaced o.number := by
      funext x
      by_cases hx : x.number = o.number
      · simp [heatOff, markPlaced, hx]
      · simp [heatOff, markPlaced, hx]
    rw [flaggedZone_append_room _ h, hmark]
  have hzones := vector_eq_set (g' := flaggedZone w s) z _ hzone hother
  unfold fillPlaces
  simp only [hown, hejector, hzones]
  simp [pushOwn, modPort, modZone]

/-- The EJECT_OFF frame of a press joins, and what it owes is flagged. -/
theorem fillPlaces_append_ejectOff (p : PressNo) (o : OffOwed) (ho : (s.ejector p).offOwed = some o)
    (h : w.length + s.portD.own.length < Config.ownPlaces) :
    fillPlaces (w ++ [ejectOff s p o]) s =
      (pushOwn .D (ejectOff s p o) (fillPlaces w s)).modEjector p fun e =>
        { e with offOwed := some { o with placed := true } } := by
  have hown : placedOf (w ++ [ejectOff s p o]) s = placedOf w s ++ [ejectOff s p o] := placedOf_append_room _ h
  have hzone (z : ZoneNo) : flaggedZone (w ++ [ejectOff s p o]) s z = flaggedZone w s z := by
    rw [flaggedZone_append_room _ h]
    simp [ejectOff]
  have hother (q : PressNo) (hq : q ≠ p) : flaggedEjector (w ++ [ejectOff s p o]) s q = flaggedEjector w s q := by
    rw [flaggedEjector_append_room _ h]
    simp [ejectOff, hq]
  have hpress : flaggedEjector (w ++ [ejectOff s p o]) s p = { flaggedEjector w s p with
      offOwed := some { o with placed := true } } := by
    rw [flaggedEjector_append_room _ h]
    simp [flaggedEjector, ejectOff, ho]
  have hejectors := vector_eq_set (g' := flaggedEjector w s) p _ hpress hother
  unfold fillPlaces
  simp only [hown, hzone, hejectors]
  simp [pushOwn, modPort, modEjector]

/-- One off command of a zone is looked at. -/
theorem placeOffCommand_fillPlaces (z : ZoneNo) (o : OffCommand) (w : List OwnFrame) (s : State) :
    placeOffCommand z o (fillPlaces w s) = fillPlaces (w ++ if o.placed then [] else [heatOff s z o]) s := by
  unfold placeOffCommand
  rw [freePlaceD_fillPlaces]
  cases hp : o.placed
  · by_cases hroom : w.length + s.portD.own.length < Config.ownPlaces
    · simp only [hroom, Bool.not_false, decide_true, Bool.and_self, if_true, if_false, Bool.false_eq_true,
        heatEntryBytes_off]
      exact (fillPlaces_append_heatOff z o hroom).symm
    · simp [hroom, fillPlaces_append_full]
  · simp

/-- The owed EJECT_OFF of a press is looked at. -/
theorem placeEjectOff_fillPlaces (p : PressNo) (h : FreeOfPress w p) :
    placeEjectOff p (fillPlaces w s) = fillPlaces (w ++ (pressWaiting s p).toList) s := by
  unfold placeEjectOff pressWaiting
  rw [ejector_fillPlaces, flaggedEjector_of_free h, freePlaceD_fillPlaces]
  cases ho : (s.ejector p).offOwed with
  | none => simp
  | some o =>
    cases hp : o.placed
    · by_cases hroom : w.length + s.portD.own.length < Config.ownPlaces
      · simp only [hp, hroom, Bool.not_false, decide_true, Bool.and_self, if_true, Option.filter_some, Option.map_some,
          Option.toList_some]
        exact (fillPlaces_append_ejectOff p o ho hroom).symm
      · simp [Option.filter_some, hp, hroom, fillPlaces_append_full]
    · simp [Option.filter_some, hp]

/-! ## The loops -/

theorem placeZoneOffs_fillPlaces (z : ZoneNo) (h : FreeOfZone w z) :
    placeZoneOffs z (fillPlaces w s) = fillPlaces (w ++ zoneWaiting s z) s := by
  have hloop (l : List OffCommand) (w : List OwnFrame) : each (placeOffCommand z) l (fillPlaces w s) =
      fillPlaces (w ++ (l.filter fun o => !o.placed).map (heatOff s z)) s := by
    induction l generalizing w with
    | nil => simp [each]
    | cons o l ih =>
      rw [each, placeOffCommand_fillPlaces, ih]
      cases hp : o.placed
      · simp [hp]
      · simp [hp]
  unfold placeZoneOffs
  rw [zone_fillPlaces, flaggedZone_of_free h, hloop]
  rfl

/-- A loop over zones with no frame of theirs looked at before. -/
theorem each_placeZoneOffs (l : List ZoneNo) (hl : l.Nodup) (w : List OwnFrame) (h : ∀ z ∈ l, FreeOfZone w z) :
    each placeZoneOffs l (fillPlaces w s) = fillPlaces (w ++ l.flatMap (zoneWaiting s)) s := by
  induction l generalizing w with
  | nil => simp [each]
  | cons z l ih =>
    obtain ⟨hz, hl⟩ := List.nodup_cons.mp hl
    rw [each, placeZoneOffs_fillPlaces z (h z List.mem_cons_self), ih hl]
    · simp
    · intro y hy f hf n hm
      rcases List.mem_append.mp hf with hf | hf
      · exact h y (List.mem_cons_of_mem _ hy) f hf n hm
      · obtain ⟨o, _, rfl⟩ := List.mem_map.mp hf
        cases hm
        exact hz hy

/-- A loop over presses with no frame of theirs looked at before. -/
theorem each_placeEjectOff (l : List PressNo) (hl : l.Nodup) (w : List OwnFrame) (h : ∀ p ∈ l, FreeOfPress w p) :
    each placeEjectOff l (fillPlaces w s) = fillPlaces (w ++ l.filterMap (pressWaiting s)) s := by
  induction l generalizing w with
  | nil => simp [each]
  | cons p l ih =>
    obtain ⟨hp, hl⟩ := List.nodup_cons.mp hl
    rw [each, placeEjectOff_fillPlaces p (h p List.mem_cons_self), ih hl]
    · cases hw : pressWaiting s p
      · simp [hw]
      · simp [hw]
    · intro q hq f hf n hm
      rcases List.mem_append.mp hf with hf | hf
      · exact h q (List.mem_cons_of_mem _ hq) f hf n hm
      · obtain ⟨o, _, rfl⟩ := Option.map_eq_some_iff.mp (Option.mem_toList.mp hf)
        cases hm
        exact hp hq

theorem fillPlaces_nil (s : State) : fillPlaces [] s = s := by
  have hz : Vector.ofFn (flaggedZone [] s) = s.zones := by
    refine Vector.ext fun i hi => ?_
    simp [flaggedZone_of_free (w := []) (fun f hf => nomatch hf), State.zone]
  have he : Vector.ofFn (flaggedEjector [] s) = s.ejectors := by
    refine Vector.ext fun i hi => ?_
    simp [flaggedEjector_of_free (w := []) (fun f hf => nomatch hf), State.ejector]
  simp only [fillPlaces, hz, he, placedOf, List.take_nil, List.append_nil]

/-- R153: the owed EJECT_OFFs that wait take places. -/
theorem placeEjectOffs_eq (hn : s.normal = true) :
    s.placeEjectOffs = fillPlaces ((List.finRange 4).filterMap (pressWaiting s)) s := by
  have h := each_placeEjectOff (s := s) (List.finRange 4) (List.nodup_finRange 4) [] fun _ _ f hf => nomatch hf
  rw [fillPlaces_nil, List.nil_append] at h
  rw [placeEjectOffs, if_pos hn, h]

/-- R79, R153: the off frames that wait take places, ejector frames first. -/
theorem placeOwed_eq (hn : s.normal = true) : s.placeOwed = fillPlaces s.waitingOffs s := by
  rw [placeOwed, placeEjectOffs_eq hn, placeHeaterOffs, normal_fillPlaces, if_pos hn, waitingOffs_eq]
  refine each_placeZoneOffs _ (List.nodup_finRange 48) _ fun z _ f hf n hm => ?_
  obtain ⟨p, _, hp⟩ := List.mem_filterMap.mp hf
  obtain ⟨o, _, rfl⟩ := Option.map_eq_some_iff.mp hp
  cases hm

theorem placeOwed_of_passive (hn : s.normal = false) : s.placeOwed = s := by
  simp [placeOwed, placeEjectOffs, placeHeaterOffs, hn]

/-- In NORMAL mode the off frames take places as the statements say it. -/
theorem offsPlaced_placeOwed (hn : s.normal = true) : s.OffsPlaced s.placeOwed := by
  rw [placeOwed_eq hn]
  refine ⟨rfl, fun z => zone_fillPlaces _ _ z, fun p => ejector_fillPlaces _ _ p, ?_⟩
  rw [← placeOwed_eq hn]
  intro x hx
  refine placeOwed_changes s x fun h => hx ?_
  simp only [List.mem_cons, List.not_mem_nil, or_false] at h ⊢
  tauto

end Sys2Proof.Proofs.OffPlacement
end

