-- ==== Sys2Proof/Proofs/RequestChanges.lean ====
section
/-! PROOFS. What a request may change, said once for each request that has no frame yet. -/

namespace Sys2Proof.Proofs.RequestChanges

set_option Elab.async false

open Sys2Proof.Machine Sys2Proof.Machine.State

variable {k : List Part} {s t : State}

theorem evalAttention_changes (tm : Time) (s : State) : OnlyChanges raiseParts s (evalAttention tm s) := by
  intro x hx
  cases x
  case events | history | portU | attention | attnPin => exact absurd (by decide) hx
  all_goals simp [Same]

theorem clearEvents_changes (kinds : Fin 25 → Bool) (s : State) : OnlyChanges raiseParts s (s.clearEvents kinds) := by
  refine OnlyChanges.trans (fun x hx => ?_) (evalAttention_changes _ _)
  cases x
  case events => exact absurd (by decide) hx
  all_goals rfl

theorem enableEvents_changes (kinds : Fin 25 → Bool) (s : State) :
    OnlyChanges raiseParts s (s.enableEvents kinds) := by
  refine OnlyChanges.trans (fun x hx => ?_) (evalAttention_changes _ _)
  cases x
  case events => exact absurd (by decide) hx
  all_goals rfl

theorem serveClear_changes (kinds : BitVec 32) (s : State) : OnlyChanges raiseParts s (s.serveClear kinds).1 := by
  unfold serveClear
  split
  · exact .refl s
  · exact clearEvents_changes _ s

theorem serveEnable_changes (kinds : BitVec 32) (s : State) : OnlyChanges raiseParts s (s.serveEnable kinds).1 := by
  unfold serveEnable
  split
  · exact .refl s
  · exact enableEvents_changes _ s

theorem pressEnable_changes (p : PressNo) (s : State) : OnlyChanges [.units] s (s.pressEnable p).1 := by
  unfold pressEnable
  repeat' split
  all_goals dsimp only
  · exact modUnit_changes _ _ s
  · exact .refl s
  · exact modUnit_changes _ _ s
  · exact .refl s

theorem forceDemould_changes (p : PressNo) (s : State) :
    OnlyChanges [.cures, .history, .units] s (s.forceDemould p).1 := by
  unfold forceDemould
  split
  · dsimp only
    exact modUnit_only p _ (by decide) (setFlag_only p _ (by decide) (endCure_only p _ (by decide) (.refl s)))
  · exact .refl s

theorem ejectStep_changes (p : PressNo) (s : State) :
    OnlyChanges (.ejectors :: .offNumber :: .portD :: .zones :: .units :: netParts) s (s.ejectStep p).1 := by
  unfold ejectStep
  split
  all_goals dsimp only
  · exact modEjector_only p _ (by decide) (ejectOn_only p (by decide) (.refl s))
  · exact finishEjection_only p (by decide) (.refl s)
  all_goals exact .refl s

theorem scaleTare_changes (c : ScaleNo) (s : State) : OnlyChanges [.scales] s (s.scaleTare c).1 := by
  unfold scaleTare
  dsimp only
  split
  · exact modScale_changes _ _ s
  · exact .refl s

theorem afterStatusRead_changes (b : Block) (i : Nat) (s : State) :
    OnlyChanges [.freeCounter] s (s.afterStatusRead b i) := by
  unfold afterStatusRead afterScaleRead
  repeat' split
  · intro x hx
    cases x
    case freeCounter => exact absurd (by decide) hx
    all_goals rfl
  all_goals exact .refl s

theorem advanceCursor_changes (n : Nat) (s : State) : OnlyChanges [.history] s (s.advanceCursor n).2 := by
  induction n generalizing s with
  | zero => exact .refl s
  | succ n ih =>
    unfold advanceCursor
    split
    · exact .refl s
    · exact (modHistory_changes _ s).trans (ih _)

theorem advanceRead_changes (n : Nat) (s : State) : OnlyChanges [.history] s (s.advanceRead n).1 := by
  unfold advanceRead
  dsimp only
  split
  · exact .refl s
  · dsimp only
    refine (advanceCursor_changes n s).trans ?_
    unfold holdAfterAdvance
    split
    · exact modHistory_changes _ _
    · exact .refl _

theorem setSerialBase_changes (v : Nat) (s : State) : OnlyChanges [.history] s (s.setSerialBase v).1 := by
  unfold setSerialBase
  repeat' split
  · exact .refl s
  · exact .refl s
  · exact modHistory_changes _ s

theorem setLock_changes (p : PressNo) (b : Fin 2) (on : Bool) (s : State) :
    OnlyChanges [.profiles] s (s.setLock p b on).1 := modProfile_changes p b _ s

theorem lockProfile_changes (p : PressNo) (b : Fin 2) (s : State) :
    OnlyChanges [.profiles] s (s.lockProfile p b).1 := by
  unfold lockProfile
  split
  · exact .refl s
  · exact setLock_changes p b true s

theorem readProfile_state (p : PressNo) (b : Fin 2) (i n : Nat) (s : State) : (s.readProfile i n p b).1 = s := by
  unfold readProfile
  dsimp only
  repeat' split
  all_goals rfl

theorem zoneRestore_changes (z : ZoneNo) (s : State) : OnlyChanges [.zones] s (s.zoneRestore z).1 := by
  unfold zoneRestore
  dsimp only
  repeat' split
  · exact .refl s
  · exact .refl s
  · exact modZone_changes _ _ s
  · exact .refl s

end Sys2Proof.Proofs.RequestChanges
end

