-- ==== Sys2Proof/Proofs/AttentionAndOffs.lean ====
section
/-! PROOFS. Attention follows the pending kinds, R183, R185 and R196, and an off frame waits only while Port D OWN is
full, R79 and R153.

Attention is evaluated after each change of the event entries, and a raise leaves a pending kind pending. Within a WARM
reset it is not evaluated; the end of the reset clears every kind. -/

namespace Sys2Proof.Proofs.AttentionAndOffs

set_option Elab.async false

open Sys2Proof.Machine Sys2Proof.Machine.State Sys2Proof.Proofs.StepRules Sys2Proof.Proofs.UpheldLaws
  Sys2Proof.Proofs.Steps Sys2Proof.Proofs.OffPlacement Sys2Proof.Proofs.RequestChanges

variable {s t : State}

/-! ## Attention -/

/-- The attention law while RESET_N is high. -/
def Attends (s : State) : Prop :=
  s.attention = s.anyPending ∧ s.attnPin = s.attention ∧ s.warmTaking = false ∧ s.resetHeld = false

/-- What an evaluation of attention needs of the state before. -/
def Attentive (s : State) : Prop := s.attnPin = s.attention ∧ s.warmTaking = false ∧ s.resetHeld = false

theorem Attends.attentive (h : Attends s) : Attentive s := h.2

theorem attends_iff (hr : s.resetHeld = false) : Attends s ↔ s.AttentionLaw := by
  simp [Attends, AttentionLaw, hr]

theorem anyPending_iff : s.anyPending = true ↔ ∃ k : Fin 25, s.events[k].raw = true ∧ s.events[k].enable = true := by
  simp [anyPending, EventEntry.pending]

/-- The parts that the law speaks of. -/
def attentionParts : List Part := [.attention, .attnPin, .events, .warmTaking, .resetHeld]

theorem attends_of_changes {k : List Part} (h : OnlyChanges k s t) (hs : Attends s)
    (hk : ∀ x ∈ attentionParts, x ∉ k := by decide) : Attends t := by
  have hatt : s.attention = t.attention := h .attention (hk _ (by decide))
  have hpin : s.attnPin = t.attnPin := h .attnPin (hk _ (by decide))
  have hev : s.events = t.events := h .events (hk _ (by decide))
  have hwarm : s.warmTaking = t.warmTaking := h .warmTaking (hk _ (by decide))
  have hheld : s.resetHeld = t.resetHeld := h .resetHeld (hk _ (by decide))
  simpa only [Attends, anyPending, hatt, hpin, hev, hwarm, hheld] using hs

/-- A raise leaves a pending kind pending. -/
theorem anyPending_raiseEntry (tm : Time) (k : EventKind) (i : EventOn) (hs : s.anyPending = true) :
    (s.raiseEntry tm k i).anyPending = true := by
  obtain ⟨j, hraw, hen⟩ := anyPending_iff.mp hs
  have hev : (s.raiseEntry tm k i).events =
      s.events.set k.number (raisedEntry tm i.code s.events[k.number]) :=
    each_keeps _ State.events (fun p s => modRecord_events p _ s) _ _
  refine anyPending_iff.mpr ⟨j, ?_⟩
  rw [hev]
  by_cases hj : k.number = j
  · subst hj
    simpa [raisedEntry] using hen
  · have hv : k.number.val ≠ j.val := fun h => hj (Fin.ext h)
    simpa [hv] using ⟨hraw, hen⟩

theorem attentive_raiseEntry (tm : Time) (k : EventKind) (i : EventOn) (hs : Attentive s) :
    Attentive (s.raiseEntry tm k i) := by
  simpa [Attentive] using hs

/-- An EVENT frame goes while a kind is pending, and its loss leaves it pending. -/
theorem attends_sendEvent (tm : Time) (h : s.anyPending = true) (hatt : s.attention = true) (hs : Attentive s) :
    Attends (s.sendEvent tm) := by
  have hraise {s : State} (h : s.anyPending = true) (hatt : s.attention = true) (hs : Attentive s) (k : EventKind)
      (i : EventOn) : Attends (s.raiseEntry tm k i) := by
    exact ⟨by rw [raiseEntry_attention, hatt, anyPending_raiseEntry tm k i h], attentive_raiseEntry tm k i hs⟩
  unfold sendEvent
  split
  · exact ⟨hatt.trans h.symm, hs⟩
  · exact hraise (s := s.modPort .U _) h hatt hs _ _

/-- An evaluation of attention establishes the law. -/
theorem attends_evalAttention (tm : Time) (hs : Attentive s) : Attends (s.evalAttention tm) := by
  obtain ⟨hpin, hwarm, hheld⟩ := hs
  unfold evalAttention
  rw [if_neg (by rw [hwarm]; exact Bool.false_ne_true)]
  split
  · rename_i hp
    split
    · rename_i hatt
      exact ⟨hatt.trans hp.symm, hpin, hwarm, hheld⟩
    · exact attends_sendEvent tm (s := { s with attention := true, attnPin := true }) hp rfl ⟨rfl, hwarm, hheld⟩
  · rename_i hp
    exact ⟨(Bool.eq_false_iff.mpr hp).symm, rfl, hwarm, hheld⟩

theorem attends_raise (tm : Time) (k : EventKind) (i : EventOn) (hs : Attends s) : Attends (s.raise tm k i) := by
  unfold State.raise
  split
  · exact attends_evalAttention tm (attentive_raiseEntry tm k i hs.attentive)
  · exact hs

theorem attends_links : LinkRules Attends where
  link := id
  raise k i := attends_raise _ k i
  forward p b hs := by
    unfold forwardTo
    repeat' split
    · exact attends_of_changes (modPort_changes p _ _) hs
    · exact attends_raise _ _ _ (attends_of_changes (modPort_changes p _ _) hs)
    · exact hs
  originate p d k b m hs := by
    unfold originate
    repeat' split
    · exact attends_of_changes (modPort_changes p _ _) hs
    · exact attends_raise _ _ _ (attends_of_changes (modPort_changes p _ _) hs)
    · exact hs
  check p hs := attends_of_changes (countCheck_changes p _) hs
  format p hs := attends_of_changes (countFormat_changes p _) hs
  foreign p hs := attends_of_changes (countForeign_changes p _) hs
  reset _ := id

theorem attends_takeSlot (hs : Attends s) : Attends s.takeSlot := by
  unfold takeSlot
  dsimp only
  repeat' split
  · exact hs
  · exact attends_raise _ _ _ hs
  · exact hs

theorem attends_handToExport (r : Record) (hs : Attends s) : Attends (s.handToExport r) := by
  unfold handToExport
  repeat' split
  · exact attends_of_changes (exportMoves_changes _) hs
  · exact attends_raise _ _ _ hs
  · exact hs

theorem attends_startTransmission (p : Port) (hs : Attends s) : Attends (startTransmission p s) := by
  have hmark (m : Mark) {s : State} (hs : Attends s) : Attends (markStarts m s) := by cases m <;> exact hs
  have hframe : Attends (s.takeFrame p) := by
    unfold takeFrame
    split
    · exact hmark _ (attends_of_changes (modPort_changes p _ _) hs)
    · exact attends_of_changes (modPort_changes p _ _) hs
    · exact hs
    · exact hs
  unfold startTransmission
  split
  · cases p
    · exact attends_of_changes (exportMoves_changes _) hframe
    · exact attends_of_changes (placeOwed_changes _) hframe
  · exact hs

theorem attends_upheld : Upheld Attends where
  links := attends_links
  raise := attends_raise
  clear _ hs := attends_evalAttention _ hs.attentive
  enable _ hs := attends_evalAttention _ hs.attentive
  zone _ _ _ := id
  window _ _ := id
  cure _ _ := id
  accrual _ _ _ := id
  scale _ _ := id
  unit _ _ := id
  ejector _ _ _ := id
  profile _ _ _ _ := id
  tables _ := id
  history _ _ := id
  store _ _ hs := attends_takeSlot hs
  hand := attends_handToExport
  moves := attends_of_changes (exportMoves_changes _)
  places := attends_of_changes (placeOwed_changes _)
  ejectOffs hs := attends_of_changes (placeEjectOffs_changes _) hs
  offCreated z hs := attends_of_changes (placeOwed_changes _) (attends_of_changes (createOff_changes z _) hs)
  offOwed p hs := attends_of_changes (placeOwed_changes _) (attends_of_changes (oweEjectOff_changes p _) hs)
  cut p hs := Upheld.doIf (Q := Attends) (attends_of_changes (placeOwed_changes _))
    (attends_of_changes (oweEjectOff_changes p _) hs)
  start := attends_startTransmission
  sent p hs := attends_of_changes (modPort_changes p _ _) hs
  tick := id
  linkOff := id
  free _ := id

/-! ## Resets -/

/-- RESET_N is high within a WARM reset. -/
theorem resetHeld_warmBody (hr : s.resetHeld = false) : s.warmBody.resetHeld = false := by
  have hunit {s : State} (p : PressNo) (h : s.resetHeld = false) : (s.resetUnit p .warmReset).resetHeld = false :=
    (resetUnit_changes p .warmReset s .resetHeld (by decide)).symm.trans h
  unfold warmBody warmLocks warmUnits warmScales
  dsimp only
  refine each_rule (Q := fun s => s.resetHeld = false) (fun p => hunit p) _
    (each_rule (Q := fun s => s.resetHeld = false) (fun k {_} h => ?_) _ ?_)
  · exact h
  · exact hr

/-- A WARM reset leaves no kind pending. -/
theorem attends_warmEvents (hw : s.warmTaking = false) (hr : s.resetHeld = false) : Attends s.warmEvents := by
  refine ⟨?_, rfl, hw, hr⟩
  simp [warmEvents, anyPending, EventEntry.pending, clearedEntry]

theorem attends_warmEffect (hr : s.resetHeld = false) : Attends s.warmEffect :=
  attends_of_changes (exportMoves_changes _) (attends_of_changes (placeOwed_changes _)
    (attends_warmEvents rfl (resetHeld_warmBody hr)))

theorem attends_coldShutdown (hs : Attends s) : Attends s.coldShutdown := by
  refine attends_of_changes (placeOwed_changes _) (each_rule (fun p {x} hx => ?_) _ (each_rule (fun z {x} hx => ?_) _
    (show Attends { s with resetPending := .idle, shutdown := true } from hs)))
  · unfold shutOffEjector
    split
    · exact attends_of_changes (oweEjectOff_changes p _) hx
    · exact hx
  · unfold shutOffZone
    split
    · exact attends_of_changes (createOff_changes z _) hx
    · exact hx

theorem attends_coldEffect (s : State) : Attends s.coldEffect :=
  ⟨(by decide : false = State.reset.anyPending), rfl, rfl, rfl⟩

theorem attends_due : DueRules Attends where
  warm hs _ := attends_warmEffect hs.2.2.2
  shutdown hs _ := attends_coldShutdown hs
  cold _ := attends_coldEffect _

theorem attentionLaw_of_attends (h : Attends s) : s.AttentionLaw := (attends_iff h.2.2.2).mp h

theorem step_attentionLaw (hs : s.AttentionLaw) (h : step s = .next t) : t.AttentionLaw :=
  step_keeps (P := AttentionLaw) (fun _ => id)
    (exec_keeps (Q := Attends) (fun h hr => (attends_iff hr).mpr h) attentionLaw_of_attends
      (fun ⟨hatt, _, hwarm⟩ => ⟨hatt, (Bool.and_false _).symm, hwarm⟩) (fun _ => id)
      (fun _ => attentionLaw_of_attends (attends_coldEffect _)) attends_due attends_upheld.actions) hs h

/-! ## Off frames that wait -/

/-- The off law, outside a WARM reset. -/
def OffsWait (s : State) : Prop := s.OffLaw ∧ s.warmTaking = false

theorem offWaits_iff : s.offWaits = true ↔ (∃ z, ∃ o ∈ (s.zone z).offs, o.placed = false)
    ∨ ∃ p, ∃ o, (s.ejector p).offOwed = some o ∧ o.placed = false := by
  simp [offWaits, Option.any_eq_true]

/-- A state that holds no off frame more, and whose Port D OWN holds no frame less. -/
theorem offLaw_of_le (hn : t.normal = s.normal) (hz : ∀ z, (t.zone z).offs ⊆ (s.zone z).offs)
    (he : ∀ p o, (t.ejector p).offOwed = some o → (s.ejector p).offOwed = some o)
    (hown : s.portD.own.length ≤ t.portD.own.length) (hs : s.OffLaw) : t.OffLaw := by
  intro htn htw
  refine le_trans (hs (hn ▸ htn) (offWaits_iff.mpr ?_)) hown
  rcases offWaits_iff.mp htw with ⟨z, o, ho, hp⟩ | ⟨p, o, ho, hp⟩
  · exact .inl ⟨z, o, hz z ho, hp⟩
  · exact .inr ⟨p, o, he p o ho, hp⟩

/-- The parts that the law speaks of. -/
def offParts : List Part := [.mode, .zones, .ejectors, .portD, .warmTaking]

theorem offsWait_of_changes {k : List Part} (h : OnlyChanges k s t) (hs : OffsWait s)
    (hk : ∀ x ∈ offParts, x ∉ k := by decide) : OffsWait t := by
  have hmode : s.mode = t.mode := h .mode (hk _ (by decide))
  have hzones : s.zones = t.zones := h .zones (hk _ (by decide))
  have hejectors : s.ejectors = t.ejectors := h .ejectors (hk _ (by decide))
  have hport : s.portD = t.portD := h .portD (hk _ (by decide))
  have hwarm : s.warmTaking = t.warmTaking := h .warmTaking (hk _ (by decide))
  simpa only [OffsWait, OffLaw, State.normal, offWaits, State.zone, State.ejector, hmode, hzones, hejectors, hport,
    hwarm] using hs

/-- An off frame that still waits after the loops found no place. -/
theorem full_of_offWaits_fillPlaces {w : List OwnFrame}
    (hw : (fillPlaces w s).offWaits = true)
    (hzone : ∀ z, ∀ o ∈ (s.zone z).offs, o.placed = false → heatOff s z o ∈ w)
    (hpress : ∀ p o, (s.ejector p).offOwed = some o → o.placed = false → ejectOff s p o ∈ w) :
    Config.ownPlaces ≤ (fillPlaces w s).portD.own.length := by
  have hfull (f : OwnFrame) (hf : f ∈ w) (hnot : hasPlaced w s f.mark = false) :
      Config.ownPlaces ≤ (fillPlaces w s).portD.own.length := by
    have hlong : Config.ownPlaces - s.portD.own.length < w.length := by
      by_contra hle
      have hall : placedOf w s = w := List.take_of_length_le (by omega)
      rw [hasPlaced, hall, decide_eq_false_iff_not] at hnot
      exact hnot (List.mem_map_of_mem hf)
    simp only [fillPlaces, placedOf, List.length_append, List.length_take]
    omega
  rcases offWaits_iff.mp hw with ⟨z, o, ho, hp⟩ | ⟨p, o, ho, hp⟩
  · rw [zone_fillPlaces] at ho
    obtain ⟨o', ho', rfl⟩ := List.mem_map.mp ho
    rw [Bool.or_eq_false_iff] at hp
    exact hfull _ (hzone z o' ho' hp.1) hp.2
  · rw [ejector_fillPlaces] at ho
    obtain ⟨o', ho', rfl⟩ := Option.map_eq_some_iff.mp ho
    rw [Bool.or_eq_false_iff] at hp
    exact hfull _ (hpress p o' ho' hp.1) hp.2

/-- The placing of off frames establishes the law. -/
theorem offLaw_placeOwed (s : State) : s.placeOwed.OffLaw := by
  by_cases hn : s.normal = true
  · rw [placeOwed_eq hn]
    intro _ hw
    refine full_of_offWaits_fillPlaces hw (fun z o ho hp => ?_) (fun p o ho hp => ?_)
    · refine List.mem_append_right _ (List.mem_flatMap.mpr ⟨z, List.mem_finRange z, ?_⟩)
      exact List.mem_map_of_mem (List.mem_filter.mpr ⟨ho, by simp [hp]⟩)
    · refine List.mem_append_left _ (List.mem_filterMap.mpr ⟨p, List.mem_finRange p, ?_⟩)
      simp [ho, hp, ejectOff]
  · rw [placeOwed_of_passive (Bool.eq_false_iff.mpr hn)]
    exact fun h => absurd h hn

theorem warmTaking_of_changes {k : List Part} (h : OnlyChanges k s t) (hs : s.warmTaking = false)
    (hk : Part.warmTaking ∉ k := by decide) : t.warmTaking = false :=
  (h .warmTaking hk).symm.trans hs

theorem offsWait_placeOwed (hs : s.warmTaking = false) : OffsWait s.placeOwed :=
  ⟨offLaw_placeOwed s, warmTaking_of_changes (placeOwed_changes s) hs⟩

/-- The owed EJECT_OFFs alone: each that gains a place leaves one frame less to wait. -/
theorem offsWait_placeEjectOffs (hs : OffsWait s) : OffsWait s.placeEjectOffs := by
  refine ⟨?_, warmTaking_of_changes (placeEjectOffs_changes s) hs.2⟩
  by_cases hn : s.normal = true
  · rw [placeEjectOffs_eq hn]
    intro _ hw
    have hwaits : s.offWaits = true := by
      refine offWaits_iff.mpr ?_
      rcases offWaits_iff.mp hw with ⟨z, o, ho, hp⟩ | ⟨p, o, ho, hp⟩
      · rw [zone_fillPlaces] at ho
        obtain ⟨o', ho', rfl⟩ := List.mem_map.mp ho
        exact .inl ⟨z, o', ho', (Bool.or_eq_false_iff.mp hp).1⟩
      · rw [ejector_fillPlaces] at ho
        obtain ⟨o', ho', rfl⟩ := Option.map_eq_some_iff.mp ho
        exact .inr ⟨p, o', ho', (Bool.or_eq_false_iff.mp hp).1⟩
    refine le_trans (hs.1 hn hwaits) ?_
    simp only [fillPlaces, List.length_append]
    omega
  · simpa [placeEjectOffs, hn] using hs.1

/-- A frame that joins Port D OWN, or joins or leaves another queue, or a counter. -/
theorem offsWait_modPort (p : Port) (f : PortState → PortState)
    (hf : ∀ x, x.own.length ≤ (f x).own.length) (hs : OffsWait s) : OffsWait (s.modPort p f) := by
  cases p
  · exact hs
  · exact ⟨offLaw_of_le (s := s) rfl (fun z => List.Subset.refl _) (fun p o h => h) (hf _) hs.1, hs.2⟩

theorem offsWait_links : LinkRules OffsWait where
  link := id
  raise k i hs := offsWait_of_changes (raiseNow_changes k i _) hs
  forward p b hs := by
    unfold forwardTo
    repeat' split
    · exact offsWait_modPort p _ (fun _ => le_refl _) hs
    · exact offsWait_of_changes (raiseNow_changes _ _ _) (offsWait_modPort p _ (fun _ => le_refl _) hs)
    · exact hs
  originate p d k b m hs := by
    unfold originate
    repeat' split
    · exact offsWait_modPort p _ (fun _ => by simp) hs
    · exact offsWait_of_changes (raiseNow_changes _ _ _) (offsWait_modPort p _ (fun _ => le_refl _) hs)
    · exact hs
  check p hs := offsWait_modPort p _ (fun _ => le_refl _) hs
  format p hs := offsWait_modPort p _ (fun _ => le_refl _) hs
  foreign p hs := offsWait_modPort p _ (fun _ => le_refl _) hs
  reset _ := id

theorem offsWait_zone (z : ZoneNo) (f : Zone → Zone) (hf : (f (s.zone z)).offs ⊆ (s.zone z).offs)
    (hs : OffsWait s) : OffsWait (s.modZone z f) := by
  refine ⟨offLaw_of_le (s := s) rfl (fun y => ?_) (fun _ _ h => h) (le_refl _) hs.1, hs.2⟩
  by_cases hy : y = z
  · subst hy
    simpa using hf
  · rw [zone_modZone_of_ne _ _ _ hy]
    exact List.Subset.refl _

theorem offsWait_ejector (p : PressNo) (f : Ejector → Ejector)
    (hf : ∀ o, (f (s.ejector p)).offOwed = some o → (s.ejector p).offOwed = some o)
    (hs : OffsWait s) : OffsWait (s.modEjector p f) := by
  refine ⟨offLaw_of_le (s := s) rfl (fun _ => List.Subset.refl _) (fun q o ho => ?_) (le_refl _) hs.1, hs.2⟩
  by_cases hq : q = p
  · subst hq
    exact hf o (by simpa using ho)
  · rwa [ejector_modEjector_of_ne _ _ _ hq] at ho

/-- A start of transmission takes the off command of a HEAT frame, or what an EJECT_OFF was owed for; then the off
frames that wait take places. -/
theorem offsWait_startTransmission (p : Port) (hs : OffsWait s) : OffsWait (startTransmission p s) := by
  have hmark (m : Mark) {s : State} (hs : OffsWait s) : OffsWait (markStarts m s) := by
    cases m with
    | plain | resetResponse => exact hs
    | heaterOff z n => exact offsWait_zone z _ (List.filter_subset_self _) hs
    | ejectOff p n => exact offsWait_ejector p _ (fun o ho => (Option.filter_eq_some_iff.mp ho).1) hs
  unfold startTransmission
  split
  · cases p with
    | U =>
      refine offsWait_of_changes (exportMoves_changes _) ?_
      unfold takeFrame
      split
      · exact hmark _ hs
      all_goals exact hs
    | D =>
      refine offsWait_placeOwed ?_
      unfold takeFrame
      split
      · rename_i f rest _ _ _ _
        have hkeep (m : Mark) (s : State) : (markStarts m s).warmTaking = s.warmTaking := by cases m <;> rfl
        exact (hkeep _ _).trans hs.2
      all_goals exact hs.2
  · exact hs

theorem offsWait_upheld : Upheld OffsWait where
  links := offsWait_links
  raise t k i hs := offsWait_of_changes (raise_changes t k i _) hs
  clear kinds hs := offsWait_of_changes (evalAttention_changes _ _) (id hs)
  enable kinds hs := offsWait_of_changes (evalAttention_changes _ _) (id hs)
  zone := offsWait_zone
  window _ _ := id
  cure _ _ := id
  accrual _ _ _ := id
  scale _ _ := id
  unit _ _ := id
  ejector p f hf := offsWait_ejector p f fun o ho => hf ▸ ho
  profile _ _ _ _ := id
  tables _ := id
  history _ _ := id
  store p r hs := offsWait_of_changes (storeRecord_changes p r _) (offsWait_of_changes (takeSlot_changes _) hs)
  hand r hs := offsWait_of_changes (handToExport_changes r _) hs
  moves := offsWait_of_changes (exportMoves_changes _)
  places hs := offsWait_placeOwed hs.2
  ejectOffs := offsWait_placeEjectOffs
  offCreated z hs := offsWait_placeOwed (warmTaking_of_changes (createOff_changes z _) hs.2)
  offOwed p hs := offsWait_placeOwed (warmTaking_of_changes (oweEjectOff_changes p _) hs.2)
  cut {s} p hs := by
    have hw : (s.oweEjectOff p).warmTaking = false := warmTaking_of_changes (oweEjectOff_changes p _) hs.2
    rw [hs.2]
    exact offsWait_placeOwed hw
  start := offsWait_startTransmission
  sent p hs := offsWait_modPort p _ (fun _ => le_refl _) hs
  tick := id
  linkOff := id
  free _ := id

theorem offsWait_warmEffect : OffsWait s.warmEffect :=
  offsWait_of_changes (exportMoves_changes _) (offsWait_placeOwed rfl)

theorem offsWait_coldShutdown (hs : OffsWait s) : OffsWait s.coldShutdown := by
  refine offsWait_placeOwed (each_rule (Q := fun s => s.warmTaking = false) (fun p {x} hx => ?_) _
    (each_rule (Q := fun s => s.warmTaking = false) (fun z {x} hx => ?_) _ hs.2))
  · unfold shutOffEjector
    split
    · exact warmTaking_of_changes (oweEjectOff_changes p _) hx
    · exact hx
  · unfold shutOffZone
    split
    · exact warmTaking_of_changes (createOff_changes z _) hx
    · exact hx

theorem offsWait_coldEffect (s : State) : OffsWait s.coldEffect := by
  refine ⟨fun _ hw => ?_, rfl⟩
  rcases offWaits_iff.mp hw with ⟨z, o, ho, _⟩ | ⟨p, o, ho, _⟩
  · simp [coldEffect, State.atPowerOn, State.zone, Zone.atReset] at ho
  · simp [coldEffect, State.atPowerOn, State.ejector, Ejector.atReset] at ho

theorem offsWait_due : DueRules OffsWait where
  warm _ _ := offsWait_warmEffect
  shutdown hs _ := offsWait_coldShutdown hs
  cold _ := offsWait_coldEffect _

theorem step_offsWait (hs : OffsWait s) (h : step s = .next t) : OffsWait t :=
  step_keeps (fun _ => id)
    (exec_keeps (Q := OffsWait) (fun h _ => h) id id (fun _ => id) (fun _ => offsWait_coldEffect _) offsWait_due
      offsWait_upheld.actions) hs h

/-- Settles O5: attention is evaluated where its entries change; an off frame is placed where one comes to wait or a
place comes free. -/
theorem stepKeepsAttentionAndOffLaws : Obligations.StepKeepsAttentionAndOffLaws := by
  intro s t hs h
  have ht := step_attentionLaw hs h
  exact ⟨ht, fun hoff => (step_offsWait ⟨hoff, hs.2.2⟩ h).1⟩

end Sys2Proof.Proofs.AttentionAndOffs
end

