-- ==== Sys2Proof/Proofs/HeatLaws.lean ====
section
/-! PROOFS. Duties stay in their range and a window runs exactly while a zone is enabled, R68 and R74.

Within two operations a part of the duty law does not hold for some zones: a Zone write replaces the entries before it
lowers the duties zone by zone (R47), and at a window end a zone enters LOST with the duty that the commit then takes
from it (R73, R74). `Heats B X` is the law with the bounds left out for the zones `B` and the rest of an undriven zone
for the zones `X`. -/

namespace Sys2Proof.Proofs.HeatLaws

set_option Elab.async false

open Sys2Proof.Machine Sys2Proof.Machine.State Sys2Proof.Proofs.StepRules Sys2Proof.Proofs.OffPlacement
  Sys2Proof.Proofs.CloseConditions Sys2Proof.Proofs.UpheldLaws Sys2Proof.Proofs.RequestChanges

/-! ## The laws, zone by zone -/

/-- Both duties are within the max duty. -/
def Within (e : ZoneEntry) (c : Zone) : Prop := c.staged ≤ e.maxDuty ∧ c.committed ≤ e.maxDuty

/-- A zone that does not drive its heater has committed duty 0. -/
def Rests (c : Zone) : Prop := c.state.driven = false → c.committed = 0

/-- The heat laws, but for the bounds of the zones `B` and the rest of the zones `X`. -/
def Heats (B X : ZoneNo → Prop) (s : State) : Prop :=
  (∀ z, ¬B z → Within (s.zoneEntry z) (s.zone z)) ∧ (∀ z, ¬X z → Rests (s.zone z)) ∧ s.WindowLaw

/-- No zone. -/
def noZone : ZoneNo → Prop := fun _ => False

theorem heats_iff {s : State} : Heats noZone noZone s ↔ s.DutyLaw ∧ s.WindowLaw := by
  constructor
  · rintro ⟨hwithin, hrests, hwindow⟩
    exact ⟨fun z => ⟨(hwithin z id).1, (hwithin z id).2, hrests z id⟩, hwindow⟩
  · rintro ⟨hduty, hwindow⟩
    exact ⟨fun z _ => ⟨(hduty z).1, (hduty z).2.1⟩, fun z _ => (hduty z).2.2, hwindow⟩

variable {s t : State} {B X : ZoneNo → Prop}

theorem windowLaw_iff : s.WindowLaw ↔ ∀ p, ((s.window p).running = true ↔ ∃ z, pressOf z = p ∧ s.enabled z = true)
    ∧ (s.window p).start.isSome = (s.window p).running := by
  refine forall_congr' fun p => and_congr_left fun _ => ?_
  have hen : s.enabledZones p = [] ↔ ¬∃ z, pressOf z = p ∧ s.enabled z = true := by
    rw [List.eq_nil_iff_forall_not_mem]
    simp only [mem_enabledZones, not_exists]
  by_cases h : ∃ z, pressOf z = p ∧ s.enabled z = true
  · have hne : (s.enabledZones p).isEmpty = false := List.isEmpty_eq_false_iff.mpr fun h' => hen.mp h' h
    simp [h, hne]
  · have he : s.enabledZones p = [] := hen.mpr h
    simp [h, he]

/-- No entry differs, nor a window, nor a zone's state and duties. -/
def SameHeat (s t : State) : Prop :=
  t.tables.zones = s.tables.zones ∧ t.windows = s.windows ∧ ∀ z, (t.zone z).state = (s.zone z).state
    ∧ (t.zone z).staged = (s.zone z).staged ∧ (t.zone z).committed = (s.zone z).committed

theorem SameHeat.refl (s : State) : SameHeat s s := ⟨rfl, rfl, fun _ => ⟨rfl, rfl, rfl⟩⟩

theorem SameHeat.trans {u : State} (h : SameHeat s t) (g : SameHeat t u) : SameHeat s u := by
  obtain ⟨ht, hw, hz⟩ := h
  obtain ⟨gt, gw, gz⟩ := g
  refine ⟨gt.trans ht, gw.trans hw, fun z => ?_⟩
  obtain ⟨h1, h2, h3⟩ := hz z
  obtain ⟨g1, g2, g3⟩ := gz z
  exact ⟨g1.trans h1, g2.trans h2, g3.trans h3⟩

theorem SameHeat.enabled (h : SameHeat s t) (z : ZoneNo) : t.enabled z = s.enabled z := by
  rw [State.enabled, State.enabled, (h.2.2 z).1]

theorem heats_of_same (h : SameHeat s t) (hs : Heats B X s) : Heats B X t := by
  obtain ⟨hwithin, hrests, hwindow⟩ := hs
  have hen := h.enabled
  obtain ⟨ht, hw, hz⟩ := h
  refine ⟨fun z hb => ?_, fun z hx => ?_, windowLaw_iff.mpr fun p => ?_⟩
  · obtain ⟨_, hst, hc⟩ := hz z
    simpa only [Within, zoneEntry, ht, hst, hc] using hwithin z hb
  · obtain ⟨hstate, _, hc⟩ := hz z
    simpa only [Rests, hstate, hc] using hrests z hx
  · simpa only [window, hw, hen] using windowLaw_iff.mp hwindow p

theorem SameHeat.of_changes {k : List Part} (h : OnlyChanges k s t)
    (hk : ∀ x ∈ [Part.zones, .windows, .tables], x ∉ k := by decide) : SameHeat s t := by
  have hzones : s.zones = t.zones := h .zones (hk _ (by decide))
  have hwindows : s.windows = t.windows := h .windows (hk _ (by decide))
  have htables : s.tables = t.tables := h .tables (hk _ (by decide))
  exact ⟨by rw [htables], hwindows.symm, fun z => by simp [State.zone, hzones]⟩

/-- A change of a zone that leaves its state and its duties. -/
theorem SameHeat.modZone (s : State) (z : ZoneNo) (f : Zone → Zone)
    (hf : ∀ c, (f c).state = c.state ∧ (f c).staged = c.staged ∧ (f c).committed = c.committed := by
      intros; exact ⟨rfl, rfl, rfl⟩) : SameHeat s (s.modZone z f) := by
  refine ⟨rfl, rfl, fun y => ?_⟩
  by_cases hy : y = z
  · subst hy
    rw [zone_modZone]
    exact hf _
  · rw [zone_modZone_of_ne _ _ _ hy]
    exact ⟨rfl, rfl, rfl⟩

theorem heats_of_changes {k : List Part} (h : OnlyChanges k s t) (hs : Heats B X s)
    (hk : ∀ x ∈ [Part.zones, .windows, .tables], x ∉ k := by decide) : Heats B X t :=
  heats_of_same (.of_changes h hk) hs

theorem zone_of_changes {k : List Part} (h : OnlyChanges k s t) (z : ZoneNo)
    (hk : Part.zones ∉ k := by decide) : t.zone z = s.zone z := by
  have hz : s.zones = t.zones := h .zones hk
  rw [State.zone, State.zone, hz]

/-! ## One zone, one window, the tables -/

theorem heats_modZone (z : ZoneNo) (f : Zone → Zone)
    (hwithin : Within (s.zoneEntry z) (s.zone z) → ¬B z → Within (s.zoneEntry z) (f (s.zone z)))
    (hrests : (B z ∨ Within (s.zoneEntry z) (s.zone z)) → Rests (s.zone z) → ¬X z → Rests (f (s.zone z)))
    (hen : (f (s.zone z)).state = .disabled ↔ (s.zone z).state = .disabled)
    (hs : Heats B X s) : Heats B X (s.modZone z f) := by
  obtain ⟨hw, hr, hwindow⟩ := hs
  refine ⟨fun y hb => ?_, fun y hx => ?_, windowLaw_iff.mpr fun p => ?_⟩
  · by_cases hy : y = z
    · subst hy
      rw [zone_modZone]
      exact hwithin (hw y hb) hb
    · rw [zone_modZone_of_ne _ _ _ hy]
      exact hw y hb
  · by_cases hy : y = z
    · subst hy
      rw [zone_modZone]
      exact hrests (or_iff_not_imp_left.mpr (hw y)) (hr y hx) hx
    · rw [zone_modZone_of_ne _ _ _ hy]
      exact hr y hx
  · have hsame (y : ZoneNo) : (s.modZone z f).enabled y = s.enabled y := by
      by_cases hy : y = z
      · subst hy
        rw [Bool.eq_iff_iff, enabled, enabled, zone_modZone, bne_iff_ne, bne_iff_ne, ne_eq, hen]
      · rw [enabled, zone_modZone_of_ne _ _ _ hy, enabled]
    simpa only [hsame, window, modZone_windows] using windowLaw_iff.mp hwindow p

theorem heats_zoneField (z : ZoneNo) (f : Zone → Zone) (hs : Heats B X s)
    (hf : ∀ c, (f c).state = c.state ∧ (f c).staged = c.staged ∧ (f c).committed = c.committed := by
      intros; exact ⟨rfl, rfl, rfl⟩) : Heats B X (s.modZone z f) :=
  heats_of_same (.modZone s z f hf) hs

theorem heats_windowField (p : PressNo) (f : HeatWindow → HeatWindow)
    (hrun : (f (s.window p)).running = (s.window p).running)
    (hstart : (f (s.window p)).start.isSome = (s.window p).start.isSome) (hs : Heats B X s) :
    Heats B X (s.modWindow p f) := by
  refine ⟨hs.1, hs.2.1, windowLaw_iff.mpr fun q => ?_⟩
  have hq := windowLaw_iff.mp hs.2.2 q
  by_cases h : q = p
  · subst h
    rw [window_modWindow, hrun, hstart]
    exact hq
  · rw [window_modWindow_of_ne _ _ _ h]
    exact hq

theorem heats_links : LinkRules (Heats B X) where
  link := id
  raise k i hs := heats_of_changes (raiseNow_changes k i _) hs
  forward p b hs := heats_of_changes (forwardTo_changes p b _) hs
  originate p d k b m hs := heats_of_changes (originate_changes p d k b m _) hs
  check p hs := heats_of_changes (countCheck_changes p _) hs
  format p hs := heats_of_changes (countFormat_changes p _) hs
  foreign p hs := heats_of_changes (countForeign_changes p _) hs
  reset _ := id

theorem heats_doIf {c : Bool} {g : State → State} (h : Heats B X s → Heats B X (g s)) (hs : Heats B X s) :
    Heats B X (doIf c g s) :=
  doIf_rule (fun hs _ => h hs) id hs

/-! ## Off commands and recipes' setpoints leave states and duties -/

theorem same_placeOwed (s : State) : SameHeat s s.placeOwed := by
  by_cases hn : s.normal = true
  · obtain ⟨_, hzone, _, hrest⟩ := offsPlaced_placeOwed hn
    refine ⟨congrArg Tables.zones (hrest .tables (by decide)).symm, (hrest .windows (by decide)).symm, fun z => ?_⟩
    rw [hzone z]
    exact ⟨rfl, rfl, rfl⟩
  · rw [placeOwed_of_passive (Bool.eq_false_iff.mpr hn)]
    exact .refl s

theorem same_createOff (z : ZoneNo) (s : State) : SameHeat s (s.createOff z) := by
  unfold createOff
  split
  · rename_i h _
    exact SameHeat.trans (t := s.modZone z fun c =>
        { c with offs := (c.offs.filter fun o => !(o.node == h.node && o.output == h.line))
            ++ [{ node := h.node, output := h.line, placed := false, number := s.offNumber }] })
      (.modZone s z _) (.refl _)
  · exact .refl s

theorem same_oweEjectOff (p : PressNo) (s : State) : SameHeat s (s.oweEjectOff p) :=
  .of_changes (oweEjectOff_changes p s)

theorem same_setBase (z : ZoneNo) (b : Int) (s : State) : SameHeat s (s.setBase z b) := .modZone s z _

theorem same_takeRecipeBase (r : Recipe) (z : ZoneNo) (s : State) : SameHeat s (s.takeRecipeBase r z) := by
  unfold takeRecipeBase
  split
  · exact same_setBase _ _ s
  · exact .refl s

theorem same_clearOffsFor (n o : Nat) (z : ZoneNo) (s : State) : SameHeat s (s.clearOffsFor n o z) := .modZone s z _

/-! ## Samples (R52 to R55) -/

theorem within_regulated (e : ZoneEntry) (gap : Nat) (m : Int) (tm : Time) (c : Zone) (h : c.committed ≤ e.maxDuty) :
    Within e (regulated e gap m tm c) := by
  refine ⟨?_, h⟩
  simp only [regulated, clampInt]
  omega

/-- The regulator, on a zone that drives its heater. -/
theorem heats_regulate (z : ZoneNo) (m : Int) (tm : Time) (hs : Heats B X s) : Heats B X (s.regulate z m tm) :=
  heats_modZone z _ (fun h _ => within_regulated _ _ _ _ _ h.2) (fun _ h _ => h) Iff.rfl hs

theorem heats_overtempEntry (z : ZoneNo) (tm : Time) (hen : s.enabled z = true) (hs : Heats B X s) :
    Heats B X (s.overtempEntry z tm) := by
  have hne : (s.zone z).state ≠ .disabled := by simpa [enabled] using hen
  have hzone : Heats B X (s.modZone z fun c => { c with state := .overtemp, staged := 0, committed := 0 }) :=
    heats_modZone z _ (fun _ _ => ⟨Nat.zero_le _, Nat.zero_le _⟩) (fun _ _ _ _ => rfl)
      (by simp [hne]) hs
  have hheat {s : State} (hs : Heats B X s) : Heats B X (s.immediateHeat z) := by
    unfold immediateHeat
    split
    · exact heats_links.originate _ _ _ _ _ hs
    · exact hs
  exact heats_of_changes (setFlag_changes _ _ _) (heats_of_changes (raise_changes _ _ _ _) (hheat hzone))

theorem heats_deviationTest (z : ZoneNo) (m : Int) (tm : Time) (hs : Heats B X s) :
    Heats B X (s.deviationTest z m tm) := by
  have counted (n : Nat) : Heats B X (s.modZone z fun c => { c with deviationCount := n }) := heats_zoneField z _ hs
  unfold deviationTest
  dsimp only
  repeat' split
  · exact heats_zoneField z _ (heats_of_changes (setFlag_changes _ _ _)
      (heats_of_changes (raise_changes _ _ _ _) (counted _)))
  · exact counted _
  · exact counted _
  · exact hs
  · exact hs

theorem heats_finishSample (z : ZoneNo) (m : Int) (tm : Time) (hs : Heats B X s) :
    Heats B X (s.finishSample z m tm) :=
  heats_of_changes (takeHanded_changes _ _ _ _) (heats_deviationTest z m tm (heats_zoneField z _ hs))

theorem heats_sampleRegulating (z : ZoneNo) (m : Int) (tm : Time) (hen : s.enabled z = true) (hs : Heats B X s) :
    Heats B X (s.sampleRegulating z m tm) := by
  have hne : (s.zone z).state ≠ .disabled := by simpa [enabled] using hen
  have h1 : Heats B X (s.modZone z fun c => { withSample m c with state := .regulating }) :=
    heats_modZone z _ (fun h _ => h) (fun _ _ _ h => nomatch h) (by simp [hne]) hs
  unfold sampleRegulating
  refine heats_finishSample z m tm ?_
  split
  · exact heats_overtempEntry z tm (by simp [enabled]) h1
  · exact heats_regulate z m tm h1

theorem heats_sampleOvertemp (z : ZoneNo) (m : Int) (tm : Time) (hen : s.enabled z = true) (hs : Heats B X s) :
    Heats B X (s.sampleOvertemp z m tm) := by
  have hne : (s.zone z).state ≠ .disabled := by simpa [enabled] using hen
  have h1 : Heats B X (s.modZone z (withSample m)) := heats_zoneField z _ hs
  unfold sampleOvertemp
  refine heats_finishSample z m tm ?_
  split
  · refine heats_regulate z m tm (heats_modZone z _ (fun h _ => h) (fun _ _ _ h => nomatch h) ?_ h1)
    simp [withSample, hne]
  · exact h1

theorem heats_raiseSwitch (z : ZoneNo) (tm : Time) (hs : Heats B X s) : Heats B X (s.raiseSwitch z tm) :=
  heats_of_changes (raiseSwitch_changes z tm s) hs

theorem heats_sampleLost (z : ZoneNo) (sensor : ActiveSensor) (m : Int) (tm : Time) (hen : s.enabled z = true)
    (hs : Heats B X s) : Heats B X (s.sampleLost z sensor m tm) := by
  have hne : (s.zone z).state ≠ .disabled := by simpa [enabled] using hen
  have hzones (c : Bool) : (doIf c (raiseSwitch z tm) (s.modZone z fun c => { c with active := sensor })).zone z
      = { s.zone z with active := sensor } := by
    cases c
    · simp [doIf]
    · exact (zone_of_changes (raiseSwitch_changes z tm _) z).trans (zone_modZone z _ s)
  unfold sampleLost
  dsimp only
  refine heats_sampleRegulating z m tm (by simp [enabled]) (heats_modZone z _ (fun h _ => h) (fun _ _ _ h => nomatch h)
    ?_ (heats_doIf (heats_raiseSwitch z tm) (heats_zoneField z _ hs)))
  simp [hzones, hne]

theorem heats_switchToBackup (z : ZoneNo) (tm : Time) (hs : Heats B X s) : Heats B X (s.switchToBackup z tm) :=
  heats_raiseSwitch z tm (heats_zoneField z _ hs)

theorem heats_sensorFault (z : ZoneNo) (tm : Time) (hs : Heats B X s) : Heats B X (s.sensorFault z tm) := by
  have h1 : Heats B X (raise tm .sensorFault (.zone z) s) := heats_of_changes (raise_changes _ _ _ _) hs
  unfold sensorFault
  dsimp only
  split
  · exact heats_switchToBackup z tm h1
  · refine heats_modZone z _ (fun h _ => h) (fun _ h _ => ?_) ?_ h1
    · unfold Rests at h ⊢
      dsimp only
      split
      · exact fun h' => nomatch h'
      · exact h
    · dsimp only
      split <;> simp_all

theorem heats_treatEntry (z : ZoneNo) (sensor : ActiveSensor) (st : ChannelStatus) (m : Int) (tm : Time)
    (hs : Heats B X s) : Heats B X (s.treatEntry z sensor st m tm) := by
  unfold treatEntry
  dsimp only
  split
  · exact hs
  · exact heats_sampleLost z sensor m tm (by simp_all [enabled]) hs
  · exact hs
  · split
    · exact heats_sampleRegulating z m tm (by simp_all [enabled]) hs
    · exact hs
  · split
    · exact heats_sampleRegulating z m tm (by simp_all [enabled]) hs
    · exact hs
  · split
    · exact heats_sampleOvertemp z m tm (by simp_all [enabled]) hs
    · exact hs
  · split
    · exact heats_sensorFault z tm hs
    · exact hs

theorem heats_zoneTakes (node : Nat) (e : ChannelEntry) (tm : Time) (z : ZoneNo) (hs : Heats B X s) :
    Heats B X (s.zoneTakes node e tm z) := by
  unfold zoneTakes
  split
  · refine heats_treatEntry _ _ _ _ _ (heats_zoneField z _ hs fun c => ?_)
    split <;> exact ⟨rfl, rfl, rfl⟩
  · exact hs

/-! ## Window ends (R69 to R76) -/

theorem heats_excludeZone (z : ZoneNo) (tm : Time) (hs : Heats B X s) : Heats B X (s.excludeZone z tm) :=
  heats_of_changes (excludeZone_changes z tm s) hs

/-- A zone whose hold count rises is enabled. -/
theorem enabled_of_countRises {c : Zone} (h : countRises c = true) : c.state ≠ .disabled := by
  intro hd
  simp [countRises, hd] at h

theorem holdCounted_eq (c : Zone) : (holdCounted c).staged = c.staged ∧ (holdCounted c).committed = c.committed
    ∧ ((holdCounted c).state = .disabled ↔ c.state = .disabled) := by
  unfold holdCounted
  split
  · refine ⟨rfl, rfl, ?_⟩
    dsimp only
    split
    · simp_all
    · rfl
  · exact ⟨rfl, rfl, Iff.rfl⟩

/-- A zone that enters LOST rests only after the commit. -/
theorem heats_loseZone (z : ZoneNo) (tm : Time) (hen : s.enabled z = true) (hx : X z) (hs : Heats B X s) :
    Heats B X (s.loseZone z tm) := by
  have hne : (s.zone z).state ≠ .disabled := by simpa [enabled] using hen
  exact heats_excludeZone z tm (heats_of_changes (raise_changes _ _ _ _) (heats_modZone z _
    (fun h _ => ⟨Nat.zero_le _, h.2⟩) (fun _ _ h => absurd hx h) (by simp [hne]) hs))

theorem heats_failoverOrLose (z : ZoneNo) (tm : Time) (hen : s.enabled z = true) (hx : X z) (hs : Heats B X s) :
    Heats B X (s.failoverOrLose z tm) := by
  unfold failoverOrLose
  repeat' split
  · exact heats_switchToBackup z tm (heats_zoneField z _ hs)
  · exact heats_loseZone z tm hen hx hs
  · exact hs

theorem heats_holdCounting (z : ZoneNo) (tm : Time) (hx : X z) (hs : Heats B X s) :
    Heats B X (s.holdCounting z tm) := by
  obtain ⟨hst, hc, hstate⟩ := holdCounted_eq (s.zone z)
  have h1 : Heats B X (s.modZone z holdCounted) :=
    heats_modZone z _ (fun h _ => by simpa only [Within, hst, hc] using h) (fun _ _ h => absurd hx h) hstate hs
  refine doIf_rule (Q := Heats B X) (fun h hrise => heats_failoverOrLose z tm ?_ hx h) id h1
  have hne := enabled_of_countRises hrise
  rw [enabled, zone_modZone, bne_iff_ne, ne_eq, hstate]
  exact hne

theorem within_commit (e : ZoneEntry) (c : Zone) (h : Within e c) : commitDuty c ≤ e.maxDuty := by
  unfold commitDuty
  split
  · exact h.1
  · exact h.2
  · exact Nat.zero_le _
  · exact Nat.zero_le _
  · exact Nat.zero_le _

theorem commitDuty_rests (c : Zone) (h : c.state.driven = false) : commitDuty c = 0 := by
  unfold commitDuty
  split <;> simp_all [ZoneState.driven]

/-- The commit brings the zone to rest. -/
theorem heats_commitAndRamp (z : ZoneNo) (hs : Heats noZone (· = z) s) : Heats noZone noZone (s.commitAndRamp z) := by
  obtain ⟨hwithin, hrests, hwindow⟩ := heats_modZone (X := (· = z)) z
    (fun c => { c with committed := commitDuty c
                       setpoint := rampStep (s.pressEntry (pressOf z)).ramp c.target c.setpoint })
    (fun h _ => ⟨h.1, within_commit _ _ h⟩) (fun _ _ h => (h rfl).elim) Iff.rfl hs
  refine ⟨hwithin, fun y _ => ?_, hwindow⟩
  by_cases hy : y = z
  · subst hy
    rw [commitAndRamp, zone_modZone]
    exact commitDuty_rests (s.zone y)
  · exact hrests y hy

theorem heats_weaken (z : ZoneNo) (hs : Heats noZone noZone s) : Heats noZone (· = z) s :=
  ⟨hs.1, fun y _ => hs.2.1 y id, hs.2.2⟩

theorem heats_zoneWindowEnd (tm : Time) (z : ZoneNo) (hs : Heats noZone noZone s) :
    Heats noZone noZone (s.zoneWindowEnd tm z) :=
  heats_commitAndRamp z (heats_holdCounting z tm rfl (heats_weaken z hs))

theorem heats_clearCarried (n : Nat) (l : List (Nat × ZoneNo)) (hs : Heats B X s) : Heats B X (s.clearCarried n l) :=
  each_rule (Q := Heats B X) (fun e {_} => each_rule (Q := Heats B X)
    (fun z {_} h => heats_of_same (same_clearOffsFor n e.1 z _) h) _) l hs

theorem heats_sendNodeHeat (p : PressNo) (n : Nat) (hs : Heats B X s) : Heats B X (s.sendNodeHeat p n) := by
  have hsent (b : List Byte) : Heats B X (originate .D n .heat b .plain s) := heats_links.originate _ _ _ _ _ hs
  unfold sendNodeHeat
  dsimp only
  repeat' split
  · exact hs
  · exact heats_clearCarried n _ (heats_windowField p _ rfl rfl (hsent _))
  · exact heats_windowField p _ rfl rfl (hsent _)

theorem heats_sendHeatFrames (p : PressNo) (hs : Heats B X s) : Heats B X (s.sendHeatFrames p) := by
  unfold sendHeatFrames
  refine each_rule (Q := Heats B X) (fun n {_} => heats_sendNodeHeat p n) _ ?_
  exact heats_windowField p _ rfl rfl hs

/-- A window end that is due: the timer runs, and goes on from the end. -/
theorem heats_windowEnds (p : PressNo) (hdue : s.windowDue p = true) (hs : Heats noZone noZone s) :
    Heats noZone noZone (s.windowEnds p) := by
  have hstart : (s.window p).start.isSome = true := by
    unfold windowDue at hdue
    rw [Bool.and_eq_true] at hdue
    exact Option.isSome_of_any hdue.2
  have hnext : Heats noZone noZone (s.nextWindow p (s.windowEndTime p)) :=
    heats_windowField p (fun w => { w with
      lastEnd := some (s.windowEndTime p), start := some (s.windowEndTime p), period := (s.pressEntry p).period })
      rfl hstart.symm hs
  have hzones := each_rule (Q := Heats noZone noZone)
    (fun z {_} => heats_zoneWindowEnd (s.windowEndTime p) z) (s.enabledZones p) hnext
  unfold windowEnds
  exact heats_of_changes (windowEndHistory_changes p (s.windowEndTime p) _) (heats_sendHeatFrames p hzones)

/-! ## Enable and disable (R49, R50, R68) -/

/-- One zone is switched on or off, and then its press's window. -/
theorem heats_switched (z : ZoneNo) (f : Zone → Zone) {u : State} (hs : Heats noZone noZone s)
    (hduty : Within (s.zoneEntry z) (f (s.zone z)) ∧ Rests (f (s.zone z))) (hu : SameHeat (s.modZone z f) u)
    (ht : OnlyChanges [.windows] u t) (hother : ∀ q, q ≠ pressOf z → t.window q = u.window q)
    (hp : ((t.window (pressOf z)).running = true ↔ ∃ y, pressOf y = pressOf z ∧ u.enabled y = true)
      ∧ (t.window (pressOf z)).start.isSome = (t.window (pressOf z)).running) : Heats noZone noZone t := by
  have hzones : t.zones = u.zones := (ht .zones (by decide)).symm
  have htables : t.tables = u.tables := (ht .tables (by decide)).symm
  have hzone (y : ZoneNo) : t.zone y = u.zone y := by rw [State.zone, State.zone, hzones]
  have hen (y : ZoneNo) : t.enabled y = u.enabled y := by rw [enabled, enabled, hzone]
  have hentry (y : ZoneNo) : t.zoneEntry y = s.zoneEntry y := by rw [zoneEntry, htables, hu.1]; rfl
  obtain ⟨hwithin, hrests, hwindow⟩ := hs
  have hduties (y : ZoneNo) : Within (s.zoneEntry y) (t.zone y) ∧ Rests (t.zone y) := by
    obtain ⟨h1, h2, h3⟩ := hu.2.2 y
    rw [hzone, Within, Rests, h1, h2, h3]
    by_cases hy : y = z
    · subst hy
      rw [zone_modZone]
      exact hduty
    · rw [zone_modZone_of_ne _ _ _ hy]
      exact ⟨hwithin y id, hrests y id⟩
  refine ⟨fun y _ => hentry y ▸ (hduties y).1, fun y _ => (hduties y).2, windowLaw_iff.mpr fun q => ?_⟩
  simp only [hen]
  by_cases hq : q = pressOf z
  · exact hq ▸ hp
  · obtain ⟨hrun, hst⟩ := windowLaw_iff.mp hwindow q
    have hw : t.window q = s.window q := (hother q hq).trans (by rw [window, hu.2.1]; rfl)
    rw [hw, hrun, hst]
    refine ⟨exists_congr fun y => and_congr_right fun hy => ?_, rfl⟩
    have hyz : y ≠ z := fun h => hq (h ▸ hy.symm)
    rw [hu.enabled, enabled, enabled, zone_modZone_of_ne _ _ _ hyz]

theorem startWindow_window (p : PressNo) (s : State) (hs : (s.window p).start.isSome = (s.window p).running) :
    ((s.startWindow p).window p).running = true
      ∧ ((s.startWindow p).window p).start.isSome = ((s.startWindow p).window p).running := by
  unfold startWindow
  split
  · exact ⟨‹_›, hs⟩
  · rw [window_modWindow]
    exact ⟨rfl, rfl⟩

theorem startWindow_window_of_ne (p q : PressNo) (s : State) (h : q ≠ p) :
    (s.startWindow p).window q = s.window q := by
  unfold startWindow
  split
  · rfl
  · exact window_modWindow_of_ne _ _ _ h

theorem stopWindow_window_of_ne (p q : PressNo) (s : State) (h : q ≠ p) :
    (s.stopWindow p).window q = s.window q := by
  unfold stopWindow
  split
  · exact window_modWindow_of_ne _ _ _ h
  · rfl

/-- The zone has entered REGULATING, and its press's window starts. -/
theorem heats_startWindow (z : ZoneNo) {u : State} (hs : Heats noZone noZone s)
    (hu : SameHeat (s.modZone z enabledContext) u) : Heats noZone noZone (u.startWindow (pressOf z)) := by
  have hwin := startWindow_window (pressOf z) u (by rw [window, hu.2.1]; exact (hs.2.2 (pressOf z)).2)
  refine heats_switched z enabledContext hs
    ⟨⟨Nat.zero_le _, (hs.1 z id).2⟩, fun h => nomatch h⟩ hu (startWindow_changes _ _)
    (fun q hq => startWindow_window_of_ne _ _ _ hq) ⟨iff_of_true hwin.1 ⟨z, rfl, ?_⟩, hwin.2⟩
  rw [hu.enabled, enabled, zone_modZone]
  rfl

theorem heats_enableZone (z : ZoneNo) (hs : Heats noZone noZone s) : Heats noZone noZone (s.enableZone z) := by
  unfold enableZone
  refine heats_startWindow z hs (SameHeat.trans ?_ (same_setBase _ _ _))
  split
  · refine SameHeat.trans ?_ (same_clearOffsFor _ _ _ _)
    split
    · exact same_takeRecipeBase _ _ _
    · exact .refl _
  · split
    · exact same_takeRecipeBase _ _ _
    · exact .refl _

/-- The disable of a zone may leave its press's window with none to time. -/
theorem heats_disableZone (z : ZoneNo) (tm : Time) (hs : Heats noZone noZone s) :
    Heats noZone noZone (s.disableZone z tm) := by
  refine heats_excludeZone z tm ?_
  have hu : SameHeat (s.modZone z fun c =>
      { c with state := .disabled, staged := 0, committed := 0, deviationCount := 0 }) _ :=
    (same_createOff z _).trans (same_placeOwed _)
  refine heats_switched z _ hs ⟨⟨Nat.zero_le _, Nat.zero_le _⟩, fun _ => rfl⟩ hu (stopWindow_changes _ _)
    (fun q hq => stopWindow_window_of_ne _ _ _ hq) ?_
  obtain ⟨hrun, hstart⟩ := windowLaw_iff.mp hs.2.2 (pressOf z)
  unfold stopWindow
  split
  · rename_i hnone
    rw [window_modWindow]
    refine ⟨iff_of_false Bool.false_ne_true ?_, rfl⟩
    rintro ⟨y, hy⟩
    have := mem_enabledZones.mpr hy
    rw [hnone] at this
    cases this
  · rename_i hsome
    obtain ⟨y, hy⟩ := List.exists_mem_of_ne_nil _ hsome
    obtain ⟨hp, hen⟩ := mem_enabledZones.mp hy
    have hold : s.enabled y = true := by
      rw [hu.enabled] at hen
      by_cases hyz : y = z
      · subst hyz
        simp [enabled] at hen
      · rwa [enabled, zone_modZone_of_ne _ _ _ hyz] at hen
    rw [window, hu.2.1]
    exact ⟨iff_of_true (hrun.mpr ⟨y, hp, hold⟩) ⟨y, hp, hen⟩, hstart⟩

/-! ## Zone writes (R47) -/

theorem heats_immediateHeat (z : ZoneNo) (hs : Heats B X s) : Heats B X (s.immediateHeat z) := by
  unfold immediateHeat
  split
  · exact heats_links.originate _ _ _ _ _ hs
  · exact hs

/-- The duties of a zone come within its new max duty. -/
theorem heats_lowerDuty (z : ZoneNo) (hs : Heats B noZone s) : Heats (fun y => B y ∧ y ≠ z) noZone (s.lowerDuty z) := by
  refine heats_doIf (heats_immediateHeat z) ?_
  obtain ⟨hwithin, hrest⟩ := heats_modZone z (fun c => { c with
      staged := min c.staged (s.zoneEntry z).maxDuty, committed := min c.committed (s.zoneEntry z).maxDuty })
    (fun _ _ => ⟨Nat.min_le_right _ _, Nat.min_le_right _ _⟩)
    (fun _ h _ hd => by rw [h hd]; exact Nat.zero_min _) Iff.rfl hs
  refine ⟨fun y hb => ?_, hrest⟩
  by_cases hy : y = z
  · subst hy
    rw [zone_modZone]
    exact ⟨Nat.min_le_right _ _, Nat.min_le_right _ _⟩
  · exact hwithin y fun h => hb ⟨h, hy⟩

theorem heats_zoneWritten (old : Vector ZoneEntry 48) (z : ZoneNo) (hs : Heats B noZone s) :
    Heats (fun y => B y ∧ y ≠ z) noZone (s.zoneWritten old z) := by
  have hlower := heats_lowerDuty z (heats_zoneField z (forgetEntries old[z] (s.zoneEntry z)) hs)
  unfold zoneWritten
  refine heats_doIf (fun h => ?_) (heats_doIf (fun h => heats_of_same (same_setBase z _ _) h) hlower)
  unfold offsetWritten
  split
  · exact heats_of_same (same_takeRecipeBase _ _ _) h
  · exact h

/-- A Zone write: the zones still to be looked at may pass their new max duty. -/
theorem heats_storeZones (start count : Nat) (v : Vector ZoneEntry 48)
    (hv : ∀ z : ZoneNo, ¬(start ≤ z.val ∧ z.val < start + count) → v[z] = s.tables.zones[z])
    (hs : Heats noZone noZone s) : Heats noZone noZone (s.storeZones start count v) := by
  have hloop (l : List ZoneNo) {s : State} (old : Vector ZoneEntry 48) (hs : Heats (· ∈ l) noZone s) :
      Heats noZone noZone (each (zoneWritten old) l s) := by
    induction l generalizing s with
    | nil => exact ⟨fun z _ => hs.1 z List.not_mem_nil, hs.2⟩
    | cons z l ih =>
      refine ih ?_
      obtain ⟨hwithin, hrest⟩ := heats_zoneWritten old z hs
      refine ⟨fun y hy => hwithin y fun ⟨hmem, hne⟩ => ?_, hrest⟩
      exact hy ((List.mem_cons.mp hmem).resolve_left hne)
  refine hloop _ _ ⟨fun z hz => ?_, hs.2⟩
  have hout : ¬(start ≤ z.val ∧ z.val < start + count) := fun h => hz (by simpa using h)
  have hentry : (s.modTables fun x => { x with zones := v }).zoneEntry z = s.zoneEntry z := hv z hout
  rw [hentry]
  exact hs.1 z id

theorem getElem_writeRange {α : Type} {n : Nat} (start : Nat) (es : List α) (v : Vector α n) (i : Fin n) :
    (writeRange start es v)[i] = if start ≤ i.val then (es[i.val - start]?).getD v[i] else v[i] := by
  simp [writeRange]

theorem heats_writeZones (start : Nat) (es : List ZoneEntry) (hs : Heats noZone noZone s) :
    Heats noZone noZone (s.writeZones start es).1 := by
  refine Upheld.judgeWrite _ _ (fun hs => heats_storeZones _ _ _ (fun z hz => ?_) hs) hs
  rw [getElem_writeRange]
  split
  · rw [List.getElem?_eq_none (by omega)]
    rfl
  · rfl

/-- A write of another table. -/
theorem heats_modTables (f : Tables → Tables) (hf : (f s.tables).zones = s.tables.zones) (hs : Heats B X s) :
    Heats B X (s.modTables f) :=
  heats_of_same ⟨hf, rfl, fun _ => ⟨rfl, rfl, rfl⟩⟩ hs

theorem heats_writeTo (table : TableId) (start count : Nat) (bytes : List Byte) (hs : Heats noZone noZone s) :
    Heats noZone noZone (s.writeTo table start count bytes).1 := by
  unfold writeTo
  cases table with
  | zone => exact Upheld.writeEntries _ _ _ _ (fun _ => heats_writeZones _ _ hs) hs
  | node => exact Upheld.writeEntries _ _ _ _ (fun _ => Upheld.judgeWrite _ _ (heats_modTables _ rfl) hs) hs
  | recipe => exact Upheld.writeEntries _ _ _ _ (fun _ => Upheld.judgeWrite _ _ (heats_modTables _ rfl) hs) hs
  | mould => exact Upheld.writeEntries _ _ _ _ (fun _ => Upheld.judgeWrite _ _ (heats_modTables _ rfl) hs) hs
  | rate => exact Upheld.writeSingle _ _ (fun _ => Upheld.judgeWrite _ _ (heats_modTables _ rfl) hs) hs
  | press => exact Upheld.writeEntries _ _ _ _ (fun _ => Upheld.judgeWrite _ _ (heats_modTables _ rfl) hs) hs
  | exports => exact Upheld.writeSingle _ _ (fun _ => Upheld.judgeWrite _ _ (heats_modTables _ rfl) hs) hs
  | scale =>
    refine Upheld.writeEntries _ _ _ _ (fun _ => Upheld.judgeWrite _ _ (fun hs => ?_) hs) hs
    exact each_rule (Q := Heats noZone noZone) (fun k {_} h => heats_of_changes (modScale_changes k _ _) h) _
      (heats_modTables _ rfl hs)
  | cell =>
    refine Upheld.writeSingle _ _ (fun e => Upheld.judgeWrite _ _ (fun hs => ?_) hs) hs
    exact heats_of_changes (holdAfterCellWrite_changes _)
      (heats_modTables (fun t => { t with cell := e }) rfl hs)

/-! ## The other operations that reach a zone -/

theorem heats_cutEjection (p : PressNo) (hs : Heats B X s) : Heats B X (s.cutEjection p) := by
  unfold cutEjection
  split
  · exact hs
  · exact heats_of_changes (modEjector_changes p _ _) (heats_doIf (heats_of_same (same_placeOwed _))
      (heats_of_same (same_oweEjectOff p s) hs))

theorem heats_stopEjection (p : PressNo) (hs : Heats B X s) : Heats B X (s.stopEjection p) :=
  heats_of_changes (modEjector_changes p _ _)
    (heats_of_same ((same_oweEjectOff p s).trans (same_placeOwed _)) hs)

theorem heats_reachB (p : PressNo) (hs : Heats B X s) : Heats B X (s.reachB p) := by
  unfold reachB
  split
  · exact heats_of_changes (setFlag_changes _ _ _) (heats_of_changes (modEjector_changes p _ _) hs)
  · exact heats_of_changes (modUnit_changes p _ _) (heats_stopEjection p hs)

theorem heats_ejectStep (p : PressNo) (hs : Heats B X s) : Heats B X (s.ejectStep p).1 := by
  unfold ejectStep
  split
  all_goals dsimp only
  · exact heats_of_changes (modEjector_changes p _ _) (heats_of_changes (ejectOn_changes p _) hs)
  · exact heats_of_changes (modUnit_changes p _ _) (heats_stopEjection p hs)
  all_goals exact hs

theorem heats_takeEjector (p : PressNo) (r : EjectorReport) (hs : Heats B X s) : Heats B X (s.takeEjector p r) := by
  have h1 : Heats B X (s.modEjector p fun e => { e with lastStatus := some r }) :=
    heats_of_changes (modEjector_changes p _ _) hs
  unfold takeEjector
  dsimp only
  split
  · refine heats_doIf (fun h => ?_) (heats_of_changes (followPeak_changes _ _ _) h1)
    exact heats_of_changes (closeRecord_changes _ _ _ _) (heats_of_changes (modUnit_changes p _ _)
      (heats_of_changes (setFlag_changes _ _ _) (heats_of_changes (raise_changes _ _ _ _)
        (heats_stopEjection p h))))
  · exact h1

theorem heats_attemptBinding (p : PressNo) (r : PressReport) (hs : Heats B X s) :
    Heats B X (s.attemptBinding p r) := by
  unfold attemptBinding bindUnit
  split
  · refine heats_of_changes (joinQueue_changes _ _ _ _) (heats_of_changes (modUnit_changes p _ _) ?_)
    exact each_rule (Q := Heats B X) (fun z {_} h => heats_of_same (same_takeRecipeBase _ z _) h) _
      (heats_of_changes (modUnit_changes p _ _) hs)
  · exact heats_of_changes (modUnit_changes p _ _) hs

theorem heats_closingTest (p : PressNo) (r : PressReport) (hs : Heats B X s) : Heats B X (s.closingTest p r) := by
  unfold closingTest enterCure
  repeat' split
  · refine each_rule (Q := Heats B X) (fun z {_} h => heats_zoneField z _ h) _ ?_
    exact heats_of_changes (startCure_changes _ _ _ _) (heats_of_changes (modRecord_changes _ _ _)
      (heats_of_changes (modUnit_changes p _ _) hs))
  · exact hs
  · exact hs

theorem heats_takePress (p : PressNo) (r : PressReport) (hs : Heats B X s) : Heats B X (s.takePress p r) := by
  have h1 : Heats B X (s.modUnit p fun u => { u with lastStatus := some r }) :=
    heats_of_changes (modUnit_changes p _ _) hs
  have h2 := heats_of_changes (mouldTestCycle_changes p r _) h1
  unfold takePress testReport
  split
  · exact h1
  · exact h1
  · exact heats_attemptBinding p r h1
  · exact heats_of_changes (mouldTestWaiting_changes _ _ _) h1
  · exact heats_of_changes (mouldTestWaiting_changes _ _ _) h1
  · exact heats_closingTest p r h2
  · exact heats_of_changes (cureTest_changes _ _ _) h2
  · exact h2
  · exact h2
  · exact heats_of_changes (openingTest_changes _ _ _) h2
  · exact heats_of_changes (unloadTest_changes _ _ _) h2

theorem heats_beginCycle (p : PressNo) (tm : Time) (hs : Heats B X s) : Heats B X (s.beginCycle p tm) := by
  have hreturn {s : State} (z : ZoneNo) (hs : Heats B X s) : Heats B X (s.returnToPrimary z) := by
    unfold returnToPrimary
    split
    · exact heats_zoneField z _ hs
    · exact hs
  unfold beginCycle
  split
  · exact heats_of_changes (modUnit_changes p _ _) (each_rule (Q := Heats B X) (fun z {_} => hreturn z) _
      (heats_of_changes (allocate_changes _ _ _ _ _) hs))
  · exact hs

theorem heats_resetUnit (p : PressNo) (c : CloseCause) (hs : Heats B X s) : Heats B X (s.resetUnit p c) := by
  have hcut : Heats B X (s.cutCycle p c) :=
    heats_doIf (heats_of_changes (closeRecord_changes _ _ _ _)) (heats_doIf (heats_cutEjection p)
      (heats_doIf (heats_of_changes (endCure_changes _ _ _)) hs))
  unfold resetUnit
  split
  · exact hs
  · exact heats_of_changes (modUnit_changes p _ _) hs
  · exact heats_of_changes (modUnit_changes p _ _) (heats_of_changes (giveUpCharge_changes _ _) hcut)

/-! ## Requests -/

theorem heats_serveRequest (r : Request) (hs : Heats noZone noZone s) : Heats noZone noZone (s.serveRequest r).1 := by
  cases r with
  | readTable | readHistory | readEvents | reset => exact hs
  | writeTable t start count es =>
    unfold serveRequest writeTable
    dsimp only
    split
    · exact hs
    · exact heats_writeTo _ _ _ _ hs
  | setSetpoint z v =>
    exact Upheld.onZone (fun z => heats_zoneField z _ (heats_of_same (same_setBase z _ _) hs)) hs
  | clearOverride z =>
    refine Upheld.onZone (fun z => ?_) hs
    dsimp only
    unfold clearOverride
    split
    · exact heats_of_same (same_setBase z _ _) (heats_zoneField z _ hs)
    · exact heats_zoneField z _ hs
  | zoneEnable z =>
    refine Upheld.onZone (fun z => ?_) hs
    unfold zoneEnable
    repeat' split
    · exact hs
    · exact heats_enableZone z hs
    · exact hs
  | zoneDisable z =>
    refine Upheld.onZone (fun z => ?_) hs
    unfold zoneDisable
    split
    · exact heats_disableZone z _ hs
    · exact hs
  | zoneRestore z =>
    refine Upheld.onZone (fun z => ?_) hs
    unfold zoneRestore
    dsimp only
    repeat' split
    · exact hs
    · exact hs
    · exact heats_zoneField z _ hs
    · exact hs
  | pressEnable p => exact Upheld.onPress (fun p => heats_of_changes (pressEnable_changes p _) hs) hs
  | pressDisable p => exact Upheld.onPress (fun p => heats_of_changes (pressDisable_changes p _) hs) hs
  | pressReset p => exact Upheld.onPress (fun p => heats_resetUnit p _ hs) hs
  | forceDemould p => exact Upheld.onPress (fun p => heats_of_changes (forceDemould_changes p _) hs) hs
  | setupOn p => exact Upheld.onPress (fun p => heats_of_changes (setSetup_changes p _ _) hs) hs
  | setupOff p => exact Upheld.onPress (fun p => heats_of_changes (setSetup_changes p _ _) hs) hs
  | step p => exact Upheld.onPress (fun p => heats_ejectStep p hs) hs
  | scaleTare k => exact Upheld.onScale (fun k => heats_of_changes (scaleTare_changes k _) hs) hs
  | readStatus b i n => exact heats_of_changes (afterStatusRead_changes b i _) hs
  | advanceRead n => exact heats_of_changes (advanceRead_changes n _) hs
  | setSerialBase v => exact heats_of_changes (setSerialBase_changes v _) hs
  | lockProfile p b => exact Upheld.onBuffer (fun p b => heats_of_changes (lockProfile_changes p b _) hs) hs
  | unlockProfile p b => exact Upheld.onBuffer (fun p b => heats_of_changes (setLock_changes p b _ _) hs) hs
  | readProfile p b i n => exact Upheld.onBuffer (fun p b => by rwa [readProfile_state]) hs
  | clearEvents kinds => exact heats_of_changes (serveClear_changes kinds _) hs
  | setEventEnable kinds => exact heats_of_changes (serveEnable_changes kinds _) hs

/-! ## Every action -/

theorem heats_startTransmission (p : Port) (hs : Heats B X s) : Heats B X (startTransmission p s) := by
  have hmark (m : Mark) {s : State} (hs : Heats B X s) : Heats B X (markStarts m s) := by
    cases m with
    | plain | resetResponse => exact hs
    | heaterOff z n => exact heats_zoneField z _ hs
    | ejectOff p n => exact heats_of_changes (modEjector_changes p _ _) hs
  have hframe : Heats B X (s.takeFrame p) := by
    unfold takeFrame
    split
    · exact hmark _ (heats_of_changes (modPort_changes p _ _) hs)
    · exact heats_of_changes (modPort_changes p _ _) hs
    · exact hs
    · exact hs
  unfold startTransmission
  split
  · cases p
    · exact heats_of_changes (exportMoves_changes _) hframe
    · exact heats_of_same (same_placeOwed _) hframe
  · exact hs

theorem heats_frames : FrameRules (Heats noZone noZone) (Heats noZone noZone) where
  before := heats_links
  after := heats_links
  into := id
  thermo n e t z := heats_zoneTakes n e t z
  scale k n t e hs := heats_of_changes (takeScaleEntry_changes _ _ _ _ _) hs
  press p r hs _ := heats_takePress p r hs
  ejector p r hs := heats_takeEjector p r hs
  close p hs _ := heats_beginCycle p _ hs
  opens p hs _ := heats_of_changes (enterOpening_changes p _ _ _) hs
  aborts p hs _ := heats_of_changes (enterOpening_changes p _ _ _) hs
  emergency p hs := heats_of_changes (gateEmergency_changes p _) hs
  request r := heats_serveRequest r

theorem heats_actions : ActionRules (Heats noZone noZone) (Heats noZone noZone) where
  frames := heats_frames
  tick := id
  start := heats_startTransmission
  sent p hs := heats_of_changes (modPort_changes p _ _) hs
  linkOff := id
  windowEnd p hs hdue := heats_windowEnds p hdue hs
  dwell p hs _ := heats_of_changes (dwellExpires_changes p _) hs
  maxCure p hs _ := heats_of_changes (maxCureExpires_changes p _) hs
  lift k hs _ := heats_of_changes (liftExpires_changes k _) hs
  closeTimer p hs _ := heats_of_changes (closeTimerExpires_changes p _) hs
  compareA p hs _ := heats_of_changes (reachA_changes p _) hs
  compareB p hs _ := heats_reachB p hs
  exports hs := heats_of_changes (exportMoves_changes _) hs
  ejectOffs hs := heats_of_changes (placeEjectOffs_changes _) hs
  offs hs := heats_of_same (same_placeOwed _) hs

/-! ## Resets -/

theorem same_unlocked (s : State) : SameHeat s { warmLocks s with warmTaking := false } :=
  ⟨rfl, rfl, fun _ => ⟨rfl, rfl, rfl⟩⟩

theorem heats_warmBody (hs : Heats B X s) : Heats B X s.warmBody := by
  unfold warmBody
  refine heats_of_same (same_unlocked _) (each_rule (Q := Heats B X) (fun p {_} => heats_resetUnit p _) _
    (each_rule (Q := Heats B X) (fun k {_} h => heats_of_changes (modScale_changes k _ _) h) _ ?_))
  exact hs

theorem heats_warmEffect (hs : Heats B X s) : Heats B X s.warmEffect := by
  have hqueues : SameHeat s s.warmQueues := ⟨rfl, rfl, fun z => by simp [warmQueues, State.zone, Zone.unplaced]⟩
  have hevents (s : State) : SameHeat s s.warmEvents := ⟨rfl, rfl, fun _ => ⟨rfl, rfl, rfl⟩⟩
  exact heats_of_changes (exportMoves_changes _) (heats_of_same ((hevents _).trans (same_placeOwed _))
    (heats_warmBody (heats_of_same hqueues hs)))

theorem heats_coldShutdown (hs : Heats noZone noZone s) : Heats noZone noZone s.coldShutdown := by
  refine heats_of_same (same_placeOwed _) (each_rule (Q := Heats noZone noZone) (fun p {x} hx => ?_) _
    (each_rule (Q := Heats noZone noZone) (fun z {x} hx => ?_) _
      (show Heats noZone noZone { s with resetPending := .idle, shutdown := true } from hs)))
  · unfold shutOffEjector
    split
    · exact heats_of_same (same_oweEjectOff p _) hx
    · exact hx
  · unfold shutOffZone
    split
    · refine heats_of_same (same_createOff z _) (heats_modZone z _ (fun _ _ => ?_) (fun _ _ _ _ => rfl) Iff.rfl hx)
      exact ⟨Nat.zero_le _, Nat.zero_le _⟩
    · exact hx

theorem heats_coldEffect (s : State) : Heats noZone noZone s.coldEffect := by
  obtain ⟨_, _, hduty, hwindow, _⟩ := Steps.resetStateHoldsLaws
  exact heats_iff.mpr ⟨hduty, hwindow⟩

theorem heats_due : DueRules (Heats noZone noZone) where
  warm hs _ := heats_warmEffect hs
  shutdown hs _ := heats_coldShutdown hs
  cold _ := heats_coldEffect _

/-- Settles O6: every operation that switches a zone on or off looks at its press's window, and every duty is clamped,
cut to 0 or left. -/
theorem stepKeepsHeatLaws : Obligations.StepKeepsHeatLaws := by
  intro s t hduty hwindow h
  refine heats_iff.mp (step_keeps (P := Heats noZone noZone) (fun _ => id) ?_ (heats_iff.mpr ⟨hduty, hwindow⟩) h)
  exact exec_keeps (Q := Heats noZone noZone) (fun h _ => h) id id (fun _ => id) (fun _ => heats_coldEffect _)
    heats_due heats_actions

end Sys2Proof.Proofs.HeatLaws
end

