-- ==== Sys2Proof/Proofs/CycleViews.lean ====
section
/-! PROOFS. What the cycle's laws see of a press and of a scale.

A press's `view` is its state and whether it has a binding, a charge, an accruing cure, an OPEN record and a running
ejection; the law is that each of these is what the state says (`ordered`). `Moves p g` says that an operation changes
the view of one press only, by `g`, and moves no queue; a composite operation composes these. -/

namespace Sys2Proof.Proofs.CycleViews

set_option Elab.async false

open Sys2Proof.Machine Sys2Proof.Machine.State Sys2Proof.Proofs.StepRules Sys2Proof.Proofs.Ring
  Sys2Proof.Proofs.OffPlacement

/-! ## Views -/

/-- What the laws see of a press. -/
structure View where
  state : UnitState
  binding : Bool
  charge : Bool
  accruing : Bool
  index : Bool
  record : Bool
  ejecting : Bool

/-- What the laws see of a press. -/
def view (s : State) (p : PressNo) : View :=
  { state := (s.unit p).state, binding := (s.unit p).binding.isSome, charge := (s.unit p).charge.isSome
    accruing := (s.cure p).status == .accruing, index := (s.history.openRecord[p]).isSome
    record := (s.openRecord p).isSome, ejecting := (s.ejector p).phase != .stopped }

/-- The view that a state of a unit calls for. -/
def ordered (st : UnitState) : View :=
  { state := st, binding := st.isBound, charge := st.holdsCharge, accruing := st == .cure
    index := st.inCycle, record := st.inCycle, ejecting := st == .eject }

/-- The presses in a scale's queue. -/
def presses (c : Scale) : List PressNo := c.queue.map QueueEntry.press

/-- What the laws see of a scale. -/
def line (c : Scale) : List PressNo × ScaleState × Bool := (presses c, c.state, c.verdict.isSome)

/-- Every press is as its state says. -/
def Ordered (s : State) : Prop := ∀ p, view s p = ordered (s.unit p).state

/-- The presses that wait for a charge stand in a queue, once. -/
def Queued (s : State) : Prop :=
  s.queuedPresses.Nodup ∧ ∀ p, p ∈ s.queuedPresses ↔ (s.unit p).state = .chargeWait

/-- Every scale holds a verdict where its state says so. -/
def Judged (s : State) : Prop := ∀ k : ScaleNo, (s.scale k).verdictLaw

theorem ordered_iff {s : State} {p : PressNo} : view s p = ordered (s.unit p).state ↔
    (s.unit p).binding.isSome = (s.unit p).state.isBound
      ∧ (s.unit p).charge.isSome = (s.unit p).state.holdsCharge
      ∧ ((s.cure p).status = .accruing ↔ (s.unit p).state = .cure)
      ∧ (s.history.openRecord[p]).isSome = (s.unit p).state.inCycle
      ∧ (s.openRecord p).isSome = (s.unit p).state.inCycle
      ∧ ((s.ejector p).phase ≠ .stopped ↔ (s.unit p).state = .eject) := by
  have hbool (a b : Bool) : a = b ↔ (a = true ↔ b = true) := Bool.eq_iff_iff
  rw [view, ordered, View.mk.injEq, hbool (_ == _), hbool (_ != _)]
  simp only [true_and, beq_iff_eq, bne_iff_ne]

theorem cycleLaw_iff {s : State} : s.CycleLaw ↔ Ordered s ∧ Queued s ∧ Judged s := by
  constructor
  · rintro ⟨hunits, hnodup, hverdicts⟩
    refine ⟨fun p => ordered_iff.mpr ?_, ⟨hnodup, fun p => ?_⟩, hverdicts⟩
    · obtain ⟨h1, h2, h3, h4, h5, h6, _⟩ := hunits p
      exact ⟨h1, h2, h3, h4, h5, h6⟩
    · obtain ⟨_, _, _, _, _, _, h7⟩ := hunits p
      exact h7
  · rintro ⟨hordered, ⟨hnodup, hqueued⟩, hverdicts⟩
    refine ⟨fun p => ?_, hnodup, hverdicts⟩
    obtain ⟨h1, h2, h3, h4, h5, h6⟩ := ordered_iff.mp (hordered p)
    exact ⟨h1, h2, h3, h4, h5, h6, hqueued p⟩

variable {s t u : State} {p q : PressNo}

theorem queuedPresses_eq (s : State) : s.queuedPresses = presses (s.scale 0) ++ presses (s.scale 1) :=
  List.map_append

theorem judged_iff_line (c : Scale) : c.verdictLaw ↔
    (line c).2.2 = ((line c).2.1 == .accepted || (line c).2.1 == .rejected || (line c).2.1 == .noRequest
      || (line c).2.1 == .lifting) := Iff.rfl

/-! ## Operations that no view sees -/

/-- No view of a press differs, nor that of a scale. -/
def Alike (s t : State) : Prop := (∀ p, view t p = view s p) ∧ ∀ k, line (t.scale k) = line (s.scale k)

theorem Alike.refl (s : State) : Alike s s := ⟨fun _ => rfl, fun _ => rfl⟩

theorem Alike.trans (h : Alike s t) (g : Alike t u) : Alike s u :=
  ⟨fun p => (g.1 p).trans (h.1 p), fun k => (g.2 k).trans (h.2 k)⟩

/-- The parts that the views see, the history apart. -/
def viewedParts : List Part := [.units, .cures, .ejectors, .scales]

/-- Which presses have an OPEN record, and which slots hold one. -/
def opened (h : History) : Vector (Option (Fin 512)) 4 × (Fin 512 → Bool) :=
  (h.openRecord, fun i => h.slots[i].isSome)

theorem openRecord_isSome (s : State) (p : PressNo) :
    (s.openRecord p).isSome = ((opened s.history).1[p]).any (opened s.history).2 := by
  unfold State.openRecord opened
  dsimp only
  cases s.history.openRecord[p] <;> rfl

theorem Alike.of_opened {k : List Part} (h : OnlyChanges k s t) (ho : opened t.history = opened s.history)
    (hk : ∀ x ∈ viewedParts, x ∉ k := by decide) : Alike s t := by
  have hunits : s.units = t.units := h .units (hk _ (by decide))
  have hcures : s.cures = t.cures := h .cures (hk _ (by decide))
  have hejectors : s.ejectors = t.ejectors := h .ejectors (hk _ (by decide))
  have hscales : s.scales = t.scales := h .scales (hk _ (by decide))
  have hindex : t.history.openRecord = s.history.openRecord := congrArg Prod.fst ho
  refine ⟨fun p => ?_, fun k => by rw [scale, scale, hscales]⟩
  simp only [view, openRecord_isSome, ho, hindex, State.unit, State.cure, State.ejector, hunits, hcures, hejectors]

theorem Alike.of_changes {k : List Part} (h : OnlyChanges k s t)
    (hk : ∀ x ∈ .history :: viewedParts, x ∉ k := by decide) : Alike s t := by
  have hh : s.history = t.history := h .history (hk _ (by decide))
  exact .of_opened h (by rw [hh]) fun x hx => hk x (List.mem_cons_of_mem _ hx)

/-! ## The history (R159, R181) -/

theorem opened_modRecord (p : PressNo) (f : Record → Record) (s : State) :
    opened (s.modRecord p f).history = opened s.history := by
  simp only [opened, modRecord_history_openRecord, modRecord_slots_isSome]

theorem opened_raiseEntry (tm : Time) (k : EventKind) (i : EventOn) (s : State) :
    opened (s.raiseEntry tm k i).history = opened s.history :=
  each_keeps _ (fun s => opened s.history) (fun p s => opened_modRecord p _ s) _ _

theorem opened_evalAttention (tm : Time) (s : State) : opened (s.evalAttention tm).history = opened s.history := by
  unfold evalAttention sendEvent
  repeat' split
  · rfl
  · rfl
  · rfl
  · exact opened_raiseEntry _ _ _ _
  · rfl

theorem opened_raise (tm : Time) (k : EventKind) (i : EventOn) (s : State) :
    opened (s.raise tm k i).history = opened s.history := by
  unfold State.raise
  split
  · rw [opened_evalAttention, opened_raiseEntry]
  · rfl

theorem opened_moveHeads (n : Nat) (s : State) : opened (s.moveHeads n).history = opened s.history := by
  have hhead (s : State) : opened s.moveHead.history = opened s.history := by
    have hslots := congrArg (fun x => x.2.2.2.2) (shape_moveHead s)
    refine Prod.ext ?_ hslots
    unfold moveHead
    repeat' split
    all_goals rfl
  induction n generalizing s with
  | zero => rfl
  | succ n ih =>
    unfold moveHeads
    split
    · rw [ih, hhead]
    · rfl

theorem alike_exportMoves (s : State) : Alike s s.exportMoves :=
  .of_opened (exportMoves_changes s) (opened_moveHeads _ s)

theorem alike_raise (tm : Time) (k : EventKind) (i : EventOn) (s : State) : Alike s (s.raise tm k i) :=
  .of_opened (raise_changes tm k i s) (opened_raise tm k i s)

theorem alike_raiseNow (k : EventKind) (i : EventOn) (s : State) : Alike s (s.raiseNow k i) := alike_raise _ k i s

theorem alike_modRecord (p : PressNo) (f : Record → Record) (s : State) : Alike s (s.modRecord p f) :=
  .of_opened (modRecord_changes p f s) (opened_modRecord p f s)

theorem alike_setFlag (p : PressNo) (f : RecordFlag) (s : State) : Alike s (s.setFlag p f) := alike_modRecord p _ s

/-- A change of the history's counts. -/
theorem alike_counts (f : History → History) (s : State)
    (hf : ∀ h, (f h).openRecord = h.openRecord ∧ (f h).slots = h.slots := by intros; exact ⟨rfl, rfl⟩) :
    Alike s (s.modHistory f) := by
  refine .of_opened (modHistory_changes f s) ?_
  obtain ⟨hopen, hslots⟩ := hf s.history
  exact Prod.ext hopen (funext fun i => congrArg (fun v => Option.isSome v[i]) hslots)

theorem alike_forwardTo (p : Port) (b : List Byte) (s : State) : Alike s (s.forwardTo p b) := by
  unfold forwardTo
  repeat' split
  · exact .of_changes (modPort_changes p _ _)
  · exact .trans (.of_changes (modPort_changes p _ _)) (alike_raiseNow _ _ _)
  · exact .refl s

theorem alike_originate (p : Port) (d : Nat) (k : FrameKind) (b : List Byte) (m : Mark) (s : State) :
    Alike s (s.originate p d k b m) := by
  unfold originate
  repeat' split
  · exact .of_changes (modPort_changes p _ _)
  · exact .trans (.of_changes (modPort_changes p _ _)) (alike_raiseNow _ _ _)
  · exact .refl s

theorem alike_handToExport (r : Record) (s : State) : Alike s (s.handToExport r) := by
  unfold handToExport
  repeat' split
  · exact alike_exportMoves _
  · exact alike_raiseNow _ _ _
  · exact .refl s

/-! ## Operations on one press -/

/-- Only the view of `p` differs, by `g`. -/
def Moves (p : PressNo) (g : View → View) (s t : State) : Prop :=
  view t p = g (view s p) ∧ (∀ q, q ≠ p → view t q = view s q) ∧ ∀ k, line (t.scale k) = line (s.scale k)

theorem Alike.moves (h : Alike s t) (p : PressNo) : Moves p id s t := ⟨h.1 p, fun q _ => h.1 q, h.2⟩

theorem Moves.trans {g h : View → View} (hg : Moves p g s t) (hh : Moves p h t u) : Moves p (h ∘ g) s u :=
  ⟨hh.1.trans (congrArg h hg.1), fun q hq => (hh.2.1 q hq).trans (hg.2.1 q hq), fun k => (hh.2.2 k).trans (hg.2.2 k)⟩

theorem Moves.alike {g : View → View} (hg : Moves p g s t) (hh : Alike t u) : Moves p g s u :=
  hg.trans (hh.moves p)

theorem Alike.then {g : View → View} (hg : Alike s t) (hh : Moves p g t u) : Moves p g s u :=
  (hg.moves p).trans hh

/-- A change of a unit's state, binding and charge. -/
theorem moves_modUnit (p : PressNo) (f : PressUnit → PressUnit) (g : View → View) (s : State)
    (hg : ∀ v : View, v.state = (s.unit p).state → v.binding = (s.unit p).binding.isSome →
      v.charge = (s.unit p).charge.isSome → g v = { v with
        state := (f (s.unit p)).state, binding := (f (s.unit p)).binding.isSome
        charge := (f (s.unit p)).charge.isSome } := by intros; rfl) : Moves p g s (s.modUnit p f) := by
  refine ⟨?_, fun q hq => ?_, fun k => rfl⟩
  · rw [hg _ rfl rfl rfl, view, unit_modUnit]
    rfl
  · rw [view, unit_modUnit_of_ne _ _ _ hq]
    rfl

theorem alike_modUnit (p : PressNo) (f : PressUnit → PressUnit) (s : State)
    (hf : ∀ u, (f u).state = u.state ∧ (f u).binding = u.binding ∧ (f u).charge = u.charge := by
      intros; exact ⟨rfl, rfl, rfl⟩) : Alike s (s.modUnit p f) := by
  obtain ⟨hst, hb, hc⟩ := hf (s.unit p)
  obtain ⟨hp, hq, hk⟩ := moves_modUnit p f id s fun v h1 h2 h3 => by
    rw [hst, hb, hc, ← h1, ← h2, ← h3]
    rfl
  exact ⟨fun q => if h : q = p then h ▸ hp else hq q h, hk⟩

theorem moves_modCure (p : PressNo) (f : Cure → Cure) (g : View → View) (s : State)
    (hg : ∀ v : View, v.accruing = ((s.cure p).status == .accruing) →
      g v = { v with accruing := (f (s.cure p)).status == .accruing } := by intros; rfl) :
    Moves p g s (s.modCure p f) := by
  refine ⟨?_, fun q hq => ?_, fun k => rfl⟩
  · rw [hg _ rfl, view, cure_modCure]
    rfl
  · rw [view, cure_modCure_of_ne _ _ _ hq]
    rfl

theorem alike_modCure (p : PressNo) (f : Cure → Cure) (s : State)
    (hf : ∀ c, (f c).status = c.status := by intros; rfl) : Alike s (s.modCure p f) := by
  obtain ⟨hp, hq, hk⟩ := moves_modCure p f id s fun v h => by rw [hf, ← h]; rfl
  exact ⟨fun q => if h : q = p then h ▸ hp else hq q h, hk⟩

theorem moves_modEjector (p : PressNo) (f : Ejector → Ejector) (g : View → View) (s : State)
    (hg : ∀ v : View, v.ejecting = ((s.ejector p).phase != .stopped) →
      g v = { v with ejecting := (f (s.ejector p)).phase != .stopped } := by intros; rfl) :
    Moves p g s (s.modEjector p f) := by
  refine ⟨?_, fun q hq => ?_, fun k => rfl⟩
  · rw [hg _ rfl, view, ejector_modEjector]
    rfl
  · rw [view, ejector_modEjector_of_ne _ _ _ hq]
    rfl

theorem alike_modEjector (p : PressNo) (f : Ejector → Ejector) (s : State)
    (hf : ∀ e, (f e).phase = e.phase := by intros; rfl) : Alike s (s.modEjector p f) := by
  obtain ⟨hp, hq, hk⟩ := moves_modEjector p f id s fun v h => by rw [hf, ← h]; rfl
  exact ⟨fun q => if h : q = p then h ▸ hp else hq q h, hk⟩

/-- The end of a cure. -/
theorem moves_endCure (p : PressNo) (tm : Time) (s : State) :
    Moves p (fun v => { v with accruing := false }) s (s.endCure p tm) := by
  unfold endCure
  refine (moves_modCure p _ _ s fun v _ => ?_).alike (alike_modRecord p _ _)
  dsimp only
  split
  · rfl
  · rw [beq_false_of_ne ‹_›]

/-- Another press's OPEN record is where it was. -/
theorem openRecord_set_of_ne (p : PressNo) (x : Option (Fin 512)) (h : History) (q : PressNo) (hq : q ≠ p) :
    (h.openRecord.set p x)[q] = h.openRecord[q] := by
  have : p.val ≠ q.val := fun h => hq (Fin.ext h).symm
  simp [this]

/-- The close of a record. -/
theorem moves_closeRecord (p : PressNo) (c : CloseCause) (tm : Time) (s : State)
    (hp : (view s p).record = (view s p).index) :
    Moves p (fun v => { v with index := false, record := false }) s (s.closeRecord p c tm) := by
  unfold closeRecord
  dsimp only
  split
  · rename_i hnone
    have hrecord : (view s p).record = false := by simp [view, hnone]
    refine ⟨?_, fun _ _ => rfl, fun _ => rfl⟩
    dsimp only
    rw [← hrecord]
    nth_rw 1 [hp]
  · rename_i r _
    have hleaves (s : State) : Moves p (fun v => { v with index := false, record := false }) s
        (s.modHistory fun h => { h with openRecord := h.openRecord.set p none }) := by
      refine ⟨?_, fun q hq => ?_, fun _ => rfl⟩
      · simp [view, State.openRecord, modHistory, State.unit, State.cure, State.ejector]
      · simp only [view, State.openRecord, modHistory, openRecord_set_of_ne _ _ _ _ hq, State.unit, State.cure,
          State.ejector]
    have hclosed := (alike_modRecord p (fun _ => closedRecord c tm r) s).then (hleaves _)
    refine hclosed.alike (Alike.trans ?_ (alike_handToExport _ _))
    split
    · exact .of_changes (modProfile_changes _ _ _ _)
    · exact .refl _

/-! ## Off frames and the ejection -/

theorem Alike.of_phases {k : List Part} (h : OnlyChanges k s t)
    (hp : ∀ p, (t.ejector p).phase = (s.ejector p).phase)
    (hk : ∀ x ∈ [Part.units, .cures, .scales, .history], x ∉ k := by decide) : Alike s t := by
  have hunits : s.units = t.units := h .units (hk _ (by decide))
  have hcures : s.cures = t.cures := h .cures (hk _ (by decide))
  have hscales : s.scales = t.scales := h .scales (hk _ (by decide))
  have hhistory : s.history = t.history := h .history (hk _ (by decide))
  refine ⟨fun p => ?_, fun k => by rw [scale, scale, hscales]⟩
  simp only [view, hp, State.openRecord, State.unit, State.cure, hunits, hcures, hhistory]

theorem alike_placeOwed (s : State) : Alike s s.placeOwed := by
  by_cases hn : s.normal = true
  · obtain ⟨_, _, hejector, _⟩ := offsPlaced_placeOwed hn
    exact .of_phases (placeOwed_changes s) fun p => by rw [hejector p]
  · rw [placeOwed_of_passive (Bool.eq_false_iff.mpr hn)]
    exact .refl s

theorem alike_placeEjectOffs (s : State) : Alike s s.placeEjectOffs := by
  refine .of_phases (placeEjectOffs_changes s) fun p => ?_
  by_cases hn : s.normal = true
  · rw [placeEjectOffs_eq hn, ejector_fillPlaces]
    rfl
  · rw [placeEjectOffs, if_neg hn]

theorem alike_oweEjectOff (p : PressNo) (s : State) : Alike s (s.oweEjectOff p) := by
  refine .of_phases (oweEjectOff_changes p s) fun q => ?_
  unfold oweEjectOff
  split
  · by_cases hq : q = p
    · subst hq
      simp [State.ejector, modEjector]
    · have : p.val ≠ q.val := fun h => hq (Fin.ext h).symm
      simp [State.ejector, modEjector, this]
  · rfl

theorem moves_stopEjection (p : PressNo) (s : State) :
    Moves p (fun v => { v with ejecting := false }) s (s.stopEjection p) :=
  ((alike_oweEjectOff p s).trans (alike_placeOwed _)).then (moves_modEjector p _ _ _)

theorem moves_cutEjection (p : PressNo) (s : State) :
    Moves p (fun v => { v with ejecting := false }) s (s.cutEjection p) := by
  unfold cutEjection
  split
  · rename_i hstopped
    refine ⟨?_, fun _ _ => rfl, fun _ => rfl⟩
    simp [view, hstopped]
  · refine Alike.then (Alike.trans (alike_oweEjectOff p s) ?_) (moves_modEjector p _ _ _)
    exact doIf_rule (Q := Alike (s.oweEjectOff p)) (fun h _ => h.trans (alike_placeOwed _)) id (.refl _)

/-! ## Allocation (R164) -/

theorem alike_takeSlot (s : State) : Alike s s.takeSlot := by
  have hqueue (l : List Nat) : Alike s { s with exportQueue := l } := ⟨fun _ => rfl, fun _ => rfl⟩
  unfold takeSlot
  dsimp only
  repeat' split
  · exact alike_counts _ s
  · exact (hqueue _).trans ((alike_counts _ _).trans (alike_raiseNow _ _ _))
  · exact (hqueue _).trans (alike_counts _ _)

theorem alike_holdAfterAllocation (s : State) : Alike s s.holdAfterAllocation := by
  unfold holdAfterAllocation
  split
  · exact (alike_counts _ s).trans (alike_raiseNow _ _ _)
  · exact .refl s

theorem moves_storeRecord (p : PressNo) (r : Record) (s : State) (hs : ∀ q, (view s q).record = (view s q).index) :
    Moves p (fun v => { v with index := true, record := true }) s (storeRecord p r s) := by
  refine ⟨?_, fun q hq => ?_, fun _ => rfl⟩
  · simp [view, State.openRecord, storeRecord, modHistory, State.unit, State.cure, State.ejector]
  · have hrecord : ((storeRecord p r s).openRecord q).isSome = (s.openRecord q).isSome := by
      have hold := hs q
      simp only [view] at hold
      rw [hold]
      simp only [State.openRecord, storeRecord, modHistory, openRecord_set_of_ne _ _ _ _ hq]
      cases hi : s.history.openRecord[q] with
      | none => rfl
      | some i =>
        have hslot : s.history.slots[i].isSome = true := by
          simpa [State.openRecord, hi] using hold
        by_cases hw : s.history.writePos.val = i.val
        · simp [hw]
        · simpa [hw] using hslot
    have hindex : (storeRecord p r s).history.openRecord[q] = s.history.openRecord[q] :=
      openRecord_set_of_ne _ _ _ _ hq
    simp only [view, hrecord, hindex]
    rfl

/-- The allocation of a record, where each OPEN record is in its slot. -/
theorem moves_allocate (p : PressNo) (b : Binding) (c : ChargeRecord) (tm : Time) (s : State)
    (hs : ∀ q, (view s q).record = (view s q).index) :
    Moves p (fun v => { v with index := true, record := true }) s (s.allocate p b c tm) := by
  have hslot := alike_takeSlot s
  have hstore := hslot.then (moves_storeRecord p (newRecord s p b c tm) s.takeSlot fun q => by rw [hslot.1, hs])
  exact hstore.alike (Alike.trans (.of_changes (takeBuffer_changes _ _ _)) (alike_holdAfterAllocation _))

end Sys2Proof.Proofs.CycleViews
end

