-- ==== Sys2Proof/Proofs/CycleLaw.lean ====
section
/-! PROOFS. A press unit agrees with its binding, charge, cure, OPEN record, ejection and queue entry, and a scale with
its verdict, R83, R103, R117, R123, R140 and R145. -/

namespace Sys2Proof.Proofs.CycleLaw

set_option Elab.async false

open Sys2Proof.Machine Sys2Proof.Machine.State Sys2Proof.Proofs.StepRules Sys2Proof.Proofs.CycleViews
  Sys2Proof.Proofs.RequestChanges Sys2Proof.Proofs.UpheldLaws

/-- The cycle's laws, as the views say them. -/
def Cycles (s : State) : Prop := Ordered s ∧ Queued s ∧ Judged s

variable {s t : State} {p q : PressNo} {k : ScaleNo}

theorem cycles_of_alike (h : Alike s t) (hs : Cycles s) : Cycles t := by
  obtain ⟨hordered, hqueued, hjudged⟩ := hs
  have hstate (p : PressNo) : (t.unit p).state = (s.unit p).state := congrArg View.state (h.1 p)
  have hpresses (k : ScaleNo) : presses (t.scale k) = presses (s.scale k) := congrArg Prod.fst (h.2 k)
  refine ⟨fun p => by rw [h.1, hstate]; exact hordered p, ?_, fun k => ?_⟩
  · simpa only [Queued, queuedPresses_eq, hpresses, hstate] using hqueued
  · rw [judged_iff_line, h.2]
    exact hjudged k

theorem cycles_of_changes {k : List Part} (h : OnlyChanges k s t) (hs : Cycles s)
    (hk : ∀ x ∈ .history :: viewedParts, x ∉ k := by decide) : Cycles t :=
  cycles_of_alike (.of_changes h hk) hs

/-- One press goes from a state to another, neither of them CHARGE_WAIT. -/
theorem cycles_of_moves {g : View → View} (a b : UnitState) (h : Moves p g s t) (hs : Cycles s)
    (ha : (s.unit p).state = a) (hg : g (ordered a) = ordered b)
    (hne : a ≠ .chargeWait ∧ b ≠ .chargeWait := by decide) : Cycles t := by
  obtain ⟨hordered, ⟨hnodup, hmem⟩, hjudged⟩ := hs
  obtain ⟨hp, hother, hline⟩ := h
  rw [hordered p, ha, hg] at hp
  have hb : (t.unit p).state = b := congrArg View.state hp
  have hstate (q : PressNo) (hq : q ≠ p) : (t.unit q).state = (s.unit q).state := congrArg View.state (hother q hq)
  have hpresses (k : ScaleNo) : presses (t.scale k) = presses (s.scale k) := congrArg Prod.fst (hline k)
  refine ⟨fun q => ?_, ⟨?_, fun q => ?_⟩, fun k => ?_⟩
  · by_cases hq : q = p
    · subst hq
      rw [hp, hb]
    · rw [hother q hq, hstate q hq]
      exact hordered q
  · simpa only [queuedPresses_eq, hpresses] using hnodup
  · rw [queuedPresses_eq, hpresses, hpresses, ← queuedPresses_eq, hmem]
    by_cases hq : q = p
    · subst hq
      rw [ha, hb]
      exact iff_of_false hne.1 hne.2
    · rw [hstate q hq]
  · rw [judged_iff_line, hline]
    exact hjudged k

theorem cycles_doIf {c : Bool} {g : State → State} (h : Cycles s → Cycles (g s)) (hs : Cycles s) :
    Cycles (doIf c g s) :=
  doIf_rule (fun hs _ => h hs) id hs

theorem cycles_links : LinkRules Cycles where
  link hs := cycles_of_changes (linkActivity_changes _) hs
  raise k i hs := cycles_of_alike (alike_raiseNow k i _) hs
  forward p b hs := cycles_of_alike (alike_forwardTo p b _) hs
  originate p d k b m hs := cycles_of_alike (alike_originate p d k b m _) hs
  check p hs := cycles_of_changes (countCheck_changes p _) hs
  format p hs := cycles_of_changes (countFormat_changes p _) hs
  foreign p hs := cycles_of_changes (countForeign_changes p _) hs
  reset _ := id

/-! ## What the laws give -/

theorem Cycles.index (hs : Cycles s) (q : PressNo) : (view s q).record = (view s q).index := by
  rw [hs.1 q]
  rfl

/-- An accruing cure is that of a unit in CURE. -/
theorem Cycles.state_of_accruing (hs : Cycles s) (h : (s.cure p).status = .accruing) : (s.unit p).state = .cure :=
  (ordered_iff.mp (hs.1 p)).2.2.1.mp h

/-- An ejection runs for a unit in EJECT. -/
theorem Cycles.state_of_ejecting (hs : Cycles s) (h : (s.ejector p).phase ≠ .stopped) : (s.unit p).state = .eject :=
  (ordered_iff.mp (hs.1 p)).2.2.2.2.2.mp h

/-- A bound unit has its recipe. -/
theorem Cycles.boundRecipe (hs : Cycles s) (h : (s.unit p).state.isBound = true) : (s.boundRecipe p).isSome = true := by
  rw [State.boundRecipe, Option.isSome_map, (ordered_iff.mp (hs.1 p)).1, h]

/-! ## Cures (section 5) -/

theorem cycles_permitTest (p : PressNo) (tm : Time) (hs : Cycles s) : Cycles (s.permitTest p tm) := by
  unfold permitTest
  split
  · rename_i hpass
    have hacc : (s.cure p).status = .accruing := by
      unfold permitPasses at hpass
      simp only [Bool.and_eq_true, beq_iff_eq] at hpass
      exact hpass.1.1.1
    have hm := (((moves_modCure p (fun x => { x with status := .permitted })
      (fun v => { v with accruing := false }) s).alike (alike_raise tm .cureDone (.press p) _)).trans
        (moves_endCure p tm _)).trans (moves_modUnit p (fun u => { u with state := .demouldWait })
          (fun v => { v with state := .demouldWait }) _ (fun v h1 h2 h3 => by rw [← h2, ← h3]))
    exact cycles_of_moves .cure .demouldWait hm hs (hs.state_of_accruing hacc) rfl
  · exact hs

theorem cycles_recomputeProgress (p : PressNo) (hs : Cycles s) : Cycles (s.recomputeProgress p) := by
  unfold recomputeProgress
  split
  · exact cycles_of_alike (alike_modCure p _ s) hs
  · exact hs

theorem cycles_record (p : PressNo) (f : Record → Record) (hs : Cycles s) : Cycles (s.modRecord p f) :=
  cycles_of_alike (alike_modRecord p f s) hs

theorem cycles_setFlag (p : PressNo) (f : RecordFlag) (hs : Cycles s) : Cycles (s.setFlag p f) := cycles_record p _ hs

theorem cycles_loseCure (p : PressNo) (tm : Time) (hs : Cycles s) : Cycles (s.loseCure p tm) :=
  cycles_setFlag p _ (cycles_of_alike (alike_raise _ _ _ _) (cycles_of_alike (alike_modCure p _ s) hs))

theorem cycles_excludeZone (z : ZoneNo) (tm : Time) (hs : Cycles s) : Cycles (s.excludeZone z tm) := by
  unfold excludeZone
  dsimp only
  split
  · have h1 (g : Record → Record) : Cycles (((s.modAccrual z fun a => { a with inclusion := .excluded }).modCure
        (pressOf z) fun x => { x with excluded := x.excluded + 1 }).modRecord (pressOf z) g) :=
      cycles_record _ _ (cycles_of_alike (alike_modCure _ _ _) (cycles_of_changes (modAccrual_changes z _ s) hs))
    split
    · exact cycles_loseCure _ _ (h1 _)
    · exact cycles_permitTest _ _ (cycles_recomputeProgress _ (h1 _))
  · exact hs

/-- The cure starts in a unit that has come from CLOSING to CURE. -/
theorem cycles_enterCure (p : PressNo) (r : Recipe) (tm : Time) (hst : (s.unit p).state = .closing) (hs : Cycles s) :
    Cycles (s.enterCure p r tm) := by
  have hunit := (moves_modUnit p (fun u => { u with state := .cure }) (fun v => { v with state := .cure }) s
    (fun v h1 h2 h3 => by rw [← h2, ← h3])).alike
      (alike_modRecord p (pressureRecord r (s.unit p).charge tm) _)
  have hinclude (s : State) : Alike s (s.includeZones p) := .of_changes (includeZones_changes p s)
  have hcure (n : Nat) (f : Record → Record) := ((hunit.alike (hinclude _)).trans
    (moves_modCure p (fun _ => startContext r tm n) (fun v => { v with accruing := true }) _)).alike
      (alike_modRecord p f _)
  have h1 (n : Nat) (f : Record → Record) := cycles_of_moves .closing .cure (hcure n f) hs hst rfl
  refine each_rule (Q := Cycles) (fun z {_} h => cycles_of_changes (modZone_changes z _ _) h) _ ?_
  unfold startCure
  dsimp only
  split
  · exact cycles_loseCure _ _ (h1 _ _)
  · exact each_rule (Q := Cycles) (fun z {_} => cycles_excludeZone z tm) _ (h1 _ _)

theorem cycles_accrue (z : ZoneNo) (m : Int) (tm : Time) (hs : Cycles s) : Cycles (s.accrue z m tm) :=
  cycles_permitTest _ _ (cycles_recomputeProgress _ (cycles_of_changes (modAccrual_changes z _ _)
    (cycles_doIf (cycles_of_alike (alike_raise _ _ _ _)) hs)))

theorem alike_statistics (p : PressNo) (u : Bool) (m : Int) (s : State) : Alike s (s.modCure p (statistics u m)) :=
  alike_modCure p _ s fun c => by unfold statistics; split <;> rfl

theorem cycles_takeHanded (z : ZoneNo) (m : Int) (tm : Time) (hs : Cycles s) : Cycles (s.takeHanded z m tm) := by
  unfold takeHanded
  dsimp only
  repeat' split
  · exact cycles_accrue _ _ _ (cycles_record _ _ (cycles_of_alike (alike_statistics _ _ _ s) hs))
  · exact cycles_record _ _ (cycles_of_alike (alike_statistics _ _ _ s) hs)
  · exact hs

theorem cycles_dwellExpires (p : PressNo) (hs : Cycles s) : Cycles (s.dwellExpires p) :=
  cycles_permitTest _ _ (cycles_of_alike (alike_modCure p _ s) hs)

theorem cycles_maxCureExpires (p : PressNo) (hdue : s.maxCureDue p = true) (hs : Cycles s) :
    Cycles (s.maxCureExpires p) := by
  have hacc : (s.cure p).status = .accruing := by
    unfold maxCureDue at hdue
    simp only [Bool.and_eq_true, beq_iff_eq] at hdue
    exact hdue.1.2
  unfold maxCureExpires
  dsimp only
  split
  · exact cycles_permitTest _ _ (cycles_of_alike (alike_modCure p _ s) hs)
  · have hm := (((((alike_modCure p (fun x => { x with dwellMet := true }) s).then
      (moves_modCure p (fun x => { x with status := .timedOut }) (fun v => { v with accruing := false }) _)).alike
        ((alike_raiseNow .pressTimeout (.press p) _).trans (alike_setFlag p .cureTimeout _))).trans
          (moves_endCure p s.timebase _))).trans (moves_modUnit p (fun u => { u with state := .demouldWait })
            (fun v => { v with state := .demouldWait }) _ (fun v h1 h2 h3 => by rw [← h2, ← h3]))
    exact cycles_of_moves .cure .demouldWait hm hs (hs.state_of_accruing hacc) rfl

/-! ## Zones (sections 3 and 4) -/

theorem alike_modZone (z : ZoneNo) (f : Zone → Zone) (s : State) : Alike s (s.modZone z f) :=
  .of_changes (modZone_changes z f s)

theorem alike_raiseSwitch (z : ZoneNo) (tm : Time) (s : State) : Alike s (s.raiseSwitch z tm) :=
  (alike_raise _ _ _ s).trans (alike_setFlag _ _ _)

theorem alike_switchToBackup (z : ZoneNo) (tm : Time) (s : State) : Alike s (s.switchToBackup z tm) :=
  (alike_modZone z _ s).trans (alike_raiseSwitch z tm _)

theorem alike_immediateHeat (z : ZoneNo) (s : State) : Alike s (s.immediateHeat z) := by
  unfold immediateHeat
  split
  · exact alike_originate _ _ _ _ _ s
  · exact .refl s

theorem alike_overtempEntry (z : ZoneNo) (tm : Time) (s : State) : Alike s (s.overtempEntry z tm) :=
  (((alike_modZone z _ s).trans (alike_immediateHeat z _)).trans (alike_raise _ _ _ _)).trans (alike_setFlag _ _ _)

theorem alike_deviationTest (z : ZoneNo) (m : Int) (tm : Time) (s : State) : Alike s (s.deviationTest z m tm) := by
  unfold deviationTest
  dsimp only
  repeat' split
  · exact (((alike_modZone z _ s).trans (alike_raise _ _ _ _)).trans (alike_setFlag _ _ _)).trans
      (alike_modZone z _ _)
  · exact alike_modZone z _ s
  · exact alike_modZone z _ s
  · exact .refl s
  · exact .refl s

theorem cycles_finishSample (z : ZoneNo) (m : Int) (tm : Time) (hs : Cycles s) : Cycles (s.finishSample z m tm) :=
  cycles_takeHanded z m tm
    (cycles_of_alike ((alike_modZone z _ s).trans (alike_deviationTest z m tm _)) hs)

theorem cycles_sampleRegulating (z : ZoneNo) (m : Int) (tm : Time) (hs : Cycles s) :
    Cycles (s.sampleRegulating z m tm) := by
  have h1 : Cycles (s.modZone z fun c => { withSample m c with state := .regulating }) :=
    cycles_of_alike (alike_modZone z _ s) hs
  unfold sampleRegulating
  refine cycles_finishSample z m tm ?_
  split
  · exact cycles_of_alike (alike_overtempEntry z tm _) h1
  · exact cycles_of_alike (alike_modZone z _ _) h1

theorem cycles_sampleOvertemp (z : ZoneNo) (m : Int) (tm : Time) (hs : Cycles s) :
    Cycles (s.sampleOvertemp z m tm) := by
  have h1 : Cycles (s.modZone z (withSample m)) := cycles_of_alike (alike_modZone z _ s) hs
  unfold sampleOvertemp
  refine cycles_finishSample z m tm ?_
  split
  · exact cycles_of_alike ((alike_modZone z _ _).trans (alike_modZone z _ _)) h1
  · exact h1

theorem cycles_sampleLost (z : ZoneNo) (sensor : ActiveSensor) (m : Int) (tm : Time) (hs : Cycles s) :
    Cycles (s.sampleLost z sensor m tm) := by
  refine cycles_sampleRegulating z m tm (cycles_of_alike (alike_modZone z _ _) (cycles_doIf
    (cycles_of_alike (alike_raiseSwitch z tm _)) ?_))
  exact cycles_of_alike (alike_modZone z _ s) hs

theorem cycles_sensorFault (z : ZoneNo) (tm : Time) (hs : Cycles s) : Cycles (s.sensorFault z tm) := by
  have h1 : Cycles (raise tm .sensorFault (.zone z) s) := cycles_of_alike (alike_raise _ _ _ s) hs
  unfold sensorFault
  dsimp only
  split
  · exact cycles_of_alike (alike_switchToBackup z tm _) h1
  · exact cycles_of_alike (alike_modZone z _ _) h1

theorem cycles_zoneTakes (node : Nat) (e : ChannelEntry) (tm : Time) (z : ZoneNo) (hs : Cycles s) :
    Cycles (s.zoneTakes node e tm z) := by
  unfold zoneTakes treatEntry
  dsimp only
  split
  · rename_i sensor _
    have h1 : Cycles (s.recordEntry z sensor { status := judgedStatus e, value := e.value, arrival := tm }) :=
      cycles_of_alike (alike_modZone z _ s) hs
    split
    · exact h1
    · exact cycles_sampleLost z sensor _ tm h1
    · exact h1
    · split
      · exact cycles_sampleRegulating z _ tm h1
      · exact h1
    · split
      · exact cycles_sampleRegulating z _ tm h1
      · exact h1
    · split
      · exact cycles_sampleOvertemp z _ tm h1
      · exact h1
    · split
      · exact cycles_sensorFault z tm h1
      · exact h1
  · exact hs

theorem cycles_failoverOrLose (z : ZoneNo) (tm : Time) (hs : Cycles s) : Cycles (s.failoverOrLose z tm) := by
  unfold failoverOrLose loseZone
  repeat' split
  · exact cycles_of_alike ((alike_modZone z _ s).trans (alike_switchToBackup z tm _)) hs
  · exact cycles_excludeZone z tm (cycles_of_alike ((alike_modZone z _ s).trans (alike_raise _ _ _ _)) hs)
  · exact hs

theorem cycles_zoneWindowEnd (tm : Time) (z : ZoneNo) (hs : Cycles s) : Cycles (s.zoneWindowEnd tm z) :=
  cycles_of_alike (alike_modZone z _ _)
    (cycles_doIf (cycles_failoverOrLose z tm) (cycles_of_alike (alike_modZone z _ s) hs))

theorem alike_sendNodeHeat (p : PressNo) (n : Nat) (s : State) : Alike s (s.sendNodeHeat p n) := by
  have hsent (b : List Byte) (f : HeatWindow → HeatWindow) :
      Alike s (modWindow p f (originate .D n .heat b .plain s)) :=
    (alike_originate _ _ _ _ _ s).trans (.of_changes (modWindow_changes p f _))
  unfold sendNodeHeat
  dsimp only
  repeat' split
  · exact .refl s
  · exact (hsent _ _).trans (.of_changes (clearCarried_changes _ _ _))
  · exact hsent _ _

theorem cycles_sendHeatFrames (p : PressNo) (hs : Cycles s) : Cycles (s.sendHeatFrames p) := by
  unfold sendHeatFrames
  exact each_rule (Q := Cycles) (fun n {_} h => cycles_of_alike (alike_sendNodeHeat p n _) h) _
    (cycles_of_changes (modWindow_changes p _ s) hs)

theorem alike_takePoint (p : PressNo) (b : Fin 2) (offset interval : Nat) (s : State) :
    Alike s (s.takePoint p b offset interval) := by
  unfold takePoint
  dsimp only
  split
  · exact .of_changes (modProfile_changes _ _ _ s)
  · exact .trans (.of_changes (modProfile_changes _ _ _ s)) (alike_setFlag _ _ _)

theorem alike_windowEndHistory (p : PressNo) (tm : Time) (s : State) : Alike s (s.windowEndHistory p tm) := by
  unfold windowEndHistory
  repeat' split
  · exact alike_takePoint _ _ _ _ s
  · exact .refl s
  · exact .refl s

theorem cycles_windowEnds (p : PressNo) (hs : Cycles s) : Cycles (s.windowEnds p) := by
  have hzones := each_rule (Q := Cycles) (fun z {_} => cycles_zoneWindowEnd (s.windowEndTime p) z) (s.enabledZones p)
    (cycles_of_changes (nextWindow_changes p (s.windowEndTime p) s) hs)
  unfold windowEnds
  exact cycles_of_alike (alike_windowEndHistory p (s.windowEndTime p) _) (cycles_sendHeatFrames p hzones)

theorem cycles_disableZone (z : ZoneNo) (tm : Time) (hs : Cycles s) : Cycles (s.disableZone z tm) := by
  refine cycles_excludeZone z tm (cycles_of_changes (stopWindow_changes _ _) (cycles_of_alike (alike_placeOwed _)
    (cycles_of_changes (createOff_changes z _) ?_)))
  exact cycles_of_alike (alike_modZone z _ s) hs

/-! ## Scales (section 6) -/

theorem mem_queuedPresses : q ∈ s.queuedPresses ↔ ∃ k, q ∈ presses (s.scale k) := by
  rw [queuedPresses_eq, List.mem_append]
  constructor
  · rintro (h | h)
    · exact ⟨0, h⟩
    · exact ⟨1, h⟩
  · rintro ⟨k, h⟩
    match k with
    | 0 => exact .inl h
    | 1 => exact .inr h

theorem nodup_queuedPresses : s.queuedPresses.Nodup ↔ (∀ k, (presses (s.scale k)).Nodup)
    ∧ ∀ j k, j ≠ k → ∀ q ∈ presses (s.scale j), q ∉ presses (s.scale k) := by
  rw [queuedPresses_eq, List.nodup_append]
  constructor
  · rintro ⟨h0, h1, hne⟩
    refine ⟨fun k => ?_, fun j k hjk q hj hk => ?_⟩
    · match k with
      | 0 => exact h0
      | 1 => exact h1
    · match j, k with
      | 0, 0 => exact hjk rfl
      | 1, 1 => exact hjk rfl
      | 0, 1 => exact hne q hj q hk rfl
      | 1, 0 => exact hne q hk q hj rfl
  · rintro ⟨hnodup, hne⟩
    exact ⟨hnodup 0, hnodup 1, fun a ha b hb hab => hne 0 1 (by decide) a ha (hab ▸ hb)⟩

/-- An operation on one scale that no press sees, and that moves no queue. -/
def Weighs (k : ScaleNo) (s t : State) : Prop :=
  (∀ p, view t p = view s p) ∧ (∀ j, j ≠ k → line (t.scale j) = line (s.scale j))
    ∧ presses (t.scale k) = presses (s.scale k) ∧ ((s.scale k).verdictLaw → (t.scale k).verdictLaw)

theorem Weighs.refl (k : ScaleNo) (s : State) : Weighs k s s := ⟨fun _ => rfl, fun _ _ => rfl, rfl, id⟩

theorem Weighs.trans {u : State} (h : Weighs k s t) (g : Weighs k t u) : Weighs k s u := by
  obtain ⟨hv, hl, hp, hj⟩ := h
  obtain ⟨gv, gl, gp, gj⟩ := g
  exact ⟨fun p => (gv p).trans (hv p), fun j hne => (gl j hne).trans (hl j hne), gp.trans hp, gj ∘ hj⟩

theorem weighs_of_alike (k : ScaleNo) (h : Alike s t) : Weighs k s t := by
  refine ⟨h.1, fun j _ => h.2 j, congrArg Prod.fst (h.2 k), fun hj => ?_⟩
  rw [judged_iff_line, h.2]
  exact hj

theorem cycles_of_weighs (h : Weighs k s t) (hs : Cycles s) : Cycles t := by
  obtain ⟨hordered, hqueued, hjudged⟩ := hs
  obtain ⟨hview, hother, hpresses, hlaw⟩ := h
  have hstate (p : PressNo) : (t.unit p).state = (s.unit p).state := congrArg View.state (hview p)
  have hall (j : ScaleNo) : presses (t.scale j) = presses (s.scale j) :=
    if h : j = k then h ▸ hpresses else congrArg Prod.fst (hother j h)
  refine ⟨fun p => by rw [hview, hstate]; exact hordered p, ?_, fun j => ?_⟩
  · simpa only [Queued, queuedPresses_eq, hall, hstate] using hqueued
  · by_cases hj : j = k
    · exact hj ▸ hlaw (hjudged k)
    · rw [judged_iff_line, hother j hj]
      exact hjudged j

theorem weighs_modScale (k : ScaleNo) (f : Scale → Scale) (s : State)
    (hq : presses (f (s.scale k)) = presses (s.scale k))
    (hv : (s.scale k).verdictLaw → (f (s.scale k)).verdictLaw) : Weighs k s (s.modScale k f) := by
  refine ⟨fun p => rfl, fun j hj => by rw [scale_modScale_of_ne _ _ _ hj], ?_, ?_⟩
  · rw [scale_modScale, hq]
  · rwa [scale_modScale]

/-- A change of a scale that leaves its queue, its state and its verdict. -/
theorem weighs_field (k : ScaleNo) (f : Scale → Scale) (s : State)
    (hf : ∀ c, (f c).queue = c.queue ∧ (f c).state = c.state ∧ (f c).verdict = c.verdict := by
      intros; exact ⟨rfl, rfl, rfl⟩) : Weighs k s (s.modScale k f) := by
  obtain ⟨hq, hst, hv⟩ := hf (s.scale k)
  exact weighs_modScale k f s (by rw [presses, presses, hq]) fun h => by rwa [Scale.verdictLaw, hst, hv]

theorem weighs_doIf {c : Bool} {g : State → State} (h : ∀ t, Weighs k t (g t)) (s : State) :
    Weighs k s (doIf c g s) := by
  cases c
  · exact .refl k s
  · exact h s

/-! ### Evaluation (R111, R112, R119) -/

theorem presses_countAttempt (l : List QueueEntry) : (countAttempt l).map QueueEntry.press = l.map QueueEntry.press := by
  cases l <;> rfl

/-- The verdict is held, and no queue has moved. -/
theorem evaluate_line (k : ScaleNo) (v : Int) (s : State) : (∀ p, view (s.evaluate k v) p = view s p)
    ∧ (∀ j, j ≠ k → line ((s.evaluate k v).scale j) = line (s.scale j))
    ∧ line ((s.evaluate k v).scale k) = (presses (s.scale k), (s.scale k).state, true) := by
  have hrest (x : State) : Alike x
      (originate .U (doIf ((s.verdictOn k v).kind == .light || (s.verdictOn k v).kind == .heavy)
      (raiseNow .chargeReject (.scale k)) x).controller .verdict (verdictBytes k (s.verdictOn k v)) .plain
      (doIf ((s.verdictOn k v).kind == .light || (s.verdictOn k v).kind == .heavy)
        (raiseNow .chargeReject (.scale k)) x)) := by
    refine Alike.trans ?_ (alike_originate _ _ _ _ _ _)
    exact doIf_rule (Q := Alike x) (fun h _ => h.trans (alike_raiseNow _ _ _)) id (.refl x)
  obtain ⟨hview, hline⟩ := hrest (s.modScale k fun c =>
    { c with verdict := some (s.verdictOn k v), queue := countAttempt c.queue })
  refine ⟨fun p => hview p, fun j hj => ?_, ?_⟩
  · exact (hline j).trans (by rw [scale_modScale_of_ne _ _ _ hj])
  · refine (hline k).trans ?_
    rw [scale_modScale, line, presses, presses_countAttempt]
    rfl

theorem weighs_evaluateTo (k : ScaleNo) (v : Int) (s : State) : Weighs k s (s.evaluateTo k v) := by
  obtain ⟨hview, hother, hline⟩ := evaluate_line k v s
  refine ⟨fun p => hview p, fun j hj => ?_, ?_, fun _ => ?_⟩
  · rw [evaluateTo, scale_modScale_of_ne _ _ _ hj]
    exact hother j hj
  · rw [evaluateTo, scale_modScale]
    exact congrArg Prod.fst hline
  · have hv : ((s.evaluate k v).scale k).verdict.isSome = true := congrArg (fun x => x.2.2) hline
    rw [evaluateTo, scale_modScale, Scale.verdictLaw, hv]
    dsimp only
    cases (s.verdictOn k v).kind <;> rfl

theorem weighs_evaluate (k : ScaleNo) (v : Int) (s : State) (hst : (s.scale k).state = .lifting) :
    Weighs k s (s.evaluate k v) := by
  obtain ⟨hview, hother, hline⟩ := evaluate_line k v s
  refine ⟨hview, hother, congrArg Prod.fst hline, fun _ => ?_⟩
  rw [judged_iff_line, hline, hst]
  rfl

theorem weighs_changeOfHead (k : ScaleNo) (s : State) : Weighs k s (s.changeOfHead k) := by
  unfold changeOfHead
  split
  · exact weighs_evaluateTo _ _ s
  · exact weighs_evaluateTo _ _ s
  · exact weighs_evaluateTo _ _ s
  · exact weighs_evaluate _ _ s ‹_›
  · exact .refl k s

/-! ### Gross values (R106 to R116) -/

/-- A scale without a verdict, in a state that has none. -/
theorem verdictLaw_of_none {c : Scale} (st : ScaleState) (hv : c.verdict = none) (hst : c.state = st)
    (h : (st == .accepted || st == .rejected || st == .noRequest || st == .lifting) = false := by rfl) :
    c.verdictLaw := by
  rw [Scale.verdictLaw, hv, hst, h]
  rfl

theorem weighs_toEmpty (k : ScaleNo) (w : List Int) (s : State) : Weighs k s (s.modScale k (toEmpty w)) :=
  weighs_modScale k _ s rfl fun _ => verdictLaw_of_none .empty rfl rfl

theorem weighs_grossEmpty (k : ScaleNo) (g : Int) (s : State) (hst : (s.scale k).state = .empty) :
    Weighs k s (s.grossEmpty k g) := by
  have htrack (t : State) : Weighs k t (t.zeroTrack k) := by
    unfold zeroTrack
    dsimp only
    repeat' split
    · exact .refl k t
    · exact weighs_field k _ t
    · exact .refl k t
    · exact (weighs_field k _ t).trans (weighs_of_alike k (alike_raiseNow _ _ _))
  unfold grossEmpty
  dsimp only
  split
  · refine weighs_modScale k _ s rfl fun h => verdictLaw_of_none .loading ?_ rfl
    rw [Scale.verdictLaw, hst] at h
    exact Option.isNone_iff_eq_none.mp (by rw [← Option.not_isSome, h]; rfl)
  · exact (weighs_field k _ s).trans (weighs_doIf htrack _)

theorem weighs_grossLoading (k : ScaleNo) (g : Int) (s : State) : Weighs k s (s.grossLoading k g) := by
  unfold grossLoading
  dsimp only
  split
  · exact weighs_toEmpty k _ s
  · exact (weighs_field k _ s).trans (weighs_doIf (weighs_evaluateTo k _) _)

theorem weighs_toLifting (k : ScaleNo) (g : Int) (tm : Time) (s : State)
    (hst : (s.scale k).state ∈ [ScaleState.accepted, .rejected, .noRequest]) :
    Weighs k s (s.toLifting k g tm) := by
  refine weighs_modScale k _ s rfl fun h => ?_
  have hv : (s.scale k).verdict.isSome = true := by
    simp only [List.mem_cons, List.not_mem_nil, or_false] at hst
    rcases hst with h' | h' | h' <;> simpa [Scale.verdictLaw, h'] using h
  exact hv

theorem weighs_toOverload (k : ScaleNo) (s : State) : Weighs k s (s.toOverload k) :=
  (weighs_modScale k _ s rfl fun _ => verdictLaw_of_none .overload rfl rfl).trans
    (weighs_of_alike k (alike_raiseNow _ _ _))

theorem weighs_grossOverload (k : ScaleNo) (g : Int) (s : State) : Weighs k s (s.grossOverload k g) := by
  unfold grossOverload
  split
  · exact weighs_toEmpty k _ s
  · exact .refl k s

/-! ### Queues (R117, R118, R120) -/

/-- One press differs, and the queues with it. -/
theorem cycles_of_queued (p : PressNo) (b : UnitState) (hs : Cycles s) (hp : view t p = ordered b)
    (hother : ∀ q, q ≠ p → view t q = view s q) (hnodup : t.queuedPresses.Nodup)
    (hmem : ∀ q, q ∈ t.queuedPresses ↔ if q = p then b = .chargeWait else q ∈ s.queuedPresses)
    (hjudged : Judged t) : Cycles t := by
  have hb : (t.unit p).state = b := congrArg View.state hp
  have hstate (q : PressNo) (hq : q ≠ p) : (t.unit q).state = (s.unit q).state := congrArg View.state (hother q hq)
  refine ⟨fun q => ?_, ⟨hnodup, fun q => ?_⟩, hjudged⟩
  · by_cases hq : q = p
    · rw [hq, hp, hb]
    · rw [hother q hq, hstate q hq]
      exact hs.1 q
  · by_cases hq : q = p
    · rw [hmem, if_pos hq, hq, hb]
    · rw [hmem, if_neg hq, hstate q hq]
      exact hs.2.1.2 q

/-- A press leaves CHARGE_WAIT, and the queues. -/
theorem cycles_of_leaving (p : PressNo) (b : UnitState) (hb : b ≠ .chargeWait) (hs : Cycles s)
    (hp : view t p = ordered b) (hother : ∀ q, q ≠ p → view t q = view s q)
    (hq : ∀ j, presses (t.scale j) = (presses (s.scale j)).filter fun q => decide (q ≠ p)) (hjudged : Judged t) :
    Cycles t := by
  have hqueued : t.queuedPresses = s.queuedPresses.filter fun q => decide (q ≠ p) := by
    rw [queuedPresses_eq, queuedPresses_eq, hq, hq, List.filter_append]
  refine cycles_of_queued p b hs hp hother ?_ (fun q => ?_) hjudged
  · rw [hqueued]
    exact hs.2.1.1.filter _
  · rw [hqueued, List.mem_filter, decide_eq_true_eq]
    by_cases h : q = p
    · simp [h, hb]
    · simp [h]

/-- A press enters CHARGE_WAIT, and a queue at its tail. -/
theorem cycles_of_joining (p : PressNo) (k : ScaleNo) (hs : Cycles s) (ha : (s.unit p).state ≠ .chargeWait)
    (hp : view t p = ordered .chargeWait) (hother : ∀ q, q ≠ p → view t q = view s q)
    (hk : presses (t.scale k) = presses (s.scale k) ++ [p])
    (hj : ∀ j, j ≠ k → presses (t.scale j) = presses (s.scale j)) (hjudged : Judged t) : Cycles t := by
  have hnot : p ∉ s.queuedPresses := fun h => ha ((hs.2.1.2 p).mp h)
  have hperm : t.queuedPresses.Perm (p :: s.queuedPresses) := by
    rw [queuedPresses_eq, queuedPresses_eq]
    match k with
    | 0 =>
      rw [hk, hj 1 (by decide), List.append_assoc]
      exact List.perm_middle
    | 1 =>
      rw [hk, hj 0 (by decide), ← List.append_assoc]
      exact List.perm_append_comm
  refine cycles_of_queued p .chargeWait hs hp hother ?_ (fun q => ?_) hjudged
  · exact hperm.nodup_iff.mpr (List.nodup_cons.mpr ⟨hnot, hs.2.1.1⟩)
  · rw [hperm.mem_iff, List.mem_cons]
    by_cases h : q = p
    · simp [h]
    · simp [h]

theorem filter_of_not_mem {l : List PressNo} (h : p ∉ l) : l.filter (fun q => decide (q ≠ p)) = l :=
  List.filter_eq_self.mpr fun _ hq => decide_eq_true fun hqp => h (hqp ▸ hq)

/-- The release of an accepted charge: the head of the queue has it, and leaves the queue (R120). -/
theorem cycles_release (k : ScaleNo) (g : Int) (tm : Time) (hv : (s.scale k).verdict.isSome = true) (hs : Cycles s) :
    Cycles (s.release k g tm) := by
  obtain ⟨v, hv⟩ := Option.isSome_iff_exists.mp hv
  have hjudged {t : State} (ht : ∀ j, line (t.scale j) = line (s.scale j)) :
      Judged (t.modScale k fun c => { toEmpty [g] c with queue := c.queue.drop 1 }) := by
    intro j
    by_cases hj : j = k
    · subst hj
      rw [scale_modScale]
      exact verdictLaw_of_none .empty rfl rfl
    · rw [scale_modScale_of_ne _ _ _ hj, judged_iff_line, ht]
      exact hs.2.2 j
  cases hq : (s.scale k).queue with
  | nil =>
    have hrelease : s.release k g tm = s.modScale k fun c => { toEmpty [g] c with queue := c.queue.drop 1 } := by
      simp [release, hv, hq]
    rw [hrelease]
    refine cycles_of_weighs (weighs_modScale k _ s ?_ fun _ => verdictLaw_of_none .empty rfl rfl) hs
    simp [presses, hq]
  | cons e rest =>
    have hqueue : presses (s.scale k) = e.press :: rest.map QueueEntry.press := by rw [presses, hq]; rfl
    have hmem : e.press ∈ presses (s.scale k) := hqueue ▸ List.mem_cons_self
    have hwait : (s.unit e.press).state = .chargeWait :=
      (hs.2.1.2 e.press).mp (mem_queuedPresses.mpr ⟨k, hmem⟩)
    obtain ⟨r, hr⟩ := Option.isSome_iff_exists.mp (hs.boundRecipe (by rw [hwait]; rfl))
    have hrelease : s.release k g tm = (handCharge e.press (chargeOf k v (s.scale k).tare e r tm) s).modScale k
        fun c => { toEmpty [g] c with queue := c.queue.drop 1 } := by
      simp [release, hv, hq, hr]
    obtain ⟨hp, hother, hline⟩ := moves_modUnit e.press
      (fun u => { u with state := .chargeReady, charge := some (chargeOf k v (s.scale k).tare e r tm) })
      (fun v => { v with state := .chargeReady, charge := true }) s fun v h1 h2 h3 => by rw [← h2]; rfl
    obtain ⟨hnodups, hapart⟩ := nodup_queuedPresses.mp hs.2.1.1
    rw [hrelease]
    refine cycles_of_leaving e.press .chargeReady (by decide) hs ?_ hother (fun j => ?_) (hjudged hline)
    · exact hp.trans (by rw [hs.1, hwait]; rfl)
    · by_cases hj : j = k
      · subst hj
        have hnot := (List.nodup_cons.mp (hqueue ▸ hnodups j)).1
        rw [scale_modScale, hqueue, List.filter_cons_of_neg (by simp), filter_of_not_mem hnot]
        change ((s.scale j).queue.drop 1).map QueueEntry.press = _
        rw [hq]
        rfl
      · rw [scale_modScale_of_ne _ _ _ hj, filter_of_not_mem fun h => hapart j k hj _ h hmem]
        exact congrArg Prod.fst (hline j)

theorem cycles_grossVerdict (k : ScaleNo) (g : Int) (tm : Time)
    (hst : (s.scale k).state ∈ [ScaleState.accepted, .rejected, .noRequest]) (hs : Cycles s) :
    Cycles (s.grossVerdict k g tm) := by
  unfold grossVerdict
  dsimp only
  repeat' split
  · rename_i hacc
    have hv := hs.2.2 k
    rw [Scale.verdictLaw, hacc] at hv
    exact cycles_release k g tm hv hs
  · exact cycles_of_weighs (weighs_toEmpty k _ s) hs
  · exact hs
  · exact cycles_of_weighs (weighs_toLifting k g tm s hst) hs

theorem cycles_grossLifting (k : ScaleNo) (g : Int) (tm : Time) (hs : Cycles s) : Cycles (s.grossLifting k g tm) := by
  unfold grossLifting
  dsimp only
  repeat' split
  · rename_i hv
    exact cycles_release k g tm (Option.isSome_of_any hv) hs
  · exact cycles_of_weighs (weighs_toEmpty k _ s) hs
  · exact cycles_of_weighs (((weighs_field k _ s).trans (weighs_field k _ _)).trans (weighs_evaluateTo k _ _)) hs
  · exact cycles_of_weighs (weighs_field k _ s) hs

theorem cycles_takeGross (k : ScaleNo) (g : Int) (tm : Time) (hs : Cycles s) : Cycles (s.takeGross k g tm) := by
  unfold takeGross
  dsimp only
  split
  · split
    · exact hs
    · exact cycles_of_weighs (weighs_toOverload k s) hs
  · split
    · exact cycles_of_weighs (weighs_grossEmpty k g s ‹_›) hs
    · exact cycles_of_weighs (weighs_grossLoading k g s) hs
    · exact cycles_grossVerdict k g tm (by simp [*]) hs
    · exact cycles_grossVerdict k g tm (by simp [*]) hs
    · exact cycles_grossVerdict k g tm (by simp [*]) hs
    · exact cycles_grossLifting k g tm hs
    · exact cycles_of_weighs (weighs_grossOverload k g s) hs
    · exact hs
    · exact hs

theorem weighs_pairDisagrees (k : ScaleNo) (s : State) : Weighs k s (s.pairDisagrees k) := by
  unfold pairDisagrees
  split
  · exact weighs_field k _ s
  · exact (weighs_modScale k _ s rfl fun _ => verdictLaw_of_none .mismatch rfl rfl).trans
      (weighs_of_alike k (alike_raiseNow _ _ _))

theorem weighs_pairAgreesMismatch (k : ScaleNo) (g : Int) (s : State) (hst : (s.scale k).state = .mismatch) :
    Weighs k s (s.pairAgreesMismatch k g) := by
  unfold pairAgreesMismatch
  dsimp only
  repeat' split
  · exact weighs_toOverload k s
  · exact weighs_field k _ s
  · refine weighs_modScale k _ s rfl fun h => verdictLaw_of_none .loading ?_ rfl
    rw [Scale.verdictLaw, hst] at h
    exact Option.isNone_iff_eq_none.mp (by rw [← Option.not_isSome, h]; rfl)
  · exact weighs_modScale k _ s rfl fun _ => verdictLaw_of_none .empty rfl rfl

theorem cycles_takePair (k : ScaleNo) (a b : Int) (tm : Time) (hs : Cycles s) : Cycles (s.takePair k a b tm) := by
  unfold takePair
  repeat' split
  · exact cycles_of_weighs (weighs_pairAgreesMismatch k _ s ‹_›) hs
  · exact cycles_takeGross k _ tm hs
  · exact cycles_of_weighs (weighs_pairDisagrees k s) hs

theorem cycles_scaleField (k : ScaleNo) (f : Scale → Scale) (hs : Cycles s)
    (hf : ∀ c, (f c).queue = c.queue ∧ (f c).state = c.state ∧ (f c).verdict = c.verdict := by
      intros; exact ⟨rfl, rfl, rfl⟩) : Cycles (s.modScale k f) :=
  cycles_of_weighs (weighs_field k f s hf) hs

theorem cycles_takeA (k : ScaleNo) (mode : ScaleMode) (a : Int) (tm : Time) (hs : Cycles s) :
    Cycles (s.takeA k mode a tm) := by
  cases mode with
  | single => exact cycles_takeGross k a tm hs
  | sum | check => exact cycles_scaleField k _ hs

theorem cycles_takeB (k : ScaleNo) (mode : ScaleMode) (b : Int) (tm : Time) (hs : Cycles s) :
    Cycles (s.takeB k mode b tm) := by
  unfold takeB
  split
  · exact hs
  · exact cycles_scaleField k _ hs
  · exact cycles_takeGross k _ tm (cycles_scaleField k _ hs)
  · exact cycles_takePair k _ _ tm (cycles_scaleField k _ hs)

theorem cycles_takeChannelA (k : ScaleNo) (e : ChannelEntry) (tm : Time) (hs : Cycles s) :
    Cycles (s.takeChannelA k e tm) := by
  have hA : Cycles (s.modScale k fun c =>
      { c with lastA := some { status := e.status, value := e.value, arrival := tm } }) := cycles_scaleField k _ hs
  unfold takeChannelA
  dsimp only
  split
  · exact hA
  · split
    · exact cycles_takeA k _ _ tm hA
    · exact cycles_scaleField k _ (cycles_scaleField k _ hA)

theorem cycles_takeChannelB (k : ScaleNo) (e : ChannelEntry) (tm : Time) (hs : Cycles s) :
    Cycles (s.takeChannelB k e tm) := by
  have hB : Cycles (s.modScale k fun c =>
      { c with lastB := some { status := e.status, value := e.value, arrival := tm } }) := cycles_scaleField k _ hs
  unfold takeChannelB
  dsimp only
  repeat' split
  · exact hB
  · exact cycles_takeB k _ _ tm hB
  · exact cycles_scaleField k _ hB

theorem cycles_takeScaleEntry (k : ScaleNo) (node : Nat) (tm : Time) (e : ChannelEntry) (hs : Cycles s) :
    Cycles (s.takeScaleEntry k node tm e) := by
  unfold takeScaleEntry
  dsimp only
  repeat' split
  · exact cycles_takeChannelA k e tm hs
  · exact cycles_takeChannelB k e tm hs
  · exact hs

/-! ### Joining and leaving a queue -/

/-- A change of a queue: the presses in it, and nothing else that the laws see but the verdict. -/
theorem requeue_line (k : ScaleNo) (f : List QueueEntry → List QueueEntry) (s : State) (hs : Judged s) :
    (∀ p, view (s.requeue k f) p = view s p)
      ∧ (∀ j, j ≠ k → line ((s.requeue k f).scale j) = line (s.scale j))
      ∧ presses ((s.requeue k f).scale k) = (f (s.scale k).queue).map QueueEntry.press
      ∧ Judged (s.requeue k f) := by
  have hset : ∃ t, s.requeue k f = t ∧ Weighs k (s.modScale k fun c => { c with queue := f c.queue }) t := by
    refine ⟨_, rfl, ?_⟩
    unfold requeue
    dsimp only
    split
    · exact .refl k _
    · exact weighs_changeOfHead k _
  obtain ⟨t, rfl, hview, hother, hpresses, hlaw⟩ := hset
  have hline (j : ScaleNo) (hj : j ≠ k) : line ((s.requeue k f).scale j) = line (s.scale j) := by
    rw [hother j hj, scale_modScale_of_ne _ _ _ hj]
  refine ⟨hview, hline, ?_, fun j => ?_⟩
  · rw [hpresses, scale_modScale]
    rfl
  · by_cases hj : j = k
    · rw [hj]
      refine hlaw ?_
      rw [scale_modScale]
      exact hs k
    · rw [judged_iff_line, hline j hj]
      exact hs j

/-- A press enters CHARGE_WAIT and joins a queue, its unit changed before. -/
theorem cycles_joinQueue {g : View → View} (a : UnitState) (r : Recipe) (tm : Time) (h : Moves p g s t) (hs : Cycles s)
    (ha : (s.unit p).state = a) (hg : g (ordered a) = ordered .chargeWait) (hne : a ≠ .chargeWait := by decide) :
    Cycles (t.joinQueue p r tm) := by
  obtain ⟨hp, hother, hline⟩ := h
  have hjudged : Judged t := fun k => by rw [judged_iff_line, hline]; exact hs.2.2 k
  obtain ⟨hview, hlines, hpresses, hlaw⟩ := requeue_line (scaleOf r)
    (· ++ [{ press := p, attempts := 0, joined := tm }]) t hjudged
  refine cycles_of_joining p (scaleOf r) hs (by rw [ha]; exact hne) ?_ (fun q hq => ?_) ?_ (fun j hj => ?_) hlaw
  · rw [joinQueue, hview, hp, hs.1, ha, hg]
  · rw [joinQueue, hview, hother q hq]
  · rw [joinQueue, hpresses, List.map_append]
    exact congrArg (· ++ [p]) (congrArg Prod.fst (hline _))
  · exact (congrArg Prod.fst (hlines j hj)).trans (congrArg Prod.fst (hline j))

/-- The entry of a press leaves a queue, if it stands there. -/
def leaveOne (p : PressNo) (k : ScaleNo) (s : State) : State :=
  if (s.scale k).queue.any fun q => q.press == p then requeue k (·.filter fun q => q.press != p) s else s

theorem leaveQueue_eq (p : PressNo) (s : State) : s.leaveQueue p = leaveOne p 1 (leaveOne p 0 s) := rfl

theorem leaveOne_line (p : PressNo) (k : ScaleNo) (s : State) (hs : Judged s) :
    (∀ q, view (leaveOne p k s) q = view s q) ∧ (∀ j, j ≠ k → line ((leaveOne p k s).scale j) = line (s.scale j))
      ∧ presses ((leaveOne p k s).scale k) = (presses (s.scale k)).filter (fun q => decide (q ≠ p))
      ∧ Judged (leaveOne p k s) := by
  unfold leaveOne
  split
  · obtain ⟨hview, hline, hpresses, hlaw⟩ := requeue_line k (·.filter fun q => q.press != p) s hs
    refine ⟨hview, hline, ?_, hlaw⟩
    rw [hpresses, presses, List.filter_map]
    congr 1
    refine List.filter_congr fun q _ => ?_
    simp [bne, beq_eq_decide]
  · rename_i hany
    refine ⟨fun _ => rfl, fun _ _ => rfl, (filter_of_not_mem fun h => ?_).symm, hs⟩
    obtain ⟨q, hq, hqp⟩ := List.mem_map.mp h
    exact hany (List.any_eq_true.mpr ⟨q, hq, by simpa using hqp⟩)

/-- The press stands in no queue afterwards. -/
theorem leaveQueue_line (p : PressNo) (s : State) (hs : Judged s) :
    (∀ q, view (s.leaveQueue p) q = view s q) ∧ Judged (s.leaveQueue p)
      ∧ ∀ j, presses ((s.leaveQueue p).scale j) = (presses (s.scale j)).filter fun q => decide (q ≠ p) := by
  obtain ⟨hview0, hline0, hpresses0, hlaw0⟩ := leaveOne_line p 0 s hs
  obtain ⟨hview1, hline1, hpresses1, hlaw1⟩ := leaveOne_line p 1 (leaveOne p 0 s) hlaw0
  rw [leaveQueue_eq]
  refine ⟨fun q => (hview1 q).trans (hview0 q), hlaw1, fun j => ?_⟩
  match j with
  | 0 => exact (congrArg Prod.fst (hline1 0 (by decide))).trans hpresses0
  | 1 =>
    rw [hpresses1]
    exact congrArg (List.filter _) (congrArg Prod.fst (hline0 1 (by decide)))

/-! ## Press units (section 7) -/

/-- A press in CHARGE_WAIT gives its queue entry up and goes to a state without a binding. -/
theorem cycles_left {g : View → View} (b : UnitState) (hs : Cycles s) (ha : (s.unit p).state = .chargeWait)
    (h : Moves p g (s.leaveQueue p) t) (hg : g (ordered .chargeWait) = ordered b)
    (hb : b ≠ .chargeWait := by decide) : Cycles t := by
  obtain ⟨hview, hlaw, hpresses⟩ := leaveQueue_line p s hs.2.2
  obtain ⟨hp, hother, hline⟩ := h
  refine cycles_of_leaving p b hb hs ?_ (fun q hq => (hother q hq).trans (hview q)) (fun j => ?_) fun j => ?_
  · rw [hp, hview, hs.1, ha, hg]
  · exact (congrArg Prod.fst (hline j)).trans (hpresses j)
  · rw [judged_iff_line, hline]
    exact hlaw j

theorem cycles_giveUpCharge (b : UnitState) (f : PressUnit → PressUnit) (hs : Cycles s)
    (ha : (s.unit p).state = .chargeWait ∨ (s.unit p).state = .chargeReady)
    (hf : ∀ u, (f u).state = b ∧ (f u).binding = none ∧ (f u).charge = none)
    (hb : b = .idle ∨ b = .disabled) : Cycles ((s.giveUpCharge p).modUnit p f) := by
  have hclear (t : State) : Moves p (fun v => { v with state := b, binding := false, charge := false }) t
      (t.modUnit p f) := by
    obtain ⟨h1, h2, h3⟩ := hf (t.unit p)
    exact moves_modUnit p f _ t fun v _ _ _ => by rw [h1, h2, h3]; rfl
  unfold giveUpCharge
  rcases ha with ha | ha
  · rw [ha]
    dsimp only
    rcases hb with rfl | rfl
    · exact cycles_left .idle hs ha (hclear _) rfl
    · exact cycles_left .disabled hs ha (hclear _) rfl
  · rw [ha]
    dsimp only
    have hm := ((moves_modUnit p (fun u => { u with charge := none }) (fun v => { v with charge := false }) s
      fun v h1 h2 h3 => by rw [← h1, ← h2]; rfl).alike (alike_raiseNow .chargeDiscard (.press p) _)).trans (hclear _)
    rcases hb with rfl | rfl
    · exact cycles_of_moves .chargeReady .idle hm hs ha rfl
    · exact cycles_of_moves .chargeReady .disabled hm hs ha rfl

/-- A change of a unit's state alone. -/
theorem moves_state (p : PressNo) (f : PressUnit → PressUnit) (b : UnitState) (s : State)
    (hf : ∀ u, (f u).state = b ∧ (f u).binding = u.binding ∧ (f u).charge = u.charge := by
      intros; exact ⟨rfl, rfl, rfl⟩) : Moves p (fun v => { v with state := b }) s (s.modUnit p f) := by
  obtain ⟨h1, h2, h3⟩ := hf (s.unit p)
  exact moves_modUnit p f _ s fun v _ hb hc => by rw [h1, h2, h3, ← hb, ← hc]

theorem cycles_attemptBinding (p : PressNo) (r : PressReport) (hst : (s.unit p).state = .idle) (hs : Cycles s) :
    Cycles (s.attemptBinding p r) := by
  have hbase (r : Recipe) (l : List ZoneNo) (s : State) : Alike s (each (takeRecipeBase r) l s) :=
    each_rule (Q := Alike s) (fun z {_} h => h.trans (.of_changes (takeRecipeBase_changes r z _))) l (.refl s)
  unfold attemptBinding bindUnit
  split
  · rename_i b _
    have hm (r : Recipe) (l : List ZoneNo) :=
      ((moves_modUnit p (fun u => { u with binding := some b, bindFault := .none })
        (fun v => { v with binding := true }) s fun v h1 h2 h3 => by rw [← h1, ← h3]; rfl).alike (hbase r l _)).trans
          (moves_state p (fun u => { u with state := .chargeWait }) .chargeWait _)
    exact cycles_joinQueue .idle _ _ (hm _ _) hs hst rfl
  · exact cycles_of_alike (alike_modUnit p _ s) hs

theorem cycles_mouldTestCycle (p : PressNo) (r : PressReport) (hs : Cycles s) : Cycles (s.mouldTestCycle p r) := by
  unfold mouldTestCycle
  split
  · exact cycles_setFlag p _ (cycles_of_alike (alike_raise _ _ _ _) (cycles_of_alike (alike_modUnit p _ s) hs))
  · exact hs

theorem state_mouldTestCycle (p : PressNo) (r : PressReport) (s : State) :
    ((s.mouldTestCycle p r).unit p).state = (s.unit p).state := by
  have h : Alike s (s.mouldTestCycle p r) := by
    unfold mouldTestCycle
    split
    · exact ((alike_modUnit p _ s).trans (alike_raise _ _ _ _)).trans (alike_setFlag _ _ _)
    · exact .refl s
  exact congrArg View.state (h.1 p)

theorem cycles_closingTest (p : PressNo) (r : PressReport) (hst : (s.unit p).state = .closing) (hs : Cycles s) :
    Cycles (s.closingTest p r) := by
  unfold closingTest
  repeat' split
  · exact cycles_enterCure p _ _ hst hs
  · exact hs
  · exact hs

theorem alike_ejectOn (p : PressNo) (s : State) : Alike s (s.ejectOn p) := by
  unfold ejectOn
  split
  · exact alike_originate _ _ _ _ _ s
  · exact .refl s

theorem moves_reachA (p : PressNo) (s : State) : Moves p (fun v => { v with ejecting := true }) s (s.reachA p) := by
  unfold reachA
  split
  · exact (moves_modEjector p (Ejector.stopIn .heldAtA) _ s).alike (alike_setFlag p _ _)
  · exact (alike_ejectOn p s).then (moves_modEjector p _ _ _)

theorem moves_beginEjection (p : PressNo) (r : Recipe) (tm : Time) (s : State) :
    Moves p (fun v => { v with ejecting := true }) s (s.beginEjection p r tm) := by
  have hlatched := moves_modEjector p (latched s p r tm) (fun v => { v with ejecting := true }) s
  unfold beginEjection
  by_cases h : r.ejectA = 0
  · rw [decide_eq_true h]
    exact hlatched.trans (moves_reachA p _)
  · rw [decide_eq_false h]
    exact hlatched

theorem cycles_openingTest (p : PressNo) (r : PressReport) (hst : (s.unit p).state = .opening) (hs : Cycles s) :
    Cycles (s.openingTest p r) := by
  unfold openingTest
  repeat' split
  · exact cycles_of_moves .opening .unload (moves_state p _ .unload s) hs hst rfl
  · exact cycles_of_moves .opening .eject ((moves_state p _ .eject s).trans (moves_beginEjection p _ _ _)) hs hst rfl
  · exact hs
  · exact hs

/-- The end of a cycle. -/
theorem cycles_endCycle (p : PressNo) (tm : Time) (hst : (s.unit p).state = .unload) (hs : Cycles s) :
    Cycles (s.endCycle p tm) := by
  have hclosed (c : CloseCause) : Moves p (fun v => { v with index := false, record := false, charge := false }) s
      ((s.closeRecord p c tm).modUnit p fun u =>
        { u with charge := none, closingEntry := none, closeTimedOut := false, aborted := false }) :=
    (moves_closeRecord p c tm s (hs.index p)).trans
      (moves_modUnit p _ (fun v => { v with charge := false }) _ fun v h1 h2 h3 => by rw [← h1, ← h2]; rfl)
  unfold endCycle
  dsimp only
  generalize hc : (if (s.unit p).aborted then CloseCause.endAborted else .endOfCycle) = c
  unfold afterCycle
  repeat' split
  · refine cycles_of_moves .unload .disabled ((hclosed c).trans (moves_modUnit p _
      (fun v => { v with state := .disabled, binding := false, charge := false }) _)) hs hst rfl
  · refine cycles_of_moves .unload .idle ((hclosed c).trans (moves_modUnit p _
      (fun v => { v with state := .idle, binding := false, charge := false }) _)) hs hst rfl
  · exact cycles_joinQueue .unload _ _ ((hclosed c).trans (moves_state p _ .chargeWait _)) hs hst rfl
  · rename_i hnone
    have hb : (view _ p).binding = true := congrArg View.binding (hclosed c).1 |>.trans (by
      rw [hs.1, hst]; rfl)
    have hno := Option.map_eq_none_iff.mp hnone
    simp only [view] at hb
    rw [hno] at hb
    cases hb

theorem cycles_takePress (p : PressNo) (r : PressReport) (hs : Cycles s) : Cycles (s.takePress p r) := by
  have ha : Alike s (s.modUnit p fun u => { u with lastStatus := some r }) := alike_modUnit p _ s
  have h1 := cycles_of_alike ha hs
  have hst1 : ((s.modUnit p fun u => { u with lastStatus := some r }).unit p).state = (s.unit p).state :=
    congrArg View.state (ha.1 p)
  have h2 := cycles_mouldTestCycle p r h1
  have hst2 := (state_mouldTestCycle p r _).trans hst1
  have hwaiting (h : (s.unit p).state = .chargeWait ∨ (s.unit p).state = .chargeReady) :
      Cycles ((s.modUnit p fun u => { u with lastStatus := some r }).mouldTestWaiting p r) := by
    unfold mouldTestWaiting
    split
    · exact cycles_giveUpCharge .idle _ h1 (hst1 ▸ h) (fun _ => ⟨rfl, rfl, rfl⟩) (.inl rfl)
    · exact h1
  unfold takePress testReport
  split
  · exact h1
  · exact h1
  · exact cycles_attemptBinding p r (hst1.trans ‹_›) h1
  · exact hwaiting (.inl ‹_›)
  · exact hwaiting (.inr ‹_›)
  · exact cycles_closingTest p r (hst2.trans ‹_›) h2
  · unfold cureTest
    split
    · exact cycles_setFlag p _ h2
    · exact h2
  · exact h2
  · exact h2
  · exact cycles_openingTest p r (hst2.trans ‹_›) h2
  · unfold unloadTest
    split
    · exact cycles_endCycle p _ (hst2.trans ‹_›) h2
    · exact h2

theorem cycles_beginCycle (p : PressNo) (tm : Time) (hst : (s.unit p).state = .chargeReady) (hs : Cycles s) :
    Cycles (s.beginCycle p tm) := by
  have hreturn (l : List ZoneNo) (s : State) : Alike s (each returnToPrimary l s) :=
    each_rule (Q := Alike s) (fun z {_} h => h.trans (.of_changes (returnToPrimary_changes z _))) l (.refl s)
  unfold beginCycle
  split
  · rename_i b c _ _
    have hm (l : List ZoneNo) := ((moves_allocate p b c tm s hs.index).alike (hreturn l _)).trans
      (moves_state p (unitClosing tm) .closing _)
    exact cycles_of_moves .chargeReady .closing (hm _) hs hst rfl
  · exact hs

theorem moves_enterOpening (p : PressNo) (a : Bool) (tm : Time) (s : State) :
    Moves p (fun v => { v with state := .opening }) s (s.enterOpening p a tm) :=
  (moves_state p _ .opening s).alike (alike_modRecord p _ _)

theorem cycles_gateEmergency (p : PressNo) (hs : Cycles s) : Cycles (s.gateEmergency p) := by
  have hraised := alike_raiseNow .emergencyOpen (.press p) s
  unfold gateEmergency emergencyOpening
  dsimp only
  split
  · rename_i hst
    exact cycles_of_moves .closing .opening
      ((hraised.then (moves_enterOpening p _ _ _)).alike (alike_setFlag p _ _)) hs hst rfl
  · rename_i hst
    exact cycles_of_moves .demouldWait .opening
      ((hraised.then (moves_enterOpening p _ _ _)).alike (alike_setFlag p _ _)) hs hst rfl
  · rename_i hst
    exact cycles_of_moves .cure .opening (((hraised.then (moves_endCure p _ _)).trans
      (moves_enterOpening p _ _ _)).alike (alike_setFlag p _ _)) hs hst rfl
  all_goals exact cycles_of_alike hraised hs

theorem cycles_forceDemould (p : PressNo) (hs : Cycles s) : Cycles (s.forceDemould p).1 := by
  unfold forceDemould
  split
  · rename_i hst
    dsimp only
    exact cycles_of_moves .cure .demouldWait
      (((moves_endCure p s.timebase s).alike (alike_setFlag p .forcedDemould _)).trans
      (moves_state p _ .demouldWait _)) hs hst rfl
  · exact hs

theorem cycles_pressEnable (p : PressNo) (hs : Cycles s) : Cycles (s.pressEnable p).1 := by
  unfold pressEnable
  split
  · rename_i hst
    split
    · dsimp only
      exact cycles_of_moves .disabled .idle (moves_state p _ .idle s) hs hst rfl
    · exact hs
  · split
    · exact cycles_of_alike (alike_modUnit p _ s) hs
    · exact hs

theorem cycles_pressDisable (p : PressNo) (hs : Cycles s) : Cycles (s.pressDisable p) := by
  have hgive (h : (s.unit p).state = .chargeWait ∨ (s.unit p).state = .chargeReady) :
      Cycles ((s.giveUpCharge p).modUnit p (PressUnit.unbound .disabled)) :=
    cycles_giveUpCharge .disabled _ hs h (fun _ => ⟨rfl, rfl, rfl⟩) (.inr rfl)
  unfold pressDisable
  split
  · exact hs
  · exact cycles_of_moves .idle .disabled (moves_state p _ .disabled s) hs ‹_› rfl
  · exact hgive (.inl ‹_›)
  · exact hgive (.inr ‹_›)
  · exact cycles_of_alike (alike_modUnit p _ s) hs

/-! ## Ejections (section 8) -/

theorem moves_finishEjection (p : PressNo) (s : State) :
    Moves p (fun v => { v with ejecting := false, state := .unload }) s (s.finishEjection p) :=
  (moves_stopEjection p s).trans (moves_state p _ .unload _)

theorem cycles_reachA (p : PressNo) (hst : (s.unit p).state = .eject) (hs : Cycles s) : Cycles (s.reachA p) :=
  cycles_of_moves .eject .eject (moves_reachA p s) hs hst rfl

theorem cycles_reachB (p : PressNo) (hst : (s.unit p).state = .eject) (hs : Cycles s) : Cycles (s.reachB p) := by
  unfold reachB
  split
  · exact cycles_of_moves .eject .eject ((moves_modEjector p (Ejector.stopIn .heldAtB)
      (fun v => { v with ejecting := true }) s).alike (alike_setFlag p _ _)) hs hst rfl
  · exact cycles_of_moves .eject .unload (moves_finishEjection p s) hs hst rfl

theorem cycles_ejectStep (p : PressNo) (hs : Cycles s) : Cycles (s.ejectStep p).1 := by
  have hst (h : (s.ejector p).phase ≠ .stopped) : (s.unit p).state = .eject := hs.state_of_ejecting h
  unfold ejectStep
  split
  · rename_i hphase
    dsimp only
    refine cycles_of_moves .eject .eject ((alike_ejectOn p s).then (moves_modEjector p _
      (fun v => { v with ejecting := true }) _)) hs (hst ?_) rfl
    rw [hphase]
    decide
  · rename_i hphase
    refine cycles_of_moves .eject .unload (moves_finishEjection p s) hs (hst ?_) rfl
    rw [hphase]
    decide
  all_goals exact hs

theorem cycles_takeEjector (p : PressNo) (r : EjectorReport) (hs : Cycles s) : Cycles (s.takeEjector p r) := by
  have h1 : Alike s (s.modEjector p fun e => { e with lastStatus := some r }) := alike_modEjector p _ s
  unfold takeEjector
  dsimp only
  split
  · rename_i hon
    have hst : (s.unit p).state = .eject := hs.state_of_ejecting fun h => by
      rw [h] at hon
      cases hon
    have hpeak : Alike s (followPeak p r.force (s.modEjector p fun e => { e with lastStatus := some r })) := by
      refine h1.trans ?_
      unfold followPeak
      split
      · exact (alike_modEjector p _ _).trans (alike_modRecord p _ _)
      · exact .refl _
    refine doIf_rule (Q := Alike s) (Q' := Cycles) (fun ha _ => ?_) (fun ha => cycles_of_alike ha hs) hpeak
    have hstop := (((ha.then (moves_stopEjection p _)).alike (alike_raise r.arrival .ejectStuck (.press p) _)).alike
      (alike_setFlag p .ejectStuck _)).trans (moves_state p (fun u => { u with state := .fault }) .fault _)
    refine cycles_of_moves .eject .fault (hstop.trans (moves_closeRecord p .fault r.arrival _ ?_)) hs hst rfl
    rw [hstop.1, hs.1, hst]
    rfl
  · exact cycles_of_alike h1 hs

/-! ## Press resets (R142) -/

theorem moves_doIf {c : Bool} {f : State → State} {g : View → View} (h : c = true → Moves p g s (f s)) :
    Moves p (if c = true then g else id) s (doIf c f s) := by
  cases c
  · exact (Alike.refl s).moves p
  · exact h rfl

/-- The cure, the ejection and the record of a cycle that is cut end. -/
def stoppedView (v : View) : View := { v with accruing := false, index := false, record := false, ejecting := false }

theorem cutCycle_line (p : PressNo) (c : CloseCause) (hs : Ordered s) :
    view (s.cutCycle p c) p = stoppedView (view s p) ∧ (∀ q, q ≠ p → view (s.cutCycle p c) q = view s q)
      ∧ ∀ k, line ((s.cutCycle p c).scale k) = line (s.scale k) := by
  have hcure := moves_doIf (c := (s.unit p).state == .cure) fun _ => moves_endCure p s.timebase s
  have heject := hcure.trans (moves_doIf (c := (s.unit p).state == .eject) fun _ => moves_cutEjection p _)
  have hclose := heject.trans (moves_doIf (c := (s.unit p).state.inCycle)
    fun _ => moves_closeRecord p c s.timebase _ (by
      rw [heject.1, hs p]
      cases (s.unit p).state <;> rfl))
  refine ⟨hclose.1.trans ?_, hclose.2⟩
  rw [hs p]
  cases (s.unit p).state <;> rfl

theorem judged_of_line (hl : ∀ k, line (t.scale k) = line (s.scale k)) (hj : Judged s) : Judged t := fun k => by
  rw [judged_iff_line, hl]
  exact hj k

/-- A unit after a press reset. -/
theorem afterReset_view (p : PressNo) (hv : stoppedView (view t p) = view t p) :
    ∃ b, (b = .idle ∨ b = .disabled) ∧ view (t.modUnit p PressUnit.afterReset) p = ordered b := by
  obtain ⟨hm, _⟩ := moves_modUnit p PressUnit.afterReset (fun v => { v with
    state := if (t.unit p).haltPending then .disabled else .idle, binding := false, charge := false }) t
  refine ⟨if (t.unit p).haltPending then .disabled else .idle, ?_, hm.trans ?_⟩
  · split
    · exact .inr rfl
    · exact .inl rfl
  · rw [← hv]
    split <;> rfl

/-- What a press reset leaves: the unit DISABLED or IDLE, and in no queue. -/
def ResetsUnit (p : PressNo) (s t : State) : Prop :=
  (∃ b, (b = .idle ∨ b = .disabled) ∧ view t p = ordered b) ∧ (∀ q, q ≠ p → view t q = view s q) ∧ Judged t
    ∧ ∀ k, presses (t.scale k) = if (s.unit p).state = .chargeWait then
        (presses (s.scale k)).filter fun q => decide (q ≠ p) else presses (s.scale k)

theorem giveUpCharge_resets (p : PressNo) (s : State) (hv : stoppedView (view s p) = view s p) (hj : Judged s) :
    ResetsUnit p s ((s.giveUpCharge p).modUnit p PressUnit.afterReset) := by
  have hsame (t : State) (q : PressNo) (hq : q ≠ p) : view (t.modUnit p PressUnit.afterReset) q = view t q := by
    rw [view, unit_modUnit_of_ne _ _ _ hq]
    rfl
  unfold giveUpCharge ResetsUnit
  split
  · rename_i hst
    obtain ⟨hview, hlaw, hpresses⟩ := leaveQueue_line p s hj
    refine ⟨afterReset_view p (by rw [hview, hv]), fun q hq => ?_, hlaw, fun k => ?_⟩
    · rw [hsame _ q hq, hview]
    · rw [if_pos hst]
      exact hpresses k
  · rename_i hst
    obtain ⟨hp, hother, hline⟩ := (moves_modUnit p (fun u => { u with charge := none })
      (fun v => { v with charge := false }) s fun v h1 h2 h3 => by rw [← h1, ← h2]; rfl).alike
        (alike_raiseNow .chargeDiscard (.press p) _)
    refine ⟨afterReset_view p ?_, fun q hq => ?_, judged_of_line hline hj, fun k => ?_⟩
    · rw [discardCharge, hp]
      exact congrArg (fun v : View => { v with charge := false }) hv
    · rw [hsame _ q hq, discardCharge, hother q hq]
    · rw [if_neg (by rw [hst]; decide)]
      exact congrArg Prod.fst (hline k)
  · rename_i hne _
    exact ⟨afterReset_view p hv, fun q hq => hsame _ q hq, hj, fun k => by rw [if_neg hne]; rfl⟩

theorem resetUnit_resets (p : PressNo) (c : CloseCause) (hs : Ordered s) (hj : Judged s) :
    ResetsUnit p s (s.resetUnit p c) := by
  unfold resetUnit
  split
  · rename_i hst
    exact ⟨⟨.disabled, .inr rfl, by rw [hs p, hst]⟩, fun _ _ => rfl, hj, fun k => by rw [hst]; rfl⟩
  · rename_i hst
    have ha := alike_modUnit p (fun u => { u with bindFault := .none }) s
    exact ⟨⟨.idle, .inl rfl, by rw [ha.1, hs p, hst]⟩, fun q _ => ha.1 q, hj, fun k => by rw [hst]; rfl⟩
  · obtain ⟨hp, hother, hline⟩ := cutCycle_line p c hs
    have hstate : ((s.cutCycle p c).unit p).state = (s.unit p).state := congrArg View.state hp
    obtain ⟨hb, hsame, hjudged, hpresses⟩ :=
      giveUpCharge_resets p (s.cutCycle p c) (by rw [hp]; rfl) (judged_of_line hline hj)
    refine ⟨hb, fun q hq => (hsame q hq).trans (hother q hq), hjudged, fun k => ?_⟩
    have hk : presses ((s.cutCycle p c).scale k) = presses (s.scale k) := congrArg Prod.fst (hline k)
    rw [hpresses, hstate, hk]

theorem cycles_resetUnit (p : PressNo) (c : CloseCause) (hs : Cycles s) : Cycles (s.resetUnit p c) := by
  obtain ⟨⟨b, hb, hp⟩, hother, hjudged, hpresses⟩ := resetUnit_resets p c hs.1 hs.2.2
  have hne : b ≠ .chargeWait := by rcases hb with rfl | rfl <;> decide
  by_cases hst : (s.unit p).state = .chargeWait
  · refine cycles_of_leaving p b hne hs hp hother (fun j => ?_) hjudged
    rw [hpresses, if_pos hst]
  · have hqueued : (s.resetUnit p c).queuedPresses = s.queuedPresses := by
      rw [queuedPresses_eq, queuedPresses_eq, hpresses, hpresses, if_neg hst, if_neg hst]
    refine cycles_of_queued p b hs hp hother (hqueued ▸ hs.2.1.1) (fun q => ?_) hjudged
    rw [hqueued]
    split
    · rename_i hq
      rw [hs.2.1.2, hq]
      exact iff_of_false hst hne
    · rfl

/-! ## Tables and requests -/

theorem cycles_storeScales (v : Vector ScaleEntry 2) (hs : Cycles s) : Cycles (s.storeScales v) := by
  refine each_rule (Q := Cycles) (fun k {x} hx => cycles_of_weighs (weighs_modScale k _ x ?_ fun h => ?_) hx) _
    (cycles_of_changes (modTables_changes _ s) hs)
  · unfold scaleWritten
    repeat' split
    all_goals rfl
  · unfold scaleWritten
    repeat' split
    · exact verdictLaw_of_none .empty rfl rfl
    · exact verdictLaw_of_none .disabled rfl rfl
    all_goals exact h

theorem cycles_storeZones (start count : Nat) (v : Vector ZoneEntry 48) (hs : Cycles s) :
    Cycles (s.storeZones start count v) := by
  refine each_rule (Q := Cycles) (fun z {x} hx => ?_) _ (cycles_of_changes (modTables_changes _ s) hs)
  unfold zoneWritten
  refine cycles_doIf (cycles_of_changes (offsetWritten_changes z _)) (cycles_doIf
    (cycles_of_changes (formTarget_changes z _)) (cycles_doIf (cycles_of_alike (alike_immediateHeat z _)) ?_))
  exact cycles_of_alike ((alike_modZone z _ _).trans (alike_modZone z _ _)) hx

theorem cycles_holdAfterCellWrite (hs : Cycles s) : Cycles s.holdAfterCellWrite := by
  have held (f : History → Bool) : Alike s (s.modHistory fun h => { h with hold := f h }) := alike_counts _ s
  unfold holdAfterCellWrite
  repeat' split
  · exact cycles_of_alike (held _) hs
  · exact cycles_of_alike (held _) hs
  · exact cycles_of_alike ((held _).trans (alike_raiseNow _ _ _)) hs
  · exact hs

theorem cycles_writeTo (table : TableId) (start count : Nat) (bytes : List Byte) (hs : Cycles s) :
    Cycles (s.writeTo table start count bytes).1 := by
  have htables (f : Tables → Tables) (hs : Cycles s) : Cycles (s.modTables f) :=
    cycles_of_changes (modTables_changes f s) hs
  unfold writeTo
  cases table with
  | zone => exact Upheld.writeEntries _ _ _ _ (fun _ => Upheld.judgeWrite _ _ (cycles_storeZones _ _ _) hs) hs
  | scale => exact Upheld.writeEntries _ _ _ _ (fun _ => Upheld.judgeWrite _ _ (cycles_storeScales _) hs) hs
  | cell =>
    exact Upheld.writeSingle _ _ (fun _ => Upheld.judgeWrite _ _
      (fun h => cycles_holdAfterCellWrite (htables _ h)) hs) hs
  | node => exact Upheld.writeEntries _ _ _ _ (fun _ => Upheld.judgeWrite _ _ (htables _) hs) hs
  | recipe => exact Upheld.writeEntries _ _ _ _ (fun _ => Upheld.judgeWrite _ _ (htables _) hs) hs
  | mould => exact Upheld.writeEntries _ _ _ _ (fun _ => Upheld.judgeWrite _ _ (htables _) hs) hs
  | press => exact Upheld.writeEntries _ _ _ _ (fun _ => Upheld.judgeWrite _ _ (htables _) hs) hs
  | rate => exact Upheld.writeSingle _ _ (fun _ => Upheld.judgeWrite _ _ (htables _) hs) hs
  | exports => exact Upheld.writeSingle _ _ (fun _ => Upheld.judgeWrite _ _ (htables _) hs) hs

theorem alike_advanceCursor (n : Nat) (s : State) : Alike s (s.advanceCursor n).2 := by
  induction n generalizing s with
  | zero => exact .refl s
  | succ n ih =>
    unfold advanceCursor
    split
    · exact .refl s
    · exact (alike_counts _ s).trans (ih _)

theorem alike_advanceRead (n : Nat) (s : State) : Alike s (s.advanceRead n).1 := by
  unfold advanceRead holdAfterAdvance
  dsimp only
  split
  · exact .refl s
  · refine (alike_advanceCursor n s).trans ?_
    split
    · exact alike_counts _ _
    · exact .refl _

theorem alike_setSerialBase (v : Nat) (s : State) : Alike s (s.setSerialBase v).1 := by
  unfold setSerialBase
  repeat' split
  · exact .refl s
  · exact .refl s
  · exact alike_counts _ s

theorem alike_serveClear (kinds : BitVec 32) (s : State) : Alike s (s.serveClear kinds).1 := by
  refine .of_opened (serveClear_changes kinds s) ?_
  unfold serveClear
  split
  · rfl
  · exact opened_evalAttention _ _

theorem alike_serveEnable (kinds : BitVec 32) (s : State) : Alike s (s.serveEnable kinds).1 := by
  refine .of_opened (serveEnable_changes kinds s) ?_
  unfold serveEnable
  split
  · rfl
  · exact opened_evalAttention _ _

theorem cycles_serveRequest (r : Request) (hs : Cycles s) : Cycles (s.serveRequest r).1 := by
  cases r with
  | readTable | readHistory | readEvents | reset => exact hs
  | writeTable t start count es =>
    unfold serveRequest writeTable
    dsimp only
    split
    · exact hs
    · exact cycles_writeTo _ _ _ _ hs
  | setSetpoint z v => exact Upheld.onZone (fun z => cycles_of_changes (setOverride_changes z _ s) hs) hs
  | clearOverride z => exact Upheld.onZone (fun z => cycles_of_changes (clearOverride_changes z s) hs) hs
  | zoneEnable z =>
    refine Upheld.onZone (fun z => ?_) hs
    unfold zoneEnable
    repeat' split
    · exact hs
    · exact cycles_of_changes (enableZone_changes z s) hs
    · exact hs
  | zoneDisable z =>
    refine Upheld.onZone (fun z => ?_) hs
    unfold zoneDisable
    split
    · exact cycles_disableZone z _ hs
    · exact hs
  | zoneRestore z => exact Upheld.onZone (fun z => cycles_of_changes (zoneRestore_changes z s) hs) hs
  | pressEnable p => exact Upheld.onPress (fun p => cycles_pressEnable p hs) hs
  | pressDisable p => exact Upheld.onPress (fun p => cycles_pressDisable p hs) hs
  | pressReset p => exact Upheld.onPress (fun p => cycles_resetUnit p _ hs) hs
  | forceDemould p => exact Upheld.onPress (fun p => cycles_forceDemould p hs) hs
  | setupOn p => exact Upheld.onPress (fun p => cycles_of_alike (alike_modEjector p _ s) hs) hs
  | setupOff p => exact Upheld.onPress (fun p => cycles_of_alike (alike_modEjector p _ s) hs) hs
  | step p => exact Upheld.onPress (fun p => cycles_ejectStep p hs) hs
  | scaleTare k =>
    refine Upheld.onScale (fun k => ?_) hs
    unfold scaleTare
    dsimp only
    split
    · exact cycles_scaleField k _ hs
    · exact hs
  | readStatus b i n => exact cycles_of_changes (afterStatusRead_changes b i _) hs
  | advanceRead n => exact cycles_of_alike (alike_advanceRead n _) hs
  | setSerialBase v => exact cycles_of_alike (alike_setSerialBase v _) hs
  | lockProfile p b => exact Upheld.onBuffer (fun p b => cycles_of_changes (lockProfile_changes p b _) hs) hs
  | unlockProfile p b => exact Upheld.onBuffer (fun p b => cycles_of_changes (setLock_changes p b _ _) hs) hs
  | readProfile p b i n => exact Upheld.onBuffer (fun p b => by rwa [readProfile_state]) hs
  | clearEvents kinds => exact cycles_of_alike (alike_serveClear kinds _) hs
  | setEventEnable kinds => exact cycles_of_alike (alike_serveEnable kinds _) hs

/-! ## Every action -/

theorem alike_startTransmission (p : Port) (s : State) : Alike s (startTransmission p s) := by
  have hmark (m : Mark) (s : State) : Alike s (markStarts m s) := by
    cases m with
    | plain | resetResponse => exact .refl s
    | heaterOff z n => exact alike_modZone z _ s
    | ejectOff p n => exact alike_modEjector p _ s
  have hframe : Alike s (s.takeFrame p) := by
    unfold takeFrame
    split
    · exact .trans (.of_changes (modPort_changes p _ s)) (hmark _ _)
    · exact .of_changes (modPort_changes p _ s)
    · exact .refl s
    · exact .refl s
  unfold startTransmission
  split
  · cases p
    · exact hframe.trans (alike_exportMoves _)
    · exact hframe.trans (alike_placeOwed _)
  · exact .refl s

/-- A CLOSE that nothing is against finds a charge. -/
theorem state_of_closeReason (h : s.closeReason p = none) : (s.unit p).state = .chargeReady := by
  unfold closeReason at h
  split at h
  · cases h
  · split at h
    · cases h
    · rename_i hne
      exact not_not.mp hne

theorem cycles_frames : FrameRules Cycles Cycles where
  before := cycles_links
  after := cycles_links
  into := id
  thermo n e t z := cycles_zoneTakes n e t z
  scale k n t e := cycles_takeScaleEntry k n t e
  press p r hs _ := cycles_takePress p r hs
  ejector p r hs := cycles_takeEjector p r hs
  close p hs h := cycles_beginCycle p _ (state_of_closeReason h) hs
  opens p hs h := cycles_of_moves .demouldWait .opening (moves_enterOpening p _ _ _) hs h rfl
  aborts p hs h := cycles_of_moves .closing .opening (moves_enterOpening p _ _ _) hs h rfl
  emergency p hs := cycles_gateEmergency p hs
  request r := cycles_serveRequest r

/-- An ejector whose timer runs belongs to a unit in EJECT. -/
theorem state_of_ejectorDue {phase : EjectPhase} {n : Nat} (hne : phase ≠ .stopped) (h : s.ejectorDue p phase n = true)
    (hs : Cycles s) : (s.unit p).state = .eject := by
  unfold ejectorDue at h
  simp only [Bool.and_eq_true, beq_iff_eq] at h
  exact hs.state_of_ejecting (h.1.2 ▸ hne)

theorem cycles_liftExpires (k : ScaleNo) (hs : Cycles s) : Cycles (s.liftExpires k) :=
  cycles_of_weighs (weighs_modScale k _ s rfl fun _ => verdictLaw_of_none .loading rfl rfl) hs

theorem cycles_closeTimerExpires (p : PressNo) (hs : Cycles s) : Cycles (s.closeTimerExpires p) :=
  cycles_setFlag p _ (cycles_of_alike ((alike_modUnit p _ s).trans (alike_raiseNow _ _ _)) hs)

theorem cycles_actions : ActionRules Cycles Cycles where
  frames := cycles_frames
  tick := id
  start p hs := cycles_of_alike (alike_startTransmission p _) hs
  sent p hs := cycles_of_changes (modPort_changes p _ _) hs
  linkOff := id
  windowEnd p hs _ := cycles_windowEnds p hs
  dwell p hs _ := cycles_dwellExpires p hs
  maxCure p hs hdue := cycles_maxCureExpires p hdue hs
  lift k hs _ := cycles_liftExpires k hs
  closeTimer p hs _ := cycles_closeTimerExpires p hs
  compareA p hs h := cycles_reachA p (state_of_ejectorDue (by decide) h hs) hs
  compareB p hs h := cycles_reachB p (state_of_ejectorDue (by decide) h hs) hs
  exports hs := cycles_of_alike (alike_exportMoves _) hs
  ejectOffs hs := cycles_of_alike (alike_placeEjectOffs _) hs
  offs hs := cycles_of_alike (alike_placeOwed _) hs

/-! ## Resets (R193 to R195) -/

/-- Within a WARM reset: the queues are empty, and the presses of a list have been reset. -/
def Clearing (l : List PressNo) (s : State) : Prop :=
  Ordered s ∧ Judged s ∧ (∀ k, presses (s.scale k) = [])
    ∧ ∀ p ∈ l, (s.unit p).state = .idle ∨ (s.unit p).state = .disabled

theorem clearing_resetUnit {l : List PressNo} (p : PressNo) (hs : Clearing l s) :
    Clearing (p :: l) (s.resetUnit p .warmReset) := by
  obtain ⟨hordered, hjudged, hempty, hdone⟩ := hs
  obtain ⟨⟨b, hb, hp⟩, hother, hjudged', hpresses⟩ := resetUnit_resets p .warmReset hordered hjudged
  have hst : ((s.resetUnit p .warmReset).unit p).state = b := congrArg View.state hp
  have hsame (q : PressNo) (hq : q ≠ p) : ((s.resetUnit p .warmReset).unit q).state = (s.unit q).state :=
    congrArg View.state (hother q hq)
  refine ⟨fun q => ?_, hjudged', fun k => ?_, fun q hq => ?_⟩
  · by_cases h : q = p
    · rw [h, hp, hst]
    · rw [hother q h, hsame q h]
      exact hordered q
  · rw [hpresses, hempty]
    split <;> rfl
  · by_cases h : q = p
    · rw [h, hst]
      exact hb
    · rw [hsame q h]
      exact hdone q ((List.mem_cons.mp hq).resolve_left h)

theorem Clearing.mono {l m : List PressNo} (h : Clearing l s) (hlm : ∀ p ∈ m, p ∈ l) : Clearing m s :=
  ⟨h.1, h.2.1, h.2.2.1, fun p hp => h.2.2.2 p (hlm p hp)⟩

theorem clearing_resetUnits (m : List PressNo) {l : List PressNo} (hs : Clearing l s) :
    Clearing (m ++ l) (each (fun p => resetUnit p .warmReset) m s) := by
  induction m generalizing l s with
  | nil => exact hs
  | cons p m ih =>
    refine (ih (clearing_resetUnit p hs)).mono fun q hq => ?_
    simp only [List.cons_append, List.mem_cons, List.mem_append] at hq ⊢
    tauto

theorem warmScales_eq (s : State) : s.warmScales = (s.modScale 0 (scaleWarm (s.scaleEntry 0).enabled)).modScale 1
    (scaleWarm (s.scaleEntry 1).enabled) := rfl

theorem scale_warmScales (k : ScaleNo) (s : State) :
    s.warmScales.scale k = scaleWarm (s.scaleEntry k).enabled (s.scale k) := by
  rw [warmScales_eq]
  match k with
  | 0 => rw [scale_modScale_of_ne _ _ _ (by decide), scale_modScale]
  | 1 => rw [scale_modScale, scale_modScale_of_ne _ _ _ (by decide)]

theorem clearing_warmScales (s : State) (hs : Ordered s) : Clearing [] s.warmScales := by
  refine ⟨warmScales_eq s ▸ hs, fun k => ?_, fun k => ?_, fun _ h => nomatch h⟩
  · rw [scale_warmScales]
    cases (s.scaleEntry k).enabled
    · exact verdictLaw_of_none .disabled rfl rfl
    · exact verdictLaw_of_none .empty rfl rfl
  · rw [scale_warmScales]
    rfl

/-- Every unit has been reset, so none waits for a charge; and no queue holds a press. -/
theorem cycles_of_clearing (h : Clearing (List.finRange 4 ++ []) s) : Cycles s := by
  obtain ⟨hordered, hjudged, hempty, hdone⟩ := h
  have hnone : s.queuedPresses = [] := by rw [queuedPresses_eq, hempty, hempty, List.nil_append]
  refine ⟨hordered, ⟨by rw [hnone]; exact List.nodup_nil, fun p => ?_⟩, hjudged⟩
  rw [hnone]
  refine iff_of_false (List.not_mem_nil) fun hst => ?_
  rcases hdone p (by simp) with h | h <;> rw [hst] at h <;> cases h

theorem alike_warmShell (s : State) : Alike s { warmLocks s with warmTaking := false } := ⟨fun _ => rfl, fun _ => rfl⟩

theorem alike_warmEvents (s : State) : Alike s s.warmEvents := ⟨fun _ => rfl, fun _ => rfl⟩

theorem cycles_warmBody (hs : Ordered s) : Cycles s.warmBody :=
  cycles_of_alike (alike_warmShell _) (cycles_of_clearing (clearing_resetUnits (List.finRange 4)
    (clearing_warmScales { s with exportQueue := [], warmTaking := true } hs)))

theorem ordered_warmQueues (hs : Ordered s) : Ordered s.warmQueues := by
  intro p
  rw [← show view s p = view s.warmQueues p from ?_]
  · exact hs p
  · have hphase : (s.warmQueues.ejector p).phase = (s.ejector p).phase := by
      unfold warmQueues State.ejector
      rw [Fin.getElem_fin, Vector.getElem_map]
      rfl
    unfold view
    rw [hphase]
    rfl

theorem cycles_warmEffect (hs : Cycles s) : Cycles s.warmEffect :=
  cycles_of_alike (alike_exportMoves _) (cycles_of_alike (alike_placeOwed _)
    (cycles_of_alike (alike_warmEvents _) (cycles_warmBody (ordered_warmQueues hs.1))))

theorem cycles_coldShutdown (hs : Cycles s) : Cycles s.coldShutdown := by
  refine cycles_of_alike (alike_placeOwed _) (each_rule (Q := Cycles) (fun p {x} hx => ?_) _
    (each_rule (Q := Cycles) (fun z {x} hx => ?_) _
      (show Cycles { s with resetPending := .idle, shutdown := true } from hs)))
  · unfold shutOffEjector
    split
    · exact cycles_of_alike (alike_oweEjectOff p _) hx
    · exact hx
  · unfold shutOffZone
    split
    · exact cycles_of_changes (createOff_changes z _) (cycles_of_alike (alike_modZone z _ _) hx)
    · exact hx

theorem cycles_coldEffect (s : State) : Cycles s.coldEffect := cycleLaw_iff.mp Steps.atReset_cycleLaw

theorem cycles_due : DueRules Cycles where
  warm hs _ := cycles_warmEffect hs
  shutdown hs _ := cycles_coldShutdown hs
  cold _ := cycles_coldEffect _

theorem step_cycles (hs : Cycles s) (h : step s = .next t) : Cycles t :=
  step_keeps (fun _ => id)
    (exec_keeps (Q := Cycles) (fun h _ => h) id id (fun _ => id) (fun _ => cycles_coldEffect _) cycles_due
      cycles_actions) hs h

/-- Settles O8: every operation that takes a unit from one state to another makes what the unit holds fit. -/
theorem stepKeepsCycleLaw : Obligations.StepKeepsCycleLaw := fun _ _ hs h =>
  cycleLaw_iff.mpr (step_cycles (cycleLaw_iff.mp hs) h)

end Sys2Proof.Proofs.CycleLaw
end

