-- ==== Sys2Proof/Proofs/CureProgress.lean ====
section
/-! PROOFS. The progress of a cure.

Two things are followed from the state that a step begins in: what may become of each cure context (`Kept`), with the
law that progress is at most every INCLUDED zone's accumulator (`Cooks`); and that no operation before the one that
reads a press's frame puts its unit in CLOSING (`Closes`). A cure that starts is then one whose unit was CLOSING at the
step's begin, and whose accumulators are all 0 (`Begun`). -/

namespace Sys2Proof.Proofs.CureProgress

set_option Elab.async false

open Sys2Proof.Machine Sys2Proof.Machine.State Sys2Proof.Proofs.StepRules Sys2Proof.Proofs.CycleViews
  Sys2Proof.Proofs.RequestChanges Sys2Proof.Proofs.CycleLaw Sys2Proof.Proofs.UpheldLaws

variable {s t u x : State} {p q : PressNo}

/-! ## What becomes of a cure context -/

/-- Progress never falls within a cure, and is kept after it; a context that has no status keeps none. -/
def Kept (c d : Cure) : Prop :=
  d.status = .none ∨ (c.status ≠ .none ∧ (c.status = .accruing → c.progress ≤ d.progress)
    ∧ (c.status ≠ .accruing → d.status ≠ .accruing ∧ d.progress = c.progress))

theorem Kept.refl (c : Cure) : Kept c c := by
  by_cases h : c.status = .none
  · exact .inl h
  · exact .inr ⟨h, fun _ => Nat.le_refl _, fun h => ⟨h, rfl⟩⟩

theorem Kept.trans {c d e : Cure} (h : Kept c d) (g : Kept d e) : Kept c e := by
  rcases g with he | ⟨hd, hacc, hoff⟩
  · exact .inl he
  · obtain ⟨hc, hacc', hoff'⟩ := h.resolve_left hd
    refine .inr ⟨hc, fun ha => ?_, fun ha => ?_⟩
    · by_cases hda : d.status = .accruing
      · exact (hacc' ha).trans (hacc hda)
      · exact (hacc' ha).trans (Nat.le_of_eq (hoff hda).2.symm)
    · obtain ⟨hda, hp⟩ := hoff' ha
      exact ⟨(hoff hda).1, (hoff hda).2.trans hp⟩

/-- A cure that ended stays ended. -/
theorem Kept.not_accruing {c d : Cure} (h : Kept c d) (hc : c.status ≠ .accruing) : d.status ≠ .accruing := by
  rcases h with h | ⟨_, _, h⟩
  · rw [h]; decide
  · exact (h hc).1

/-- A change of other items, or of the status of a cure that accrues. -/
theorem kept_of_progress {c d : Cure} (hp : d.progress = c.progress)
    (hst : d.status = c.status ∨ c.status = .accruing) : Kept c d := by
  rcases hst with h | h
  · by_cases hn : c.status = .none
    · exact .inl (h.trans hn)
    · exact .inr ⟨hn, fun _ => Nat.le_of_eq hp.symm, fun ha => ⟨h ▸ ha, hp⟩⟩
  · exact .inr ⟨by rw [h]; decide, fun _ => Nat.le_of_eq hp.symm, fun ha => absurd h ha⟩

/-! ## The law of progress, and the contexts that a step began with -/

/-- No accumulator is above its top. -/
def Capped (s : State) : Prop := ∀ z, (s.accrual z).accumulator ≤ Config.max32

/-- Every cure context is as `Kept` says of the one in `s`, and the law of progress holds. -/
def Cooks (s x : State) : Prop := x.ProgressLaw ∧ Capped x ∧ ∀ p, Kept (s.cure p) (x.cure p)

theorem Cooks.refl (h : s.ProgressLaw) (hc : Capped s) : Cooks s s := ⟨h, hc, fun _ => .refl _⟩

theorem cooks_of_cures (hc : u.cures = t.cures) (ha : u.accruals = t.accruals) (hs : Cooks s t) : Cooks s u := by
  unfold Cooks ProgressLaw Capped cure accrual at *
  rwa [hc, ha]

theorem cooks_of_changes {k : List Part} (h : OnlyChanges k t u) (hs : Cooks s t)
    (hk : Part.cures ∉ k ∧ Part.accruals ∉ k := by decide) : Cooks s u :=
  cooks_of_cures (h .cures hk.1).symm (h .accruals hk.2).symm hs

theorem cooks_modCure (p : PressNo) (f : Cure → Cure) (hs : Cooks s t)
    (hp : (f (t.cure p)).progress = (t.cure p).progress)
    (hst : (f (t.cure p)).status = (t.cure p).status ∨ (t.cure p).status = .accruing) : Cooks s (t.modCure p f) := by
  obtain ⟨hlaw, hcap, hkept⟩ := hs
  have hkept' (q : PressNo) : Kept (t.cure q) ((t.modCure p f).cure q) := by
    by_cases h : q = p
    · rw [h, cure_modCure]
      exact kept_of_progress hp hst
    · rw [cure_modCure_of_ne _ _ _ h]
      exact .refl _
  refine ⟨fun z hz hin => ?_, hcap, fun q => (hkept q).trans (hkept' q)⟩
  by_cases h : pressOf z = p
  · subst h
    rw [cure_modCure] at hz ⊢
    rw [hp]
    exact hlaw z (hst.elim (fun h => h ▸ hz) id) hin
  · rw [cure_modCure_of_ne _ _ _ h] at hz ⊢
    exact hlaw z hz hin

/-- A zone that leaves the cure, or accumulates. -/
theorem cooks_modAccrual (z : ZoneNo) (f : Accrual → Accrual) (hs : Cooks s t)
    (hcap : (f (t.accrual z)).accumulator ≤ Config.max32)
    (hin : (t.cure (pressOf z)).status = .accruing → (f (t.accrual z)).inclusion = .included →
      (t.accrual z).inclusion = .included ∧ (t.accrual z).accumulator ≤ (f (t.accrual z)).accumulator) :
    Cooks s (t.modAccrual z f) := by
  obtain ⟨hlaw, hcap', hkept⟩ := hs
  refine ⟨fun y hy hinc => ?_, fun y => ?_, hkept⟩
  · by_cases h : y = z
    · subst h
      rw [accrual_modAccrual] at hinc ⊢
      obtain ⟨h1, h2⟩ := hin hy hinc
      exact (hlaw y hy h1).trans h2
    · rw [accrual_modAccrual_of_ne _ _ _ h] at hinc ⊢
      exact hlaw y hy hinc
  · by_cases h : y = z
    · subst h
      rwa [accrual_modAccrual]
    · rw [accrual_modAccrual_of_ne _ _ _ h]
      exact hcap' y

theorem cooks_doIf {c : Bool} {g : State → State} (h : Cooks s t → Cooks s (g t)) (hs : Cooks s t) :
    Cooks s (doIf c g t) :=
  doIf_rule (fun hs _ => h hs) id hs

theorem cooks_setFlag (p : PressNo) (f : RecordFlag) (hs : Cooks s t) : Cooks s (t.setFlag p f) :=
  cooks_of_changes (setFlag_changes p f t) hs

theorem cooks_raise (tm : Time) (k : EventKind) (i : EventOn) (hs : Cooks s t) : Cooks s (t.raise tm k i) :=
  cooks_of_changes (raise_changes tm k i t) hs

/-! ## The least accumulator -/

theorem foldl_min_le {n : Nat} : ∀ (cs : List Nat) (c : Nat), n ∈ c :: cs → cs.foldl min c ≤ n
  | [], c, h => by simp_all
  | d :: cs, c, h => by
    rw [List.foldl_cons]
    rcases List.mem_cons.mp h with rfl | h
    · exact (foldl_min_le cs _ List.mem_cons_self).trans (Nat.min_le_left _ _)
    · rcases List.mem_cons.mp h with rfl | h
      · exact (foldl_min_le cs _ List.mem_cons_self).trans (Nat.min_le_right _ _)
      · exact foldl_min_le cs _ (List.mem_cons_of_mem _ h)

theorem foldl_min_mem : ∀ (cs : List Nat) (c : Nat), cs.foldl min c ∈ c :: cs
  | [], c => by simp
  | d :: cs, c => by
    rw [List.foldl_cons]
    rcases List.mem_cons.mp (foldl_min_mem cs (min c d)) with h | h
    · rcases Nat.le_total c d with hcd | hcd
      · rw [h, Nat.min_eq_left hcd]; simp
      · rw [h, Nat.min_eq_right hcd]; simp
    · exact List.mem_cons_of_mem _ (List.mem_cons_of_mem _ h)

theorem mem_includedZones {z : ZoneNo} :
    z ∈ s.includedZones p ↔ pressOf z = p ∧ (s.accrual z).inclusion = .included := by
  unfold includedZones
  rw [List.mem_filter, CloseConditions.mem_zonesOf, beq_iff_eq]

/-- The least accumulator is an INCLUDED zone's, and none is less. -/
theorem leastAccumulator_spec {c : Nat} (h : s.leastAccumulator p = some c) :
    (∃ z, pressOf z = p ∧ (s.accrual z).inclusion = .included ∧ (s.accrual z).accumulator = c)
      ∧ ∀ z, pressOf z = p → (s.accrual z).inclusion = .included → c ≤ (s.accrual z).accumulator := by
  unfold leastAccumulator at h
  split at h
  · cases h
  · rename_i d cs hmap
    cases h
    constructor
    · have hmem := foldl_min_mem cs d
      rw [← hmap, List.mem_map] at hmem
      obtain ⟨z, hz, hacc⟩ := hmem
      obtain ⟨hp, hin⟩ := mem_includedZones.mp hz
      exact ⟨z, hp, hin, hacc⟩
    · intro z hp hin
      refine foldl_min_le cs d ?_
      rw [← hmap]
      exact List.mem_map_of_mem (mem_includedZones.mpr ⟨hp, hin⟩)

/-- Progress is recomputed within a cure: it was at most every INCLUDED zone's accumulator, and is so again. -/
theorem cooks_recomputeProgress (p : PressNo) (hacc : (t.cure p).status = .accruing) (hs : Cooks s t) :
    Cooks s (t.recomputeProgress p) := by
  unfold recomputeProgress
  split
  · rename_i c hleast
    obtain ⟨⟨z, hz, hin, hc⟩, hmin⟩ := leastAccumulator_spec hleast
    obtain ⟨hlaw, hcap, hkept⟩ := hs
    refine ⟨fun y hy hyin => ?_, hcap, fun q => ?_⟩
    · by_cases h : pressOf y = p
      · rw [h, cure_modCure]
        exact hmin y h hyin
      · rw [cure_modCure_of_ne _ _ _ h] at hy ⊢
        exact hlaw y hy hyin
    · by_cases h : q = p
      · subst h
        rw [cure_modCure]
        refine (hkept q).trans (.inr ⟨by rw [hacc]; decide, fun _ => ?_, fun h => absurd hacc h⟩)
        have hle := hlaw z (hz ▸ hacc) hin
        rw [hz, hc] at hle
        exact hle
      · rw [cure_modCure_of_ne _ _ _ h]
        exact hkept q
  · exact hs

/-! ## The cure's operations (section 5) -/

theorem cooks_endCure (p : PressNo) (tm : Time) (hs : Cooks s t) : Cooks s (t.endCure p tm) := by
  refine cooks_of_changes (modRecord_changes p _ _) (cooks_modCure p _ hs rfl ?_)
  dsimp only
  split
  · exact .inr ‹_›
  · exact .inl rfl

theorem cooks_permitTest (p : PressNo) (tm : Time) (hs : Cooks s t) : Cooks s (t.permitTest p tm) := by
  unfold permitTest
  split
  · rename_i hpass
    have hacc : (t.cure p).status = .accruing := by
      unfold permitPasses at hpass
      simp only [Bool.and_eq_true, beq_iff_eq] at hpass
      exact hpass.1.1.1
    exact cooks_of_changes (modUnit_changes p _ _) (cooks_endCure p tm (cooks_raise _ _ _
      (cooks_modCure p _ hs rfl (.inr hacc))))
  · exact hs

theorem cooks_loseCure (p : PressNo) (tm : Time) (hs : Cooks s t) : Cooks s (t.loseCure p tm) :=
  cooks_setFlag p _ (cooks_raise _ _ _ (cooks_modCure p _ hs rfl (.inl rfl)))

theorem cure_modRecord (p q : PressNo) (f : Record → Record) (s : State) : (s.modRecord p f).cure q = s.cure q := by
  unfold cure
  rw [modRecord_cures]

theorem cooks_excludeZone (z : ZoneNo) (tm : Time) (hs : Cooks s t) : Cooks s (t.excludeZone z tm) := by
  unfold excludeZone
  dsimp only
  split
  · rename_i h
    have hexcluded (g : Record → Record) : Cooks s (((t.modAccrual z fun a => { a with inclusion := .excluded }).modCure
        (pressOf z) fun x => { x with excluded := x.excluded + 1 }).modRecord (pressOf z) g) :=
      cooks_of_changes (modRecord_changes _ _ _) (cooks_modCure _ _
        (cooks_modAccrual z _ hs (hs.2.1 z) fun _ h => nomatch h) rfl (.inl rfl))
    split
    · exact cooks_loseCure _ _ (hexcluded _)
    · refine cooks_permitTest _ _ (cooks_recomputeProgress _ ?_ (hexcluded _))
      rw [cure_modRecord, cure_modCure]
      exact h.2
  · exact hs

theorem accrueStep_grows (factor dt : Nat) {a : Accrual} (h : a.accumulator ≤ Config.max32) :
    (accrueStep factor dt a).accumulator ≤ Config.max32 ∧ a.accumulator ≤ (accrueStep factor dt a).accumulator
      ∧ (accrueStep factor dt a).inclusion = a.inclusion := by
  unfold accrueStep
  dsimp only
  split
  · exact ⟨Nat.le_refl _, h, rfl⟩
  · refine ⟨?_, Nat.le_add_right _ _, rfl⟩
    dsimp only
    omega

theorem cooks_accrue (z : ZoneNo) (m : Int) (tm : Time) (hacc : (t.cure (pressOf z)).status = .accruing)
    (hs : Cooks s t) : Cooks s (t.accrue z m tm) := by
  have hraised : ∀ c : Bool, Cooks s (doIf c (raise tm .sampleGap (.zone z)) t) := fun c =>
    cooks_doIf (cooks_raise _ _ _) hs
  have hsame : ∀ c : Bool, (doIf c (raise tm .sampleGap (.zone z)) t).cure (pressOf z) = t.cure (pressOf z) := by
    intro c
    cases c
    · rfl
    · exact congrArg (fun v : Vector Cure 4 => v[pressOf z])
        (raise_changes tm .sampleGap (.zone z) t .cures (by decide)).symm
  unfold accrue
  dsimp only
  refine cooks_permitTest _ _ (cooks_recomputeProgress _ ?_ (cooks_modAccrual z _ (hraised _) ?_ fun _ hin => ?_))
  · exact (congrArg Cure.status (hsame _)).trans hacc
  · exact (accrueStep_grows _ _ ((hraised _).2.1 z)).1
  · obtain ⟨_, hgrows, hinc⟩ := accrueStep_grows (t.factorAt (pressOf z) m)
      (min (t.accrualInterval z tm) (t.pressEntry (pressOf z)).maxGap) ((hraised (decide
        ((t.pressEntry (pressOf z)).maxGap < t.accrualInterval z tm))).2.1 z)
    exact ⟨hinc ▸ hin, hgrows⟩

theorem cooks_takeHanded (z : ZoneNo) (m : Int) (tm : Time) (hs : Cooks s t) : Cooks s (t.takeHanded z m tm) := by
  have hsame (c : Cure) : (statistics (isUpper z) m c).status = c.status
      ∧ (statistics (isUpper z) m c).progress = c.progress := by
    unfold statistics
    split
    · exact ⟨rfl, rfl⟩
    · exact ⟨rfl, rfl⟩
  unfold takeHanded
  dsimp only
  split
  · rename_i hacc
    have hrecorded (g : Record → Record) :
        Cooks s ((t.modCure (pressOf z) (statistics (isUpper z) m)).modRecord (pressOf z) g) :=
      cooks_of_changes (modRecord_changes _ _ _) (cooks_modCure _ _ hs (hsame _).2 (.inl (hsame _).1))
    split
    · refine cooks_accrue z m tm ?_ (hrecorded _)
      rw [cure_modRecord, cure_modCure, (hsame _).1]
      exact hacc
    · exact hrecorded _
  · exact hs

theorem cooks_dwellExpires (p : PressNo) (hs : Cooks s t) : Cooks s (t.dwellExpires p) :=
  cooks_permitTest p _ (cooks_modCure p _ hs rfl (.inl rfl))

theorem cooks_maxCureExpires (p : PressNo) (hdue : t.maxCureDue p = true) (hs : Cooks s t) :
    Cooks s (t.maxCureExpires p) := by
  have hacc : (t.cure p).status = .accruing := by
    unfold maxCureDue at hdue
    simp only [Bool.and_eq_true, beq_iff_eq] at hdue
    exact hdue.1.2
  have hmet : Cooks s (t.modCure p fun x => { x with dwellMet := true }) := cooks_modCure p _ hs rfl (.inl rfl)
  unfold maxCureExpires timeOutCure
  dsimp only
  split
  · exact cooks_permitTest p _ hmet
  · refine cooks_of_changes (modUnit_changes p _ _) (cooks_endCure p _ (cooks_setFlag p _ (cooks_raise _ _ _
      (cooks_modCure p _ hmet rfl (.inr ?_)))))
    rw [cure_modCure]
    exact hacc

/-! ## Zones and scales (sections 4 and 6): what the two relations both need -/

section

variable {Q : State → Prop}

/-- A sample of a zone hands its value to the cure, and changes nothing else that the two relations see. -/
theorem zoneTakes_rule (quiet : ∀ {x y}, OnlyChanges (.zones :: netParts) x y → Q x → Q y)
    (handed : ∀ z m tm {x}, Q x → Q (x.takeHanded z m tm)) (node : Nat) (e : ChannelEntry) (tm : Time) (z : ZoneNo)
    (hs : Q s) : Q (s.zoneTakes node e tm z) := by
  have zone (f : Zone → Zone) {x : State} (hx : Q x) : Q (x.modZone z f) :=
    quiet ((modZone_changes z f x).mono (by decide)) hx
  have switched {x : State} (hx : Q x) : Q (x.raiseSwitch z tm) :=
    quiet ((raiseSwitch_changes z tm x).mono (by decide)) hx
  have finished (m : Int) {x : State} (hx : Q x) : Q (x.finishSample z m tm) :=
    handed z m tm (quiet ((deviationTest_changes z m tm _).mono (by decide)) (zone _ hx))
  have regulated (m : Int) {x : State} (hx : Q x) : Q (x.regulate z m tm) :=
    quiet ((regulate_changes z m tm x).mono (by decide)) hx
  have regulating (m : Int) {x : State} (hx : Q x) : Q (x.sampleRegulating z m tm) := by
    refine finished m ?_
    split
    · exact quiet ((overtempEntry_changes z tm _).mono (by decide)) (zone _ hx)
    · exact regulated m (zone _ hx)
  have overtemp (m : Int) {x : State} (hx : Q x) : Q (x.sampleOvertemp z m tm) := by
    refine finished m ?_
    split
    · exact regulated m (zone _ (zone _ hx))
    · exact zone _ hx
  have lost (a : ActiveSensor) (m : Int) {x : State} (hx : Q x) : Q (x.sampleLost z a m tm) :=
    regulating m (zone _ (doIf_rule (fun h _ => switched h) id (zone _ hx)))
  have fault {x : State} (hx : Q x) : Q (x.sensorFault z tm) := quiet ((sensorFault_changes z tm x).mono (by decide)) hx
  unfold zoneTakes treatEntry
  dsimp only
  split
  · rename_i sensor _
    have h1 := quiet ((recordEntry_changes z sensor { status := judgedStatus e, value := e.value, arrival := tm } s).mono
      (by decide)) hs
    split
    · exact h1
    · exact lost sensor _ h1
    · exact h1
    · split
      · exact regulating _ h1
      · exact h1
    · split
      · exact regulating _ h1
      · exact h1
    · split
      · exact overtemp _ h1
      · exact h1
    · split
      · exact fault h1
      · exact h1
  · exact hs

/-- A scale's entry hands a charge over by `release`, and changes nothing else that the two relations see. -/
theorem takeScaleEntry_rule (quiet : ∀ {x y}, OnlyChanges (.scales :: netParts) x y → Q x → Q y)
    (released : ∀ k g tm {x}, Q x → Q (x.release k g tm)) (k : ScaleNo) (node : Nat) (tm : Time) (e : ChannelEntry)
    (hs : Q s) : Q (s.takeScaleEntry k node tm e) := by
  have scaled (f : Scale → Scale) {x : State} (hx : Q x) : Q (x.modScale k f) :=
    quiet ((modScale_changes k f x).mono (by decide)) hx
  have gross (g : Int) {x : State} (hx : Q x) : Q (x.takeGross k g tm) := by
    unfold takeGross grossVerdict grossLifting
    dsimp only
    repeat' split
    all_goals first
      | exact hx
      | exact scaled _ hx
      | exact released k g tm hx
      | exact quiet ((toOverload_changes k x).mono (by decide)) hx
      | exact quiet ((grossEmpty_changes k g x).mono (by decide)) hx
      | exact quiet ((grossLoading_changes k g x).mono (by decide)) hx
      | exact quiet ((toLifting_changes k g tm x).mono (by decide)) hx
      | exact quiet ((grossOverload_changes k g x).mono (by decide)) hx
      | exact quiet ((evaluateTo_changes k _ _).mono (by decide)) (scaled _ (scaled _ hx))
  have pair (a b : Int) {x : State} (hx : Q x) : Q (x.takePair k a b tm) := by
    unfold takePair
    split
    · split
      · exact quiet ((pairAgreesMismatch_changes k _ x).mono (by decide)) hx
      · exact gross _ hx
    · exact quiet ((pairDisagrees_changes k x).mono (by decide)) hx
  have skipped {x : State} (hx : Q x) : Q (x.skip k) := quiet ((skip_changes k x).mono (by decide)) hx
  have single (mode : ScaleMode) (a : Int) {x : State} (hx : Q x) : Q (x.takeA k mode a tm) := by
    unfold takeA
    split
    · exact gross a hx
    all_goals exact scaled _ hx
  have second (mode : ScaleMode) (b : Int) {x : State} (hx : Q x) : Q (x.takeB k mode b tm) := by
    unfold takeB
    split
    · exact hx
    · exact skipped hx
    · exact gross _ (scaled _ hx)
    · exact pair _ _ (scaled _ hx)
  unfold takeScaleEntry takeChannelA takeChannelB
  dsimp only
  split
  · split
    · exact scaled _ hs
    · split
      · exact single _ _ (scaled _ hs)
      · exact skipped (scaled _ (scaled _ hs))
  · split
    · split
      · exact scaled _ hs
      · split
        · exact second _ _ (scaled _ hs)
        · exact skipped (scaled _ hs)
    · exact hs

end

/-! ## Zones (section 4) -/

theorem cooks_zoneTakes (node : Nat) (e : ChannelEntry) (tm : Time) (z : ZoneNo) (hs : Cooks s t) :
    Cooks s (t.zoneTakes node e tm z) :=
  zoneTakes_rule (fun h => cooks_of_changes h) (fun z m tm _ => cooks_takeHanded z m tm) node e tm z hs

theorem cooks_loseZone (z : ZoneNo) (tm : Time) (hs : Cooks s t) : Cooks s (t.loseZone z tm) :=
  cooks_excludeZone z tm (cooks_raise _ _ _ (cooks_of_changes (modZone_changes z _ _) hs))

theorem cooks_failoverOrLose (z : ZoneNo) (tm : Time) (hs : Cooks s t) : Cooks s (t.failoverOrLose z tm) := by
  unfold failoverOrLose
  repeat' split
  · exact cooks_of_changes (switchToBackup_changes z tm _) (cooks_of_changes (modZone_changes z _ _) hs)
  · exact cooks_loseZone z tm hs
  · exact hs

theorem cooks_zoneWindowEnd (tm : Time) (z : ZoneNo) (hs : Cooks s t) : Cooks s (t.zoneWindowEnd tm z) :=
  cooks_of_changes (commitAndRamp_changes z _) (cooks_doIf (cooks_failoverOrLose z tm)
    (cooks_of_changes (modZone_changes z _ _) hs))

theorem cooks_windowEnds (p : PressNo) (hs : Cooks s t) : Cooks s (t.windowEnds p) := by
  unfold windowEnds
  dsimp only
  refine cooks_of_changes (windowEndHistory_changes p _ _) (cooks_of_changes (sendHeatFrames_changes p _) ?_)
  exact each_rule (Q := Cooks s) (fun z {_} => cooks_zoneWindowEnd _ z) _
    (cooks_of_changes (nextWindow_changes p _ t) hs)

theorem cooks_disableZone (z : ZoneNo) (tm : Time) (hs : Cooks s t) : Cooks s (t.disableZone z tm) :=
  cooks_excludeZone z tm (cooks_of_changes (stopWindow_changes _ _) (cooks_of_changes (placeOwed_changes _)
    (cooks_of_changes (createOff_changes z _) (cooks_of_changes (modZone_changes z _ t) hs))))

/-! ## Units (section 7) -/

theorem cooks_forceDemould (p : PressNo) (hs : Cooks s t) : Cooks s (t.forceDemould p).1 := by
  unfold forceDemould
  split
  · exact cooks_of_changes (modUnit_changes p _ _) (cooks_setFlag p _ (cooks_endCure p _ hs))
  · exact hs

theorem cooks_gateEmergency (p : PressNo) (hs : Cooks s t) : Cooks s (t.gateEmergency p) := by
  have hraised : Cooks s (raiseNow .emergencyOpen (.press p) t) := cooks_raise _ _ _ hs
  have hopened {x : State} (hx : Cooks s x) : Cooks s (x.emergencyOpening p) :=
    cooks_of_changes (emergencyOpening_changes p x) hx
  unfold gateEmergency
  dsimp only
  split
  · exact hopened hraised
  · exact hopened hraised
  · exact hopened (cooks_endCure p _ hraised)
  all_goals exact hraised

theorem cooks_resetUnit (p : PressNo) (c : CloseCause) (hs : Cooks s t) : Cooks s (t.resetUnit p c) := by
  unfold resetUnit cutCycle
  split
  · exact hs
  · exact cooks_of_changes (modUnit_changes p _ _) hs
  · exact cooks_of_changes (modUnit_changes p _ _) (cooks_of_changes (giveUpCharge_changes p _)
      (cooks_doIf (fun h => cooks_of_changes (closeRecord_changes p c _ _) h)
        (cooks_doIf (fun h => cooks_of_changes (cutEjection_changes p _) h) (cooks_doIf (cooks_endCure p _) hs))))

/-! ## Requests and resets -/

theorem cooks_modTables (f : Tables → Tables) (hs : Cooks s t) : Cooks s (t.modTables f) := hs

theorem cooks_writeTo (table : TableId) (start count : Nat) (bytes : List Byte) (hs : Cooks s t) :
    Cooks s (t.writeTo table start count bytes).1 := by
  unfold writeTo
  cases table with
  | zone =>
    exact Upheld.writeEntries _ _ _ _ (fun _ => Upheld.judgeWrite _ _
      (fun h => cooks_of_changes (storeZones_changes _ _ _ _) h) hs) hs
  | scale =>
    exact Upheld.writeEntries _ _ _ _ (fun _ => Upheld.judgeWrite _ _
      (fun h => cooks_of_changes (storeScales_changes _ _) h) hs) hs
  | cell =>
    exact Upheld.writeSingle _ _ (fun _ => Upheld.judgeWrite _ _
      (fun h => cooks_of_changes (holdAfterCellWrite_changes _) (cooks_modTables _ h)) hs) hs
  | node => exact Upheld.writeEntries _ _ _ _ (fun _ => Upheld.judgeWrite _ _ (cooks_modTables _) hs) hs
  | recipe => exact Upheld.writeEntries _ _ _ _ (fun _ => Upheld.judgeWrite _ _ (cooks_modTables _) hs) hs
  | mould => exact Upheld.writeEntries _ _ _ _ (fun _ => Upheld.judgeWrite _ _ (cooks_modTables _) hs) hs
  | press => exact Upheld.writeEntries _ _ _ _ (fun _ => Upheld.judgeWrite _ _ (cooks_modTables _) hs) hs
  | rate => exact Upheld.writeSingle _ _ (fun _ => Upheld.judgeWrite _ _ (cooks_modTables _) hs) hs
  | exports => exact Upheld.writeSingle _ _ (fun _ => Upheld.judgeWrite _ _ (cooks_modTables _) hs) hs

theorem cooks_serveRequest (r : Request) (hs : Cooks s t) : Cooks s (t.serveRequest r).1 := by
  cases r with
  | readTable | readHistory | readEvents | reset => exact hs
  | writeTable table start count es =>
    unfold serveRequest writeTable
    dsimp only
    split
    · exact hs
    · exact cooks_writeTo _ _ _ _ hs
  | setSetpoint z v => exact Upheld.onZone (fun z => cooks_of_changes (setOverride_changes z _ t) hs) hs
  | clearOverride z => exact Upheld.onZone (fun z => cooks_of_changes (clearOverride_changes z t) hs) hs
  | zoneEnable z =>
    refine Upheld.onZone (fun z => ?_) hs
    unfold zoneEnable
    repeat' split
    · exact hs
    · exact cooks_of_changes (enableZone_changes z t) hs
    · exact hs
  | zoneDisable z =>
    refine Upheld.onZone (fun z => ?_) hs
    unfold zoneDisable
    split
    · exact cooks_disableZone z _ hs
    · exact hs
  | zoneRestore z => exact Upheld.onZone (fun z => cooks_of_changes (zoneRestore_changes z t) hs) hs
  | pressEnable p => exact Upheld.onPress (fun p => cooks_of_changes (pressEnable_changes p t) hs) hs
  | pressDisable p => exact Upheld.onPress (fun p => cooks_of_changes (pressDisable_changes p t) hs) hs
  | pressReset p => exact Upheld.onPress (fun p => cooks_resetUnit p _ hs) hs
  | forceDemould p => exact Upheld.onPress (fun p => cooks_forceDemould p hs) hs
  | setupOn p => exact Upheld.onPress (fun p => cooks_of_changes (setSetup_changes p _ t) hs) hs
  | setupOff p => exact Upheld.onPress (fun p => cooks_of_changes (setSetup_changes p _ t) hs) hs
  | step p => exact Upheld.onPress (fun p => cooks_of_changes (ejectStep_changes p t) hs) hs
  | scaleTare k => exact Upheld.onScale (fun k => cooks_of_changes (scaleTare_changes k t) hs) hs
  | readStatus b i n => exact cooks_of_changes (afterStatusRead_changes b i _) hs
  | advanceRead n => exact cooks_of_changes (advanceRead_changes n _) hs
  | setSerialBase v => exact cooks_of_changes (setSerialBase_changes v _) hs
  | lockProfile p b => exact Upheld.onBuffer (fun p b => cooks_of_changes (lockProfile_changes p b _) hs) hs
  | unlockProfile p b => exact Upheld.onBuffer (fun p b => cooks_of_changes (setLock_changes p b _ _) hs) hs
  | readProfile p b i n => exact Upheld.onBuffer (fun p b => by rwa [readProfile_state]) hs
  | clearEvents kinds => exact cooks_of_changes (serveClear_changes kinds _) hs
  | setEventEnable kinds => exact cooks_of_changes (serveEnable_changes kinds _) hs

theorem cooks_startTransmission (p : Port) (hs : Cooks s t) : Cooks s (startTransmission p t) := by
  have hmark (m : Mark) {x : State} (hx : Cooks s x) : Cooks s (markStarts m x) := by cases m <;> exact hx
  have hport (f : PortState → PortState) : Cooks s (t.modPort p f) := cooks_of_changes (modPort_changes p f t) hs
  have hframe : Cooks s (t.takeFrame p) := by
    unfold takeFrame
    split
    · exact hmark _ (hport _)
    · exact hport _
    · exact hs
    · exact hs
  unfold startTransmission
  split
  · cases p
    · exact cooks_of_changes (exportMoves_changes _) hframe
    · exact cooks_of_changes (placeOwed_changes _) hframe
  · exact hs

theorem cooks_warmShell (hs : Cooks s t) : Cooks s { warmLocks t with warmTaking := false } := hs

theorem cooks_warmBody (hs : Cooks s t) : Cooks s t.warmBody :=
  cooks_warmShell (each_rule (Q := Cooks s) (fun p {_} => cooks_resetUnit p _) _
    (show Cooks s (warmScales { t with exportQueue := [], warmTaking := true }) from warmScales_eq _ ▸ hs))

theorem cooks_warmEvents (hs : Cooks s t) : Cooks s t.warmEvents := hs

theorem cooks_warmEffect (hs : Cooks s t) : Cooks s t.warmEffect :=
  cooks_of_changes (exportMoves_changes _) (cooks_of_changes (placeOwed_changes _)
    (cooks_warmEvents (cooks_warmBody (show Cooks s t.warmQueues from hs))))

theorem coldShutdown_changes (t : State) :
    OnlyChanges [.resetPending, .shutdown, .zones, .ejectors, .offNumber, .portD] t t.coldShutdown := by
  refine .before ?_ (by decide) (placeOwed_changes _)
  refine .each (fun p x => ?_) _ (.each (fun z x => ?_) _ fun y hy => ?_)
  · unfold shutOffEjector
    split
    · exact (oweEjectOff_changes p x).mono (by decide)
    · exact .refl _
  · unfold shutOffZone
    split
    · exact .before ((modZone_changes z _ x).mono (by decide)) (by decide) (createOff_changes z _)
    · exact .refl _
  · cases y <;> first | rfl | exact absurd hy (by decide)

theorem cooks_coldEffect (s t : State) : Cooks s t.coldEffect := by
  have hnone (p : PressNo) : (t.coldEffect.cure p).status = .none := by
    simp [cure, coldEffect, State.atPowerOn, Cure.atReset]
  refine ⟨fun z hz => absurd hz (by rw [hnone]; decide), fun z => ?_, fun p => .inl (hnone p)⟩
  simp [accrual, coldEffect, State.atPowerOn, Accrual.atReset]

/-! ## No unit gets to CLOSING before a press's frame is read -/

/-- A unit that is CLOSING was so at the step's begin, and no time has passed. -/
def Closes (s x : State) : Prop :=
  ∀ p, (x.unit p).state = .closing → (s.unit p).state = .closing ∧ x.timebase = s.timebase

theorem closes_of_changes {k : List Part} (h : OnlyChanges k t u) (hs : Closes s t)
    (hk : Part.units ∉ k ∧ Part.timebase ∉ k := by decide) : Closes s u := by
  have hunits : t.units = u.units := h .units hk.1
  have htime : t.timebase = u.timebase := h .timebase hk.2
  unfold Closes unit at *
  rwa [← hunits, ← htime]

theorem closes_modUnit (p : PressNo) (f : PressUnit → PressUnit)
    (hf : (f (t.unit p)).state = .closing → (t.unit p).state = .closing) (hs : Closes s t) :
    Closes s (t.modUnit p f) := by
  intro q hq
  by_cases h : q = p
  · subst h
    rw [unit_modUnit] at hq
    exact hs q (hf hq)
  · rw [unit_modUnit_of_ne _ _ _ h] at hq
    exact hs q hq

theorem closes_doIf {c : Bool} {g : State → State} (h : Closes s t → Closes s (g t)) (hs : Closes s t) :
    Closes s (doIf c g t) :=
  doIf_rule (fun hs _ => h hs) id hs

theorem closes_endCure (p : PressNo) (tm : Time) (hs : Closes s t) : Closes s (t.endCure p tm) :=
  closes_of_changes (endCure_changes p tm t) hs

theorem closes_permitTest (p : PressNo) (tm : Time) (hs : Closes s t) : Closes s (t.permitTest p tm) := by
  unfold permitTest
  split
  · exact closes_modUnit p _ (fun h => nomatch h) (closes_endCure p tm (closes_of_changes (raise_changes _ _ _ _)
      (closes_of_changes (modCure_changes p _ t) hs)))
  · exact hs

theorem closes_takeHanded (z : ZoneNo) (m : Int) (tm : Time) (hs : Closes s t) : Closes s (t.takeHanded z m tm) := by
  have hrecorded (f : Cure → Cure) (g : Record → Record) :
      Closes s ((t.modCure (pressOf z) f).modRecord (pressOf z) g) :=
    closes_of_changes (modRecord_changes _ _ _) (closes_of_changes (modCure_changes _ _ t) hs)
  unfold takeHanded accrue
  dsimp only
  split
  · split
    · exact closes_permitTest _ _ (closes_of_changes (recomputeProgress_changes _ _)
        (closes_of_changes (modAccrual_changes z _ _)
          (closes_doIf (fun h => closes_of_changes (raise_changes _ _ _ _) h) (hrecorded _ _))))
    · exact hrecorded _ _
  · exact hs

theorem closes_release (k : ScaleNo) (g : Int) (tm : Time) (hs : Closes s t) : Closes s (t.release k g tm) := by
  unfold release
  refine closes_of_changes (modScale_changes k _ _) ?_
  repeat' split
  · exact closes_modUnit _ _ (fun h => nomatch h) hs
  all_goals exact hs

theorem closes_gateEmergency (p : PressNo) (hs : Closes s t) : Closes s (t.gateEmergency p) := by
  have hraised : Closes s (raiseNow .emergencyOpen (.press p) t) := closes_of_changes (raiseNow_changes _ _ t) hs
  have hopened {x : State} (hx : Closes s x) : Closes s (x.emergencyOpening p) :=
    closes_of_changes (setFlag_changes p _ _) (closes_of_changes (modRecord_changes p _ _)
      (closes_modUnit p _ (fun h => nomatch h) hx))
  unfold gateEmergency
  dsimp only
  split
  · exact hopened hraised
  · exact hopened hraised
  · exact hopened (closes_endCure p _ hraised)
  all_goals exact hraised

theorem afterReset_state (u : PressUnit) : u.afterReset.state ≠ .closing := by
  unfold PressUnit.afterReset
  dsimp only
  split <;> exact fun h => nomatch h

theorem closes_resetUnit (p : PressNo) (c : CloseCause) (hs : Closes s t) : Closes s (t.resetUnit p c) := by
  have hgiven {x : State} (hx : Closes s x) : Closes s (x.giveUpCharge p) := by
    unfold giveUpCharge discardCharge
    split
    · exact closes_of_changes (leaveQueue_changes p x) hx
    · exact closes_of_changes (raiseNow_changes _ _ _) (closes_modUnit p _ id hx)
    · exact hx
  unfold resetUnit cutCycle
  split
  · exact hs
  · exact closes_modUnit p _ id hs
  · exact closes_modUnit p _ (fun h => absurd h (afterReset_state _))
      (hgiven (closes_doIf (fun h => closes_of_changes (closeRecord_changes p c _ _) h)
        (closes_doIf (fun h => closes_of_changes (cutEjection_changes p _) h) (closes_doIf (closes_endCure p _) hs))))

theorem closes_warmShell (hs : Closes s t) : Closes s { warmLocks t with warmTaking := false } := hs

theorem closes_warmBody (hs : Closes s t) : Closes s t.warmBody :=
  closes_warmShell (each_rule (Q := Closes s) (fun p {_} => closes_resetUnit p _) _
    (show Closes s (warmScales { t with exportQueue := [], warmTaking := true }) from warmScales_eq _ ▸ hs))

theorem closes_warmEvents (hs : Closes s t) : Closes s t.warmEvents := hs

theorem closes_warmEffect (hs : Closes s t) : Closes s t.warmEffect :=
  closes_of_changes (exportMoves_changes _) (closes_of_changes (placeOwed_changes _)
    (closes_warmEvents (closes_warmBody (show Closes s t.warmQueues from hs))))

theorem closes_coldEffect (s t : State) : Closes s t.coldEffect := fun p h => by
  simp [unit, coldEffect, State.atPowerOn, PressUnit.atReset] at h

/-! ## A cure begins (R85, R86, R134) -/

/-- In `x` a cure of `p` has begun at `tm`, from `s`: nothing has accumulated, and the other presses are as they were. -/
def Begun (tm : Time) (p : PressNo) (s x : State) : Prop :=
  ((x.cure p).entryTime = some tm ∧ (x.cure p).progress = 0)
    ∧ (∀ z, pressOf z = p → (x.accrual z).inclusion = .included → (x.accrual z).accumulator = 0)
    ∧ (∀ q, q ≠ p → x.cure q = s.cure q) ∧ (∀ z, pressOf z ≠ p → x.accrual z = s.accrual z) ∧ Capped x

variable {tm : Time}

theorem begun_of_changes {k : List Part} (h : OnlyChanges k t u) (hs : Begun tm p s t)
    (hk : Part.cures ∉ k ∧ Part.accruals ∉ k := by decide) : Begun tm p s u := by
  have hc : t.cures = u.cures := h .cures hk.1
  have ha : t.accruals = u.accruals := h .accruals hk.2
  unfold Begun Capped cure accrual at *
  rwa [← hc, ← ha]

theorem begun_modCure (f : Cure → Cure) (hs : Begun tm p s t) (he : (f (t.cure p)).entryTime = (t.cure p).entryTime)
    (hp : (f (t.cure p)).progress = 0) : Begun tm p s (t.modCure p f) := by
  obtain ⟨⟨hentry, _⟩, hzero, hother, hzones, hcap⟩ := hs
  refine ⟨⟨?_, ?_⟩, hzero, fun q hq => ?_, hzones, hcap⟩
  · rw [cure_modCure, he, hentry]
  · rw [cure_modCure, hp]
  · rw [cure_modCure_of_ne _ _ _ hq, hother q hq]

theorem begun_recomputeProgress (hs : Begun tm p s t) : Begun tm p s (t.recomputeProgress p) := by
  unfold recomputeProgress
  split
  · rename_i c hleast
    obtain ⟨⟨z, hz, hin, hc⟩, _⟩ := leastAccumulator_spec hleast
    exact begun_modCure _ hs rfl (hc ▸ hs.2.1 z hz hin)
  · exact hs

theorem begun_permitTest (tm' : Time) (hs : Begun tm p s t) : Begun tm p s (t.permitTest p tm') := by
  unfold permitTest endCure
  dsimp only
  split
  · refine begun_of_changes (modUnit_changes p _ _) (begun_of_changes (modRecord_changes p _ _) ?_)
    have hraised : Begun tm p s (raise tm' .cureDone (.press p)
        (t.modCure p fun x => { x with status := .permitted })) :=
      begun_of_changes (raise_changes _ _ _ _) (begun_modCure _ hs rfl hs.1.2)
    exact begun_modCure _ hraised rfl hraised.1.2
  · exact hs

theorem begun_loseCure (tm' : Time) (hs : Begun tm p s t) : Begun tm p s (t.loseCure p tm') :=
  begun_of_changes (setFlag_changes p _ _) (begun_of_changes (raise_changes _ _ _ _) (begun_modCure _ hs rfl hs.1.2))

theorem begun_excludeZone (z : ZoneNo) (hz : pressOf z = p) (tm' : Time) (hs : Begun tm p s t) :
    Begun tm p s (t.excludeZone z tm') := by
  subst hz
  have hexcluded : Begun tm (pressOf z) s (t.modAccrual z fun a => { a with inclusion := .excluded }) := by
    obtain ⟨hcure, hzero, hother, hzones, hcap⟩ := hs
    refine ⟨hcure, fun y hy hin => ?_, hother, fun y hy => ?_, fun y => ?_⟩
    · by_cases h : y = z
      · subst h
        rw [accrual_modAccrual] at hin
        cases hin
      · rw [accrual_modAccrual_of_ne _ _ _ h] at hin ⊢
        exact hzero y hy hin
    · rw [accrual_modAccrual_of_ne _ _ _ (fun h => hy (congrArg pressOf h)), hzones y hy]
    · by_cases h : y = z
      · subst h
        rw [accrual_modAccrual]
        exact hcap y
      · rw [accrual_modAccrual_of_ne _ _ _ h]
        exact hcap y
  have hcounted (g : Record → Record) := begun_of_changes (modRecord_changes (pressOf z) g _)
    (begun_modCure (fun x => { x with excluded := x.excluded + 1 }) hexcluded rfl hexcluded.1.2)
  unfold excludeZone
  dsimp only
  split
  · split
    · exact begun_loseCure _ (hcounted _)
    · exact begun_permitTest _ (begun_recomputeProgress (hcounted _))
  · exact hs

theorem each_mem_rule {α : Type} {Q : State → Prop} {g : α → State → State} (l : List α)
    (h : ∀ a ∈ l, ∀ {x}, Q x → Q (g a x)) (hs : Q s) : Q (each g l s) := by
  induction l generalizing s with
  | nil => exact hs
  | cons a l ih => exact ih (fun b hb => h b (List.mem_cons_of_mem _ hb)) (h a List.mem_cons_self hs)

theorem accrual_each (f : ZoneNo → Accrual → Accrual) (z : ZoneNo) (l : List ZoneNo) (hl : l.Nodup) (x : State) :
    (each (fun z x => x.modAccrual z (f z)) l x).accrual z = if z ∈ l then f z (x.accrual z) else x.accrual z := by
  induction l generalizing x with
  | nil => rfl
  | cons a l ih =>
    obtain ⟨ha, hl⟩ := List.nodup_cons.mp hl
    rw [each_cons, ih hl]
    by_cases hz : z = a
    · subst hz
      rw [if_neg ha, if_pos List.mem_cons_self, accrual_modAccrual]
    · rw [accrual_modAccrual_of_ne _ _ _ hz]
      simp only [List.mem_cons, hz, false_or]

theorem zonesOf_nodup (p : PressNo) : (zonesOf p).Nodup := by
  refine (List.nodup_finRange 12).map fun i j h => ?_
  have := congrArg Fin.val h
  dsimp only at this
  exact Fin.ext (by omega)

theorem accrual_includeZones (p : PressNo) (z : ZoneNo) (t : State) : (t.includeZones p).accrual z =
    if pressOf z = p then includeZone t z (t.accrual z) else t.accrual z := by
  unfold includeZones
  rw [accrual_each (includeZone t) z _ (zonesOf_nodup p)]
  exact if_congr CloseConditions.mem_zonesOf rfl rfl

theorem includeZone_zero (z : ZoneNo) (a : Accrual) (h : (includeZone t z a).inclusion = .included) :
    (includeZone t z a).accumulator = 0 := by
  unfold includeZone at *
  split at h
  · rw [if_pos ‹_›]
  · cases h

theorem begun_startCure (r : Recipe) (hcap : Capped t) : Begun tm p t (t.startCure p r tm) := by
  have hcontext (n : Nat) (g : Record → Record) :
      Begun tm p t (((t.includeZones p).modCure p fun _ => startContext r tm n).modRecord p g) := by
    refine begun_of_changes (modRecord_changes p g _) ⟨⟨?_, ?_⟩, fun z hz hin => ?_, fun q hq => ?_,
      fun z hz => ?_, fun z => ?_⟩
    · rw [cure_modCure]; rfl
    · rw [cure_modCure]; rfl
    · have heq : ((t.includeZones p).modCure p fun _ => startContext r tm n).accrual z
          = includeZone t z (t.accrual z) := (accrual_includeZones p z t).trans (if_pos hz)
      rw [heq] at hin ⊢
      exact includeZone_zero z _ hin
    · exact (cure_modCure_of_ne _ _ _ hq).trans (congrArg (fun v : Vector Cure 4 => v[q])
        (includeZones_changes p t .cures (by decide)).symm)
    · exact (accrual_includeZones p z t).trans (if_neg hz)
    · refine le_of_eq_of_le (congrArg Accrual.accumulator (accrual_includeZones p z t)) ?_
      split
      · unfold includeZone
        split
        · exact Nat.zero_le _
        · exact hcap z
      · exact hcap z
  unfold startCure
  dsimp only
  split
  · exact begun_loseCure _ (hcontext _ _)
  · refine each_mem_rule _ (fun z hz {x} hx => begun_excludeZone z ?_ tm hx) (hcontext _ _)
    exact (mem_includedZones.mp (List.mem_filter.mp hz).1).1

/-! ## What every step does -/

/-- A cure of `p` has begun at the time of `s`, from CLOSING. -/
def Entered (s : State) (p : PressNo) (c : Cure) : Prop :=
  (s.unit p).state = .closing ∧ c.entryTime = some s.timebase ∧ c.progress = 0

/-- What the step leaves: a context that is `Kept`, or a cure that has begun. -/
def Started (s x : State) : Prop :=
  x.ProgressLaw ∧ ∀ p, Kept (s.cure p) (x.cure p) ∨ Entered s p (x.cure p)

theorem started_of_cooks (hs : Cooks s t) : Started s t := ⟨hs.1, fun p => .inl (hs.2.2 p)⟩

theorem started_of_changes {k : List Part} (h : OnlyChanges k t u) (hs : Started s t)
    (hk : Part.cures ∉ k ∧ Part.accruals ∉ k := by decide) : Started s u := by
  have hc : t.cures = u.cures := h .cures hk.1
  have ha : t.accruals = u.accruals := h .accruals hk.2
  unfold Started ProgressLaw cure accrual at *
  rwa [← hc, ← ha]

/-- What the action finds. -/
def Found (s x : State) : Prop := Cooks s x ∧ Closes s x

theorem found_of_changes {k : List Part} (h : OnlyChanges k t u) (hs : Found s t)
    (hk : (Part.cures ∉ k ∧ Part.accruals ∉ k) ∧ Part.units ∉ k ∧ Part.timebase ∉ k := by decide) : Found s u :=
  ⟨cooks_of_changes h hs.1 hk.1, closes_of_changes h hs.2 hk.2⟩

theorem started_of_begun (hs : Cooks s t) (hst : (s.unit p).state = .closing) (h : Begun s.timebase p t x) :
    Started s x := by
  obtain ⟨⟨hentry, hprogress⟩, _, hother, hzones, _⟩ := h
  refine ⟨fun z hz hin => ?_, fun q => ?_⟩
  · by_cases hp : pressOf z = p
    · rw [hp, hprogress]
      exact Nat.zero_le _
    · rw [hother _ hp] at hz ⊢
      rw [hzones z hp] at hin ⊢
      exact hs.1 z hz hin
  · by_cases hq : q = p
    · subst hq
      exact .inr ⟨hst, hentry, hprogress⟩
    · rw [hother q hq]
      exact .inl (hs.2.2 q)

theorem found_mouldTestCycle (p : PressNo) (r : PressReport) (hs : Found s t) : Found s (t.mouldTestCycle p r) := by
  refine ⟨cooks_of_changes (mouldTestCycle_changes p r t) hs.1, ?_⟩
  unfold mouldTestCycle
  split
  · exact closes_of_changes (setFlag_changes p _ _) (closes_of_changes (raise_changes _ _ _ _)
      (closes_modUnit p _ id hs.2))
  · exact hs.2

theorem started_closingTest (r : PressReport) (htime : r.arrival = t.timebase) (hst : (t.unit p).state = .closing)
    (hs : Found s t) : Started s (t.closingTest p r) := by
  obtain ⟨hclosing, hnow⟩ := hs.2 p hst
  unfold closingTest enterCure
  dsimp only
  repeat' split
  · have htm : r.arrival = s.timebase := htime.trans hnow
    rw [htm]
    refine each_rule (Q := Started s) (fun z {_} h => started_of_changes (modZone_changes z _ _) h) _
      (started_of_begun (p := p) (cooks_of_changes (modRecord_changes p _ _)
        (cooks_of_changes (modUnit_changes p _ _) hs.1)) hclosing (begun_startCure _ ?_))
    exact (cooks_of_changes (modRecord_changes p _ _) (cooks_of_changes (modUnit_changes p _ t) hs.1)).2.1
  · exact started_of_cooks hs.1
  · exact started_of_cooks hs.1

theorem started_takePress (p : PressNo) (r : PressReport) (htime : r.arrival = t.timebase) (hs : Found s t) :
    Started s (t.takePress p r) := by
  have hnoted : Found s (t.modUnit p fun u => { u with lastStatus := some r }) :=
    ⟨cooks_of_changes (modUnit_changes p _ t) hs.1, closes_modUnit p _ id hs.2⟩
  have htested := found_mouldTestCycle p r hnoted
  unfold takePress testReport
  cases hst : (t.unit p).state with
  | disabled | fault => exact started_of_cooks hnoted.1
  | idle => exact started_of_cooks (cooks_of_changes (attemptBinding_changes p r _) hnoted.1)
  | chargeWait | chargeReady => exact started_of_cooks (cooks_of_changes (mouldTestWaiting_changes p r _) hnoted.1)
  | closing =>
    refine started_closingTest r (htime.trans ?_) ?_ htested
    · have hsame (x : State) : x.timebase = (x.mouldTestCycle p r).timebase :=
        mouldTestCycle_changes p r x .timebase (by decide)
      exact hsame (t.modUnit p fun u => { u with lastStatus := some r })
    · rw [state_mouldTestCycle, unit_modUnit]
      exact hst
  | cure => exact started_of_cooks (cooks_of_changes (cureTest_changes p r _) htested.1)
  | demouldWait | eject => exact started_of_cooks htested.1
  | opening => exact started_of_cooks (cooks_of_changes (openingTest_changes p r _) htested.1)
  | unload => exact started_of_cooks (cooks_of_changes (unloadTest_changes p r _) htested.1)

theorem found_links (s : State) : LinkRules (Found s) where
  link := found_of_changes (linkActivity_changes _)
  raise k i := found_of_changes (raiseNow_changes k i _)
  forward p b := found_of_changes (forwardTo_changes p b _)
  originate p d k b m := found_of_changes (originate_changes p d k b m _)
  check p := found_of_changes (countCheck_changes p _)
  format p := found_of_changes (countFormat_changes p _)
  foreign p := found_of_changes (countForeign_changes p _)
  reset _ := id

theorem started_links (s : State) : LinkRules (Started s) where
  link h := started_of_changes (linkActivity_changes _) h
  raise k i h := started_of_changes (raiseNow_changes k i _) h
  forward p b h := started_of_changes (forwardTo_changes p b _) h
  originate p d k b m h := started_of_changes (originate_changes p d k b m _) h
  check p h := started_of_changes (countCheck_changes p _) h
  format p h := started_of_changes (countFormat_changes p _) h
  foreign p h := started_of_changes (countForeign_changes p _) h
  reset _ := id

theorem progress_frames (s : State) : FrameRules (Found s) (Started s) where
  before := found_links s
  after := started_links s
  into h := started_of_cooks h.1
  thermo n e tm z h := ⟨cooks_zoneTakes n e tm z h.1,
    zoneTakes_rule (fun h => closes_of_changes h) (fun z m tm _ => closes_takeHanded z m tm) n e tm z h.2⟩
  scale k n tm e h := ⟨cooks_of_changes (takeScaleEntry_changes k n tm e _) h.1,
    takeScaleEntry_rule (fun h => closes_of_changes h) (fun k g tm _ => closes_release k g tm) k n tm e h.2⟩
  press p r hs h := started_takePress p r h hs
  ejector p r h := started_of_cooks (cooks_of_changes (takeEjector_changes p r _) h.1)
  close p h _ := started_of_cooks (cooks_of_changes (beginCycle_changes p _ _) h.1)
  opens p h _ := started_of_cooks (cooks_of_changes (enterOpening_changes p _ _ _) h.1)
  aborts p h _ := started_of_cooks (cooks_of_changes (enterOpening_changes p _ _ _) h.1)
  emergency p h := ⟨cooks_gateEmergency p h.1, closes_gateEmergency p h.2⟩
  request r h := started_of_cooks (cooks_serveRequest r h.1)

theorem progress_actions (s : State) : ActionRules (Found s) (Started s) where
  frames := progress_frames s
  tick h := started_of_cooks h.1
  start p h := started_of_cooks (cooks_startTransmission p h.1)
  sent p h := started_of_cooks (cooks_of_changes (modPort_changes p _ _) h.1)
  linkOff h := started_of_cooks h.1
  windowEnd p h _ := started_of_cooks (cooks_windowEnds p h.1)
  dwell p h _ := started_of_cooks (cooks_dwellExpires p h.1)
  maxCure p h hdue := started_of_cooks (cooks_maxCureExpires p hdue h.1)
  lift k h _ := started_of_cooks (cooks_of_changes (liftExpires_changes k _) h.1)
  closeTimer p h _ := started_of_cooks (cooks_of_changes (closeTimerExpires_changes p _) h.1)
  compareA p h _ := started_of_cooks (cooks_of_changes (reachA_changes p _) h.1)
  compareB p h _ := started_of_cooks (cooks_of_changes (reachB_changes p _) h.1)
  exports h := started_of_cooks (cooks_of_changes (exportMoves_changes _) h.1)
  ejectOffs h := started_of_cooks (cooks_of_changes (placeEjectOffs_changes _) h.1)
  offs h := started_of_cooks (cooks_of_changes (placeOwed_changes _) h.1)

theorem progress_due (s : State) : DueRules (Found s) where
  warm h _ := ⟨cooks_warmEffect h.1, closes_warmEffect h.2⟩
  shutdown h _ := found_of_changes (coldShutdown_changes _) h
  cold _ := ⟨cooks_coldEffect _ _, closes_coldEffect _ _⟩

theorem started_of_exec {c : Instr} (hs : Found s u) (h : exec c u = .next t) : Started s t := by
  by_cases hc : isPin c = false
  · obtain ⟨g, hg, hrun⟩ := exec_eq_running c hc
    rw [hrun, running] at h
    cases h
    split
    · exact started_of_cooks hs.1
    · exact (progress_actions s).action hg ((progress_due s).takeDueReset hs)
  · cases c
    case powerOnReset => cases h; exact started_of_cooks (cooks_coldEffect _ _)
    case resetNAssert => cases h; exact started_of_cooks hs.1
    case strapChange v =>
      cases h
      refine started_of_cooks ?_
      split
      · exact hs.1
      · exact ((progress_due s).takeDueReset hs).1
    all_goals exact absurd rfl hc

theorem started_of_step (hs : s.ProgressLaw) (hcap : Capped s) (h : step s = .next t) : Started s t := by
  have hfound : Found s s := ⟨Cooks.refl hs hcap, fun _ h => ⟨h, rfl⟩⟩
  unfold step at h
  split at h
  · cases h; exact started_of_cooks hfound.1
  · rename_i c l _
    exact started_of_exec (show Found s { s with pending := l } from hfound) h

/-- Settles O9: what becomes of a cure context, followed through every operation of a step. -/
theorem cureProgressNeverFalls : Obligations.CureProgressNeverFalls := by
  intro s t hbounded hcycle hlaw h
  obtain ⟨_, _, _, haccruals, _⟩ := hbounded
  obtain ⟨hlaw', hcures⟩ := started_of_step hlaw (fun z => (haccruals z).1) h
  refine ⟨hlaw', fun p hacc hne => ?_, fun p hoff hne hne' => ?_⟩
  · rcases hcures p with hkept | ⟨hst, _⟩
    · exact (hkept.resolve_left hne).2.1 hacc
    · have := Cycles.state_of_accruing (cycleLaw_iff.mp hcycle) hacc
      rw [hst] at this
      cases this
  · rcases hcures p with hkept | hentered
    · exact .inl ((hkept.resolve_left hne').2.2 hoff).2
    · exact .inr hentered

end Sys2Proof.Proofs.CureProgress
end

