-- ==== Sys2Proof/Proofs/Reception.lean ====
section
/-! PROOFS. Pins, the clock and received frames: PASSIVE mode, the queues, the frames of served nodes, bad frames and
frames to the own address. -/

namespace Sys2Proof.Proofs.Reception

set_option Elab.async false

open Sys2Proof.Machine Sys2Proof.Machine.State Sys2Proof.Proofs.StepRules Sys2Proof.Proofs.FrameHandling

variable {s : State} {own : Nat} {bytes : List Byte} {f : RxFrame} {α : Type}

/-! ## Pins and the clock -/

/-- With RESET_N low only the pins' own commands do anything. -/
theorem exec_of_resetHeld (h : s.resetHeld = true) {c : Instr} (hc : isPin c = false) : exec c s = .next s := by
  obtain ⟨g, _, hg⟩ := exec_eq_running c hc
  rw [hg, running, if_pos h]

theorem isPin_eq_false {c : Instr} (hp : c ≠ .powerOnReset) (hr : c ≠ .resetNAssert)
    (hs : ∀ strap, c ≠ .strapChange strap) : isPin c = false := by
  cases c
  case powerOnReset => exact absurd rfl hp
  case resetNAssert => exact absurd rfl hr
  case strapChange v => exact absurd rfl (hs v)
  all_goals rfl

theorem holdsPowerOn_coldEffect (s : State) : s.coldEffect.HoldsPowerOn s.strap :=
  ⟨rfl, rfl, rfl, rfl, rfl, rfl, rfl, rfl, rfl, rfl, rfl, rfl, rfl, rfl, rfl, rfl, rfl, rfl, rfl, rfl, rfl, rfl⟩

theorem exec_powerOnReset (s : State) : exec .powerOnReset s = .next s.coldEffect := rfl

theorem exec_strapChange_of_settled (h : s.Settled) (strap : BitVec 6) :
    exec (.strapChange strap) s = .next { s with strap := strap } := by
  have hrun : (if s.resetHeld then s else s.takeDueReset) = s := by
    rw [takeDueReset_of_settled h, ite_self]
  exact congrArg (fun x : State => Host.Outcome.next { x with strap := strap }) hrun

theorem exec_timebaseTick_of_settled (h : s.Settled) :
    exec .timebaseTick s = .next { s with timebase := s.timebase + 1 } :=
  running_of_settled h _

theorem timebase_wraps {t : Time} (h : t.toNat = 4294967295) : (t + 1).toNat = 0 := by
  rw [BitVec.toNat_add, h]
  rfl

/-- Settles O12: with RESET_N low no other command does anything, and its release is the COLD effect. -/
theorem pinsAndClock : Obligations.PinsAndClock := by
  intro s
  refine ⟨rfl, fun h c hp hr hs => exec_of_resetHeld h (isPin_eq_false hp hr hs), ?powerOn,
    fun h => ⟨?tick, ?wraps, ?strap⟩⟩
  case powerOn =>
    exact ⟨_, exec_powerOnReset s, holdsPowerOn_coldEffect s, rfl, rfl, rfl, rfl, rfl⟩
  case tick => exact exec_timebaseTick_of_settled h
  case wraps => exact timebase_wraps
  case strap => exact exec_strapChange_of_settled h

/-! ## PASSIVE mode (R5) -/

theorem live_of_passive (h : s.mode = .passive) : s.live = false := by rw [live, h]

theorem receive_of_passive (hm : s.mode = .passive) (hp : parseFrame bytes = some f) (p : Port) :
    s.receive p bytes = s.linkActivity.forwardTo p.other bytes := by
  have hlive : s.linkActivity.live = false := live_of_passive hm
  simp [receive, hp, accepted, hlive, parseFrame_bytes hp]

theorem forwardTo_of_full_passive (hm : s.mode = .passive) (p : Port)
    (hf : ¬(s.port p).fwd.length < Config.fwdPlaces) (b : List Byte) : s.forwardTo p b = s := by
  simp [forwardTo, hf, live_of_passive hm]

/-- Settles O13: the frame joins the other port's queue, or finds no place. -/
theorem passiveForwards : Obligations.PassiveForwards := by
  intro s p bytes f hs hm
  refine ⟨fun hp => ⟨fun hroom => ?room, fun hfull => ?full⟩, fun hp => ?fails⟩
  case room =>
    have hrun : exec (.passiveForward p bytes) s = .next (s.receive p bytes) := running_of_settled hs _
    rw [hrun, receive_of_passive hm hp, forwardTo_of_room _ (by rwa [linkActivity_port])]
  case full =>
    have hrun : exec (.passiveForward p bytes) s = .next (s.receive p bytes) := running_of_settled hs _
    rw [hrun, receive_of_passive hm hp,
      forwardTo_of_full_passive (s := s.linkActivity) hm _ (by rw [linkActivity_port]; exact Nat.not_lt.mpr hfull)]
  case fails =>
    have hrun : exec (.checkFailedFrame p bytes) s = .next (s.receive p bytes) := running_of_settled hs _
    rw [hrun]
    simp [receive, hp, checkFailed, live_of_passive hm]

/-! ## The queues (R20, R21) -/

/-- Settles O14: by whether the queue has a place. -/
theorem joiningAQueue : Obligations.JoiningAQueue := by
  intro s p h
  refine ⟨fun bytes => ⟨fun hroom => ?_, fun hfull => ?_⟩,
    fun dst kind payload mark => ⟨fun hroom => ?_, fun hfull => ?_⟩⟩
  · exact forwardTo_of_room p hroom bytes
  · exact forwardTo_of_full h p (Nat.not_lt.mpr hfull) bytes
  · exact originate_of_room h p hroom dst kind payload mark
  · exact originate_of_full h p (Nat.not_lt.mpr hfull) dst kind payload mark

/-! ## Frames of served nodes (R9, R18) -/

theorem running_hears (h : s.Hears bytes f) : running (receive .D bytes) s = .next (takeDown f s.linkActivity) := by
  obtain ⟨⟨_, hn⟩, hp⟩ := h
  exact running_receive_down hn hp

/-- A served node's frame is consumed, and goes upward by the node's flag. -/
theorem takeDown_of_served (h : s.Hears bytes f) (hk : f.kind ≠ FrameKind.mgmtReq.code)
    (hr : (s.node f.src).role ≠ .none) :
    takeDown f s.linkActivity = s.up f bytes (consume (s.node f.src) f s.linkActivity) := by
  have hr' : (s.linkActivity.node f.src).role ≠ .none := hr
  unfold takeDown State.up
  rw [if_neg hk, if_neg hr', parseFrame_bytes h.2]
  rfl

theorem doIf_beq {k : Nat} {g : State → State} (h : f.kind = k) (s : State) : doIf (f.kind == k) g s = g s := by
  rw [h, beq_self_eq_true]
  rfl

theorem doIf_not_beq {k : Nat} {g : State → State} (h : f.kind ≠ k) (s : State) : doIf (f.kind == k) g s = s := by
  rw [beq_eq_false_iff_ne.mpr h]
  rfl

theorem deliver_some {x : Option α} {a : α} (h : x = some a) (g : α → State → State) (s : State) :
    deliver x g s = g a s := by rw [h]; rfl

theorem deliver_none {x : Option α} (h : x = none) (g : α → State → State) (s : State) :
    deliver x g s = formatError .D s := by rw [h]; rfl

section

variable {n : NodeEntry}

theorem consume_thermo (hr : n.role = .thermo) (hk : f.kind = FrameKind.sample.code) (s : State) :
    consume n f s = deliver (sampleOf f.payload) (fun es => takeThermo f.src es s.timebase) s := by
  rw [consume, hr]
  exact doIf_beq hk s

theorem consume_scale (hr : n.role = .scale) (hk : f.kind = FrameKind.sample.code) (s : State) :
    consume n f s = deliver (sampleOf f.payload) (fun es => takeScale (scaleNo n.unit) f.src es s.timebase) s := by
  rw [consume, hr]
  exact doIf_beq hk s

theorem consume_press (hr : n.role = .press) (hk : f.kind = FrameKind.status.code) (s : State) :
    consume n f s = deliver (pressReportOf f.payload s.timebase) (takePress (pressNo n.unit)) s := by
  rw [consume, hr]
  exact doIf_beq hk s

theorem consume_ejector (hr : n.role = .ejector) (hk : f.kind = FrameKind.status.code) (s : State) :
    consume n f s = deliver (ejectorReportOf f.payload s.timebase) (takeEjector (pressNo n.unit)) s := by
  rw [consume, hr]
  exact doIf_beq hk s

/-- A frame that is not of the kind of its node's role is not used. -/
theorem consume_unused (h : n.role = .heater ∨ n.role = .thermo ∧ f.kind ≠ FrameKind.sample.code
    ∨ n.role = .scale ∧ f.kind ≠ FrameKind.sample.code ∨ n.role = .press ∧ f.kind ≠ FrameKind.status.code
    ∨ n.role = .ejector ∧ f.kind ≠ FrameKind.status.code) (s : State) : consume n f s = s := by
  rcases h with hr | ⟨hr, hk⟩ | ⟨hr, hk⟩ | ⟨hr, hk⟩ | ⟨hr, hk⟩
  · rw [consume, hr]
  all_goals
    rw [consume, hr]
    exact doIf_not_beq hk s

end

/-- A frame of the kind of a served role is not a MGMT_REQ. -/
theorem running_fromNode {role : Role} {unit : Nat} {kind : FrameKind} (h : s.FromNode bytes f role unit kind)
    (hk : kind.code ≠ FrameKind.mgmtReq.code := by decide) (hr : role ≠ .none := by decide) :
    running (receive .D bytes) s = .next (s.up f bytes (consume (s.node f.src) f s.linkActivity)) := by
  obtain ⟨hhears, hrole, _, hkind⟩ := h
  rw [running_hears hhears, takeDown_of_served hhears (hkind ▸ hk) (hrole ▸ hr)]

/-- Settles O17: by the role of the node, whose frame of its kind is delivered. -/
theorem servedNodesAreConsumed : Obligations.ServedNodesAreConsumed := by
  refine ⟨fun node k e es time s => ⟨each_nil _ _, each_nil _ _, each_append _ [e] es s, each_append _ [e] es s⟩, ?_⟩
  intro s bytes f es k p a b hhears hk
  refine ⟨fun hr hsample hes => ?thermo, fun h hes => ?scale, fun h ha => ?press, fun h hb => ?ejector, fun h => ?unused⟩
  case thermo =>
    have hrun : exec (.thermoSample bytes) s = running (receive .D bytes) s := rfl
    rw [hrun, running_fromNode ⟨hhears, hr, rfl, hsample⟩, consume_thermo hr hsample, deliver_some hes]
    rfl
  case scale =>
    have hrun : exec (.scaleSample bytes) s = running (receive .D bytes) s := rfl
    rw [hrun, running_fromNode h]
    obtain ⟨_, hrole, hunit, hkind⟩ := h
    rw [consume_scale hrole hkind, deliver_some hes, hunit, scaleNo_val]
    rfl
  case press =>
    have hrun : exec (.pressStatus bytes) s = running (receive .D bytes) s := rfl
    rw [hrun, running_fromNode h]
    obtain ⟨_, hrole, hunit, hkind⟩ := h
    rw [consume_press hrole hkind, deliver_some (x := pressReportOf f.payload s.linkActivity.timebase) ha, hunit,
      pressNo_val]
  case ejector =>
    have hrun : exec (.ejectorStatus bytes) s = running (receive .D bytes) s := rfl
    rw [hrun, running_fromNode h]
    obtain ⟨_, hrole, hunit, hkind⟩ := h
    rw [consume_ejector hrole hkind, deliver_some (x := ejectorReportOf f.payload s.linkActivity.timebase) hb, hunit,
      pressNo_val]
  case unused =>
    have hne : (s.node f.src).role ≠ .none := by
      rcases h with h | ⟨h, _⟩ | ⟨h, _⟩ | ⟨h, _⟩ | ⟨h, _⟩ <;> rw [h] <;> decide
    rw [exec_forwardFrame, running_hears hhears, takeDown_of_served hhears hk hne, consume_unused h]

/-! ## Bad frames (R7, R9) -/

theorem receive_of_check_failed (h : s.Normal own) (hp : parseFrame bytes = none) (p : Port) :
    running (receive p bytes) s = .next (raiseNow .linkCheck (.port p) (countCheck p s)) := by
  simp [running_of_settled h.1, receive, hp, checkFailed, h.live]

/-- Settles O18: what fails the check, and what its node's block cannot read. -/
theorem badFramesAreCounted : Obligations.BadFramesAreCounted := by
  refine ⟨fun s own p bytes hn hp => receive_of_check_failed hn hp p, fun s bytes f unit => ?_⟩
  refine ⟨fun h hnone => ?_, fun h hnone => ?_, fun h hnone => ?_, fun h hnone => ?_⟩
  · have hrun : exec (.thermoSample bytes) s = running (receive .D bytes) s := rfl
    obtain ⟨_, hrole, _, hkind⟩ := id h
    rw [hrun, running_fromNode h, consume_thermo hrole hkind, deliver_none hnone, formatError_eq]
  · have hrun : exec (.scaleSample bytes) s = running (receive .D bytes) s := rfl
    obtain ⟨_, hrole, _, hkind⟩ := id h
    rw [hrun, running_fromNode h, consume_scale hrole hkind, deliver_none hnone, formatError_eq]
  · have hrun : exec (.pressStatus bytes) s = running (receive .D bytes) s := rfl
    obtain ⟨_, hrole, _, hkind⟩ := id h
    rw [hrun, running_fromNode h, consume_press hrole hkind,
      deliver_none (x := pressReportOf f.payload s.linkActivity.timebase) hnone, formatError_eq]
  · have hrun : exec (.ejectorStatus bytes) s = running (receive .D bytes) s := rfl
    obtain ⟨_, hrole, _, hkind⟩ := id h
    rw [hrun, running_fromNode h, consume_ejector hrole hkind,
      deliver_none (x := ejectorReportOf f.payload s.linkActivity.timebase) hnone, formatError_eq]

/-! ## Frames to the own address (R13, R192) -/

theorem takeOwn_of_other (h : f.kind ≠ FrameKind.mgmtReq.code) (s : State) : takeOwn f s = s := by
  rw [takeOwn, if_neg h]

theorem takeOwn_of_foreign (h : f.kind = FrameKind.mgmtReq.code) (hs : f.src ≠ s.controller) :
    takeOwn f s = countForeign .U s := by
  rw [takeOwn, if_pos h, if_neg hs]

theorem takeOwn_of_pending (h : f.kind = FrameKind.mgmtReq.code) (hs : f.src = s.controller)
    (hr : s.resetPending ≠ .idle) : takeOwn f s = s := by
  rw [takeOwn, if_pos h, if_pos hs, if_neg hr]

/-- Settles O19: by kind, source and the pending reset. -/
theorem ownAddressFrames : Obligations.OwnAddressFrames := by
  intro s bytes f hn hp
  have hown : running (receive .U bytes) s = .next (takeOwn f s.linkActivity) := running_receive_own hn hp
  refine ⟨fun hk => ?other, fun hk hsrc => ?foreign, fun hk hsrc hr => ?pending⟩
  case other =>
    have hrun : exec (.discardOwnAddressFrame bytes) s = running (receive .U bytes) s := rfl
    rw [hrun, hown, takeOwn_of_other hk]
  case foreign =>
    have hrun : exec (.foreignMgmtReq bytes) s = running (receive .U bytes) s := rfl
    rw [hrun, hown, takeOwn_of_foreign (s := s.linkActivity) hk hsrc, countForeign_eq]
  case pending =>
    have hrun : exec (.mgmtReqDroppedPending bytes) s = running (receive .U bytes) s := rfl
    rw [hrun, hown, takeOwn_of_pending (s := s.linkActivity) hk hsrc hr]

/-! ## The response (R201) -/

theorem responseBytes_eq (payload : List Byte) (r : Result) (data : List Byte) : responseBytes payload r data =
    [payload.getD 0 0#8, payload.getD 1 0#8, BitVec.ofNat 8 r.code] ++ if r = .ok then data else [] := by
  have hcode : natBytes 1 r.code = [BitVec.ofNat 8 r.code] := by
    simp [natBytes]
  rw [responseBytes, hcode, List.getD_eq_getElem?_getD, List.getD_eq_getElem?_getD]
  rfl

/-- Settles O21: a response is originated on Port U. -/
theorem responseIsSent : Obligations.ResponseIsSent := by
  refine ⟨by decide, fun s f r data m hlive => ⟨fun hroom => ?_, fun hfull => ?_⟩⟩
  · rw [respond, originate_of_room hlive .U hroom, responseBytes_eq]
    rfl
  · exact originate_of_full hlive .U (Nat.not_lt.mpr hfull) _ _ _ _

end Sys2Proof.Proofs.Reception
end

