-- ==== Sys2Proof/Proofs/ExportMoves.lean ====
section
/-! PROOFS. Heads of the REPORT queue that move to Port U (R181): what the moves of one step leave, in order. -/

namespace Sys2Proof.Proofs.ExportMoves

set_option Elab.async false

open Sys2Proof.Machine Sys2Proof.Machine.State Sys2Proof.Proofs.HistoryRequests

variable {s t u : State} {i : Fin 512} {n : Nat} {r : Record}

/-! ## A record by its serial -/

theorem slots_toList (h : History) : h.slots.toList = (List.finRange 512).map fun i => h.slots[i] := by
  apply List.ext_getElem <;> simp

/-- The record of a serial is the one in the serial's slot. -/
theorem ringRecord_eq (s : State) (n : Nat) : s.ringRecord n = (s.slotOf n).bind fun i => s.history.slots[i] := by
  unfold ringRecord slotOf
  rw [slots_toList, List.filterMap_map, List.find?_filterMap]
  rfl

/-! ## Marks (R181) -/

/-- The record, with its exported mark set. -/
def exportedRecord (r : Record) : Record := { r with exported := true }

/-- The ring after the records in the slots of these serials are marked exported. -/
def Marks (s t : State) (moved : List Nat) : Prop :=
  t.history = { s.history with slots := t.history.slots }
    ∧ ∀ i : Fin 512, t.history.slots[i] = (s.history.slots[i]).map fun r =>
      { r with exported := r.exported || decide (∃ n ∈ moved, s.slotOf n = some i) }

theorem marks_nil (s : State) : Marks s s [] := by
  refine ⟨rfl, fun i => ?_⟩
  simp

theorem serial_any (h : ∀ i : Fin 512, t.history.slots[i].map Record.serial = (s.history.slots[i]).map Record.serial)
    (i : Fin 512) (n : Nat) : (t.history.slots[i].any fun r => r.serial == n)
      = (s.history.slots[i].any fun r => r.serial == n) := by
  have hmap (o : Option Record) : (o.any fun r => r.serial == n) = (o.map Record.serial).any (· == n) := by
    cases o <;> rfl
  rw [hmap, hmap, h i]

/-- A mark changes no serial. -/
theorem Marks.slotOf {moved : List Nat} (h : Marks s t moved) (n : Nat) : t.slotOf n = s.slotOf n := by
  have hserial (i : Fin 512) : t.history.slots[i].map Record.serial = (s.history.slots[i]).map Record.serial := by
    rw [h.2 i, Option.map_map]
    rfl
  unfold State.slotOf
  exact congrArg (fun p => (List.finRange 512).find? p) (funext fun i => serial_any hserial i n)

theorem Marks.exported_ringRecord {moved : List Nat} (h : Marks s t moved) (n : Nat) :
    (t.ringRecord n).map exportedRecord = (s.ringRecord n).map exportedRecord := by
  rw [ringRecord_eq, ringRecord_eq, h.slotOf n]
  cases s.slotOf n with
  | none => rfl
  | some i =>
    dsimp only [Option.bind_some]
    rw [h.2 i, Option.map_map]
    rfl

theorem Marks.trans {a b : List Nat} (h : Marks s t a) (g : Marks t u b) : Marks s u (a ++ b) := by
  refine ⟨?_, fun i => ?_⟩
  · rw [g.1, h.1]
  · rw [g.2 i, h.2 i, Option.map_map]
    refine congrArg (fun f => Option.map f s.history.slots[i]) (funext fun r => ?_)
    simp only [Function.comp, h.slotOf, List.mem_append, or_and_right, exists_or, Bool.decide_or, Bool.or_assoc]

/-! ## One head -/

/-- The REPORT frame of a record. -/
def reportFrame (s : State) (r : Record) : OwnFrame :=
  { dst := s.controller, src := s.ownAddress, kind := .report, mark := .plain
    payload := recordBytes (exportedRecord r) }

/-- The heads that moved, and what they left. -/
def Sends (s t : State) (moved : List Nat) : Prop :=
  s.exportQueue = moved ++ t.exportQueue
    ∧ t.portU = { s.portU with own := s.portU.own ++ moved.filterMap fun n => (s.ringRecord n).map (reportFrame s) }
    ∧ Marks s t moved

theorem sends_nil (s : State) : Sends s s [] := ⟨rfl, by simp, marks_nil s⟩

theorem controller_of_changes (h : OnlyChanges [.exportQueue, .history, .portU] s t) :
    t.controller = s.controller ∧ t.ownAddress = s.ownAddress ∧ t.live = s.live ∧ t.warmTaking = s.warmTaking := by
  have htables : s.tables = t.tables := h .tables (by decide)
  have hmode : s.mode = t.mode := h .mode (by decide)
  have hshutdown : s.shutdown = t.shutdown := h .shutdown (by decide)
  have htaking : s.warmTaking = t.warmTaking := h .warmTaking (by decide)
  simp only [controller, ownAddress, live, htables, hmode, hshutdown, htaking, true_and]

theorem Sends.trans {a b : List Nat} (hc : OnlyChanges [.exportQueue, .history, .portU] s t) (h : Sends s t a)
    (g : Sends t u b) : Sends s u (a ++ b) := by
  obtain ⟨hqueue, hport, hmarks⟩ := h
  obtain ⟨hqueue', hport', hmarks'⟩ := g
  obtain ⟨hcontroller, hown, _⟩ := controller_of_changes hc
  have hframe (n : Nat) : (t.ringRecord n).map (reportFrame t) = (s.ringRecord n).map (reportFrame s) := by
    have hsplit (x : State) (o : Option Record) : o.map (reportFrame x) = (o.map exportedRecord).map fun r =>
        { dst := x.controller, src := x.ownAddress, kind := .report, mark := .plain, payload := recordBytes r } := by
      rw [Option.map_map]
      rfl
    rw [hsplit t, hsplit s, hmarks.exported_ringRecord, hcontroller, hown]
  refine ⟨?_, ?_, hmarks.trans hmarks'⟩
  · rw [hqueue, hqueue', List.append_assoc]
  · rw [hport', hport, List.filterMap_append, ← List.append_assoc]
    simp only [hframe]

theorem sends_moveHead {rest : List Nat} (hq : s.exportQueue = n :: rest) : Sends s s.moveHead [n] := by
  have hring := ringRecord_eq s n
  unfold moveHead
  rw [hq]
  dsimp only
  cases hslot : s.slotOf n with
  | none =>
    rw [hslot] at hring
    refine ⟨hq, ?_, rfl, fun i => ?_⟩
    · simp [hring]
    · simp [hslot]
  | some i =>
    obtain ⟨r, hr, _⟩ := holds_serial_of_slotOf hslot
    rw [hslot, Option.bind_some, hr] at hring
    refine ⟨hq, ?_, rfl, fun j => ?_⟩
    · simp [hring, hr, reportFrame, exportedRecord, pushOwn, modPort, modHistory, controller, ownAddress]
    · by_cases hij : i = j
      · subst hij
        simp [hslot, pushOwn, modPort, modHistory]
      · have hval : i.val ≠ j.val := fun h => hij (Fin.ext h)
        simp [hslot, hij, hval, pushOwn, modPort, modHistory]

/-! ## Every head that moves -/

theorem moveHead_changes (s : State) : OnlyChanges [.exportQueue, .history, .portU] s s.moveHead := by
  intro x hx
  unfold moveHead
  repeat' split
  all_goals cases x <;> first | rfl | exact absurd (by decide) hx

theorem moveHead_exportQueue (s : State) : s.moveHead.exportQueue = s.exportQueue.tail := by
  unfold moveHead
  split
  · rename_i h; rw [h]; rfl
  · rename_i h
    rw [h]
    split <;> rfl

theorem exists_head (h : s.canMove = true) : ∃ n rest, s.exportQueue = n :: rest := by
  unfold canMove at h
  simp only [Bool.and_eq_true, Bool.not_eq_true', List.isEmpty_eq_false_iff] at h
  exact List.exists_cons_of_ne_nil h.2

theorem room_of_canMove (h : s.canMove = true) : s.portU.own.length ≤ 12 := by
  unfold canMove at h
  simp only [Bool.and_eq_true, decide_eq_true_eq] at h
  exact h.1.2

theorem length_of_sends_one (h : Sends s t [n]) : t.portU.own.length ≤ s.portU.own.length + 1 := by
  rw [h.2.1, List.length_append]
  exact Nat.add_le_add_left (List.length_filterMap_le _ _) _

/-- The moves go on while they can. -/
theorem sends_moveHeads (n : Nat) (s : State) (hn : s.exportQueue.length ≤ n) : ∃ moved, Sends s (s.moveHeads n) moved
    ∧ (moved = [] ∨ (s.portU.own.length ≤ 12 ∧ (s.moveHeads n).portU.own.length ≤ 13))
    ∧ (s.moveHeads n).canMove = false := by
  induction n generalizing s with
  | zero =>
    refine ⟨[], sends_nil s, .inl rfl, ?_⟩
    rw [moveHeads, canMove, List.eq_nil_of_length_eq_zero (Nat.le_zero.mp hn)]
    simp
  | succ n ih =>
    rw [moveHeads]
    split
    · rename_i hmove
      obtain ⟨x, rest, hq⟩ := exists_head hmove
      have hsend := sends_moveHead hq
      obtain ⟨moved, hsends, hroom, hdone⟩ := ih s.moveHead (by
        rw [moveHead_exportQueue, List.length_tail]; omega)
      refine ⟨x :: moved, hsend.trans (moveHead_changes s) hsends, .inr ⟨room_of_canMove hmove, ?_⟩, hdone⟩
      rcases hroom with rfl | ⟨_, h⟩
      · have hlen := length_of_sends_one hsend
        have hroom := room_of_canMove hmove
        have hsame := hsends.2.1
        rw [hsame]
        simp only [List.filterMap_nil, List.append_nil]
        omega
      · exact h
    · rename_i hmove
      exact ⟨[], sends_nil s, .inl rfl, Bool.eq_false_iff.mpr hmove⟩

/-- A slot whose record is the first of its serial is the serial's slot. -/
theorem slotOf_of_first (hi : s.history.slots[i] = some r)
    (hfirst : ∀ (j : Fin 512) (r' : Record), s.history.slots[j] = some r' → r'.serial = r.serial → i ≤ j) :
    ∀ n, s.slotOf n = some i ↔ r.serial = n := by
  intro n
  constructor
  · intro h
    obtain ⟨r', hr', hserial⟩ := holds_serial_of_slotOf h
    rw [hi] at hr'
    cases hr'
    exact hserial
  · intro hserial
    unfold slotOf
    rw [List.find?_eq_some_iff_getElem]
    refine ⟨holds_serial_iff.mpr ⟨r, hi, hserial⟩, i.val, by simp, by simp, fun j hj => ?_⟩
    rw [Bool.not_eq_true', Bool.eq_false_iff]
    intro hany
    obtain ⟨r', hr', hs⟩ := holds_serial_iff.mp hany
    have := hfirst _ r' hr' (hs.trans hserial.symm)
    simp [Fin.le_def] at this
    omega

/-- R181: what a move of heads leaves, outside a COLD shutdown and a WARM reset. -/
theorem exportsMoved_exportMoves (hlive : s.live = true) (hwarm : s.warmTaking = false) :
    s.ExportsMoved s.exportMoves := by
  obtain ⟨moved, ⟨hqueue, hport, hhistory, hslots⟩, hroom, hdone⟩ := sends_moveHeads _ s (Nat.le_refl _)
  have hchanges := (exportMoves_changes s).mono (k := [.exportQueue, .history, .portU]) (by decide)
  refine ⟨moved, hqueue, hport, hroom, ?_, hhistory, fun i hi => ?_, fun i r hi hfirst => ?_, hchanges⟩
  · obtain ⟨_, _, hlive', hwarm'⟩ := controller_of_changes hchanges
    unfold exportMoves at *
    unfold canMove at hdone
    rw [hlive', hwarm', hlive, hwarm] at hdone
    simp only [Bool.not_false, Bool.true_and, Bool.and_eq_false_iff, decide_eq_false_iff_not,
      Bool.not_eq_false', List.isEmpty_iff] at hdone
    rcases hdone with h | h
    · exact .inr (Nat.lt_of_not_le h)
    · exact .inl h
  · exact (hslots i).trans (by rw [hi]; rfl)
  · refine (hslots i).trans ?_
    rw [hi, Option.map_some]
    simp only [slotOf_of_first hi hfirst, exists_eq_right']

end Sys2Proof.Proofs.ExportMoves
end

