-- ==== Sys2Proof/Proofs/Transmitters.lean ====
section
/-! PROOFS. The start and the end of a transmission, with what each sets going: off frames and REPORTs. -/

namespace Sys2Proof.Proofs.Transmitters

set_option Elab.async false

open Sys2Proof.Machine Sys2Proof.Machine.State Sys2Proof.Proofs.OffPlacement Sys2Proof.Proofs.AttentionAndOffs
  Sys2Proof.Proofs.ExportMoves Sys2Proof.Proofs.Reception Sys2Proof.Proofs.HistoryRequests

variable {s t : State} {p : Port} {w : List OwnFrame}

/-! ## When the command runs (R194) -/

theorem takeDue_of_not_due (h : s.resetPending.isDue = false) : s.takeDue = s := by
  unfold takeDue
  cases hr : s.resetPending with
  | due k => rw [hr] at h; cases h
  | idle => rfl
  | waiting k => rfl

/-- A COLD shutdown goes on while an off frame is present. -/
theorem running_of_quiet (h : s.Quiet) (g : State → State) : running g s = .next (g s) := by
  obtain ⟨hheld, hdue, hoff⟩ := h
  have hrest : s.takeDueReset = s := by
    rw [takeDueReset, takeDue_of_not_due hdue, endShutdown]
    by_cases hs : s.shutdown = true
    · rw [hs, hoff hs]
      rfl
    · rw [Bool.not_eq_true _ |>.mp hs]
      rfl
  rw [running, hrest, if_neg (by rw [hheld]; decide)]

/-- With no off frame left the COLD reset takes effect first. -/
theorem running_of_shutdown (hheld : s.resetHeld = false) (hdue : s.resetPending.isDue = false)
    (hs : s.shutdown = true) (hoff : s.offPresent = false) (g : State → State) :
    running g s = .next (g s.coldEffect) := by
  have hcold : s.takeDueReset = s.coldEffect := by
    rw [takeDueReset, takeDue_of_not_due hdue, endShutdown, hs, hoff]
    rfl
  rw [running, hcold, if_neg (by rw [hheld]; decide)]

/-! ## The frame that is taken (R22, R23) -/

theorem startTransmission_of_none (h : (s.port p).sending ≠ none ∨ (s.port p).own = [] ∧ (s.port p).fwd = []) :
    startTransmission p s = s := by
  unfold startTransmission
  rw [if_neg]
  rintro ⟨hsending, hqueue⟩
  rcases h with h | ⟨hown, hfwd⟩
  · exact h hsending
  · exact hqueue.elim (· hown) (· hfwd)

theorem startTransmission_of_own {f : OwnFrame} {rest : List OwnFrame} (hs : (s.port p).sending = none)
    (ho : (s.port p).own = f :: rest) : startTransmission p s = afterStart p (markStarts f.mark (s.modPort p fun x =>
      { x with own := rest, sending := some ⟨frameBytes f.dst f.src f.kind.code
        (decide (p = .U) && s.attention) f.payload, f.mark⟩ })) := by
  have hport : (p == Port.U) = decide (p = .U) := rfl
  unfold startTransmission takeFrame
  rw [if_pos ⟨hs, .inl (by rw [ho]; exact List.cons_ne_nil _ _)⟩, hs, ho]
  simp only [ownBytes, hport]

theorem startTransmission_of_fwd {b : List Byte} {rest : List (List Byte)} (hs : (s.port p).sending = none)
    (ho : (s.port p).own = []) (hf : (s.port p).fwd = b :: rest) : startTransmission p s =
      afterStart p (s.modPort p fun x => { x with fwd := rest, sending := some ⟨b, .plain⟩ }) := by
  unfold startTransmission takeFrame
  rw [if_pos ⟨hs, .inr (by rw [hf]; exact List.cons_ne_nil _ _)⟩, hs, ho, hf]

theorem startTransmission_coldEffect (p : Port) (s : State) : startTransmission p s.coldEffect = s.coldEffect :=
  startTransmission_of_none (.inr (by cases p <;> exact ⟨rfl, rfl⟩))

/-! ## The marked frame's off command (R79, R153) -/

theorem markStarts_heaterOff (z : ZoneNo) (n : Nat) (s : State) : markStarts (.heaterOff z n) s =
    s.modZone z fun c => { c with offs := c.offs.filter fun o => decide (o.number ≠ n) } := by
  simp only [markStarts, bne, ne_eq, decide_not]
  rfl

theorem markStarts_ejectOff (q : PressNo) (n : Nat) (s : State) : markStarts (.ejectOff q n) s =
    s.modEjector q fun e => { e with offOwed := e.offOwed.filter fun o => decide (o.number ≠ n) } := by
  simp only [markStarts, bne, ne_eq, decide_not]
  rfl

/-! ## Off frames that take places -/

/-- Where no off frame finds a place nothing changes. -/
theorem fillPlaces_of_none (h : placedOf w s = []) : fillPlaces w s = s := by
  have hsent (m : Mark) : hasPlaced w s m = false := by rw [hasPlaced, h]; rfl
  have hsame : fillPlaces w s = fillPlaces [] s := by
    have hnil : placedOf [] s = [] := List.take_nil
    have hsent' (m : Mark) : hasPlaced [] s m = false := by rw [hasPlaced, hnil]; rfl
    have hz : flaggedZone w s = flaggedZone [] s := by
      funext z
      simp only [flaggedZone, hsent, hsent']
    have he : flaggedEjector w s = flaggedEjector [] s := by
      funext q
      simp only [flaggedEjector, hsent, hsent']
    simp only [fillPlaces, h, hnil, hz, he]
  rw [hsame, fillPlaces_nil]

theorem unplaced_offs_of_offsPlaced (h : s.OffsPlaced t) (z : ZoneNo) :
    (t.zone z).offs.map OffCommand.unplaced = (s.zone z).offs.map OffCommand.unplaced := by
  rw [h.2.1 z, List.map_map]
  rfl

theorem unplaced_owed_of_offsPlaced (h : s.OffsPlaced t) (q : PressNo) :
    (t.ejector q).offOwed.map OffOwed.unplaced = (s.ejector q).offOwed.map OffOwed.unplaced := by
  rw [h.2.2.1 q, Option.map_map]
  rfl

/-- Which frames wait. -/
theorem mem_waitingOffs {x : OwnFrame} (h : x ∈ s.waitingOffs) :
    (∃ q o, (s.ejector q).offOwed = some o ∧ o.placed = false ∧ x = ejectOff s q o)
      ∨ ∃ z o, o ∈ (s.zone z).offs ∧ o.placed = false ∧ x = heatOff s z o := by
  rw [waitingOffs_eq] at h
  rcases List.mem_append.mp h with h | h
  · obtain ⟨q, _, hq⟩ := List.mem_filterMap.mp h
    obtain ⟨o, ho, rfl⟩ := Option.map_eq_some_iff.mp hq
    obtain ⟨ho, hp⟩ := Option.filter_eq_some_iff.mp ho
    exact .inl ⟨q, o, ho, by simpa using hp, rfl⟩
  · obtain ⟨z, _, hz⟩ := List.mem_flatMap.mp h
    obtain ⟨o, ho, rfl⟩ := List.mem_map.mp hz
    obtain ⟨ho, hp⟩ := List.mem_filter.mp ho
    exact .inr ⟨z, o, ho, by simpa using hp, rfl⟩

theorem own_le_of_placed (w : List OwnFrame) (s : State) (h : placedOf w s ≠ []) :
    (s.portD.own ++ placedOf w s).length ≤ 16 := by
  have hroom : s.portD.own.length ≤ 16 := by
    by_contra hfull
    refine h ?_
    rw [placedOf, Nat.sub_eq_zero_of_le (by unfold Config.ownPlaces; omega), List.take_zero]
  rw [List.length_append, placedOf, List.length_take]
  unfold Config.ownPlaces
  omega

theorem offWaits_placeOwed (hn : s.normal = true) :
    s.placeOwed.offWaits = false ∨ 16 ≤ s.placeOwed.portD.own.length := by
  have hn' : s.placeOwed.normal = true := by rw [placeOwed_eq hn]; exact hn
  by_cases hw : s.placeOwed.offWaits = true
  · exact .inr (offLaw_placeOwed s hn' hw)
  · exact .inl (Bool.not_eq_true _ |>.mp hw)

/-! ## The obligations -/

/-- Settles O22: the frame that is taken, its mark, and what its freed place sets going. -/
theorem transmissionStarts : Obligations.TransmissionStarts := by
  refine ⟨fun s p hq => ⟨fun h => ?none, fun f rest hs ho => ?own, fun b rest hs ho hf => ?fwd⟩,
    fun s p hheld hdue hs hoff => ?shutdown, fun s => ⟨rfl, rfl⟩, fun s z n => ?zone, fun s q n => ?ejector,
    fun s hn => ?offs, fun s hlive hwarm => ?exports⟩
  case none =>
    exact (running_of_quiet hq _).trans (congrArg Host.Outcome.next (startTransmission_of_none h))
  case own =>
    exact (running_of_quiet hq _).trans (congrArg Host.Outcome.next (startTransmission_of_own hs ho))
  case fwd =>
    exact (running_of_quiet hq _).trans (congrArg Host.Outcome.next (startTransmission_of_fwd hs ho hf))
  case shutdown =>
    refine ⟨s.coldEffect, ?_, holdsPowerOn_coldEffect s, rfl, rfl⟩
    exact (running_of_shutdown hheld hdue hs hoff _).trans
      (congrArg Host.Outcome.next (startTransmission_coldEffect p s))
  case zone =>
    dsimp only
    rw [markStarts_heaterOff]
    exact ⟨zone_modZone _ _ _, fun z' h => zone_modZone_of_ne _ _ _ h, modZone_changes z _ s⟩
  case ejector =>
    dsimp only
    rw [markStarts_ejectOff]
    exact ⟨ejector_modEjector _ _ _, fun q' h => ejector_modEjector_of_ne _ _ _ h, modEjector_changes q _ s⟩
  case offs =>
    have hplaced := offsPlaced_placeOwed hn
    obtain ⟨hport, _, _, hchanges⟩ := id hplaced
    refine ⟨offWaits_placeOwed hn, unplaced_offs_of_offsPlaced hplaced, unplaced_owed_of_offsPlaced hplaced,
      ⟨_, hport, fun hne => ?_, fun x hx => mem_waitingOffs (List.mem_of_mem_take hx)⟩, hplaced, hchanges⟩
    exact (congrArg (fun x : PortState => x.own.length) hport).trans_le (own_le_of_placed s.waitingOffs s hne)
  case exports =>
    have hmoved := exportsMoved_exportMoves hlive hwarm
    obtain ⟨moved, hqueue, hport, _, hend, _, _, _, hchanges⟩ := id hmoved
    refine ⟨hend, ⟨moved, hqueue.symm⟩, ⟨_, hport, fun x hx => ?_⟩, hmoved, hchanges⟩
    obtain ⟨n, _, hn⟩ := List.mem_filterMap.mp hx
    obtain ⟨r, _, rfl⟩ := Option.map_eq_some_iff.mp hn
    exact ⟨rfl, rfl⟩

theorem endTransmission_of_some {f : Sending} (h : (s.port p).sending = some f) : endTransmission p s =
    doIf (f.mark == .resetResponse) responseSent (linkActivity (s.modPort p fun x => { x with sending := none })) := by
  unfold endTransmission
  rw [h]

theorem linkDue_iff {start : Time} (hpin : s.linkPin = true) (hstart : s.linkStart = some start) :
    linkDue s = decide (50 ≤ (s.timebase - start).toNat) := by
  rw [linkDue, hpin, hstart]
  rfl

/-- Settles O23: what the end of a frame with each mark brings, and the LINK pin's expiry. -/
theorem transmissionEnds : Obligations.TransmissionEnds := by
  refine ⟨fun s => rfl, fun s p hs => ?_⟩
  have hend : exec (.transmitEnd p) s = .next (endTransmission p s) := running_of_settled hs _
  have hexpiry : exec .linkPinExpiry s
      = .next (if linkDue s then { s with linkPin := false, linkStart := none } else s) :=
    running_of_settled hs fun x => if linkDue x then { x with linkPin := false, linkStart := none } else x
  refine ⟨fun h => ?idle, fun f h hm => ?plain, fun f k h hm hr => ?response, fun start hpin hstart => ⟨fun hd => ?due,
    fun hd => ?early⟩, fun hpin => ?off⟩
  case idle =>
    rw [hend, endTransmission, h]
  case plain =>
    rw [hend, endTransmission_of_some h, beq_eq_false_iff_ne.mpr hm]
    rfl
  case response =>
    have hwaiting : (linkActivity (s.modPort p fun x => { x with sending := none })).resetPending = .waiting k := by
      rw [linkActivity_resetPending, modPort_resetPending, hr]
    rw [hend, endTransmission_of_some h, hm, beq_self_eq_true]
    simp only [doIf, if_true, responseSent, hwaiting]
  case due => rw [hexpiry, linkDue_iff hpin hstart, decide_eq_true hd, if_pos rfl]
  case early =>
    rw [hexpiry, linkDue_iff hpin hstart, decide_eq_false (Nat.not_le.mpr hd), if_neg Bool.false_ne_true]
  case off =>
    have hdue : linkDue s = false := by rw [linkDue, hpin]; rfl
    rw [hexpiry, hdue, if_neg Bool.false_ne_true]

/-! ## The off frame that is first to wait (R79, R153) -/

/-- The numbers below one come before it. -/
theorem finRange_split {n : Nat} (i : Fin n) : ∃ l r, List.finRange n = l ++ i :: r ∧ ∀ j ∈ l, j < i := by
  obtain ⟨l, r, h⟩ := List.append_of_mem (List.mem_finRange i)
  refine ⟨l, r, h, fun j hj => ?_⟩
  have hsorted := List.pairwise_lt_finRange n
  rw [h, List.pairwise_append] at hsorted
  exact hsorted.2.2 j hj i List.mem_cons_self

theorem pressWaiting_of_placed {q : PressNo} (h : ∀ o, (s.ejector q).offOwed = some o → o.placed = true) :
    pressWaiting s q = none := by
  unfold pressWaiting
  cases ho : (s.ejector q).offOwed with
  | none => rfl
  | some o => simp [h o ho]

theorem zoneWaiting_of_placed {z : ZoneNo} (h : ∀ o ∈ (s.zone z).offs, o.placed = true) : zoneWaiting s z = [] := by
  unfold zoneWaiting
  rw [List.filter_eq_nil_iff.mpr fun o ho => by simp [h o ho]]
  rfl

theorem pressesWaiting_head {q : PressNo} {o : OffOwed}
    (hbefore : ∀ q', q' < q → ∀ o', (s.ejector q').offOwed = some o' → o'.placed = true)
    (ho : (s.ejector q).offOwed = some o) (hp : o.placed = false) :
    ∃ rest, (List.finRange 4).filterMap (pressWaiting s) = ejectOff s q o :: rest := by
  obtain ⟨l, r, hsplit, hl⟩ := finRange_split q
  have hnone : l.filterMap (pressWaiting s) = [] :=
    List.filterMap_eq_nil_iff.mpr fun q' hq' => pressWaiting_of_placed (hbefore q' (hl q' hq'))
  have hsome : pressWaiting s q = some (ejectOff s q o) := by simp [pressWaiting, ho, hp]
  rw [hsplit, List.filterMap_append, hnone, List.nil_append, List.filterMap_cons, hsome]
  exact ⟨_, rfl⟩

theorem zonesWaiting_head {z : ZoneNo} {l r : List OffCommand} {o : OffCommand}
    (hbefore : ∀ z', z' < z → ∀ o' ∈ (s.zone z').offs, o'.placed = true) (ho : (s.zone z).offs = l ++ o :: r)
    (hl : ∀ o' ∈ l, o'.placed = true) (hp : o.placed = false) :
    ∃ rest, (List.finRange 48).flatMap (zoneWaiting s) = heatOff s z o :: rest := by
  obtain ⟨zl, zr, hsplit, hzl⟩ := finRange_split z
  have hnone : zl.flatMap (zoneWaiting s) = [] :=
    List.flatMap_eq_nil_iff.mpr fun z' hz' => zoneWaiting_of_placed (hbefore z' (hzl z' hz'))
  have hsome : ∃ rest, zoneWaiting s z = heatOff s z o :: rest := by
    have hnil : l.filter (fun o => !o.placed) = [] := List.filter_eq_nil_iff.mpr fun o' ho' => by simp [hl o' ho']
    rw [zoneWaiting, ho, List.filter_append, hnil, List.nil_append, List.filter_cons_of_pos (by simp [hp])]
    exact ⟨_, rfl⟩
  obtain ⟨rest, hrest⟩ := hsome
  rw [hsplit, List.flatMap_append, hnone, List.nil_append, List.flatMap_cons, hrest]
  exact ⟨_, rfl⟩

/-- The first to wait finds the place. -/
theorem placedOf_cons {f : OwnFrame} {rest : List OwnFrame} (hroom : s.portD.own.length < 16) :
    ∃ more, placedOf (f :: rest) s = f :: more := by
  obtain ⟨k, hk⟩ := Nat.exists_eq_add_of_lt hroom
  have hplaces : Config.ownPlaces - s.portD.own.length = k + 1 := by unfold Config.ownPlaces; omega
  rw [placedOf, hplaces, List.take_succ_cons]
  exact ⟨_, rfl⟩

theorem fillPlaces_prefix {f : OwnFrame} {rest : List OwnFrame} (hroom : s.portD.own.length < 16) :
    s.portD.own ++ [f] <+: (fillPlaces (f :: rest) s).portD.own ∧ hasPlaced (f :: rest) s f.mark = true := by
  obtain ⟨more, hmore⟩ := placedOf_cons (f := f) (rest := rest) hroom
  refine ⟨⟨more, ?_⟩, ?_⟩
  · rw [fillPlaces, hmore, List.append_assoc]
    rfl
  · rw [hasPlaced, hmore]
    simp

theorem owed_fillPlaces {q : PressNo} {o : OffOwed} {rest : List OwnFrame} (hroom : s.portD.own.length < 16)
    (ho : (s.ejector q).offOwed = some o) :
    ((fillPlaces (ejectOff s q o :: rest) s).ejector q).offOwed = some { o with placed := true } := by
  have hsent : hasPlaced (ejectOff s q o :: rest) s (.ejectOff q o.number) = true := (fillPlaces_prefix hroom).2
  rw [ejector_fillPlaces, flaggedEjector, ho]
  simp [hsent]

theorem off_fillPlaces {z : ZoneNo} {o : OffCommand} {rest : List OwnFrame} (hroom : s.portD.own.length < 16)
    (ho : o ∈ (s.zone z).offs) :
    { o with placed := true } ∈ ((fillPlaces (heatOff s z o :: rest) s).zone z).offs := by
  have hsent : hasPlaced (heatOff s z o :: rest) s (.heaterOff z o.number) = true := (fillPlaces_prefix hroom).2
  rw [zone_fillPlaces]
  refine List.mem_map.mpr ⟨o, ho, ?_⟩
  simp [hsent]

theorem placedOf_of_idle (h : 16 ≤ s.portD.own.length ∨ w = []) : placedOf w s = [] := by
  rcases h with h | rfl
  · rw [placedOf, Nat.sub_eq_zero_of_le (show Config.ownPlaces ≤ _ from h), List.take_zero]
  · exact List.take_nil

theorem waitingOffs_of_not_offWaits (h : s.offWaits = false) : s.waitingOffs = [] := by
  refine List.eq_nil_iff_forall_not_mem.mpr fun x hx => ?_
  refine absurd (offWaits_iff.mpr ?_) (Bool.eq_false_iff.mp h)
  rcases mem_waitingOffs hx with ⟨q, o, ho, hp, _⟩ | ⟨z, o, ho, hp, _⟩
  · exact .inr ⟨q, o, ho, hp⟩
  · exact .inl ⟨z, o, ho, hp⟩

theorem exportMoves_of_idle (h : s.exportQueue = [] ∨ 12 < s.portU.own.length) : s.exportMoves = s := by
  have hmove : s.canMove = false := by
    unfold canMove Config.exportRoom
    rcases h with h | h
    · simp [h]
    · simp [Nat.not_le.mpr h]
  unfold exportMoves
  cases s.exportQueue.length with
  | zero => rfl
  | succ n => rw [moveHeads, hmove, if_neg Bool.false_ne_true]

theorem normal_of_Normal {own : Nat} (h : s.Normal own) : s.normal = true := by rw [State.normal, h.2.1]

theorem placeOffCommand_changes (z : ZoneNo) (o : OffCommand) (s : State) :
    OnlyChanges [.zones, .portD] s (placeOffCommand z o s) := by
  unfold placeOffCommand
  split
  · refine .before (fun y hy => ?_) (by decide) (modZone_changes z _ _)
    cases y <;> first | rfl | exact absurd (by decide) hy
  · exact .refl s

theorem placeZoneOffs_changes (z : ZoneNo) (s : State) : OnlyChanges [.zones, .portD] s (placeZoneOffs z s) :=
  .each (f := placeOffCommand z) (placeOffCommand_changes z) (s.zone z).offs (.refl s)

theorem placeHeaterOffs_changes (s : State) : OnlyChanges [.zones, .portD] s s.placeHeaterOffs := by
  unfold placeHeaterOffs
  split
  · exact .each (f := placeZoneOffs) placeZoneOffs_changes (List.finRange 48) (.refl s)
  · exact .refl s

/-- Where no EJECT_OFF waits the placing of off frames is the heaters' alone. -/
theorem placeOwed_changes_of_no_ejector (hn : s.normal = true)
    (h : (List.finRange 4).filterMap (pressWaiting s) = []) : OnlyChanges [.zones, .portD] s s.placeOwed := by
  rw [placeOwed, placeEjectOffs_eq hn, h, fillPlaces_nil]
  exact placeHeaterOffs_changes s

/-- Settles O53: what a REPORT, an owed EJECT_OFF and an off command need to take a place. -/
theorem exportAndOffPlacement : Obligations.ExportAndOffPlacement := by
  intro s own hs
  have hn := normal_of_Normal hs
  have hexports : exec .exportMove s = .next s.exportMoves := running_of_settled hs.1 _
  have hejects : exec .ejectOffPlace s = .next s.placeEjectOffs := running_of_settled hs.1 _
  have hoffs : exec .offCommandPlace s = .next s.placeOwed := running_of_settled hs.1 _
  refine ⟨fun h => ?idle, fun n rest i r hwarm hq hroom hi hserial hone => ?head, fun h => ?full,
    fun q o hroom hbefore ho hp => ?eject, fun z l r o hroom hpresses hbefore ho hl hp => ?off⟩
  case idle => rw [hexports, exportMoves_of_idle h]
  case head =>
    have hmoved := exportsMoved_exportMoves hs.live hwarm
    obtain ⟨moved, hqueue, hport, _, hend, _, _, hmark, hchanges⟩ := id hmoved
    have hslot : s.ringRecord n = some r := by
      rw [ringRecord_eq, slotOf_of_unique hi hserial hone, Option.bind_some, hi]
    have hfirst : ∃ more, moved = n :: more ∧ rest = more ++ s.exportMoves.exportQueue := by
      cases moved with
      | nil =>
        rw [List.nil_append, hq] at hqueue
        rcases hend with hnil | hfull
        · rw [hnil] at hqueue
          cases hqueue
        · rw [hport, List.filterMap_nil, List.append_nil] at hfull
          exact absurd hroom (Nat.not_le.mpr hfull)
      | cons m more =>
        rw [hq, List.cons_append, List.cons.injEq] at hqueue
        exact ⟨more, by rw [hqueue.1], hqueue.2⟩
    obtain ⟨more, rfl, hrest⟩ := hfirst
    refine ⟨_, hexports, ?_, ?_, ⟨more, hrest.symm⟩, hend, hmoved, hchanges⟩
    · rw [hmark i r hi fun j r' hj hsame => Fin.le_of_eq (hone j r' hj (hsame.trans hserial)).symm]
      simp [hserial]
    · rw [hport, List.filterMap_cons, hslot]
      exact ⟨_, List.append_assoc _ _ _⟩
  case full =>
    have hnone (w : List OwnFrame) (hw : w <+: s.waitingOffs) : fillPlaces w s = s := by
      refine fillPlaces_of_none (placedOf_of_idle (h.imp_right fun h => ?_))
      rw [waitingOffs_of_not_offWaits h] at hw
      exact List.prefix_nil.mp hw
    rw [hejects, hoffs, placeEjectOffs_eq hn, placeOwed_eq hn, hnone _ (List.prefix_refl _), hnone]
    · exact ⟨rfl, rfl⟩
    · rw [waitingOffs_eq]
      exact List.prefix_append _ _
  case eject =>
    obtain ⟨rest, hrest⟩ := pressesWaiting_head hbefore ho hp
    dsimp only
    refine ⟨⟨_, hejects, ?_⟩, _, hoffs, ?_⟩
    · have hchanges := placeEjectOffs_changes s
      rw [placeEjectOffs_eq hn, hrest] at hchanges ⊢
      exact ⟨(fillPlaces_prefix hroom).1, owed_fillPlaces hroom ho, hchanges.mono (by decide)⟩
    · have hchanges := placeOwed_changes s
      rw [placeOwed_eq hn, waitingOffs_eq, hrest, List.cons_append] at hchanges ⊢
      exact ⟨(fillPlaces_prefix hroom).1, owed_fillPlaces hroom ho, hchanges.mono (by decide)⟩
  case off =>
    have hnone : (List.finRange 4).filterMap (pressWaiting s) = [] :=
      List.filterMap_eq_nil_iff.mpr fun q _ => pressWaiting_of_placed (hpresses q)
    obtain ⟨rest, hrest⟩ := zonesWaiting_head hbefore ho hl hp
    have hchanges := placeOwed_changes_of_no_ejector hn hnone
    refine ⟨_, hoffs, ?_⟩
    rw [placeOwed_eq hn, waitingOffs_eq, hnone, List.nil_append, hrest] at hchanges ⊢
    exact ⟨(fillPlaces_prefix hroom).1, off_fillPlaces hroom (by rw [ho]; simp), hchanges⟩

end Sys2Proof.Proofs.Transmitters
end

