-- ==== Sys2Proof/Proofs/Broadcasts.lean ====
section
/-! PROOFS. Frames addressed to 63 (R14), and the gate of an OPEN_EMERGENCY (R138). -/

namespace Sys2Proof.Proofs.Broadcasts

set_option Elab.async false

open Sys2Proof.Machine Sys2Proof.Machine.State Sys2Proof.Proofs.FrameHandling Sys2Proof.Proofs.PlainGates

variable {s : State} {bytes : List Byte} {f : RxFrame} {p : PressNo}

/-! ## Broadcasts (R14) -/

theorem running_broadcast (h : s.Hears bytes f) (hd : f.dst = 63) :
    running (receive .U bytes) s = .next (takeBroadcast f s.linkActivity) := by
  obtain ⟨⟨own, hn⟩, hp⟩ := h
  have hown : f.dst ≠ s.linkActivity.ownAddress := by
    rw [linkActivity_ownAddress, hn.ownAddress, hd]
    have := hn.2.2.2
    omega
  rw [running_receive_up hn hp, takeUp, if_neg hown, if_pos (show f.dst = Config.broadcast from hd)]

theorem takeBroadcast_of_command (hk : f.kind = FrameKind.command.code) (s : State) :
    takeBroadcast f s = broadcastCommand f s := by
  rw [takeBroadcast, if_pos hk]

theorem takeBroadcast_of_heat (hk : f.kind = FrameKind.heat.code) (s : State) :
    takeBroadcast f s = heatUnless s.anyEnabled 63 f.bytes s := by
  rw [takeBroadcast, if_neg (by rw [hk]; decide), if_pos hk]
  rfl

theorem takeBroadcast_of_other (hc : f.kind ≠ FrameKind.command.code) (hh : f.kind ≠ FrameKind.heat.code) (s : State) :
    takeBroadcast f s = forwardTo .D f.bytes s := by
  rw [takeBroadcast, if_neg hc, if_neg hh]

theorem anyEnabled_iff : s.anyEnabled = true ↔ ∃ z, s.enabled z = true := by
  simp [anyEnabled]

theorem anyEnabled_linkActivity (s : State) : s.linkActivity.anyEnabled = s.anyEnabled := rfl

theorem refuseBroadcast_eq (code src : Nat) (k : EventKind) (s : State) : refuseBroadcast code src k s =
    raiseNow k .nothing (originate .U src .refusal [255#8, BitVec.ofNat 8 code, 8#8] .plain s) := by
  rw [refuseBroadcast, refuse_eq]
  rfl

/-- Settles O25: by kind, then by what a COMMAND's payload spells. -/
theorem broadcastFrames : Obligations.BroadcastFrames := by
  intro s bytes f h hd
  have hbytes := parseFrame_bytes h.2
  have hrun := running_broadcast h hd
  refine ⟨fun hk hc => ?close, fun hk hc => ?openPlain, fun hk hc => ?emergency, fun hk hz => ?conflict,
    fun hk hz => ?free, fun hother => ?other⟩
  case close =>
    have hexec : exec (.broadcastCloseOpen bytes) s = running (receive .U bytes) s := rfl
    rw [hexec, hrun, takeBroadcast_of_command hk, broadcastCommand, hc]
    exact congrArg Host.Outcome.next (refuseBroadcast_eq _ _ _ _)
  case openPlain =>
    have hexec : exec (.broadcastCloseOpen bytes) s = running (receive .U bytes) s := rfl
    rw [hexec, hrun, takeBroadcast_of_command hk, broadcastCommand, hc]
    exact congrArg Host.Outcome.next (refuseBroadcast_eq _ _ _ _)
  case emergency =>
    have hexec : exec (.broadcastOpenEmergency bytes) s = running (receive .U bytes) s := rfl
    rw [hexec, hrun, takeBroadcast_of_command hk, broadcastCommand, hc, ← hbytes]
    rfl
  case conflict =>
    have hexec : exec (.broadcastHeat bytes) s = running (receive .U bytes) s := rfl
    rw [hexec, hrun, takeBroadcast_of_heat hk, anyEnabled_linkActivity, anyEnabled_iff.mpr hz, heatUnless_of_conflict]
  case free =>
    have hexec : exec (.broadcastHeat bytes) s = running (receive .U bytes) s := rfl
    rw [hexec, hrun, takeBroadcast_of_heat hk, anyEnabled_linkActivity, Bool.eq_false_iff.mpr (mt anyEnabled_iff.mp hz),
      heatUnless_of_no_conflict, hbytes]
  case other =>
    rw [exec_forwardFrame, hrun]
    refine congrArg Host.Outcome.next ?_
    rcases hother with ⟨hk, hk'⟩ | ⟨hk, hc⟩ | ⟨n, hk, hc⟩
    · rw [takeBroadcast_of_other hk hk', hbytes]
    all_goals rw [takeBroadcast_of_command hk, broadcastCommand, hc, ← hbytes]

/-! ## The gate of an OPEN_EMERGENCY (R138) -/

/-- The unit opens as aborted. -/
def openedEmergency (p : PressNo) (tm : Time) (x : State) : State :=
  ((x.modUnit p fun u => { u with state := .opening, aborted := true }).modRecord p fun r =>
    { r with openTime := some tm }).modRecord p (·.set .emergencyOpen)

theorem emergencyOpening_eq (p : PressNo) (s : State) : emergencyOpening p s = openedEmergency p s.timebase s := by
  rw [emergencyOpening, enterOpening_of_abort]
  rfl

theorem raiseNow_timebase (k : EventKind) (i : EventOn) (s : State) : (raiseNow k i s).timebase = s.timebase :=
  (raiseNow_changes k i s .timebase (by decide)).symm

theorem raiseNow_cure (k : EventKind) (i : EventOn) (p : PressNo) (s : State) :
    (raiseNow k i s).cure p = s.cure p :=
  congrArg (fun v : Vector Cure 4 => v[p]) (raiseNow_changes k i s .cures (by decide)).symm

theorem endCure_of_accruing (h : (s.cure p).status = .accruing) (tm : Time) : endCure p tm s =
    (s.modCure p fun c => { c with status := .stopped, endTime := some tm }).modRecord p fun r =>
      { r with cureEnd := some tm, cureAchieved := (s.cure p).progress } := by
  simp only [endCure, h, if_true]

theorem gateEmergency_of_pressed (h : (s.unit p).state = .closing ∨ (s.unit p).state = .demouldWait) :
    gateEmergency p s = openedEmergency p s.timebase (raiseNow .emergencyOpen (.press p) s) := by
  rw [← raiseNow_timebase .emergencyOpen (.press p) s, ← emergencyOpening_eq]
  rcases h with h | h <;> rw [gateEmergency, h]

theorem gateEmergency_of_cure (h : (s.unit p).state = .cure) (hc : (s.cure p).status = .accruing) :
    gateEmergency p s = openedEmergency p s.timebase
      (((raiseNow .emergencyOpen (.press p) s).modCure p fun c =>
        { c with status := .stopped, endTime := some s.timebase }).modRecord p fun r =>
          { r with cureEnd := some s.timebase, cureAchieved := (s.cure p).progress }) := by
  have hraised : ((raiseNow .emergencyOpen (.press p) s).cure p).status = .accruing := by rw [raiseNow_cure, hc]
  have hended := endCure_of_accruing hraised s.timebase
  rw [raiseNow_cure] at hended
  have htime : (endCure p s.timebase (raiseNow .emergencyOpen (.press p) s)).timebase = s.timebase :=
    (endCure_changes p _ _ .timebase (by decide)).symm.trans (raiseNow_timebase _ _ s)
  rw [← hended, gateEmergency, h]
  dsimp only
  rw [emergencyOpening_eq, htime]

theorem gateEmergency_of_no_effect (h : (s.unit p).state ∈
      [.disabled, .idle, .chargeWait, .chargeReady, .opening, .eject, .unload, .fault]) :
    gateEmergency p s = raiseNow .emergencyOpen (.press p) s := by
  cases hs : (s.unit p).state with
  | closing | cure | demouldWait => simp [hs] at h
  | disabled | idle | chargeWait | chargeReady | opening | eject | unload | fault => simp only [gateEmergency, hs]

theorem exec_openEmergency (h : s.Commanded bytes f p .openEmergency) :
    exec (.openEmergency bytes) s = .next (forwardTo .D bytes (gateEmergency p s.linkActivity)) := by
  have hrun : exec (.openEmergency bytes) s = running (receive .U bytes) s := rfl
  have ⟨⟨_, _, hparse⟩, _, _, _, hopen⟩ := h
  rw [hrun, running_commanded h, commandToPress, hopen, parseFrame_bytes hparse]

/-- Settles O30: what a unit makes of the command in each state, and the command that passes. -/
theorem emergencyGate : Obligations.EmergencyGate := by
  refine ⟨fun s p => ⟨gateEmergency_of_pressed, gateEmergency_of_cure, gateEmergency_of_no_effect⟩,
    fun s bytes f p h => ⟨fun hs => ?_, fun hs hc => ?_, fun hs => ?_⟩⟩
  · rw [exec_openEmergency h, gateEmergency_of_pressed (s := s.linkActivity) hs]
    rfl
  · rw [exec_openEmergency h, gateEmergency_of_cure (s := s.linkActivity) hs hc]
    rfl
  · rw [exec_openEmergency h, gateEmergency_of_no_effect (s := s.linkActivity) hs]

end Sys2Proof.Proofs.Broadcasts
end

