-- ==== Sys2Proof/Proofs/Events.lean ====
section
/-! PROOFS. Raising an event (R184, R185, R159) and the requests for events (R186 to R188).

A raise sets its kind's entry and the notes of the OPEN records, and then evaluates attention; each of the three is
said once here, by what it leaves of the entries, of the ring and of Port U. -/

namespace Sys2Proof.Proofs.Events

set_option Elab.async false

open Sys2Proof.Machine Sys2Proof.Machine.State Sys2Proof.Proofs.AttentionAndOffs Sys2Proof.Proofs.RequestChanges
  Sys2Proof.Proofs.HistoryRequests

variable {s t u : State} {k : EventKind} {i : EventOn} {tm : Time} {p q : PressNo} {j : Fin 512}

/-! ## OPEN records (R158) -/

/-- A write to the OPEN record of a press is a write to its slot. -/
theorem slots_modRecord (p : PressNo) (g : Record → Record) (j : Fin 512) (s : State) :
    (s.modRecord p g).history.slots[j] =
      if s.history.openRecord[p] = some j then (s.history.slots[j]).map g else s.history.slots[j] := by
  unfold modRecord
  split
  · rename_i i hi
    by_cases hij : i = j
    · subst hij
      simp [hi]
    · have hval : i.val ≠ j.val := fun h => hij (Fin.ext h)
      simp [hi, hij, hval]
  · rename_i hi
    simp [hi]

theorem history_modRecord (p : PressNo) (g : Record → Record) (s : State) :
    (s.modRecord p g).history = { s.history with slots := (s.modRecord p g).history.slots } := by
  unfold modRecord
  split <;> rfl

theorem openRecord_of_history (h : t.history = s.history) (p : PressNo) : t.openRecord p = s.openRecord p := by
  unfold State.openRecord
  rw [h]

section

variable {g : Record → Record} {l : List PressNo}

theorem openIndex_noteAll (l : List PressNo) (g : Record → Record) (s : State) :
    (each (fun p => modRecord p g) l s).history.openRecord = s.history.openRecord :=
  each_keeps _ (fun s => s.history.openRecord) (fun p s => modRecord_history_openRecord p g s) l s

theorem history_noteAll (l : List PressNo) (g : Record → Record) (s : State) :
    (each (fun p => modRecord p g) l s).history
      = { s.history with slots := (each (fun p => modRecord p g) l s).history.slots } := by
  induction l generalizing s with
  | nil => rfl
  | cons p l ih => rw [each_cons, ih, history_modRecord]

/-- A slot that is no OPEN record of the presses keeps its record. -/
theorem slots_noteAll_of_none (h : ∀ p ∈ l, s.history.openRecord[p] ≠ some j) :
    (each (fun p => modRecord p g) l s).history.slots[j] = s.history.slots[j] := by
  induction l generalizing s with
  | nil => rfl
  | cons p l ih =>
    have hp := h p List.mem_cons_self
    rw [each_cons, ih fun q hq => by
      rw [modRecord_history_openRecord]; exact h q (List.mem_cons_of_mem _ hq), slots_modRecord, if_neg hp]

/-- The OPEN record of one of the presses, and of no other, is written once. -/
theorem slots_noteAll_of_mem (hl : l.Nodup) (hp : p ∈ l) (hj : s.history.openRecord[p] = some j)
    (hone : ∀ q, q ≠ p → s.history.openRecord[q] ≠ some j) :
    (each (fun p => modRecord p g) l s).history.slots[j] = (s.history.slots[j]).map g := by
  induction l generalizing s with
  | nil => cases hp
  | cons q l ih =>
    obtain ⟨hq, hl⟩ := List.nodup_cons.mp hl
    rw [each_cons]
    by_cases hpq : p = q
    · subst hpq
      rw [slots_noteAll_of_none, slots_modRecord, if_pos hj]
      intro r hr
      rw [modRecord_history_openRecord]
      exact hone r fun h => hq (h ▸ hr)
    · rw [ih hl ((List.mem_cons.mp hp).resolve_left hpq) (by rwa [modRecord_history_openRecord])
        (by rwa [modRecord_history_openRecord]), slots_modRecord, if_neg (hone q (Ne.symm hpq))]

end

/-! ## The entries and the notes of a raise (R184, R159) -/

theorem events_raiseEntry (tm : Time) (k : EventKind) (i : EventOn) (s : State) : (s.raiseEntry tm k i).events =
    s.events.set k.number (raisedEntry tm i.code s.events[k.number]) :=
  each_keeps _ State.events (fun p s => modRecord_events p _ s) _ _

theorem event_raiseEntry (tm : Time) (k : EventKind) (i : EventOn) (s : State) (j : Fin 25) :
    (s.raiseEntry tm k i).events[j] =
      if j = k.number then raisedEntry tm i.code s.events[j] else s.events[j] := by
  rw [events_raiseEntry]
  by_cases h : k.number = j
  · subst h
    simp
  · have hval : k.number.val ≠ j.val := fun he => h (Fin.ext he)
    simp [hval, Ne.symm h]

/-- The note of a raise. -/
def noteOf (tm : Time) (k : EventKind) (i : EventOn) : Record → Record :=
  addNote { time := tm, kind := k, inst := i.code }

/-- The presses that a raise is noted with. -/
def Noted (s : State) (i : EventOn) (p : PressNo) : Prop :=
  i = .press p ∨ (∃ z, i = .zone z ∧ pressOf z = p)
    ∨ ∃ c r, i = .scale c ∧ s.boundRecipe p = some r ∧ r.scale = c.val

theorem mem_notedPresses : p ∈ s.notedPresses i ↔ Noted s i p := by
  unfold Noted notedPresses
  cases i with
  | nothing | port | node => simp
  | press r => simp [eq_comm]
  | zone z => simp [eq_comm]
  | scale c => simp [Option.any_eq_true]

theorem notedPresses_nodup (s : State) (i : EventOn) : (s.notedPresses i).Nodup := by
  unfold notedPresses
  cases i with
  | scale c => exact (List.nodup_finRange 4).filter _
  | press | zone => exact List.nodup_singleton _
  | nothing | port | node => exact List.nodup_nil

/-- What a raise leaves of the ring: its note in the OPEN records of the presses it belongs to. -/
def Notes (tm : Time) (k : EventKind) (i : EventOn) (s t : State) : Prop :=
  t.history = { s.history with slots := t.history.slots }
    ∧ (∀ j : Fin 512, (∀ p, Noted s i p → s.history.openRecord[p] ≠ some j) → t.history.slots[j] = s.history.slots[j])
    ∧ ∀ (p : PressNo) (j : Fin 512), Noted s i p → s.history.openRecord[p] = some j →
      (∀ q, q ≠ p → s.history.openRecord[q] ≠ some j) → t.history.slots[j] = (s.history.slots[j]).map (noteOf tm k i)

theorem notes_raiseEntry (tm : Time) (k : EventKind) (i : EventOn) (s : State) :
    Notes tm k i s (s.raiseEntry tm k i) := by
  have hpresses : ({ s with events := s.events.set k.number (raisedEntry tm i.code s.events[k.number]) }
      : State).notedPresses i = s.notedPresses i := by cases i <;> rfl
  unfold raiseEntry noteEvent
  rw [hpresses]
  refine ⟨history_noteAll _ _ _, fun j hj => ?_, fun p j hp hj hone => ?_⟩
  · exact slots_noteAll_of_none fun p hp => hj p (mem_notedPresses.mp hp)
  · exact slots_noteAll_of_mem (notedPresses_nodup s i) (mem_notedPresses.mpr hp) hj hone

/-- The OPEN record of the one press of a raise takes the note. -/
theorem openRecord_raiseEntry (hi : i = .press p ∨ ∃ z, i = .zone z ∧ pressOf z = p) :
    (s.raiseEntry tm k i).openRecord p = (s.openRecord p).map (noteOf tm k i) := by
  have hone (x : State) (hx : x.history = s.history) : (each (fun p => modRecord p (noteOf tm k i)) [p] x).openRecord p
      = (s.openRecord p).map (noteOf tm k i) := by
    rw [each_cons, each_nil, openRecord_modRecord, openRecord_of_history hx]
  rcases hi with rfl | ⟨z, rfl, rfl⟩
  · exact hone { s with events := _ } rfl
  · exact hone { s with events := _ } rfl

theorem notes_of_history (h : u.history = t.history) (hn : Notes tm k i s t) : Notes tm k i s u := by
  unfold Notes at *
  rwa [h]

theorem noteOf_eq (tm : Time) (k : EventKind) (i : EventOn) (r : Record) : noteOf tm k i r =
    if r.notes.length < 4 then { r with notes := r.notes ++ [{ time := tm, kind := k, inst := i.code }] }
    else { r with notesDropped := min 255 (r.notesDropped + 1) } := by
  unfold noteOf addNote satSucc
  rw [Nat.min_comm 255]
  rfl

/-! ## The evaluation of attention (R185) -/

theorem evalAttention_of_pending (hw : s.warmTaking = false) (hp : s.anyPending = true) (ha : s.attention = true) :
    s.evalAttention tm = s := by
  rw [evalAttention, if_neg (by rw [hw]; decide), if_pos hp, if_pos ha]

theorem evalAttention_of_new (hw : s.warmTaking = false) (hp : s.anyPending = true) (ha : s.attention = false) :
    s.evalAttention tm = sendEvent tm { s with attention := true, attnPin := true } := by
  rw [evalAttention, if_neg (by rw [hw]; decide), if_pos hp, if_neg (by rw [ha]; decide)]

theorem evalAttention_of_none (hw : s.warmTaking = false) (hp : s.anyPending = false) :
    s.evalAttention tm = { s with attention := false, attnPin := false } := by
  rw [evalAttention, if_neg (by rw [hw]; decide), if_neg (by rw [hp]; decide)]

theorem eventPayload_eq (tm : Time) (s : State) : s.eventPayload tm = timeBytes tm ++ listBytes
    (fun k : Fin 25 => [BitVec.ofNat 8 k.val, BitVec.ofNat 8 s.events[k].first, BitVec.ofNat 8 s.events[k].count])
    ((List.finRange 25).filter fun k => s.events[k].raw && s.events[k].enable) := by
  unfold eventPayload
  simp [natBytes, EventEntry.pending]

/-- The EVENT frame of a time. -/
def eventFrame (tm : Time) (s : State) : OwnFrame :=
  { dst := s.controller, src := s.ownAddress, kind := .event, payload := s.eventPayload tm, mark := .plain }

theorem sendEvent_of_room (h : s.portU.own.length < 16) : s.sendEvent tm =
    { s with portU := { s.portU with own := s.portU.own ++ [eventFrame tm s] } } := by
  rw [sendEvent, if_pos (show _ < Config.ownPlaces from h)]
  rfl

theorem anyPending_of_events (h : t.events = s.events) : t.anyPending = s.anyPending := by
  unfold anyPending
  rw [h]

theorem raise_of_live (h : s.live = true) : s.raise tm k i = (s.raiseEntry tm k i).evalAttention tm := by
  rw [State.raise, if_pos h]

/-! ## Raising an event -/

/-- What an evaluation of attention leaves where Port U OWN has a place or attention was on. -/
theorem evalAttention_of_room (hw : s.warmTaking = false) (hr : s.portU.own.length < 16 ∨ s.attention = true) :
    (s.evalAttention tm).events = s.events ∧ (s.evalAttention tm).attention = s.anyPending
      ∧ (s.evalAttention tm).attnPin = (if s.attention && s.anyPending then s.attnPin else s.anyPending)
      ∧ (s.evalAttention tm).history = s.history
      ∧ (s.evalAttention tm).portU = if s.anyPending && !s.attention then
          { s.portU with own := s.portU.own ++ [eventFrame tm s] } else s.portU := by
  cases hp : s.anyPending with
  | false =>
    rw [evalAttention_of_none hw hp]
    simp
  | true =>
    cases ha : s.attention with
    | true =>
      rw [evalAttention_of_pending hw hp ha]
      simp [ha]
    | false =>
      have hroom := hr.resolve_right (by rw [ha]; decide)
      rw [evalAttention_of_new hw hp ha, sendEvent_of_room (s := { s with attention := true, attnPin := true }) hroom]
      exact ⟨rfl, rfl, rfl, rfl, rfl⟩

theorem raiseEntry_warmTaking' (hw : s.warmTaking = false) : (s.raiseEntry tm k i).warmTaking = false := by
  rw [raiseEntry_warmTaking, hw]

/-- A raise of an enabled kind, or one while a kind is pending, leaves a kind pending. -/
theorem anyPending_raiseEntry_iff : (s.raiseEntry tm k i).anyPending = true ↔ s.events[k.number].enable = true
    ∨ ∃ j : Fin 25, s.events[j].raw = true ∧ s.events[j].enable = true := by
  rw [anyPending_iff]
  constructor
  · rintro ⟨j, hraw, hen⟩
    rw [event_raiseEntry] at hraw hen
    split at hraw
    · rename_i h
      rw [if_pos h] at hen
      exact .inl (h ▸ hen)
    · rename_i h
      rw [if_neg h] at hen
      exact .inr ⟨j, hraw, hen⟩
  · rintro (hen | ⟨j, hraw, hen⟩)
    · exact ⟨k.number, by rw [event_raiseEntry, if_pos rfl]; rfl, by rw [event_raiseEntry, if_pos rfl]; exact hen⟩
    · refine ⟨j, ?_, ?_⟩
      · rw [event_raiseEntry]
        split
        · rfl
        · exact hraw
      · rw [event_raiseEntry]
        split
        · exact hen
        · exact hen

theorem raisedEntry_eq (tm : Time) (code : Nat) (e : EventEntry) : raisedEntry tm code e =
    { raw := true, enable := e.enable, first := if e.raw then e.first else code
      time := if e.raw then e.time else some tm, count := min 255 (e.count + 1) } := by
  rw [raisedEntry, satSucc, Nat.min_comm]

theorem history_raiseEntry_port (tm : Time) (k : EventKind) (p : Port) (s : State) :
    (s.raiseEntry tm k (.port p)).history = s.history := rfl

/-- The EVENT frame that finds no place: it is counted, and its LINK_DROP set the entry alone. -/
theorem sendEvent_of_full' (h : 16 ≤ s.portU.own.length) : s.sendEvent tm = raiseEntry tm .linkDrop (.port .U)
    (s.modPort .U fun x => { x with ownDrops := satSucc Config.max16 x.ownDrops }) :=
  sendEvent_of_full (Nat.not_lt.mpr h) tm

/-- What an evaluation of attention leaves where attention was off and Port U OWN is full. -/
theorem evalAttention_of_full (hw : s.warmTaking = false) (ha : s.attention = false) (hf : 16 ≤ s.portU.own.length) :
    (s.anyPending = false → (s.evalAttention tm).events = s.events ∧ (s.evalAttention tm).attention = false
      ∧ (s.evalAttention tm).attnPin = false ∧ (s.evalAttention tm).portU = s.portU)
    ∧ (s.anyPending = true → (∀ j : Fin 25, (s.evalAttention tm).events[j] =
        if j = 1 then raisedEntry tm 0 s.events[j] else s.events[j])
      ∧ (s.evalAttention tm).attention = true ∧ (s.evalAttention tm).attnPin = true
      ∧ (s.evalAttention tm).portU = { s.portU with ownDrops := satSucc Config.max16 s.portU.ownDrops })
    ∧ (s.evalAttention tm).history = s.history := by
  refine ⟨fun hp => ?_, fun hp => ?_, ?_⟩
  · rw [evalAttention_of_none hw hp]
    exact ⟨rfl, rfl, rfl, rfl⟩
  · rw [evalAttention_of_new hw hp ha, sendEvent_of_full' (s := { s with attention := true, attnPin := true }) hf]
    exact ⟨fun j => event_raiseEntry tm .linkDrop (.port .U) _ j, rfl, rfl, rfl⟩
  · cases hp : s.anyPending with
    | false => rw [evalAttention_of_none hw hp]
    | true =>
      rw [evalAttention_of_new hw hp ha, sendEvent_of_full' (s := { s with attention := true, attnPin := true }) hf]
      rfl

theorem eventFrame_eq (tm : Time) (hc : t.controller = s.controller) (ho : t.ownAddress = s.ownAddress)
    (he : t.events = u.events) : eventFrame tm t =
      { dst := s.controller, src := s.ownAddress, kind := .event, mark := .plain
        payload := timeBytes tm ++ listBytes (fun k : Fin 25 => [BitVec.ofNat 8 k.val,
            BitVec.ofNat 8 u.events[k].first, BitVec.ofNat 8 u.events[k].count])
          ((List.finRange 25).filter fun k => u.events[k].raw && u.events[k].enable) } := by
  rw [eventFrame, eventPayload_eq, hc, ho, he]

/-- Settles O54: the entry, the notes and the evaluation of attention, with a place for the EVENT frame or none. -/
theorem raisingAnEvent : Obligations.RaisingAnEvent := by
  refine ⟨by decide, fun s k i => ?_⟩
  intro noted notes
  have hnotes {t : State} (h : Notes s.timebase k i s t) : notes t := by
    obtain ⟨hhistory, hkept, hwritten⟩ := h
    refine ⟨hhistory, hkept, fun p j r hp hj hone hr => ?_⟩
    rw [hwritten p j hp hj hone, hr, Option.map_some, noteOf_eq]
  refine ⟨fun hl => raise_of_not_live hl _ k i, fun hl hw hroom => ?room, fun hl hw hfull hoff => ?full⟩
  case room =>
    have hraise : raiseNow k i s = (s.raiseEntry s.timebase k i).evalAttention s.timebase := raise_of_live hl
    have hchanges := raiseNow_changes k i s
    intro t n old
    have ht : t = (s.raiseEntry s.timebase k i).evalAttention s.timebase := hraise
    obtain ⟨hevents, hattention, hpin, hhistory, hport⟩ := evalAttention_of_room (tm := s.timebase)
      (s := s.raiseEntry s.timebase k i) (by rwa [raiseEntry_warmTaking])
      (by rwa [raiseEntry_portU, raiseEntry_attention])
    rw [← ht] at hevents hattention hpin hhistory hport
    rw [raiseEntry_attention, raiseEntry_attnPin, ← hattention] at hpin
    rw [raiseEntry_attention, raiseEntry_portU, ← hattention] at hport
    refine ⟨?_, fun j hj => ?_, ?_, hpin, ?_, fun p r hp hr => ?_, ?_, hchanges⟩
    · rw [hevents, event_raiseEntry, if_pos rfl, raisedEntry_eq]
    · rw [hevents, event_raiseEntry, if_neg hj]
    · rw [hattention]
      exact anyPending_raiseEntry_iff
    · rw [hport, eventFrame_eq (s := s) s.timebase _ _ hevents.symm]
      · rw [controller, controller, raiseEntry_tables]
      · rw [ownAddress, ownAddress, raiseEntry_mode]
    · rw [openRecord_of_history hhistory, openRecord_raiseEntry hp, hr, Option.map_some, noteOf_eq]
    · exact hnotes (notes_of_history hhistory (notes_raiseEntry _ _ _ _))
  case full =>
    have hraise : raiseNow k i s = (s.raiseEntry s.timebase k i).evalAttention s.timebase := raise_of_live hl
    have hchanges := raiseNow_changes k i s
    intro t raised once pends
    have ht : t = (s.raiseEntry s.timebase k i).evalAttention s.timebase := hraise
    obtain ⟨hnone, hpend, hhistory⟩ := evalAttention_of_full (tm := s.timebase)
      (s := s.raiseEntry s.timebase k i) (by rwa [raiseEntry_warmTaking]) (by rwa [raiseEntry_attention])
      (by rwa [raiseEntry_portU])
    rw [← ht] at hnone hpend hhistory
    rw [raiseEntry_portU] at hnone hpend
    have honce (j : Fin 25) : (s.raiseEntry s.timebase k i).events[j] = once j := by
      rw [event_raiseEntry, raisedEntry_eq]
    have hpends : (s.raiseEntry s.timebase k i).anyPending = true ↔ pends := by
      rw [anyPending_iff]
      simp only [honce]
      rfl
    refine ⟨fun hp => ?_, fun hp => ?_, hnotes (notes_of_history hhistory (notes_raiseEntry _ _ _ _)), hchanges⟩
    · obtain ⟨hevents, hrest⟩ := hnone (Bool.eq_false_iff.mpr (mt hpends.mp hp))
      exact ⟨fun j => by rw [hevents, honce], hrest⟩
    · obtain ⟨hevents, hatt, hpin, hport⟩ := hpend (hpends.mpr hp)
      refine ⟨fun j => ?_, hatt, hpin, ?_⟩
      · rw [hevents, honce, raisedEntry_eq]
      · rw [hport, satSucc, Nat.min_comm]
        rfl

/-! ## The requests for events (R186 to R188) -/

/-- An evaluation of attention that cannot turn it on. -/
theorem evalAttention_of_on (hw : s.warmTaking = false) (ha : s.anyPending = true → s.attention = true) :
    s.evalAttention tm = { s with attention := s.anyPending, attnPin := if s.anyPending then s.attnPin else false } := by
  cases hp : s.anyPending with
  | false => exact evalAttention_of_none hw hp
  | true =>
    have hon := ha hp
    rw [evalAttention_of_pending hw hp hon, if_pos rfl, ← hon]

/-- The entries after CLEAR_EVENTS. -/
def clearedEvents (kinds : BitVec 32) (s : State) : State :=
  { s with events := s.events.mapFinIdx fun i e h => if inSet kinds ⟨i, h⟩ then clearedEntry e else e }

/-- The entries after SET_EVENT_ENABLE. -/
def enabledEvents (kinds : BitVec 32) (s : State) : State :=
  { s with events := s.events.mapFinIdx fun i e h => { e with enable := inSet kinds ⟨i, h⟩ } }

theorem event_clearedEvents (kinds : BitVec 32) (s : State) (k : Fin 25) : (clearedEvents kinds s).events[k] =
    if kinds.getLsbD k.val then { raw := false, enable := s.events[k].enable, first := 255, time := none, count := 0 }
    else s.events[k] := by
  simp [clearedEvents, inSet, clearedEntry]
  rfl

theorem event_enabledEvents (kinds : BitVec 32) (s : State) (k : Fin 25) :
    (enabledEvents kinds s).events[k] = { s.events[k] with enable := kinds.getLsbD k.val } := by
  simp [enabledEvents, inSet]

theorem anyPending_clearedEvents {kinds : BitVec 32} : (clearedEvents kinds s).anyPending = true ↔
    ∃ k : Fin 25, kinds.getLsbD k.val = false ∧ s.events[k].raw = true ∧ s.events[k].enable = true := by
  rw [anyPending_iff]
  refine exists_congr fun k => ?_
  rw [event_clearedEvents]
  cases kinds.getLsbD k.val <;> simp

theorem anyPending_enabledEvents {kinds : BitVec 32} : (enabledEvents kinds s).anyPending = true ↔
    ∃ k : Fin 25, kinds.getLsbD k.val = true ∧ s.events[k].raw = true := by
  rw [anyPending_iff]
  refine exists_congr fun k => ?_
  rw [event_enabledEvents]
  exact and_comm

theorem serveClear_of_none {kinds : BitVec 32} (h : 2 ^ 25 ≤ kinds.toNat) (s : State) :
    s.serveClear kinds = (s, .range, []) := by
  rw [serveClear, namesNoKind, decide_eq_true h, if_pos rfl]

theorem serveClear_of_kinds {kinds : BitVec 32} (h : kinds.toNat < 2 ^ 25) (s : State) :
    s.serveClear kinds = ((clearedEvents kinds s).evalAttention s.timebase, .ok,
      flagByte ((clearedEvents kinds s).evalAttention s.timebase).attention) := by
  rw [serveClear, namesNoKind, decide_eq_false (Nat.not_le.mpr h), if_neg Bool.false_ne_true]
  rfl

theorem serveEnable_of_none {kinds : BitVec 32} (h : 2 ^ 25 ≤ kinds.toNat) (s : State) :
    s.serveEnable kinds = (s, .range, []) := by
  rw [serveEnable, namesNoKind, decide_eq_true h, if_pos rfl]

theorem serveEnable_of_kinds {kinds : BitVec 32} (h : kinds.toNat < 2 ^ 25) (s : State) :
    s.serveEnable kinds = ((enabledEvents kinds s).evalAttention s.timebase, .ok,
      ((enabledEvents kinds s).evalAttention s.timebase).enableBytes
        ++ flagByte ((enabledEvents kinds s).evalAttention s.timebase).attention) := by
  rw [serveEnable, namesNoKind, decide_eq_false (Nat.not_le.mpr h), if_neg Bool.false_ne_true]
  rfl

theorem flagByte_eq (b : Bool) : flagByte b = [if b then 1#8 else 0#8] := by cases b <;> rfl

theorem natBytes_one (n : Nat) : natBytes 1 n = [BitVec.ofNat 8 n] := by simp [natBytes]

theorem enableBytes_eq (s : State) : s.enableBytes =
    (List.finRange 25).map fun k => if s.events[k].enable then 1#8 else 0#8 := by
  simp only [enableBytes, flagByte_eq]
  exact List.map_eq_flatMap.symm

theorem eventBytes_eq (e : EventEntry) : eventBytes e =
    [if e.raw then 1#8 else 0#8, if e.enable then 1#8 else 0#8, BitVec.ofNat 8 e.first]
      ++ (match e.time with | some t => 1#8 :: natBytes 4 t.toNat | none => List.replicate 5 0#8)
      ++ [BitVec.ofNat 8 e.count] := by
  unfold eventBytes optTime
  simp only [flagByte_eq, natBytes_one]
  cases e.time <;> rfl

theorem readEvents_eq (s : State) : s.readEvents = (if s.attention then 1#8 else 0#8) ::
    (List.finRange 25).flatMap fun k => eventBytes s.events[k] := by
  rw [State.readEvents, flagByte_eq]
  rfl

/-- What the law of attention says of a running part. -/
theorem pin_of_law (h : s.AttentionLaw) (hr : s.resetHeld = false) : s.attnPin = s.attention := by
  rw [h.2.1, hr, Bool.not_false, Bool.and_true]

theorem evalAttention_changes_of_room (hw : s.warmTaking = false) (hr : s.portU.own.length < 16 ∨ s.attention = true) :
    OnlyChanges [.events, .attention, .attnPin, .portU] s (s.evalAttention tm) := by
  intro x hx
  obtain ⟨_, _, _, hhistory, _⟩ := evalAttention_of_room (tm := tm) hw hr
  by_cases hh : x = .history
  · subst hh
    exact hhistory.symm
  · refine evalAttention_changes tm s x fun hmem => ?_
    cases x <;> first | exact hh rfl | exact hx (by decide) | exact absurd hmem (by decide)

/-- Settles O55: each request sets entries and has attention evaluated. -/
theorem eventRequests : Obligations.EventRequests := by
  intro s bytes f hlaw
  refine ⟨fun kinds h => ⟨fun hn => ?clearNone, fun hk => ?clear⟩, fun kinds h => ⟨fun hn => ?enableNone,
    fun hk hroom => ?enable⟩, fun h => ?read⟩
  case clearNone =>
    refine (running_answer h nofun).trans ?_
    rw [answer, serveRequest, serveClear_of_none hn]
  case clear =>
    have hpin : s.attnPin = s.attention := pin_of_law hlaw h.1.1.1
    have heval := evalAttention_of_on (tm := s.timebase) (s := clearedEvents kinds s.linkActivity) hlaw.2.2 fun hp => by
      obtain ⟨k, _, hraw, hen⟩ := anyPending_clearedEvents.mp hp
      exact hlaw.1.trans (anyPending_iff.mpr ⟨k, hraw, hen⟩)
    refine ⟨(clearedEvents kinds s.linkActivity).evalAttention s.timebase, ?_, fun k => ?_, ?_, ?_, ?_⟩
    · refine (running_answer h nofun).trans ?_
      rw [answer, serveRequest, serveClear_of_kinds hk, flagByte_eq]
      rfl
    · rw [heval]
      exact event_clearedEvents kinds s k
    · rw [heval]
      exact anyPending_clearedEvents (s := s)
    · rw [heval]
      dsimp only
      split
      · rename_i hp
        obtain ⟨k, _, hraw, hen⟩ := anyPending_clearedEvents.mp hp
        rw [hp]
        exact hpin.trans (hlaw.1.trans (anyPending_iff.mpr ⟨k, hraw, hen⟩))
      · rename_i hp
        exact (Bool.eq_false_iff.mpr hp).symm
    · rw [heval]
      intro x hx
      cases x <;> first | rfl | exact absurd (by decide) hx
  case enableNone =>
    refine (running_answer h nofun).trans ?_
    rw [answer, serveRequest, serveEnable_of_none hn]
  case enable =>
    have hpin : s.attnPin = s.attention := pin_of_law hlaw h.1.1.1
    obtain ⟨hevents, hattention, hpin', hhistory, hport⟩ := evalAttention_of_room (tm := s.timebase)
      (s := enabledEvents kinds s.linkActivity) hlaw.2.2 (.inl hroom)
    refine ⟨(enabledEvents kinds s.linkActivity).evalAttention s.timebase, ?_, fun k => ?_, ?_, ?_, fun hatt => ?_,
      fun hoff hon => ?_, ?_⟩
    · refine (running_answer h nofun).trans ?_
      rw [answer, serveRequest, serveEnable_of_kinds hk, flagByte_eq, enableBytes_eq, linkActivity_timebase]
      have henable (k : Fin 25) : ((enabledEvents kinds s.linkActivity).evalAttention s.timebase).events[k].enable
          = kinds.getLsbD k.val := by
        rw [hevents, event_enabledEvents]
      simp only [henable]
    · rw [hevents]
      exact event_enabledEvents kinds s k
    · rw [hattention]
      exact anyPending_enabledEvents (s := s)
    · rw [hpin', hattention]
      split
      · rename_i hboth
        rw [Bool.and_eq_true] at hboth
        exact hpin.trans (hboth.1.trans hboth.2.symm)
      · rfl
    · rw [hport, ← hattention, if_neg]
      · rfl
      · rw [Bool.and_eq_true, Bool.not_eq_true']
        rintro ⟨hon, hoff⟩
        rcases hatt with h | h
        · exact absurd (h.symm.trans hoff) (by decide)
        · exact absurd (h.symm.trans hon) (by decide)
    · rw [hport, ← hattention, hon, if_pos (by rw [Bool.true_and, Bool.not_eq_true']; exact hoff)]
      refine congrArg (fun x => { s.portU with own := s.portU.own ++ [x] }) ?_
      rw [eventFrame, State.eventPayload, State.eventPayload, hevents]
      rfl
    · exact .trans (fun x hx => by cases x <;> first | rfl | exact absurd (by decide) hx)
        (evalAttention_changes_of_room (s := enabledEvents kinds s.linkActivity) hlaw.2.2 (.inl hroom))
  case read =>
    refine (running_answer h nofun).trans ?_
    rw [answer, serveRequest, readEvents_eq]
    simp only [eventBytes_eq]
    rfl

end Sys2Proof.Proofs.Events
end

