-- ==== Sys2Proof/Proofs/SmallRequests.lean ====
section
/-! PROOFS. The requests for profiles (R174, R175) and for a reset (R192). -/

namespace Sys2Proof.Proofs.SmallRequests

set_option Elab.async false

open Sys2Proof.Machine Sys2Proof.Machine.State Sys2Proof.Proofs.HistoryRequests Sys2Proof.Proofs.Events
  Sys2Proof.Proofs.Reception

variable {s : State} {bytes : List Byte} {f : RxFrame} {n m : Nat}

/-! ## A request that names a press and a buffer -/

theorem onBuffer_of_lt (p : PressNo) (b : Fin 2) (g : PressNo → Fin 2 → State → Served) (s : State) :
    onBuffer p.val b.val g s = g p b s := dif_pos ⟨p.isLt, b.isLt⟩

theorem onPress_of_lt (p : PressNo) (g : PressNo → State → Served) (s : State) : onPress p.val g s = g p s :=
  dif_pos p.isLt

theorem onZone_of_lt (z : ZoneNo) (g : ZoneNo → State → Served) (s : State) : onZone z.val g s = g z s :=
  dif_pos z.isLt

theorem onScale_of_lt (k : ScaleNo) (g : ScaleNo → State → Served) (s : State) : onScale k.val g s = g k s :=
  dif_pos k.isLt

/-! ## Profiles (R174, R175) -/

theorem lockBytes_eq (x : Profile) (on : Bool) : lockBytes { x with locked := on } =
    natBytes 1 (match x.phase with | .empty => 0 | .filling => 1 | .complete => 2)
      ++ (match x.tag with | some n => 1#8 :: natBytes 4 n | none => List.replicate 5 0#8)
      ++ [if on then 1#8 else 0#8] := by
  have hphase : x.phase.code = match x.phase with | .empty => 0 | .filling => 1 | .complete => 2 := by
    cases x.phase <;> rfl
  unfold lockBytes
  rw [flagByte_eq, ← hphase]
  cases x.tag <;> rfl

theorem profile_modProfile (p : PressNo) (b : Fin 2) (g : Profile → Profile) (s : State) :
    (s.modProfile p b g).profile p b = g (s.profile p b) := by
  simp [modProfile, profile]

theorem setLock_eq (p : PressNo) (b : Fin 2) (on : Bool) (s : State) : s.setLock p b on =
    (s.modProfile p b fun x => { x with locked := on }, .ok,
      natBytes 1 (match (s.profile p b).phase with | .empty => 0 | .filling => 1 | .complete => 2)
        ++ (match (s.profile p b).tag with | some n => 1#8 :: natBytes 4 n | none => List.replicate 5 0#8)
        ++ [if on then 1#8 else 0#8]) := by
  rw [setLock, profile_modProfile, lockBytes_eq]

theorem pointBytes_eq (y : ProfilePoint) : pointBytes y = match y.temps with
    | some (low, high) => natBytes 2 (y.offset % 32768 + 32768) ++ intBytes 2 low ++ intBytes 2 high
        ++ natBytes 3 y.progress
    | none => natBytes 2 (y.offset % 32768) ++ [0#8, 0#8, 0#8, 0#8] ++ natBytes 3 y.progress := by
  have hzero : intBytes 2 0 = [0#8, 0#8] := by decide
  unfold pointBytes
  cases h : y.temps with
  | none =>
    simp only [Option.isSome_none, Bool.false_eq_true, if_false, Nat.add_zero, Option.elim_none, hzero,
      List.append_assoc, List.cons_append, List.nil_append]
  | some x =>
    obtain ⟨low, high⟩ := x
    simp only [Option.isSome_some, if_true, Option.elim_some]

theorem profileBytes_eq (x : Profile) (first count : Nat) : profileBytes x first count =
    natBytes 4 (x.tag.getD 0)
      ++ natBytes 1 ((match x.phase with | .empty => 0 | .filling => 1 | .complete => 2)
        + if x.truncated then 128 else 0)
      ++ natBytes 1 x.points.length
      ++ ((x.points.drop first).take count).flatMap fun y =>
        match y.temps with
        | some (low, high) => natBytes 2 (y.offset % 32768 + 32768) ++ intBytes 2 low ++ intBytes 2 high
            ++ natBytes 3 y.progress
        | none => natBytes 2 (y.offset % 32768) ++ [0#8, 0#8, 0#8, 0#8] ++ natBytes 3 y.progress := by
  have hphase : x.phase.code = match x.phase with | .empty => 0 | .filling => 1 | .complete => 2 := by
    cases x.phase <;> rfl
  rw [profileBytes, ← hphase, (funext pointBytes_eq : pointBytes = _)]

/-- Settles O52: LOCK_PROFILE, UNLOCK_PROFILE and READ_PROFILE, each by its server. -/
theorem profileRequests : Obligations.ProfileRequests := by
  intro s bytes f p b x answered locked
  have hanswer {r : Request} (h : s.Asked bytes f r) (hr : ∀ kind, r ≠ .reset kind) :
      running (receive .U bytes) s = .next (answer f r s.linkActivity) := running_answer h hr
  refine ⟨fun h => ⟨fun hx => ?busy, fun hx => ?lock⟩, fun h => ?unlock, fun first n h => ⟨fun hx => ?notLocked,
    fun hx hn => ?range, fun hx h1 h24 hf => ?read⟩⟩
  case busy =>
    refine (hanswer h nofun).trans ?_
    rw [answer, serveRequest, onBuffer_of_lt, State.lockProfile,
      if_pos (show (s.linkActivity.profile p b).phase = _ from hx)]
  case lock =>
    refine (hanswer h nofun).trans ?_
    rw [answer, serveRequest, onBuffer_of_lt, State.lockProfile,
      if_neg (show ¬(s.linkActivity.profile p b).phase = _ from hx), setLock_eq]
    rfl
  case unlock =>
    refine (hanswer h nofun).trans ?_
    rw [answer, serveRequest, onBuffer_of_lt, setLock_eq]
    rfl
  case notLocked =>
    refine (hanswer h nofun).trans ?_
    rw [answer, serveRequest, onBuffer_of_lt, State.readProfile,
      if_pos (show (s.linkActivity.profile p b).locked = _ from hx)]
  case range =>
    have hx' : ¬(s.linkActivity.profile p b).locked = false := ne_of_eq_of_ne hx (by decide)
    have hbad : inRange 1 24 n = false ∨ (s.linkActivity.profile p b).points.length < first := by
      rcases hn with h0 | h24 | hlen
      · exact .inl (by simp [inRange, h0])
      · exact .inl (by simp only [inRange, decide_eq_false_iff_not]; omega)
      · exact .inr hlen
    refine (hanswer h nofun).trans ?_
    rw [answer, serveRequest, onBuffer_of_lt, State.readProfile, if_neg hx', if_pos hbad]
  case read =>
    have hx' : ¬(s.linkActivity.profile p b).locked = false := ne_of_eq_of_ne hx (by decide)
    have hgood : ¬(inRange 1 24 n = false ∨ (s.linkActivity.profile p b).points.length < first) := by
      rintro (h | h)
      · simp [inRange, h1, h24] at h
      · exact absurd hf (Nat.not_le.mpr h)
    refine (hanswer h nofun).trans ?_
    rw [answer, serveRequest, onBuffer_of_lt, State.readProfile, if_neg hx', if_neg hgood, profileBytes_eq]
    rfl

/-! ## RESET (R192) -/

theorem running_reset {kind : ResetKind} (h : s.Asked bytes f (.reset kind)) :
    running (receive .U bytes) s = .next (serveReset kind f s.linkActivity) := by
  have ⟨_, _, _, _, _, hdecode⟩ := h
  rw [running_asked h, serve, hdecode]

theorem exec_reset {kind : ResetKind} (h : s.Asked bytes f (.reset kind)) :
    (match kind with
      | .warm => exec (.resetWarm bytes) s
      | .cold => exec (.resetCold bytes) s) = .next (serveReset kind f s.linkActivity) := by
  cases kind
  · exact running_reset h
  · exact running_reset h

theorem serveReset_of_room (kind : ResetKind) (hl : s.live = true) (hr : s.portU.own.length < 16) :
    serveReset kind f s = (({ s with resetPending := .waiting kind } : State).modPort .U fun x =>
      { x with own := x.own ++ [{
         dst := f.src, src := s.ownAddress, kind := .mgmtResp, mark := .resetResponse
         payload := [f.payload.getD 0 0#8, f.payload.getD 1 0#8, 0#8] }] }) := by
  have hl' : ({ s with resetPending := .waiting kind } : State).live = true := hl
  rw [serveReset, if_pos (show _ < Config.ownPlaces from hr), respond, originate_of_room hl' .U hr, responseBytes_eq]
  rfl

theorem serveReset_of_full (kind : ResetKind) (hl : s.live = true) (hr : 16 ≤ s.portU.own.length) :
    serveReset kind f s = { raiseNow .linkDrop (.port .U) (s.modPort .U fun x =>
      { x with ownDrops := min (x.ownDrops + 1) 65535 }) with resetPending := .due kind } := by
  have hfull : ¬s.portU.own.length < Config.ownPlaces := Nat.not_lt.mpr hr
  rw [serveReset, if_neg hfull, respond, originate_of_full hl .U hfull]
  rfl

/-- Settles O58: by whether the response finds a place. -/
theorem resetRequests : Obligations.ResetRequests := by
  intro s bytes f kind h outcome
  have hrun : outcome = .next (serveReset kind f s.linkActivity) := exec_reset h
  have hlive : s.linkActivity.live = true := h.1.live
  refine ⟨fun hroom => ?_, fun hfull => ?_⟩
  · rw [hrun, serveReset_of_room (s := s.linkActivity) kind hlive hroom]
    rfl
  · rw [hrun, serveReset_of_full (s := s.linkActivity) kind hlive hfull]

end Sys2Proof.Proofs.SmallRequests
end

