-- ==== Sys2Proof/Proofs/CureRules.lean ====
section
/-! PROOFS. What a raise, the permit test (R94) and the exclusion of a zone (R90 to R92) leave: the raw kinds, the
OPEN records, the cure and the unit of the press, and of the other presses what they held before. -/

namespace Sys2Proof.Proofs.CureRules

set_option Elab.async false

open Sys2Proof.Machine Sys2Proof.Machine.State Sys2Proof.Proofs.Events Sys2Proof.Proofs.CureProgress
  Sys2Proof.Proofs.StepRules

variable {s t u : State} {k : EventKind} {i : EventOn} {tm : Time} {p : PressNo} {z : ZoneNo} {ps : List Part}

/-! ## What a step that leaves a part leaves of its entries -/

theorem cure_of_changes (h : OnlyChanges ps s t) (p : PressNo) (hps : Part.cures ∉ ps := by decide) :
    t.cure p = s.cure p :=
  congrArg (fun v : Vector Cure 4 => v[p]) (h .cures hps).symm

theorem unit_of_changes (h : OnlyChanges ps s t) (p : PressNo) (hps : Part.units ∉ ps := by decide) :
    t.unit p = s.unit p :=
  congrArg (fun v : Vector PressUnit 4 => v[p]) (h .units hps).symm

theorem window_of_changes (h : OnlyChanges ps s t) (p : PressNo) (hps : Part.windows ∉ ps := by decide) :
    t.window p = s.window p :=
  congrArg (fun v : Vector HeatWindow 4 => v[p]) (h .windows hps).symm

theorem ejector_of_changes (h : OnlyChanges ps s t) (p : PressNo) (hps : Part.ejectors ∉ ps := by decide) :
    t.ejector p = s.ejector p :=
  congrArg (fun v : Vector Ejector 4 => v[p]) (h .ejectors hps).symm

theorem accrual_of_changes (h : OnlyChanges ps s t) (z : ZoneNo) (hps : Part.accruals ∉ ps := by decide) :
    t.accrual z = s.accrual z :=
  congrArg (fun v : Vector Accrual 48 => v[z]) (h .accruals hps).symm

theorem boundRecipe_of_changes (h : OnlyChanges ps s t) (p : PressNo)
    (hu : Part.units ∉ ps := by decide) (ht : Part.tables ∉ ps := by decide) : t.boundRecipe p = s.boundRecipe p := by
  unfold boundRecipe unit
  rw [← show s.units = t.units from h .units hu, ← show s.tables = t.tables from h .tables ht]

theorem live_of_changes (h : OnlyChanges ps s t) (hm : Part.mode ∉ ps := by decide)
    (hs : Part.shutdown ∉ ps := by decide) : t.live = s.live := by
  unfold live
  rw [← show s.mode = t.mode from h .mode hm, ← show s.shutdown = t.shutdown from h .shutdown hs]

/-! ## Raw kinds (R184) -/

theorem raw_raiseEntry (tm : Time) (k : EventKind) (i : EventOn) (s : State) (j : Fin 25) :
    (s.raiseEntry tm k i).events[j].raw = (decide (j = k.number) || s.events[j].raw) := by
  rw [event_raiseEntry]
  by_cases h : j = k.number
  · rw [if_pos h, decide_eq_true h]
    rfl
  · rw [if_neg h, decide_eq_false h]
    rfl

/-- An evaluation of attention leaves a raw kind raw. -/
theorem raw_evalAttention {j : Fin 25} (h : s.events[j].raw = true) : (s.evalAttention tm).events[j].raw = true := by
  unfold evalAttention
  repeat' split
  · exact h
  · exact h
  · unfold sendEvent
    split
    · exact h
    · rw [raw_raiseEntry]
      exact Bool.or_eq_true_iff.mpr (.inr h)
  · exact h

theorem raw_raise_self (hl : s.live = true) (tm : Time) (k : EventKind) (i : EventOn) :
    (s.raise tm k i).events[k.number].raw = true := by
  rw [raise_of_live hl]
  refine raw_evalAttention ?_
  rw [raw_raiseEntry, decide_eq_true rfl]
  rfl

theorem raw_raise {j : Fin 25} (h : s.events[j].raw = true) : (s.raise tm k i).events[j].raw = true := by
  unfold raise
  split
  · refine raw_evalAttention ?_
    rw [raw_raiseEntry]
    exact Bool.or_eq_true_iff.mpr (.inr h)
  · exact h

theorem raw_of_changes (h : OnlyChanges ps s t) {j : Fin 25} (hj : s.events[j].raw = true)
    (hps : Part.events ∉ ps := by decide) : t.events[j].raw = true := by
  rw [← show s.events = t.events from h .events hps]
  exact hj

/-! ## OPEN records under a raise (R159) -/

/-- The OPEN record of a press gains at most notes. -/
def OnlyNotes (p : PressNo) (s t : State) : Prop :=
  ∀ x, t.openRecord p = some x → ∃ r, s.openRecord p = some r
    ∧ x = { r with notes := x.notes, notesDropped := x.notesDropped }

theorem onlyNotes_of_history (h : t.history = s.history) : OnlyNotes p s t := fun x hx =>
  ⟨x, by rwa [← openRecord_of_history h], rfl⟩

theorem OnlyNotes.trans (h : OnlyNotes p s t) (g : OnlyNotes p t u) : OnlyNotes p s u := by
  intro x hx
  obtain ⟨y, hy, hxy⟩ := g x hx
  obtain ⟨r, hr, hyr⟩ := h y hy
  exact ⟨r, hr, by rw [hxy, hyr]⟩

theorem onlyNotes_of_changes (h : OnlyChanges ps s t) (hps : Part.history ∉ ps := by decide) : OnlyNotes p s t :=
  onlyNotes_of_history (h .history hps).symm

theorem addNote_only (n : Note) (r : Record) :
    addNote n r = { r with notes := (addNote n r).notes, notesDropped := (addNote n r).notesDropped } := by
  unfold addNote
  split
  · rfl
  · rfl

theorem onlyNotes_note (n : Note) (q : PressNo) (s : State) : OnlyNotes p s (s.modRecord q (addNote n)) := by
  intro x hx
  unfold State.openRecord at hx ⊢
  rw [modRecord_history_openRecord] at hx
  obtain ⟨j, hj, hslot⟩ := Option.bind_eq_some_iff.mp hx
  rw [slots_modRecord] at hslot
  split at hslot
  · obtain ⟨r, hr, rfl⟩ := Option.map_eq_some_iff.mp hslot
    exact ⟨r, Option.bind_eq_some_iff.mpr ⟨j, hj, hr⟩, addNote_only n r⟩
  · exact ⟨x, Option.bind_eq_some_iff.mpr ⟨j, hj, hslot⟩, rfl⟩

theorem onlyNotes_raiseEntry (tm : Time) (k : EventKind) (i : EventOn) (s : State) :
    OnlyNotes p s (s.raiseEntry tm k i) := by
  unfold raiseEntry noteEvent
  exact each_rule (Q := OnlyNotes p s) (fun q {_} h => h.trans (onlyNotes_note _ q _)) _
    (onlyNotes_of_history (t := { s with events := _ }) rfl)

theorem onlyNotes_raise (tm : Time) (k : EventKind) (i : EventOn) (s : State) : OnlyNotes p s (s.raise tm k i) := by
  unfold raise
  split
  · refine (onlyNotes_raiseEntry tm k i s).trans ?_
    unfold evalAttention
    repeat' split
    · exact onlyNotes_of_history rfl
    · exact onlyNotes_of_history rfl
    · unfold sendEvent
      split
      · exact onlyNotes_of_history rfl
      · exact (onlyNotes_of_history rfl).trans (onlyNotes_raiseEntry _ _ _ _)
    · exact onlyNotes_of_history rfl
  · exact onlyNotes_of_history rfl

/-! ## Flags of a record -/

theorem flags_set (r : Record) (f : RecordFlag) : (r.set f).flags.getLsbD f.bit = true := by
  cases f <;> simp [Record.set, RecordFlag.bit]

theorem flags_set_of {r : Record} {n : Nat} (h : r.flags.getLsbD n = true) (f : RecordFlag) :
    (r.set f).flags.getLsbD n = true := by
  simp [Record.set, h]

/-- A property of the OPEN record of a press, if it has one. -/
def Opens (p : PressNo) (P : Record → Prop) (s : State) : Prop := ∀ x, s.openRecord p = some x → P x

section

variable {P P' : Record → Prop}

theorem opens_modRecord {g : Record → Record} (h : Opens p (fun r => P (g r)) s) : Opens p P (s.modRecord p g) := by
  intro x hx
  rw [openRecord_modRecord] at hx
  obtain ⟨r, hr, rfl⟩ := Option.map_eq_some_iff.mp hx
  exact h r hr

theorem opens_setFlag (p : PressNo) (f : RecordFlag) (s : State) :
    Opens p (fun r => r.flags.getLsbD f.bit = true) (s.setFlag p f) :=
  opens_modRecord fun r _ => flags_set r f

theorem Opens.mono (h : Opens p P s) (hP : ∀ r, P r → P' r) : Opens p P' s := fun x hx => hP x (h x hx)

theorem Opens.notes (h : Opens p P s) (hn : OnlyNotes p s t)
    (hP : ∀ r l n, P r → P { r with notes := l, notesDropped := n }) : Opens p P t := by
  intro x hx
  obtain ⟨r, hr, hxr⟩ := hn x hx
  rw [hxr]
  exact hP _ _ _ (h r hr)

theorem Opens.of_changes (h : Opens p P s) (hc : OnlyChanges ps s t) (hps : Part.history ∉ ps := by decide) :
    Opens p P t := fun x hx => h x (openRecord_of_history (hc .history hps).symm p ▸ hx)

end

/-! ## The permit test (R94) -/

theorem permitPasses_iff : s.permitPasses p = true ↔ (s.cure p).status = .accruing ∧ (s.cure p).lost = false
    ∧ (s.cure p).dwellMet = true ∧ ∃ r, s.boundRecipe p = some r ∧ r.cureTarget * 1000 ≤ (s.cure p).progress := by
  unfold permitPasses
  simp [Option.any_eq_true, and_assoc]

theorem permitTest_of_not (h : ¬s.permitPasses p = true) : s.permitTest p tm = s := if_neg h

theorem permitTest_changes' (p : PressNo) (tm : Time) (s : State) :
    OnlyChanges (.cures :: .units :: raiseParts) s (s.permitTest p tm) := by
  unfold permitTest
  split
  · exact modUnit_only p _ (by decide) (endCure_only p tm (by decide) (raise_only _ _ _ (by decide)
      ((modCure_changes p _ s).mono (by decide))))
  · exact .refl s

/-- What a granted permit leaves of every cure. -/
theorem cure_permitTest_of_passes' (h : s.permitPasses p = true) (q : PressNo) :
    (s.permitTest p tm).cure q = ((s.modCure p fun x => { x with status := .permitted }).modCure p
      fun x => { x with endTime := some tm }).cure q := by
  let x := s.modCure p fun x => { x with status := .permitted }
  have hraise (r : PressNo) : (x.raise tm .cureDone (.press p)).cure r = x.cure r :=
    cure_of_changes (raise_changes _ _ _ x) r
  have hstatus : ¬((x.raise tm .cureDone (.press p)).cure p).status = .accruing := by
    rw [hraise, cure_modCure]
    exact nofun
  rw [permitTest, if_pos h, cure_of_changes (modUnit_changes p _ _), endCure]
  rw [cure_modRecord, if_neg hstatus]
  by_cases hq : q = p
  · subst hq
    rw [cure_modCure, cure_modCure, hraise]
  · rw [cure_modCure_of_ne _ _ _ hq, cure_modCure_of_ne _ _ _ hq, hraise]

/-- The cure once its permit is granted. -/
theorem cure_permitTest_of_passes (h : s.permitPasses p = true) :
    (s.permitTest p tm).cure p = { s.cure p with status := .permitted, endTime := some tm } := by
  rw [cure_permitTest_of_passes' h, cure_modCure, cure_modCure]

theorem unit_permitTest_of_passes (h : s.permitPasses p = true) :
    (s.permitTest p tm).unit p = { s.unit p with state := .demouldWait } := by
  rw [permitTest, if_pos h, unit_modUnit, unit_of_changes (endCure_changes p tm _),
    unit_of_changes (raise_changes _ _ _ _), unit_of_changes (modCure_changes p _ s)]

theorem raw_permitTest_of_passes (hl : s.live = true) (h : s.permitPasses p = true) :
    (s.permitTest p tm).events[EventKind.cureDone.number].raw = true := by
  rw [permitTest, if_pos h]
  exact raw_of_changes (modUnit_changes p _ _)
    (raw_of_changes (endCure_changes p tm _) (raw_raise_self (s := s.modCure p _) hl tm _ _))

theorem raw_permitTest {j : Fin 25} (h : s.events[j].raw = true) : (s.permitTest p tm).events[j].raw = true := by
  unfold permitTest
  split
  · exact raw_of_changes (modUnit_changes p _ _) (raw_of_changes (endCure_changes p tm _)
      (raw_raise (s := s.modCure p _) h))
  · exact h

/-- The OPEN record once the permit is granted: the end of the cure, and what it achieved (R98). -/
theorem openRecord_permitTest_of_passes (h : s.permitPasses p = true) {x : Record}
    (hx : (s.permitTest p tm).openRecord p = some x) : ∃ r, s.openRecord p = some r
      ∧ x = { r with notes := x.notes, notesDropped := x.notesDropped, cureEnd := some tm
                     cureAchieved := (s.cure p).progress } := by
  have hprogress : ((raise tm .cureDone (.press p)
      (s.modCure p fun x => { x with status := .permitted })).cure p).progress = (s.cure p).progress := by
    rw [cure_of_changes (raise_changes _ _ _ _), cure_modCure]
  rw [permitTest, if_pos h, openRecord_of_history (modUnit_history p _ _), endCure] at hx
  rw [hprogress, openRecord_modRecord, openRecord_of_history (modCure_history p _ _)] at hx
  obtain ⟨y, hy, rfl⟩ := Option.map_eq_some_iff.mp hx
  obtain ⟨r, hr, hyr⟩ := onlyNotes_raise _ _ _ _ y hy
  exact ⟨r, hr, by rw [hyr]⟩

theorem Opens.permitTest {P : Record → Prop} (h : Opens p P s)
    (hP : ∀ r l n t c, P r → P { r with notes := l, notesDropped := n, cureEnd := t, cureAchieved := c }) :
    Opens p P (s.permitTest p tm) := by
  intro x hx
  by_cases hp : s.permitPasses p = true
  · obtain ⟨r, hr, hxr⟩ := openRecord_permitTest_of_passes hp hx
    rw [hxr]
    exact hP _ _ _ _ _ (h r hr)
  · rw [permitTest_of_not hp] at hx
    exact h x hx

/-- What the permit test leaves of a cure that accrues. -/
theorem permitTested_permitTest (hl : s.live = true) (hacc : (s.cure p).status = .accruing) :
    s.PermitTested (s.permitTest p tm) p tm := by
  have hkept : ((s.permitTest p tm).cure p).progress = (s.cure p).progress := by
    by_cases hp : s.permitPasses p = true
    · rw [cure_permitTest_of_passes hp]
    · rw [permitTest_of_not hp]
  unfold State.PermitTested
  intro permit
  have hiff : s.permitPasses p = true ↔ permit := by
    rw [permitPasses_iff]
    simp only [permit, hkept]
    exact ⟨fun ⟨_, h⟩ => h, fun h => ⟨hacc, h⟩⟩
  refine ⟨fun h => ?_, fun h => ?_⟩
  · have hp := hiff.mpr h
    have hcure := cure_permitTest_of_passes (tm := tm) hp
    refine ⟨by rw [hcure], by rw [hcure], unit_permitTest_of_passes hp, raw_permitTest_of_passes hl hp,
      fun x hx => ?_⟩
    obtain ⟨r, _, hxr⟩ := openRecord_permitTest_of_passes hp hx
    rw [hkept, hxr]
    exact ⟨rfl, rfl⟩
  · rw [permitTest_of_not (hiff.not.mpr h)]
    exact ⟨hacc, rfl⟩

/-- The permit test reads of the state before it only what the test is about. -/
theorem permitTested_of_eq (h : u.PermitTested t p tm) (hlost : (s.cure p).lost = (u.cure p).lost)
    (hdwell : (s.cure p).dwellMet = (u.cure p).dwellMet) (hunit : s.unit p = u.unit p)
    (hbound : s.boundRecipe p = u.boundRecipe p) : s.PermitTested t p tm := by
  unfold State.PermitTested
  rw [hlost, hdwell, hunit, hbound]
  exact h

/-! ## Progress (R91) -/

theorem includedZones_ne_nil_iff : s.includedZones p ≠ [] ↔
    ∃ z, pressOf z = p ∧ (s.accrual z).inclusion = .included := by
  refine ⟨fun h => ?_, fun ⟨z, hz⟩ => List.ne_nil_of_mem (mem_includedZones.mpr hz)⟩
  obtain ⟨z, hz⟩ := List.exists_mem_of_ne_nil _ h
  exact ⟨z, mem_includedZones.mp hz⟩

theorem leastAccumulator_eq_none_iff : s.leastAccumulator p = none ↔ s.includedZones p = [] := by
  unfold leastAccumulator
  cases s.includedZones p with
  | nil => simp
  | cons => simp

theorem accrual_recomputeProgress (p : PressNo) (z : ZoneNo) (s : State) :
    (s.recomputeProgress p).accrual z = s.accrual z :=
  congrArg (fun v : Vector Accrual 48 => v[z]) (recomputeProgress_changes p s .accruals (by decide)).symm

/-- Where a zone is INCLUDED, the recomputed progress is the least accumulator; nothing else of the cure changes. -/
theorem leastProgress_recomputeProgress (h : s.includedZones p ≠ []) :
    (s.recomputeProgress p).LeastProgress p := by
  cases hc : s.leastAccumulator p with
  | none => exact absurd (leastAccumulator_eq_none_iff.mp hc) h
  | some c =>
    have heq : s.recomputeProgress p = s.modCure p fun x => { x with progress := c } := by
      rw [recomputeProgress, hc]
    have hcure : ((s.recomputeProgress p).cure p).progress = c := by rw [heq, cure_modCure]
    obtain ⟨hmem, hmin⟩ := leastAccumulator_spec hc
    unfold State.LeastProgress
    simp only [accrual_recomputeProgress, hcure]
    exact ⟨hmem, hmin⟩

theorem cure_recomputeProgress (p : PressNo) (s : State) : (s.recomputeProgress p).cure p =
    { s.cure p with progress := ((s.recomputeProgress p).cure p).progress } := by
  unfold recomputeProgress
  split
  · rw [cure_modCure]
  · rfl

theorem cure_recomputeProgress_of_ne {q : PressNo} (h : q ≠ p) : (s.recomputeProgress p).cure q = s.cure q := by
  unfold recomputeProgress
  split
  · rw [cure_modCure_of_ne _ _ _ h]
  · rfl

theorem cure_permitTest_of_ne {q : PressNo} (h : q ≠ p) : (s.permitTest p tm).cure q = s.cure q := by
  by_cases hp : s.permitPasses p = true
  · rw [cure_permitTest_of_passes' hp, cure_modCure_of_ne _ _ _ h, cure_modCure_of_ne _ _ _ h]
  · rw [permitTest_of_not hp]

theorem unit_permitTest_of_ne {q : PressNo} (h : q ≠ p) : (s.permitTest p tm).unit q = s.unit q := by
  unfold permitTest
  split
  · rw [unit_modUnit_of_ne _ _ _ h, unit_of_changes (endCure_changes p tm _),
      unit_of_changes (raise_changes _ _ _ _), unit_of_changes (modCure_changes p _ s)]
  · rfl

theorem accrual_permitTest (p : PressNo) (tm : Time) (z : ZoneNo) (s : State) :
    (s.permitTest p tm).accrual z = s.accrual z :=
  congrArg (fun v : Vector Accrual 48 => v[z]) (permitTest_changes' p tm s .accruals (by decide)).symm

theorem progress_permitTest (p : PressNo) (tm : Time) (s : State) :
    ((s.permitTest p tm).cure p).progress = (s.cure p).progress
      ∧ ((s.permitTest p tm).cure p).lost = (s.cure p).lost
      ∧ ((s.permitTest p tm).cure p).excluded = (s.cure p).excluded
      ∧ ((s.permitTest p tm).cure p).dwellMet = (s.cure p).dwellMet := by
  by_cases hp : s.permitPasses p = true
  · rw [cure_permitTest_of_passes hp]
    exact ⟨rfl, rfl, rfl, rfl⟩
  · rw [permitTest_of_not hp]
    exact ⟨rfl, rfl, rfl, rfl⟩

theorem leastProgress_permitTest (h : s.LeastProgress p) : (s.permitTest p tm).LeastProgress p := by
  unfold State.LeastProgress
  simp only [accrual_permitTest, (progress_permitTest p tm s).1]
  exact h

/-! ## The loss of a cure (R92) and the exclusion of a zone (R90) -/

theorem loseCure_changes' (p : PressNo) (tm : Time) (s : State) :
    OnlyChanges (.cures :: raiseParts) s (s.loseCure p tm) :=
  setFlag_only p _ (by decide) (raise_only _ _ _ (by decide) ((modCure_changes p _ s).mono (by decide)))

theorem cure_loseCure (p q : PressNo) (tm : Time) (s : State) :
    (s.loseCure p tm).cure q = (s.modCure p fun x => { x with lost := true }).cure q := by
  rw [loseCure, cure_of_changes (setFlag_changes p _ _), cure_of_changes (raise_changes _ _ _ _)]

theorem raw_loseCure (hl : s.live = true) (p : PressNo) (tm : Time) :
    (s.loseCure p tm).events[EventKind.cureLost.number].raw = true :=
  raw_of_changes (setFlag_changes p _ _) (raw_raise_self (s := s.modCure p _) hl tm _ _)

theorem Opens.loseCure {P : Record → Prop} (h : Opens p P s)
    (hP : ∀ r l n, P r → P ({ r with notes := l, notesDropped := n } : Record))
    (hset : ∀ r, P r → P (r.set .cureLost)) : Opens p P (s.loseCure p tm) :=
  opens_modRecord ((Opens.notes (h.of_changes (modCure_changes p _ s)) (onlyNotes_raise _ _ _ _) hP).mono hset)

/-- A zone that is EXCLUDED from the cure, and counted. -/
def counted (z : ZoneNo) (s : State) : State :=
  (s.modAccrual z fun a => { a with inclusion := .excluded }).modCure (pressOf z) fun x =>
    { x with excluded := x.excluded + 1 }

/-- The state in which a zone has just been excluded: the count, and CURE_DEGRADED. -/
def excluded (z : ZoneNo) (s : State) : State :=
  (counted z s).modRecord (pressOf z) fun r =>
    { r.set .cureDegraded with excluded := ((counted z s).cure (pressOf z)).excluded }

theorem excludeZone_of_included (hin : (s.accrual z).inclusion = .included)
    (hacc : (s.cure (pressOf z)).status = .accruing) : s.excludeZone z tm =
      if (excluded z s).includedZones (pressOf z) = [] then (excluded z s).loseCure (pressOf z) tm
      else ((excluded z s).recomputeProgress (pressOf z)).permitTest (pressOf z) tm := if_pos ⟨hin, hacc⟩

theorem cure_counted (z : ZoneNo) (s : State) : (counted z s).cure (pressOf z) =
    { s.cure (pressOf z) with excluded := (s.cure (pressOf z)).excluded + 1 } := by
  rw [counted, cure_modCure]
  rfl

theorem excludeZone_of_not (h : ¬((s.accrual z).inclusion = .included ∧ (s.cure (pressOf z)).status = .accruing)) :
    s.excludeZone z tm = s := if_neg h

theorem excluded_changes (z : ZoneNo) (s : State) : OnlyChanges [.cures, .accruals, .history] s (excluded z s) :=
  modRecord_only _ _ (by decide) (modCure_only _ _ (by decide) ((modAccrual_changes z _ s).mono (by decide)))

theorem cure_excluded (z : ZoneNo) (s : State) : (excluded z s).cure (pressOf z) =
    { s.cure (pressOf z) with excluded := (s.cure (pressOf z)).excluded + 1 } := by
  rw [excluded, cure_modRecord, cure_counted]

theorem cure_excluded_of_ne {q : PressNo} (h : q ≠ pressOf z) : (excluded z s).cure q = s.cure q := by
  rw [excluded, cure_modRecord, counted, cure_modCure_of_ne _ _ _ h]
  rfl

theorem accrual_excluded (z : ZoneNo) (s : State) :
    (excluded z s).accrual z = { s.accrual z with inclusion := .excluded } := by
  rw [excluded, accrual_of_changes (modRecord_changes _ _ _), counted, accrual_of_changes (modCure_changes _ _ _),
    accrual_modAccrual]

theorem accrual_excluded_of_ne {y : ZoneNo} (h : y ≠ z) : (excluded z s).accrual y = s.accrual y := by
  rw [excluded, accrual_of_changes (modRecord_changes _ _ _), counted, accrual_of_changes (modCure_changes _ _ _),
    accrual_modAccrual_of_ne _ _ _ h]

/-- What the exclusion of a zone leaves of the accruals. -/
theorem accrual_excludeZone (hin : (s.accrual z).inclusion = .included)
    (hacc : (s.cure (pressOf z)).status = .accruing) (y : ZoneNo) :
    (s.excludeZone z tm).accrual y = (excluded z s).accrual y := by
  rw [excludeZone_of_included hin hacc]
  split
  · rw [accrual_of_changes (loseCure_changes' _ _ _)]
  · rw [accrual_permitTest, accrual_recomputeProgress]

theorem excludeZone_changes' (z : ZoneNo) (tm : Time) (s : State) :
    OnlyChanges (.cures :: .accruals :: .units :: raiseParts) s (s.excludeZone z tm) := by
  by_cases h : (s.accrual z).inclusion = .included ∧ (s.cure (pressOf z)).status = .accruing
  · rw [excludeZone_of_included h.1 h.2]
    have hexcluded := (excluded_changes z s).mono (l := [.cures, .accruals, .history])
      (k := .cures :: .accruals :: .units :: raiseParts) (by decide)
    split
    · exact hexcluded.before (by decide) (loseCure_changes' _ _ _)
    · exact (recomputeProgress_only _ (by decide) hexcluded).before (by decide) (permitTest_changes' _ _ _)
  · rw [excludeZone_of_not h]
    exact .refl s

theorem cure_excludeZone_of_ne {q : PressNo} (h : q ≠ pressOf z) : (s.excludeZone z tm).cure q = s.cure q := by
  by_cases hz : (s.accrual z).inclusion = .included ∧ (s.cure (pressOf z)).status = .accruing
  · rw [excludeZone_of_included hz.1 hz.2]
    split
    · rw [cure_loseCure, cure_modCure_of_ne _ _ _ h, cure_excluded_of_ne h]
    · rw [cure_permitTest_of_ne h, cure_recomputeProgress_of_ne h, cure_excluded_of_ne h]
  · rw [excludeZone_of_not hz]

theorem unit_excludeZone_of_ne {q : PressNo} (h : q ≠ pressOf z) : (s.excludeZone z tm).unit q = s.unit q := by
  by_cases hz : (s.accrual z).inclusion = .included ∧ (s.cure (pressOf z)).status = .accruing
  · rw [excludeZone_of_included hz.1 hz.2]
    split
    · rw [unit_of_changes (loseCure_changes' _ _ _), unit_of_changes (excluded_changes z s)]
    · rw [unit_permitTest_of_ne h, unit_of_changes (recomputeProgress_changes _ _),
        unit_of_changes (excluded_changes z s)]
  · rw [excludeZone_of_not hz]

theorem opens_excluded (z : ZoneNo) (s : State) :
    Opens (pressOf z) (fun x => x.flags.getLsbD 0 = true ∧ x.excluded = (s.cure (pressOf z)).excluded + 1)
      (excluded z s) :=
  opens_modRecord fun r _ => ⟨flags_set r .cureDegraded, by rw [cure_counted]⟩

/-- The exclusion of an INCLUDED zone from a cure that accrues. -/
theorem excludes_excludeZone (hl : s.live = true) (hin : (s.accrual z).inclusion = .included)
    (hacc : (s.cure (pressOf z)).status = .accruing) : s.Excludes (s.excludeZone z tm) z tm := by
  have hremain : (∃ y, pressOf y = pressOf z ∧ ((s.excludeZone z tm).accrual y).inclusion = .included)
      ↔ (excluded z s).includedZones (pressOf z) ≠ [] := by
    simp only [accrual_excludeZone hin hacc, includedZones_ne_nil_iff]
  refine ⟨?_, fun y hy => ?_, ?_, fun hnone => ?_, fun hsome => ?_⟩
  · rw [accrual_excludeZone hin hacc, accrual_excluded]
  · rw [accrual_excludeZone hin hacc, accrual_excluded_of_ne hy]
  · rw [excludeZone_of_included hin hacc]
    split
    · exact (opens_excluded z s).loseCure (fun _ _ _ h => h) fun r h => ⟨flags_set_of h.1 _, h.2⟩
    · exact ((opens_excluded z s).of_changes (recomputeProgress_changes _ _)).permitTest fun _ _ _ _ _ h => h
  · rw [excludeZone_of_included hin hacc, if_pos (Classical.not_not.mp (hremain.not.mp hnone)), cure_loseCure,
      cure_modCure, cure_excluded, unit_of_changes (loseCure_changes' _ _ _), unit_of_changes (excluded_changes z s)]
    exact ⟨rfl, rfl, raw_loseCure ((live_of_changes (excluded_changes z s)).trans hl) _ _, opens_setFlag _ _ _⟩
  · have hne := hremain.mp hsome
    rw [excludeZone_of_included hin hacc, if_neg hne]
    have hstep := ((excluded_changes z s).mono (k := [.cures, .accruals, .history]) (by decide)).before (by decide)
      (recomputeProgress_changes (pressOf z) (excluded z s))
    have hcure := (cure_recomputeProgress (pressOf z) (excluded z s)).trans (by rw [cure_excluded])
    obtain ⟨_, hlost, hexcl, _⟩ := progress_permitTest (pressOf z) tm ((excluded z s).recomputeProgress (pressOf z))
    refine ⟨?_, ?_, leastProgress_permitTest (leastProgress_recomputeProgress hne),
      permitTested_of_eq (permitTested_permitTest ((live_of_changes hstep).trans hl) ?_) ?_ ?_ ?_ ?_⟩
    · rw [hlost, hcure]
    · rw [hexcl, hcure]
    · rw [hcure]
      exact hacc
    · rw [hcure]
    · rw [hcure]
    · rw [unit_of_changes hstep]
    · rw [boundRecipe_of_changes hstep]

/-- The exclusion reads of the state before it only the cure, the accruals and the unit. -/
theorem excludes_of_changes (h : u.Excludes t z tm) (hu : OnlyChanges ps s u)
    (hc : Part.cures ∉ ps := by decide) (ha : Part.accruals ∉ ps := by decide) (hn : Part.units ∉ ps := by decide)
    (ht : Part.tables ∉ ps := by decide) : s.Excludes t z tm := by
  have hpermit : u.PermitTested t (pressOf z) tm → s.PermitTested t (pressOf z) tm := fun hp =>
    permitTested_of_eq hp (by rw [cure_of_changes hu _ hc]) (by rw [cure_of_changes hu _ hc])
      (by rw [unit_of_changes hu _ hn])
      (by rw [boundRecipe_of_changes hu _ hn ht])
  unfold State.Excludes at h ⊢
  simp only [cure_of_changes hu _ hc, unit_of_changes hu _ hn, accrual_of_changes hu _ ha] at h
  obtain ⟨hz, hothers, hrecord, hnone, hsome⟩ := h
  exact ⟨hz, hothers, hrecord, hnone, fun hr => by
    obtain ⟨h1, h2, h3, h4⟩ := hsome hr
    exact ⟨h1, h2, h3, hpermit h4⟩⟩

end Sys2Proof.Proofs.CureRules
end

