-- ==== Sys2Proof/Proofs/OtherPresses.lean ====
section
/-! PROOFS. What an operation on one press leaves of the others: their units, cures, windows, ejectors and zones hold
the same but for placed flags. -/

namespace Sys2Proof.Proofs.OtherPresses

set_option Elab.async false

open Sys2Proof.Machine Sys2Proof.Machine.State Sys2Proof.Proofs.CureRules Sys2Proof.Proofs.HeatLaws
  Sys2Proof.Proofs.OffPlacement Sys2Proof.Proofs.Transmitters

variable {s t u : State} {tm : Time} {p : PressNo} {z y : ZoneNo} {ps : List Part}

/-! ## Zones and ejectors but for placed flags -/

theorem keepsZone_trans (h : s.KeepsZone t z) (g : t.KeepsZone u z) : s.KeepsZone u z := by
  obtain ⟨h1, h2⟩ := h
  obtain ⟨g1, g2⟩ := g
  exact ⟨g1.trans (by rw [h1]), g2.trans h2⟩

theorem keepsEjector_trans (h : s.KeepsEjector t p) (g : t.KeepsEjector u p) : s.KeepsEjector u p := by
  obtain ⟨h1, h2⟩ := h
  obtain ⟨g1, g2⟩ := g
  exact ⟨g1.trans (by rw [h1]), g2.trans h2⟩

theorem keepsZone_of_changes (h : OnlyChanges ps s t) (z : ZoneNo) (hps : Part.zones ∉ ps := by decide) :
    s.KeepsZone t z := .of_eq (zone_of_changes h z hps)

theorem keepsEjector_of_changes (h : OnlyChanges ps s t) (p : PressNo) (hps : Part.ejectors ∉ ps := by decide) :
    s.KeepsEjector t p := .of_eq (ejector_of_changes h p hps)

theorem keepsZone_of_offsPlaced (h : s.OffsPlaced t) (z : ZoneNo) : s.KeepsZone t z := by
  have hflags := unplaced_offs_of_offsPlaced h z
  obtain ⟨_, hzone, _⟩ := h
  exact ⟨by rw [hzone z], hflags⟩

theorem keepsEjector_of_offsPlaced (h : s.OffsPlaced t) (p : PressNo) : s.KeepsEjector t p := by
  have hflags := unplaced_owed_of_offsPlaced h p
  obtain ⟨_, _, hejector, _⟩ := h
  exact ⟨by rw [hejector p], hflags⟩

theorem keepsZone_placeOwed (z : ZoneNo) (s : State) : s.KeepsZone s.placeOwed z := by
  cases h : s.normal with
  | true => exact keepsZone_of_offsPlaced (offsPlaced_placeOwed h) z
  | false => rw [placeOwed_of_passive h]; exact .of_eq rfl

theorem keepsEjector_placeOwed (p : PressNo) (s : State) : s.KeepsEjector s.placeOwed p := by
  cases h : s.normal with
  | true => exact keepsEjector_of_offsPlaced (offsPlaced_placeOwed h) p
  | false => rw [placeOwed_of_passive h]; exact .of_eq rfl

/-! ## The other presses -/

theorem keepsOthers_refl (s : State) (p : PressNo) : s.KeepsOthers s p :=
  ⟨fun _ _ => ⟨rfl, rfl, rfl, .of_eq rfl⟩, fun _ _ => ⟨rfl, .of_eq rfl⟩⟩

theorem keepsOthers_trans (h : s.KeepsOthers t p) (g : t.KeepsOthers u p) : s.KeepsOthers u p := by
  refine ⟨fun q hq => ?_, fun y hy => ?_⟩
  · obtain ⟨hunit, hcure, hwindow, hejector⟩ := h.1 q hq
    obtain ⟨gunit, gcure, gwindow, gejector⟩ := g.1 q hq
    exact ⟨gunit.trans hunit, gcure.trans hcure, gwindow.trans hwindow, keepsEjector_trans hejector gejector⟩
  · obtain ⟨haccrual, hzone⟩ := h.2 y hy
    obtain ⟨gaccrual, gzone⟩ := g.2 y hy
    exact ⟨gaccrual.trans haccrual, keepsZone_trans hzone gzone⟩

/-- The parts that hold what belongs to one press or zone. -/
def pressParts : List Part := [.units, .cures, .windows, .ejectors, .accruals, .zones]

theorem keepsOthers_of_changes (h : OnlyChanges ps s t) (p : PressNo)
    (hps : ∀ x ∈ pressParts, x ∉ ps := by decide) : s.KeepsOthers t p :=
  ⟨fun q _ => ⟨unit_of_changes h q (hps _ (by decide)), cure_of_changes h q (hps _ (by decide)),
    window_of_changes h q (hps _ (by decide)), keepsEjector_of_changes h q (hps _ (by decide))⟩,
    fun y _ => ⟨accrual_of_changes h y (hps _ (by decide)), keepsZone_of_changes h y (hps _ (by decide))⟩⟩

theorem keepsOthers_modZone (hz : pressOf z = p) (f : Zone → Zone) (s : State) : s.KeepsOthers (s.modZone z f) p :=
  ⟨fun _ _ => ⟨rfl, rfl, rfl, .of_eq rfl⟩, fun _ hy =>
    ⟨rfl, .of_eq (zone_modZone_of_ne z f s fun h => hy (h ▸ hz))⟩⟩

theorem keepsOthers_modAccrual (hz : pressOf z = p) (f : Accrual → Accrual) (s : State) :
    s.KeepsOthers (s.modAccrual z f) p :=
  ⟨fun _ _ => ⟨rfl, rfl, rfl, .of_eq rfl⟩, fun _ hy =>
    ⟨accrual_modAccrual_of_ne z f s fun h => hy (h ▸ hz), .of_eq rfl⟩⟩

theorem keepsOthers_modCure (p : PressNo) (f : Cure → Cure) (s : State) : s.KeepsOthers (s.modCure p f) p :=
  ⟨fun _ hq => ⟨rfl, cure_modCure_of_ne p f s hq, rfl, .of_eq rfl⟩, fun _ _ => ⟨rfl, .of_eq rfl⟩⟩

theorem keepsOthers_modUnit (p : PressNo) (f : PressUnit → PressUnit) (s : State) : s.KeepsOthers (s.modUnit p f) p :=
  ⟨fun _ hq => ⟨unit_modUnit_of_ne p f s hq, rfl, rfl, .of_eq rfl⟩, fun _ _ => ⟨rfl, .of_eq rfl⟩⟩

theorem keepsOthers_modWindow (p : PressNo) (f : HeatWindow → HeatWindow) (s : State) :
    s.KeepsOthers (s.modWindow p f) p :=
  ⟨fun _ hq => ⟨rfl, rfl, window_modWindow_of_ne p f s hq, .of_eq rfl⟩, fun _ _ => ⟨rfl, .of_eq rfl⟩⟩

theorem keepsOthers_modEjector (p : PressNo) (f : Ejector → Ejector) (s : State) :
    s.KeepsOthers (s.modEjector p f) p :=
  ⟨fun _ hq => ⟨rfl, rfl, rfl, .of_eq (ejector_modEjector_of_ne p f s hq)⟩, fun _ _ => ⟨rfl, .of_eq rfl⟩⟩

theorem keepsOthers_linkActivity (s : State) (p : PressNo) : s.KeepsOthers s.linkActivity p :=
  keepsOthers_of_changes (linkActivity_changes s) p

theorem keepsOthers_raise (tm : Time) (k : EventKind) (i : EventOn) (s : State) (p : PressNo) :
    s.KeepsOthers (s.raise tm k i) p := keepsOthers_of_changes (raise_changes tm k i s) p

theorem keepsOthers_modRecord (q : PressNo) (g : Record → Record) (s : State) (p : PressNo) :
    s.KeepsOthers (s.modRecord q g) p := keepsOthers_of_changes (modRecord_changes q g s) p

theorem keepsOthers_placeOwed (s : State) (p : PressNo) : s.KeepsOthers s.placeOwed p := by
  have h := placeOwed_changes s
  exact ⟨fun q _ => ⟨unit_of_changes h q, cure_of_changes h q, window_of_changes h q, keepsEjector_placeOwed q s⟩,
    fun y _ => ⟨accrual_of_changes h y, keepsZone_placeOwed y s⟩⟩

/-- The off command for a heater output, beside those for others (R79). -/
def withOff (h : NodeRef) (n : Nat) (c : Zone) : Zone :=
  { c with offs := (c.offs.filter fun o => !(o.node == h.node && o.output == h.line))
      ++ [{ node := h.node, output := h.line, placed := false, number := n }] }

theorem zone_createOff_of_some {h : NodeRef} (hh : (s.zoneEntry z).heater = some h) (y : ZoneNo) :
    (s.createOff z).zone y = (s.modZone z (withOff h s.offNumber)).zone y := by
  rw [createOff, hh]
  rfl

theorem createOff_of_none (hh : (s.zoneEntry z).heater = none) : s.createOff z = s := by rw [createOff, hh]

theorem zone_createOff_of_ne (h : y ≠ z) (s : State) : (s.createOff z).zone y = s.zone y := by
  cases hh : (s.zoneEntry z).heater with
  | none => rw [createOff_of_none hh]
  | some n => rw [zone_createOff_of_some hh, zone_modZone_of_ne z _ s h]

theorem keepsOthers_createOff (hz : pressOf z = p) (s : State) : s.KeepsOthers (s.createOff z) p := by
  have h := createOff_changes z s
  have hne {y : ZoneNo} (hy : pressOf y ≠ p) : y ≠ z := fun he => hy ((congrArg pressOf he).trans hz)
  exact ⟨fun q _ => ⟨unit_of_changes h q, cure_of_changes h q, window_of_changes h q, keepsEjector_of_changes h q⟩,
    fun y hy => ⟨accrual_of_changes h y, .of_eq (zone_createOff_of_ne (hne hy) s)⟩⟩

theorem keepsOthers_endCure (p : PressNo) (tm : Time) (s : State) : s.KeepsOthers (s.endCure p tm) p :=
  keepsOthers_trans (keepsOthers_modCure p _ s) (keepsOthers_modRecord p _ _ p)

theorem keepsOthers_permitTest (p : PressNo) (tm : Time) (s : State) : s.KeepsOthers (s.permitTest p tm) p := by
  unfold permitTest
  split
  · exact keepsOthers_trans (keepsOthers_modCure p _ s) (keepsOthers_trans (keepsOthers_raise _ _ _ _ p)
      (keepsOthers_trans (keepsOthers_endCure p tm _) (keepsOthers_modUnit p _ _)))
  · exact keepsOthers_refl s p

theorem keepsOthers_recomputeProgress (p : PressNo) (s : State) : s.KeepsOthers (s.recomputeProgress p) p := by
  unfold recomputeProgress
  split
  · exact keepsOthers_modCure p _ s
  · exact keepsOthers_refl s p

theorem keepsOthers_excludeZone (hz : pressOf z = p) (tm : Time) (s : State) : s.KeepsOthers (s.excludeZone z tm) p := by
  subst hz
  have h := excludeZone_changes' z tm s
  refine ⟨fun q hq => ⟨unit_excludeZone_of_ne hq, cure_excludeZone_of_ne hq, window_of_changes h q,
    keepsEjector_of_changes h q⟩, fun y hy => ⟨?_, keepsZone_of_changes h y⟩⟩
  have hne : y ≠ z := fun he => hy (congrArg pressOf he)
  by_cases hin : (s.accrual z).inclusion = .included ∧ (s.cure (pressOf z)).status = .accruing
  · rw [accrual_excludeZone hin.1 hin.2, accrual_excluded_of_ne hne]
  · rw [excludeZone_of_not hin]

end Sys2Proof.Proofs.OtherPresses
end

