-- ==== Sys2Proof/Proofs/ZoneRequests.lean ====
section
/-! PROOFS. The requests for zones: ENABLE (R49), DISABLE (R50), RESTORE_PRIMARY (R56) and the setpoint (R64). -/

namespace Sys2Proof.Proofs.ZoneRequests

set_option Elab.async false

open Sys2Proof.Machine Sys2Proof.Machine.State Sys2Proof.Proofs.HistoryRequests Sys2Proof.Proofs.SmallRequests
  Sys2Proof.Proofs.CureRules Sys2Proof.Proofs.HeatLaws Sys2Proof.Proofs.OtherPresses Sys2Proof.Proofs.OffPlacement
  Sys2Proof.Proofs.CloseConditions

variable {s t : State} {bytes : List Byte} {f : RxFrame} {p : PressNo} {z : ZoneNo} {v : Int}

/-! ## Setpoints and the return to the primary sensor (R56, R63, R64) -/

theorem modZone_modZone (z : ZoneNo) (f g : Zone → Zone) (s : State) :
    (s.modZone z f).modZone z g = s.modZone z fun c => g (f c) := by
  unfold modZone
  simp

theorem setOverride_eq (z : ZoneNo) (v : Int) (s : State) : s.setOverride z v = s.modZone z fun c =>
    { c with base := v, target := max 0 (min (((s.zoneEntry z).limit : Int) - 50) v), overridden := true } := by
  rw [setOverride, setBase, modZone_modZone]
  rfl

theorem serveSetpoint_eq (z : ZoneNo) (v : Int) (s : State) : s.serveSetpoint v z =
    (s.modZone z fun c =>
      { c with base := v, target := max 0 (min (((s.zoneEntry z).limit : Int) - 50) v), overridden := true }, .ok,
      intBytes 2 (max 0 (min (((s.zoneEntry z).limit : Int) - 50) v))) := by
  rw [serveSetpoint, setOverride_eq, zone_modZone]

theorem clearOverride_of_bound {r : Recipe} (h : s.boundRecipe (pressOf z) = some r) :
    s.clearOverride z = s.modZone z fun c =>
      { c with base := ((if isUpper z then r.upper else r.lower : Nat) : Int) + (s.zoneEntry z).offset
               target := max 0 (min (((s.zoneEntry z).limit : Int) - 50)
                 (((if isUpper z then r.upper else r.lower : Nat) : Int) + (s.zoneEntry z).offset))
               overridden := false } := by
  have hbase : recipeBase r z (s.zoneEntry z).offset =
      ((if isUpper z then r.upper else r.lower : Nat) : Int) + (s.zoneEntry z).offset := by
    unfold recipeBase
    split
    · rfl
    · rfl
  rw [clearOverride, h, ← hbase]
  dsimp only
  rw [setBase, modZone_modZone]
  rfl

theorem clearOverride_of_unbound (h : s.boundRecipe (pressOf z) = none) :
    s.clearOverride z = s.modZone z fun c => { c with overridden := false } := by
  rw [clearOverride, h]

theorem primaryOk_iff : s.primaryOk z = true ↔ ∃ l, (s.zone z).primaryLast = some l ∧ l.status = .ok := by
  simp [primaryOk, Option.any_eq_true]

theorem zoneRestore_of_dead (h : ¬((s.zone z).state ≠ .disabled ∧ (s.zone z).state ≠ .lost)) :
    s.zoneRestore z = (s, .refusedState) := by
  have hd : (s.zone z).state = .disabled ∨ (s.zone z).state = .lost := by
    rwa [not_and_or, not_not, not_not] at h
  exact if_pos hd

theorem zoneRestore_of_live (h : (s.zone z).state ≠ .disabled ∧ (s.zone z).state ≠ .lost) : s.zoneRestore z =
    if (s.zone z).active = .primary then (s, .ok)
    else if s.primaryOk z then (s.modZone z fun c => { c with active := .primary, firstSample := true }, .ok)
    else (s, .refusedState) := if_neg (not_or.mpr h)

theorem zoneRestore_of_backup (h : (s.zone z).state ≠ .disabled ∧ (s.zone z).state ≠ .lost)
    (ha : (s.zone z).active = .backup) : s.zoneRestore z =
    if s.primaryOk z then (s.modZone z fun c => { c with active := .primary, firstSample := true }, .ok)
    else (s, .refusedState) :=
  (zoneRestore_of_live h).trans (if_neg (ne_of_eq_of_ne ha (by decide)))

/-- Settles O37: each request by its server. -/
theorem setpointAndRestore : Obligations.SetpointAndRestore := by
  intro s bytes f z v target
  have hanswer {r : Request} (h : s.Asked bytes f r) (hr : ∀ kind, r ≠ .reset kind) :
      running (receive .U bytes) s = .next (answer f r s.linkActivity) := running_answer h hr
  refine ⟨fun h => ?set, fun h => ⟨fun r hr => ?bound, fun hr => ?unbound⟩, fun h => ?restore⟩
  case set =>
    refine (hanswer h nofun).trans ?_
    rw [answer, serveRequest, onZone_of_lt, serveSetpoint_eq]
    rfl
  case bound =>
    refine (hanswer h nofun).trans ?_
    rw [answer, serveRequest, onZone_of_lt, clearOverride_of_bound (s := s.linkActivity) hr]
    rfl
  case unbound =>
    refine (hanswer h nofun).trans ?_
    rw [answer, serveRequest, onZone_of_lt, clearOverride_of_unbound (s := s.linkActivity) hr]
  case restore =>
    have hrun : running (receive .U bytes) s = .next (answer f (.zoneRestore z.val) s.linkActivity) := hanswer h nofun
    rw [answer, serveRequest, onZone_of_lt] at hrun
    refine ⟨fun hno => hrun.trans ?_, fun hlive ha => hrun.trans ?_, fun hlive ha hok => hrun.trans ?_⟩
    · by_cases hl : (s.zone z).state ≠ .disabled ∧ (s.zone z).state ≠ .lost
      · obtain ⟨ha, hbad⟩ := hno.resolve_left (not_not.mpr hl)
        rw [zoneRestore_of_backup (s := s.linkActivity) hl ha,
          if_neg ((primaryOk_iff (s := s.linkActivity)).not.mpr hbad)]
        rfl
      · rw [zoneRestore_of_dead (s := s.linkActivity) hl]
        rfl
    · rw [zoneRestore_of_live (s := s.linkActivity) hlive, if_pos (show (s.linkActivity.zone z).active = _ from ha)]
      rfl
    · rw [zoneRestore_of_backup (s := s.linkActivity) hlive ha, if_pos ((primaryOk_iff (s := s.linkActivity)).mpr hok)]
      rfl

/-! ## Enabling a zone (R49, R63, R68, R80) -/

theorem refHasRole_iff {role : Role} {r : Option NodeRef} :
    s.refHasRole role r = true ↔ ∃ a, r = some a ∧ (s.node a.node).role = role := by
  simp [refHasRole, Option.any_eq_true]

theorem zoneConfigured_iff : s.zoneConfigured z = true ↔
    (∃ a, (s.zoneEntry z).primary = some a ∧ (s.node a.node).role = .thermo)
      ∧ (∃ h, (s.zoneEntry z).heater = some h ∧ (s.node h.node).role = .heater)
      ∧ ∀ b, (s.zoneEntry z).backup = some b → (s.node b.node).role = .thermo := by
  have hbackup : (s.zoneEntry z).backup.isNone = true ∨ s.refHasRole .thermo (s.zoneEntry z).backup = true
      ↔ ∀ b, (s.zoneEntry z).backup = some b → (s.node b.node).role = .thermo := by
    rw [refHasRole_iff]
    cases (s.zoneEntry z).backup with
    | none => simp
    | some b => simp
  rw [zoneConfigured, Bool.and_eq_true, Bool.and_eq_true, Bool.or_eq_true, hbackup, refHasRole_iff, refHasRole_iff,
    and_assoc]

theorem enabled_iff : s.enabled z = true ↔ (s.zone z).state ≠ .disabled := by
  simp [enabled]

/-- The base of a zone that is enabled: the recipe's, unless an override stands (R63). -/
def enabledBase (s : State) (z : ZoneNo) : Int :=
  match s.boundRecipe (pressOf z), (s.zone z).overridden with
  | some r, false => ((if isUpper z then r.upper else r.lower : Nat) : Int) + (s.zoneEntry z).offset
  | _, _ => (s.zone z).base

/-- The output of an off command is not the zone's heater output. -/
theorem filter_offs_eq (h : Option NodeRef) (offs : List OffCommand) :
    (match h with
      | some n => offs.filter fun o => !(o.node == n.node && o.output == n.line)
      | none => offs) = offs.filter fun o => decide (h ≠ some { node := o.node, line := o.output }) := by
  cases h with
  | none => simp
  | some n =>
    refine List.filter_congr fun o _ => ?_
    obtain ⟨node, line⟩ := n
    simp only [ne_eq, Option.some.injEq, NodeRef.mk.injEq, eq_comm (a := node), eq_comm (a := line), Bool.decide_and,
      decide_not]
    rfl

/-- The zone in its new context, with the recipe's base (R49, R63). -/
def basedZone (z : ZoneNo) (s : State) : State :=
  match s.boundRecipe (pressOf z) with
  | some r => (s.modZone z enabledContext).takeRecipeBase r z
  | none => s.modZone z enabledContext

/-- The off commands for the zone's heater output are cleared (R80). -/
def clearedOffs (z : ZoneNo) (s : State) : State :=
  match (s.zoneEntry z).heater with
  | some h => (basedZone z s).clearOffsFor h.node h.line z
  | none => basedZone z s

theorem enableZone_eq (z : ZoneNo) (s : State) :
    s.enableZone z = ((clearedOffs z s).formTarget z).startWindow (pressOf z) := rfl

theorem basedZone_changes (z : ZoneNo) (s : State) : OnlyChanges [.zones] s (basedZone z s) := by
  unfold basedZone
  split
  · exact takeRecipeBase_only _ z (by decide) (modZone_changes z _ s)
  · exact modZone_changes z _ s

theorem clearedOffs_changes (z : ZoneNo) (s : State) : OnlyChanges [.zones] s (clearedOffs z s) := by
  unfold clearedOffs
  split
  · exact clearOffsFor_only _ _ z (by decide) (basedZone_changes z s)
  · exact basedZone_changes z s

theorem zone_basedZone (z : ZoneNo) (s : State) : (basedZone z s).zone z =
    { enabledContext (s.zone z) with base := enabledBase s z, target := ((basedZone z s).zone z).target } := by
  have hcontext : (s.modZone z enabledContext).zone z = enabledContext (s.zone z) := zone_modZone z _ s
  have henabled : (s.modZone z enabledContext).enabled z = true := by
    rw [enabled, hcontext]
    rfl
  unfold basedZone enabledBase
  cases s.boundRecipe (pressOf z) with
  | none =>
    dsimp only
    rw [hcontext]
    rfl
  | some r =>
    dsimp only
    rw [takeRecipeBase, henabled, hcontext]
    cases ho : (s.zone z).overridden with
    | true =>
      have hno : ¬(true && !(enabledContext (s.zone z)).overridden) = true := by
        rw [show (enabledContext (s.zone z)).overridden = true from ho]
        decide
      rw [if_neg hno, hcontext]
      rfl
    | false =>
      have hyes : (true && !(enabledContext (s.zone z)).overridden) = true := by
        rw [show (enabledContext (s.zone z)).overridden = false from ho]
        decide
      rw [if_pos hyes, setBase, zone_modZone, hcontext]
      unfold recipeBase
      split
      · rfl
      · rfl

/-- A zone without the off commands for its heater output. -/
def withoutOffs (h : Option NodeRef) (c : Zone) : Zone :=
  { c with offs := c.offs.filter fun o => decide (h ≠ some { node := o.node, line := o.output }) }

theorem zone_clearedOffs (z : ZoneNo) (s : State) :
    (clearedOffs z s).zone z = withoutOffs (s.zoneEntry z).heater ((basedZone z s).zone z) := by
  rw [withoutOffs, ← filter_offs_eq]
  unfold clearedOffs
  cases (s.zoneEntry z).heater with
  | none => rfl
  | some h => exact zone_modZone z _ _

theorem zoneEntry_of_changes {ps : List Part} (h : OnlyChanges ps s t) (z : ZoneNo)
    (hps : Part.tables ∉ ps := by decide) : t.zoneEntry z = s.zoneEntry z := by
  unfold zoneEntry
  rw [← show s.tables = t.tables from h .tables hps]

theorem pressEntry_of_changes {ps : List Part} (h : OnlyChanges ps s t) (p : PressNo)
    (hps : Part.tables ∉ ps := by decide) : t.pressEntry p = s.pressEntry p := by
  unfold pressEntry
  rw [← show s.tables = t.tables from h .tables hps]

theorem zone_enableZone (z : ZoneNo) (s : State) : (s.enableZone z).zone z = { s.zone z with
    state := .regulating, active := .primary, integral := 0, holdCount := 0
    deviationCount := 0, deviationNoted := false, measured := none, firstSample := true
    fresh := false, staged := 0, grace := true, base := enabledBase s z
    target := max 0 (min (((s.zoneEntry z).limit : Int) - 50) (enabledBase s z))
    offs := (s.zone z).offs.filter fun o =>
      decide ((s.zoneEntry z).heater ≠ some { node := o.node, line := o.output }) } := by
  rw [enableZone_eq, zone_of_changes (startWindow_changes _ _), formTarget, setBase, zone_modZone,
    zoneEntry_of_changes (clearedOffs_changes z s), zone_clearedOffs, zone_basedZone]
  rfl

theorem zone_enableZone_of_ne {y : ZoneNo} (h : y ≠ z) : (s.enableZone z).zone y = s.zone y := by
  have hbased : (basedZone z s).zone y = s.zone y := by
    unfold basedZone takeRecipeBase
    repeat' split
    · exact (zone_modZone_of_ne z _ _ h).trans (zone_modZone_of_ne z _ s h)
    · exact zone_modZone_of_ne z _ s h
    · exact zone_modZone_of_ne z _ s h
  rw [enableZone_eq, zone_of_changes (startWindow_changes _ _), formTarget, setBase, zone_modZone_of_ne z _ _ h]
  unfold clearedOffs
  split
  · exact (zone_modZone_of_ne z _ _ h).trans hbased
  · exact hbased

theorem window_startWindow (p : PressNo) (s : State) : (s.startWindow p).window p =
    if (s.window p).running then s.window p else
      { s.window p with running := true, start := some s.timebase, period := (s.pressEntry p).period } := by
  unfold startWindow
  split
  · rfl
  · rw [window_modWindow]

theorem window_startWindow_of_ne {q : PressNo} (h : q ≠ p) : (s.startWindow p).window q = s.window q := by
  unfold startWindow
  split
  · rfl
  · rw [window_modWindow_of_ne p _ s h]

theorem zoneEnable_of_enabled (h : (s.zone z).state ≠ .disabled) : s.zoneEnable z = (s, .refusedState) :=
  if_pos (enabled_iff.mpr h)

theorem zoneEnable_of_disabled (h : (s.zone z).state = .disabled) : s.zoneEnable z =
    if s.zoneConfigured z then (s.enableZone z, .ok) else (s, .unconfigured) :=
  if_neg fun he => enabled_iff.mp he h

/-- Settles O35: by the state of the zone, and whether it is configured. -/
theorem zoneEnable : Obligations.ZoneEnable := by
  intro s bytes f z h n p configured
  have hrun : running (receive .U bytes) s = .next (answer f (.zoneEnable z.val) s.linkActivity) :=
    running_answer h nofun
  rw [answer, serveRequest, onZone_of_lt] at hrun
  refine ⟨fun hen => hrun.trans ?_, fun hdis hno => hrun.trans ?_, fun hdis hyes => ?_⟩
  · rw [zoneEnable_of_enabled (s := s.linkActivity) hen]
    rfl
  · rw [zoneEnable_of_disabled (s := s.linkActivity) hdis,
      if_neg ((zoneConfigured_iff (s := s.linkActivity)).not.mpr hno)]
    rfl
  · rw [zoneEnable_of_disabled (s := s.linkActivity) hdis,
      if_pos ((zoneConfigured_iff (s := s.linkActivity)).mpr hyes)] at hrun
    have hform := (clearedOffs_changes z s.linkActivity).trans (formTarget_changes z (clearedOffs z s.linkActivity))
    have htime : ((clearedOffs z s.linkActivity).formTarget z).timebase = s.timebase :=
      (hform .timebase (by decide)).symm
    refine ⟨s.linkActivity.enableZone z, hrun, ?_, ?_, fun y hy => zone_enableZone_of_ne hy, fun q hq => ?_,
      enableZone_changes z s.linkActivity⟩
    · rw [zone_enableZone]
      rfl
    · rw [enableZone_eq, window_startWindow, window_of_changes hform, pressEntry_of_changes hform, htime]
      rfl
    · rw [enableZone_eq, window_startWindow_of_ne hq, window_of_changes hform]
      rfl

end Sys2Proof.Proofs.ZoneRequests
end

