-- ==== Sys2Proof/Proofs/ZoneDisabling.lean ====
section
/-! PROOFS. Disabling a zone (R50): its heater's off command (R79), the timer of its press (R68) and its exclusion
from a cure (R90). -/

namespace Sys2Proof.Proofs.ZoneDisabling

set_option Elab.async false

open Sys2Proof.Machine Sys2Proof.Machine.State Sys2Proof.Proofs.HistoryRequests Sys2Proof.Proofs.SmallRequests
  Sys2Proof.Proofs.CureRules Sys2Proof.Proofs.HeatLaws Sys2Proof.Proofs.OtherPresses Sys2Proof.Proofs.OffPlacement
  Sys2Proof.Proofs.CloseConditions Sys2Proof.Proofs.Transmitters Sys2Proof.Proofs.AttentionAndOffs
  Sys2Proof.Proofs.ZoneRequests

variable {s t : State} {bytes : List Byte} {f : RxFrame} {p : PressNo} {z y : ZoneNo} {tm : Time}

/-! ## An off command that is created and takes a place at once (R79) -/

/-- With nothing waiting, a new off command is the one frame that waits. -/
theorem waitingOffs_createOff {h : NodeRef} (hh : (s.zoneEntry z).heater = some h) (hw : s.offWaits = false) :
    (s.createOff z).waitingOffs =
      [heatOff s z { node := h.node, output := h.line, placed := false, number := s.offNumber }] := by
  have hplaced (y : ZoneNo) : ∀ o ∈ (s.zone y).offs, o.placed = true := by
    intro o ho
    by_contra hp
    exact absurd (offWaits_iff.mpr (.inl ⟨y, o, ho, Bool.not_eq_true _ |>.mp hp⟩)) (by rw [hw]; decide)
  have howed (q : PressNo) : pressWaiting (s.createOff z) q = none := by
    refine pressWaiting_of_placed fun o ho => ?_
    rw [ejector_of_changes (createOff_changes z s)] at ho
    by_contra hp
    exact absurd (offWaits_iff.mpr (.inr ⟨q, o, ho, Bool.not_eq_true _ |>.mp hp⟩)) (by rw [hw]; decide)
  have hother (y : ZoneNo) (hy : y ≠ z) : zoneWaiting (s.createOff z) y = [] := by
    refine zoneWaiting_of_placed fun o ho => ?_
    rw [zone_createOff_of_ne hy] at ho
    exact hplaced y o ho
  have hown : (s.createOff z).ownAddress = s.ownAddress := by
    unfold State.ownAddress
    rw [← show s.mode = (s.createOff z).mode from createOff_changes z s .mode (by decide)]
  have hthis : zoneWaiting (s.createOff z) z =
      [heatOff s z { node := h.node, output := h.line, placed := false, number := s.offNumber }] := by
    unfold zoneWaiting
    rw [zone_createOff_of_some hh, zone_modZone, withOff, List.filter_append, List.filter_filter,
      List.filter_eq_nil_iff.mpr fun o ho => by simp [hplaced z o ho]]
    simp [heatOff, hown]
  obtain ⟨l, r, hsplit, _⟩ := finRange_split z
  have hnodup := List.nodup_finRange 48
  rw [hsplit, List.nodup_append] at hnodup
  obtain ⟨_, hright, hdisjoint⟩ := hnodup
  have hl : l.flatMap (zoneWaiting (s.createOff z)) = [] :=
    List.flatMap_eq_nil_iff.mpr fun y hy => hother y (hdisjoint y hy z List.mem_cons_self)
  have hr : r.flatMap (zoneWaiting (s.createOff z)) = [] :=
    List.flatMap_eq_nil_iff.mpr fun y hy => hother y fun he => (List.nodup_cons.mp hright).1 (he ▸ hy)
  rw [waitingOffs_eq, hsplit, List.flatMap_append, List.flatMap_cons, hl, hr, hthis,
    List.filterMap_eq_nil_iff.mpr fun q _ => howed q]
  rfl

/-- What the creation of an off command and its placement leave of the zone and of Port D OWN. -/
theorem offs_placeOwed_createOff {h : NodeRef} (hn : s.normal = true) (hh : (s.zoneEntry z).heater = some h) :
    let kept := (s.zone z).offs.filter fun o => !(o.node == h.node && o.output == h.line)
    let off (placed : Bool) : OffCommand :=
      { node := h.node, output := h.line, placed := placed, number := s.offNumber }
    (16 ≤ s.portD.own.length →
      (((s.createOff z).placeOwed).zone z).offs = kept ++ [off false]
        ∧ (s.createOff z).placeOwed.portD.own = s.portD.own)
    ∧ (s.portD.own.length < 16 → s.offWaits = false →
      (((s.createOff z).placeOwed).zone z).offs = kept ++ [off true]
        ∧ (s.createOff z).placeOwed.portD.own = s.portD.own ++ [heatOff s z (off false)]) := by
  intro kept off
  have hn' : (s.createOff z).normal = true := by
    unfold State.normal
    rw [← show s.mode = (s.createOff z).mode from createOff_changes z s .mode (by decide)]
    exact hn
  have hport : (s.createOff z).portD = s.portD := (createOff_changes z s .portD (by decide)).symm
  have hzone : ((s.createOff z).zone z).offs = kept ++ [off false] := by
    rw [zone_createOff_of_some hh, zone_modZone]
    rfl
  rw [placeOwed_eq hn']
  refine ⟨fun hfull => ?_, fun hroom hw => ?_⟩
  · rw [fillPlaces_of_none (placedOf_of_idle (.inl (by rwa [hport]))), hport]
    exact ⟨hzone, rfl⟩
  · have hplaced : placedOf [heatOff s z (off false)] (s.createOff z) = [heatOff s z (off false)] := by
      rw [placedOf, hport, List.take_of_length_le]
      show 1 ≤ 16 - s.portD.own.length
      omega
    have hkept (o : OffCommand) (ho : o ∈ kept) : o.placed = true := by
      by_contra hp
      exact absurd (offWaits_iff.mpr (.inl ⟨z, o, (List.mem_filter.mp ho).1, Bool.not_eq_true _ |>.mp hp⟩))
        (by rw [hw]; decide)
    rw [waitingOffs_createOff hh hw, zone_fillPlaces, flaggedZone, fillPlaces, hplaced, hzone]
    refine ⟨?_, by rw [hport]⟩
    rw [List.map_append]
    refine congrArg₂ _ (List.map_congr_left (g := id) (fun o ho => ?_) |>.trans (List.map_id _)) ?_
    · obtain ⟨node, output, placed, number⟩ := o
      have hp : placed = true := hkept _ ho
      simp [hp]
    · have hsent : hasPlaced [heatOff s z (off false)] (s.createOff z) (.heaterOff z (off false).number) = true := by
        rw [hasPlaced, hplaced]
        exact decide_eq_true List.mem_cons_self
      rw [List.map_singleton, hsent]
      rfl

/-! ## Disabling a zone (R50) -/

/-- A zone that is disabled, before its off command. -/
def disabledZone (c : Zone) : Zone := { c with state := .disabled, staged := 0, committed := 0, deviationCount := 0 }

/-- The zone's heat is shut off. -/
def shutOff (z : ZoneNo) (s : State) : State := ((s.modZone z disabledZone).createOff z).placeOwed

theorem disableZone_eq (z : ZoneNo) (tm : Time) (s : State) :
    s.disableZone z tm = ((shutOff z s).stopWindow (pressOf z)).excludeZone z tm := rfl

theorem shutOff_changes (z : ZoneNo) (s : State) :
    OnlyChanges [.zones, .offNumber, .ejectors, .portD] s (shutOff z s) :=
  placeOwed_only (by decide) (createOff_only z (by decide) ((modZone_changes z _ s).mono (by decide)))

theorem zone_shutOff (z : ZoneNo) (s : State) : (shutOff z s).zone z =
    { s.zone z with state := .disabled, staged := 0, committed := 0, deviationCount := 0
                    offs := ((shutOff z s).zone z).offs } := by
  have hcreate : ((s.modZone z disabledZone).createOff z).zone z =
      { disabledZone (s.zone z) with offs := (((s.modZone z disabledZone).createOff z).zone z).offs } := by
    cases hh : ((s.modZone z disabledZone).zoneEntry z).heater with
    | none => rw [createOff_of_none hh, zone_modZone]
    | some h => rw [zone_createOff_of_some hh, zone_modZone, zone_modZone]; rfl
  obtain ⟨hzone, _⟩ := keepsZone_placeOwed z ((s.modZone z disabledZone).createOff z)
  rw [hcreate] at hzone
  exact hzone

theorem keepsZone_shutOff (h : y ≠ z) (s : State) : s.KeepsZone (shutOff z s) y :=
  keepsZone_trans (.of_eq ((zone_createOff_of_ne h _).trans (zone_modZone_of_ne z _ s h))) (keepsZone_placeOwed y _)

theorem keepsEjector_shutOff (z : ZoneNo) (q : PressNo) (s : State) : s.KeepsEjector (shutOff z s) q :=
  keepsEjector_trans (t := (s.modZone z disabledZone).createOff z)
    (.of_eq (ejector_of_changes (s := s.modZone z disabledZone) (createOff_changes z _) q)) (keepsEjector_placeOwed q _)

theorem offWaits_of_offs (hz : ∀ z, (t.zone z).offs = (s.zone z).offs)
    (he : ∀ q, (t.ejector q).offOwed = (s.ejector q).offOwed) : t.offWaits = s.offWaits := by
  simp only [offWaits, hz, he]

theorem offWaits_disabledZone (z : ZoneNo) (s : State) : (s.modZone z disabledZone).offWaits = s.offWaits := by
  refine offWaits_of_offs (fun y => ?_) fun _ => rfl
  by_cases hy : y = z
  · subst hy
    rw [zone_modZone]
    rfl
  · rw [zone_modZone_of_ne z _ s hy]

theorem keepsOthers_shutOff (z : ZoneNo) (s : State) : s.KeepsOthers (shutOff z s) (pressOf z) :=
  keepsOthers_trans (keepsOthers_modZone rfl _ s) (keepsOthers_trans (keepsOthers_createOff rfl _)
    (keepsOthers_placeOwed _ _))

theorem state_shutOff_of_ne (h : y ≠ z) (s : State) : ((shutOff z s).zone y).state = (s.zone y).state := by
  rw [(keepsZone_shutOff h s).1]

/-- The enabled zones of a press with this one disabled. -/
theorem enabledZones_shutOff (z : ZoneNo) (s : State) : (shutOff z s).enabledZones (pressOf z) = [] ↔
    ¬∃ y, y ≠ z ∧ pressOf y = pressOf z ∧ s.enabled y = true := by
  rw [List.eq_nil_iff_forall_not_mem, not_exists]
  refine forall_congr' fun y => not_congr ?_
  rw [mem_enabledZones, enabled_iff, enabled_iff]
  by_cases hy : y = z
  · subst hy
    rw [zone_shutOff]
    simp
  · rw [state_shutOff_of_ne hy]
    simp [hy]

theorem window_stopWindow (p : PressNo) (s : State) : (s.stopWindow p).window p =
    if s.enabledZones p = [] then { s.window p with running := false, start := none } else s.window p := by
  unfold stopWindow
  split
  · rw [window_modWindow]
  · rfl

theorem keepsOthers_stopWindow (p : PressNo) (s : State) : s.KeepsOthers (s.stopWindow p) p := by
  unfold stopWindow
  split
  · exact keepsOthers_modWindow p _ s
  · exact keepsOthers_refl s p

theorem zoneDisable_of_enabled (h : (s.zone z).state ≠ .disabled) :
    s.zoneDisable z = (s.disableZone z s.timebase, .ok) := if_pos (enabled_iff.mpr h)

theorem zoneDisable_of_disabled (h : (s.zone z).state = .disabled) : s.zoneDisable z = (s, .ok) :=
  if_neg fun he => enabled_iff.mp he h

/-- Settles O36: the zone's heat is shut off, the timer of the press is stopped, and the zone is excluded. -/
theorem zoneDisable : Obligations.ZoneDisable := by
  intro s bytes f z h p
  have hrun : running (receive .U bytes) s = .next (answer f (.zoneDisable z.val) s.linkActivity) :=
    running_answer h nofun
  rw [answer, serveRequest, onZone_of_lt] at hrun
  refine ⟨fun hdis => hrun.trans ?_, fun hen => ?_⟩
  · rw [zoneDisable_of_disabled (s := s.linkActivity) hdis]
    rfl
  rw [zoneDisable_of_enabled (s := s.linkActivity) hen] at hrun
  let u := (shutOff z s.linkActivity).stopWindow p
  have hu : OnlyChanges [.zones, .offNumber, .ejectors, .portD, .windows] s.linkActivity u :=
    stopWindow_only p (by decide) ((shutOff_changes z _).mono (by decide))
  have hstop : OnlyChanges [.windows] (shutOff z s.linkActivity) u := stopWindow_changes p _
  have hexclude : OnlyChanges (.cures :: .accruals :: .units :: raiseParts) u (u.excludeZone z s.timebase) :=
    excludeZone_changes' z _ u
  have hempty : (shutOff z s.linkActivity).enabledZones p = [] ↔
      ¬∃ y, y ≠ z ∧ pressOf y = p ∧ s.enabled y = true := enabledZones_shutOff z s.linkActivity
  have hzone (y : ZoneNo) : (u.excludeZone z s.timebase).zone y = (shutOff z s.linkActivity).zone y := by
    rw [zone_of_changes hexclude, zone_of_changes hstop]
  have hwindow : (u.excludeZone z s.timebase).window p =
      if (shutOff z s.linkActivity).enabledZones p = [] then { s.window p with running := false, start := none }
      else s.window p := by
    rw [window_of_changes hexclude, window_stopWindow, window_of_changes (shutOff_changes z _)]
    rfl
  have hport : (u.excludeZone z s.timebase).portD = (shutOff z s.linkActivity).portD :=
    (hexclude .portD (by decide)).symm.trans (hstop .portD (by decide)).symm
  have hothers : s.KeepsOthers (u.excludeZone z s.timebase) p :=
    keepsOthers_trans (keepsOthers_linkActivity s p) (keepsOthers_trans (keepsOthers_shutOff z _)
      (keepsOthers_trans (keepsOthers_stopWindow p _) (keepsOthers_excludeZone rfl _ u)))
  have hrest : OnlyChanges (.windows :: .cures :: .accruals :: .units :: raiseParts) (shutOff z s.linkActivity)
      (u.excludeZone z s.timebase) := (hstop.mono (by decide)).before (by decide) hexclude
  have hsame : OnlyChanges (.linkPin :: .linkStart :: [.zones, .offNumber, .ejectors, .portD, .windows]) s u :=
    ((linkActivity_changes s).mono (by decide)).before (by decide) hu
  refine ⟨u.excludeZone z s.timebase, hrun, ?_, fun n hn => ?_, fun hsome => ?_, fun hnone => ?_,
    fun hin hacc => ?_, fun hno => ?_, fun y hy => ?_, fun q => ?_, hothers, ?_⟩
  · rw [hzone, zone_shutOff]
    rfl
  · have hoffs := offs_placeOwed_createOff (s := s.linkActivity.modZone z disabledZone) (z := z)
      (normal_of_Normal h.1) hn
    rw [hzone, hport]
    rw [zone_modZone] at hoffs
    exact ⟨hoffs.1, fun hroom hw => hoffs.2 hroom ((offWaits_disabledZone z s.linkActivity).trans hw)⟩
  · rw [hwindow, if_neg fun he => hempty.mp he hsome]
  · rw [hwindow, if_pos (hempty.mpr hnone)]
  · refine excludes_of_changes (excludes_excludeZone ?_ ?_ ?_) hsame
    · rw [live_of_changes hsame]
      exact h.1.live
    · rw [accrual_of_changes hsame]
      exact hin
    · rw [cure_of_changes hsame]
      exact hacc
  · rw [excludeZone_of_not (s := u)]
    · exact ⟨fun y => accrual_of_changes hsame y, cure_of_changes hsame p, unit_of_changes hsame p⟩
    · rw [accrual_of_changes hsame, cure_of_changes hsame, not_and_or]
      exact hno
  · exact keepsZone_trans (keepsZone_shutOff hy s.linkActivity) (keepsZone_of_changes hrest y)
  · exact keepsEjector_trans (keepsEjector_shutOff z q s.linkActivity) (keepsEjector_of_changes hrest q)
  · exact (hu.mono (by decide)).before (by decide) hexclude

end Sys2Proof.Proofs.ZoneDisabling
end

