-- ==== Sys2Proof/Proofs/Timers.lean ====
section
/-! PROOFS. The expiries of the dwell, max cure, close and lift timers (R93 to R95, R116, R135). -/

namespace Sys2Proof.Proofs.Timers

set_option Elab.async false

open Sys2Proof.Machine Sys2Proof.Machine.State Sys2Proof.Proofs.CureRules Sys2Proof.Proofs.CureProgress

variable {s t : State} {own : Nat} {p : PressNo} {k : ScaleNo} {r : Recipe} {tm start : Time}

/-! ## A timer that is due or not (log 2) -/

theorem exec_dwellExpiry (hn : s.Normal own) (p : PressNo) :
    exec (.dwellExpiry p) s = .next (doIf (s.dwellDue p) (dwellExpires p) s) :=
  running_of_settled hn.1 fun s => doIf (s.dwellDue p) (dwellExpires p) s

theorem exec_maxCureExpiry (hn : s.Normal own) (p : PressNo) :
    exec (.maxCureExpiry p) s = .next (doIf (s.maxCureDue p) (maxCureExpires p) s) :=
  running_of_settled hn.1 fun s => doIf (s.maxCureDue p) (maxCureExpires p) s

theorem exec_closeTimerExpiry (hn : s.Normal own) (p : PressNo) :
    exec (.closeTimerExpiry p) s = .next (doIf (s.closeTimerDue p) (closeTimerExpires p) s) :=
  running_of_settled hn.1 fun s => doIf (s.closeTimerDue p) (closeTimerExpires p) s

theorem exec_liftTimerExpiry (hn : s.Normal own) (k : ScaleNo) :
    exec (.liftTimerExpiry k) s = .next (doIf (s.liftDue k) (liftExpires k) s) :=
  running_of_settled hn.1 fun s => doIf (s.liftDue k) (liftExpires k) s

theorem doIf_of_not {c : Bool} {g : State → State} (h : ¬c = true) : doIf c g s = s := by
  rw [Bool.eq_false_iff.mpr h]
  rfl

theorem doIf_of {c : Bool} {g : State → State} (h : c = true) : doIf c g s = g s := by
  rw [h]
  rfl

theorem dwellDue_iff (hn : s.Normal own) (hr : s.boundRecipe p = some r) : s.dwellDue p = true ↔
    (s.cure p).status = .accruing ∧ (s.cure p).dwellMet = false ∧ r.minDwell * 1000 ≤ s.cureAge p := by
  obtain ⟨⟨_, hshut, _⟩, _⟩ := hn
  simp [dwellDue, hshut, hr, and_assoc]

theorem maxCureDue_iff (hn : s.Normal own) (hr : s.boundRecipe p = some r) : s.maxCureDue p = true ↔
    (s.cure p).status = .accruing ∧ r.maxCure * 1000 ≤ s.cureAge p := by
  obtain ⟨⟨_, hshut, _⟩, _⟩ := hn
  simp [maxCureDue, hshut, hr]

theorem closeTimerDue_iff (hn : s.Normal own) (hr : s.boundRecipe p = some r) : s.closeTimerDue p = true ↔
    (s.unit p).state = .closing ∧ (s.unit p).closeTimedOut = false
      ∧ ∃ t, (s.unit p).closingEntry = some t ∧ r.closeTimeout * 1000 ≤ since s.timebase t := by
  obtain ⟨⟨_, hshut, _⟩, _⟩ := hn
  simp only [closeTimerDue, hshut, hr, Option.any_some, Option.any_eq_true, Bool.not_false, Bool.true_and,
    Bool.and_eq_true, beq_iff_eq, Bool.not_eq_true', decide_eq_true_eq, and_assoc]

theorem liftDue_iff (hn : s.Normal own) : s.liftDue k = true ↔ (s.scale k).state = .lifting
    ∧ ∃ t, (s.scale k).liftStart = some t ∧ (s.scale k).liftTime ≤ since s.timebase t := by
  obtain ⟨⟨_, hshut, _⟩, _⟩ := hn
  simp only [liftDue, hshut, Option.any_eq_true, Bool.not_false, Bool.true_and, Bool.and_eq_true, beq_iff_eq,
    decide_eq_true_eq]

theorem cureAge_of_entry (h : (s.cure p).entryTime = some start) : s.cureAge p = (s.timebase - start).toNat := by
  rw [cureAge, h]
  rfl

/-! ## The end of a cure by its permit, or without (R94, R95) -/

theorem modCure_modCure (p : PressNo) (f g : Cure → Cure) (s : State) :
    (s.modCure p f).modCure p g = s.modCure p fun c => g (f c) := by
  unfold modCure
  simp

/-- The end of a cure whose status is not ACCRUING any more (R96, R98). -/
theorem endCure_of_not_accruing (h : (s.cure p).status ≠ .accruing) : s.endCure p tm =
    (s.modCure p fun c => { c with endTime := some tm }).modRecord p fun x =>
      { x with cureEnd := some tm, cureAchieved := (s.cure p).progress } := by
  have hcongr : s.modCure p (fun c => { c with status := (s.cure p).status, endTime := some tm }) =
      s.modCure p fun c => { c with endTime := some tm } := by
    unfold modCure
    rfl
  rw [endCure, if_neg h, hcongr]

/-- The permit test of a cure that meets its dwell. -/
theorem permitPasses_dwellMet (hacc : (s.cure p).status = .accruing) (hr : s.boundRecipe p = some r) :
    (s.modCure p fun c => { c with dwellMet := true }).permitPasses p = true ↔
      (s.cure p).lost = false ∧ r.cureTarget * 1000 ≤ (s.cure p).progress := by
  rw [permitPasses_iff, cure_modCure, show (s.modCure p _).boundRecipe p = s.boundRecipe p from rfl, hr]
  simp [hacc]

theorem permitTest_dwellMet (hp : (s.modCure p fun c => { c with dwellMet := true }).permitPasses p = true) :
    (s.modCure p fun c => { c with dwellMet := true }).permitTest p s.timebase =
      ((((raiseNow .cureDone (.press p) (s.modCure p fun c =>
          { c with dwellMet := true, status := .permitted })).modCure p fun c =>
            { c with endTime := some s.timebase }).modRecord p fun x =>
              { x with cureEnd := some s.timebase, cureAchieved := (s.cure p).progress }).modUnit p
                fun u => { u with state := .demouldWait }) := by
  let x := s.modCure p fun c => { c with dwellMet := true, status := .permitted }
  have hcure : (raiseNow .cureDone (.press p) x).cure p = { s.cure p with dwellMet := true, status := .permitted } := by
    rw [cure_of_changes (raiseNow_changes _ _ x), cure_modCure]
  have hend : (raiseNow .cureDone (.press p) x).endCure p s.timebase =
      ((raiseNow .cureDone (.press p) x).modCure p fun c => { c with endTime := some s.timebase }).modRecord p fun x =>
        { x with cureEnd := some s.timebase, cureAchieved := (s.cure p).progress } := by
    rw [endCure_of_not_accruing (by rw [hcure]; exact nofun), hcure]
  rw [permitTest, if_pos hp, modCure_modCure]
  exact congrArg _ hend

theorem timeOutCure_dwellMet (p : PressNo) (s : State) :
    (s.modCure p fun c => { c with dwellMet := true }).timeOutCure p =
      (((((raiseNow .pressTimeout (.press p) (s.modCure p fun c =>
        { c with dwellMet := true, status := .timedOut })).modRecord p (·.set .cureTimeout)).modCure
          p fun c => { c with endTime := some s.timebase }).modRecord p fun x =>
            { x with cureEnd := some s.timebase, cureAchieved := (s.cure p).progress }).modUnit p
              fun u => { u with state := .demouldWait }) := by
  let x := s.modCure p fun c => { c with dwellMet := true, status := .timedOut }
  let y := (raiseNow .pressTimeout (.press p) x).setFlag p .cureTimeout
  have hcure : y.cure p = { s.cure p with dwellMet := true, status := .timedOut } := by
    rw [cure_of_changes (setFlag_changes p _ _), cure_of_changes (raiseNow_changes _ _ x), cure_modCure]
  have hend : y.endCure p s.timebase = (y.modCure p fun c => { c with endTime := some s.timebase }).modRecord p fun x =>
      { x with cureEnd := some s.timebase, cureAchieved := (s.cure p).progress } := by
    rw [endCure_of_not_accruing (by rw [hcure]; exact nofun), hcure]
  rw [timeOutCure, modCure_modCure]
  exact congrArg _ hend

/-- Settles O40: each timer by whether it is due. -/
theorem timerExpiries : Obligations.TimerExpiries := by
  intro s own hn
  refine ⟨fun p r start hr => ?press, fun k start => ?lift⟩
  case press =>
    intro permitted passes
    have hdwellDue := dwellDue_iff hn hr
    have hmaxDue := maxCureDue_iff hn hr
    have hcloseDue := closeTimerDue_iff hn hr
    have hdwell := exec_dwellExpiry hn p
    have hmax := exec_maxCureExpiry hn p
    have hclose := exec_closeTimerExpiry hn p
    refine ⟨fun hacc => ?stopped, fun hacc hentry => ?cure, fun hno => ?closed, fun hclosing hto hentry => ?close⟩
    case stopped =>
      rw [hdwell, hmax, doIf_of_not fun h => hacc (hdwellDue.mp h).1, doIf_of_not fun h => hacc (hmaxDue.mp h).1]
      exact ⟨rfl, rfl⟩
    case cure =>
      intro age
      have hage : s.cureAge p = age := cureAge_of_entry hentry
      have hpass := permitPasses_dwellMet hacc hr
      rw [hage] at hdwellDue hmaxDue
      rw [hdwell, hmax]
      refine ⟨fun hno => ?_, fun hunmet hle => ?_, fun hlt => ?_, fun hle => ?_⟩
      · rw [doIf_of_not fun h => ?_]
        obtain ⟨_, hunmet, hdue⟩ := hdwellDue.mp h
        rcases hno with hmet | hlt
        · exact absurd (hmet.symm.trans hunmet) (by decide)
        · exact absurd hdue (Nat.not_le.mpr hlt)
      · rw [doIf_of (hdwellDue.mpr ⟨hacc, hunmet, hle⟩), dwellExpires]
        refine ⟨fun h => ?_, fun h => ?_⟩
        · rw [permitTest_dwellMet (hpass.mpr h)]
        · rw [permitTest_of_not (hpass.not.mpr h)]
      · rw [doIf_of_not fun h => absurd (hmaxDue.mp h).2 (Nat.not_le.mpr hlt)]
      · rw [doIf_of (hmaxDue.mpr ⟨hacc, hle⟩), maxCureExpires]
        refine ⟨fun h => ?_, fun h => ?_⟩
        · rw [if_pos (hpass.mpr h), permitTest_dwellMet (hpass.mpr h)]
        · rw [if_neg (hpass.not.mpr h), timeOutCure_dwellMet]
    case closed =>
      rw [hclose, doIf_of_not fun h => ?_]
      obtain ⟨hclosing, hrunning, _⟩ := hcloseDue.mp h
      rcases hno with hother | hout
      · exact hother hclosing
      · exact absurd (hout.symm.trans hrunning) (by decide)
    case close =>
      rw [hclose]
      refine ⟨fun hlt => ?_, fun hle => ?_⟩
      · rw [doIf_of_not fun h => ?_]
        obtain ⟨_, _, t, ht, hle⟩ := hcloseDue.mp h
        cases hentry.symm.trans ht
        exact absurd hle (Nat.not_le.mpr hlt)
      · rw [doIf_of (hcloseDue.mpr ⟨hclosing, hto, start, hentry, hle⟩)]
        rfl
  case lift =>
    rw [exec_liftTimerExpiry hn k]
    refine ⟨fun hno => ?_, fun hlifting hstart => ⟨fun hlt => ?_, fun hle => ?_⟩⟩
    · rw [doIf_of_not fun h => hno ((liftDue_iff hn).mp h).1]
    · rw [doIf_of_not fun h => ?_]
      obtain ⟨_, t, ht, hle⟩ := (liftDue_iff hn).mp h
      cases hstart.symm.trans ht
      exact absurd hle (Nat.not_le.mpr hlt)
    · rw [doIf_of ((liftDue_iff hn).mpr ⟨hlifting, start, hstart, hle⟩)]
      rfl

end Sys2Proof.Proofs.Timers
end

