-- ==== Sys2Proof/Proofs/OneZone.lean ====
section
/-! PROOFS. What the treatment of a zone's sample can touch: that zone, its accrual, and the cure, unit and OPEN record
of its press. Other zones and presses keep what they hold, a raw kind stays raw, and a record keeps its flags. -/

namespace Sys2Proof.Proofs.OneZone

set_option Elab.async false

open Sys2Proof.Machine Sys2Proof.Machine.State Sys2Proof.Proofs.CureRules Sys2Proof.Proofs.HeatLaws
  Sys2Proof.Proofs.OtherPresses Sys2Proof.Proofs.StepRules

variable {s t u : State} {tm : Time} {p : PressNo} {y z : ZoneNo} {ps : List Part} {m : Int} {x : ActiveSensor}

/-! ## Raw kinds and record flags that stay -/

/-- A raw kind stays raw, and the OPEN record of a press keeps its flags. -/
def Grows (p : PressNo) (s t : State) : Prop :=
  (∀ j : Fin 25, s.events[j].raw = true → t.events[j].raw = true)
    ∧ ∀ i, Opens p (fun r => r.flags.getLsbD i = true) s → Opens p (fun r => r.flags.getLsbD i = true) t

theorem Grows.refl (p : PressNo) (s : State) : Grows p s s := ⟨fun _ h => h, fun _ h => h⟩

theorem Grows.trans (h : Grows p s t) (g : Grows p t u) : Grows p s u :=
  ⟨fun j hj => g.1 j (h.1 j hj), fun i hi => g.2 i (h.2 i hi)⟩

theorem grows_of_changes (h : OnlyChanges ps s t) (p : PressNo) (he : Part.events ∉ ps := by decide)
    (hh : Part.history ∉ ps := by decide) : Grows p s t :=
  ⟨fun _ hj => raw_of_changes h hj he, fun _ hi => hi.of_changes h hh⟩

theorem grows_raise (tm : Time) (k : EventKind) (i : EventOn) (s : State) (p : PressNo) :
    Grows p s (s.raise tm k i) :=
  ⟨fun _ hj => raw_raise hj, fun _ hi => hi.notes (onlyNotes_raise tm k i s) fun _ _ _ h => h⟩

theorem grows_modRecord (p : PressNo) {g : Record → Record}
    (hg : ∀ (r : Record) i, r.flags.getLsbD i = true → (g r).flags.getLsbD i = true) (s : State) :
    Grows p s (s.modRecord p g) :=
  ⟨fun _ hj => raw_of_changes (modRecord_changes p g s) hj, fun i hi => opens_modRecord (hi.mono fun r hr => hg r i hr)⟩

theorem grows_permitTest (p : PressNo) (tm : Time) (s : State) : Grows p s (s.permitTest p tm) :=
  ⟨fun _ hj => raw_permitTest hj, fun _ hi => hi.permitTest fun _ _ _ _ _ h => h⟩

/-! ## One zone, and the cure, unit and record of its press -/

/-- A step that leaves the other zones and presses. -/
def Touches (z : ZoneNo) (s t : State) : Prop :=
  (∀ y, y ≠ z → t.zone y = s.zone y ∧ t.accrual y = s.accrual y) ∧ s.KeepsOthers t (pressOf z)
    ∧ Grows (pressOf z) s t

theorem Touches.refl (z : ZoneNo) (s : State) : Touches z s s :=
  ⟨fun _ _ => ⟨rfl, rfl⟩, keepsOthers_refl s _, .refl _ s⟩

theorem Touches.trans (h : Touches z s t) (g : Touches z t u) : Touches z s u := by
  obtain ⟨hzones, hothers, hgrows⟩ := h
  obtain ⟨gzones, gothers, ggrows⟩ := g
  refine ⟨fun y hy => ?_, keepsOthers_trans hothers gothers, hgrows.trans ggrows⟩
  rw [(gzones y hy).1, (gzones y hy).2]
  exact hzones y hy

theorem touches_of_changes (h : OnlyChanges ps s t) (hg : Grows (pressOf z) s t)
    (hps : ∀ x ∈ pressParts, x ∉ ps := by decide) : Touches z s t :=
  ⟨fun y _ => ⟨zone_of_changes h y (hps _ (by decide)), accrual_of_changes h y (hps _ (by decide))⟩,
    keepsOthers_of_changes h _ hps, hg⟩

/-- A change of a part that holds nothing of a press. -/
theorem touches_of_quiet (h : OnlyChanges ps s t) (z : ZoneNo)
    (hps : ∀ x ∈ .events :: .history :: pressParts, x ∉ ps := by decide) : Touches z s t :=
  touches_of_changes h (grows_of_changes h _ (hps _ (by decide)) (hps _ (by decide)))
    fun x hx => hps x (List.mem_cons_of_mem _ (List.mem_cons_of_mem _ hx))

theorem touches_modZone (z : ZoneNo) (f : Zone → Zone) (s : State) : Touches z s (s.modZone z f) :=
  ⟨fun _ hy => ⟨zone_modZone_of_ne z f s hy, rfl⟩, keepsOthers_modZone rfl f s,
    grows_of_changes (modZone_changes z f s) _⟩

theorem touches_modAccrual (z : ZoneNo) (f : Accrual → Accrual) (s : State) : Touches z s (s.modAccrual z f) :=
  ⟨fun _ hy => ⟨rfl, accrual_modAccrual_of_ne z f s hy⟩, keepsOthers_modAccrual rfl f s,
    grows_of_changes (modAccrual_changes z f s) _⟩

theorem touches_modCure (z : ZoneNo) (f : Cure → Cure) (s : State) : Touches z s (s.modCure (pressOf z) f) :=
  ⟨fun _ _ => ⟨rfl, rfl⟩, keepsOthers_modCure _ f s, grows_of_changes (modCure_changes _ f s) _⟩

theorem touches_raise (tm : Time) (k : EventKind) (i : EventOn) (z : ZoneNo) (s : State) :
    Touches z s (s.raise tm k i) := touches_of_changes (raise_changes tm k i s) (grows_raise tm k i s _)

theorem touches_modRecord (z : ZoneNo) {g : Record → Record}
    (hg : ∀ (r : Record) i, r.flags.getLsbD i = true → (g r).flags.getLsbD i = true) (s : State) :
    Touches z s (s.modRecord (pressOf z) g) :=
  touches_of_changes (modRecord_changes _ g s) (grows_modRecord _ hg s)

theorem touches_setFlag (z : ZoneNo) (f : RecordFlag) (s : State) : Touches z s (s.setFlag (pressOf z) f) :=
  touches_modRecord z (fun _ _ h => flags_set_of h f) s

theorem touches_recomputeProgress (z : ZoneNo) (s : State) : Touches z s (s.recomputeProgress (pressOf z)) := by
  unfold recomputeProgress
  split
  · exact touches_modCure z _ s
  · exact .refl z s

theorem touches_permitTest (z : ZoneNo) (tm : Time) (s : State) : Touches z s (s.permitTest (pressOf z) tm) :=
  ⟨fun y _ => ⟨zone_of_changes (permitTest_changes' _ tm s) y, accrual_permitTest _ tm y s⟩,
    keepsOthers_permitTest _ tm s, grows_permitTest _ tm s⟩

theorem touches_doIf {c : Bool} {g : State → State} (h : ∀ x, Touches z x (g x)) (s : State) :
    Touches z s (doIf c g s) := by
  cases c
  · exact .refl z s
  · exact h s

theorem touches_linkDrop (z : ZoneNo) (p : Port) (s : State) : Touches z s (raiseNow .linkDrop (.port p) s) :=
  touches_raise _ _ _ z s

theorem touches_forwardUp (z : ZoneNo) (bytes : List Byte) (s : State) : Touches z s (s.forwardTo .U bytes) := by
  unfold forwardTo
  repeat' split
  · exact touches_of_quiet (modPort_changes .U _ s) z
  · exact (touches_of_quiet (modPort_changes .U _ s) z).trans (touches_linkDrop z .U _)
  · exact .refl z s

theorem touches_originateDown (z : ZoneNo) (dst : Nat) (kind : FrameKind) (payload : List Byte) (mark : Mark)
    (s : State) : Touches z s (s.originate .D dst kind payload mark) := by
  unfold originate
  repeat' split
  · exact touches_of_quiet (modPort_changes .D _ s) z
  · exact (touches_of_quiet (modPort_changes .D _ s) z).trans (touches_linkDrop z .D _)
  · exact .refl z s

theorem touches_immediateHeat (z : ZoneNo) (s : State) : Touches z s (s.immediateHeat z) := by
  unfold immediateHeat
  split
  · exact touches_originateDown z _ _ _ _ s
  · exact .refl z s

/-! ## The stages of a sample (R52) -/

theorem touches_accrue (z : ZoneNo) (m : Int) (tm : Time) (s : State) : Touches z s (s.accrue z m tm) :=
  (((touches_doIf (touches_raise tm _ _ z) s).trans (touches_modAccrual z _ _)).trans
    (touches_recomputeProgress z _)).trans (touches_permitTest z tm _)

theorem touches_takeHanded (z : ZoneNo) (m : Int) (tm : Time) (s : State) : Touches z s (s.takeHanded z m tm) := by
  have hstats (x : State) : Touches z x ((x.modCure (pressOf z) (statistics (isUpper z) m)).modRecord (pressOf z)
      (recordStatistics ((x.modCure (pressOf z) (statistics (isUpper z) m)).cure (pressOf z)))) :=
    (touches_modCure z _ x).trans (touches_modRecord z (g := recordStatistics _) (fun _ _ h => h) _)
  unfold takeHanded
  dsimp only
  split
  · split
    · exact (hstats s).trans (touches_accrue z m tm _)
    · exact hstats s
  · exact .refl z s

theorem touches_deviationTest (z : ZoneNo) (m : Int) (tm : Time) (s : State) :
    Touches z s (s.deviationTest z m tm) := by
  unfold deviationTest
  dsimp only
  repeat' split
  · exact (((touches_modZone z _ s).trans (touches_raise _ _ _ z _)).trans (touches_setFlag z _ _)).trans
      (touches_modZone z _ _)
  · exact touches_modZone z _ s
  · exact touches_modZone z _ s
  · exact .refl z s
  · exact .refl z s

theorem touches_finishSample (z : ZoneNo) (m : Int) (tm : Time) (s : State) : Touches z s (s.finishSample z m tm) :=
  ((touches_modZone z _ s).trans (touches_deviationTest z m tm _)).trans (touches_takeHanded z m tm _)

theorem touches_overtempEntry (z : ZoneNo) (tm : Time) (s : State) : Touches z s (s.overtempEntry z tm) :=
  (((touches_modZone z _ s).trans (touches_immediateHeat z _)).trans (touches_raise _ _ _ z _)).trans
    (touches_setFlag z _ _)

theorem touches_regulate (z : ZoneNo) (m : Int) (tm : Time) (s : State) : Touches z s (s.regulate z m tm) :=
  touches_modZone z _ s

theorem touches_raiseSwitch (z : ZoneNo) (tm : Time) (s : State) : Touches z s (s.raiseSwitch z tm) :=
  (touches_raise _ _ _ z s).trans (touches_setFlag z _ _)

theorem touches_sampleRegulating (z : ZoneNo) (m : Int) (tm : Time) (s : State) :
    Touches z s (s.sampleRegulating z m tm) := by
  unfold sampleRegulating
  dsimp only
  split
  · exact ((touches_modZone z _ s).trans (touches_overtempEntry z tm _)).trans (touches_finishSample z m tm _)
  · exact ((touches_modZone z _ s).trans (touches_regulate z m tm _)).trans (touches_finishSample z m tm _)

theorem touches_sampleOvertemp (z : ZoneNo) (m : Int) (tm : Time) (s : State) :
    Touches z s (s.sampleOvertemp z m tm) := by
  unfold sampleOvertemp
  dsimp only
  split
  · exact (((touches_modZone z _ s).trans (touches_modZone z _ _)).trans (touches_regulate z m tm _)).trans
      (touches_finishSample z m tm _)
  · exact (touches_modZone z _ s).trans (touches_finishSample z m tm _)

theorem touches_sampleLost (z : ZoneNo) (x : ActiveSensor) (m : Int) (tm : Time) (s : State) :
    Touches z s (s.sampleLost z x m tm) :=
  (((touches_modZone z _ s).trans (touches_doIf (touches_raiseSwitch z tm) _)).trans (touches_modZone z _ _)).trans
    (touches_sampleRegulating z m tm _)

theorem touches_sensorFault (z : ZoneNo) (tm : Time) (s : State) : Touches z s (s.sensorFault z tm) := by
  unfold sensorFault
  dsimp only
  split
  · exact ((touches_raise _ _ _ z s).trans (touches_modZone z _ _)).trans (touches_raiseSwitch z tm _)
  · exact (touches_raise _ _ _ z s).trans (touches_modZone z _ _)

/-! ## The treatment of an entry by the zone's state and sensor (R51) -/

theorem treatEntry_of_disabled {c : ChannelStatus} (h : (s.zone z).state = .disabled) :
    s.treatEntry z x c m tm = s := by
  simp only [treatEntry, h]

theorem treatEntry_of_lost {c : ChannelStatus} (h : (s.zone z).state = .lost) :
    s.treatEntry z x c m tm = if c = .ok then s.sampleLost z x m tm else s := by
  cases c <;> simp only [treatEntry, h, reduceCtorEq, if_true, if_false]

/-- A zone that regulates, holds or is in OVERTEMP, on an entry of a sensor. -/
theorem treatEntry_of_live {c : ChannelStatus} (hd : (s.zone z).state ≠ .disabled) (hl : (s.zone z).state ≠ .lost) :
    s.treatEntry z x c m tm = if (s.zone z).active = x then
      if c = .ok then
        if (s.zone z).state = .overtemp then s.sampleOvertemp z m tm else s.sampleRegulating z m tm
      else s.sensorFault z tm
    else s := by
  cases h : (s.zone z).state with
  | disabled => exact absurd h hd
  | lost => exact absurd h hl
  | regulating | holding | overtemp =>
    cases c <;> simp only [treatEntry, h, reduceCtorEq, if_true, if_false]

theorem touches_treatEntry (z : ZoneNo) (x : ActiveSensor) (c : ChannelStatus) (m : Int) (tm : Time) (s : State) :
    Touches z s (s.treatEntry z x c m tm) := by
  by_cases hd : (s.zone z).state = .disabled
  · rw [treatEntry_of_disabled hd]
    exact .refl z s
  by_cases hl : (s.zone z).state = .lost
  · rw [treatEntry_of_lost hl]
    split
    · exact touches_sampleLost z x m tm s
    · exact .refl z s
  rw [treatEntry_of_live hd hl]
  repeat' split
  · exact touches_sampleOvertemp z m tm s
  · exact touches_sampleRegulating z m tm s
  · exact touches_sensorFault z tm s
  · exact .refl z s

theorem touches_recordEntry (z : ZoneNo) (x : ActiveSensor) (l : LastEntry) (s : State) :
    Touches z s (s.recordEntry z x l) := touches_modZone z _ s

theorem touches_zoneTakes (node : Nat) (e : ChannelEntry) (tm : Time) (z : ZoneNo) (s : State) :
    Touches z s (s.zoneTakes node e tm z) := by
  unfold zoneTakes
  split
  · exact (touches_recordEntry z _ _ s).trans (touches_treatEntry z _ _ _ tm _)
  · exact .refl z s

end Sys2Proof.Proofs.OneZone
end

