-- ==== Sys2Proof/Proofs/Samples.lean ====
section
/-! PROOFS. The treatment of a zone's sample, stage by stage (R51 to R55, R58 to R60, R62). -/

namespace Sys2Proof.Proofs.Samples

set_option Elab.async false

open Sys2Proof.Machine Sys2Proof.Machine.State Sys2Proof.Proofs.CureRules Sys2Proof.Proofs.HeatLaws
  Sys2Proof.Proofs.OtherPresses Sys2Proof.Proofs.OneZone Sys2Proof.Proofs.Reception
  Sys2Proof.Proofs.ZoneRequests Sys2Proof.Proofs.Transmitters

variable {s t u : State} {tm : Time} {p : PressNo} {y z : ZoneNo} {m : Int} {x : ActiveSensor} {bytes : List Byte}
  {f : RxFrame} {e : ChannelEntry} {node : Nat}

/-! ## The frame that carries the entry (R18, R51) -/

theorem forwardUp_changes (bytes : List Byte) (s : State) : OnlyChanges raiseParts s (s.forwardTo .U bytes) := by
  intro x hx
  by_cases hd : x = .portD
  · subst hd
    unfold forwardTo
    repeat' split
    · rfl
    · exact raiseNow_changes _ _ (countFwdDrop .U s) .portD (by decide)
    · rfl
  · exact forwardTo_changes .U bytes s x fun h => (List.mem_cons.mp h).elim hd hx

theorem up_changes (s : State) (f : RxFrame) (bytes : List Byte) (t : State) :
    OnlyChanges raiseParts t (s.up f bytes t) := by
  unfold State.up
  split
  · exact forwardUp_changes bytes t
  · exact .refl t

theorem touches_up (z : ZoneNo) (s : State) (f : RxFrame) (bytes : List Byte) (t : State) :
    Touches z t (s.up f bytes t) := by
  unfold State.up
  split
  · exact touches_forwardUp z bytes t
  · exact .refl z t

theorem exec_thermoSample (h : s.Measures bytes f e) : exec (.thermoSample bytes) s =
    .next (s.up f bytes (each (zoneTakes f.src e s.timebase) (List.finRange 48) s.linkActivity)) := by
  obtain ⟨hhears, hrole, hkind, hes⟩ := h
  have hrun : exec (.thermoSample bytes) s = running (receive .D bytes) s := rfl
  rw [hrun, running_fromNode (unit := (s.node f.src).unit) ⟨hhears, hrole, rfl, hkind⟩, consume_thermo hrole hkind,
    deliver_some hes, takeThermo, each_cons, each_nil]
  rfl

/-! ## The zones that take the entry -/

theorem sensorOf_of_tables (h : s.tables = t.tables) (z : ZoneNo) (node channel : Nat) :
    t.sensorOf z node channel = s.sensorOf z node channel := by
  unfold sensorOf zoneEntry
  rw [h]

theorem zoneTakes_of_none (h : s.sensorOf z node e.channel = none) : s.zoneTakes node e tm z = s := by
  rw [zoneTakes, h]

theorem tables_zoneTakes (node : Nat) (e : ChannelEntry) (tm : Time) (z : ZoneNo) (s : State) :
    s.tables = (s.zoneTakes node e tm z).tables := zoneTakes_changes node e tm z s .tables (by decide)

theorem each_zoneTakes_of_none {l : List ZoneNo} (h : ∀ y ∈ l, s.sensorOf y node e.channel = none) :
    each (zoneTakes node e tm) l s = s := by
  induction l generalizing s with
  | nil => rfl
  | cons y l ih =>
    rw [each_cons, zoneTakes_of_none (h y List.mem_cons_self)]
    exact ih fun y hy => h y (List.mem_cons_of_mem _ hy)

/-- One zone takes the entry alone. -/
theorem each_zoneTakes_of_alone (h : s.TakesAlone z node e.channel) :
    each (zoneTakes node e tm) (List.finRange 48) s = s.zoneTakes node e tm z := by
  obtain ⟨l, r, hsplit, hl⟩ := finRange_split z
  have hnodup := List.nodup_finRange 48
  rw [hsplit, List.nodup_append] at hnodup
  obtain ⟨_, hright, _⟩ := hnodup
  rw [hsplit, each_append, each_cons, each_zoneTakes_of_none fun y hy => h y (ne_of_lt (hl y hy)),
    each_zoneTakes_of_none fun y hy => ?_]
  rw [sensorOf_of_tables (tables_zoneTakes node e tm z s)]
  exact h y fun he => (List.nodup_cons.mp hright).1 (he ▸ hy)

/-- A zone that does not take the entry keeps what it holds. -/
theorem zone_each_zoneTakes_of_none (h : s.sensorOf z node e.channel = none) (l : List ZoneNo) :
    (each (zoneTakes node e tm) l s).zone z = s.zone z := by
  induction l generalizing s with
  | nil => rfl
  | cons y l ih =>
    rw [each_cons, ih (by rw [sensorOf_of_tables (tables_zoneTakes node e tm y s)]; exact h)]
    by_cases hy : z = y
    · subst hy
      rw [zoneTakes_of_none h]
    · exact ((touches_zoneTakes node e tm y s).1 z hy).1

theorem zone_each_zoneTakes_of_not_mem {l : List ZoneNo} (h : z ∉ l) (s : State) :
    (each (zoneTakes node e tm) l s).zone z = s.zone z := by
  induction l generalizing s with
  | nil => rfl
  | cons y l ih =>
    rw [each_cons, ih fun hz => h (List.mem_cons_of_mem _ hz)]
    exact ((touches_zoneTakes node e tm y s).1 z fun hz => h (hz ▸ List.mem_cons_self)).1

theorem each_zoneTakes_changes (node : Nat) (e : ChannelEntry) (tm : Time) (l : List ZoneNo) (s : State) :
    OnlyChanges (.zones :: .portD :: cureParts) s (each (zoneTakes node e tm) l s) :=
  .each (f := zoneTakes node e tm) (zoneTakes_changes node e tm) l (.refl s)

/-- A zone takes the entry in a state that still holds what the zone held. -/
theorem zone_each_zoneTakes (node : Nat) (e : ChannelEntry) (tm : Time) (z : ZoneNo) (s : State) :
    ∃ x, OnlyChanges (.zones :: .portD :: cureParts) s x ∧ x.zone z = s.zone z
      ∧ (each (zoneTakes node e tm) (List.finRange 48) s).zone z = (x.zoneTakes node e tm z).zone z := by
  obtain ⟨l, r, hsplit, hl⟩ := finRange_split z
  have hnodup := List.nodup_finRange 48
  rw [hsplit, List.nodup_append] at hnodup
  obtain ⟨_, hright, _⟩ := hnodup
  refine ⟨each (zoneTakes node e tm) l s, each_zoneTakes_changes node e tm l s,
    zone_each_zoneTakes_of_not_mem (fun hz => absurd rfl (ne_of_lt (hl z hz))) s, ?_⟩
  rw [hsplit, each_append, each_cons, zone_each_zoneTakes_of_not_mem (List.nodup_cons.mp hright).1]

/-- A zone with the record of an entry of one of its sensors. -/
def recorded (x : ActiveSensor) (l : LastEntry) (c : Zone) : Zone := { c with
  primaryLast := if x = .primary then some l else c.primaryLast
  backupLast := if x = .backup then some l else c.backupLast }

theorem recordEntry_eq (z : ZoneNo) (x : ActiveSensor) (l : LastEntry) (s : State) :
    s.recordEntry z x l = s.modZone z (recorded x l) := by
  cases x
  · rfl
  · rfl

theorem zoneTakes_of_sensor (h : s.sensorOf z node e.channel = some x) : s.zoneTakes node e tm z =
    (s.modZone z (recorded x { status := judgedStatus e, value := e.value, arrival := tm })).treatEntry z x
      (judgedStatus e) e.value tm := by
  rw [zoneTakes, h]
  dsimp only
  rw [recordEntry_eq]

theorem judgedStatus_of_ok (h : e.status = .ok) (hlow : -500 ≤ e.value) (hhigh : e.value ≤ 6000) :
    judgedStatus e = .ok := by
  rw [judgedStatus, if_neg, h]
  rintro ⟨_, h | h⟩ <;> omega

theorem judgedStatus_of_bad (h : e.status ≠ .ok ∨ e.value < -500 ∨ 6000 < e.value) :
    judgedStatus e = (if e.status = .ok then .overrange else e.status) ∧ judgedStatus e ≠ .ok := by
  unfold judgedStatus
  by_cases hok : e.status = .ok
  · rw [if_pos ⟨hok, h.resolve_left (not_not.mpr hok)⟩, if_pos hok]
    exact ⟨rfl, nofun⟩
  · rw [if_neg fun hb => hok hb.1, if_neg hok]
    exact ⟨rfl, hok⟩

/-! ## The deviation test (R62) -/

theorem zone_deviationTest (z : ZoneNo) (m : Int) (tm : Time) (s : State) : (s.deviationTest z m tm).zone z =
    { s.zone z with deviationCount := ((s.deviationTest z m tm).zone z).deviationCount
                    deviationNoted := ((s.deviationTest z m tm).zone z).deviationNoted } := by
  unfold deviationTest
  dsimp only
  repeat' split
  · rw [zone_modZone, zone_of_changes (setFlag_changes _ _ _), zone_of_changes (raise_changes _ _ _ _), zone_modZone]
  · rw [zone_modZone]
  · rw [zone_modZone]
  · rfl
  · rfl

/-- The deviation test reads a recipe and the unit's state alone beside the zone. -/
theorem deviationTest_of_not (h : (s.unit (pressOf z)).state ≠ .cure ∨ s.boundRecipe (pressOf z) = none) :
    s.deviationTest z m tm = s := by
  unfold deviationTest
  dsimp only
  split
  · rename_i r hr
    rw [if_neg (h.resolve_right fun hn => nomatch hr.symm.trans hn)]
  · rfl

section

variable {r : Recipe} (hc : (s.unit (pressOf z)).state = .cure) (hr : s.boundRecipe (pressOf z) = some r)
include hc hr

theorem deviationTest_of_within (h : |m - (s.zone z).setpoint| ≤ (r.deviationBand : Int)) :
    s.deviationTest z m tm = s.modZone z fun c => { c with deviationCount := 0 } := by
  rw [deviationTest]
  dsimp only
  rw [hr]
  dsimp only
  rw [if_pos hc, if_neg (not_lt.mpr h)]

theorem deviationTest_of_beyond (h : (r.deviationBand : Int) < |m - (s.zone z).setpoint|) :
    s.deviationTest z m tm =
      if min 3 ((s.zone z).deviationCount + 1) = 3 ∧ (s.zone z).deviationNoted = false then
        (setFlag (pressOf z) .zoneDeviation (raise tm .zoneDeviation (.zone z) (s.modZone z fun c =>
          { c with deviationCount := min 3 ((s.zone z).deviationCount + 1) }))).modZone z fun c =>
            { c with deviationNoted := true }
      else s.modZone z fun c => { c with deviationCount := min 3 ((s.zone z).deviationCount + 1) } := by
  rw [deviationTest]
  dsimp only
  rw [hr]
  dsimp only
  rw [if_pos hc, if_pos h]

end

/-- What the deviation test leaves. -/
theorem deviates_deviationTest (hl : s.live = true) (z : ZoneNo) (m : Int) (tm : Time) :
    s.Deviates (s.deviationTest z m tm) z m := by
  refine ⟨fun h => ?_, fun r hc hr => ⟨fun h => ?_, fun h => ?_⟩⟩
  · rw [deviationTest_of_not h]
    exact ⟨rfl, rfl⟩
  · rw [deviationTest_of_within hc hr h, zone_modZone]
    exact ⟨rfl, rfl⟩
  · rw [deviationTest_of_beyond hc hr h]
    by_cases hnote : min 3 ((s.zone z).deviationCount + 1) = 3 ∧ (s.zone z).deviationNoted = false
    · obtain ⟨hthree, hno⟩ := hnote
      have hle : 3 ≤ (s.zone z).deviationCount + 1 := by omega
      rw [if_pos ⟨hthree, hno⟩, zone_modZone, zone_of_changes (setFlag_changes _ _ _),
        zone_of_changes (raise_changes _ _ _ _), zone_modZone, decide_eq_true hle, Bool.or_true]
      refine ⟨rfl, rfl, fun _ _ => ⟨?_, ?_⟩⟩
      · exact raw_of_changes (modZone_changes z _ _) (raw_of_changes (setFlag_changes _ _ _)
          (raw_raise_self (s := s.modZone z _) hl tm .zoneDeviation _))
      · exact (opens_setFlag _ .zoneDeviation _).of_changes (modZone_changes z _ _)
    · rw [if_neg hnote, zone_modZone]
      have hnoted : (s.zone z).deviationNoted =
          ((s.zone z).deviationNoted || decide (3 ≤ (s.zone z).deviationCount + 1)) := by
        cases hn : (s.zone z).deviationNoted with
        | true => rfl
        | false =>
          rw [decide_eq_false fun hle => hnote ⟨by omega, hn⟩]
          rfl
      exact ⟨rfl, hnoted, fun hle hno => absurd ⟨by omega, hno⟩ hnote⟩

/-- The deviation test reads of the state before it the zone's deviation state and setpoint, the unit and its recipe,
and of the state after it the zone's deviation state, the raw kind and the flag. -/
theorem deviates_of_eq {s' t' : State} (h : s.Deviates t z m)
    (hs : (s'.zone z).deviationCount = (s.zone z).deviationCount
      ∧ (s'.zone z).deviationNoted = (s.zone z).deviationNoted ∧ (s'.zone z).setpoint = (s.zone z).setpoint)
    (hunit : s'.unit (pressOf z) = s.unit (pressOf z)) (hbound : s'.boundRecipe (pressOf z) = s.boundRecipe (pressOf z))
    (ht : (t'.zone z).deviationCount = (t.zone z).deviationCount
      ∧ (t'.zone z).deviationNoted = (t.zone z).deviationNoted) (hgrows : Grows (pressOf z) t t') :
    s'.Deviates t' z m := by
  obtain ⟨hcount, hnoted, hsetpoint⟩ := hs
  obtain ⟨tcount, tnoted⟩ := ht
  obtain ⟨hraw, hflags⟩ := hgrows
  unfold State.Deviates at h ⊢
  simp only [hcount, hnoted, hsetpoint, hunit, hbound, tcount, tnoted]
  obtain ⟨hnot, htest⟩ := h
  refine ⟨hnot, fun r hc hr => ?_⟩
  obtain ⟨hwithin, hbeyond⟩ := htest r hc hr
  refine ⟨hwithin, fun hb => ?_⟩
  obtain ⟨h1, h2, h3⟩ := hbeyond hb
  exact ⟨h1, h2, fun hle hno => ⟨hraw 7 (h3 hle hno).1, hflags 5 (h3 hle hno).2⟩⟩

/-! ## The stages 5 to 7 of a sample (R52) -/

theorem zone_finishSample (z : ZoneNo) (m : Int) (tm : Time) (s : State) : (s.finishSample z m tm).zone z =
    { s.zone z with prevArrival := some tm
                    deviationCount := ((s.finishSample z m tm).zone z).deviationCount
                    deviationNoted := ((s.finishSample z m tm).zone z).deviationNoted } := by
  have hzone := zone_deviationTest z m tm (s.modZone z fun c => { c with prevArrival := some tm })
  rw [zone_modZone] at hzone
  rw [finishSample, zone_of_changes (takeHanded_changes z m tm _)]
  exact hzone

theorem deviates_finishSample (hl : s.live = true) (z : ZoneNo) (m : Int) (tm : Time) :
    s.Deviates (s.finishSample z m tm) z m := by
  have hzone : (s.modZone z fun c => { c with prevArrival := some tm }).zone z =
      { s.zone z with prevArrival := some tm } := zone_modZone z _ s
  have htest := deviates_deviationTest (s := s.modZone z fun c => { c with prevArrival := some tm }) hl z m tm
  refine deviates_of_eq htest ?_ rfl rfl ?_ (touches_takeHanded z m tm _).2.2
  · rw [hzone]
    exact ⟨rfl, rfl, rfl⟩
  · rw [finishSample, zone_of_changes (takeHanded_changes z m tm _)]
    exact ⟨rfl, rfl⟩

end Sys2Proof.Proofs.Samples
end

