-- ==== Sys2Proof/Proofs/Regulation.lean ====
section
/-! PROOFS. Samples of a zone that regulates or holds (R52, R58, R59, R62), and entries that are not valid (R55). -/

namespace Sys2Proof.Proofs.Regulation

set_option Elab.async false

open Sys2Proof.Machine Sys2Proof.Machine.State Sys2Proof.Proofs.CureRules Sys2Proof.Proofs.HeatLaws
  Sys2Proof.Proofs.OtherPresses Sys2Proof.Proofs.OneZone Sys2Proof.Proofs.Samples
  Sys2Proof.Proofs.ZoneRequests

variable {s t u : State} {tm : Time} {p : PressNo} {y z : ZoneNo} {m : Int} {x : ActiveSensor} {bytes : List Byte}
  {f : RxFrame} {e : ChannelEntry} {node : Nat}

/-! ## One run of the regulator (R58, R59) -/

theorem windsUp_iff {n : ZoneEntry} {pre err : Int} :
    windsUp n pre err = true ↔ ((n.maxDuty : Int) ≤ pre ∧ 0 < err) ∨ (pre ≤ 0 ∧ err < 0) := by
  rw [windsUp, Bool.or_eq_true, decide_eq_true_eq, decide_eq_true_eq]

/-- The integral term, by whether the output is pinned. -/
theorem nextIntegral_eq (n : ZoneEntry) (c : Zone) (err : Int) (dt : Nat) : nextIntegral n c err dt =
    if ((n.maxDuty : Int) ≤ (n.feedForward : Int) + ((n.kp : Int) * err).tdiv 10 + c.integral.tdiv 1000 ∧ 0 < err)
      ∨ ((n.feedForward : Int) + ((n.kp : Int) * err).tdiv 10 + c.integral.tdiv 1000 ≤ 0 ∧ err < 0) then c.integral
    else max (-((n.maxDuty : Int) * 1000)) (min ((n.maxDuty : Int) * 1000)
      (c.integral + ((n.ki : Int) * err * dt).tdiv 10)) :=
  if_congr windsUp_iff rfl rfl

/-- A zone after a valid sample below its limit, but for its deviation state. -/
def regulatedSample (n : ZoneEntry) (maxGap : Nat) (m : Int) (tm : Time) (c : Zone) : Zone :=
  { regulated n maxGap m tm { withSample m c with state := .regulating } with prevArrival := some tm }

/-- The integral term after a sample. -/
def sampleIntegral (n : ZoneEntry) (maxGap : Nat) (m : Int) (tm : Time) (c : Zone) : Int :=
  nextIntegral n c (regulatorError c m) (regulatorInterval c tm maxGap)

/-- The regulator reads of the zone neither its state nor its measurement. -/
theorem sampleIntegral_withSample (n : ZoneEntry) (maxGap : Nat) (m : Int) (tm : Time) (c : Zone) :
    sampleIntegral n maxGap m tm { withSample m c with state := .regulating } = sampleIntegral n maxGap m tm c := by
  unfold sampleIntegral nextIntegral
  rfl

theorem regulated_eq (n : ZoneEntry) (maxGap : Nat) (m : Int) (tm : Time) (c : Zone) :
    regulated n maxGap m tm c = { c with
      firstSample := false, integral := sampleIntegral n maxGap m tm c
      staged := (max 0 (min (n.maxDuty : Int) ((n.feedForward : Int) + ((n.kp : Int) * regulatorError c m).tdiv 10
        + (sampleIntegral n maxGap m tm c).tdiv 1000))).toNat } := by
  unfold regulated sampleIntegral
  rfl

theorem regulatedSample_eq (n : ZoneEntry) (maxGap : Nat) (m : Int) (tm : Time) (c : Zone) :
    regulatedSample n maxGap m tm c = { c with
      state := .regulating, measured := some m, prevArrival := some tm, firstSample := false, fresh := true
      holdCount := 0, integral := sampleIntegral n maxGap m tm c
      staged := (max 0 (min (n.maxDuty : Int) ((n.feedForward : Int) + ((n.kp : Int) * regulatorError c m).tdiv 10
        + (sampleIntegral n maxGap m tm c).tdiv 1000))).toNat } := by
  rw [regulatedSample, regulated_eq, sampleIntegral_withSample]
  rfl

theorem zone_sampleRegulating_of_below (h : m < ((s.zoneEntry z).limit : Int)) :
    (s.sampleRegulating z m tm).zone z =
      { regulatedSample (s.zoneEntry z) (s.pressEntry (pressOf z)).maxGap m tm (s.zone z) with
        deviationCount := ((s.sampleRegulating z m tm).zone z).deviationCount
        deviationNoted := ((s.sampleRegulating z m tm).zone z).deviationNoted } := by
  rw [sampleRegulating]
  dsimp only
  rw [if_neg (not_le.mpr h), zone_finishSample, regulate, zone_modZone, zone_modZone]
  rfl

/-! ## The deviation state of a treated sample (R62) -/

theorem deviates_of_finish (hl : s.live = true) (hy : OnlyChanges (.zones :: netParts) s t)
    (hz : (s.zone z).deviationCount = (t.zone z).deviationCount
      ∧ (s.zone z).deviationNoted = (t.zone z).deviationNoted ∧ (s.zone z).setpoint = (t.zone z).setpoint) :
    s.Deviates (t.finishSample z m tm) z m :=
  deviates_of_eq (deviates_finishSample ((live_of_changes hy).trans hl) z m tm) hz (unit_of_changes hy _).symm
    (boundRecipe_of_changes hy _).symm ⟨rfl, rfl⟩ (.refl _ _)

theorem zone_overtempEntry (z : ZoneNo) (tm : Time) (s : State) : (s.overtempEntry z tm).zone z =
    { s.zone z with state := .overtemp, staged := 0, committed := 0 } := by
  rw [overtempEntry]
  dsimp only
  rw [zone_of_changes (setFlag_changes _ _ _), zone_of_changes (raise_changes _ _ _ _),
    zone_of_changes (immediateHeat_changes z _), zone_modZone]

theorem deviates_sampleRegulating (hl : s.live = true) (z : ZoneNo) (m : Int) (tm : Time) :
    s.Deviates (s.sampleRegulating z m tm) z m := by
  rw [sampleRegulating]
  dsimp only
  split
  · refine deviates_of_finish hl (overtempEntry_only z tm (by decide) ((modZone_changes z _ s).mono (by decide))) ?_
    rw [zone_overtempEntry, zone_modZone]
    exact ⟨rfl, rfl, rfl⟩
  · refine deviates_of_finish hl ((modZone_changes z _ s).mono (by decide) |>.trans
      ((regulate_changes z m tm _).mono (by decide))) ?_
    rw [regulate, zone_modZone, zone_modZone]
    exact ⟨rfl, rfl, rfl⟩

/-- The record of an entry leaves what the deviation test reads. -/
theorem deviates_recorded {l : LastEntry} (h : (s.modZone z (recorded x l)).Deviates t z m) : s.Deviates t z m := by
  refine deviates_of_eq h ?_ rfl rfl ⟨rfl, rfl⟩ (.refl _ _)
  rw [zone_modZone]
  exact ⟨rfl, rfl, rfl⟩

/-- Forwarding upward leaves the deviation state. -/
theorem deviates_up (h : s.linkActivity.Deviates t z m) : s.Deviates (s.up f bytes t) z m :=
  deviates_of_eq h ⟨rfl, rfl, rfl⟩ rfl rfl ⟨congrArg Zone.deviationCount (zone_of_changes (up_changes s f bytes t) z),
    congrArg Zone.deviationNoted (zone_of_changes (up_changes s f bytes t) z)⟩ (touches_up z s f bytes t).2.2

/-! ## A valid sample below the limit -/

theorem treatEntry_of_regulating {c : ChannelStatus} (h : (s.zone z).state = .regulating ∨ (s.zone z).state = .holding)
    (ha : (s.zone z).active = x) (hc : c = .ok) : s.treatEntry z x c m tm = s.sampleRegulating z m tm := by
  have hstate : (s.zone z).state ≠ .disabled ∧ (s.zone z).state ≠ .lost ∧ (s.zone z).state ≠ .overtemp := by
    rcases h with h | h <;> rw [h] <;> decide
  obtain ⟨hd, hl, ho⟩ := hstate
  rw [treatEntry_of_live hd hl, if_pos ha, if_pos hc, if_neg ho]

theorem zoneTakes_of_regulating (hok : judgedStatus e = .ok)
    (hsensor : s.sensorOf z node e.channel = some (s.zone z).active)
    (h : (s.zone z).state = .regulating ∨ (s.zone z).state = .holding) : s.zoneTakes node e tm z =
      (s.modZone z (recorded (s.zone z).active { status := .ok, value := e.value, arrival := tm })).sampleRegulating z
        e.value tm := by
  have hzone : (s.modZone z (recorded (s.zone z).active { status := .ok, value := e.value, arrival := tm })).zone z =
    recorded (s.zone z).active { status := .ok, value := e.value, arrival := tm } (s.zone z) := zone_modZone z _ s
  rw [zoneTakes_of_sensor hsensor, hok, treatEntry_of_regulating (by rw [hzone]; exact h) (by rw [hzone]; rfl) rfl]

/-! ## An entry that is not valid (R51, R55) -/

theorem backupEligible_iff : s.backupEligible z tm = true ↔ (s.zone z).active = .primary
    ∧ (s.zoneEntry z).backup ≠ none ∧ ∃ l, (s.zone z).backupLast = some l ∧ l.status = .ok
      ∧ (tm - l.arrival).toNat ≤ (s.pressEntry (pressOf z)).holdLimit * (s.pressEntry (pressOf z)).period := by
  simp only [backupEligible, Bool.and_eq_true, beq_iff_eq, Option.any_eq_true, decide_eq_true_eq, and_assoc,
    Option.isSome_iff_ne_none]
  rfl

/-- A zone that regulates by a sensor. -/
def Regulates (s : State) (z : ZoneNo) (x : ActiveSensor) : Prop :=
  x = (s.zone z).active ∧ (s.zone z).state ∈ [.regulating, .holding, .overtemp]

theorem treatEntry_of_fault {c : ChannelStatus} (hc : c ≠ .ok) (h : Regulates s z x) :
    s.treatEntry z x c m tm = s.sensorFault z tm := by
  obtain ⟨ha, hstate⟩ := h
  have hd : (s.zone z).state ≠ .disabled := fun he => absurd (he ▸ hstate) (by decide)
  have hl : (s.zone z).state ≠ .lost := fun he => absurd (he ▸ hstate) (by decide)
  rw [treatEntry_of_live hd hl, if_pos ha.symm, if_neg hc]

theorem treatEntry_of_idle_fault {c : ChannelStatus} (hc : c ≠ .ok) (h : ¬Regulates s z x) :
    s.treatEntry z x c m tm = s := by
  by_cases hd : (s.zone z).state = .disabled
  · exact treatEntry_of_disabled hd
  by_cases hl : (s.zone z).state = .lost
  · rw [treatEntry_of_lost hl, if_neg hc]
  rw [treatEntry_of_live hd hl, if_neg]
  intro ha
  refine h ⟨ha.symm, ?_⟩
  cases hs : (s.zone z).state with
  | disabled => exact absurd hs hd
  | lost => exact absurd hs hl
  | regulating | holding | overtemp => simp

theorem sensorFault_of_eligible (h : s.backupEligible z tm = true) : s.sensorFault z tm =
    ((raise tm .sensorSwitch (.zone z) ((raise tm .sensorFault (.zone z) s).modZone z fun d =>
      { d with active := .backup })).modRecord (pressOf z) (·.set .sensorSwitched)) := by
  rw [sensorFault, if_pos h]
  rfl

theorem sensorFault_of_not_eligible (h : ¬s.backupEligible z tm = true) : s.sensorFault z tm =
    (raise tm .sensorFault (.zone z) s).modZone z fun d =>
      { d with state := if d.state = .regulating then .holding else d.state } := by
  rw [sensorFault, if_neg h]

theorem sensorOf_linkActivity (s : State) (z : ZoneNo) (node channel : Nat) :
    s.linkActivity.sensorOf z node channel = s.sensorOf z node channel := rfl

/-- The time of a raise at the present time, after another raise. -/
theorem raiseNow_modZone_raise (k k' : EventKind) (i i' : EventOn) (g : Zone → Zone) (s : State) :
    raiseNow k i ((raiseNow k' i' s).modZone z g) = raise s.timebase k i ((raise s.timebase k' i' s).modZone z g) := by
  have htime : ((raise s.timebase k' i' s).modZone z g).timebase = s.timebase :=
    (modZone_only z g (k := .zones :: raiseParts) (by decide) ((raise_changes s.timebase k' i' s).mono (by decide))
      .timebase (by decide)).symm
  exact congrArg (fun tm => raise tm k i ((raise s.timebase k' i' s).modZone z g)) htime

/-- Settles O31: a valid sample of a regulating or holding zone, and an entry that is not valid. -/
theorem sampleRegulates : Obligations.SampleRegulates := by
  refine ⟨fun s bytes f e z h hok hlow hhigh hsensor hstate hbelow => ?valid,
    fun s bytes f e z x h hbad hsensor halone => ?fault⟩
  case valid =>
    intro c n err p dt pre top integral last
    have hlive : s.linkActivity.live = true := by
      obtain ⟨⟨⟨own, hn⟩, _⟩, _⟩ := h
      exact hn.live
    have hjudged := judgedStatus_of_ok hok hlow hhigh
    let v := each (zoneTakes f.src e s.timebase) (List.finRange 48) s.linkActivity
    have hv : OnlyChanges (.zones :: .portD :: cureParts) s.linkActivity v := each_zoneTakes_changes _ _ _ _ _
    have hup : OnlyChanges raiseParts v (s.up f bytes v) := up_changes s f bytes v
    refine ⟨s.up f bytes v, exec_thermoSample h, ?_, fun ha => ?_, fun z' hz' => ?_, hv.before (by decide) hup⟩
    · obtain ⟨y, hy, hyz, hvz⟩ := zone_each_zoneTakes f.src e s.timebase z s.linkActivity
      have hyz' : y.zone z = s.zone z := hyz
      have htakes := zoneTakes_of_regulating (tm := s.timebase) (s := y) (z := z) hjudged
        (by rw [sensorOf_of_tables (hy .tables (by decide)), hyz']; exact hsensor) (by rw [hyz']; exact hstate)
      have hbelow' : e.value < ((zoneEntry (y.modZone z (recorded (y.zone z).active
          { status := .ok, value := e.value, arrival := s.timebase })) z).limit : Int) := by
        rw [zoneEntry_of_changes (modZone_changes z _ y), zoneEntry_of_changes hy]
        exact hbelow
      have hafter := zone_sampleRegulating_of_below (tm := s.timebase) hbelow'
      rw [← htakes, ← hvz, ← zone_of_changes hup, zone_modZone, zoneEntry_of_changes (modZone_changes z _ y),
        zoneEntry_of_changes hy, pressEntry_of_changes (modZone_changes z _ y), pressEntry_of_changes hy, hyz',
        regulatedSample_eq] at hafter
      have hintegral : sampleIntegral (s.linkActivity.zoneEntry z) (s.linkActivity.pressEntry (pressOf z)).maxGap
          e.value s.timebase (recorded (s.zone z).active
            { status := .ok, value := e.value, arrival := s.timebase } (s.zone z)) = integral :=
        nextIntegral_eq n (recorded c.active last c) err dt
      rw [hintegral] at hafter
      exact hafter
    · have hone : v = s.linkActivity.zoneTakes f.src e s.timebase z := each_zoneTakes_of_alone ha
      have htouch : Touches z s.linkActivity (s.up f bytes v) := hone ▸ (touches_zoneTakes _ _ _ _ _).trans
        (touches_up z s f bytes _)
      refine ⟨?_, keepsOthers_trans (keepsOthers_linkActivity s _) htouch.2.1⟩
      have htakes := zoneTakes_of_regulating (tm := s.timebase) (s := s.linkActivity) hjudged hsensor hstate
      refine deviates_up ?_
      rw [hone, htakes]
      exact deviates_recorded (deviates_sampleRegulating (s := s.linkActivity.modZone z _) hlive z _ _)
    · rw [zone_of_changes hup]
      exact zone_each_zoneTakes_of_none (s := s.linkActivity) hz' _
  case fault =>
    intro c w last kept faulty regulates eligible
    obtain ⟨hjudged, hnotOk⟩ := judgedStatus_of_bad hbad
    have hrun : exec (.thermoSample bytes) s = .next (s.up f bytes (kept.treatEntry z x (judgedStatus e) e.value
        s.timebase)) := by
      rw [exec_thermoSample h, each_zoneTakes_of_alone (s := s.linkActivity) halone,
        zoneTakes_of_sensor (s := s.linkActivity) hsensor, hjudged]
      rfl
    have hzone : kept.zone z = recorded x last c := zone_modZone z _ s.linkActivity
    have hregulates : Regulates kept z x ↔ regulates := by
      rw [Regulates, hzone]
      rfl
    have heligible (hreg : regulates) : kept.backupEligible z s.timebase = true ↔ eligible := by
      have hlast (ha : c.active = .primary) : (recorded x last c).backupLast = c.backupLast :=
        if_neg (by rw [hreg.1, ha]; decide)
      rw [backupEligible_iff, hzone]
      refine and_congr_right fun ha => ?_
      rw [hlast ha]
      rfl
    refine ⟨fun hno => ?_, fun hreg hel => ?_, fun hreg hel => ?_⟩
    · rw [hrun, treatEntry_of_idle_fault hnotOk (hregulates.not.mpr hno)]
    · rw [hrun, treatEntry_of_fault hnotOk (hregulates.mpr hreg),
        sensorFault_of_eligible ((heligible hreg).mpr hel)]
      exact congrArg (fun u => Host.Outcome.next (s.up f bytes (modRecord (pressOf z) (·.set .sensorSwitched) u)))
        (raiseNow_modZone_raise .sensorSwitch .sensorFault (.zone z) (.zone z) _ kept).symm
    · rw [hrun, treatEntry_of_fault hnotOk (hregulates.mpr hreg),
        sensorFault_of_not_eligible ((heligible hreg).not.mpr hel)]
      rfl

end Sys2Proof.Proofs.Regulation
end

