-- ==== Sys2Proof/Proofs/Overtemp.lean ====
section
/-! PROOFS. Samples at or above the limit (R60, R78), in OVERTEMP (R53), and of a LOST zone (R54). -/

namespace Sys2Proof.Proofs.Overtemp

set_option Elab.async false

open Sys2Proof.Machine Sys2Proof.Machine.State Sys2Proof.Proofs.CureRules Sys2Proof.Proofs.HeatLaws
  Sys2Proof.Proofs.OtherPresses Sys2Proof.Proofs.OneZone Sys2Proof.Proofs.Samples Sys2Proof.Proofs.Regulation
  Sys2Proof.Proofs.ZoneRequests Sys2Proof.Proofs.OffPlacement

variable {s t u : State} {tm : Time} {p : PressNo} {y z : ZoneNo} {m : Int} {x : ActiveSensor} {bytes : List Byte}
  {f : RxFrame} {e : ChannelEntry} {node : Nat}

theorem live_of_measures (h : s.Measures bytes f e) : s.linkActivity.live = true := by
  obtain ⟨⟨⟨own, hn⟩, _⟩, _⟩ := h
  exact hn.live

/-- The one zone that takes a valid entry treats it with its record in place. -/
theorem exec_valid (h : s.Measures bytes f e) (hok : judgedStatus e = .ok)
    (hsensor : s.sensorOf z f.src e.channel = some x) (halone : s.TakesAlone z f.src e.channel) :
    exec (.thermoSample bytes) s = .next (s.up f bytes ((s.linkActivity.modZone z (recorded x
      { status := .ok, value := e.value, arrival := s.timebase })).treatEntry z x .ok e.value s.timebase)) := by
  rw [exec_thermoSample h, each_zoneTakes_of_alone (s := s.linkActivity) halone,
    zoneTakes_of_sensor (s := s.linkActivity) hsensor, hok]

/-! ## OVERTEMP entry (R60) -/

theorem sampleRegulating_of_above (h : ((s.zoneEntry z).limit : Int) ≤ m) : s.sampleRegulating z m tm =
    ((s.modZone z fun c => { withSample m c with state := .regulating }).overtempEntry z tm).finishSample z m tm := by
  rw [sampleRegulating]
  exact congrArg (finishSample z m tm) (if_pos h)

theorem zone_sampleRegulating_of_above (h : ((s.zoneEntry z).limit : Int) ≤ m) :
    (s.sampleRegulating z m tm).zone z = { s.zone z with
      state := .overtemp, staged := 0, committed := 0, measured := some m, holdCount := 0, fresh := true
      prevArrival := some tm
      deviationCount := ((s.sampleRegulating z m tm).zone z).deviationCount
      deviationNoted := ((s.sampleRegulating z m tm).zone z).deviationNoted } := by
  rw [sampleRegulating_of_above h, zone_finishSample, zone_overtempEntry, zone_modZone]
  rfl

/-- OVERTEMP is raised, and the record carries its flag. -/
theorem noted_overtempEntry (hl : s.live = true) (z : ZoneNo) (tm : Time) :
    (s.overtempEntry z tm).events[EventKind.overtemp.number].raw = true
      ∧ Opens (pressOf z) (fun r => r.flags.getLsbD 6 = true) (s.overtempEntry z tm) := by
  have hlive : ((s.modZone z fun c => { c with state := .overtemp, staged := 0, committed := 0 }).immediateHeat z).live
      = true := (live_of_changes (immediateHeat_changes z _)).trans hl
  exact ⟨raw_of_changes (setFlag_changes _ _ _) (raw_raise_self hlive tm .overtemp _), opens_setFlag _ .overtemp _⟩

/-- The HEAT frame of a zone whose committed duty is 0 joins Port D OWN at once (R78). -/
theorem portD_immediateHeat {h : NodeRef} (hl : s.live = true) (hh : (s.zoneEntry z).heater = some h)
    (hc : (s.zone z).committed = 0) (hr : s.portD.own.length < 16) : (s.immediateHeat z).portD.own =
      s.portD.own ++ [{ dst := h.node, src := s.ownAddress, kind := .heat
                        payload := [BitVec.ofNat 8 h.line, 0#8, 0#8], mark := .plain }] := by
  rw [immediateHeat, hh]
  dsimp only
  rw [originate_of_room hl .D (show _ < Config.ownPlaces from hr), hc, heatEntryBytes_off]
  rfl

theorem portD_overtempEntry {h : NodeRef} (hl : s.live = true) (hh : (s.zoneEntry z).heater = some h)
    (hr : s.portD.own.length < 16) : (s.overtempEntry z tm).portD.own =
      s.portD.own ++ [{ dst := h.node, src := s.ownAddress, kind := .heat
                        payload := [BitVec.ofNat 8 h.line, 0#8, 0#8], mark := .plain }] := by
  let x := s.modZone z fun c => { c with state := .overtemp, staged := 0, committed := 0 }
  have hc : (x.zone z).committed = 0 := congrArg Zone.committed (zone_modZone z _ s)
  have hafter : OnlyChanges raiseParts (x.immediateHeat z) (s.overtempEntry z tm) :=
    setFlag_only _ _ (by decide) (raise_changes tm .overtemp (.zone z) _)
  rw [← show (x.immediateHeat z).portD = (s.overtempEntry z tm).portD from hafter .portD (by decide)]
  exact portD_immediateHeat (s := x) hl hh hc hr

theorem finishSample_changes' (z : ZoneNo) (m : Int) (tm : Time) (s : State) :
    OnlyChanges (.zones :: cureParts) s (s.finishSample z m tm) :=
  (((modZone_changes z _ s).mono (by decide)).before (by decide) (deviationTest_changes z m tm _)).before (by decide)
    (takeHanded_changes z m tm _)

/-- What a sample at or above the limit leaves beside the zone. -/
theorem noted_sampleRegulating (hl : s.live = true) (h : ((s.zoneEntry z).limit : Int) ≤ m) :
    (s.sampleRegulating z m tm).events[EventKind.overtemp.number].raw = true
      ∧ Opens (pressOf z) (fun r => r.flags.getLsbD 6 = true) (s.sampleRegulating z m tm)
      ∧ ∀ n, (s.zoneEntry z).heater = some n → s.portD.own.length < 16 → (s.sampleRegulating z m tm).portD.own =
        s.portD.own ++ [{ dst := n.node, src := s.ownAddress, kind := .heat
                          payload := [BitVec.ofNat 8 n.line, 0#8, 0#8], mark := .plain }] := by
  let x := s.modZone z fun c => { withSample m c with state := .regulating }
  obtain ⟨hraw, hflag⟩ := noted_overtempEntry (s := x) hl z tm
  obtain ⟨graw, gflag⟩ := (touches_finishSample z m tm (x.overtempEntry z tm)).2.2
  rw [sampleRegulating_of_above h]
  refine ⟨graw _ hraw, gflag 6 hflag, fun n hn hr => ?_⟩
  have hport : (x.overtempEntry z tm).portD = ((x.overtempEntry z tm).finishSample z m tm).portD :=
    finishSample_changes' z m tm _ .portD (by decide)
  exact hport ▸ portD_overtempEntry (s := x) hl hn hr

/-! ## A first sample after OVERTEMP or LOST (R53, R54) -/

/-- A regulator run at a first sample with no integral term leaves none. -/
theorem sampleIntegral_of_first {n : ZoneEntry} {maxGap : Nat} {c : Zone} (hf : c.firstSample = true)
    (hi : c.integral = 0) : sampleIntegral n maxGap m tm c = 0 := by
  have hdt : regulatorInterval c tm maxGap = 0 := by
    rw [regulatorInterval, hf]
  rw [sampleIntegral, hdt, nextIntegral_eq, hi]
  split
  · rfl
  · simp

/-- The duty of a first sample: the feed-forward and the proportional term (R58). -/
def firstDuty (n : ZoneEntry) (m setpoint : Int) : Nat :=
  (max 0 (min (n.maxDuty : Int) ((n.feedForward : Int)
    + ((n.kp : Int) * max (-2000) (min 2000 (setpoint - m))).tdiv 10))).toNat

theorem regulated_of_first {n : ZoneEntry} {maxGap : Nat} {c : Zone} (hf : c.firstSample = true)
    (hi : c.integral = 0) : regulated n maxGap m tm c =
      { c with firstSample := false, integral := 0, staged := firstDuty n m c.setpoint } := by
  rw [regulated_eq, sampleIntegral_of_first hf hi, Int.zero_tdiv, Int.add_zero]
  rfl

theorem sampleOvertemp_of_above (h : ((s.zoneEntry z).limit : Int) - 50 < m) :
    s.sampleOvertemp z m tm = (s.modZone z (withSample m)).finishSample z m tm := by
  rw [sampleOvertemp]
  exact congrArg (finishSample z m tm) (if_neg (not_le.mpr h))

/-- A zone in OVERTEMP starts to regulate again. -/
def restarted (c : Zone) : Zone := { c with state := .regulating, integral := 0, firstSample := true }

theorem sampleOvertemp_of_below (h : m ≤ ((s.zoneEntry z).limit : Int) - 50) : s.sampleOvertemp z m tm =
    (((s.modZone z (withSample m)).modZone z restarted).regulate z m tm).finishSample z m tm := by
  rw [sampleOvertemp]
  exact congrArg (finishSample z m tm) (if_pos h)

theorem zone_sampleOvertemp_of_above (h : ((s.zoneEntry z).limit : Int) - 50 < m) :
    (s.sampleOvertemp z m tm).zone z = { s.zone z with
      measured := some m, prevArrival := some tm, fresh := true, holdCount := 0
      deviationCount := ((s.sampleOvertemp z m tm).zone z).deviationCount
      deviationNoted := ((s.sampleOvertemp z m tm).zone z).deviationNoted } := by
  rw [sampleOvertemp_of_above h, zone_finishSample, zone_modZone]
  rfl

theorem zone_sampleOvertemp_of_below (h : m ≤ ((s.zoneEntry z).limit : Int) - 50) :
    (s.sampleOvertemp z m tm).zone z = { s.zone z with
      measured := some m, prevArrival := some tm, fresh := true, holdCount := 0
      deviationCount := ((s.sampleOvertemp z m tm).zone z).deviationCount
      deviationNoted := ((s.sampleOvertemp z m tm).zone z).deviationNoted
      state := .regulating, integral := 0, firstSample := false
      staged := firstDuty (s.zoneEntry z) m (s.zone z).setpoint } := by
  have hentry : ((s.modZone z (withSample m)).modZone z restarted).zoneEntry z = s.zoneEntry z := rfl
  rw [sampleOvertemp_of_below h, zone_finishSample, regulate, zone_modZone, hentry, zone_modZone, zone_modZone,
    regulated_of_first rfl rfl]
  rfl

theorem deviates_sampleOvertemp (hl : s.live = true) (z : ZoneNo) (m : Int) (tm : Time) :
    s.Deviates (s.sampleOvertemp z m tm) z m := by
  by_cases h : m ≤ ((s.zoneEntry z).limit : Int) - 50
  · rw [sampleOvertemp_of_below h]
    refine deviates_of_finish hl (modZone_only z _ (by decide) (modZone_only z _ (by decide)
      ((modZone_changes z _ s).mono (by decide)))) ?_
    rw [regulate, zone_modZone, zone_modZone, zone_modZone]
    exact ⟨rfl, rfl, rfl⟩
  · rw [sampleOvertemp_of_above (not_le.mp h)]
    refine deviates_of_finish hl ((modZone_changes z _ s).mono (by decide)) ?_
    rw [zone_modZone]
    exact ⟨rfl, rfl, rfl⟩

theorem sampleOvertemp_changes' (z : ZoneNo) (m : Int) (tm : Time) (s : State) :
    OnlyChanges (.zones :: cureParts) s (s.sampleOvertemp z m tm) := by
  by_cases h : m ≤ ((s.zoneEntry z).limit : Int) - 50
  · rw [sampleOvertemp_of_below h]
    exact (modZone_only z _ (by decide) (modZone_only z _ (by decide) ((modZone_changes z _ s).mono
      (by decide)))).trans (finishSample_changes' z m tm _)
  · rw [sampleOvertemp_of_above (not_le.mp h)]
    exact ((modZone_changes z _ s).mono (by decide)).trans (finishSample_changes' z m tm _)

/-! ## A LOST zone (R54) -/

/-- A LOST zone that a sensor reaches again, before the sample is treated. -/
def found (z : ZoneNo) (x : ActiveSensor) (tm : Time) (s : State) : State :=
  (doIf ((s.zone z).active != x) (raiseSwitch z tm) (s.modZone z fun c => { c with active := x })).modZone z restarted

theorem sampleLost_eq (z : ZoneNo) (x : ActiveSensor) (m : Int) (tm : Time) (s : State) :
    s.sampleLost z x m tm = (found z x tm s).sampleRegulating z m tm := rfl

theorem switched_changes (z : ZoneNo) (tm : Time) (c : Bool) (s : State) :
    OnlyChanges raiseParts s (doIf c (raiseSwitch z tm) s) := .doIf c (raiseSwitch_changes z tm) (.refl s)

theorem found_changes (z : ZoneNo) (x : ActiveSensor) (tm : Time) (s : State) :
    OnlyChanges (.zones :: raiseParts) s (found z x tm s) :=
  modZone_only z _ (by decide) (((modZone_changes z _ s).mono (by decide)).before (by decide)
    (switched_changes z tm _ _))

theorem zone_found (z : ZoneNo) (x : ActiveSensor) (tm : Time) (s : State) :
    (found z x tm s).zone z = restarted { s.zone z with active := x } := by
  rw [found, zone_modZone, zone_of_changes (switched_changes z tm _ _), zone_modZone]

/-- The change of sensor is raised, and the record carries its flag. -/
theorem noted_found (hl : s.live = true) (ha : (s.zone z).active ≠ x) :
    (found z x tm s).events[EventKind.sensorSwitch.number].raw = true
      ∧ Opens (pressOf z) (fun r => r.flags.getLsbD 4 = true) (found z x tm s) := by
  have hswitch : ((s.zone z).active != x) = true := bne_iff_ne.mpr ha
  rw [found, hswitch]
  exact ⟨raw_of_changes (modZone_changes z _ _) (raw_of_changes (setFlag_changes _ _ _)
    (raw_raise_self (s := s.modZone z _) hl tm .sensorSwitch _)),
    (opens_setFlag _ .sensorSwitched _).of_changes (modZone_changes z _ _)⟩

theorem deviates_sampleLost (hl : s.live = true) (z : ZoneNo) (x : ActiveSensor) (m : Int) (tm : Time) :
    s.Deviates (s.sampleLost z x m tm) z m := by
  have hfound := found_changes z x tm s
  refine deviates_of_eq (deviates_sampleRegulating (s := found z x tm s) ((live_of_changes hfound).trans hl) z m tm)
    ?_ (unit_of_changes hfound _).symm (boundRecipe_of_changes hfound _).symm ⟨rfl, rfl⟩ (.refl _ _)
  rw [zone_found]
  exact ⟨rfl, rfl, rfl⟩

theorem zone_sampleLost_of_below (h : m < ((s.zoneEntry z).limit : Int)) :
    (s.sampleLost z x m tm).zone z = { s.zone z with
      measured := some m, prevArrival := some tm, fresh := true, holdCount := 0
      deviationCount := ((s.sampleLost z x m tm).zone z).deviationCount
      deviationNoted := ((s.sampleLost z x m tm).zone z).deviationNoted
      state := .regulating, active := x, integral := 0, firstSample := false
      staged := firstDuty (s.zoneEntry z) m (s.zone z).setpoint } := by
  have hentry := zoneEntry_of_changes (found_changes z x tm s) z
  rw [sampleLost_eq, zone_sampleRegulating_of_below (by rw [hentry]; exact h), hentry, zone_found, regulatedSample,
    regulated_of_first rfl rfl]
  rfl

theorem zone_sampleLost_of_above (h : ((s.zoneEntry z).limit : Int) ≤ m) :
    (s.sampleLost z x m tm).zone z = { s.zone z with
      measured := some m, prevArrival := some tm, fresh := true, holdCount := 0
      deviationCount := ((s.sampleLost z x m tm).zone z).deviationCount
      deviationNoted := ((s.sampleLost z x m tm).zone z).deviationNoted
      state := .overtemp, active := x, integral := 0, firstSample := true, staged := 0, committed := 0 } := by
  have hentry := zoneEntry_of_changes (found_changes z x tm s) z
  rw [sampleLost_eq, zone_sampleRegulating_of_above (by rw [hentry]; exact h), zone_found]
  rfl

/-! ## The obligation -/

/-- What the one zone's sample leaves of the other zones, and of the other presses. -/
theorem others_of_touches (h : Touches z s.linkActivity t) (bytes : List Byte) (f : RxFrame) :
    (∀ z', z' ≠ z → (s.up f bytes t).zone z' = s.zone z' ∧ (s.up f bytes t).accrual z' = s.accrual z')
      ∧ s.KeepsOthers (s.up f bytes t) (pressOf z) := by
  obtain ⟨hzones, hothers, _⟩ := h.trans (touches_up z s f bytes t)
  exact ⟨hzones, keepsOthers_trans (keepsOthers_linkActivity s _) hothers⟩

/-- Settles O32: a sample at or above the limit, in OVERTEMP, of a LOST zone, and of the sensor that does not
regulate. -/
theorem overtempEntry : Obligations.OvertempEntry := by
  refine ⟨fun s bytes f e z h hok hlow hhigh hsensor halone hstate habove => ?above,
    fun s bytes f e z x h hok hlow hhigh hsensor halone => ?returns⟩
  case above =>
    intro others
    have hlive := live_of_measures h
    let y := s.linkActivity.modZone z (recorded (s.zone z).active
      { status := .ok, value := e.value, arrival := s.timebase })
    let v := y.sampleRegulating z e.value s.timebase
    have hyz : y.zone z = recorded (s.zone z).active { status := .ok, value := e.value, arrival := s.timebase }
      (s.zone z) := zone_modZone z _ s.linkActivity
    have hrun : exec (.thermoSample bytes) s = .next (s.up f bytes v) := by
      rw [exec_valid h (judgedStatus_of_ok hok hlow hhigh) hsensor halone,
        treatEntry_of_regulating (s := y) (by rw [hyz]; exact hstate) (by rw [hyz]; rfl) rfl]
    have hup := up_changes s f bytes v
    have hzone := zone_sampleRegulating_of_above (tm := s.timebase) (s := y) habove
    obtain ⟨hraw, hflag, hport⟩ := noted_sampleRegulating (tm := s.timebase) (s := y) hlive habove
    obtain ⟨graw, gflag⟩ := (touches_up z s f bytes v).2.2
    rw [hyz] at hzone
    refine ⟨s.up f bytes v, hrun, ?_, ?_, ?_, ?_, ?_, ?_, ?_, ?_, graw _ hraw,
      deviates_up (deviates_recorded (deviates_sampleRegulating (s := y) hlive z _ _)), gflag 6 hflag,
      fun n hn hr => ?_, others_of_touches
      ((touches_modZone z _ _).trans (touches_sampleRegulating z _ _ _)) bytes f, ?_⟩
    case refine_9 =>
      rw [← show v.portD = (s.up f bytes v).portD from hup .portD (by decide)]
      exact hport n hn hr
    case refine_10 =>
      exact (((modZone_changes z _ s.linkActivity).mono (by decide)).before (by decide)
        (sampleRegulating_changes z _ _ y)).before (by decide) hup
    case refine_4 =>
      rw [zone_of_changes hup, show v.zone z = _ from hzone]
      rfl
    all_goals rw [zone_of_changes hup, show v.zone z = _ from hzone]
  case returns =>
    intro c n err duty last kept others taken
    have hlive := live_of_measures h
    let y := s.linkActivity.modZone z (recorded x last)
    have hyz : y.zone z = kept := zone_modZone z _ s.linkActivity
    have hrun : exec (.thermoSample bytes) s =
        .next (s.up f bytes (y.treatEntry z x .ok e.value s.timebase)) :=
      exec_valid h (judgedStatus_of_ok hok hlow hhigh) hsensor halone
    have hstate : (y.zone z).state = c.state := (congrArg Zone.state hyz).trans rfl
    have hactive : (y.zone z).active = c.active := (congrArg Zone.active hyz).trans rfl
    have hrecord : OnlyChanges (.zones :: cureParts) s.linkActivity y :=
      (modZone_changes z _ s.linkActivity).mono (by decide)
    refine ⟨fun hidle => ?_, fun hover ha => ?_, fun hlost => ?_⟩
    · rw [hrun]
      rcases hidle with hd | ⟨hl, hx⟩
      · rw [treatEntry_of_disabled (hstate.trans hd)]
        rfl
      · by_cases hd : c.state = .disabled
        · rw [treatEntry_of_disabled (hstate.trans hd)]
          rfl
        · rw [treatEntry_of_live (by rwa [hstate]) (by rwa [hstate]), if_neg (by rw [hactive]; exact Ne.symm hx)]
          rfl
    · rw [treatEntry_of_live (by rw [hstate, hover]; decide) (by rw [hstate, hover]; decide),
        if_pos (hactive.trans ha.symm), if_pos rfl, if_pos (hstate.trans hover)] at hrun
      let v := y.sampleOvertemp z e.value s.timebase
      have hup := up_changes s f bytes v
      refine ⟨s.up f bytes v, hrun, deviates_up (deviates_recorded (deviates_sampleOvertemp (s := y) hlive z _ _)),
        fun habove => ?_, fun hbelow => ?_,
        others_of_touches ((touches_modZone z _ _).trans (touches_sampleOvertemp z _ _ _)) bytes f,
        (hrecord.trans (sampleOvertemp_changes' z _ _ y)).before (by decide) hup⟩
      · have hzone := zone_sampleOvertemp_of_above (tm := s.timebase) (s := y) habove
        rw [← zone_of_changes hup, hyz] at hzone
        exact hzone
      · have hzone := zone_sampleOvertemp_of_below (tm := s.timebase) (s := y) hbelow
        rw [← zone_of_changes hup, hyz] at hzone
        exact hzone
    · rw [treatEntry_of_lost (hstate.trans hlost), if_pos rfl] at hrun
      let v := y.sampleLost z x e.value s.timebase
      have hup := up_changes s f bytes v
      obtain ⟨graw, gflag⟩ := (touches_up z s f bytes v).2.2
      have hfound := found_changes z x s.timebase y
      refine ⟨s.up f bytes v, hrun, deviates_up (deviates_recorded (deviates_sampleLost (s := y) hlive z x _ _)),
        fun hx => ?_, fun hbelow => ?_, fun habove => ?_,
        others_of_touches ((touches_modZone z _ _).trans (touches_sampleLost z x _ _ _)) bytes f,
        ((hrecord.mono (by decide)).before (by decide) (sampleLost_changes z x _ _ y)).before (by decide) hup⟩
      · obtain ⟨hraw, hflag⟩ := noted_found (s := y) (tm := s.timebase) hlive (by rw [hactive]; exact hx)
        obtain ⟨sraw, sflag⟩ := (touches_sampleRegulating z e.value s.timebase (found z x s.timebase y)).2.2
        exact ⟨graw _ (sraw _ hraw), gflag 4 (sflag 4 hflag)⟩
      · have hzone := zone_sampleLost_of_below (tm := s.timebase) (x := x) (s := y) hbelow
        rw [← zone_of_changes hup, hyz] at hzone
        exact hzone
      · have habove' : ((zoneEntry (found z x s.timebase y) z).limit : Int) ≤ e.value := by
          rw [zoneEntry_of_changes hfound]
          exact habove
        obtain ⟨hraw, hflag, hport⟩ := noted_sampleRegulating (tm := s.timebase)
          ((live_of_changes hfound).trans hlive) habove'
        have hown : (found z x s.timebase y).ownAddress = s.ownAddress := by
          unfold State.ownAddress
          rw [← show y.mode = _ from hfound .mode (by decide)]
          rfl
        have hzone := zone_sampleLost_of_above (tm := s.timebase) (x := x) (s := y) habove
        rw [zoneEntry_of_changes hfound, ← show y.portD = _ from hfound .portD (by decide), hown,
          ← sampleLost_eq z x e.value s.timebase y, show v.portD = (s.up f bytes v).portD from hup .portD (by decide)]
          at hport
        rw [← zone_of_changes hup, hyz] at hzone
        exact ⟨graw _ hraw, gflag 6 hflag, hport, hzone⟩

end Sys2Proof.Proofs.Overtemp
end

