-- ==== Sys2Proof/Proofs/Accruing.lean ====
section
/-! PROOFS. A valid sample of an INCLUDED zone is accrued (R87 to R89, R91, R94, R97). -/

namespace Sys2Proof.Proofs.Accruing

set_option Elab.async false

open Sys2Proof.Machine Sys2Proof.Machine.State Sys2Proof.Proofs.CureRules Sys2Proof.Proofs.HeatLaws
  Sys2Proof.Proofs.OtherPresses Sys2Proof.Proofs.OneZone Sys2Proof.Proofs.Samples Sys2Proof.Proofs.Regulation
  Sys2Proof.Proofs.ZoneRequests Sys2Proof.Proofs.Overtemp Sys2Proof.Proofs.CureProgress Sys2Proof.Proofs.RateFactor

variable {s t u : State} {tm entry : Time} {p : PressNo} {y z : ZoneNo} {m : Int} {x : ActiveSensor}
  {bytes : List Byte} {f : RxFrame} {e : ChannelEntry} {r : Recipe}

/-! ## The hand-over of a sample -/

/-- A valid sample of a zone that regulates, holds or is in OVERTEMP is handed to its cure. -/
theorem handed_of_treatEntry (hd : (s.zone z).state ≠ .disabled) (hl : (s.zone z).state ≠ .lost)
    (ha : (s.zone z).active = x) : ∃ w, OnlyChanges (.zones :: netParts) s w
      ∧ s.treatEntry z x .ok m tm = w.takeHanded z m tm := by
  have hfinish (v : State) (hv : OnlyChanges (.zones :: netParts) s v) : ∃ w, OnlyChanges (.zones :: netParts) s w
      ∧ v.finishSample z m tm = w.takeHanded z m tm :=
    ⟨_, (modZone_only z _ (by decide) hv).before (by decide) (deviationTest_changes z m tm _), rfl⟩
  have hzone (g : Zone → Zone) : OnlyChanges (.zones :: netParts) s (s.modZone z g) :=
    (modZone_changes z g s).mono (by decide)
  rw [treatEntry_of_live hd hl, if_pos ha, if_pos rfl]
  split
  · by_cases h : m ≤ ((s.zoneEntry z).limit : Int) - 50
    · rw [sampleOvertemp_of_below h]
      exact hfinish _ (modZone_only z _ (by decide) (modZone_only z _ (by decide) (hzone _)))
    · rw [sampleOvertemp_of_above (not_le.mp h)]
      exact hfinish _ (hzone _)
  · rw [sampleRegulating]
    dsimp only
    split
    · exact hfinish _ (overtempEntry_only z tm (by decide) (hzone _))
    · exact hfinish _ (modZone_only z _ (by decide) (hzone _))

/-! ## The accrual (R88, R89) -/

theorem lesser_eq (o : Option Int) (m : Int) : lesser o m = (o.map fun x => min x m).getD m := by
  cases o
  · rfl
  · rfl

theorem greater_eq (o : Option Int) (m : Int) : greater o m = (o.map fun x => max x m).getD m := by
  cases o
  · rfl
  · rfl

theorem accrueStep_of_full {factor dt : Nat} {a : Accrual} (h : a.accumulator = 4294967295
    ∨ 4294967295 < a.accumulator + (factor * dt + a.residue) / 1024) :
    accrueStep factor dt a = { a with accumulator := 4294967295, residue := 0 } := if_pos h

theorem accrueStep_of_not_full {factor dt : Nat} {a : Accrual} (h : ¬(a.accumulator = 4294967295
    ∨ 4294967295 < a.accumulator + (factor * dt + a.residue) / 1024)) : accrueStep factor dt a =
      { a with accumulator := a.accumulator + (factor * dt + a.residue) / 1024
               residue := (factor * dt + a.residue) % 1024 } := if_neg h

/-- The interval of an accrual of a cure that has been entered. -/
theorem accrualInterval_of_entry (h : (s.cure (pressOf z)).entryTime = some entry) :
    s.accrualInterval z tm = (tm - ((s.accrual z).prevArrival).getD entry).toNat := by
  rw [accrualInterval, h]
  cases (s.accrual z).prevArrival
  · rfl
  · rfl

/-- The permit test leaves of the cure all but its status and end time. -/
theorem cure_permitTest (p : PressNo) (tm : Time) (s : State) : (s.permitTest p tm).cure p =
    { s.cure p with status := ((s.permitTest p tm).cure p).status
                    endTime := ((s.permitTest p tm).cure p).endTime } := by
  by_cases hp : s.permitPasses p = true
  · rw [cure_permitTest_of_passes hp]
  · rw [permitTest_of_not hp]

/-- The state in which a sample has been accrued, before progress is recomputed. -/
def accrued (z : ZoneNo) (m : Int) (tm : Time) (s : State) : State :=
  (doIf (decide ((s.pressEntry (pressOf z)).maxGap < s.accrualInterval z tm)) (raise tm .sampleGap (.zone z))
    s).modAccrual z fun a =>
      { accrueStep (s.factorAt (pressOf z) m) (min (s.accrualInterval z tm) (s.pressEntry (pressOf z)).maxGap) a with
        prevArrival := some tm }

theorem accrue_eq (z : ZoneNo) (m : Int) (tm : Time) (s : State) :
    s.accrue z m tm = ((accrued z m tm s).recomputeProgress (pressOf z)).permitTest (pressOf z) tm := rfl

theorem accrued_changes (z : ZoneNo) (m : Int) (tm : Time) (s : State) :
    OnlyChanges (.accruals :: raiseParts) s (accrued z m tm s) :=
  modAccrual_only z _ (by decide) (.doIf _ (fun x => (raise_changes tm .sampleGap (.zone z) x).mono (by decide))
    (.refl s))

theorem accrual_accrued (z : ZoneNo) (m : Int) (tm : Time) (s : State) : (accrued z m tm s).accrual z =
    { accrueStep (s.factorAt (pressOf z) m) (min (s.accrualInterval z tm) (s.pressEntry (pressOf z)).maxGap)
        (s.accrual z) with prevArrival := some tm } := by
  have hraise : OnlyChanges raiseParts s (doIf (decide ((s.pressEntry (pressOf z)).maxGap < s.accrualInterval z tm))
      (raise tm .sampleGap (.zone z)) s) := .doIf _ (raise_changes tm .sampleGap (.zone z)) (.refl s)
  rw [accrued, accrual_modAccrual, accrual_of_changes hraise]

theorem inclusion_accrueStep (factor dt : Nat) (a : Accrual) : (accrueStep factor dt a).inclusion = a.inclusion := by
  unfold accrueStep
  dsimp only
  split
  · rfl
  · rfl

/-- What an accrual leaves of the cure: the least accumulator as progress, and the permit test. -/
theorem accrues (hl : s.live = true) (hacc : (s.cure (pressOf z)).status = .accruing)
    (hin : (s.accrual z).inclusion = .included) :
    (s.accrue z m tm).accrual z = (accrued z m tm s).accrual z
      ∧ (s.accrue z m tm).LeastProgress (pressOf z) ∧ s.PermitTested (s.accrue z m tm) (pressOf z) tm
      ∧ (s.accrue z m tm).cure (pressOf z) = { s.cure (pressOf z) with
          progress := ((s.accrue z m tm).cure (pressOf z)).progress
          status := ((s.accrue z m tm).cure (pressOf z)).status
          endTime := ((s.accrue z m tm).cure (pressOf z)).endTime }
      ∧ ((s.pressEntry (pressOf z)).maxGap < s.accrualInterval z tm →
        (s.accrue z m tm).events[EventKind.sampleGap.number].raw = true) := by
  let a := accrued z m tm s
  let b := a.recomputeProgress (pressOf z)
  have ha : OnlyChanges (.accruals :: raiseParts) s a := accrued_changes z m tm s
  have hb : OnlyChanges (.cures :: .accruals :: raiseParts) s b :=
    recomputeProgress_only _ (by decide) (ha.mono (by decide))
  have hsome : a.includedZones (pressOf z) ≠ [] :=
    includedZones_ne_nil_iff.mpr ⟨z, rfl, by rw [accrual_accrued]; exact (inclusion_accrueStep _ _ _).trans hin⟩
  have hcure : b.cure (pressOf z) = { s.cure (pressOf z) with progress := (b.cure (pressOf z)).progress } := by
    rw [← cure_of_changes ha]
    exact cure_recomputeProgress _ a
  rw [accrue_eq]
  refine ⟨?_, leastProgress_permitTest (leastProgress_recomputeProgress hsome), permitTested_of_eq
    (permitTested_permitTest ((live_of_changes hb).trans hl) (by rw [hcure]; exact hacc)) (by rw [hcure])
    (by rw [hcure]) (unit_of_changes hb _).symm (boundRecipe_of_changes hb _).symm, ?_, fun hgap => ?_⟩
  · rw [accrual_permitTest, accrual_recomputeProgress]
  · have hpermit := cure_permitTest (pressOf z) tm b
    rw [← (progress_permitTest (pressOf z) tm b).1] at hcure
    rw [hcure] at hpermit
    exact hpermit
  · refine raw_permitTest (raw_of_changes (recomputeProgress_changes _ a) (raw_of_changes (modAccrual_changes z _ _) ?_))
    rw [decide_eq_true hgap]
    exact raw_raise_self hl tm .sampleGap _

/-- The press's cure with the platen statistics of a reading, also in its record (R97). -/
def withStatistics (z : ZoneNo) (m : Int) (s : State) : State :=
  (s.modCure (pressOf z) (statistics (isUpper z) m)).modRecord (pressOf z)
    (recordStatistics ((s.modCure (pressOf z) (statistics (isUpper z) m)).cure (pressOf z)))

theorem takeHanded_of_included (hacc : (s.cure (pressOf z)).status = .accruing)
    (hin : (s.accrual z).inclusion = .included) : s.takeHanded z m tm = (withStatistics z m s).accrue z m tm := by
  rw [takeHanded]
  dsimp only
  rw [if_pos hacc, if_pos]
  · rfl
  · rw [accrual_of_changes (modRecord_changes _ _ _)]
    exact hin

theorem withStatistics_changes (z : ZoneNo) (m : Int) (s : State) :
    OnlyChanges [.cures, .history] s (withStatistics z m s) :=
  modRecord_only _ _ (by decide) ((modCure_changes _ _ s).mono (by decide))

theorem cure_withStatistics (z : ZoneNo) (m : Int) (s : State) :
    (withStatistics z m s).cure (pressOf z) = statistics (isUpper z) m (s.cure (pressOf z)) := by
  rw [withStatistics, cure_modRecord, cure_modCure]

/-- The statistics of a reading change no field that the cure's rules read. -/
theorem statistics_eq (upper : Bool) (m : Int) (c : Cure) : statistics upper m c = { c with
    upperMin := if upper then some (lesser c.upperMin m) else c.upperMin
    upperMax := if upper then some (greater c.upperMax m) else c.upperMax
    lowerMin := if upper then c.lowerMin else some (lesser c.lowerMin m)
    lowerMax := if upper then c.lowerMax else some (greater c.lowerMax m) } := by
  cases upper
  · rfl
  · rfl

theorem leastProgress_of_changes {ps : List Part} (h : OnlyChanges ps s t) (hs : s.LeastProgress p)
    (hc : Part.cures ∉ ps := by decide) (ha : Part.accruals ∉ ps := by decide) : t.LeastProgress p := by
  unfold State.LeastProgress
  simp only [cure_of_changes h _ hc, accrual_of_changes h _ ha]
  exact hs

/-- What a sample that is accrued leaves, beside what it touches. -/
def Accrues (s t : State) (z : ZoneNo) (m : Int) (r : Recipe) (entry tm : Time) : Prop :=
  let since := (tm - ((s.accrual z).prevArrival).getD entry).toNat
  let gap := (s.pressEntry (pressOf z)).maxGap
  t.accrual z = { accrueStep (rateFactor (s.rateOf r) m) (min since gap) (s.accrual z) with prevArrival := some tm }
    ∧ t.LeastProgress (pressOf z) ∧ s.PermitTested t (pressOf z) tm
    ∧ t.cure (pressOf z) = { statistics (isUpper z) m (s.cure (pressOf z)) with
        progress := (t.cure (pressOf z)).progress
        status := (t.cure (pressOf z)).status
        endTime := (t.cure (pressOf z)).endTime }
    ∧ (gap < since → t.events[EventKind.sampleGap.number].raw = true)

theorem accrues_takeHanded (hl : s.live = true) (hacc : (s.cure (pressOf z)).status = .accruing)
    (hin : (s.accrual z).inclusion = .included) (hentry : (s.cure (pressOf z)).entryTime = some entry)
    (hr : s.boundRecipe (pressOf z) = some r) : Accrues s (s.takeHanded z m tm) z m r entry tm := by
  let a := withStatistics z m s
  have ha : OnlyChanges [.cures, .history] s a := withStatistics_changes z m s
  have hcure : a.cure (pressOf z) = statistics (isUpper z) m (s.cure (pressOf z)) := cure_withStatistics z m s
  have hfields := hcure.trans (statistics_eq (isUpper z) m (s.cure (pressOf z)))
  have haccrual : a.accrual z = s.accrual z := accrual_of_changes ha z
  obtain ⟨hvaccrual, hleast, hpermit, hvcure, hgap⟩ := accrues (m := m) (tm := tm)
    ((live_of_changes ha).trans hl) (show (a.cure (pressOf z)).status = _ by rw [hfields]; exact hacc) (haccrual ▸ hin)
  have hsince : a.accrualInterval z tm = (tm - ((s.accrual z).prevArrival).getD entry).toNat := by
    rw [accrualInterval_of_entry (entry := entry) (by rw [hfields]; exact hentry), haccrual]
  have hfactor : a.factorAt (pressOf z) m = rateFactor (s.rateOf r) m := by
    rw [factorAt_of_bound (r := r) (by rw [boundRecipe_of_changes ha]; exact hr), State.rateOf, State.rateOf,
      ← show s.tables = a.tables from ha .tables (by decide)]
  rw [takeHanded_of_included hacc hin]
  refine ⟨?_, hleast, permitTested_of_eq hpermit (by rw [hfields]) (by rw [hfields]) (unit_of_changes ha _).symm
    (boundRecipe_of_changes ha _).symm, ?_, fun hlt => hgap ?_⟩
  · rw [hvaccrual, accrual_accrued, hfactor, hsince, pressEntry_of_changes ha, haccrual]
  · rw [hcure] at hvcure
    exact hvcure
  · rw [pressEntry_of_changes ha, hsince]
    exact hlt

/-- The accrual reads of the state before it the cure, the unit, the accrual and the tables. -/
theorem accrues_of_changes {ps : List Part} (h : OnlyChanges ps s u) (ha : Accrues u t z m r entry tm)
    (hc : Part.cures ∉ ps := by decide) (hn : Part.units ∉ ps := by decide) (hx : Part.accruals ∉ ps := by decide)
    (ht : Part.tables ∉ ps := by decide) : Accrues s t z m r entry tm := by
  have hrates : u.rateOf r = s.rateOf r := by
    rw [State.rateOf, State.rateOf, ← show s.tables = u.tables from h .tables ht]
  unfold Accrues at ha ⊢
  rw [accrual_of_changes h _ hx, cure_of_changes h _ hc, pressEntry_of_changes h _ ht, hrates] at ha
  obtain ⟨haccrual, hleast, hpermit, hrest⟩ := ha
  exact ⟨haccrual, hleast, permitTested_of_eq hpermit (by rw [cure_of_changes h _ hc]) (by rw [cure_of_changes h _ hc])
    (unit_of_changes h _ hn).symm (boundRecipe_of_changes h _ hn ht).symm, hrest⟩

theorem onlyNotes_up (p : PressNo) (s : State) (f : RxFrame) (bytes : List Byte) (t : State) :
    OnlyNotes p t (s.up f bytes t) := by
  unfold State.up forwardTo
  repeat' split
  · exact onlyNotes_of_changes (modPort_changes .U _ t)
  · exact (onlyNotes_of_changes (modPort_changes .U _ t)).trans (onlyNotes_raise _ _ _ _)
  · exact onlyNotes_of_history rfl
  · exact onlyNotes_of_history rfl

/-- Forwarding upward leaves an accrual. -/
theorem accrues_up (h : Accrues s.linkActivity t z m r entry tm) :
    Accrues s (s.up f bytes t) z m r entry tm := by
  have hup := up_changes s f bytes t
  obtain ⟨graw, gflags⟩ := (touches_up z s f bytes t).2.2
  obtain ⟨haccrual, hleast, ⟨hpass, hfail⟩, hcure, hgap⟩ := accrues_of_changes (linkActivity_changes s) h
  refine ⟨by rw [accrual_of_changes hup]; exact haccrual, leastProgress_of_changes hup hleast, ?_,
    by rw [cure_of_changes hup]; exact hcure, fun hlt => graw _ (hgap hlt)⟩
  unfold State.PermitTested
  rw [cure_of_changes hup, unit_of_changes hup]
  refine ⟨fun hp => ?_, hfail⟩
  obtain ⟨hstatus, hend, hunit, hraw, hrecord⟩ := hpass hp
  exact ⟨hstatus, hend, hunit, graw 17 hraw, Opens.notes hrecord (onlyNotes_up _ s f bytes t) fun _ _ _ h => h⟩

/-- The sample of the one zone that takes it is handed over. -/
theorem exec_accrues (h : s.Measures bytes f e) (hok : judgedStatus e = .ok)
    (hsensor : s.sensorOf z f.src e.channel = some (s.zone z).active) (halone : s.TakesAlone z f.src e.channel)
    (hstate : (s.zone z).state ∈ [.regulating, .holding, .overtemp]) (hacc : (s.cure (pressOf z)).status = .accruing)
    (hin : (s.accrual z).inclusion = .included) (hentry : (s.cure (pressOf z)).entryTime = some entry)
    (hr : s.boundRecipe (pressOf z) = some r) : ∃ v, exec (.thermoSample bytes) s = .next (s.up f bytes v)
      ∧ Touches z s.linkActivity v ∧ OnlyChanges (.zones :: .portD :: cureParts) s.linkActivity v
      ∧ Accrues s.linkActivity v z e.value r entry s.timebase := by
  let y := s.linkActivity.modZone z (recorded (s.zone z).active
    { status := .ok, value := e.value, arrival := s.timebase })
  have hyz : y.zone z = recorded (s.zone z).active { status := .ok, value := e.value, arrival := s.timebase }
    (s.zone z) := zone_modZone z _ s.linkActivity
  have hys : (y.zone z).state = (s.zone z).state := (congrArg Zone.state hyz).trans rfl
  obtain ⟨w, hw, htreat⟩ := handed_of_treatEntry (m := e.value) (tm := s.timebase) (s := y) (z := z)
    (x := (s.zone z).active) (fun hd => absurd ((hys.symm.trans hd) ▸ hstate) (by decide))
    (fun hd => absurd ((hys.symm.trans hd) ▸ hstate) (by decide)) ((congrArg Zone.active hyz).trans rfl)
  have hrecord : OnlyChanges [.zones] s.linkActivity y := modZone_changes z _ _
  have hws : OnlyChanges (.zones :: netParts) s.linkActivity w := (hrecord.mono (by decide)).trans hw
  refine ⟨y.treatEntry z (s.zone z).active .ok e.value s.timebase, exec_valid h hok hsensor halone,
    (touches_modZone z _ _).trans (touches_treatEntry z _ _ _ _ y),
    (hrecord.mono (by decide)).trans (treatEntry_changes z _ _ _ _ y), ?_⟩
  rw [htreat]
  exact accrues_of_changes hws (accrues_takeHanded ((live_of_changes hws).trans (live_of_measures h))
    (by rw [cure_of_changes hws]; exact hacc) (by rw [accrual_of_changes hws]; exact hin)
    (by rw [cure_of_changes hws]; exact hentry) (by rw [boundRecipe_of_changes hws]; exact hr))

/-- Settles O33: the sample is handed over, its statistics are taken, and it accrues. -/
theorem sampleAccrues : Obligations.SampleAccrues := by
  intro s bytes f e z r entry h hok hlow hhigh hsensor halone hstate hacc hin hentry hr p gap since n full
  obtain ⟨v, hrun, htouch, hchanges, haccrues⟩ := exec_accrues h (judgedStatus_of_ok hok hlow hhigh) hsensor halone
    hstate hacc hin hentry hr
  obtain ⟨haccrual, ⟨hmem, hmin⟩, ⟨hpass, hfail⟩, hcure, hgap⟩ := accrues_up (bytes := bytes) (f := f) haccrues
  obtain ⟨hzones, hothers⟩ := others_of_touches htouch bytes f
  have hiff (c : Cure) : ((s.cure p).lost = false ∧ (s.cure p).dwellMet = true ∧ r.cureTarget * 1000 ≤ c.progress)
      ↔ ((s.cure p).lost = false ∧ (s.cure p).dwellMet = true
        ∧ ∃ r', s.boundRecipe p = some r' ∧ r'.cureTarget * 1000 ≤ c.progress) := by
    rw [hr]
    simp
  refine ⟨s.up f bytes v, hrun, fun hfull => ?_, fun hfull => ?_, fun z' hz' => (hzones z' hz').2, hmem, hmin, hgap,
    fun hupper => ?_, fun hlower => ?_, ⟨fun hp => ?_, fun hp => hfail ((hiff _).not.mp hp)⟩,
    fun z' hz' => (hzones z' hz').1, hothers, hchanges.before (by decide) (up_changes s f bytes v)⟩
  · rw [haccrual, accrueStep_of_not_full hfull]
    exact congrArg (fun i => Accrual.mk i _ _ _) hin
  · rw [haccrual, accrueStep_of_full hfull]
    exact congrArg (fun i => Accrual.mk i _ _ _) hin
  · rw [hcure, hupper, ← lesser_eq, ← greater_eq]
    exact ⟨rfl, rfl⟩
  · rw [hcure, hlower, ← lesser_eq, ← greater_eq]
    exact ⟨rfl, rfl⟩
  · obtain ⟨hstatus, hend, hunit, hraw, _⟩ := hpass ((hiff _).mp hp)
    exact ⟨hstatus, hend, congrArg PressUnit.state hunit, hraw⟩

end Sys2Proof.Proofs.Accruing
end

