-- ==== Sys2Proof/Proofs/WindowZones.lean ====
section
/-! PROOFS. A window end for one zone: hold counting (R71), failover and loss (R72, R73), commit and ramp (R74, R75). -/

namespace Sys2Proof.Proofs.WindowZones

set_option Elab.async false

open Sys2Proof.Machine Sys2Proof.Machine.State Sys2Proof.Proofs.CureRules Sys2Proof.Proofs.HeatLaws
  Sys2Proof.Proofs.OtherPresses Sys2Proof.Proofs.OneZone Sys2Proof.Proofs.ZoneRequests
  Sys2Proof.Proofs.Regulation Sys2Proof.Proofs.Timers

variable {s t u : State} {tm : Time} {p : PressNo} {y z : ZoneNo} {c : Zone}

/-! ## What one zone's window end touches -/

theorem touches_excluded (z : ZoneNo) (s : State) : Touches z s (excluded z s) :=
  ((touches_modAccrual z _ s).trans (touches_modCure z _ _)).trans
    (touches_modRecord z
      (g := fun r => { r.set .cureDegraded with excluded := ((counted z s).cure (pressOf z)).excluded })
      (fun _ _ h => flags_set_of h .cureDegraded) _)

theorem touches_loseCure (z : ZoneNo) (tm : Time) (s : State) : Touches z s (s.loseCure (pressOf z) tm) :=
  ((touches_modCure z _ s).trans (touches_raise _ _ _ z _)).trans (touches_setFlag z _ _)

theorem touches_excludeZone (z : ZoneNo) (tm : Time) (s : State) : Touches z s (s.excludeZone z tm) := by
  by_cases h : (s.accrual z).inclusion = .included ∧ (s.cure (pressOf z)).status = .accruing
  · rw [excludeZone_of_included h.1 h.2]
    split
    · exact (touches_excluded z s).trans (touches_loseCure z tm _)
    · exact ((touches_excluded z s).trans (touches_recomputeProgress z _)).trans (touches_permitTest z tm _)
  · rw [excludeZone_of_not h]
    exact .refl z s

theorem touches_failoverOrLose (z : ZoneNo) (tm : Time) (s : State) : Touches z s (s.failoverOrLose z tm) := by
  unfold failoverOrLose
  repeat' split
  · exact ((touches_modZone z _ s).trans (touches_modZone z _ _)).trans (touches_raiseSwitch z tm _)
  · exact ((touches_modZone z _ s).trans (touches_raise _ _ _ z _)).trans (touches_excludeZone z tm _)
  · exact .refl z s

theorem touches_zoneWindowEnd (tm : Time) (z : ZoneNo) (s : State) : Touches z s (s.zoneWindowEnd tm z) :=
  ((touches_modZone z _ s).trans (touches_doIf (touches_failoverOrLose z tm) _)).trans (touches_modZone z _ _)

/-! ## Hold counting (R71) -/

theorem countRises_iff (hd : c.state ≠ .disabled) :
    countRises c = true ↔ c.fresh = false ∧ c.grace = false ∧ c.state ≠ .lost := by
  cases hs : c.state with
  | disabled => exact absurd hs hd
  | lost => simp [countRises, hs]
  | regulating | holding | overtemp => simp [countRises, hs]

/-- The state of a zone whose hold count has risen. -/
def heldState (c : Zone) : ZoneState := if c.state = .regulating then .holding else c.state

theorem holdCounted_of_rises (h : countRises c = true) : holdCounted c =
    { c with holdCount := min 15 (c.holdCount + 1), fresh := false, grace := false, state := heldState c } := by
  rw [holdCounted, if_pos h, satSucc, Nat.min_comm]
  rfl

theorem holdCounted_of_not (h : ¬countRises c = true) : holdCounted c = { c with fresh := false, grace := false } :=
  if_neg h

/-- A zone at its window end, but for what hold counting, failover and loss leave of it. -/
def endedZone (ramp : Nat) (c : Zone) : Zone :=
  { c with fresh := false, grace := false, setpoint := rampStep ramp c.target c.setpoint }

theorem zone_commitAndRamp (z : ZoneNo) (s : State) : (s.commitAndRamp z).zone z =
    { s.zone z with committed := commitDuty (s.zone z)
                    setpoint := rampStep (s.pressEntry (pressOf z)).ramp (s.zone z).target (s.zone z).setpoint } :=
  zone_modZone z _ s

theorem zoneWindowEnd_of_not_rises (h : ¬countRises (s.zone z) = true) :
    s.zoneWindowEnd tm z = (s.modZone z holdCounted).commitAndRamp z := by
  rw [zoneWindowEnd, holdCounting, doIf_of_not h]

theorem zoneWindowEnd_of_rises (h : countRises (s.zone z) = true) :
    s.zoneWindowEnd tm z = ((s.modZone z holdCounted).failoverOrLose z tm).commitAndRamp z := by
  rw [zoneWindowEnd, holdCounting, doIf_of h]

/-- The zone's primary sensor regulates, and its last entry is not OK (R72). -/
def PrimaryBad (c : Zone) : Prop := c.active = .primary ∧ ¬∃ l, c.primaryLast = some l ∧ l.status = .ok

theorem failoverDue_iff : s.failoverDue z = true ↔
    (s.pressEntry (pressOf z)).holdLimit ≤ (s.zone z).holdCount ∨ PrimaryBad (s.zone z) := by
  simp only [failoverDue, Bool.or_eq_true, decide_eq_true_eq, Bool.and_eq_true, beq_iff_eq, Bool.not_eq_true',
    ← Bool.not_eq_true, Option.any_eq_true]
  rfl

section

variable (h : countRises (s.zone z) = true)
include h

theorem zone_holdCounted : (s.modZone z holdCounted).zone z = { s.zone z with
    holdCount := min 15 ((s.zone z).holdCount + 1), fresh := false, grace := false, state := heldState (s.zone z) } := by
  rw [zone_modZone, holdCounted_of_rises h]

/-- Failover at a window end (R72). -/
theorem zoneWindowEnd_of_switch
    (hdue : (s.pressEntry (pressOf z)).holdLimit ≤ min 15 ((s.zone z).holdCount + 1) ∨ PrimaryBad (s.zone z))
    (hok : s.backupEligible z tm = true) : s.zoneWindowEnd tm z =
      (((s.modZone z holdCounted).modZone z fun c =>
        { c with holdCount := 0 }).switchToBackup z tm).commitAndRamp z := by
  have hzone := zone_holdCounted h
  have hdue' : (s.modZone z holdCounted).failoverDue z = true := by
    rw [failoverDue_iff, hzone]
    exact hdue
  have hok' : (s.modZone z holdCounted).backupEligible z tm = true := by
    rw [backupEligible_iff, hzone]
    exact backupEligible_iff.mp hok
  rw [zoneWindowEnd_of_rises h, failoverOrLose, hdue', hok']
  rfl

/-- Loss at a window end (R73). -/
theorem zoneWindowEnd_of_lose (hlimit : (s.pressEntry (pressOf z)).holdLimit ≤ min 15 ((s.zone z).holdCount + 1))
    (hok : ¬s.backupEligible z tm = true) :
    s.zoneWindowEnd tm z = ((s.modZone z holdCounted).loseZone z tm).commitAndRamp z := by
  have hzone := zone_holdCounted h
  have hok' : ¬(s.modZone z holdCounted).backupEligible z tm = true := by
    rw [backupEligible_iff, hzone]
    exact backupEligible_iff.not.mp hok
  have hlimit' : ((s.modZone z holdCounted).pressEntry (pressOf z)).holdLimit
      ≤ ((s.modZone z holdCounted).zone z).holdCount := by
    rw [hzone]
    exact hlimit
  rw [zoneWindowEnd_of_rises h, failoverOrLose, if_neg fun hb => hok' (Bool.and_eq_true _ _ ▸ hb).2, if_pos hlimit']

/-- Neither failover nor loss. -/
theorem zoneWindowEnd_of_held (hlimit : min 15 ((s.zone z).holdCount + 1) < (s.pressEntry (pressOf z)).holdLimit)
    (hno : ¬(PrimaryBad (s.zone z) ∧ s.backupEligible z tm = true)) :
    s.zoneWindowEnd tm z = (s.modZone z holdCounted).commitAndRamp z := by
  have hzone := zone_holdCounted h
  have hlimit' : ¬((s.modZone z holdCounted).pressEntry (pressOf z)).holdLimit
      ≤ ((s.modZone z holdCounted).zone z).holdCount := by
    rw [hzone]
    exact Nat.not_le.mpr hlimit
  have hno' : ¬((s.modZone z holdCounted).failoverDue z && (s.modZone z holdCounted).backupEligible z tm) = true := by
    rw [Bool.and_eq_true, failoverDue_iff, backupEligible_iff, hzone]
    rintro ⟨hdue, hok⟩
    refine hno ⟨hdue.resolve_left (Nat.not_le.mpr hlimit), backupEligible_iff.mpr hok⟩
  rw [zoneWindowEnd_of_rises h, failoverOrLose, if_neg hno', if_neg hlimit']

end

/-! ## The zone after its window end -/

/-- The committed duty of a zone whose hold count has risen (R74). -/
def heldDuty (c : Zone) : Nat := if c.state = .overtemp then 0 else c.committed

theorem commitDuty_held (hr : countRises c = true) {d : Zone} (hs : d.state = heldState c)
    (hc : d.committed = c.committed) : commitDuty d = heldDuty c := by
  unfold commitDuty heldDuty
  rw [hs, hc]
  cases h : c.state with
  | disabled | lost => simp [countRises, h] at hr
  | regulating | holding | overtemp => simp [heldState, h]

theorem zone_commitAndRamp_of_held (hr : countRises c = true) (hs : (s.zone z).state = heldState c)
    (hc : (s.zone z).committed = c.committed) : (s.commitAndRamp z).zone z =
      { s.zone z with committed := heldDuty c
                      setpoint := rampStep (s.pressEntry (pressOf z)).ramp (s.zone z).target (s.zone z).setpoint } := by
  rw [zone_commitAndRamp, commitDuty_held hr hs hc]

theorem zone_of_not_rises (hd : (s.zone z).state ≠ .disabled) (h : ¬countRises (s.zone z) = true) :
    (s.zoneWindowEnd tm z).zone z = { endedZone (s.pressEntry (pressOf z)).ramp (s.zone z) with
      committed := if (s.zone z).state = .regulating then (s.zone z).staged
        else if (s.zone z).state = .holding then (s.zone z).committed else 0 } := by
  have hduty : commitDuty { s.zone z with fresh := false, grace := false } =
      if (s.zone z).state = .regulating then (s.zone z).staged
        else if (s.zone z).state = .holding then (s.zone z).committed else 0 := by
    unfold commitDuty
    cases hs : (s.zone z).state with
    | disabled => exact absurd hs hd
    | lost | regulating | holding | overtemp => simp
  rw [zoneWindowEnd_of_not_rises h, zone_commitAndRamp, zone_modZone, holdCounted_of_not h, hduty]
  rfl

section

variable (h : countRises (s.zone z) = true)
include h

theorem zone_of_switch
    (hdue : (s.pressEntry (pressOf z)).holdLimit ≤ min 15 ((s.zone z).holdCount + 1) ∨ PrimaryBad (s.zone z))
    (hok : s.backupEligible z tm = true) :
    (s.zoneWindowEnd tm z).zone z = { endedZone (s.pressEntry (pressOf z)).ramp (s.zone z) with
      state := heldState (s.zone z), active := .backup, holdCount := 0, committed := heldDuty (s.zone z) } := by
  have hswitch (x : State) : (x.switchToBackup z tm).zone z = { x.zone z with active := .backup } := by
    rw [switchToBackup, zone_of_changes (raiseSwitch_changes z tm _), zone_modZone]
  have hpress (x : State) : (x.switchToBackup z tm).pressEntry (pressOf z) = x.pressEntry (pressOf z) :=
    pressEntry_of_changes (switchToBackup_changes z tm x) _
  have hzone : (((s.modZone z holdCounted).modZone z fun c => { c with holdCount := 0 }).switchToBackup z tm).zone z =
      { s.zone z with holdCount := 0, fresh := false, grace := false, state := heldState (s.zone z)
                      active := .backup } := by
    rw [hswitch, zone_modZone, zone_holdCounted h]
  rw [zoneWindowEnd_of_switch h hdue hok, zone_commitAndRamp_of_held h (by rw [hzone]) (by rw [hzone]), hpress, hzone]
  rfl

theorem zone_of_lose (hlimit : (s.pressEntry (pressOf z)).holdLimit ≤ min 15 ((s.zone z).holdCount + 1))
    (hok : ¬s.backupEligible z tm = true) :
    (s.zoneWindowEnd tm z).zone z = { endedZone (s.pressEntry (pressOf z)).ramp (s.zone z) with
      state := .lost, holdCount := min 15 ((s.zone z).holdCount + 1), staged := 0, committed := 0 } := by
  have hlose (x : State) : (x.loseZone z tm).zone z = { x.zone z with state := .lost, staged := 0 } := by
    rw [loseZone, zone_of_changes (excludeZone_changes z tm _), zone_of_changes (raise_changes _ _ _ _), zone_modZone]
  have hpress (x : State) : (x.loseZone z tm).pressEntry (pressOf z) = x.pressEntry (pressOf z) :=
    pressEntry_of_changes (loseZone_changes z tm x) _
  rw [zoneWindowEnd_of_lose h hlimit hok, zone_commitAndRamp, hpress, hlose, zone_holdCounted h]
  rfl

theorem zone_of_held (hlimit : min 15 ((s.zone z).holdCount + 1) < (s.pressEntry (pressOf z)).holdLimit)
    (hno : ¬(PrimaryBad (s.zone z) ∧ s.backupEligible z tm = true)) :
    (s.zoneWindowEnd tm z).zone z = { endedZone (s.pressEntry (pressOf z)).ramp (s.zone z) with
      state := heldState (s.zone z), holdCount := min 15 ((s.zone z).holdCount + 1)
      committed := heldDuty (s.zone z) } := by
  have hzone := zone_holdCounted h
  rw [zoneWindowEnd_of_held h hlimit hno, zone_commitAndRamp_of_held h (by rw [hzone]) (by rw [hzone]), hzone]
  rfl

theorem raw_of_switch (hl : s.live = true)
    (hdue : (s.pressEntry (pressOf z)).holdLimit ≤ min 15 ((s.zone z).holdCount + 1) ∨ PrimaryBad (s.zone z))
    (hok : s.backupEligible z tm = true) :
    (s.zoneWindowEnd tm z).events[EventKind.sensorSwitch.number].raw = true := by
  rw [zoneWindowEnd_of_switch h hdue hok]
  exact raw_of_changes (modZone_changes z _ _) (raw_of_changes (setFlag_changes _ _ _)
    (raw_raise_self (s := ((s.modZone z holdCounted).modZone z _).modZone z _) hl tm _ _))

theorem raw_of_lose (hl : s.live = true)
    (hlimit : (s.pressEntry (pressOf z)).holdLimit ≤ min 15 ((s.zone z).holdCount + 1))
    (hok : ¬s.backupEligible z tm = true) :
    (s.zoneWindowEnd tm z).events[EventKind.zoneLost.number].raw = true := by
  obtain ⟨hraw, _⟩ := (touches_excludeZone z tm (raise tm .zoneLost (.zone z) ((s.modZone z holdCounted).modZone z
    fun c => { c with state := .lost, staged := 0 }))).2.2
  rw [zoneWindowEnd_of_lose h hlimit hok]
  exact raw_of_changes (modZone_changes z _ _) (hraw _ (raw_raise_self
    (s := (s.modZone z holdCounted).modZone z _) hl tm .zoneLost _))

end

end Sys2Proof.Proofs.WindowZones
end

