-- ==== Sys2Proof/Proofs/WindowCure.lean ====
section
/-! PROOFS. What a window end leaves of a cure that accrues: the zones it loses are excluded one after the other, until
the permit is granted or no zone remains (R90 to R92, R94). -/

namespace Sys2Proof.Proofs.WindowCure

set_option Elab.async false

open Sys2Proof.Machine Sys2Proof.Machine.State Sys2Proof.Proofs.CureRules Sys2Proof.Proofs.HeatLaws
  Sys2Proof.Proofs.OtherPresses Sys2Proof.Proofs.OneZone Sys2Proof.Proofs.CloseConditions
  Sys2Proof.Proofs.CureProgress Sys2Proof.Proofs.ZoneRequests

variable {s t u : State} {tm e : Time} {p : PressNo} {y z : ZoneNo} {F : ZoneNo → Bool} {ps : List Part}

/-! ## Steps that leave the cure -/

/-- A step leaves the cure, the unit and the accruals; the OPEN record may gain notes and flags. -/
def Rests (p : PressNo) (s t : State) : Prop :=
  t.cure p = s.cure p ∧ t.unit p = s.unit p ∧ (∀ z, t.accrual z = s.accrual z)
    ∧ (∀ j : Fin 25, s.events[j].raw = true → t.events[j].raw = true)
    ∧ ∀ x, t.openRecord p = some x → ∃ r, s.openRecord p = some r ∧ x.excluded = r.excluded
      ∧ x.cureEnd = r.cureEnd ∧ x.cureAchieved = r.cureAchieved
      ∧ ∀ i, r.flags.getLsbD i = true → x.flags.getLsbD i = true

theorem Rests.refl (p : PressNo) (s : State) : Rests p s s :=
  ⟨rfl, rfl, fun _ => rfl, fun _ h => h, fun x hx => ⟨x, hx, rfl, rfl, rfl, fun _ h => h⟩⟩

theorem Rests.trans (h : Rests p s t) (g : Rests p t u) : Rests p s u := by
  obtain ⟨hcure, hunit, haccrual, hraw, hrecord⟩ := h
  obtain ⟨gcure, gunit, gaccrual, graw, grecord⟩ := g
  refine ⟨gcure.trans hcure, gunit.trans hunit, fun z => (gaccrual z).trans (haccrual z), fun j hj => graw j (hraw j hj),
    fun x hx => ?_⟩
  obtain ⟨r, hr, h1, h2, h3, h4⟩ := grecord x hx
  obtain ⟨q, hq, g1, g2, g3, g4⟩ := hrecord r hr
  exact ⟨q, hq, h1.trans g1, h2.trans g2, h3.trans g3, fun i hi => h4 i (g4 i hi)⟩

theorem rests_of_changes (h : OnlyChanges ps s t) (p : PressNo)
    (hps : ∀ x ∈ [Part.cures, .units, .accruals, .events, .history], x ∉ ps := by decide) : Rests p s t :=
  ⟨cure_of_changes h p (hps _ (by decide)), unit_of_changes h p (hps _ (by decide)),
    fun z => accrual_of_changes h z (hps _ (by decide)), fun _ hj => raw_of_changes h hj (hps _ (by decide)),
    fun x hx => ⟨x, openRecord_of_history_symm (h .history (hps _ (by decide))) hx, rfl, rfl, rfl, fun _ h => h⟩⟩
where
  openRecord_of_history_symm {s t : State} {x : Record} (h : s.history = t.history) (hx : t.openRecord p = some x) :
      s.openRecord p = some x := (Events.openRecord_of_history h p).trans hx

theorem rests_raise (tm : Time) (k : EventKind) (i : EventOn) (s : State) (p : PressNo) :
    Rests p s (s.raise tm k i) := by
  have h := raise_changes tm k i s
  refine ⟨cure_of_changes h p, unit_of_changes h p, accrual_of_changes h, fun _ hj => raw_raise hj, fun x hx => ?_⟩
  obtain ⟨r, hr, hxr⟩ := onlyNotes_raise tm k i s x hx
  exact ⟨r, hr, by rw [hxr], by rw [hxr], by rw [hxr], fun i hi => by rw [hxr]; exact hi⟩

theorem rests_setFlag (p : PressNo) (f : RecordFlag) (s : State) : Rests p s (s.setFlag p f) := by
  have h := setFlag_changes p f s
  refine ⟨cure_of_changes h p, unit_of_changes h p, accrual_of_changes h, fun _ hj => raw_of_changes h hj,
    fun x hx => ?_⟩
  rw [setFlag, openRecord_modRecord] at hx
  obtain ⟨r, hr, rfl⟩ := Option.map_eq_some_iff.mp hx
  exact ⟨r, hr, rfl, rfl, rfl, fun i hi => flags_set_of hi f⟩

theorem leastProgress_rests (h : s.LeastProgress p) (hr : Rests p s t) : t.LeastProgress p := by
  obtain ⟨hcure, _, haccrual, _⟩ := hr
  unfold State.LeastProgress
  simp only [hcure, haccrual]
  exact h

theorem permitTested_rests (h : s.PermitTested t p tm) (hr : Rests p t u) : s.PermitTested u p tm := by
  obtain ⟨hcure, hunit, _, hraw, hrecord⟩ := hr
  unfold State.PermitTested
  rw [hcure, hunit]
  obtain ⟨hpass, hfail⟩ := h
  refine ⟨fun hp => ?_, hfail⟩
  obtain ⟨h1, h2, h3, h4, h5⟩ := hpass hp
  refine ⟨h1, h2, h3, hraw 17 h4, fun x hx => ?_⟩
  obtain ⟨r, hr, _, hend, hachieved, _⟩ := hrecord x hx
  obtain ⟨g1, g2⟩ := h5 r hr
  exact ⟨hend.trans g1, hachieved.trans g2⟩

theorem opens_rests {n : Nat} (h : Opens p (fun x => x.flags.getLsbD 0 = true ∧ x.excluded = n) s)
    (hr : Rests p s t) : Opens p (fun x => x.flags.getLsbD 0 = true ∧ x.excluded = n) t := by
  obtain ⟨_, _, _, _, hrecord⟩ := hr
  intro x hx
  obtain ⟨r, hr, hexcluded, _, _, hflags⟩ := hrecord x hx
  obtain ⟨g1, g2⟩ := h r hr
  exact ⟨hflags 0 g1, hexcluded.trans g2⟩

theorem opens_flag_rests {i : Nat} (h : Opens p (fun x => x.flags.getLsbD i = true) s) (hr : Rests p s t) :
    Opens p (fun x => x.flags.getLsbD i = true) t := by
  obtain ⟨_, _, _, _, hrecord⟩ := hr
  intro x hx
  obtain ⟨r, hr, _, _, _, hflags⟩ := hrecord x hx
  exact hflags i (h r hr)

theorem excludes_rests (h : s.Excludes t z tm) (hr : Rests (pressOf z) t u) : s.Excludes u z tm := by
  obtain ⟨hz, hothers, hrecord, hnone, hsome⟩ := h
  have hopens := opens_rests (p := pressOf z) hrecord hr
  have hpermit (hp : s.PermitTested t (pressOf z) tm) := permitTested_rests hp hr
  have hleast (hp : t.LeastProgress (pressOf z)) := leastProgress_rests hp hr
  have hlost (hp : Opens (pressOf z) (fun x => x.flags.getLsbD 1 = true) t) := opens_flag_rests hp hr
  obtain ⟨hcure, hunit, haccrual, hraw, _⟩ := hr
  unfold State.Excludes
  simp only [hcure, hunit, haccrual]
  refine ⟨hz, hothers, hopens, fun hno => ?_, fun hyes => ?_⟩
  · obtain ⟨h1, h2, h3, h4⟩ := hnone hno
    exact ⟨h1, h2, hraw 18 h3, hlost h4⟩
  · obtain ⟨h1, h2, h3, h4⟩ := hsome hyes
    exact ⟨h1, h2, hleast h3, hpermit h4⟩

/-! ## The cure after the exclusion of some zones -/

/-- Some zone is still INCLUDED. -/
def Remains (t : State) (p : PressNo) : Prop := ∃ z, pressOf z = p ∧ (t.accrual z).inclusion = .included

/-- What the exclusion of the zones `F` leaves of the cure of a press. -/
structure CureEnded (s t : State) (p : PressNo) (e : Time) (F : ZoneNo → Bool) : Prop where
  kept : (s.cure p).status ≠ .accruing ∨ (∀ z, F z = false) →
    t.cure p = s.cure p ∧ t.unit p = s.unit p ∧ ∀ z, t.accrual z = s.accrual z
  one : (s.cure p).status = .accruing → ∀ z, F z = true → (∀ z', F z' = true → z' = z) → s.Excludes t z e
  goesOn : (s.cure p).status = .accruing → (t.cure p).status = .accruing →
    t.unit p = s.unit p
      ∧ (∀ z, t.accrual z = if F z then { s.accrual z with inclusion := .excluded } else s.accrual z)
      ∧ (t.cure p).excluded = (s.cure p).excluded + ((zonesOf p).filter F).length
      ∧ ((∃ z, F z = true) →
        (∀ x, t.openRecord p = some x → x.flags.getLsbD 0 = true ∧ x.excluded = (t.cure p).excluded)
        ∧ (Remains t p → t.LeastProgress p ∧ s.PermitTested t p e ∧ (t.cure p).lost = (s.cure p).lost)
        ∧ (¬Remains t p → (t.cure p).lost = true ∧ (t.events[18]).raw = true
          ∧ ∀ x, t.openRecord p = some x → x.flags.getLsbD 1 = true))
  ended : (s.cure p).status = .accruing → (t.cure p).status ≠ .accruing →
    (∃ z, F z = true) ∧ t.LeastProgress p ∧ s.PermitTested t p e
  others : ∀ z, F z = false → t.accrual z = s.accrual z
  within : ∀ z, F z = true → pressOf z = p
  fields : (t.cure p).dwellMet = (s.cure p).dwellMet ∧ (t.cure p).entryTime = (s.cure p).entryTime

theorem CureEnded.refl (s : State) (p : PressNo) (e : Time) : CureEnded s s p e fun _ => false where
  kept _ := ⟨rfl, rfl, fun _ => rfl⟩
  one _ _ h := nomatch h
  goesOn _ _ := ⟨rfl, fun _ => rfl, by simp, fun ⟨_, h⟩ => nomatch h⟩
  ended h g := absurd h g
  others _ _ := rfl
  within _ h := nomatch h
  fields := ⟨rfl, rfl⟩

theorem CureEnded.rests (h : CureEnded s t p e F) (hr : Rests p t u) : CureEnded s u p e F := by
  have hrest := hr
  obtain ⟨hcure, hunit, haccrual, hraw, hrecord⟩ := hr
  have hremains : Remains u p ↔ Remains t p := by simp only [Remains, haccrual]
  refine ⟨?_, fun hacc z hz hone => ?_, ?_, ?_, fun z hz => (haccrual z).trans (h.others z hz), h.within, ?_⟩
  · rw [hcure, hunit]
    simp only [haccrual]
    exact h.kept
  · have hp := h.within z hz
    subst hp
    exact excludes_rests (h.one hacc z hz hone) hrest
  · simp only [hcure, hunit, haccrual, hremains]
    intro hacc hgoes
    obtain ⟨h1, h2, h3, h4⟩ := h.goesOn hacc hgoes
    refine ⟨h1, h2, h3, fun hsome => ?_⟩
    obtain ⟨g1, g2, g3⟩ := h4 hsome
    refine ⟨opens_rests (p := p) g1 hrest, fun hrem => ?_, fun hno => ?_⟩
    · obtain ⟨k1, k2, k3⟩ := g2 hrem
      exact ⟨leastProgress_rests k1 hrest, permitTested_rests k2 hrest, k3⟩
    · obtain ⟨k1, k2, k3⟩ := g3 hno
      exact ⟨k1, hraw 18 k2, opens_flag_rests (p := p) k3 hrest⟩
  · simp only [hcure]
    intro hacc hended
    obtain ⟨h1, h2, h3⟩ := h.ended hacc hended
    exact ⟨h1, leastProgress_rests h2 hrest, permitTested_rests h3 hrest⟩
  · rw [hcure]
    exact h.fields

/-! ## One zone more -/

/-- The exclusion reads of the state before it the cure, the unit with its recipe, and the accruals. -/
theorem excludes_of_eq (h : u.Excludes t z tm) (hcure : s.cure (pressOf z) = u.cure (pressOf z))
    (hunit : s.unit (pressOf z) = u.unit (pressOf z)) (haccrual : ∀ y, s.accrual y = u.accrual y)
    (hbound : s.boundRecipe (pressOf z) = u.boundRecipe (pressOf z)) : s.Excludes t z tm := by
  have hpermit (hp : u.PermitTested t (pressOf z) tm) : s.PermitTested t (pressOf z) tm :=
    permitTested_of_eq hp (by rw [hcure]) (by rw [hcure]) hunit hbound
  obtain ⟨hz, hothers, hrecord, hnone, hsome⟩ := h
  unfold State.Excludes
  simp only [hcure, hunit, haccrual]
  refine ⟨hz, hothers, hrecord, hnone, fun hyes => ?_⟩
  obtain ⟨h1, h2, h3, h4⟩ := hsome hyes
  exact ⟨h1, h2, h3, hpermit h4⟩

theorem boundRecipe_of_unit (hu : t.unit p = s.unit p) (ht : t.tables = s.tables) :
    t.boundRecipe p = s.boundRecipe p := by
  rw [boundRecipe, boundRecipe, hu, ht]

/-- The fields of a cure that no exclusion changes. -/
theorem fields_excludeZone (z : ZoneNo) (e : Time) (s : State) :
    ((s.excludeZone z e).cure (pressOf z)).dwellMet = (s.cure (pressOf z)).dwellMet
      ∧ ((s.excludeZone z e).cure (pressOf z)).entryTime = (s.cure (pressOf z)).entryTime := by
  by_cases h : (s.accrual z).inclusion = .included ∧ (s.cure (pressOf z)).status = .accruing
  · rw [excludeZone_of_included h.1 h.2]
    split
    · rw [cure_loseCure, cure_modCure, cure_excluded]
      exact ⟨rfl, rfl⟩
    · rw [Accruing.cure_permitTest, cure_recomputeProgress, cure_excluded]
      exact ⟨rfl, rfl⟩
  · rw [excludeZone_of_not h]
    exact ⟨rfl, rfl⟩

/-- The zones `F`, and one more. -/
def andZone (z : ZoneNo) (F : ZoneNo → Bool) (y : ZoneNo) : Bool := decide (y = z) || F y

theorem andZone_self (z : ZoneNo) (F : ZoneNo → Bool) : andZone z F z = true := by simp [andZone]

theorem andZone_of_ne (h : y ≠ z) : andZone z F y = F y := by simp [andZone, h]

theorem andZone_of (h : F y = true) : andZone z F y = true := by simp [andZone, h]

theorem length_filter_andZone {l : List ZoneNo} (hl : l.Nodup) (hz : z ∈ l) (hF : F z = false) :
    (l.filter (andZone z F)).length = (l.filter F).length + 1 := by
  obtain ⟨a, b, rfl⟩ := List.append_of_mem hz
  obtain ⟨_, hright, hdisjoint⟩ := List.nodup_append.mp hl
  have ha : a.filter (andZone z F) = a.filter F :=
    List.filter_congr fun y hy => andZone_of_ne (hdisjoint y hy z List.mem_cons_self)
  have hb : b.filter (andZone z F) = b.filter F :=
    List.filter_congr fun y hy => andZone_of_ne fun h => (List.nodup_cons.mp hright).1 (h ▸ hy)
  rw [List.filter_append, List.filter_append, ha, List.filter_cons_of_pos (andZone_self z F), hb,
    List.filter_cons_of_neg (by rw [hF]; decide)]
  simp [Nat.add_assoc]

section

variable (h : CureEnded s t (pressOf z) e F) (hF : F z = false)
include h hF

omit hF in
theorem within_andZone (y : ZoneNo) (hy : andZone z F y = true) : pressOf y = pressOf z := by
  by_cases he : y = z
  · rw [he]
  · exact h.within y (by rwa [andZone_of_ne he] at hy)

/-- A zone that is lost once the cure is no longer ACCRUING is not excluded from it. -/
theorem CureEnded.andZone_of_not_accruing (hno : (t.cure (pressOf z)).status ≠ .accruing) :
    CureEnded s t (pressOf z) e (andZone z F) where
  kept hidle := h.kept (.inl (hidle.resolve_right fun hnone =>
    absurd (hnone z) (by rw [andZone_self]; decide)))
  one hacc z' hz' hone := by
    obtain ⟨⟨z₁, hz₁⟩, _⟩ := h.ended hacc hno
    have hzz := hone z (andZone_self z F)
    have h1 := hone z₁ (andZone_of hz₁)
    rw [h1.trans hzz.symm, hF] at hz₁
    cases hz₁
  goesOn _ hgoes := absurd hgoes hno
  ended hacc _ := ⟨⟨z, andZone_self z F⟩, (h.ended hacc hno).2⟩
  others y hy := by
    have hne : y ≠ z := fun he => by
      rw [he, andZone_self] at hy
      cases hy
    exact h.others y (by rwa [andZone_of_ne hne] at hy)
  within := within_andZone h
  fields := h.fields

/-- A zone is excluded from a cure that still accrues. -/
theorem CureEnded.exclude (hl : t.live = true) (htables : t.tables = s.tables)
    (hin : (s.accrual z).inclusion = .included) (hacc : (t.cure (pressOf z)).status = .accruing) :
    CureEnded s (t.excludeZone z e) (pressOf z) e (andZone z F) := by
  have haccrues : (s.cure (pressOf z)).status = .accruing := by
    by_contra hno
    exact hno ((h.kept (.inl hno)).1 ▸ hacc)
  have htin : (t.accrual z).inclusion = .included := (h.others z hF).symm ▸ hin
  obtain ⟨hunit, haccruals, hcount, hsome⟩ := h.goesOn haccrues hacc
  have hlost : (t.cure (pressOf z)).lost = (s.cure (pressOf z)).lost := by
    by_cases hany : ∃ y, F y = true
    · exact ((hsome hany).2.1 ⟨z, rfl, htin⟩).2.2
    · rw [(h.kept (.inr fun y => Bool.eq_false_iff.mpr fun hy => hany ⟨y, hy⟩)).1]
  have hbound := boundRecipe_of_unit hunit htables
  have hexcludes := excludes_excludeZone (tm := e) hl htin hacc
  have hspent := hexcludes
  obtain ⟨hz, hothers, hrecord, hnone, hremain⟩ := hexcludes
  have hpermit (hp : t.PermitTested (t.excludeZone z e) (pressOf z) e) :
      s.PermitTested (t.excludeZone z e) (pressOf z) e :=
    permitTested_of_eq hp hlost.symm h.fields.1.symm hunit.symm hbound.symm
  have hexcluded : ((t.excludeZone z e).cure (pressOf z)).excluded = (t.cure (pressOf z)).excluded + 1 := by
    by_cases hrem : Remains (t.excludeZone z e) (pressOf z)
    · exact (hremain hrem).2.1
    · rw [(hnone hrem).1]
  refine ⟨fun hidle => ?_, fun _ z' hz' hone => ?_, fun _ hgoes => ⟨?_, fun y => ?_, ?_, fun _ => ⟨?_, fun hrem => ?_,
    fun hno => ?_⟩⟩, fun _ hended => ?_, fun y hy => ?_, within_andZone h, ?_⟩
  · exact absurd haccrues (hidle.resolve_right fun hall => absurd (hall z) (by rw [andZone_self]; decide))
  · have hzz := hone z (andZone_self z F)
    subst hzz
    have hall (y : ZoneNo) : F y = false := by
      refine Bool.eq_false_iff.mpr fun hy => ?_
      rw [hone y (andZone_of hy), hF] at hy
      cases hy
    obtain ⟨hc, hu, ha⟩ := h.kept (.inr hall)
    exact excludes_of_eq hspent hc.symm hu.symm (fun y => (ha y).symm) hbound.symm
  · by_cases hrem : Remains (t.excludeZone z e) (pressOf z)
    · obtain ⟨_, _, _, hpass, hfail⟩ := hremain hrem
      refine (hfail fun hp => ?_).2.trans hunit
      exact absurd ((hpass hp).1.symm.trans hgoes) (by decide)
    · exact (hnone hrem).2.1.trans hunit
  · by_cases hy : y = z
    · subst hy
      rw [hz, andZone_self, if_pos rfl, h.others y hF]
    · rw [hothers y hy, andZone_of_ne hy, haccruals y]
  · rw [hexcluded, hcount, length_filter_andZone (zonesOf_nodup _) (mem_zonesOf.mpr rfl) hF, Nat.add_assoc]
  · rw [hexcluded]
    exact hrecord
  · obtain ⟨h1, _, h3, h4⟩ := hremain hrem
    exact ⟨h3, hpermit h4, h1.trans hlost⟩
  · obtain ⟨h1, _, h3, h4⟩ := hnone hno
    exact ⟨by rw [h1], h3, h4⟩
  · have hrem : Remains (t.excludeZone z e) (pressOf z) := by
      by_contra hno
      rw [(hnone hno).1] at hended
      exact hended hacc
    obtain ⟨_, _, h3, h4⟩ := hremain hrem
    exact ⟨⟨z, andZone_self z F⟩, h3, hpermit h4⟩
  · have hne : y ≠ z := fun he => by
      rw [he, andZone_self] at hy
      cases hy
    rw [hothers y hne]
    exact h.others y (by rwa [andZone_of_ne hne] at hy)
  · obtain ⟨h1, h2⟩ := fields_excludeZone z e t
    obtain ⟨g1, g2⟩ := h.fields
    exact ⟨h1.trans g1, h2.trans g2⟩

end

end Sys2Proof.Proofs.WindowCure
end

