-- ==== Sys2Proof/Proofs/WindowLoop.lean ====
section
/-! PROOFS. The zones of a press at its window end, one after the other (R70). -/

namespace Sys2Proof.Proofs.WindowLoop

set_option Elab.async false

open Sys2Proof.Machine Sys2Proof.Machine.State Sys2Proof.Proofs.CureRules Sys2Proof.Proofs.HeatLaws
  Sys2Proof.Proofs.OtherPresses Sys2Proof.Proofs.OneZone Sys2Proof.Proofs.CloseConditions
  Sys2Proof.Proofs.WindowZones Sys2Proof.Proofs.WindowCure Sys2Proof.Proofs.ZoneRequests
  Sys2Proof.Proofs.CureProgress

variable {s t u x : State} {tm e : Time} {p : PressNo} {y z : ZoneNo} {F : ZoneNo → Bool} {ps : List Part}

/-- A zone INCLUDED in the cure has become LOST. -/
def fell (s t : State) (p : PressNo) (z : ZoneNo) : Bool := decide (pressOf z = p
  ∧ (s.accrual z).inclusion = .included ∧ (s.zone z).state ≠ .lost ∧ (t.zone z).state = .lost)

theorem fell_self (s : State) (p : PressNo) (z : ZoneNo) (h : t.zone z = s.zone z) : fell s t p z = false := by
  refine decide_eq_false fun hf => ?_
  obtain ⟨_, _, hne, hlost⟩ := hf
  exact hne (h ▸ hlost)

/-- A step that touches one zone, which does not become LOST by it, adds none that fell. -/
theorem fell_eq (htouch : ∀ y, y ≠ z → t.zone y = x.zone y) (hx : x.zone z = s.zone z)
    (hz : (t.zone z).state = .lost → (s.zone z).state = .lost ∨ (s.accrual z).inclusion ≠ .included) :
    fell s t p = fell s x p := by
  funext y
  by_cases hy : y = z
  · subst hy
    rw [fell_self s p y hx]
    refine decide_eq_false fun hf => ?_
    obtain ⟨_, hin, hne, hlost⟩ := hf
    exact (hz hlost).elim hne fun hno => hno hin
  · rw [fell, fell, htouch y hy]

theorem fell_eq_andZone (htouch : ∀ y, y ≠ z → t.zone y = x.zone y) (hp : pressOf z = p)
    (hin : (s.accrual z).inclusion = .included) (hne : (s.zone z).state ≠ .lost) (hlost : (t.zone z).state = .lost) :
    fell s t p = andZone z (fell s x p) := by
  funext y
  by_cases hy : y = z
  · subst hy
    rw [andZone_self]
    exact decide_eq_true ⟨hp, hin, hne, hlost⟩
  · rw [andZone_of_ne hy, fell, fell, htouch y hy]

/-! ## One zone's window end and the cure -/

theorem heldState_ne_lost {c : Zone} (h : countRises c = true) : heldState c ≠ .lost := by
  unfold heldState
  cases hs : c.state with
  | lost => simp [countRises, hs] at h
  | disabled | regulating | holding | overtemp => decide

theorem rests_modZone (z : ZoneNo) (f : Zone → Zone) (s : State) (p : PressNo) : Rests p s (s.modZone z f) :=
  rests_of_changes (modZone_changes z f s) p

theorem rests_switchToBackup (hp : pressOf z = p) (tm : Time) (s : State) : Rests p s (s.switchToBackup z tm) := by
  subst hp
  exact ((rests_modZone z _ s _).trans (rests_raise tm .sensorSwitch (.zone z) _ _)).trans (rests_setFlag _ _ _)

theorem live_modZone (z : ZoneNo) (f : Zone → Zone) (s : State) : (s.modZone z f).live = s.live := rfl

/-- A zone's loss: the zones that fell, and the cure. -/
theorem cureEnded_loseZone (h : CureEnded s x p e (fell s x p)) (hp : pressOf z = p) (hl : x.live = true)
    (htables : x.tables = s.tables) (hz : fell s x p z = false) (hin : (s.accrual z).inclusion = .included) :
    CureEnded s (x.loseZone z e) p e (andZone z (fell s x p)) := by
  subst hp
  let w := raise e .zoneLost (.zone z) (x.modZone z fun c => { c with state := .lost, staged := 0 })
  have hw : OnlyChanges (.zones :: raiseParts) x w := raise_only _ _ _ (by decide)
    ((modZone_changes z _ x).mono (by decide))
  have hrests : Rests (pressOf z) x w := (rests_modZone z _ x _).trans (rests_raise _ _ _ _ _)
  have hended := h.rests hrests
  by_cases hacc : (w.cure (pressOf z)).status = .accruing
  · exact hended.exclude hz ((live_of_changes hw).trans hl) ((hw .tables (by decide)).symm.trans htables) hin hacc
  · have hno := hended.andZone_of_not_accruing hz hacc
    rw [loseZone, excludeZone_of_not (s := w) fun hb => hacc hb.2]
    exact hno

/-- The loss of a zone that is not in the cure. -/
theorem rests_loseZone (hno : (x.accrual z).inclusion ≠ .included) :
    Rests p x (x.loseZone z e) := by
  let w := raise e .zoneLost (.zone z) (x.modZone z fun c => { c with state := .lost, staged := 0 })
  have hw : OnlyChanges (.zones :: raiseParts) x w := raise_only _ _ _ (by decide)
    ((modZone_changes z _ x).mono (by decide))
  rw [loseZone, excludeZone_of_not (s := w) fun hb => hno ((accrual_of_changes hw z) ▸ hb.1)]
  exact (rests_modZone z _ x _).trans (rests_raise _ _ _ _ _)

/-- One zone's window end. -/
theorem cureEnded_zoneWindowEnd (h : CureEnded s x p e (fell s x p)) (hx : x.zone z = s.zone z) (hp : pressOf z = p)
    (hd : (s.zone z).state ≠ .disabled) (hl : x.live = true) (htables : x.tables = s.tables) :
    CureEnded s (x.zoneWindowEnd e z) p e (fell s (x.zoneWindowEnd e z) p) := by
  have htouch (y : ZoneNo) (hy : y ≠ z) : (x.zoneWindowEnd e z).zone y = x.zone y :=
    ((touches_zoneWindowEnd e z x).1 y hy).1
  have hz : fell s x p z = false := fell_self s p z hx
  have hd' : (x.zone z).state ≠ .disabled := hx ▸ hd
  have hcount := rests_modZone z holdCounted x p
  by_cases hr : countRises (x.zone z) = true
  · by_cases hok : x.backupEligible z e = true
    · by_cases hdue : (x.pressEntry (pressOf z)).holdLimit ≤ min 15 ((x.zone z).holdCount + 1) ∨ PrimaryBad (x.zone z)
      · have hrests : Rests p x (x.zoneWindowEnd e z) := by
          rw [zoneWindowEnd_of_switch hr hdue hok]
          exact ((hcount.trans (rests_modZone z _ _ p)).trans (rests_switchToBackup hp e _)).trans
            (rests_modZone z _ _ p)
        rw [fell_eq htouch hx fun hlost => ?_]
        · exact h.rests hrests
        · rw [zone_of_switch hr hdue hok] at hlost
          exact absurd hlost (heldState_ne_lost hr)
      · obtain ⟨hlimit, hgood⟩ := not_or.mp hdue
        have hlimit' := Nat.not_le.mp hlimit
        have hno : ¬(PrimaryBad (x.zone z) ∧ x.backupEligible z e = true) := fun hb => hgood hb.1
        rw [fell_eq htouch hx fun hlost => ?_]
        · rw [zoneWindowEnd_of_held hr hlimit' hno]
          exact h.rests (hcount.trans (rests_modZone z _ _ p))
        · rw [zone_of_held hr hlimit' hno] at hlost
          exact absurd hlost (heldState_ne_lost hr)
    · by_cases hlimit : (x.pressEntry (pressOf z)).holdLimit ≤ min 15 ((x.zone z).holdCount + 1)
      · have hne : (s.zone z).state ≠ .lost := hx ▸ ((countRises_iff hd').mp hr).2.2
        have hlost : ((x.zoneWindowEnd e z).zone z).state = .lost := by rw [zone_of_lose hr hlimit hok]
        have hcounted : fell s (x.modZone z holdCounted) p = fell s x p :=
          fell_eq (fun y hy => zone_modZone_of_ne z _ x hy) hx fun hl' => by
            rw [zone_holdCounted hr] at hl'
            exact absurd hl' (heldState_ne_lost hr)
        have hended : CureEnded s (x.modZone z holdCounted) p e (fell s (x.modZone z holdCounted) p) :=
          hcounted ▸ h.rests hcount
        by_cases hin : (s.accrual z).inclusion = .included
        · rw [fell_eq_andZone htouch hp hin hne hlost, zoneWindowEnd_of_lose hr hlimit hok, ← hcounted]
          exact (cureEnded_loseZone hended hp hl htables (hcounted ▸ hz) hin).rests (rests_modZone z _ _ p)
        · rw [fell_eq htouch hx fun _ => .inr hin, zoneWindowEnd_of_lose hr hlimit hok]
          refine h.rests ((hcount.trans (rests_loseZone ?_)).trans (rests_modZone z _ _ p))
          rw [accrual_of_changes (modZone_changes z _ x), h.others z hz]
          exact hin
      · have hlimit' := Nat.not_le.mp hlimit
        have hno : ¬(PrimaryBad (x.zone z) ∧ x.backupEligible z e = true) := fun hb => hok hb.2
        rw [fell_eq htouch hx fun hlost => ?_]
        · rw [zoneWindowEnd_of_held hr hlimit' hno]
          exact h.rests (hcount.trans (rests_modZone z _ _ p))
        · rw [zone_of_held hr hlimit' hno] at hlost
          exact absurd hlost (heldState_ne_lost hr)
  · rw [fell_eq htouch hx fun hlost => ?_]
    · rw [zoneWindowEnd_of_not_rises hr]
      exact h.rests (hcount.trans (rests_modZone z _ _ p))
    · rw [zone_of_not_rises hd' hr] at hlost
      exact .inl (hx ▸ hlost)

/-! ## The loop over the enabled zones -/

theorem zoneWindowEnd_changes' (tm : Time) (z : ZoneNo) (s : State) :
    OnlyChanges (.zones :: cureParts) s (s.zoneWindowEnd tm z) := by
  unfold zoneWindowEnd holdCounting
  refine .before (.doIf _ (fun x => ?_) ((modZone_changes z _ s).mono (by decide))) (by decide) (modZone_changes z _ _)
  unfold failoverOrLose
  repeat' split
  · exact (modZone_changes z _ x).mono (by decide) |>.before (by decide) (switchToBackup_changes z tm _)
  · exact loseZone_changes z tm x
  · exact .refl x

theorem each_zoneWindowEnd_changes (tm : Time) (l : List ZoneNo) (s : State) :
    OnlyChanges (.zones :: cureParts) s (each (zoneWindowEnd tm) l s) :=
  .each (f := zoneWindowEnd tm) (zoneWindowEnd_changes' tm) l (.refl s)

theorem cureEnded_each (e : Time) {l : List ZoneNo} (hl : l.Nodup)
    (hzones : ∀ z ∈ l, pressOf z = p ∧ (s.zone z).state ≠ .disabled ∧ x.zone z = s.zone z)
    (h : CureEnded s x p e (fell s x p)) (hlive : x.live = true) (htables : x.tables = s.tables) :
    CureEnded s (each (zoneWindowEnd e) l x) p e (fell s (each (zoneWindowEnd e) l x) p) := by
  induction l generalizing x with
  | nil => exact h
  | cons z l ih =>
    obtain ⟨hz, hl⟩ := List.nodup_cons.mp hl
    obtain ⟨hp, hd, hx⟩ := hzones z List.mem_cons_self
    have hstep := zoneWindowEnd_changes' e z x
    rw [each_cons]
    refine ih hl (fun y hy => ?_) (cureEnded_zoneWindowEnd h hx hp hd hlive htables)
      ((live_of_changes hstep).trans hlive) ((hstep .tables (by decide)).symm.trans htables)
    obtain ⟨hyp, hyd, hyx⟩ := hzones y (List.mem_cons_of_mem _ hy)
    have hne : y ≠ z := fun he => hz (he ▸ hy)
    exact ⟨hyp, hyd, (((touches_zoneWindowEnd e z x).1 y hne).1).trans hyx⟩

/-- The loop leaves the zones that are not in it. -/
theorem zone_each_of_not_mem {l : List ZoneNo} (hz : z ∉ l) (e : Time) (s : State) :
    (each (zoneWindowEnd e) l s).zone z = s.zone z := by
  induction l generalizing s with
  | nil => rfl
  | cons y l ih =>
    rw [List.mem_cons, not_or] at hz
    obtain ⟨hne, hl⟩ := hz
    rw [each_cons, ih hl]
    exact ((touches_zoneWindowEnd e y s).1 z hne).1

/-- A zone of the loop has its window end in a state that still holds what it held. -/
theorem zone_each_of_mem {l : List ZoneNo} (hl : l.Nodup) (hz : z ∈ l) (e : Time) (s : State) :
    ∃ x, OnlyChanges (.zones :: cureParts) s x ∧ x.zone z = s.zone z
      ∧ (each (zoneWindowEnd e) l s).zone z = (x.zoneWindowEnd e z).zone z
      ∧ ∀ j : Fin 25, (x.zoneWindowEnd e z).events[j].raw = true →
        (each (zoneWindowEnd e) l s).events[j].raw = true := by
  obtain ⟨a, b, rfl⟩ := List.append_of_mem hz
  obtain ⟨_, hright, hdisjoint⟩ := List.nodup_append.mp hl
  refine ⟨each (zoneWindowEnd e) a s, each_zoneWindowEnd_changes e a s,
    zone_each_of_not_mem (fun ha => hdisjoint z ha z List.mem_cons_self rfl) e s, ?_, fun j hj => ?_⟩
  · rw [each_append, each_cons, zone_each_of_not_mem (List.nodup_cons.mp hright).1]
  · rw [each_append, each_cons]
    exact each_invariant (zoneWindowEnd e) (fun x => x.events[j].raw = true)
      (fun y x hx => (touches_zoneWindowEnd e y x).2.2.1 j hx) b _ hj

end Sys2Proof.Proofs.WindowLoop
end

