-- ==== Sys2Proof/Proofs/HeatFrames.lean ====
section
/-! PROOFS. The HEAT frames of a window end (R76, R77, R80). `SentUpTo` says what the frames of some nodes, in their
order, have left; one node more extends it by one frame, which finds a place or is lost. -/

namespace Sys2Proof.Proofs.HeatFrames

set_option Elab.async false

open Sys2Proof.Machine Sys2Proof.Machine.State Sys2Proof.Proofs.CureRules Sys2Proof.Proofs.HeatLaws
  Sys2Proof.Proofs.OtherPresses Sys2Proof.Proofs.CloseConditions Sys2Proof.Proofs.WindowCure
  Sys2Proof.Proofs.ZoneRequests Sys2Proof.Proofs.WindowLoop

variable {s t x : State} {p : PressNo} {z : ZoneNo} {U l : List Nat} {n : Nat}

/-! ## Off commands that a placed frame carries (R76, R80) -/

theorem zone_each_modZone (f : Zone → Zone) {l : List ZoneNo} (hl : l.Nodup) (z : ZoneNo) (s : State) :
    (each (fun z x => x.modZone z f) l s).zone z = if z ∈ l then f (s.zone z) else s.zone z := by
  induction l generalizing s with
  | nil => rfl
  | cons y l ih =>
    obtain ⟨hy, hl⟩ := List.nodup_cons.mp hl
    rw [each_cons, ih hl]
    by_cases hz : z = y
    · subst hz
      rw [if_neg hy, if_pos List.mem_cons_self, zone_modZone]
    · rw [zone_modZone_of_ne y f s hz]
      simp [hz]

/-- A zone without the off commands for an output. -/
def withoutOutput (node output : Nat) (c : Zone) : Zone :=
  { c with offs := c.offs.filter fun o => !(o.node == node && o.output == output) }

theorem zone_clearOutput (node output : Nat) (z : ZoneNo) (s : State) :
    (each (clearOffsFor node output) (List.finRange 48) s).zone z = withoutOutput node output (s.zone z) := by
  have h := zone_each_modZone (withoutOutput node output) (List.nodup_finRange 48) z s
  rw [if_pos (List.mem_finRange z)] at h
  exact h

/-- An off command of an output that one of the entries carries. -/
def carriedBy (node : Nat) (entries : List (Nat × ZoneNo)) (o : OffCommand) : Bool :=
  entries.any fun e => o.node == node && o.output == e.1

theorem zone_clearCarried (node : Nat) (entries : List (Nat × ZoneNo)) (z : ZoneNo) (s : State) :
    (s.clearCarried node entries).zone z =
      { s.zone z with offs := (s.zone z).offs.filter fun o => !carriedBy node entries o } := by
  induction entries generalizing s with
  | nil =>
    have hall : (s.zone z).offs.filter (fun o => !carriedBy node [] o) = (s.zone z).offs :=
      List.filter_eq_self.mpr fun _ _ => rfl
    rw [hall]
    rfl
  | cons e entries ih =>
    have hstep : s.clearCarried node (e :: entries) =
        (each (clearOffsFor node e.1) (List.finRange 48) s).clearCarried node entries := rfl
    rw [hstep, ih, zone_clearOutput, withoutOutput, List.filter_filter]
    refine congrArg (fun offs => { s.zone z with offs := offs }) (List.filter_congr fun o _ => ?_)
    simp only [carriedBy, List.any_cons, Bool.not_or, Bool.and_comm]

/-! ## One node's frame -/

/-- The frame of a node (R76). -/
def nodeFrame (s : State) (p : PressNo) (n : Nat) : OwnFrame :=
  { dst := n, src := s.ownAddress, kind := .heat, mark := .plain, payload := s.heatPayload (s.heatEntries p n) }

/-- The off commands that the frames of some nodes carry. -/
def carried (s : State) (p : PressNo) (ns : List Nat) (o : OffCommand) : Bool :=
  ns.any fun n => carriedBy n (s.heatEntries p n) o

/-- The nodes whose frames find a place. -/
def sentOf (s : State) (U : List Nat) : List Nat := U.take (16 - s.portD.own.length)

/-- What the frames of the nodes `U`, in their order, have left. -/
structure SentUpTo (s : State) (p : PressNo) (U : List Nat) (x : State) : Prop where
  portD : x.portD = { s.portD with
    ownDrops := if U.length - (sentOf s U).length = 0 then s.portD.ownDrops
      else min (s.portD.ownDrops + (U.length - (sentOf s U).length)) 65535
    own := s.portD.own ++ (sentOf s U).map (nodeFrame s p) }
  window : x.window p = { s.window p with placed := (sentOf s U).length, lost := U.length - (sentOf s U).length }
  windows : ∀ q, q ≠ p → x.window q = s.window q
  zone : ∀ z, x.zone z = { s.zone z with offs := (s.zone z).offs.filter fun o => !carried s p (sentOf s U) o }
  raw : 0 < U.length - (sentOf s U).length → (x.events[1]).raw = true
  rests : Rests p s x
  changes : OnlyChanges (.zones :: .windows :: netParts) s x

theorem SentUpTo.nil (hw : (s.window p).placed = 0 ∧ (s.window p).lost = 0) : SentUpTo s p [] s where
  portD := by simp [sentOf]
  window := by
    obtain ⟨h1, h2⟩ := hw
    cases hc : s.window p with
    | mk running start period lastEnd placed lost =>
      rw [hc] at h1 h2
      cases h1
      cases h2
      simp [sentOf]
  windows _ _ := rfl
  zone z := by simp [sentOf, carried]
  raw h := absurd h (by simp)
  rests := .refl p s
  changes := .refl s

section

variable (h : SentUpTo s p U x)
include h

theorem SentUpTo.enabled (z : ZoneNo) : x.enabled z = s.enabled z := by
  rw [State.enabled, State.enabled, h.zone z]

theorem SentUpTo.heatEntries (n : Nat) : x.heatEntries p n = s.heatEntries p n := by
  have henabled : x.enabledZones p = s.enabledZones p := List.filter_congr fun z _ => h.enabled z
  have hentry (z : ZoneNo) : x.zoneEntry z = s.zoneEntry z := zoneEntry_of_changes h.changes z
  simp only [State.heatEntries, State.zoneDriving, henabled, hentry]

theorem SentUpTo.nodeFrame (n : Nat) : nodeFrame x p n = nodeFrame s p n := by
  have hown : x.ownAddress = s.ownAddress := by
    rw [State.ownAddress, State.ownAddress, ← show s.mode = x.mode from h.changes .mode (by decide)]
  have hcommitted (z : ZoneNo) : (x.zone z).committed = (s.zone z).committed := by rw [h.zone z]
  simp only [HeatFrames.nodeFrame, h.heatEntries n, hown, State.heatPayload, hcommitted]

theorem SentUpTo.length_own : x.portD.own.length = s.portD.own.length + (sentOf s U).length := by
  rw [h.portD]
  simp

/-- A node with no entry sends no frame. -/
theorem SentUpTo.skip (hn : s.heatEntries p n = []) : x.sendNodeHeat p n = x := by
  rw [sendNodeHeat, h.heatEntries n]
  exact if_pos hn

/-- The frame of one node more finds a place. -/
theorem SentUpTo.place (hl : s.live = true) (hn : s.heatEntries p n ≠ []) (hroom : s.portD.own.length + U.length < 16) :
    SentUpTo s p (U ++ [n]) (x.sendNodeHeat p n) := by
  have hsent : sentOf s U = U := List.take_of_length_le (by omega)
  have hsent' : sentOf s (U ++ [n]) = U ++ [n] := List.take_of_length_le (by simp; omega)
  have hlive : x.live = true := (live_of_changes h.changes).trans hl
  have hlen : x.portD.own.length < 16 := by rw [h.length_own, hsent]; exact hroom
  let y := (x.modPort .D fun d => { d with own := d.own ++ [HeatFrames.nodeFrame s p n] }).modWindow p fun w =>
    { w with placed := w.placed + 1 }
  have hsend : x.sendNodeHeat p n = y.clearCarried n (s.heatEntries p n) := by
    have hframe : originate .D n .heat (x.heatPayload (x.heatEntries p n)) .plain x =
        x.modPort .D fun d => { d with own := d.own ++ [HeatFrames.nodeFrame s p n] } := by
      rw [originate_of_room hlive .D (show _ < Config.ownPlaces from hlen), ← h.nodeFrame n]
      rfl
    have hfree : x.freePlaceD = true := decide_eq_true hlen
    rw [sendNodeHeat, hframe, h.heatEntries n, if_neg hn, if_pos hfree]
  have hy : OnlyChanges [.portU, .portD, .windows] x y :=
    modWindow_only p _ (by decide) ((modPort_changes .D _ x).mono (by decide))
  have hclear := clearCarried_changes n (s.heatEntries p n) y
  rw [hsend]
  refine ⟨?_, ?_, fun q hq => ?_, fun z => ?_, fun hlost => ?_, ?_, ?_⟩
  · rw [← show y.portD = _ from hclear .portD (by decide), hsent', show y.portD = { x.portD with
      own := x.portD.own ++ [HeatFrames.nodeFrame s p n] } from rfl, h.portD, hsent]
    simp
  · rw [window_of_changes hclear, hsent', show y.window p = { x.window p with placed := (x.window p).placed + 1 } from
      window_modWindow p _ _, h.window, hsent]
    simp
  · rw [window_of_changes hclear, show y.window q = x.window q from window_modWindow_of_ne p _ _ hq, h.windows q hq]
  · rw [zone_clearCarried, show y.zone z = x.zone z from rfl, h.zone z, hsent, hsent', List.filter_filter]
    refine congrArg (fun offs => { s.zone z with offs := offs }) (List.filter_congr fun o _ => ?_)
    simp only [carried, List.any_append, List.any_cons, List.any_nil, Bool.or_false, Bool.not_or, Bool.and_comm]
  · rw [hsent'] at hlost
    omega
  · exact (h.rests.trans (rests_of_changes hy p)).trans (rests_of_changes hclear p)
  · exact hsend ▸ h.changes.trans (sendNodeHeat_changes p n x)

/-- The frame of one node more finds no place. -/
theorem SentUpTo.lose (hl : s.live = true) (hn : s.heatEntries p n ≠ [])
    (hfull : ¬s.portD.own.length + U.length < 16) : SentUpTo s p (U ++ [n]) (x.sendNodeHeat p n) := by
  have hsent : sentOf s (U ++ [n]) = sentOf s U := List.take_append_of_le_length (by omega)
  have hcount : (sentOf s U).length = min (16 - s.portD.own.length) U.length := List.length_take
  have hlen : ¬x.portD.own.length < 16 := by rw [h.length_own, hcount]; omega
  have hlive : x.live = true := (live_of_changes h.changes).trans hl
  let y := x.countOwnDrop .D
  have hsend : x.sendNodeHeat p n = (y.raiseNow .linkDrop (.port .D)).modWindow p fun w =>
      { w with lost := w.lost + 1 } := by
    have hfree : ¬x.freePlaceD = true := fun hf => hlen (of_decide_eq_true hf)
    rw [sendNodeHeat, originate_of_full hlive .D (show ¬_ < Config.ownPlaces from hlen), h.heatEntries n, if_neg hn,
      if_neg hfree]
  have hy : OnlyChanges [.portU, .portD] x y := modPort_changes .D _ x
  have hraise : OnlyChanges raiseParts y (y.raiseNow .linkDrop (.port .D)) := raise_changes _ _ _ y
  have hall : OnlyChanges (.portD :: .windows :: raiseParts) x (x.sendNodeHeat p n) := by
    rw [hsend]
    exact modWindow_only p _ (by decide) ((hy.mono (by decide)).trans (hraise.mono (by decide)))
  have hlost : U.length - (sentOf s U).length + 1 = (U ++ [n]).length - (sentOf s (U ++ [n])).length := by
    rw [hsent, List.length_append, List.length_singleton]
    omega
  refine ⟨?_, ?_, fun q hq => ?_, fun z => ?_, fun _ => ?_, ?_, ?_⟩
  · have hport : (x.sendNodeHeat p n).portD = { x.portD with ownDrops := min (x.portD.ownDrops + 1) 65535 } := by
      rw [hsend]
      exact (hraise .portD (by decide)).symm
    have hdrops : min ((if U.length - (sentOf s U).length = 0 then s.portD.ownDrops
        else min (s.portD.ownDrops + (U.length - (sentOf s U).length)) 65535) + 1) 65535 =
          min (s.portD.ownDrops + (U.length - (sentOf s U).length + 1)) 65535 := by
      split <;> omega
    rw [hport, h.portD, ← hlost, hsent, if_neg (Nat.succ_ne_zero _), ← hdrops]
  · rw [hsend, window_modWindow, window_of_changes hraise, show y.window p = x.window p from rfl, h.window,
      ← hlost, hsent]
  · rw [hsend, window_modWindow_of_ne p _ _ hq, window_of_changes hraise, show y.window q = x.window q from rfl,
      h.windows q hq]
  · rw [zone_of_changes hall z (by decide), h.zone z, hsent]
  · rw [hsend]
    exact raw_of_changes (modWindow_changes p _ _) (raw_raise_self (s := y) hlive _ .linkDrop _)
  · rw [hsend]
    exact ((h.rests.trans (rests_of_changes hy p)).trans (rests_raise _ _ _ y p)).trans
      (rests_of_changes (modWindow_changes p _ _) p)
  · exact h.changes.trans (sendNodeHeat_changes p n x)

/-- One node more. -/
theorem SentUpTo.step (hl : s.live = true) (hn : s.heatEntries p n ≠ []) :
    SentUpTo s p (U ++ [n]) (x.sendNodeHeat p n) := by
  by_cases hroom : s.portD.own.length + U.length < 16
  · exact h.place hl hn hroom
  · exact h.lose hl hn hroom

/-- The nodes of a press that have an entry, of a list of nodes. -/
theorem SentUpTo.each (hl : s.live = true) (l : List Nat) :
    SentUpTo s p (U ++ l.filter fun n => decide (s.heatEntries p n ≠ [])) (each (State.sendNodeHeat p) l x) := by
  induction l generalizing U x with
  | nil => rwa [List.filter_nil, List.append_nil, each_nil]
  | cons n l ih =>
    rw [each_cons]
    by_cases hn : s.heatEntries p n = []
    · rw [h.skip hn, List.filter_cons_of_neg (by simpa using hn)]
      exact ih h
    · rw [List.filter_cons_of_pos (by simpa using hn), List.append_cons]
      exact ih (h.step hl hn)

end

/-- The heater nodes of a press with an enabled zone, in ascending order (R76). -/
def nodesInUse (s : State) (p : PressNo) : List Nat := (List.range 64).filter fun n => decide (s.heatEntries p n ≠ [])

/-- The HEAT frames of a window end. -/
theorem sentUpTo_sendHeatFrames (hl : s.live = true) :
    let w := s.modWindow p fun w => { w with placed := 0, lost := 0 }
    SentUpTo w p (nodesInUse s p) (s.sendHeatFrames p) := by
  intro w
  have hcounts : (w.window p).placed = 0 ∧ (w.window p).lost = 0 := by
    rw [window_modWindow]
    exact ⟨rfl, rfl⟩
  exact (SentUpTo.nil hcounts).each hl (List.range 64)

end Sys2Proof.Proofs.HeatFrames
end

