-- ==== Sys2Proof/Proofs/WindowPoints.lean ====
section
/-! PROOFS. The profile point of a press that cures at its window end (R172, R173). The OPEN record keeps its profile
buffer through the whole window end. -/

namespace Sys2Proof.Proofs.WindowPoints

set_option Elab.async false

open Sys2Proof.Machine Sys2Proof.Machine.State Sys2Proof.Proofs.StepRules Sys2Proof.Proofs.CureRules
  Sys2Proof.Proofs.HeatLaws Sys2Proof.Proofs.CloseConditions Sys2Proof.Proofs.Events Sys2Proof.Proofs.WindowCure
  Sys2Proof.Proofs.WindowZones Sys2Proof.Proofs.WindowLoop

variable {s t u : State} {tm : Time} {p : PressNo} {z : ZoneNo} {ps : List Part}

/-! ## The buffer of the OPEN record -/

/-- The profile buffer of a press's OPEN record. -/
def openBuffer (s : State) (p : PressNo) : Option (Fin 2) := (s.openRecord p).bind (·.profileBuffer)

theorem openBuffer_of_changes (h : OnlyChanges ps s t) (p : PressNo) (hps : Part.history ∉ ps := by decide) :
    openBuffer t p = openBuffer s p := by
  rw [openBuffer, openBuffer, openRecord_of_history (h .history hps)]

/-- A write of any press's OPEN record that leaves the buffer. -/
theorem openBuffer_modRecord (q : PressNo) (g : Record → Record) (s : State) (p : PressNo)
    (hg : ∀ r, (g r).profileBuffer = r.profileBuffer) : openBuffer (s.modRecord q g) p = openBuffer s p := by
  unfold openBuffer State.openRecord
  rw [modRecord_history_openRecord, Option.bind_assoc, Option.bind_assoc]
  refine congrArg _ (funext fun j => ?_)
  rw [slots_modRecord]
  split
  · rw [Option.bind_map]
    exact congrArg _ (funext hg)
  · rfl

theorem openBuffer_setFlag (q : PressNo) (f : RecordFlag) (s : State) (p : PressNo) :
    openBuffer (s.setFlag q f) p = openBuffer s p := openBuffer_modRecord q _ s p fun _ => rfl

theorem openBuffer_raiseEntry (tm : Time) (k : EventKind) (i : EventOn) (s : State) (p : PressNo) :
    openBuffer (s.raiseEntry tm k i) p = openBuffer s p := by
  have hnote (n : Note) (r : Record) : (addNote n r).profileBuffer = r.profileBuffer := by
    rw [addNote_only n r]
  exact each_rule (Q := fun x => openBuffer x p = openBuffer s p)
    (fun q {_} h => (openBuffer_modRecord q _ _ p (hnote _)).trans h) _ rfl

theorem openBuffer_raise (tm : Time) (k : EventKind) (i : EventOn) (s : State) (p : PressNo) :
    openBuffer (s.raise tm k i) p = openBuffer s p := by
  unfold raise
  split
  · refine Eq.trans ?_ (openBuffer_raiseEntry tm k i s p)
    unfold evalAttention
    repeat' split
    · rfl
    · rfl
    · unfold sendEvent
      split
      · rfl
      · exact openBuffer_raiseEntry _ _ _ _ p
    · rfl
  · rfl

/-! ## The steps of a window end -/

theorem openBuffer_endCure (q : PressNo) (tm : Time) (s : State) (p : PressNo) :
    openBuffer (s.endCure q tm) p = openBuffer s p := by
  rw [endCure, openBuffer_modRecord, openBuffer_of_changes (modCure_changes q _ s) p]
  intro r
  rfl

theorem openBuffer_permitTest (q : PressNo) (tm : Time) (s : State) (p : PressNo) :
    openBuffer (s.permitTest q tm) p = openBuffer s p := by
  unfold permitTest
  split
  · rw [openBuffer_of_changes (modUnit_changes q _ _) p, openBuffer_endCure, openBuffer_raise,
      openBuffer_of_changes (modCure_changes q _ _) p]
  · rfl

theorem openBuffer_excludeZone (z : ZoneNo) (tm : Time) (s : State) (p : PressNo) :
    openBuffer (s.excludeZone z tm) p = openBuffer s p := by
  have hcounted : openBuffer (counted z s) p = openBuffer s p :=
    (openBuffer_of_changes (modCure_changes _ _ _) p).trans (openBuffer_of_changes (modAccrual_changes z _ s) p)
  have hexcluded : openBuffer (excluded z s) p = openBuffer s p := by
    rw [excluded, openBuffer_modRecord, hcounted]
    intro r
    rfl
  by_cases h : (s.accrual z).inclusion = .included ∧ (s.cure (pressOf z)).status = .accruing
  · rw [excludeZone_of_included h.1 h.2]
    split
    · rw [loseCure, openBuffer_setFlag, openBuffer_raise, openBuffer_of_changes (modCure_changes _ _ _) p, hexcluded]
    · rw [openBuffer_permitTest, openBuffer_of_changes (recomputeProgress_changes _ _) p, hexcluded]
  · rw [excludeZone_of_not h]

theorem openBuffer_failoverOrLose (z : ZoneNo) (tm : Time) (s : State) (p : PressNo) :
    openBuffer (s.failoverOrLose z tm) p = openBuffer s p := by
  unfold failoverOrLose
  repeat' split
  · rw [switchToBackup, raiseSwitch, openBuffer_setFlag, openBuffer_raise,
      openBuffer_of_changes (modZone_changes z _ _) p,
      openBuffer_of_changes (modZone_changes z _ _) p]
  · rw [loseZone, openBuffer_excludeZone, openBuffer_raise, openBuffer_of_changes (modZone_changes z _ _) p]
  · rfl

theorem openBuffer_zoneWindowEnd (tm : Time) (z : ZoneNo) (s : State) (p : PressNo) :
    openBuffer (s.zoneWindowEnd tm z) p = openBuffer s p := by
  rw [zoneWindowEnd, commitAndRamp, openBuffer_of_changes (modZone_changes z _ _) p]
  exact doIf_rule (Q := fun x => openBuffer x p = openBuffer s p) (Q' := fun x => openBuffer x p = openBuffer s p)
    (fun h _ => (openBuffer_failoverOrLose z tm _ p).trans h) id (openBuffer_of_changes (modZone_changes z _ s) p)

theorem openBuffer_sendNodeHeat (q : PressNo) (n : Nat) (s : State) (p : PressNo) :
    openBuffer (s.sendNodeHeat q n) p = openBuffer s p := by
  have horiginate (k : FrameKind) (b : List Byte) (m : Mark) :
      openBuffer (s.originate .D n k b m) p = openBuffer s p := by
    unfold originate
    repeat' split
    · exact openBuffer_of_changes (modPort_changes _ _ _) p
    · exact (openBuffer_raise _ _ _ _ p).trans (openBuffer_of_changes (modPort_changes _ _ _) p)
    · rfl
  unfold sendNodeHeat
  dsimp only
  repeat' split
  · rfl
  · rw [openBuffer_of_changes (clearCarried_changes _ _ _) p, openBuffer_of_changes (modWindow_changes _ _ _) p,
      horiginate]
  · rw [openBuffer_of_changes (modWindow_changes _ _ _) p, horiginate]

theorem openBuffer_sendHeatFrames (q : PressNo) (s : State) (p : PressNo) :
    openBuffer (s.sendHeatFrames q) p = openBuffer s p :=
  each_rule (Q := fun x => openBuffer x p = openBuffer s p)
    (fun n {x} h => (openBuffer_sendNodeHeat q n x p).trans h) _ (openBuffer_of_changes (modWindow_changes q _ s) p)

theorem openBuffer_each_zoneWindowEnd (tm : Time) (l : List ZoneNo) (s : State) (p : PressNo) :
    openBuffer (each (zoneWindowEnd tm) l s) p = openBuffer s p :=
  each_rule (Q := fun x => openBuffer x p = openBuffer s p)
    (fun z {x} h => (openBuffer_zoneWindowEnd tm z x p).trans h) _ rfl

/-! ## The point -/

theorem foldl_min_le (l : List Int) (m : Int) : l.foldl min m ≤ m ∧ (∀ x ∈ l, l.foldl min m ≤ x)
    ∧ (l.foldl min m = m ∨ l.foldl min m ∈ l) := by
  induction l generalizing m with
  | nil => exact ⟨le_rfl, nofun, .inl rfl⟩
  | cons y l ih =>
    obtain ⟨hle, hall, hmem⟩ := ih (min m y)
    rw [List.foldl_cons]
    refine ⟨hle.trans (min_le_left m y), fun x hx => ?_, ?_⟩
    · rcases List.mem_cons.mp hx with rfl | hx
      · exact hle.trans (min_le_right m x)
      · exact hall x hx
    · rcases hmem with hmem | hmem
      · rcases min_choice m y with hc | hc
        · exact .inl (hmem.trans hc)
        · exact .inr (List.mem_cons.mpr (.inl (hmem.trans hc)))
      · exact .inr (List.mem_cons_of_mem _ hmem)

theorem le_foldl_max (l : List Int) (m : Int) : m ≤ l.foldl max m ∧ (∀ x ∈ l, x ≤ l.foldl max m)
    ∧ (l.foldl max m = m ∨ l.foldl max m ∈ l) := by
  induction l generalizing m with
  | nil => exact ⟨le_rfl, nofun, .inl rfl⟩
  | cons y l ih =>
    obtain ⟨hle, hall, hmem⟩ := ih (max m y)
    rw [List.foldl_cons]
    refine ⟨(le_max_left m y).trans hle, fun x hx => ?_, ?_⟩
    · rcases List.mem_cons.mp hx with rfl | hx
      · exact (le_max_right m x).trans hle
      · exact hall x hx
    · rcases hmem with hmem | hmem
      · rcases max_choice m y with hc | hc
        · exact .inl (hmem.trans hc)
        · exact .inr (List.mem_cons.mpr (.inl (hmem.trans hc)))
      · exact .inr (List.mem_cons_of_mem _ hmem)

theorem mem_includedTemps {m : Int} : m ∈ s.includedTemps p ↔
    ∃ z, pressOf z = p ∧ (s.accrual z).inclusion = .included ∧ (s.zone z).measured = some m := by
  simp only [includedTemps, List.mem_filterMap, List.mem_filter, mem_zonesOf, beq_iff_eq, and_assoc]

/-- The point takes the extremes of the INCLUDED zones' temperatures. -/
theorem pointTemps_extremes (s : State) (p : PressNo) : s.PointTemps p (extremes (s.includedTemps p)) := by
  have hmem {m : Int} := mem_includedTemps (s := s) (p := p) (m := m)
  cases hl : s.includedTemps p with
  | nil =>
    intro z m hz
    exact absurd (hmem.mpr ⟨z, hz⟩) (hl ▸ List.not_mem_nil)
  | cons m l =>
    rw [hl] at hmem
    obtain ⟨hle, hall, hin⟩ := foldl_min_le l m
    obtain ⟨gle, gall, gin⟩ := le_foldl_max l m
    refine ⟨hmem.mp (List.mem_cons.mpr hin), hmem.mp (List.mem_cons.mpr gin), fun z x hx => ?_⟩
    rcases List.mem_cons.mp (hmem.mpr ⟨z, hx⟩) with rfl | hx
    · exact ⟨hle, gle⟩
    · exact ⟨hall x hx, gall x hx⟩

theorem pointTemps_of_eq {temps : Option (Int × Int)} (h : s.PointTemps p temps)
    (haccrual : ∀ z, t.accrual z = s.accrual z) (hzone : ∀ z, t.zone z = s.zone z) : t.PointTemps p temps := by
  unfold State.PointTemps
  simp only [haccrual, hzone]
  exact h

theorem rests_takePoint (b : Fin 2) (offset interval : Nat) (s : State) (p : PressNo) :
    Rests p s (s.takePoint p b offset interval) := by
  unfold takePoint
  dsimp only
  have hpoint := rests_of_changes (modProfile_changes p b (addPoint (s.pointAt p offset)
    ((offset / interval + 1) * interval)) s) p
  split
  · exact hpoint
  · exact hpoint.trans (rests_setFlag p _ _)

theorem rests_windowEndHistory (p : PressNo) (tm : Time) (s : State) : Rests p s (s.windowEndHistory p tm) := by
  unfold windowEndHistory
  repeat' split
  · exact rests_takePoint _ _ _ s p
  · exact .refl p s
  · exact .refl p s

section

variable {b : Fin 2} {entry : Time} {recipe : Recipe} (hb : openBuffer s p = some b)
  (he : (s.cure p).entryTime = some entry) (hrecipe : s.boundRecipe p = some recipe)
include hb he hrecipe

theorem windowEndHistory_of_early (hdue : (tm - entry).toNat < (s.profile p b).nextDue) :
    s.windowEndHistory p tm = s := by
  rw [windowEndHistory, show (s.openRecord p).bind (·.profileBuffer) = some b from hb, he, hrecipe]
  exact if_neg fun h => Nat.not_le.mpr hdue h.2.2

theorem windowEndHistory_of_due (hfilling : (s.profile p b).phase = .filling)
    (hacc : (s.cure p).status = .accruing) (hdue : (s.profile p b).nextDue ≤ (tm - entry).toNat) :
    s.windowEndHistory p tm = s.takePoint p b (tm - entry).toNat (recipe.profileInterval * 1000) := by
  rw [windowEndHistory, show (s.openRecord p).bind (·.profileBuffer) = some b from hb, he, hrecipe]
  exact if_pos ⟨hfilling, hacc, hdue⟩

end

theorem profile_takePoint_of_room {b : Fin 2} (offset interval : Nat) (hroom : (s.profile p b).points.length < 120) :
    (s.takePoint p b offset interval).profile p b = { s.profile p b with
      points := (s.profile p b).points ++ [s.pointAt p offset]
      nextDue := (offset / interval + 1) * interval } := by
  have hroom' : (s.profile p b).points.length < Config.profilePlaces := hroom
  rw [takePoint]
  dsimp only
  rw [if_pos hroom', SmallRequests.profile_modProfile, addPoint, if_pos hroom']

theorem takePoint_of_full {b : Fin 2} (offset interval : Nat) (hfull : 120 ≤ (s.profile p b).points.length) :
    (s.takePoint p b offset interval).profile p b = { s.profile p b with
      truncated := true, nextDue := (offset / interval + 1) * interval }
      ∧ Opens p (fun x => x.flags.getLsbD 15 = true) (s.takePoint p b offset interval) := by
  have hfull' : ¬(s.profile p b).points.length < Config.profilePlaces := Nat.not_lt.mpr hfull
  rw [takePoint]
  dsimp only
  rw [if_neg hfull']
  refine ⟨?_, opens_setFlag p .profileTruncated _⟩
  have hflag (x : State) : (x.setFlag p .profileTruncated).profile p b = x.profile p b := by
    rw [State.profile, State.profile, ← show x.profiles = (x.setFlag p .profileTruncated).profiles from
      setFlag_changes p _ x .profiles (by decide)]
  rw [hflag, SmallRequests.profile_modProfile, addPoint, if_neg hfull']

end Sys2Proof.Proofs.WindowPoints
end

