-- ==== Sys2Proof/Proofs/WindowEnds.lean ====
section
/-! PROOFS. A window end that is due: its zones (R70 to R75), the next window (R69), and the cure (R90 to R94). -/

namespace Sys2Proof.Proofs.WindowEnds

set_option Elab.async false

open Sys2Proof.Machine Sys2Proof.Machine.State Sys2Proof.Proofs.StepRules Sys2Proof.Proofs.CureRules
  Sys2Proof.Proofs.HeatLaws Sys2Proof.Proofs.CloseConditions Sys2Proof.Proofs.OneZone Sys2Proof.Proofs.OtherPresses
  Sys2Proof.Proofs.WindowCure Sys2Proof.Proofs.WindowZones Sys2Proof.Proofs.WindowLoop
  Sys2Proof.Proofs.HeatFrames Sys2Proof.Proofs.WindowPoints Sys2Proof.Proofs.ZoneRequests
  Sys2Proof.Proofs.CureProgress Sys2Proof.Proofs.Regulation Sys2Proof.Proofs.Timers

variable {s t x : State} {tm e start : Time} {p : PressNo} {z : ZoneNo} {own : Nat}

/-! ## The steps of a window end -/

/-- The zones of the press have had their window end. -/
def zonesEnded (s : State) (p : PressNo) (e : Time) : State :=
  each (zoneWindowEnd e) (s.enabledZones p) (s.nextWindow p e)

/-- The frames are sent. -/
def framesSent (s : State) (p : PressNo) (e : Time) : State := (zonesEnded s p e).sendHeatFrames p

/-- The window end, at its time. -/
def ended (s : State) (p : PressNo) (e : Time) : State := (framesSent s p e).windowEndHistory p e

theorem exec_windowEnd (h : s.Settled) (p : PressNo) :
    exec (.windowEnd p) s = .next (doIf (s.windowDue p) (windowEnds p) s) :=
  running_of_settled h fun s => doIf (s.windowDue p) (windowEnds p) s

theorem windowDue_iff (h : s.Settled) (hstart : (s.window p).start = some start) : s.windowDue p = true ↔
    (s.window p).running = true ∧ (s.window p).period ≤ (s.timebase - start).toNat := by
  obtain ⟨_, hno, _⟩ := h
  simp only [windowDue, hno, hstart, since, Bool.not_false, Bool.true_and, Bool.and_eq_true, Option.any_some]
  exact and_congr_right fun _ => decide_eq_true_iff

theorem exec_of_due (h : s.Normal own) (hrun : (s.window p).running = true) (hstart : (s.window p).start = some start)
    (hdue : (s.window p).period ≤ (s.timebase - start).toNat) :
    exec (.windowEnd p) s = .next (ended s p (start + BitVec.ofNat 32 (s.window p).period)) := by
  obtain ⟨hset, _⟩ := h
  have htime : s.windowEndTime p = start + BitVec.ofNat 32 (s.window p).period := by
    rw [windowEndTime, hstart]
    rfl
  rw [exec_windowEnd hset, doIf_of ((windowDue_iff hset hstart).mpr ⟨hrun, hdue⟩), ← htime]
  rfl

theorem exec_of_not_due (h : s.Settled) (hno : ¬s.windowDue p = true) : exec (.windowEnd p) s = .next s := by
  rw [exec_windowEnd h, doIf_of_not hno]

/-! ## The zones -/

theorem nextWindow_zone (s : State) (p : PressNo) (e : Time) (z : ZoneNo) : (s.nextWindow p e).zone z = s.zone z := rfl

theorem zonesEnded_changes (s : State) (p : PressNo) (e : Time) :
    OnlyChanges (.zones :: .windows :: cureParts) s (zonesEnded s p e) :=
  ((nextWindow_changes p e s).mono (by decide)).trans ((each_zoneWindowEnd_changes e _ _).mono (by decide))

theorem nodup_enabledZones (s : State) (p : PressNo) : (s.enabledZones p).Nodup := (zonesOf_nodup p).filter _

theorem zone_zonesEnded_of_not (hz : pressOf z ≠ p ∨ s.enabled z = false) : (zonesEnded s p e).zone z = s.zone z := by
  rw [zonesEnded, zone_each_of_not_mem fun hm => ?_, nextWindow_zone]
  obtain ⟨hp, hen⟩ := mem_enabledZones.mp hm
  exact hz.elim (fun h => h hp) fun h => by rw [h] at hen; cases hen

/-- An enabled zone has its window end in a state that holds of it what `s` holds. -/
theorem zone_zonesEnded (hp : pressOf z = p) (hen : s.enabled z = true) (e : Time) :
    ∃ x, OnlyChanges (.zones :: .windows :: cureParts) s x ∧ x.zone z = s.zone z
      ∧ (zonesEnded s p e).zone z = (x.zoneWindowEnd e z).zone z
      ∧ ∀ j : Fin 25, (x.zoneWindowEnd e z).events[j].raw = true → (zonesEnded s p e).events[j].raw = true := by
  obtain ⟨x, hx, hzone, heq, hraw⟩ := zone_each_of_mem (nodup_enabledZones s p) (mem_enabledZones.mpr ⟨hp, hen⟩) e
    (s.nextWindow p e)
  exact ⟨x, ((nextWindow_changes p e s).mono (by decide)).trans (hx.mono (by decide)), hzone, heq, hraw⟩

/-- A window end leaves a zone's off commands, and enabled what was enabled. -/
theorem kept_zoneWindowEnd (hd : (s.zone z).state ≠ .disabled) :
    ((s.zoneWindowEnd tm z).zone z).offs = (s.zone z).offs ∧ ((s.zoneWindowEnd tm z).zone z).state ≠ .disabled := by
  by_cases hr : countRises (s.zone z) = true
  · have hheld : heldState (s.zone z) ≠ .disabled := by
      unfold heldState
      split
      · decide
      · exact hd
    by_cases hok : s.backupEligible z tm = true
    · by_cases hdue : (s.pressEntry (pressOf z)).holdLimit ≤ min 15 ((s.zone z).holdCount + 1) ∨ PrimaryBad (s.zone z)
      · rw [zone_of_switch hr hdue hok]
        exact ⟨rfl, hheld⟩
      · obtain ⟨hlimit, hgood⟩ := not_or.mp hdue
        rw [zone_of_held hr (Nat.not_le.mp hlimit) fun h => hgood h.1]
        exact ⟨rfl, hheld⟩
    · by_cases hlimit : (s.pressEntry (pressOf z)).holdLimit ≤ min 15 ((s.zone z).holdCount + 1)
      · rw [zone_of_lose hr hlimit hok]
        exact ⟨rfl, nofun⟩
      · rw [zone_of_held hr (Nat.not_le.mp hlimit) fun h => hok h.2]
        exact ⟨rfl, hheld⟩
  · rw [zone_of_not_rises hd hr]
    exact ⟨rfl, hd⟩

theorem offs_zonesEnded (s : State) (p : PressNo) (e : Time) (z : ZoneNo) :
    ((zonesEnded s p e).zone z).offs = (s.zone z).offs ∧ (zonesEnded s p e).enabled z = s.enabled z := by
  by_cases h : pressOf z = p ∧ s.enabled z = true
  · obtain ⟨hp, hen⟩ := h
    obtain ⟨x, _, hx, hz, _⟩ := zone_zonesEnded hp hen e
    obtain ⟨hoffs, hstate⟩ := kept_zoneWindowEnd (s := x) (z := z) (tm := e) (hx ▸ enabled_iff.mp hen)
    rw [hen, enabled_iff, hz]
    exact ⟨hoffs.trans (congrArg Zone.offs hx), hstate⟩
  · have hno : pressOf z ≠ p ∨ s.enabled z = false := by
      rw [← Bool.not_eq_true]
      exact Decidable.not_and_iff_not_or_not.mp h
    rw [zone_zonesEnded_of_not hno, State.enabled, State.enabled, zone_zonesEnded_of_not hno]
    exact ⟨rfl, rfl⟩

/-! ## The other presses -/

theorem keepsOthers_zonesEnded (s : State) (p : PressNo) (e : Time) :
    (∀ q, q ≠ p → (zonesEnded s p e).unit q = s.unit q ∧ (zonesEnded s p e).cure q = s.cure q
      ∧ (zonesEnded s p e).window q = s.window q) ∧ ∀ z, pressOf z ≠ p → (zonesEnded s p e).accrual z = s.accrual z := by
  have hmem (z : ZoneNo) (hz : z ∈ s.enabledZones p) : pressOf z = p := (mem_enabledZones.mp hz).1
  have hall (l : List ZoneNo) (hl : ∀ z ∈ l, pressOf z = p) (x : State) :
      x.KeepsOthers (each (zoneWindowEnd e) l x) p := by
    induction l generalizing x with
    | nil => exact keepsOthers_refl x p
    | cons y l ih =>
      have hy := hl y List.mem_cons_self
      rw [each_cons]
      exact keepsOthers_trans (hy ▸ (touches_zoneWindowEnd e y x).2.1)
        (ih (fun z hz => hl z (List.mem_cons_of_mem _ hz)) _)
  obtain ⟨hpress, hzone⟩ := hall _ hmem (s.nextWindow p e)
  refine ⟨fun q hq => ?_, fun z hz => (hzone z hz).1⟩
  obtain ⟨hunit, hcure, hwindow, _⟩ := hpress q hq
  exact ⟨hunit, hcure, hwindow.trans (window_modWindow_of_ne p _ s hq)⟩

/-! ## The frames -/

/-- The counts of the next window begin from zero. -/
def countsCleared (s : State) (p : PressNo) (e : Time) : State :=
  (zonesEnded s p e).modWindow p fun w => { w with placed := 0, lost := 0 }

theorem live_zonesEnded (s : State) (p : PressNo) (e : Time) : (zonesEnded s p e).live = s.live :=
  live_of_changes (zonesEnded_changes s p e)

theorem sentUpTo_framesSent (h : s.live = true) :
    SentUpTo (countsCleared s p e) p (nodesInUse (zonesEnded s p e) p) (framesSent s p e) :=
  sentUpTo_sendHeatFrames ((live_zonesEnded s p e).trans h)

theorem window_zonesEnded (s : State) (p : PressNo) (e : Time) : (zonesEnded s p e).window p =
    { s.window p with lastEnd := some e, start := some e, period := (s.pressEntry p).period } := by
  rw [zonesEnded, window_of_changes (each_zoneWindowEnd_changes e _ _), nextWindow, window_modWindow]

theorem rests_framesSent (s : State) (p : PressNo) (e : Time) (h : s.live = true) :
    Rests p (zonesEnded s p e) (ended s p e) :=
  ((rests_of_changes (modWindow_changes p _ _) p).trans (sentUpTo_framesSent h).rests).trans
    (rests_windowEndHistory p e _)

theorem history_changes (s : State) (p : PressNo) (e : Time) :
    OnlyChanges [.profiles, .history] (framesSent s p e) (ended s p e) := windowEndHistory_changes p e _

theorem zone_ended (h : s.live = true) (z : ZoneNo) : (ended s p e).zone z = { (zonesEnded s p e).zone z with
    offs := (s.zone z).offs.filter fun o =>
      !carried (countsCleared s p e) p (sentOf (countsCleared s p e) (nodesInUse (zonesEnded s p e) p)) o } := by
  rw [zone_of_changes (history_changes s p e), (sentUpTo_framesSent h).zone z, ← (offs_zonesEnded s p e z).1]
  rfl

theorem zone_ended_of_eq (h : s.live = true) {c : Zone} (hc : (zonesEnded s p e).zone z = c) :
    (ended s p e).zone z = { c with offs := ((ended s p e).zone z).offs } := by
  rw [zone_ended h, hc]

theorem window_ended (h : s.live = true) (hrun : (s.window p).running = true) : (ended s p e).window p =
    { running := true, start := some e, period := (s.pressEntry p).period, lastEnd := some e
      placed := ((ended s p e).window p).placed, lost := ((ended s p e).window p).lost } := by
  have hwindow : (ended s p e).window p = { (zonesEnded s p e).window p with
      placed := ((ended s p e).window p).placed, lost := ((ended s p e).window p).lost } := by
    rw [window_of_changes (history_changes s p e), (sentUpTo_framesSent h).window, countsCleared, window_modWindow]
  rw [window_zonesEnded] at hwindow
  generalize (ended s p e).window p = w at hwindow ⊢
  exact hwindow.trans (congrArg (fun running => HeatWindow.mk running _ _ _ _ _) hrun)

/-! ## The zones and the cure -/

section

variable (hl : s.live = true) (hp : pressOf z = p) (hen : s.enabled z = true)
  (hkept : ∀ c, (zonesEnded s p e).zone z = c → t.zone z = { c with offs := (t.zone z).offs })
  (hraws : ∀ j : Fin 25, (zonesEnded s p e).events[j].raw = true → t.events[j].raw = true)
include hl hp hen hkept hraws

/-- The backup may take over at the end of a window (R72). -/
def BackupOk (s : State) (z : ZoneNo) (e : Time) : Prop := (s.zone z).active = .primary ∧ (s.zoneEntry z).backup ≠ none
  ∧ ∃ l, (s.zone z).backupLast = some l ∧ l.status = .ok
    ∧ (e - l.arrival).toNat ≤ (s.pressEntry (pressOf z)).holdLimit * (s.pressEntry (pressOf z)).period

/-- The duty that a zone commits when its hold count does not rise (R74). -/
def freshDuty (c : Zone) : Nat :=
  if c.state = .regulating then c.staged else if c.state = .holding then c.committed else 0

/-- A zone at its window end (R71 to R75). -/
theorem zone_ended_cases :
    let c := s.zone z
    let d := { endedZone (s.pressEntry p).ramp c with offs := (t.zone z).offs }
    let rises := c.fresh = false ∧ c.grace = false ∧ c.state ≠ .lost
    let count := min 15 (c.holdCount + 1)
    let limit := (s.pressEntry p).holdLimit
    (¬rises → t.zone z = { d with committed := freshDuty c })
    ∧ (rises → (limit ≤ count ∨ PrimaryBad c) → BackupOk s z e →
        t.zone z = { d with state := heldState c, active := .backup, holdCount := 0, committed := heldDuty c }
        ∧ (t.events[4]).raw = true)
    ∧ (rises → limit ≤ count → ¬BackupOk s z e →
        t.zone z = { d with state := .lost, holdCount := count, staged := 0, committed := 0 }
        ∧ (t.events[5]).raw = true)
    ∧ (rises → count < limit → ¬(PrimaryBad c ∧ BackupOk s z e) →
        t.zone z = { d with state := heldState c, holdCount := count, committed := heldDuty c }) := by
  subst hp
  intro c d rises count limit
  obtain ⟨x, hx, hxz, hend, hraw⟩ := zone_zonesEnded rfl hen e
  have hentry : x.pressEntry (pressOf z) = s.pressEntry (pressOf z) := pressEntry_of_changes hx _
  have hlive : x.live = true := (live_of_changes hx).trans hl
  have hdis : (x.zone z).state ≠ .disabled := hxz ▸ enabled_iff.mp hen
  have hrises : countRises (x.zone z) = true ↔ rises := by rw [countRises_iff hdis, hxz]
  have hok : x.backupEligible z e = true ↔ BackupOk s z e := by
    rw [backupEligible_iff, hxz, hentry, zoneEntry_of_changes hx z, BackupOk]
  have hlimit : (x.pressEntry (pressOf z)).holdLimit ≤ min 15 ((x.zone z).holdCount + 1) ↔ limit ≤ count := by
    rw [hentry, hxz]
  have hdue' (h : limit ≤ count ∨ PrimaryBad c) : (x.pressEntry (pressOf z)).holdLimit
      ≤ min 15 ((x.zone z).holdCount + 1) ∨ PrimaryBad (x.zone z) :=
    h.imp hlimit.mpr fun hbad => by rw [hxz]; exact hbad
  refine ⟨fun hno => ?_, fun hr hdue hback => ⟨?_, ?_⟩, fun hr hdue hback => ⟨?_, ?_⟩, fun hr hlow hno => ?_⟩
  · refine hkept { endedZone (s.pressEntry (pressOf z)).ramp c with
      committed := freshDuty c } (hend.trans ?_)
    rw [zone_of_not_rises hdis (hrises.not.mpr hno), hentry, hxz]
    rfl
  · refine hkept { endedZone (s.pressEntry (pressOf z)).ramp c with
      state := heldState c, active := .backup, holdCount := 0, committed := heldDuty c } (hend.trans ?_)
    rw [zone_of_switch (hrises.mpr hr) (hdue' hdue) (hok.mpr hback), hentry, hxz]
  · exact hraws 4 (hraw 4 (raw_of_switch (hrises.mpr hr) hlive (hdue' hdue) (hok.mpr hback)))
  · refine hkept { endedZone (s.pressEntry (pressOf z)).ramp c with
      state := .lost, holdCount := count, staged := 0, committed := 0 } (hend.trans ?_)
    rw [zone_of_lose (hrises.mpr hr) (hlimit.mpr hdue) (hok.not.mpr hback), hentry, hxz]
  · exact hraws 5 (hraw 5 (raw_of_lose (hrises.mpr hr) hlive (hlimit.mpr hdue) (hok.not.mpr hback)))
  · have hno' : ¬(PrimaryBad (x.zone z) ∧ x.backupEligible z e = true) := by
      rw [hok, hxz]
      exact hno
    have hlow' := Nat.not_le.mp (hlimit.not.mpr (Nat.not_le.mpr hlow))
    refine hkept { endedZone (s.pressEntry (pressOf z)).ramp c with
      state := heldState c, holdCount := count, committed := heldDuty c } (hend.trans ?_)
    rw [zone_of_held (hrises.mpr hr) hlow' hno', hentry, hxz]

end

theorem cureEnded_ended (h : s.live = true) (p : PressNo) (e : Time) :
    CureEnded s (ended s p e) p e (fell s (ended s p e) p) := by
  have hrests : Rests p s (s.nextWindow p e) := rests_of_changes (nextWindow_changes p e s) p
  have hnone : fell s (s.nextWindow p e) p = fun _ => false := funext fun z => fell_self s p z (nextWindow_zone s p e z)
  have hfell : fell s (ended s p e) p = fell s (zonesEnded s p e) p := by
    funext z
    rw [fell, fell, zone_ended h z]
  have hloop : CureEnded s (zonesEnded s p e) p e (fell s (zonesEnded s p e) p) :=
    cureEnded_each e (nodup_enabledZones s p) (fun z hz => by
      obtain ⟨hp, hen⟩ := mem_enabledZones.mp hz
      exact ⟨hp, enabled_iff.mp hen, rfl⟩) (hnone ▸ (CureEnded.refl s p e).rests hrests)
      ((live_of_changes (nextWindow_changes p e s)).trans h) rfl
  rw [hfell]
  exact hloop.rests (rests_framesSent s p e h)

theorem ended_others (h : s.live = true) (p : PressNo) (e : Time) :
    (∀ q, q ≠ p → (ended s p e).cure q = s.cure q ∧ (ended s p e).unit q = s.unit q
      ∧ (ended s p e).window q = s.window q) ∧ ∀ z, pressOf z ≠ p → (ended s p e).accrual z = s.accrual z := by
  obtain ⟨hpress, haccrual⟩ := keepsOthers_zonesEnded s p e
  have hsent := sendHeatFrames_changes p (zonesEnded s p e)
  have hhist := history_changes s p e
  refine ⟨fun q hq => ?_, fun z hz => ?_⟩
  · obtain ⟨hunit, hcure, hwindow⟩ := hpress q hq
    refine ⟨?_, ?_, ?_⟩
    · rw [cure_of_changes hhist, framesSent, cure_of_changes hsent, hcure]
    · rw [unit_of_changes hhist, framesSent, unit_of_changes hsent, hunit]
    · rw [window_of_changes hhist, (sentUpTo_framesSent h).windows q hq, countsCleared,
        window_modWindow_of_ne p _ _ hq, hwindow]
  · rw [accrual_of_changes hhist, framesSent, accrual_of_changes hsent, haccrual z hz]

theorem ended_changes (s : State) (p : PressNo) (e : Time) :
    OnlyChanges (.zones :: .windows :: .portD :: .profiles :: cureParts) s (ended s p e) :=
  (((zonesEnded_changes s p e).mono (by decide)).trans ((sendHeatFrames_changes p _).mono (by decide))).trans
    ((history_changes s p e).mono (by decide))

/-- Settles O38: the enabled zones, one after the other, then the frames and the profile point. -/
theorem windowEnd : Obligations.WindowEnd := by
  intro s own p start hn
  refine ⟨fun hidle => ?_, fun hrun hstart hearly => ?_, fun hrun hstart hdue => ?_⟩
  · exact exec_of_not_due hn.1 fun h => by simp [windowDue, hidle] at h
  · exact exec_of_not_due hn.1 fun h => Nat.not_le.mpr hearly ((windowDue_iff hn.1 hstart).mp h).2
  · intro w e
    have hl := hn.live
    have hrun' := exec_of_due hn hrun hstart hdue
    have hothers := ended_others hl p e
    have hcure := cureEnded_ended hl p e
    have hwindow := window_ended (e := e) hl hrun
    have hzones (z : ZoneNo) (c : Zone) (hc : (zonesEnded s p e).zone z = c) := zone_ended_of_eq hl hc
    obtain ⟨_, _, _, hraws, _⟩ := rests_framesSent s p e hl
    have hchanges := ended_changes s p e
    change exec (.windowEnd p) s = .next (ended s p e) at hrun'
    generalize ended s p e = t at *
    refine ⟨t, hrun', hwindow, fun z hz => hzones z _ (zone_zonesEnded_of_not hz), fun z hp hen => ?_,
      ⟨hcure.kept, hcure.one, hcure.goesOn, hcure.ended⟩, hothers.1, hothers.2, hchanges⟩
    subst hp
    exact zone_ended_cases hl rfl hen (hzones z) hraws

end Sys2Proof.Proofs.WindowEnds
end

