-- ==== Sys2Proof/Proofs/WindowSends.lean ====
section
/-! PROOFS. What a window end sends (R76, R77, R80) and the profile point it takes (R172, R173), in terms of the state
before it. -/

namespace Sys2Proof.Proofs.WindowSends

set_option Elab.async false

open Sys2Proof.Machine Sys2Proof.Machine.State Sys2Proof.Proofs.CureRules Sys2Proof.Proofs.HeatLaws
  Sys2Proof.Proofs.CloseConditions Sys2Proof.Proofs.WindowCure Sys2Proof.Proofs.WindowLoop
  Sys2Proof.Proofs.HeatFrames Sys2Proof.Proofs.WindowPoints Sys2Proof.Proofs.ZoneRequests
  Sys2Proof.Proofs.WindowEnds

variable {s t x : State} {e start : Time} {p : PressNo} {z : ZoneNo} {own n o : Nat}

/-! ## Entries of a frame -/

/-- A zone of the press is enabled and has its heater at an output. -/
def Feeds (s : State) (p : PressNo) (n o : Nat) (z : ZoneNo) : Prop :=
  pressOf z = p ∧ s.enabled z = true ∧ (s.zoneEntry z).heater = some { node := n, line := o }

theorem zoneDriving_eq (s : State) (p : PressNo) (n o : Nat) : s.zoneDriving p n o =
    (zonesOf p).find? fun z => s.enabled z && (s.zoneEntry z).heater == some { node := n, line := o } := by
  rw [zoneDriving, enabledZones, List.find?_filter]
  refine congrArg (fun f => List.find? f (zonesOf p)) (funext fun z => ?_)
  cases s.enabled z with
  | false => rfl
  | true => simp only [true_and, Bool.decide_eq_true, Bool.true_and]

theorem exists_zoneDriving_iff : (∃ z, s.zoneDriving p n o = some z) ↔ ∃ z, Feeds s p n o z := by
  rw [zoneDriving, ← Option.isSome_iff_exists, List.find?_isSome]
  refine exists_congr fun z => ?_
  rw [mem_enabledZones, beq_iff_eq, Feeds, and_assoc]

theorem mem_heatEntries {a : Nat × ZoneNo} :
    a ∈ s.heatEntries p n ↔ a.1 < 8 ∧ s.zoneDriving p n a.1 = some a.2 := by
  rw [heatEntries, List.mem_filterMap]
  constructor
  · rintro ⟨o, ho, ha⟩
    obtain ⟨z, hz, rfl⟩ := Option.map_eq_some_iff.mp ha
    exact ⟨List.mem_range.mp ho, hz⟩
  · rintro ⟨ho, hz⟩
    exact ⟨a.1, List.mem_range.mpr ho, by rw [hz]; rfl⟩

theorem heatEntries_ne_nil_iff : s.heatEntries p n ≠ [] ↔ ∃ z, ∃ o : Fin 8, Feeds s p n o.val z := by
  constructor
  · intro hne
    obtain ⟨⟨o, z⟩, ha⟩ := List.exists_mem_of_ne_nil _ hne
    obtain ⟨ho, hz⟩ := mem_heatEntries.mp ha
    obtain ⟨z, hz⟩ := exists_zoneDriving_iff.mp ⟨z, hz⟩
    exact ⟨z, ⟨o, ho⟩, hz⟩
  · rintro ⟨z, o, hz⟩
    obtain ⟨z, hz⟩ := exists_zoneDriving_iff.mpr ⟨z, hz⟩
    exact List.ne_nil_of_mem (a := (o.val, z)) (mem_heatEntries.mpr ⟨o.isLt, hz⟩)

theorem carriedBy_iff {c : OffCommand} : carriedBy n (s.heatEntries p n) c = true ↔
    c.node = n ∧ c.output < 8 ∧ ∃ z, Feeds s p n c.output z := by
  simp only [carriedBy, List.any_eq_true, Bool.and_eq_true, beq_iff_eq, ← exists_zoneDriving_iff]
  constructor
  · rintro ⟨⟨o, z⟩, ha, hnode, rfl⟩
    obtain ⟨ho, hz⟩ := mem_heatEntries.mp ha
    exact ⟨hnode, ho, z, hz⟩
  · rintro ⟨hnode, ho, z, hz⟩
    exact ⟨(c.output, z), mem_heatEntries.mpr ⟨ho, hz⟩, hnode, rfl⟩

theorem carried_iff {l : List Nat} {c : OffCommand} : carried s p l c = true ↔
    c.node ∈ l ∧ c.output < 8 ∧ ∃ z, Feeds s p c.node c.output z := by
  simp only [carried, List.any_eq_true, carriedBy_iff]
  constructor
  · rintro ⟨n, hn, rfl, ho, hz⟩
    exact ⟨hn, ho, hz⟩
  · rintro ⟨hn, ho, hz⟩
    exact ⟨c.node, hn, rfl, ho, hz⟩

/-- What a frame tells of an output. -/
def outputBytes (s : State) (p : PressNo) (n o : Nat) : List Byte :=
  match (zonesOf p).find? fun z => s.enabled z && (s.zoneEntry z).heater == some { node := n, line := o } with
  | some z => BitVec.ofNat 8 o :: natBytes 2 (s.zone z).committed
  | none => []

theorem heatPayload_eq (s : State) (p : PressNo) (n : Nat) :
    s.heatPayload (s.heatEntries p n) = (List.range 8).flatMap (outputBytes s p n) := by
  rw [heatPayload, heatEntries, List.filterMap_eq_flatMap_toList, List.flatMap_assoc]
  refine List.flatMap_congr fun o _ => ?_
  rw [outputBytes, ← zoneDriving_eq]
  cases s.zoneDriving p n o with
  | none => rfl
  | some z => simp [heatEntryBytes, Events.natBytes_one]

/-! ## The frames in terms of the state before -/

theorem zoneEntry_countsCleared (s : State) (p : PressNo) (e : Time) (z : ZoneNo) :
    (countsCleared s p e).zoneEntry z = s.zoneEntry z :=
  (zoneEntry_of_changes (modWindow_changes p _ _) z).trans (zoneEntry_of_changes (zonesEnded_changes s p e) z)

theorem enabled_countsCleared (s : State) (p : PressNo) (e : Time) (z : ZoneNo) :
    (countsCleared s p e).enabled z = s.enabled z := (offs_zonesEnded s p e z).2

theorem feeds_countsCleared (s : State) (p : PressNo) (e : Time) : Feeds (countsCleared s p e) p = Feeds s p := by
  funext n o z
  rw [Feeds, Feeds, zoneEntry_countsCleared, enabled_countsCleared]

/-- The nodes that a window end sends to. -/
theorem heatEntries_zonesEnded_ne_nil_iff : (zonesEnded s p e).heatEntries p n ≠ [] ↔
    ∃ z, ∃ o : Fin 8, Feeds s p n o.val z := by
  rw [← feeds_countsCleared s p e, ← heatEntries_ne_nil_iff]
  rfl

theorem portD_countsCleared (s : State) (p : PressNo) (e : Time) : (countsCleared s p e).portD = s.portD :=
  ((zonesEnded_changes s p e) .portD (by decide)).symm

theorem ownAddress_countsCleared (s : State) (p : PressNo) (e : Time) :
    (countsCleared s p e).ownAddress = s.ownAddress := by
  rw [ownAddress, ownAddress, show s.mode = (countsCleared s p e).mode from (zonesEnded_changes s p e) .mode (by decide)]

/-- The frame of a node, with the duties as the window end leaves them. -/
def dutyFrame (s t : State) (p : PressNo) (n : Nat) : OwnFrame :=
  { dst := n, src := s.ownAddress, kind := .heat, mark := .plain
    payload := (List.range 8).flatMap fun o =>
      match (zonesOf p).find? fun z => s.enabled z && (s.zoneEntry z).heater == some { node := n, line := o } with
      | some z => BitVec.ofNat 8 o :: natBytes 2 (t.zone z).committed
      | none => [] }

theorem nodeFrame_countsCleared (h : s.live = true) (p : PressNo) (e : Time) (n : Nat) :
    nodeFrame (countsCleared s p e) p n = dutyFrame s (ended s p e) p n := by
  have hcommitted (z : ZoneNo) : ((ended s p e).zone z).committed = ((countsCleared s p e).zone z).committed := by
    rw [zone_ended h z]
    rfl
  rw [nodeFrame, dutyFrame, ownAddress_countsCleared, heatPayload_eq]
  refine congrArg (fun b => OwnFrame.mk n s.ownAddress .heat b .plain) (List.flatMap_congr fun o _ => ?_)
  simp only [outputBytes, zoneEntry_countsCleared, enabled_countsCleared, hcommitted]

/-- The nodes whose frames find a place. -/
def sentTo (s : State) (p : PressNo) (e : Time) : List Nat :=
  sentOf (countsCleared s p e) (nodesInUse (zonesEnded s p e) p)

theorem portD_ended (h : s.live = true) (p : PressNo) (e : Time) :
    let lost := (nodesInUse (zonesEnded s p e) p).length - (sentTo s p e).length
    (ended s p e).portD = { s.portD with
      ownDrops := if lost = 0 then s.portD.ownDrops else min (s.portD.ownDrops + lost) 65535
      own := s.portD.own ++ (sentTo s p e).map (dutyFrame s (ended s p e) p) } := by
  intro lost
  rw [← show (framesSent s p e).portD = (ended s p e).portD from history_changes s p e .portD (by decide),
    (sentUpTo_framesSent h).portD, portD_countsCleared, ← funext (nodeFrame_countsCleared h p e)]
  rfl

/-! ## The profile point -/

/-- The profile point (R172, R173). -/
theorem profile_windowEndHistory {v t : State} {b : Fin 2} {entry : Time} {recipe : Recipe}
    (hrun : t = v.windowEndHistory p e) (hbuf : openBuffer v p = some b) (he : (v.cure p).entryTime = some entry)
    (hrecipe : v.boundRecipe p = some recipe) (hacc : (v.cure p).status = .accruing)
    (hfilling : (v.profile p b).phase = .filling) :
    let offset := (e - entry).toNat
    let interval := recipe.profileInterval * 1000
    (offset < (v.profile p b).nextDue → t.profile p b = v.profile p b)
    ∧ ((v.profile p b).nextDue ≤ offset → (v.profile p b).points.length < 120 →
      ∃ temps, t.PointTemps p temps ∧ t.profile p b = { v.profile p b with
        points := (v.profile p b).points ++
          [{ offset := offset / 1000, temps := temps, progress := (t.cure p).progress / 1000 }]
        nextDue := (offset / interval + 1) * interval })
    ∧ ((v.profile p b).nextDue ≤ offset → 120 ≤ (v.profile p b).points.length →
      t.profile p b = { v.profile p b with
        truncated := true, nextDue := (offset / interval + 1) * interval }
      ∧ ∀ x, t.openRecord p = some x → x.flags.getLsbD 15 = true) := by
  intro offset interval
  subst hrun
  obtain ⟨hcures, _, haccruals, _⟩ := rests_windowEndHistory p e v
  have hchanges := windowEndHistory_changes p e v
  refine ⟨fun hearly => ?_, fun hdue hroom => ?_, fun hdue hfull => ?_⟩
  · rw [windowEndHistory_of_early hbuf he hrecipe hearly]
  · have htemps := pointTemps_of_eq (pointTemps_extremes v p) haccruals fun z => zone_of_changes hchanges z
    refine ⟨_, htemps, ?_⟩
    rw [hcures, windowEndHistory_of_due hbuf he hrecipe hfilling hacc hdue]
    exact profile_takePoint_of_room _ _ hroom
  · rw [windowEndHistory_of_due hbuf he hrecipe hfilling hacc hdue]
    exact takePoint_of_full _ _ hfull

section

variable {b : Fin 2} {entry : Time} {recipe : Recipe} {r : Record}
  (h : s.live = true) (hr : s.openRecord p = some r) (hb : r.profileBuffer = some b)
  (hrecipe : s.boundRecipe p = some recipe) (he : (s.cure p).entryTime = some entry)
  (hacc : ((ended s p e).cure p).status = .accruing)
include h hr hb hrecipe he hacc

/-- The frames leave what the profile point is taken from. -/
theorem framesSent_keeps : openBuffer (framesSent s p e) p = some b ∧ ((framesSent s p e).cure p).entryTime = some entry
    ∧ (framesSent s p e).boundRecipe p = some recipe ∧ ((framesSent s p e).cure p).status = .accruing
    ∧ (framesSent s p e).profile p b = s.profile p b := by
  have hcure := cureEnded_ended h p e
  have haccrues : (s.cure p).status = .accruing := by
    by_contra hno
    exact hno ((hcure.kept (.inl hno)).1 ▸ hacc)
  obtain ⟨hcures, hunits, _⟩ := rests_windowEndHistory p e (framesSent s p e)
  obtain ⟨hunit, _⟩ := hcure.goesOn haccrues hacc
  have hall : OnlyChanges (.zones :: .windows :: .portD :: cureParts) s (framesSent s p e) :=
    ((zonesEnded_changes s p e).mono (by decide)).trans ((sendHeatFrames_changes p _).mono (by decide))
  have hbuffer : openBuffer s p = some b := by rw [openBuffer, hr, Option.bind_some, hb]
  refine ⟨?_, ?_, ?_, ?_, ?_⟩
  · rw [framesSent, openBuffer_sendHeatFrames, zonesEnded, openBuffer_each_zoneWindowEnd,
      openBuffer_of_changes (nextWindow_changes p e s), hbuffer]
  · rw [← hcures, show (windowEndHistory p e (framesSent s p e)).cure p = (ended s p e).cure p from rfl,
      hcure.fields.2, he]
  · rw [boundRecipe_of_unit (hunits.symm.trans hunit) (hall .tables (by decide)).symm, hrecipe]
  · rw [← hcures]
    exact hacc
  · rw [State.profile, State.profile, ← show s.profiles = (framesSent s p e).profiles from hall .profiles (by decide)]

end

/-- Settles O39: one frame for each node in use, in ascending order, then the profile point. -/
theorem windowEndSends : Obligations.WindowEndSends := by
  intro s own p start hn hrun hstart hdue e used sent lost wasCarried
  have hl := hn.live
  have hused : used = nodesInUse (zonesEnded s p e) p :=
    List.filter_congr fun n _ => decide_eq_decide.mpr heatEntries_zonesEnded_ne_nil_iff.symm
  have hsent : sent = sentTo s p e := by
    rw [sentTo, sentOf, portD_countsCleared, ← hused]
  have hsentOf : sent = sentOf (countsCleared s p e) used := by rw [hsent, sentTo, hused]
  have hframes := sentUpTo_framesSent (p := p) (e := e) hl
  have hwindow : (ended s p e).window p =
      { (countsCleared s p e).window p with placed := sent.length, lost := lost } := by
    rw [window_of_changes (history_changes s p e), hframes.window, ← hused, ← hsentOf]
  refine ⟨ended s p e, exec_of_due hn hrun hstart hdue, by rw [hwindow], by rw [hwindow], ?_, fun hlost => ?_,
    fun z => ?_, fun r b recipe entry hr hb hrecipe he hfilling hacc => ?_⟩
  · have hport := portD_ended hl p e
    rw [← hused, ← hsent] at hport
    generalize ended s p e = t at hport ⊢
    exact hport
  · obtain ⟨_, _, _, hraws, _⟩ := rests_windowEndHistory p e (framesSent s p e)
    refine hraws 1 (hframes.raw ?_)
    rw [← hused, ← hsentOf]
    exact hlost
  · rw [zone_ended hl z]
    refine List.filter_congr fun o _ => congrArg Bool.not (Bool.eq_iff_iff.mpr ?_)
    rw [carried_iff, feeds_countsCleared, decide_eq_true_iff, ← hused, ← hsentOf]
    rfl
  · obtain ⟨hbuf, hent, hrec, hstat, hprofile⟩ := framesSent_keeps hl hr hb hrecipe he hacc
    have hend : ended s p e = (framesSent s p e).windowEndHistory p e := rfl
    generalize framesSent s p e = v at hbuf hent hrec hstat hprofile hend
    generalize ended s p e = t at hend ⊢
    rw [← hprofile] at hfilling ⊢
    exact profile_windowEndHistory hend hbuf hent hrec hstat hfilling

end Sys2Proof.Proofs.WindowSends
end

