-- ==== Sys2Proof/Proofs/RecordCloses.lean ====
section
/-! PROOFS. The close of a record (R160, R161), the admission of a new one (R163, R173), the filter (R179) and the
queue (R180) of the records that are sent. -/

namespace Sys2Proof.Proofs.RecordCloses

set_option Elab.async false

open Sys2Proof.Machine Sys2Proof.Machine.State Sys2Proof.Proofs.ExportMoves Sys2Proof.Proofs.Transmitters

variable {s : State} {r : Record} {cause : CloseCause} {p : PressNo} {tm : Time}

/-! ## Outcomes (R161) -/

/-- The causes that abort a record. -/
def Aborts (cause : CloseCause) : Prop := cause = .endAborted ∨ cause = .pressReset ∨ cause = .warmReset

theorem outcome_closedRecord_of_aborts (h : Aborts cause) : (closedRecord cause tm r).outcome = some .aborted :=
  congrArg some (if_pos h)

/-- A close that does not abort judges the flags that the record has. -/
theorem outcome_closedRecord_of_not_aborts (h : ¬Aborts cause) : (closedRecord cause tm r).outcome =
    some (if cause = .fault ∨ r.has .cureTimeout = true ∨ r.has .ejectStuck = true
        ∨ (r.has .cureLost = true ∧ r.has .forcedDemould = false) then .reject
      else if r.has .cureDegraded = true ∨ r.has .sensorSwitched = true ∨ r.has .zoneDeviation = true
        ∨ r.has .overtemp = true ∨ r.has .pressureLoss = true ∨ r.has .latePressure = true
        ∨ r.has .forcedDemould = true ∨ r.has .mouldChanged = true ∨ r.has .setup = true then .suspect
      else .good) := by
  cases cause with
  | endAborted => exact absurd (.inl rfl) h
  | pressReset => exact absurd (.inr (.inl rfl)) h
  | warmReset => exact absurd (.inr (.inr rfl)) h
  | endOfCycle | fault => rfl

/-- The close of a record, field by field (R160). -/
theorem closedRecord_eq (cause : CloseCause) (tm : Time) (r : Record) : closedRecord cause tm r =
    { r with state := .closed, outcome := (closedRecord cause tm r).outcome
             flags := if cause = .warmReset then r.flags ||| 1#17 <<< 16 else r.flags
             unloadTime := if cause = .endOfCycle ∨ cause = .endAborted then some tm else r.unloadTime } := by
  cases cause with
  | endOfCycle | endAborted | fault | pressReset | warmReset => rfl

/-! ## The close (R160) -/

theorem closeRecord_eq {i : Fin 512} (hi : s.history.openRecord[p] = some i) (hr : s.history.slots[i] = some r) :
    let x := closedRecord cause tm r
    let closed := s.modHistory fun h =>
      { h with slots := h.slots.set i (some x), openRecord := h.openRecord.set p none }
    closeRecord p cause tm s = handToExport x (match x.profileBuffer with
      | some b => closed.modProfile p b fun y => { y with phase := .complete }
      | none => closed) := by
  intro x closed
  have hopen : s.openRecord p = some r := by rw [openRecord, hi, Option.bind_some, hr]
  have hclosed : (s.modRecord p fun _ => x).modHistory (fun h => { h with openRecord := h.openRecord.set p none }) =
      closed := by
    rw [modRecord, hi]
    dsimp only [modHistory]
    rw [hr]
    rfl
  rw [closeRecord, hopen]
  dsimp only
  rw [hclosed] <;> rfl

/-! ## Admission (R163, R173) -/

theorem cursorOpen_iff : s.cursorOpen = true ↔
    ∃ r, s.history.slots[s.history.readCursor] = some r ∧ r.state = .opened := by
  rw [cursorOpen, Option.any_eq_true]
  simp only [beq_iff_eq]

theorem admission_of_ready (h : s.history.exhausted = false) : s.admission =
    match s.tables.cell.policy with
    | .hold => if s.history.hold then .historyHold else .admitted
    | .overwrite => if s.history.unread = 512 ∧ s.cursorOpen = true then .historyFull else .admitted := by
  rw [admission, h]
  exact if_neg Bool.false_ne_true

/-! ## The filter of the records that are sent (R179) -/

theorem covers_iff {g : Filter} {mould : Nat} : g.covers mould = true ↔ g.low ≤ mould ∧ mould ≤ g.high :=
  decide_eq_true_iff

theorem mouldPasses_iff {fs : List Filter} {mould : Nat} : mouldPasses fs mould = true ↔
    (∀ g ∈ fs, g.mode = .reject → ¬(g.low ≤ mould ∧ mould ≤ g.high))
      ∧ ((∃ g ∈ fs, g.mode = .accept) → ∃ g ∈ fs, g.mode = .accept ∧ g.low ≤ mould ∧ mould ≤ g.high) := by
  rw [mouldPasses, Bool.and_eq_true, Bool.not_eq_true', Bool.or_eq_true, Bool.not_eq_true', List.any_eq_false,
    List.any_eq_false, List.any_eq_true]
  simp only [Bool.and_eq_true, beq_iff_eq, covers_iff, not_and]
  refine and_congr_right fun _ => ?_
  constructor
  · rintro (hnone | hsome) ⟨g, hg, hmode⟩
    · exact absurd hmode (hnone g hg)
    · exact hsome
  · intro h
    by_cases hany : ∃ g ∈ fs, g.mode = .accept
    · exact .inr (h hany)
    · exact .inl fun g hg hmode => hany ⟨g, hg, hmode⟩

theorem exportPasses_iff {e : ExportEntry} {o : RecordOutcome} (ho : r.outcome = some o) : exportPasses e r = true ↔
    e.enable = true ∧ e.outcomes.getLsbD (outcomeBit o) = true ∧ e.presses.getLsbD r.press.val = true
      ∧ mouldPasses e.filters.toList r.mould = true := by
  simp only [exportPasses, ho, Option.any_some, Bool.and_eq_true, and_assoc]

/-! ## The queue of the records that are sent (R180) -/

theorem handToExport_of_room (h : exportPasses s.tables.exports r = true) (hroom : s.exportQueue.length < 16) :
    handToExport r s = exportMoves { s with exportQueue := s.exportQueue ++ [r.serial] } := by
  rw [handToExport, if_pos h, if_pos (show _ < Config.exportPlaces from hroom)]

theorem exportMoves_of_warm (h : s.warmTaking = true) : s.exportMoves = s := by
  have hmove : s.canMove = false := by simp [canMove, h]
  unfold exportMoves
  cases s.exportQueue.length with
  | zero => rfl
  | succ n => rw [moveHeads, hmove, if_neg Bool.false_ne_true]

/-- Settles O50: the judgements of a close, of an admission and of the filter. -/
theorem recordJudgements : Obligations.RecordJudgements := by
  refine ⟨fun r cause t => ?_, fun s => ?_, fun e r o ho => ?_, fun s p cause time i r hi hr => ?_, fun s r => ?_⟩
  · intro has aborts rejects suspects out
    have hrejects : (cause = .fault ∨ r.has .cureTimeout = true ∨ r.has .ejectStuck = true
        ∨ (r.has .cureLost = true ∧ r.has .forcedDemould = false)) ↔ rejects := by
      simp only [rejects, has, Record.has, RecordFlag.bit, Bool.not_eq_true]
    refine ⟨outcome_closedRecord_of_aborts, fun h hr => ?_, fun h hr hs => ?_, fun h hr hs => ?_⟩
    · exact (outcome_closedRecord_of_not_aborts h).trans (congrArg some (if_pos (hrejects.mpr hr)))
    · exact (outcome_closedRecord_of_not_aborts h).trans
        (congrArg some ((if_neg (hrejects.not.mpr hr)).trans (if_pos hs)))
    · exact (outcome_closedRecord_of_not_aborts h).trans
        (congrArg some ((if_neg (hrejects.not.mpr hr)).trans (if_neg hs)))
  · intro cell atCursorOpen
    refine ⟨fun h => if_pos h, fun h => ?_⟩
    have hcursor : s.cursorOpen = true ↔ atCursorOpen := cursorOpen_iff
    rw [admission_of_ready h]
    refine ⟨fun hp hhold => ?_, fun hp hhold => ?_, fun hp hno => ?_, fun hp hfull hopen => ?_⟩
    · rw [show s.tables.cell.policy = _ from hp]
      exact if_pos hhold
    · rw [show s.tables.cell.policy = _ from hp]
      exact if_neg (Bool.eq_false_iff.mp hhold)
    · rw [show s.tables.cell.policy = _ from hp]
      exact if_neg fun ⟨hfull, hopen⟩ => hno.elim (fun h => h hfull) fun h => h (hcursor.mp hopen)
    · rw [show s.tables.cell.policy = _ from hp]
      exact if_pos ⟨hfull, hcursor.mpr hopen⟩
  · intro covers
    rw [exportPasses_iff ho, mouldPasses_iff]
    cases o with
    | good | suspect | reject | aborted => rfl
  · intro x closed
    have hbuffer : x.profileBuffer = r.profileBuffer := by
      rw [show x = _ from closedRecord_eq cause time r]
    refine ⟨closedRecord_eq cause time r, fun hb => ?_, fun b hb => ?_⟩
    · rw [closeRecord_eq hi hr]
      rw [show (closedRecord cause time r).profileBuffer = none from hbuffer.trans hb]
    · rw [closeRecord_eq hi hr]
      rw [show (closedRecord cause time r).profileBuffer = some b from hbuffer.trans hb]
  · refine ⟨fun h => if_neg (Bool.eq_false_iff.mp h), fun h hroom => ⟨fun hidle => ?_, fun hfree hwarm hlive => ?_⟩,
      fun h hfull => ?_⟩
    · rw [handToExport_of_room h hroom]
      rcases hidle with hfull | hwarm
      · exact exportMoves_of_idle (.inr hfull)
      · exact exportMoves_of_warm hwarm
    · have hmoved := exportsMoved_exportMoves (s := { s with exportQueue := s.exportQueue ++ [r.serial] }) hlive hwarm
      refine ⟨_, handToExport_of_room h hroom, hmoved, ?_, ?_, ?_⟩
      · obtain ⟨moved, hqueue, _⟩ := hmoved
        exact ⟨moved, hqueue.symm⟩
      · obtain ⟨_, _, _, _, hdone, _⟩ := hmoved
        exact hdone
      · exact (withQueue_only (t := s) _ (by decide) (.refl s)).trans ((exportMoves_changes _).mono (by decide))
    · rw [handToExport, if_pos h, if_neg (show ¬_ < Config.exportPlaces from Nat.not_lt.mpr hfull)]

end Sys2Proof.Proofs.RecordCloses
end

