-- ==== Sys2Proof/Proofs/Ejections.lean ====
section
/-! PROOFS. The compare points of an ejection, setup mode and STEP (R147 to R150), and the EJECT_OFF that the end of
an ejection owes (R153). -/

namespace Sys2Proof.Proofs.Ejections

set_option Elab.async false

open Sys2Proof.Machine Sys2Proof.Machine.State Sys2Proof.Proofs.OffPlacement Sys2Proof.Proofs.Transmitters
  Sys2Proof.Proofs.AttentionAndOffs Sys2Proof.Proofs.SmallRequests Sys2Proof.Proofs.HistoryRequests
  Sys2Proof.Proofs.Timers

variable {s t x : State} {p : PressNo} {own n : Nat} {start : Time}

theorem modEjector_modEjector (p : PressNo) (f g : Ejector → Ejector) (s : State) :
    (s.modEjector p f).modEjector p g = s.modEjector p (g ∘ f) := by
  simp [modEjector]

/-! ## The EJECT_OFF that is owed (R153) -/

/-- An ejector owes the EJECT_OFF of a node. -/
def withOwed (n number : Nat) (placed : Bool) (e : Ejector) : Ejector :=
  { e with offOwed := some { node := n, placed := placed, number := number } }

/-- An EJECT_OFF is owed. -/
def owed (p : PressNo) (n : Nat) (placed : Bool) (x : State) : State :=
  { x with offNumber := x.offNumber + 1 }.modEjector p (withOwed n x.offNumber placed)

/-- The ejection has ended, and the unit is in UNLOAD. -/
def stopped (p : PressNo) (x : State) : State :=
  (x.modEjector p fun e => { e with phase := .stopped, timerStart := none }).modUnit p fun u =>
    { u with state := .unload }

theorem oweEjectOff_of_none (h : (x.ejector p).node = none) : x.oweEjectOff p = x := by
  rw [oweEjectOff, h]

theorem oweEjectOff_of_node (h : (x.ejector p).node = some n) : x.oweEjectOff p = owed p n false x := by
  rw [oweEjectOff, h]
  rfl

theorem placeOwed_of_idle (h : 16 ≤ x.portD.own.length ∨ x.offWaits = false) : x.placeOwed = x := by
  cases hn : x.normal with
  | false => exact placeOwed_of_passive hn
  | true =>
    rw [placeOwed_eq hn]
    exact fillPlaces_of_none (placedOf_of_idle (h.imp_right waitingOffs_of_not_offWaits))

theorem ejector_owed (placed : Bool) : (owed p n placed x).ejector p = withOwed n x.offNumber placed (x.ejector p) :=
  ejector_modEjector p _ _

theorem pressWaiting_owed_of_ne {q : PressNo} (hq : q ≠ p) (placed : Bool) :
    pressWaiting (owed p n placed x) q = pressWaiting x q := by
  unfold pressWaiting
  rw [show (owed p n placed x).ejector q = x.ejector q from ejector_modEjector_of_ne p _ _ hq]
  rfl

/-- Only the EJECT_OFF that has become owed waits. -/
theorem waitingOffs_owed (hw : x.offWaits = false) : (owed p n false x).waitingOffs =
    [ejectOff x p { node := n, placed := false, number := x.offNumber }] := by
  have hplaced (z : ZoneNo) (o : OffCommand) (ho : o ∈ (x.zone z).offs) : o.placed = true := by
    by_contra hp
    exact absurd (offWaits_iff.mpr (.inl ⟨z, o, ho, Bool.not_eq_true _ |>.mp hp⟩)) (by rw [hw]; decide)
  have hother (q : PressNo) (hq : q ≠ p) : pressWaiting (owed p n false x) q = none := by
    rw [pressWaiting_owed_of_ne hq]
    refine pressWaiting_of_placed fun o ho => ?_
    by_contra hp
    exact absurd (offWaits_iff.mpr (.inr ⟨q, o, ho, Bool.not_eq_true _ |>.mp hp⟩)) (by rw [hw]; decide)
  have hthis : pressWaiting (owed p n false x) p =
      some (ejectOff x p { node := n, placed := false, number := x.offNumber }) := by
    unfold pressWaiting
    rw [ejector_owed]
    rfl
  obtain ⟨l, r, hsplit, _⟩ := finRange_split p
  have hnodup := List.nodup_finRange 4
  rw [hsplit, List.nodup_append] at hnodup
  obtain ⟨_, hright, hdisjoint⟩ := hnodup
  have hl : l.filterMap (pressWaiting (owed p n false x)) = [] :=
    List.filterMap_eq_nil_iff.mpr fun q hq => hother q (hdisjoint q hq p List.mem_cons_self)
  have hr : r.filterMap (pressWaiting (owed p n false x)) = [] :=
    List.filterMap_eq_nil_iff.mpr fun q hq => hother q fun he => (List.nodup_cons.mp hright).1 (he ▸ hq)
  have hzones : (List.finRange 48).flatMap (zoneWaiting (owed p n false x)) = [] :=
    List.flatMap_eq_nil_iff.mpr fun z _ => zoneWaiting_of_placed (hplaced z)
  rw [waitingOffs_eq, hsplit, List.filterMap_append, List.filterMap_cons, hthis, hl, hr, hzones]
  rfl

/-- The EJECT_OFF takes a free place. -/
theorem placeOwed_owed_of_room (hn : x.normal = true) (hroom : x.portD.own.length < 16) (hw : x.offWaits = false) :
    (owed p n false x).placeOwed = (owed p n true x).modPort .D fun y => { y with own := y.own ++
      [{ dst := n, src := x.ownAddress, kind := .command, payload := [5#8], mark := .ejectOff p x.offNumber }] } := by
  have howed : ((owed p n false x).ejector p).offOwed = some { node := n, placed := false, number := x.offNumber } := by
    rw [ejector_owed]
    rfl
  have hplace : ([] : List OwnFrame).length + (owed p n false x).portD.own.length < Config.ownPlaces := by
    rw [List.length_nil, Nat.zero_add]
    exact hroom
  have hfill := fillPlaces_append_ejectOff (w := []) p _ howed hplace
  rw [List.nil_append, fillPlaces_nil] at hfill
  rw [placeOwed_eq (s := owed p n false x) hn, waitingOffs_owed hw]
  refine hfill.trans ?_
  rw [owed, show ∀ f y g, (pushOwn .D f (modEjector p g y)) = (pushOwn .D f y).modEjector p g from fun _ _ _ => rfl,
    modEjector_modEjector]
  rfl

/-- The end of an ejection (R148, R150), as the statements put it. -/
theorem finishEjection_eq (hn : x.normal = true) :
    ((x.ejector p).node = none → 16 ≤ x.portD.own.length ∨ x.offWaits = false → x.finishEjection p = stopped p x)
    ∧ ∀ n, (x.ejector p).node = some n →
      (16 ≤ x.portD.own.length → x.finishEjection p = stopped p (owed p n false x))
      ∧ (x.portD.own.length < 16 → x.offWaits = false → x.finishEjection p =
        (stopped p (owed p n true x)).modPort .D fun y => { y with own :=
          y.own ++ [{ dst := n, src := x.ownAddress, kind := .command, payload := [5#8]
                      mark := .ejectOff p x.offNumber }] }) := by
  refine ⟨fun hnone hidle => ?_, fun n hsome => ⟨fun hfull => ?_, fun hroom hw => ?_⟩⟩
  · rw [finishEjection, stopEjection, oweEjectOff_of_none hnone, placeOwed_of_idle hidle]
    rfl
  · have hidle : (owed p n false x).placeOwed = owed p n false x := placeOwed_of_idle (.inl hfull)
    rw [finishEjection, stopEjection, oweEjectOff_of_node hsome, hidle]
    rfl
  · rw [finishEjection, stopEjection, oweEjectOff_of_node hsome, placeOwed_owed_of_room hn hroom hw]
    rfl

/-! ## Compare points (R147, R148) -/

theorem ejectOn_eq (p : PressNo) (s : State) : s.ejectOn p = match (s.ejector p).node with
    | some n => s.originate .D n .command [4#8] .plain
    | none => s := by
  rw [ejectOn, show natBytes 1 ejectOnCode = [4#8] from Events.natBytes_one _] <;> rfl

theorem exec_compareA (h : s.Settled) (p : PressNo) :
    exec (.compareA p) s = .next (doIf (s.ejectorDue p .runToA (s.ejector p).compareA) (reachA p) s) :=
  running_of_settled h fun s => doIf (s.compareADue p) (reachA p) s

theorem exec_compareB (h : s.Settled) (p : PressNo) :
    exec (.compareB p) s = .next (doIf (s.ejectorDue p .runToB (s.ejector p).compareB) (reachB p) s) :=
  running_of_settled h fun s => doIf (s.compareBDue p) (reachB p) s

theorem ejectorDue_iff {phase : EjectPhase} {c : Nat} (h : s.Settled) : s.ejectorDue p phase c = true ↔
    (s.ejector p).phase = phase ∧ ∃ start, (s.ejector p).timerStart = some start ∧ c ≤ (s.timebase - start).toNat := by
  obtain ⟨_, hno, _⟩ := h
  simp only [ejectorDue, hno, Bool.not_false, Bool.true_and, Bool.and_eq_true, beq_iff_eq, Option.any_eq_true, since]
  exact and_congr_right fun _ => exists_congr fun _ => and_congr_right fun _ => decide_eq_true_iff

/-- An ejection that has not reached a compare value. -/
theorem not_ejectorDue_of_early {phase : EjectPhase} {c : Nat} (h : s.Settled)
    (hstart : (s.ejector p).timerStart = some start) (hearly : (s.timebase - start).toNat < c) :
    ¬s.ejectorDue p phase c = true := by
  rw [ejectorDue_iff h]
  rintro ⟨_, start', hstart', hdue⟩
  cases hstart.symm.trans hstart'
  exact Nat.not_le.mpr hearly hdue

/-- Settles O48: when each compare point is due and what it does, setup mode, and STEP. -/
theorem ejectionControl : Obligations.EjectionControl := by
  intro s p e on stopped' owed' ended
  refine ⟨fun own hn => ⟨fun hp => ?_, fun hp => ?_, fun start hstart => ?_⟩, fun bytes f => ?_⟩
  · rw [exec_compareA hn.1, doIf_of_not fun h => hp ((ejectorDue_iff hn.1).mp h).1]
  · rw [exec_compareB hn.1, doIf_of_not fun h => hp ((ejectorDue_iff hn.1).mp h).1]
  · intro reading
    refine ⟨fun hearly => ?_, fun hp hdue => ?_, fun hearly => ?_, fun hp hdue => ?_⟩
    · rw [exec_compareA hn.1, doIf_of_not (not_ejectorDue_of_early hn.1 hstart hearly)]
    · rw [exec_compareA hn.1, doIf_of ((ejectorDue_iff hn.1).mpr ⟨hp, start, hstart, hdue⟩)]
      refine ⟨fun hs => ?_, fun hs => ?_⟩
      · rw [reachA, if_neg (Bool.eq_false_iff.mp hs), ejectOn_eq] <;> rfl
      · rw [reachA, if_pos hs]
        rfl
    · rw [exec_compareB hn.1, doIf_of_not (not_ejectorDue_of_early hn.1 hstart hearly)]
    · rw [exec_compareB hn.1, doIf_of ((ejectorDue_iff hn.1).mpr ⟨hp, start, hstart, hdue⟩)]
      refine ⟨fun hs => ?_, fun hs => ?_⟩
      · rw [reachB, if_neg (Bool.eq_false_iff.mp hs)]
        exact ⟨_, rfl, finishEjection_eq (normal_of_Normal hn)⟩
      · rw [reachB, if_pos hs]
        rfl
  · intro setup
    refine ⟨fun h => ?_, fun h => ?_, fun h => ?_⟩
    · refine (running_answer h nofun).trans ?_
      rw [answer, serveRequest, onPress_of_lt]
      rfl
    · refine (running_answer h nofun).trans ?_
      rw [answer, serveRequest, onPress_of_lt]
      rfl
    · have hn := h.1
      have hrun : running (receive .U bytes) s = .next (answer f (.step p.val) s.linkActivity) := running_answer h nofun
      rw [answer, serveRequest, onPress_of_lt, ejectStep] at hrun
      refine ⟨fun hA hB => ?_, fun hA => ?_, fun hB => ?_⟩
      · cases hphase : (s.linkActivity.ejector p).phase with
        | heldAtA => exact absurd hphase hA
        | heldAtB => exact absurd hphase hB
        | stopped | runToA | runToB =>
          rw [hphase] at hrun
          exact hrun
      · rw [show (s.linkActivity.ejector p).phase = .heldAtA from hA, ejectOn_eq] at hrun
        exact hrun
      · rw [show (s.linkActivity.ejector p).phase = .heldAtB from hB] at hrun
        exact ⟨_, hrun, finishEjection_eq (x := s.linkActivity) (normal_of_Normal hn)⟩

end Sys2Proof.Proofs.Ejections
end

