-- ==== Sys2Proof/Proofs/ClosedSlots.lean ====
section
/-! PROOFS. What the close of a record leaves of the ring (R160, R180, R181), and the ejection that ends in FAULT
(R151, R152). -/

namespace Sys2Proof.Proofs.ClosedSlots

set_option Elab.async false

open Sys2Proof.Machine Sys2Proof.Machine.State Sys2Proof.Proofs.ExportMoves Sys2Proof.Proofs.RecordCloses
  Sys2Proof.Proofs.CureRules Sys2Proof.Proofs.HeatLaws Sys2Proof.Proofs.OtherPresses Sys2Proof.Proofs.Ejections
  Sys2Proof.Proofs.Reception Sys2Proof.Proofs.Timers Sys2Proof.Proofs.Events Sys2Proof.Proofs.SmallRequests
  Sys2Proof.Proofs.CycleViews

variable {s t x : State} {p : PressNo} {i : Fin 512} {r : Record} {cause : CloseCause} {tm : Time}
  {bytes : List Byte} {f : RxFrame} {a : EjectorReport} {n : Nat}

/-! ## The ring after a close (R160) -/

/-- Of the ring only exported marks have changed. -/
def OnlyMarks (s t : State) : Prop := t.history = { s.history with slots := t.history.slots }
  ∧ ∀ (i : Fin 512) (r : Record), s.history.slots[i] = some r →
    ∃ e, t.history.slots[i] = some { r with exported := e }

theorem onlyMarks_of_history (h : t.history = s.history) : OnlyMarks s t :=
  ⟨by rw [h], fun i r hr => ⟨r.exported, by rw [h]; exact hr⟩⟩

theorem onlyMarks_exportMoves (s : State) : OnlyMarks s s.exportMoves := by
  obtain ⟨_, ⟨_, _, hhistory, hslots⟩, _⟩ := sends_moveHeads _ s (Nat.le_refl _)
  exact ⟨hhistory, fun i r hr => ⟨_, (hslots i).trans (by rw [hr]; rfl)⟩⟩

/-- An event that no press has is noted in no record. -/
theorem history_raise_of_unnoted {k : EventKind} {o : EventOn} (h : s.notedPresses o = []) :
    (s.raise tm k o).history = s.history := by
  have hentry : (s.raiseEntry tm k o).history = s.history := by
    rw [raiseEntry, noteEvent, show ∀ ev, State.notedPresses { s with events := ev } o = [] from fun _ => h, each_nil]
  have hdrop (x : State) : (x.raiseEntry tm .linkDrop (.port .U)).history = x.history := by
    rw [raiseEntry, noteEvent, show ∀ ev, State.notedPresses { x with events := ev } (.port .U) = [] from fun _ => rfl,
      each_nil]
  unfold raise
  split
  · refine Eq.trans ?_ hentry
    unfold evalAttention
    repeat' split
    · rfl
    · rfl
    · unfold sendEvent
      split
      · rfl
      · exact hdrop _
    · rfl
  · rfl

theorem onlyMarks_handToExport (r : Record) (s : State) : OnlyMarks s (handToExport r s) := by
  unfold handToExport
  repeat' split
  · exact onlyMarks_exportMoves { s with exportQueue := s.exportQueue ++ [r.serial] }
  · exact onlyMarks_of_history (history_raise_of_unnoted rfl)
  · exact onlyMarks_of_history rfl

/-- The slot and the index of a record that closes. -/
theorem slot_closeRecord (hi : s.history.openRecord[p] = some i) (hr : s.history.slots[i] = some r) :
    (s.closeRecord p cause tm).history.openRecord[p] = none
      ∧ ∃ e, (s.closeRecord p cause tm).history.slots[i] = some { closedRecord cause tm r with exported := e } := by
  let closed := s.modHistory fun h =>
    { h with slots := h.slots.set i (some (closedRecord cause tm r)), openRecord := h.openRecord.set p none }
  have hclose (y : State) (hy : y.history = closed.history) :
      (handToExport (closedRecord cause tm r) y).history.openRecord[p] = none
        ∧ ∃ e, (handToExport (closedRecord cause tm r) y).history.slots[i]
          = some { closedRecord cause tm r with exported := e } := by
    obtain ⟨hhistory, hslots⟩ := onlyMarks_handToExport (closedRecord cause tm r) y
    refine ⟨?_, hslots i _ ?_⟩
    · rw [hhistory, hy]
      exact Vector.getElem_set_self p.isLt
    · rw [hy]
      exact Vector.getElem_set_self i.isLt
  rw [closeRecord_eq hi hr]
  dsimp only
  split
  · exact hclose _ rfl
  · exact hclose _ rfl

/-- Operations that open and close no record leave an OPEN record in its slot. -/
theorem openSlot_of_opened (h : opened t.history = opened s.history) (hi : s.history.openRecord[p] = some i)
    (hr : s.history.slots[i] = some r) :
    t.history.openRecord[p] = some i ∧ ∃ r, t.history.slots[i] = some r := by
  obtain ⟨hopen, hslots⟩ := Prod.mk.inj h
  refine ⟨(congrArg (fun v : Vector (Option (Fin 512)) 4 => v[p]) hopen).trans hi, Option.isSome_iff_exists.mp ?_⟩
  exact (congrFun hslots i).trans (by rw [hr]; rfl)

theorem raw_closeRecord {j : Fin 25} (h : s.events[j].raw = true) : (s.closeRecord p cause tm).events[j].raw = true := by
  have hmoves (x : State) (hx : x.events[j].raw = true) : (x.exportMoves).events[j].raw = true :=
    raw_of_changes (exportMoves_changes x) hx
  have hhand (r : Record) (x : State) (hx : x.events[j].raw = true) : (handToExport r x).events[j].raw = true := by
    unfold handToExport
    repeat' split
    · exact hmoves { x with exportQueue := x.exportQueue ++ [r.serial] } hx
    · exact raw_raise hx
    · exact hx
  unfold closeRecord
  dsimp only
  split
  · exact h
  · rename_i r _
    refine hhand _ _ ?_
    have hrecord := raw_of_changes (modRecord_changes p (fun _ => closedRecord cause tm r) s) h
    split
    · exact raw_of_changes (modProfile_changes _ _ _ _) hrecord
    · exact hrecord

/-! ## A watched force (R151) -/

theorem raisesPeak_iff {e : Ejector} {force : Nat} : raisesPeak e force = true ↔ ∀ m, e.peak = some m → m < force := by
  unfold raisesPeak
  cases e.peak with
  | none => simp
  | some m => simp

theorem commandedOn_iff {ph : EjectPhase} : ph.commandedOn = true ↔ ph = .runToB ∨ ph = .heldAtB := by
  cases ph with
  | stopped | runToA | heldAtA => simp [EjectPhase.commandedOn]
  | runToB | heldAtB => simp [EjectPhase.commandedOn]

/-- The state has the frame's report. -/
def reported (p : PressNo) (a : EjectorReport) (s : State) : State :=
  s.modEjector p fun e => { e with lastStatus := some a }

theorem takeEjector_of_off (h : ¬(s.ejector p).phase.commandedOn = true) : s.takeEjector p a = reported p a s := if_neg h

theorem takeEjector_of_on (h : (s.ejector p).phase.commandedOn = true) : s.takeEjector p a =
    doIf (decide ((s.ejector p).stuckForce < a.force)) (stuckPart p a.arrival) ((reported p a s).followPeak p a.force) :=
  if_pos h

theorem ejector_reported : (reported p a s).ejector p = { s.ejector p with lastStatus := some a } :=
  ejector_modEjector p _ s

theorem raisesPeak_reported : raisesPeak ((reported p a s).ejector p) n = raisesPeak (s.ejector p) n := by
  rw [ejector_reported]
  rfl

theorem followPeak_of_low (h : ¬raisesPeak (s.ejector p) n = true) : s.followPeak p n = s := if_neg h

theorem followPeak_of_high (h : raisesPeak (s.ejector p) n = true) : s.followPeak p n =
    (s.modEjector p fun e => { e with peak := some n }).modRecord p fun r => { r with peakForce := some n } := if_pos h

theorem ejector_followPeak : (s.followPeak p n).ejector p =
    { s.ejector p with peak := if raisesPeak (s.ejector p) n = true then some n else (s.ejector p).peak } := by
  by_cases h : raisesPeak (s.ejector p) n = true
  · rw [followPeak_of_high h, ejector_of_changes (modRecord_changes _ _ _), ejector_modEjector, if_pos h]
  · rw [followPeak_of_low h, if_neg h]

/-! ## An ejection that ends (R148, R152, R153) -/

theorem keepsZone_stopEjection (p : PressNo) (s : State) (z : ZoneNo) : s.KeepsZone (s.stopEjection p) z :=
  keepsZone_trans (keepsZone_of_changes (oweEjectOff_changes p s) z) (keepsZone_trans (keepsZone_placeOwed z _)
    (keepsZone_of_changes (modEjector_changes p _ _) z))

theorem keepsOthers_oweEjectOff (p : PressNo) (s : State) : s.KeepsOthers (s.oweEjectOff p) p := by
  cases hn : (s.ejector p).node with
  | none => rw [oweEjectOff_of_none hn]; exact keepsOthers_refl s p
  | some n => rw [oweEjectOff_of_node hn]; exact keepsOthers_modEjector p _ _

theorem keepsOthers_stopEjection (p : PressNo) (s : State) : s.KeepsOthers (s.stopEjection p) p :=
  keepsOthers_trans (keepsOthers_oweEjectOff p s) (keepsOthers_trans (keepsOthers_placeOwed _ p)
    (keepsOthers_modEjector p _ _))

theorem ejector_oweEjectOff (p : PressNo) (s : State) : (s.oweEjectOff p).ejector p =
    { s.ejector p with offOwed := ((s.oweEjectOff p).ejector p).offOwed } := by
  cases hn : (s.ejector p).node with
  | none => rw [oweEjectOff_of_none hn]
  | some n => rw [oweEjectOff_of_node hn, ejector_owed]; rfl

theorem ejector_stopEjection (p : PressNo) (s : State) : (s.stopEjection p).ejector p =
    { s.ejector p with phase := .stopped, timerStart := none
                       offOwed := ((s.stopEjection p).ejector p).offOwed } := by
  obtain ⟨hkept, _⟩ := keepsEjector_placeOwed p (s.oweEjectOff p)
  have howe := ejector_oweEjectOff p s
  rw [stopEjection, ejector_modEjector, hkept, howe]
  rfl

/-- The EJECT_OFF of the node is owed. -/
theorem owed_stopEjection (hn : (s.ejector p).node = some n) :
    ((s.stopEjection p).ejector p).offOwed.map OffOwed.node = some n := by
  obtain ⟨_, howed⟩ := keepsEjector_placeOwed p (s.oweEjectOff p)
  have hnode (o : Option OffOwed) : o.map OffOwed.node = (o.map OffOwed.unplaced).map OffOwed.node := by
    rw [Option.map_map]
    rfl
  rw [stopEjection, ejector_modEjector]
  show ((s.oweEjectOff p).placeOwed.ejector p).offOwed.map OffOwed.node = some n
  rw [hnode, howed, oweEjectOff_of_node hn, ejector_owed]
  rfl

/-! ## A stuck part (R152) -/

/-- The ejection has ended, and the record says why. -/
def stuck (p : PressNo) (tm : Time) (s : State) : State :=
  (((s.stopEjection p).raise tm .ejectStuck (.press p)).setFlag p .ejectStuck).modUnit p fun u =>
    { u with state := .fault }

theorem stuckPart_eq (p : PressNo) (tm : Time) (s : State) :
    s.stuckPart p tm = (stuck p tm s).closeRecord p .fault tm := rfl

theorem stuck_changes (p : PressNo) (tm : Time) (s : State) :
    OnlyChanges (.units :: raiseParts) (s.stopEjection p) (stuck p tm s) :=
  (((raise_changes _ _ _ _).mono (by decide)).trans ((setFlag_changes _ _ _).mono (by decide))).trans
    ((modUnit_changes _ _ _).mono (by decide))

theorem stuckPart_after (p : PressNo) (tm : Time) (s : State) :
    OnlyChanges (.units :: closeParts) (s.stopEjection p) (s.stuckPart p tm) :=
  ((stuck_changes p tm s).mono (by decide)).trans ((closeRecord_changes p _ _ _).mono (by decide))

theorem keepsOthers_stuckPart (p : PressNo) (tm : Time) (s : State) : s.KeepsOthers (s.stuckPart p tm) p :=
  keepsOthers_trans (keepsOthers_stopEjection p s) (keepsOthers_trans (keepsOthers_raise _ _ _ _ p)
    (keepsOthers_trans (keepsOthers_of_changes (setFlag_changes _ _ _) p)
      (keepsOthers_trans (keepsOthers_modUnit p _ _) (keepsOthers_of_changes (closeRecord_changes p _ _ _) p))))

theorem raw_stuckPart (hl : s.live = true) : (s.stuckPart p tm).events[EventKind.ejectStuck.number].raw = true := by
  have hlive : (s.stopEjection p).live = true := (live_of_changes (stopEjection_changes p s)).trans hl
  exact raw_closeRecord (raw_of_changes (modUnit_changes _ _ _) (raw_of_changes (setFlag_changes _ _ _)
    (raw_raise_self hlive _ _ _)))

theorem slot_stuckPart (hi : s.history.openRecord[p] = some i) (hr : s.history.slots[i] = some r) :
    (s.stuckPart p tm).history.openRecord[p] = none ∧ ∃ r', (s.stuckPart p tm).history.slots[i] = some r'
      ∧ r'.state = .closed ∧ r'.outcome = some .reject ∧ r'.flags.getLsbD 11 = true := by
  have hstop : (s.stopEjection p).history = s.history := (stopEjection_changes p s .history (by decide)).symm
  obtain ⟨hi', r', hr'⟩ := openSlot_of_opened (opened_raise tm .ejectStuck (.press p) (s.stopEjection p))
    (by rw [hstop]; exact hi) (by rw [hstop]; exact hr)
  have hopen : (stuck p tm s).history.openRecord[p] = some i := by
    show (((s.stopEjection p).raise tm .ejectStuck (.press p)).setFlag p .ejectStuck).history.openRecord[p] = some i
    rw [setFlag, modRecord_history_openRecord]
    exact hi'
  have hslot : (stuck p tm s).history.slots[i] = some (r'.set .ejectStuck) := by
    show (((s.stopEjection p).raise tm .ejectStuck (.press p)).setFlag p .ejectStuck).history.slots[i] = _
    rw [setFlag, slots_modRecord, if_pos hi', hr']
    rfl
  obtain ⟨hnone, e, hclosed⟩ := slot_closeRecord (cause := .fault) (tm := tm) hopen hslot
  rw [stuckPart_eq]
  refine ⟨hnone, _, hclosed, rfl, ?_, ?_⟩
  · have hno : ¬Aborts .fault := by rintro (h | h | h) <;> cases h
    exact (outcome_closedRecord_of_not_aborts hno).trans (congrArg some (if_pos (.inl rfl)))
  · rw [closedRecord_eq]
    exact flags_set r' .ejectStuck

/-- The state before the stuck force is judged: the report, and the peak that follows it. -/
def followed (p : PressNo) (a : EjectorReport) (s : State) : State := (reported p a s).followPeak p a.force

theorem ejector_followed : (followed p a s).ejector p = { s.ejector p with
    lastStatus := some a
    peak := if raisesPeak (s.ejector p) a.force = true then some a.force else (s.ejector p).peak } := by
  rw [followed, ejector_followPeak, raisesPeak_reported, ejector_reported]

theorem followed_changes (p : PressNo) (a : EjectorReport) (s : State) :
    OnlyChanges [.ejectors, .history] s (followed p a s) :=
  ((modEjector_changes _ _ _).mono (by decide)).trans (followPeak_changes _ _ _)

theorem keepsOthers_followed (p : PressNo) (a : EjectorReport) (s : State) : s.KeepsOthers (followed p a s) p := by
  have hreported : s.KeepsOthers (reported p a s) p := keepsOthers_modEjector p _ s
  unfold followed followPeak
  split
  · exact keepsOthers_trans hreported (keepsOthers_trans (keepsOthers_modEjector p _ _) (keepsOthers_modRecord p _ _ p))
  · exact hreported

theorem opened_followed (p : PressNo) (a : EjectorReport) (s : State) :
    opened (followed p a s).history = opened s.history := by
  unfold followed followPeak
  split
  · exact opened_modRecord p _ _
  · rfl

theorem exec_ejectorStatus (h : s.FromNode bytes f .ejector p.val .status)
    (ha : ejectorReportOf f.payload s.timebase = some a) :
    exec (.ejectorStatus bytes) s = .next (s.up f bytes (s.linkActivity.takeEjector p a)) := by
  have hrun : exec (.ejectorStatus bytes) s = running (receive .D bytes) s := rfl
  have ⟨_, hrole, hunit, hkind⟩ := h
  rw [hrun, running_fromNode h, consume_ejector hrole hkind, show s.linkActivity.timebase = s.timebase from rfl, ha,
    deliver_some, hunit, pressNo_val]
  rfl

/-- A force above the stuck force ends the ejection (R152). -/
theorem ejection_ended {peaks : Prop} (hl : s.live = true) (hpeaks : raisesPeak (s.ejector p) a.force = true ↔ peaks) :
    let e := s.ejector p
    let t := (followed p a s).stuckPart p tm
    t.unit p = { s.unit p with state := .fault }
      ∧ (t.ejector p).phase = .stopped ∧ (t.ejector p).timerStart = none
      ∧ (t.ejector p).lastStatus = some a
      ∧ (peaks → (t.ejector p).peak = some a.force) ∧ (¬peaks → (t.ejector p).peak = e.peak)
      ∧ (∀ n, e.node = some n → (t.ejector p).offOwed.map OffOwed.node = some n)
      ∧ t.ejector p = { e with phase := .stopped, timerStart := none, lastStatus := some a
                               peak := (t.ejector p).peak, offOwed := (t.ejector p).offOwed }
      ∧ (∀ z, s.KeepsZone t z) ∧ s.KeepsOthers t p ∧ (t.events[20]).raw = true
      ∧ (∀ i r, s.history.openRecord[p] = some i → s.history.slots[i] = some r →
        t.history.openRecord[p] = none ∧ ∃ r', t.history.slots[i] = some r' ∧ r'.state = .closed
          ∧ r'.outcome = some .reject ∧ r'.flags.getLsbD 11 = true)
      ∧ OnlyChanges (.units :: .ejectors :: .zones :: .offNumber :: .portD :: closeParts) s t := by
  intro e t
  have hbefore := followed_changes p a s
  have hafter := stuckPart_after p tm (followed p a s)
  have hejector : t.ejector p = { e with
      phase := .stopped, timerStart := none, lastStatus := some a
      peak := if raisesPeak e a.force = true then some a.force else e.peak
      offOwed := (t.ejector p).offOwed } := by
    rw [show t.ejector p = ((followed p a s).stopEjection p).ejector p from ejector_of_changes hafter p,
      ejector_stopEjection, ejector_followed]
  refine ⟨?_, ?_, ?_, ?_, fun hp => ?_, fun hp => ?_, fun n hn => ?_, ?_, fun z => ?_, ?_, ?_, fun i r hi hr => ?_, ?_⟩
  · have hstop := stopEjection_changes p (followed p a s)
    have hopen := (raise_changes tm .ejectStuck (.press p) ((followed p a s).stopEjection p))
    rw [show t = _ from stuckPart_eq p tm _, unit_of_changes (closeRecord_changes p _ _ _), stuck, unit_modUnit,
      unit_of_changes (setFlag_changes _ _ _), unit_of_changes hopen, unit_of_changes hstop, unit_of_changes hbefore]
  · rw [hejector]
  · rw [hejector]
  · rw [hejector]
  · rw [hejector]
    exact if_pos (hpeaks.mpr hp)
  · rw [hejector]
    exact if_neg (hpeaks.not.mpr hp)
  · rw [show t.ejector p = ((followed p a s).stopEjection p).ejector p from ejector_of_changes hafter p]
    exact owed_stopEjection (by rw [ejector_followed]; exact hn)
  · rw [hejector]
  · exact keepsZone_trans (keepsZone_of_changes hbefore z) (keepsZone_trans (keepsZone_stopEjection p _ z)
      (keepsZone_of_changes hafter z))
  · exact keepsOthers_trans (keepsOthers_followed p a s) (keepsOthers_stuckPart p tm _)
  · exact raw_stuckPart ((live_of_changes hbefore).trans hl)
  · obtain ⟨hi', r', hr'⟩ := openSlot_of_opened (opened_followed p a s) hi hr
    exact slot_stuckPart hi' hr'
  · exact (hbefore.mono (by decide)).trans ((stuckPart_changes p tm _).mono (by decide))

/-- Settles O49: the report is kept, the peak follows, and a force above the stuck force ends the ejection. -/
theorem ejectorForce : Obligations.EjectorForce := by
  intro s bytes f p a h ha e on peaks
  have hrun := exec_ejectorStatus h ha
  have hon : (s.linkActivity.ejector p).phase.commandedOn = true ↔ on := commandedOn_iff
  have hpeaks : raisesPeak (s.linkActivity.ejector p) a.force = true ↔ peaks := raisesPeak_iff
  have hstuck : decide ((s.linkActivity.ejector p).stuckForce < a.force) = true ↔ e.stuckForce < a.force :=
    decide_eq_true_iff
  refine ⟨fun hidle => hrun.trans ?_, fun h1 h2 h3 => hrun.trans ?_, fun h1 h2 => ?_⟩
  · rcases hidle with hoff | ⟨hlow, hno⟩
    · rw [takeEjector_of_off (hon.not.mpr hoff)]
      rfl
    · by_cases hcmd : on
      · rw [takeEjector_of_on (hon.mpr hcmd), doIf_of_not (hstuck.not.mpr (Nat.not_lt.mpr hlow)),
          followPeak_of_low (by rw [raisesPeak_reported]; exact hpeaks.not.mpr hno)]
        rfl
      · rw [takeEjector_of_off (hon.not.mpr hcmd)]
        rfl
  · rw [takeEjector_of_on (hon.mpr h1), doIf_of_not (hstuck.not.mpr (Nat.not_lt.mpr h2)),
      followPeak_of_high (by rw [raisesPeak_reported]; exact hpeaks.mpr h3), reported, modEjector_modEjector]
    rfl
  · rw [takeEjector_of_on (hon.mpr h1), doIf_of (hstuck.mpr h2)] at hrun
    obtain ⟨⟨⟨_, hn⟩, _⟩, _⟩ := h
    have hl : s.linkActivity.live = true := hn.live
    refine ⟨_, hrun, ejection_ended hl hpeaks⟩

end Sys2Proof.Proofs.ClosedSlots
end

