-- ==== Sys2Proof/Proofs/Evaluations.lean ====
section
/-! PROOFS. The evaluation of a value on a scale (R112, R113), the steady window (R107), and the change of head
(R119). -/

namespace Sys2Proof.Proofs.Evaluations

set_option Elab.async false

open Sys2Proof.Machine Sys2Proof.Machine.State Sys2Proof.Proofs.CureRules Sys2Proof.Proofs.HeatLaws
  Sys2Proof.Proofs.Timers Sys2Proof.Proofs.WindowPoints Sys2Proof.Proofs.Events

variable {s t u x : State} {k : ScaleNo} {c : Scale} {tm : Time} {head : Option (PressNo × Recipe)} {v : Int}
  {e : ScaleEntry} {w : List Int} {ps : List Part}

/-! ## Scales -/

theorem scale_of_changes (h : OnlyChanges ps s t) (k : ScaleNo) (hps : Part.scales ∉ ps := by decide) :
    t.scale k = s.scale k := by rw [State.scale, State.scale, show s.scales = t.scales from h .scales hps]

theorem modScale_modScale (k : ScaleNo) (f g : Scale → Scale) (s : State) :
    (s.modScale k f).modScale k g = s.modScale k fun c => g (f c) := by
  unfold modScale
  simp

theorem modScale_eq_const (k : ScaleNo) (f : Scale → Scale) (s : State) :
    s.modScale k f = s.modScale k fun _ => f (s.scale k) := rfl

/-! ## The window (R107) -/

theorem foldl_add_eq_sum (w : List Int) : w.foldl (· + ·) 0 = w.sum := by
  rw [List.sum_eq_foldl]

theorem meanOf_eq (e : ScaleEntry) (w : List Int) : meanOf e w = w.sum.tdiv (e.windowN : Int) := by
  rw [meanOf, foldl_add_eq_sum]

theorem stable_iff : stable e w = true ↔ e.Steady w := by
  rw [stable, Bool.and_eq_true, decide_eq_true_iff, ScaleEntry.Steady]
  refine and_congr_right fun _ => ?_
  cases w with
  | nil => simp [spreadOf, extremes]
  | cons m l =>
    obtain ⟨hle, hall, hin⟩ := foldl_min_le l m
    obtain ⟨gle, gall, gin⟩ := le_foldl_max l m
    have hlow (a : Int) (ha : a ∈ m :: l) : l.foldl min m ≤ a :=
      (List.mem_cons.mp ha).elim (fun h => h ▸ hle) (hall a)
    have hhigh (a : Int) (ha : a ∈ m :: l) : a ≤ l.foldl max m :=
      (List.mem_cons.mp ha).elim (fun h => h ▸ gle) (gall a)
    simp only [spreadOf, extremes, Option.map_some, Option.any_some, decide_eq_true_eq]
    constructor
    · intro hspread
      refine ⟨List.cons_ne_nil m l, fun a ha b hb => ?_⟩
      have h1 := hlow b hb
      have h2 := hhigh a ha
      omega
    · rintro ⟨_, hpairs⟩
      exact hpairs _ (List.mem_cons.mpr gin) _ (List.mem_cons.mpr hin)

/-! ## Port U OWN under a raise -/

theorem own_raiseEntry (tm : Time) (k : EventKind) (i : EventOn) (s : State) :
    (s.raiseEntry tm k i).portU = s.portU ∧ (s.raiseEntry tm k i).attention = s.attention := by
  unfold raiseEntry noteEvent
  exact StepRules.each_rule (Q := fun x => x.portU = s.portU ∧ x.attention = s.attention)
    (fun p {y} h => by
      have hm := modRecord_changes p (addNote { time := tm, kind := k, inst := i.code }) y
      have hport : y.portU = _ := hm .portU (by decide)
      have hattention : y.attention = _ := hm .attention (by decide)
      exact ⟨hport.symm.trans h.1, hattention.symm.trans h.2⟩) _ ⟨rfl, rfl⟩

/-- A raise leaves Port U OWN, or adds the EVENT frame, where one fits and attention was not up. -/
theorem own_raise (tm : Time) (k : EventKind) (i : EventOn) (s : State) :
    (s.raise tm k i).portU.own = s.portU.own ∨ s.portU.own.length < 16 ∧ s.attention = false
      ∧ ∃ f, (s.raise tm k i).portU.own = s.portU.own ++ [f] := by
  unfold raise
  split
  · obtain ⟨hport, hattention⟩ := own_raiseEntry tm k i s
    generalize s.raiseEntry tm k i = y at hport hattention
    rw [← hport, ← hattention]
    unfold evalAttention
    split
    · exact .inl rfl
    · split
      · split
        · exact .inl rfl
        · rename_i hno
          unfold sendEvent
          split
          · rename_i hroom
            exact .inr ⟨hroom, Bool.eq_false_iff.mpr hno, _, rfl⟩
          · exact .inl ((congrArg PortState.own (own_raiseEntry _ _ _ _).1).trans rfl)
      · exact .inl rfl
  · exact .inl rfl

/-! ## A frame to Port U -/

theorem modPortU_changes (f : PortState → PortState) (s : State) : OnlyChanges [.portU] s (s.modPort .U f) := by
  intro x hx
  cases x with
  | portU => exact absurd List.mem_cons_self hx
  | _ => rfl

theorem originateU_changes (d : Nat) (kk : FrameKind) (b : List Byte) (m : Mark) (s : State) :
    OnlyChanges raiseParts s (s.originate .U d kk b m) := by
  unfold originate
  split
  · split
    · exact (modPortU_changes _ s).mono (by decide)
    · exact ((modPortU_changes _ s).mono (by decide)).trans (raise_changes _ _ _ _)
  · exact .refl s

theorem raw_originateU {j : Fin 25} (h : s.events[j].raw = true) (d : Nat) (kk : FrameKind) (b : List Byte) (m : Mark) :
    (s.originate .U d kk b m).events[j].raw = true := by
  unfold originate
  repeat' split
  · exact h
  · exact raw_raise (s := countOwnDrop .U s) h
  · exact h

/-- A frame that Port U has no place for is counted. -/
theorem originateU_of_full (hl : s.live = true) (hfull : 16 ≤ s.portU.own.length) (d : Nat) (kk : FrameKind)
    (b : List Byte) (m : Mark) : (s.originate .U d kk b m).portU.own = s.portU.own
      ∧ (s.originate .U d kk b m).events[EventKind.linkDrop.number].raw = true := by
  rw [originate_of_full hl .U (show ¬_ < Config.ownPlaces from Nat.not_lt.mpr hfull)]
  refine ⟨?_, raw_raise_self (s := countOwnDrop .U s) hl _ .linkDrop _⟩
  rcases own_raise s.timebase .linkDrop (.port .U) (countOwnDrop .U s) with h | ⟨h, _⟩
  · exact h
  · exact absurd hfull (Nat.not_le.mpr h)

/-! ## The verdict (R112) -/

theorem verdictOn_eq (hx : x.scale k = c) (hh : x.Heads c head) : x.verdictOn k v = verdictFor head v (v - c.tare) := by
  have hnet : x.netOf k v = v - c.tare := by rw [netOf, hx]
  rcases hh with ⟨hq, rfl⟩ | ⟨q, rest, r, hq, hr, rfl⟩
  · have hhead : x.headOf k = none := by rw [headOf, hx, hq]; rfl
    rw [verdictOn, hhead, hnet]
    rfl
  · have hhead : x.headOf k = some q.press := by rw [headOf, hx, hq]; rfl
    rw [verdictOn, hhead]
    dsimp only
    rw [hr, hnet]
    dsimp only [verdictFor, judge]
    repeat' split
    · rfl
    · rfl
    · rfl

theorem countAttempt_eq (l : List QueueEntry) : countAttempt l = match l with
    | [] => []
    | q :: rest => { q with attempts := min 255 (q.attempts + 1) } :: rest := by
  cases l with
  | nil => rfl
  | cons q rest => rw [countAttempt, satSucc, Nat.min_comm]

/-! ## The evaluation (R112, R113) -/

/-- A state whose scales are evaluated: the verdict and the head's attempts. -/
def judged (k : ScaleNo) (v : Int) (s : State) : State :=
  s.modScale k fun c => { c with verdict := some (s.verdictOn k v), queue := countAttempt c.queue }

/-- The state before the VERDICT frame. -/
def announced (k : ScaleNo) (v : Int) (s : State) : State :=
  doIf ((s.verdictOn k v).kind == .light || (s.verdictOn k v).kind == .heavy) (raiseNow .chargeReject (.scale k))
    (judged k v s)

theorem evaluate_eq (k : ScaleNo) (v : Int) (s : State) : s.evaluate k v =
    originate .U (announced k v s).controller .verdict (verdictBytes k (s.verdictOn k v)) .plain (announced k v s) := rfl

/-- The evaluation rejects the load. -/
def Rejects (v : Verdict) : Prop := v.kind = .light ∨ v.kind = .heavy

theorem announced_of_rejects (h : Rejects (x.verdictOn k v)) :
    announced k v x = raiseNow .chargeReject (.scale k) (judged k v x) := by
  refine doIf_of ?_
  rw [Bool.or_eq_true, beq_iff_eq, beq_iff_eq]
  exact h

theorem announced_of_not_rejects (h : ¬Rejects (x.verdictOn k v)) : announced k v x = judged k v x := by
  refine doIf_of_not ?_
  rw [Bool.or_eq_true, beq_iff_eq, beq_iff_eq]
  exact h

theorem announced_changes (k : ScaleNo) (v : Int) (s : State) :
    OnlyChanges raiseParts (judged k v s) (announced k v s) :=
  .doIf _ (fun y => raise_changes _ _ _ y) (.refl _)

theorem evaluate_after (k : ScaleNo) (v : Int) (s : State) : OnlyChanges raiseParts (judged k v s) (s.evaluate k v) :=
  (announced_changes k v s).trans (originateU_changes _ _ _ _ _)

/-- An evaluation changes no part of Port D. -/
theorem evaluate_changes' (k : ScaleNo) (v : Int) (s : State) :
    OnlyChanges (.scales :: raiseParts) s (s.evaluate k v) :=
  ((modScale_changes k _ s).mono (by decide)).trans ((evaluate_after k v s).mono (by decide))

theorem evaluateTo_changes' (k : ScaleNo) (v : Int) (s : State) :
    OnlyChanges (.scales :: raiseParts) s (s.evaluateTo k v) :=
  (evaluate_changes' k v s).trans ((modScale_changes k _ _).mono (by decide))

theorem scale_evaluate (k : ScaleNo) (v : Int) (s : State) : (s.evaluate k v).scale k =
    { s.scale k with verdict := some (s.verdictOn k v), queue := countAttempt (s.scale k).queue } := by
  rw [scale_of_changes (evaluate_after k v s), judged, scale_modScale]

theorem scale_evaluate_of_ne {j : ScaleNo} (hj : j ≠ k) (v : Int) (s : State) :
    (s.evaluate k v).scale j = s.scale j := by
  rw [scale_of_changes (evaluate_after k v s), judged, scale_modScale_of_ne _ _ _ hj]

/-- The VERDICT frame of an evaluation. -/
def verdictFrame (s : State) (k : ScaleNo) (v : Verdict) : OwnFrame :=
  { dst := s.controller, src := s.ownAddress, kind := .verdict, mark := .plain
    payload := [BitVec.ofNat 8 k.val, BitVec.ofNat 8 ((v.press.map Fin.val).getD 255),
      BitVec.ofNat 8 v.kind.code] ++ intBytes 4 v.net ++ intBytes 4 v.trim }

theorem ports_of_changes (h : OnlyChanges (.scales :: raiseParts) s t) :
    t.controller = s.controller ∧ t.ownAddress = s.ownAddress ∧ t.live = s.live := by
  have htables : s.tables = t.tables := h .tables (by decide)
  have hmode : s.mode = t.mode := h .mode (by decide)
  exact ⟨by rw [controller, controller, htables], by rw [ownAddress, ownAddress, hmode], live_of_changes h⟩

/-- What an evaluation sends and raises. -/
structure Announces (s t : State) (k : ScaleNo) (v : Verdict) : Prop where
  raw : Rejects v → (t.events[9]).raw = true
  sent : (s.portU.own.length < 15 ∨ (s.portU.own.length < 16 ∧ (s.attention = true ∨ ¬Rejects v))) →
    verdictFrame s k v ∈ t.portU.own
  full : 16 ≤ s.portU.own.length → t.portU.own = s.portU.own ∧ (t.events[1]).raw = true

/-- Port U OWN before the VERDICT frame. -/
theorem own_announced (k : ScaleNo) (v : Int) (s : State) :
    (announced k v s).portU.own = s.portU.own ∨ s.portU.own.length < 16 ∧ s.attention = false
      ∧ Rejects (s.verdictOn k v) ∧ (announced k v s).portU.own.length = s.portU.own.length + 1 := by
  by_cases h : Rejects (s.verdictOn k v)
  · rw [announced_of_rejects h]
    rcases own_raise (judged k v s).timebase .chargeReject (.scale k) (judged k v s) with hown | ⟨hroom, ha, f, hown⟩
    · exact .inl hown
    · exact .inr ⟨hroom, ha, h, (congrArg List.length hown).trans List.length_append⟩
  · rw [announced_of_not_rejects h]
    exact .inl rfl

theorem announces_evaluate (hl : s.live = true) (k : ScaleNo) (v : Int) :
    Announces s (s.evaluate k v) k (s.verdictOn k v) := by
  have hjudged : OnlyChanges [.scales] s (judged k v s) := modScale_changes k _ s
  have hbefore : OnlyChanges (.scales :: raiseParts) s (announced k v s) :=
    (hjudged.mono (by decide)).trans ((announced_changes k v s).mono (by decide))
  obtain ⟨hcontroller, hown, hlive⟩ := ports_of_changes hbefore
  have hlive' := hlive.trans hl
  have hports := own_announced k v s
  rw [evaluate_eq]
  refine ⟨fun hr => ?_, fun hroom => ?_, fun hfull => ?_⟩
  · have hraw : (announced k v s).events[EventKind.chargeReject.number].raw = true := by
      rw [announced_of_rejects hr]
      exact raw_raise_self ((live_of_changes hjudged).trans hl) _ _ _
    exact raw_originateU hraw _ _ _ _
  · have hplace : (announced k v s).portU.own.length < 16 := by
      rcases hports with hsame | ⟨h16, ha, hr, hlen⟩
      · rw [hsame]
        omega
      · rcases hroom with h15 | ⟨_, hup | hno⟩
        · omega
        · exact absurd (ha.symm.trans hup) (by decide)
        · exact absurd hr hno
    have hframe : verdictFrame s k (s.verdictOn k v) =
        { dst := (announced k v s).controller, src := (announced k v s).ownAddress, kind := .verdict
          payload := verdictBytes k (s.verdictOn k v), mark := .plain } := by
      rw [hcontroller, hown, verdictBytes, natBytes_one, natBytes_one, natBytes_one]
      rfl
    rw [originate_of_room hlive' .U (show _ < Config.ownPlaces from hplace), hframe]
    exact List.mem_append_right _ List.mem_cons_self
  · have hsame : (announced k v s).portU.own = s.portU.own := hports.resolve_right fun h => by omega
    obtain ⟨hown', hraw⟩ := originateU_of_full hlive' (by rw [hsame]; exact hfull) (announced k v s).controller .verdict
      (verdictBytes k (s.verdictOn k v)) .plain
    exact ⟨hown'.trans hsame, hraw⟩

/-- An evaluation as the statements put it, from what it announces. -/
theorem evaluated_of_announces {held : Option ScaleState} (h : Announces s t k (verdictFor head v (v - c.tare)))
    (hk : t.scale k = { c with
      state := held.getD (verdictFor head v (v - c.tare)).kind.state
      verdict := some (verdictFor head v (v - c.tare)), queue := countAttempt c.queue })
    (hj : ∀ j, j ≠ k → t.scale j = s.scale j) : s.Evaluated t k c head v held := by
  rw [countAttempt_eq] at hk
  refine ⟨?_, hj, h.raw, h.sent, h.full⟩
  rw [hk]
  cases (verdictFor head v (v - c.tare)).kind with
  | accepted | light | heavy | noRequest => rfl

/-- An evaluation that leaves the state of the scale. -/
theorem evaluated_evaluate (hl : x.live = true) (hx : x.scale k = c) (hh : x.Heads c head) :
    x.Evaluated (x.evaluate k v) k c head v (some c.state) := by
  have hv := verdictOn_eq (v := v) hx hh
  refine evaluated_of_announces (hv ▸ announces_evaluate hl k v) ?_ fun j hj => scale_evaluate_of_ne hj v x
  rw [scale_evaluate, hv, hx]
  rfl

/-- An evaluation after which the scale enters the state of the verdict. -/
theorem evaluated_evaluateTo (hl : x.live = true) (hx : x.scale k = c) (hh : x.Heads c head) :
    x.Evaluated (x.evaluateTo k v) k c head v none := by
  have hv := verdictOn_eq (v := v) hx hh
  have hannounces := announces_evaluate hl k v
  rw [hv] at hannounces
  refine evaluated_of_announces ⟨hannounces.raw, hannounces.sent, hannounces.full⟩ ?_ fun j hj => ?_
  · rw [evaluateTo, scale_modScale, scale_evaluate, hv, hx]
    rfl
  · rw [evaluateTo, scale_modScale_of_ne _ _ _ hj, scale_evaluate_of_ne hj v x]

/-- The evaluation reads of the state before only the ports, the attention and the other scales. -/
theorem evaluated_of_scaled {held : Option ScaleState} (hc : OnlyChanges [.scales] s x)
    (hj : ∀ j, j ≠ k → x.scale j = s.scale j) (h : x.Evaluated t k c head v held) : s.Evaluated t k c head v held := by
  obtain ⟨hcontroller, hown, _⟩ := ports_of_changes (hc.mono (by decide))
  have hport : s.portU = x.portU := hc .portU (by decide)
  have hattention : s.attention = x.attention := hc .attention (by decide)
  obtain ⟨h1, h2, h3, h4, h5⟩ := h
  refine ⟨h1, fun j hne => (h2 j hne).trans (hj j hne), h3, ?_, ?_⟩
  · rw [hport, hattention, ← hcontroller, ← hown]
    exact h4
  · rw [hport]
    exact h5

end Sys2Proof.Proofs.Evaluations
end

