-- ==== Sys2Proof/Proofs/GrossValues.lean ====
section
/-! PROOFS. The gross values of a scale's channel entries (R104 to R106), and what each does by the scale's state
(R108, R109, R111). -/

namespace Sys2Proof.Proofs.GrossValues

set_option Elab.async false

open Sys2Proof.Machine Sys2Proof.Machine.State Sys2Proof.Proofs.CureRules Sys2Proof.Proofs.HeatLaws
  Sys2Proof.Proofs.Timers Sys2Proof.Proofs.Reception Sys2Proof.Proofs.Evaluations

variable {s t y : State} {k : ScaleNo} {c : Scale} {tm : Time} {head : Option (PressNo × Recipe)} {g : Int}
  {bytes : List Byte} {f : RxFrame} {e : ChannelEntry} {a b : Int}

/-! ## A SAMPLE of one entry (R104, R105) -/

/-- A scale's context, set. -/
def weighed (s : State) (k : ScaleNo) (c : Scale) : State := s.linkActivity.modScale k fun _ => c

theorem scale_weighed : (weighed s k c).scale k = c := scale_modScale k _ _

theorem modScale_weighed (h : Scale → Scale) : (weighed s k c).modScale k h = weighed s k (h c) :=
  modScale_modScale k _ _ _

theorem modScale_link (h : Scale → Scale) : s.linkActivity.modScale k h = weighed s k (h (s.scale k)) := rfl

/-- The entry as the channel's last. -/
def entryOf (s : State) (e : ChannelEntry) : LastEntry := { status := e.status, value := e.value, arrival := s.timebase }

theorem exec_scaleSample (h : s.FromNode bytes f .scale k.val .sample) (he : sampleOf f.payload = some [e]) :
    exec (.scaleSample bytes) s =
      .next (s.up f bytes (s.linkActivity.takeScaleEntry k f.src s.timebase e)) := by
  have hrun : exec (.scaleSample bytes) s = running (receive .D bytes) s := rfl
  have ⟨_, hrole, hunit, hkind⟩ := h
  rw [hrun, running_fromNode h, consume_scale hrole hkind, deliver_some he, hunit, scaleNo_val, takeScale, each_cons,
    each_nil]
  rfl

section

variable (hA : (s.scaleEntry k).channelA = some { node := f.src, line := e.channel })
include hA

theorem takeScaleEntry_of_A : s.linkActivity.takeScaleEntry k f.src s.timebase e =
    takeChannelA k e s.timebase s.linkActivity := if_pos hA

end

section

variable (hA : (s.scaleEntry k).channelA ≠ some { node := f.src, line := e.channel })
include hA

theorem takeScaleEntry_of_B (hB : (s.scaleEntry k).channelB = some { node := f.src, line := e.channel }) :
    s.linkActivity.takeScaleEntry k f.src s.timebase e = takeChannelB k e s.timebase s.linkActivity := by
  rw [takeScaleEntry]
  exact (if_neg hA).trans (if_pos hB)

theorem takeScaleEntry_of_none (hB : (s.scaleEntry k).channelB ≠ some { node := f.src, line := e.channel }) :
    s.linkActivity.takeScaleEntry k f.src s.timebase e = s.linkActivity := by
  rw [takeScaleEntry]
  exact (if_neg hA).trans (if_neg hB)

end

theorem takeChannelA_of_disabled (hd : (s.scale k).state = .disabled) :
    takeChannelA k e s.timebase s.linkActivity = weighed s k { s.scale k with lastA := some (entryOf s e) } :=
  if_pos hd

theorem takeChannelA_of_bad (hd : (s.scale k).state ≠ .disabled) (he : e.status ≠ .ok) :
    takeChannelA k e s.timebase s.linkActivity = weighed s k { s.scale k with
      lastA := some (entryOf s e), skipped := min ((s.scale k).skipped + 1) 65535
      heldA := if (s.scaleEntry k).mode = .single then (s.scale k).heldA else none } := by
  rw [takeChannelA]
  refine ((if_neg hd).trans (if_neg he)).trans ?_
  rw [skip, modScale_link, modScale_weighed, modScale_weighed]
  rfl

theorem takeChannelA_of_ok (hd : (s.scale k).state ≠ .disabled) (he : e.status = .ok) :
    takeChannelA k e s.timebase s.linkActivity = takeA k (s.scaleEntry k).mode e.value s.timebase
      (weighed s k { s.scale k with lastA := some (entryOf s e) }) := by
  rw [takeChannelA]
  exact (if_neg hd).trans (if_pos he)

theorem takeChannelB_of_disabled (hd : (s.scale k).state = .disabled) :
    takeChannelB k e s.timebase s.linkActivity = weighed s k { s.scale k with lastB := some (entryOf s e) } :=
  if_pos hd

theorem takeChannelB_of_bad (hd : (s.scale k).state ≠ .disabled) (he : e.status ≠ .ok) :
    takeChannelB k e s.timebase s.linkActivity = weighed s k { s.scale k with
      lastB := some (entryOf s e), skipped := min ((s.scale k).skipped + 1) 65535 } := by
  rw [takeChannelB]
  refine ((if_neg hd).trans (if_neg he)).trans ?_
  rw [skip, modScale_link, modScale_weighed]
  rfl

theorem takeChannelB_of_ok (hd : (s.scale k).state ≠ .disabled) (he : e.status = .ok) :
    takeChannelB k e s.timebase s.linkActivity = takeB k (s.scaleEntry k).mode e.value s.timebase
      (weighed s k { s.scale k with lastB := some (entryOf s e) }) := by
  rw [takeChannelB]
  exact (if_neg hd).trans (if_pos he)

/-- In SUM and CHECK mode a value of channel A is held. -/
theorem takeA_of_pairs {mode : ScaleMode} (hm : mode ≠ .single) (a : Int) (tm : Time) (s : State) :
    takeA k mode a tm s = s.modScale k fun c => { c with heldA := some { value := a, arrival := tm } } := by
  cases mode with
  | single => exact absurd rfl hm
  | sum | check => rfl

/-! ## Channel B with a held A value (R105, R106) -/

theorem takeB_of_single (b : Int) (tm : Time) (s : State) : takeB k .single b tm s = s := rfl

theorem takeB_of_none {mode : ScaleMode} (hm : mode ≠ .single) (hc : c.heldA = none) :
    takeB k mode b tm (weighed s k c) = weighed s k { c with skipped := min (c.skipped + 1) 65535 } := by
  have hheld : ((weighed s k c).scale k).heldA = none := by rw [scale_weighed, hc]
  have hskip : skip k (weighed s k c) = weighed s k { c with skipped := min (c.skipped + 1) 65535 } := by
    rw [skip, modScale_weighed]
    rfl
  cases mode with
  | single => exact absurd rfl hm
  | sum | check =>
    unfold takeB
    rw [hheld]
    exact hskip

section

variable {v : HeldValue} (hc : c.heldA = some v)
include hc

theorem takeB_of_sum : takeB k .sum b tm (weighed s k c) =
    takeGross k (v.value + b) tm (weighed s k { c with heldA := none }) := by
  have hheld : ((weighed s k c).scale k).heldA = some v := by rw [scale_weighed, hc]
  unfold takeB
  rw [hheld]
  exact congrArg (takeGross k (v.value + b) tm) (modScale_weighed _)

theorem takeB_of_check : takeB k .check b tm (weighed s k c) =
    takePair k v.value b tm (weighed s k { c with heldA := none }) := by
  have hheld : ((weighed s k c).scale k).heldA = some v := by rw [scale_weighed, hc]
  unfold takeB
  rw [hheld]
  exact congrArg (takePair k v.value b tm) (modScale_weighed _)

end

theorem takePair_of_agree (h : |a - b| ≤ ((s.scaleEntry k).checkBand : Int)) (hm : c.state ≠ .mismatch) :
    takePair k a b tm (weighed s k c) = takeGross k ((a + b).tdiv 2) tm (weighed s k c) := by
  rw [takePair, scale_weighed, if_neg hm]
  exact if_pos h

theorem takePair_of_agree_mismatch (h : |a - b| ≤ ((s.scaleEntry k).checkBand : Int)) (hm : c.state = .mismatch) :
    takePair k a b tm (weighed s k c) = pairAgreesMismatch k ((a + b).tdiv 2) (weighed s k c) := by
  rw [takePair, scale_weighed, if_pos hm]
  exact if_pos h

theorem takePair_of_disagree (h : ((s.scaleEntry k).checkBand : Int) < |a - b|) :
    takePair k a b tm (weighed s k c) = pairDisagrees k (weighed s k c) := if_neg (Int.not_le.mpr h)

/-- A gross value that is formed goes to the rule of the scale's state. -/
theorem exec_forms (h : s.Forms bytes f k e g c) :
    exec (.scaleSample bytes) s = .next (s.up f bytes (takeGross k g s.timebase (weighed s k c))) := by
  obtain ⟨hfrom, he, hok, hd, hform⟩ := h
  rw [exec_scaleSample hfrom he]
  have hentry : entryOf s e = { status := .ok, value := e.value, arrival := s.timebase } := by rw [entryOf, hok]
  rcases hform with ⟨hmode, hA, rfl, rfl⟩ | ⟨hA, hB, rfl, v, hv, ⟨hmode, rfl⟩ | ⟨hmode, hband, hm, rfl⟩⟩
  · rw [takeScaleEntry_of_A hA, takeChannelA_of_ok hd hok, hmode, hentry]
    rfl
  · rw [takeScaleEntry_of_B hA hB, takeChannelB_of_ok hd hok, hmode,
      takeB_of_sum (c := { s.scale k with lastB := some (entryOf s e) }) hv, hentry]
  · rw [takeScaleEntry_of_B hA hB, takeChannelB_of_ok hd hok, hmode,
      takeB_of_check (c := { s.scale k with lastB := some (entryOf s e) }) hv, hentry]
    exact congrArg (fun x => Host.Outcome.next (s.up f bytes x)) (takePair_of_agree hband hm)

/-! ## Gross values by state (R108, R109, R111) -/

theorem netOf_weighed (g : Int) : (weighed s k c).netOf k g = g - c.tare := by rw [netOf, scale_weighed]

/-- The scale enters EMPTY. -/
theorem toEmpty_weighed (w : List Int) : (weighed s k c).modScale k (toEmpty w) = weighed s k { c with
    state := .empty, window := w, verdict := none, liftStart := none, tareNoted := false } := modScale_weighed _

theorem toOverload_weighed : toOverload k (weighed s k c) = raiseNow .scaleOverload (.scale k) (weighed s k { c with
    state := .overload, window := [], verdict := none, liftStart := none, agree := 0 }) := by
  rw [toOverload, modScale_weighed]
  rfl

theorem takeGross_of_over (h : ((s.scaleEntry k).capacity : Int) < g) : takeGross k g tm (weighed s k c) =
    if c.state = .overload ∨ c.state = .disabled then weighed s k c else toOverload k (weighed s k c) := by
  rw [takeGross, scale_weighed]
  exact if_pos h

/-- The rule of a state for a gross value within the capacity. -/
def grossIn (st : ScaleState) (k : ScaleNo) (g : Int) (tm : Time) (s : State) : State :=
  match st with
  | .empty => grossEmpty k g s
  | .loading => grossLoading k g s
  | .accepted | .rejected | .noRequest => grossVerdict k g tm s
  | .lifting => grossLifting k g tm s
  | .overload => grossOverload k g s
  | .disabled | .mismatch => s

theorem takeGross_of_within (h : g ≤ ((s.scaleEntry k).capacity : Int)) {st : ScaleState} (hst : c.state = st) :
    takeGross k g tm (weighed s k c) = grossIn st k g tm (weighed s k c) := by
  rw [takeGross, scale_weighed, hst]
  refine (if_neg (Int.not_lt.mpr h)).trans ?_
  cases st with
  | empty | loading | accepted | rejected | noRequest | lifting | overload | disabled | mismatch => rfl

/-- The window with one more value (R107). -/
theorem pushWindow_eq (n : Nat) (w : List Int) (g : Int) :
    pushWindow n w g = (if w.length < n then w else w.drop (w.length + 1 - n)) ++ [g] := by
  unfold pushWindow
  split
  · rfl
  · rfl

theorem grossOverload_weighed (g : Int) : grossOverload k g (weighed s k c) =
    if g - c.tare < ((s.scaleEntry k).emptyThreshold : Int) then (weighed s k c).modScale k (toEmpty [g])
    else weighed s k c := by
  rw [grossOverload, netOf_weighed]
  rfl

theorem grossEmpty_of_load (h : ((s.scaleEntry k).loadThreshold : Int) ≤ g - c.tare) :
    grossEmpty k g (weighed s k c) = weighed s k { c with state := .loading, window := [g] } := by
  rw [grossEmpty, netOf_weighed]
  refine (if_pos h).trans ?_
  exact modScale_weighed _

/-- A scale whose window has one more value. -/
def pushed (s : State) (k : ScaleNo) (c : Scale) (g : Int) : Scale :=
  { c with window := pushWindow (s.scaleEntry k).windowN c.window g }

theorem grossEmpty_of_light (h : g - c.tare < ((s.scaleEntry k).loadThreshold : Int)) :
    grossEmpty k g (weighed s k c) =
      doIf (stable (s.scaleEntry k) (pushed s k c g).window) (zeroTrack k) (weighed s k (pushed s k c g)) := by
  rw [grossEmpty, netOf_weighed]
  refine (if_neg (Int.not_le.mpr h)).trans ?_
  dsimp only
  rw [modScale_weighed, scale_weighed]
  rfl

theorem grossLoading_of_empty (h : g - c.tare < ((s.scaleEntry k).emptyThreshold : Int)) :
    grossLoading k g (weighed s k c) = (weighed s k c).modScale k (toEmpty [g]) := by
  rw [grossLoading, netOf_weighed]
  exact if_pos h

theorem grossLoading_of_load (h : ((s.scaleEntry k).emptyThreshold : Int) ≤ g - c.tare) :
    grossLoading k g (weighed s k c) = doIf (stable (s.scaleEntry k) (pushed s k c g).window)
      (evaluateTo k (meanOf (s.scaleEntry k) (pushed s k c g).window)) (weighed s k (pushed s k c g)) := by
  rw [grossLoading, netOf_weighed]
  refine (if_neg (Int.not_lt.mpr h)).trans ?_
  dsimp only
  rw [modScale_weighed, scale_weighed]
  rfl

/-- Zero tracking (R109). -/
theorem zeroTrack_weighed : zeroTrack k (weighed s k c) =
    if (s.scaleEntry k).zeroTrack = 0 then weighed s k c
    else if |meanOf (s.scaleEntry k) c.window - c.tare| ≤ ((s.scaleEntry k).zeroTrack : Int) then
      weighed s k { c with tare := meanOf (s.scaleEntry k) c.window, tareNoted := false }
    else if c.tareNoted then weighed s k c
    else raiseNow .tareLimit (.scale k) (weighed s k { c with tareNoted := true }) := by
  rw [zeroTrack, scale_weighed, modScale_weighed, modScale_weighed]
  rfl

/-- A steady load is evaluated. -/
theorem evaluated_weighed (hl : s.live = true) {v : Int} (hh : s.Heads c head) :
    s.Evaluated (evaluateTo k v (weighed s k c)) k c head v none
      ∧ OnlyChanges (.scales :: raiseParts) s.linkActivity (evaluateTo k v (weighed s k c)) := by
  have hweighed : OnlyChanges [.scales] s.linkActivity (weighed s k c) := modScale_changes k _ _
  have heval : (weighed s k c).Evaluated (evaluateTo k v (weighed s k c)) k c head v none :=
    evaluated_evaluateTo hl scale_weighed hh
  have hlink : s.linkActivity.Evaluated (evaluateTo k v (weighed s k c)) k c head v none :=
    evaluated_of_scaled hweighed (fun j hj => scale_modScale_of_ne k _ _ hj) heval
  exact ⟨hlink, (hweighed.mono (by decide)).trans (evaluateTo_changes' k v _)⟩

end Sys2Proof.Proofs.GrossValues
end

