-- ==== Sys2Proof/Proofs/WeighedLoads.lean ====
section
/-! PROOFS. A scale's channel entries, and the gross values they form, as the statement puts them (R104 to R113). -/

namespace Sys2Proof.Proofs.WeighedLoads

set_option Elab.async false

open Sys2Proof.Machine Sys2Proof.Machine.State Sys2Proof.Proofs.Timers Sys2Proof.Proofs.Evaluations
  Sys2Proof.Proofs.GrossValues

variable {s : State} {k : ScaleNo} {c : Scale} {g : Int} {bytes : List Byte} {f : RxFrame} {e : ChannelEntry}

/-- A scale that has entered EMPTY with one value in its window. -/
def emptied (g : Int) (c : Scale) : Scale :=
  { c with state := .empty, window := [g], verdict := none, liftStart := none, tareNoted := false }

theorem toEmpty_eq : (weighed s k c).modScale k (toEmpty [g]) = weighed s k (emptied g c) := toEmpty_weighed _

/-- The gross values in OVERLOAD, EMPTY and LOADING, and above the capacity. -/
theorem gross_values (h : s.Forms bytes f k e g c) :
    let n := s.scaleEntry k
    let w := (pushed s k c g).window
    let mean := meanOf n w
    let becomes (c' : Scale) := exec (.scaleSample bytes) s = .next (s.up f bytes (weighed s k c'))
    ((n.capacity : Int) < g → c.state ∈ [.empty, .loading, .noRequest, .accepted, .rejected, .lifting] →
      exec (.scaleSample bytes) s = .next (s.up f bytes (raiseNow .scaleOverload (.scale k)
        (weighed s k { c with
          state := .overload, window := [], verdict := none, liftStart := none, agree := 0 }))))
    ∧ (c.state = .overload →
      (g ≤ n.capacity → g - c.tare < n.emptyThreshold → becomes (emptied g c))
      ∧ ((n.capacity : Int) < g ∨ (n.emptyThreshold : Int) ≤ g - c.tare → becomes c))
    ∧ (g ≤ n.capacity → c.state = .empty →
      ((n.loadThreshold : Int) ≤ g - c.tare → becomes { c with state := .loading, window := [g] })
      ∧ (g - c.tare < n.loadThreshold → ¬n.Steady w ∨ n.zeroTrack = 0 → becomes { c with window := w })
      ∧ (g - c.tare < n.loadThreshold → n.Steady w → n.zeroTrack ≠ 0 →
        (|mean - c.tare| ≤ n.zeroTrack → becomes { c with window := w, tare := mean, tareNoted := false })
        ∧ ((n.zeroTrack : Int) < |mean - c.tare| → c.tareNoted = true → becomes { c with window := w })
        ∧ ((n.zeroTrack : Int) < |mean - c.tare| → c.tareNoted = false →
          exec (.scaleSample bytes) s = .next (s.up f bytes (raiseNow .tareLimit (.scale k)
            (weighed s k { c with window := w, tareNoted := true }))))))
    ∧ (g ≤ n.capacity → c.state = .loading →
      (g - c.tare < n.emptyThreshold → becomes (emptied g c))
      ∧ ((n.emptyThreshold : Int) ≤ g - c.tare → ¬n.Steady w → becomes { c with window := w })
      ∧ ((n.emptyThreshold : Int) ≤ g - c.tare → n.Steady w → ∀ head, s.Heads c head →
        ∃ t, exec (.scaleSample bytes) s = .next (s.up f bytes t)
          ∧ s.Evaluated t k { c with window := w } head mean none
          ∧ OnlyChanges (.scales :: raiseParts) s.linkActivity t)) := by
  intro n w mean becomes
  have hrun := exec_forms h
  have hdone {x : State} {u : State} (hx : takeGross k g s.timebase (weighed s k c) = x) (hu : x = u) :
      exec (.scaleSample bytes) s = .next (s.up f bytes u) := by rw [hrun, hx, hu]
  refine ⟨fun hover hst => ?_, fun hst => ⟨fun hin hlow => ?_, fun hhigh => ?_⟩,
    fun hin hst => ⟨fun hload => ?_, fun hlow hidle => ?_, fun hlow hsteady hz => ?_⟩,
    fun hin hst => ⟨fun hlow => ?_, fun hload hno => ?_, fun hload hsteady head hh => ?_⟩⟩
  · have hne : ¬(c.state = .overload ∨ c.state = .disabled) := by
      rintro (hs | hs) <;> simp [hs] at hst
    exact hdone (takeGross_of_over hover) ((if_neg hne).trans toOverload_weighed)
  · refine hdone (takeGross_of_within hin hst) ?_
    exact (grossOverload_weighed g).trans ((if_pos hlow).trans toEmpty_eq)
  · by_cases hover : (n.capacity : Int) < g
    · exact hdone (takeGross_of_over hover) (if_pos (.inl hst))
    · refine hdone (takeGross_of_within (Int.not_lt.mp hover) hst) ?_
      exact (grossOverload_weighed g).trans (if_neg (Int.not_lt.mpr (hhigh.resolve_left hover)))
  · refine hdone (takeGross_of_within hin hst) ?_
    exact grossEmpty_of_load hload
  · refine hdone (takeGross_of_within hin hst) ?_
    refine (grossEmpty_of_light hlow).trans ?_
    rcases hidle with hno | hz
    · exact doIf_of_not (stable_iff.not.mpr hno)
    · by_cases hsteady : n.Steady w
      · exact (doIf_of (stable_iff.mpr hsteady)).trans (zeroTrack_weighed.trans (if_pos hz))
      · exact doIf_of_not (stable_iff.not.mpr hsteady)
  · have htrack : takeGross k g s.timebase (weighed s k c) = zeroTrack k (weighed s k (pushed s k c g)) := by
      refine (takeGross_of_within hin hst).trans ?_
      exact (grossEmpty_of_light hlow).trans (doIf_of (stable_iff.mpr hsteady))
    rw [zeroTrack_weighed, if_neg hz] at htrack
    refine ⟨fun hnear => hdone htrack (if_pos hnear), fun hfar hnoted => hdone htrack ?_,
      fun hfar hnot => hdone htrack ?_⟩
    · exact (if_neg (Int.not_le.mpr hfar)).trans (if_pos hnoted)
    · exact (if_neg (Int.not_le.mpr hfar)).trans (if_neg (Bool.eq_false_iff.mp hnot))
  · refine hdone (takeGross_of_within hin hst) ?_
    exact (grossLoading_of_empty hlow).trans toEmpty_eq
  · refine hdone (takeGross_of_within hin hst) ?_
    exact (grossLoading_of_load hload).trans (doIf_of_not (stable_iff.not.mpr hno))
  · obtain ⟨⟨⟨⟨_, hn⟩, _⟩, _⟩, _⟩ := h
    refine ⟨_, hdone (takeGross_of_within hin hst) ?_, evaluated_weighed hn.live hh⟩
    exact (grossLoading_of_load hload).trans (doIf_of (stable_iff.mpr hsteady))

/-! ## CHECK pairs (R106) -/

theorem pairDisagrees_of_mismatch (hm : c.state = .mismatch) :
    pairDisagrees k (weighed s k c) = weighed s k { c with agree := 0 } := by
  rw [pairDisagrees, scale_weighed, if_pos hm]
  exact modScale_weighed _

theorem pairDisagrees_of_not (hm : c.state ≠ .mismatch) : pairDisagrees k (weighed s k c) =
    raiseNow .scaleMismatch (.scale k) (weighed s k { c with
      state := .mismatch, window := [], verdict := none, liftStart := none, agree := 0 }) := by
  rw [pairDisagrees, scale_weighed, if_neg hm, modScale_weighed]
  rfl

theorem pairAgreesMismatch_weighed : pairAgreesMismatch k g (weighed s k c) =
    if ((s.scaleEntry k).capacity : Int) < g then toOverload k (weighed s k c)
    else if c.agree + 1 < 8 then weighed s k { c with agree := c.agree + 1 }
    else if ((s.scaleEntry k).loadThreshold : Int) ≤ g - c.tare then
      weighed s k { c with state := .loading, window := [g], agree := 0 }
    else weighed s k { c with
      state := .empty, window := [g], verdict := none, liftStart := none, tareNoted := false, agree := 0 } := by
  rw [pairAgreesMismatch, scale_weighed, netOf_weighed, modScale_weighed, modScale_weighed, modScale_weighed]
  rfl

/-- The entries of a channel from which no gross value is formed, and CHECK pairs that disagree or meet a scale in
MISMATCH. -/
theorem channel_entries (h : s.FromNode bytes f .scale k.val .sample) (he : sampleOf f.payload = some [e]) :
    let c := s.scale k
    let n := s.scaleEntry k
    let here : Option NodeRef := some { node := f.src, line := e.channel }
    let last : Option LastEntry := some (entryOf s e)
    let counted := min (c.skipped + 1) 65535
    let becomes (c' : Scale) := exec (.scaleSample bytes) s = .next (s.up f bytes (weighed s k c'))
    (n.channelA ≠ here → n.channelB ≠ here → exec (.scaleSample bytes) s = .next (s.up f bytes s.linkActivity))
    ∧ (n.channelA = here →
      (c.state = .disabled → becomes { c with lastA := last })
      ∧ (c.state ≠ .disabled → e.status ≠ .ok → becomes { c with
          lastA := last, skipped := counted, heldA := if n.mode = .single then c.heldA else none })
      ∧ (c.state ≠ .disabled → e.status = .ok → n.mode ≠ .single → becomes { c with
          lastA := last, heldA := some { value := e.value, arrival := s.timebase } }))
    ∧ (n.channelA ≠ here → n.channelB = here →
      (c.state = .disabled → becomes { c with lastB := last })
      ∧ (c.state ≠ .disabled → e.status ≠ .ok → becomes { c with lastB := last, skipped := counted })
      ∧ (c.state ≠ .disabled → e.status = .ok → n.mode = .single → becomes { c with lastB := last })
      ∧ (c.state ≠ .disabled → e.status = .ok → n.mode ≠ .single →
        (c.heldA = none → becomes { c with lastB := last, skipped := counted })
        ∧ ∀ a, c.heldA = some a → n.mode = .check →
          exec (.scaleSample bytes) s = .next (s.up f bytes (takePair k a.value e.value s.timebase
            (weighed s k { c with lastB := last, heldA := none }))))) := by
  intro c n here last counted becomes
  have hrun := exec_scaleSample h he
  refine ⟨fun hA hB => ?_, fun hA => ⟨fun hd => ?_, fun hd hbad => ?_, fun hd hok hmode => ?_⟩,
    fun hA hB => ⟨fun hd => ?_, fun hd hbad => ?_, fun hd hok hmode => ?_, fun hd hok hmode => ⟨fun hnone => ?_,
      fun a ha hcheck => ?_⟩⟩⟩
  · rw [hrun, takeScaleEntry_of_none hA hB]
  · show exec (.scaleSample bytes) s = _
    rw [hrun, takeScaleEntry_of_A hA, takeChannelA_of_disabled hd]
  · show exec (.scaleSample bytes) s = _
    rw [hrun, takeScaleEntry_of_A hA, takeChannelA_of_bad hd hbad]
  · show exec (.scaleSample bytes) s = _
    rw [hrun, takeScaleEntry_of_A hA, takeChannelA_of_ok hd hok, takeA_of_pairs hmode, modScale_weighed]
  · show exec (.scaleSample bytes) s = _
    rw [hrun, takeScaleEntry_of_B hA hB, takeChannelB_of_disabled hd]
  · show exec (.scaleSample bytes) s = _
    rw [hrun, takeScaleEntry_of_B hA hB, takeChannelB_of_bad hd hbad]
  · show exec (.scaleSample bytes) s = _
    rw [hrun, takeScaleEntry_of_B hA hB, takeChannelB_of_ok hd hok, show (s.scaleEntry k).mode = .single from hmode,
      takeB_of_single]
  · show exec (.scaleSample bytes) s = _
    rw [hrun, takeScaleEntry_of_B hA hB, takeChannelB_of_ok hd hok,
      takeB_of_none (c := { s.scale k with lastB := some (entryOf s e) }) hmode hnone]
  · rw [hrun, takeScaleEntry_of_B hA hB, takeChannelB_of_ok hd hok, show (s.scaleEntry k).mode = .check from hcheck,
      takeB_of_check (c := { s.scale k with lastB := some (entryOf s e) }) ha]

/-- Settles O41: the channel entries of a scale, and the rule of each state for a gross value. -/
theorem weighedLoad : Obligations.WeighedLoad := by
  refine ⟨fun s bytes f k e g c h => ?_, fun s bytes f k e h he => ?_⟩
  · have hgross := gross_values h
    simp only [pushed, pushWindow_eq, meanOf_eq] at hgross
    exact hgross
  · intro c n here last counted becomes
    obtain ⟨hnone, hA, hB⟩ := channel_entries h he
    refine ⟨hnone, hA, fun hnotA hisB => ?_⟩
    obtain ⟨hdisabled, hbad, hsingle, hpairs⟩ := hB hnotA hisB
    refine ⟨hdisabled, hbad, hsingle, fun hd hok hmode => ?_⟩
    obtain ⟨hskipped, hcheck⟩ := hpairs hd hok hmode
    refine ⟨hskipped, fun a ha hm => ?_⟩
    intro paired g
    have hrun := hcheck a ha hm
    refine ⟨fun hfar => ⟨fun hst => hrun.trans ?_, fun hst => hrun.trans ?_⟩, fun hnear hst => ?_⟩
    · rw [takePair_of_disagree hfar, pairDisagrees_of_mismatch (by exact hst)]
      rfl
    · rw [takePair_of_disagree hfar, pairDisagrees_of_not (by exact hst)]
      rfl
    · rw [takePair_of_agree_mismatch hnear (by exact hst), pairAgreesMismatch_weighed] at hrun
      refine ⟨fun hover => hrun.trans ?_, fun hin hfew => hrun.trans ?_, fun hin hmany hload => hrun.trans ?_,
        fun hin hmany hlight => hrun.trans ?_⟩
      · rw [if_pos hover, toOverload_weighed]
        rfl
      · rw [if_neg (Int.not_lt.mpr hin)]
        exact congrArg (fun x => Host.Outcome.next (s.up f bytes x)) (if_pos hfew)
      · rw [if_neg (Int.not_lt.mpr hin)]
        exact congrArg (fun x => Host.Outcome.next (s.up f bytes x))
          ((if_neg (Nat.not_lt.mpr hmany)).trans (if_pos hload))
      · rw [if_neg (Int.not_lt.mpr hin)]
        exact congrArg (fun x => Host.Outcome.next (s.up f bytes x))
          ((if_neg (Nat.not_lt.mpr hmany)).trans (if_neg (Int.not_le.mpr hlight)))

end Sys2Proof.Proofs.WeighedLoads
end

