-- ==== Sys2Proof/Proofs/Releases.lean ====
section
/-! PROOFS. TARE (R110), the load under a verdict and its release (R114, R115, R120), and the change of head (R119). -/

namespace Sys2Proof.Proofs.Releases

set_option Elab.async false

open Sys2Proof.Machine Sys2Proof.Machine.State Sys2Proof.Proofs.CureRules Sys2Proof.Proofs.HistoryRequests
  Sys2Proof.Proofs.SmallRequests Sys2Proof.Proofs.Timers Sys2Proof.Proofs.Evaluations
  Sys2Proof.Proofs.GrossValues Sys2Proof.Proofs.WeighedLoads

variable {s t x : State} {k : ScaleNo} {c : Scale} {g : Int} {tm : Time} {bytes : List Byte} {f : RxFrame}
  {e : ChannelEntry} {v : Verdict} {head : Option (PressNo × Recipe)}

/-! ## TARE (R110) -/

theorem scaleTare_of_steady (h : (s.scale k).state = .empty ∧ (s.scaleEntry k).Steady (s.scale k).window) :
    s.scaleTare k = (s.modScale k fun c =>
      { c with tare := meanOf (s.scaleEntry k) (s.scale k).window, tareNoted := false }, .ok,
      intBytes 4 (meanOf (s.scaleEntry k) (s.scale k).window)) :=
  if_pos (h.imp_right stable_iff.mpr)

theorem scaleTare_of_not (h : ¬((s.scale k).state = .empty ∧ (s.scaleEntry k).Steady (s.scale k).window)) :
    s.scaleTare k = (s, .busy, []) :=
  if_neg fun hb => h (hb.imp_right stable_iff.mp)

theorem exec_tare (h : s.Asked bytes f (.scaleTare k.val)) :
    let c := s.scale k
    let mean := meanOf (s.scaleEntry k) c.window
    (c.state = .empty ∧ (s.scaleEntry k).Steady c.window →
      exec (.scaleControlTare bytes) s = .next
        ((s.linkActivity.modScale k fun c => { c with tare := mean, tareNoted := false }).respond f .ok
          (intBytes 4 mean) .plain))
    ∧ (¬(c.state = .empty ∧ (s.scaleEntry k).Steady c.window) →
      exec (.scaleControlTare bytes) s = .next (s.linkActivity.respond f .busy [] .plain)) := by
  intro c mean
  have hrun : exec (.scaleControlTare bytes) s = .next (answer f (.scaleTare k.val) s.linkActivity) :=
    running_answer h nofun
  rw [answer, serveRequest, onScale_of_lt] at hrun
  refine ⟨fun hs => hrun.trans ?_, fun hs => hrun.trans ?_⟩
  · rw [scaleTare_of_steady (s := s.linkActivity) hs]
    rfl
  · rw [scaleTare_of_not (s := s.linkActivity) hs]

/-! ## The load under a verdict (R114, R115) -/

theorem grossVerdict_of_empty (h : g - c.tare < ((s.scaleEntry k).emptyThreshold : Int)) :
    grossVerdict k g tm (weighed s k c) =
      if c.state = .accepted then release k g tm (weighed s k c) else weighed s k (emptied g c) := by
  rw [grossVerdict, netOf_weighed, scale_weighed, toEmpty_eq]
  exact if_pos h

theorem grossVerdict_of_load (h : ((s.scaleEntry k).emptyThreshold : Int) ≤ g - c.tare) (hv : c.verdict = some v) :
    grossVerdict k g tm (weighed s k c) =
      if |g - v.mean| ≤ ((s.scaleEntry k).settleBand : Int) then weighed s k c else
        weighed s k { c with state := .lifting, window := [g], liftStart := some tm
                             liftTime := (s.scaleEntry k).liftTime } := by
  have hlift : toLifting k g tm (weighed s k c) = weighed s k { c with
      state := .lifting, window := [g], liftStart := some tm, liftTime := (s.scaleEntry k).liftTime } :=
    modScale_weighed _
  rw [grossVerdict, netOf_weighed, scale_weighed, hlift, hv]
  refine (if_neg (Int.not_lt.mpr h)).trans ?_
  exact if_congr decide_eq_true_iff rfl rfl

theorem grossLifting_of_empty (h : g - c.tare < ((s.scaleEntry k).emptyThreshold : Int)) (hv : c.verdict = some v) :
    grossLifting k g tm (weighed s k c) =
      if v.kind = .accepted then release k g tm (weighed s k c) else weighed s k (emptied g c) := by
  rw [grossLifting, netOf_weighed, scale_weighed, toEmpty_eq, hv]
  refine (if_pos h).trans ?_
  exact if_congr beq_iff_eq rfl rfl

theorem grossLifting_of_load (h : ((s.scaleEntry k).emptyThreshold : Int) ≤ g - c.tare) :
    let w := (pushed s k c g).window
    let mean := meanOf (s.scaleEntry k) w
    grossLifting k g tm (weighed s k c) =
      if stable (s.scaleEntry k) w = true ∧ ((s.scaleEntry k).loadThreshold : Int) ≤ mean - c.tare then
        evaluateTo k mean (weighed s k { pushed s k c g with liftStart := none })
      else weighed s k (pushed s k c g) := by
  intro w mean
  rw [grossLifting, netOf_weighed]
  refine (if_neg (Int.not_lt.mpr h)).trans ?_
  dsimp only
  rw [modScale_weighed, scale_weighed, modScale_weighed, netOf_weighed]
  exact if_congr (Bool.and_eq_true_iff.trans (and_congr_right fun _ => decide_eq_true_iff)) rfl rfl

/-- The charge is handed to the head press, and the head's entry goes (R120). -/
theorem release_weighed {q : QueueEntry} {rest : List QueueEntry} {r : Recipe} (hv : c.verdict = some v)
    (hq : c.queue = q :: rest) (hr : s.boundRecipe q.press = some r) :
    release k g s.timebase (weighed s k c) =
      (s.linkActivity.modUnit q.press fun u => { u with
        state := .chargeReady
        charge := some { scale := k, net := v.net, mean := v.mean, tare := c.tare
                         target := r.chargeTarget, tolMinus := r.tolMinus, tolPlus := r.tolPlus
                         attempts := q.attempts, release := s.timebase } }).modScale k fun _ =>
          { emptied g c with queue := rest } := by
  have hr' : (weighed s k c).boundRecipe q.press = some r := hr
  rw [release, scale_weighed]
  dsimp only
  rw [hv, hq]
  dsimp only
  rw [hr']
  dsimp only [handCharge]
  have hswap (h : PressUnit → PressUnit) : (weighed s k c).modUnit q.press h =
      (s.linkActivity.modUnit q.press h).modScale k fun _ => c := rfl
  rw [hswap, modScale_modScale, hq]
  rfl

/-- The loads under a verdict. -/
theorem loads_under_verdict (h : s.Forms bytes f k e g c) (hin : g ≤ (s.scaleEntry k).capacity)
    (hv : c.verdict = some v) :
    let n := s.scaleEntry k
    let w := (pushed s k c g).window
    let mean := meanOf n w
    let becomes (x : State) := exec (.scaleSample bytes) s = .next (s.up f bytes x)
    (g - c.tare < n.emptyThreshold →
      c.state = .rejected ∨ c.state = .noRequest ∨ (c.state = .lifting ∧ v.kind ≠ .accepted) →
      becomes (weighed s k (emptied g c)))
    ∧ (g - c.tare < n.emptyThreshold → c.state = .accepted ∨ (c.state = .lifting ∧ v.kind = .accepted) →
      becomes (release k g s.timebase (weighed s k c)))
    ∧ ((n.emptyThreshold : Int) ≤ g - c.tare → c.state ∈ [ScaleState.accepted, .rejected, .noRequest] →
      (|g - v.mean| ≤ n.settleBand → becomes (weighed s k c))
      ∧ ((n.settleBand : Int) < |g - v.mean| →
        becomes (weighed s k { c with
          state := .lifting, window := [g], liftStart := some s.timebase, liftTime := n.liftTime })))
    ∧ ((n.emptyThreshold : Int) ≤ g - c.tare → c.state = .lifting →
      (¬(n.Steady w ∧ (n.loadThreshold : Int) ≤ mean - c.tare) → becomes (weighed s k { c with window := w }))
      ∧ (n.Steady w → (n.loadThreshold : Int) ≤ mean - c.tare → ∀ head, s.Heads c head →
        ∃ t, becomes t ∧ s.Evaluated t k { c with window := w, liftStart := none } head mean none
          ∧ OnlyChanges (.scales :: raiseParts) s.linkActivity t)) := by
  intro n w mean becomes
  have hrun := exec_forms h
  have hdone {st : ScaleState} {u : State} (hst : c.state = st)
      (hu : grossIn st k g s.timebase (weighed s k c) = u) : becomes u := by
    show exec (.scaleSample bytes) s = _
    rw [hrun, takeGross_of_within hin hst, hu]
  refine ⟨fun hlow hst => ?_, fun hlow hst => ?_, fun hload hst => ?_, fun hload hst => ⟨fun hno => ?_,
    fun hsteady hmean head hh => ?_⟩⟩
  · rcases hst with hst | hst | ⟨hst, hkind⟩
    · exact hdone hst ((grossVerdict_of_empty hlow).trans (if_neg (by rw [hst]; decide)))
    · exact hdone hst ((grossVerdict_of_empty hlow).trans (if_neg (by rw [hst]; decide)))
    · exact hdone hst ((grossLifting_of_empty hlow hv).trans (if_neg hkind))
  · rcases hst with hst | ⟨hst, hkind⟩
    · exact hdone hst ((grossVerdict_of_empty hlow).trans (if_pos hst))
    · exact hdone hst ((grossLifting_of_empty hlow hv).trans (if_pos hkind))
  · have hrule {u : State} (hu : grossVerdict k g s.timebase (weighed s k c) = u) : becomes u := by
      simp only [List.mem_cons, List.not_mem_nil, or_false] at hst
      rcases hst with hst | hst | hst
      · exact hdone hst hu
      · exact hdone hst hu
      · exact hdone hst hu
    exact ⟨fun hnear => hrule ((grossVerdict_of_load hload hv).trans (if_pos hnear)),
      fun hfar => hrule ((grossVerdict_of_load hload hv).trans (if_neg (Int.not_le.mpr hfar)))⟩
  · exact hdone hst ((grossLifting_of_load hload).trans (if_neg fun hb => hno (hb.imp_left stable_iff.mp)))
  · obtain ⟨⟨⟨⟨_, hn⟩, _⟩, _⟩, _⟩ := h
    refine ⟨_, hdone hst ((grossLifting_of_load hload).trans (if_pos ⟨stable_iff.mpr hsteady, hmean⟩)), ?_⟩
    exact evaluated_weighed hn.live hh

/-! ## The change of head (R119) -/

/-- A scale with another queue. -/
def requeued (k : ScaleNo) (change : List QueueEntry → List QueueEntry) (s : State) : State :=
  s.modScale k fun c => { c with queue := change c.queue }

theorem requeue_eq (k : ScaleNo) (change : List QueueEntry → List QueueEntry) (s : State) : requeue k change s =
    if (requeued k change s).headOf k = s.headOf k then requeued k change s
    else changeOfHead k (requeued k change s) := rfl

theorem changeOfHead_of_verdict (hst : (x.scale k).state ∈ [ScaleState.accepted, .rejected, .noRequest])
    (hv : (x.scale k).verdict = some v) : changeOfHead k x = evaluateTo k v.mean x := by
  simp only [List.mem_cons, List.not_mem_nil, or_false] at hst
  unfold changeOfHead
  rcases hst with hst | hst | hst
  · rw [hst, hv]
  · rw [hst, hv]
  · rw [hst, hv]

theorem changeOfHead_of_lifting (hst : (x.scale k).state = .lifting) (hv : (x.scale k).verdict = some v) :
    changeOfHead k x = evaluate k v.mean x := by
  unfold changeOfHead
  rw [hst, hv]

theorem changeOfHead_of_other (hst : (x.scale k).state ∈ [ScaleState.disabled, .empty, .loading, .overload, .mismatch]) :
    changeOfHead k x = x := by
  simp only [List.mem_cons, List.not_mem_nil, or_false] at hst
  unfold changeOfHead
  rcases hst with hst | hst | hst | hst | hst
  · rw [hst]
  · rw [hst]
  · rw [hst]
  · rw [hst]
  · rw [hst]

theorem changeOfHead_changes' (k : ScaleNo) (x : State) : OnlyChanges (.scales :: raiseParts) x (changeOfHead k x) := by
  unfold changeOfHead
  split
  · exact evaluateTo_changes' _ _ _
  · exact evaluateTo_changes' _ _ _
  · exact evaluateTo_changes' _ _ _
  · exact evaluate_changes' _ _ _
  · exact .refl x

theorem requeue_changes' (k : ScaleNo) (change : List QueueEntry → List QueueEntry) (s : State) :
    OnlyChanges (.scales :: raiseParts) s (requeue k change s) := by
  have hqueue : OnlyChanges (.scales :: raiseParts) s (requeued k change s) :=
    (modScale_changes k _ s).mono (by decide)
  rw [requeue_eq]
  split
  · exact hqueue
  · exact hqueue.trans (changeOfHead_changes' k _)

/-- A change of a queue, as the statements put it. -/
theorem requeued_requeue (hl : s.live = true) (change : List QueueEntry → List QueueEntry)
    (hh : s.Heads { s.scale k with queue := change (s.scale k).queue } head) :
    s.Requeued (requeue k change s) k { s.scale k with queue := change (s.scale k).queue } head := by
  have hscale : (requeued k change s).scale k = { s.scale k with queue := change (s.scale k).queue } :=
    scale_modScale k _ s
  have hsame : (requeued k change s).headOf k = s.headOf k ↔ (change (s.scale k).queue).head?.map QueueEntry.press =
      (s.scale k).queue.head?.map QueueEntry.press := by
    rw [headOf, headOf, hscale]
  have hlift {t : State} {held : Option ScaleState} {w : Int}
      (he : (requeued k change s).Evaluated t k { s.scale k with queue := change (s.scale k).queue } head w held) :
      s.Evaluated t k { s.scale k with queue := change (s.scale k).queue } head w held :=
    evaluated_of_scaled (modScale_changes k _ s) (fun j hj => scale_modScale_of_ne k _ s hj) he
  rw [requeue_eq]
  refine ⟨fun hidle => ?_, fun v hne hv => ⟨fun hst => ?_, fun hst => ?_⟩⟩
  · split
    · exact hscale
    · rename_i hno
      rw [changeOfHead_of_other (hscale ▸ hidle.resolve_left fun h => hno (hsame.mpr h))]
      exact hscale
  · rw [if_neg fun h => hne (hsame.mp h), changeOfHead_of_verdict (hscale ▸ hst) (hscale ▸ hv)]
    exact hlift (evaluated_evaluateTo hl hscale hh)
  · rw [if_neg fun h => hne (hsame.mp h), changeOfHead_of_lifting (hscale ▸ hst) (hscale ▸ hv)]
    have heval := hlift (evaluated_evaluate (v := v.mean) hl hscale hh)
    rwa [show ({ s.scale k with queue := change (s.scale k).queue } : Scale).state = _ from hst] at heval

/-- Settles O42: TARE, the loads under a verdict, and the change of head. -/
theorem tareAndRelease : Obligations.TareAndRelease := by
  refine ⟨fun s bytes f k h => ?_, fun s bytes f k e g c v h hin hv => ?_, fun s k change head hl => ?_⟩
  · have htare := exec_tare h
    simp only [meanOf_eq] at htare
    exact htare
  · intro n emptied' verdictStates
    obtain ⟨hempty, hrelease, hrest, hlift⟩ := loads_under_verdict h hin hv
    simp only [pushed, pushWindow_eq, meanOf_eq] at hlift
    refine ⟨hempty, fun q rest r hlow hst hq hr => ?_, hrest, hlift⟩
    have hrun := hrelease hlow hst
    rw [release_weighed hv hq hr] at hrun
    exact hrun
  · intro c hh
    exact ⟨requeued_requeue hl change hh, requeue_changes' k change s⟩

end Sys2Proof.Proofs.Releases
end

