-- ==== Sys2Proof/Proofs/Queues.lean ====
section
/-! PROOFS. A press joins a service queue, and leaves the one it stands in (R117 to R119). -/

namespace Sys2Proof.Proofs.Queues

set_option Elab.async false

open Sys2Proof.Machine Sys2Proof.Machine.State Sys2Proof.Proofs.CycleViews Sys2Proof.Proofs.CycleLaw
  Sys2Proof.Proofs.CureRules Sys2Proof.Proofs.Evaluations Sys2Proof.Proofs.Releases

variable {s t u x : State} {k j : ScaleNo} {p : PressNo} {head : Option (PressNo × Recipe)}

/-! ## A change of a queue -/

theorem scale_changeOfHead_of_ne (hj : j ≠ k) (x : State) : (changeOfHead k x).scale j = x.scale j := by
  have heval (v : Int) (x : State) : (evaluateTo k v x).scale j = x.scale j := by
    rw [evaluateTo, scale_modScale_of_ne _ _ _ hj, scale_evaluate_of_ne hj]
  unfold changeOfHead
  split
  · exact heval _ x
  · exact heval _ x
  · exact heval _ x
  · exact scale_evaluate_of_ne hj _ x
  · rfl

theorem scale_requeue_of_ne (hj : j ≠ k) (change : List QueueEntry → List QueueEntry) (s : State) :
    (requeue k change s).scale j = s.scale j := by
  have hqueue : (requeued k change s).scale j = s.scale j := scale_modScale_of_ne k _ s hj
  rw [requeue_eq]
  split
  · exact hqueue
  · rw [scale_changeOfHead_of_ne hj, hqueue]

/-- The presses of a changed queue. -/
theorem presses_requeue (change : List QueueEntry → List QueueEntry) (s : State) :
    presses ((requeue k change s).scale k) = (change (s.scale k).queue).map QueueEntry.press := by
  have hqueue : presses ((requeued k change s).scale k) = (change (s.scale k).queue).map QueueEntry.press := by
    rw [requeued, scale_modScale]
    rfl
  rw [requeue_eq]
  split
  · exact hqueue
  · obtain ⟨_, _, hpresses, _⟩ := weighs_changeOfHead k (requeued k change s)
    rw [hpresses, hqueue]

/-! ## What the statements see of a change -/

/-- Steps that leave what an evaluation changes. -/
theorem evaluated_after {c : Scale} {mean : Int} {held : Option ScaleState} (h : s.Evaluated t k c head mean held)
    (hscale : ∀ j, u.scale j = t.scale j) (hevents : u.events = t.events) (hport : u.portU = t.portU) :
    s.Evaluated u k c head mean held := by
  obtain ⟨h1, h2, h3, h4, h5⟩ := h
  refine ⟨(hscale k).trans h1, fun j hj => (hscale j).trans (h2 j hj), ?_, ?_, ?_⟩
  · rw [hevents]
    exact h3
  · rw [hport]
    exact h4
  · rw [hport, hevents]
    exact h5

theorem requeued_after {c : Scale} (h : s.Requeued t k c head) (hscale : ∀ j, u.scale j = t.scale j)
    (hevents : u.events = t.events) (hport : u.portU = t.portU) : s.Requeued u k c head := by
  obtain ⟨hkept, hnew⟩ := h
  refine ⟨fun hk => (hscale k).trans (hkept hk), fun v hne hv => ?_⟩
  obtain ⟨hverdict, hlift⟩ := hnew v hne hv
  exact ⟨fun hst => evaluated_after (hverdict hst) hscale hevents hport,
    fun hst => evaluated_after (hlift hst) hscale hevents hport⟩

/-- An evaluation seen from a state before, whose ports, attention and scales are the same. -/
theorem evaluated_before {c : Scale} {mean : Int} {held : Option ScaleState} {ps : List Part}
    (hc : OnlyChanges ps s x)
    (hps : ∀ y ∈ [Part.scales, .tables, .mode, .portU, .attention], y ∉ ps)
    (h : x.Evaluated t k c head mean held) : s.Evaluated t k c head mean held := by
  have htables : s.tables = x.tables := hc .tables (hps _ (by decide))
  have hmode : s.mode = x.mode := hc .mode (hps _ (by decide))
  have hport : s.portU = x.portU := hc .portU (hps _ (by decide))
  have hattention : s.attention = x.attention := hc .attention (hps _ (by decide))
  obtain ⟨h1, h2, h3, h4, h5⟩ := h
  refine ⟨h1, fun j hj => (h2 j hj).trans (scale_of_changes hc j (hps _ (by decide))), h3, ?_, ?_⟩
  · rw [hport, hattention, controller, ownAddress, htables, hmode]
    exact h4
  · rw [hport]
    exact h5

theorem requeued_before {c : Scale} {ps : List Part} (hc : OnlyChanges ps s x)
    (hps : ∀ y ∈ [Part.scales, .tables, .mode, .portU, .attention], y ∉ ps) (h : x.Requeued t k c head) :
    s.Requeued t k c head := by
  obtain ⟨hkept, hnew⟩ := h
  have hscale : x.scale k = s.scale k := scale_of_changes hc k (hps _ (by decide))
  unfold State.Requeued
  rw [← hscale]
  refine ⟨hkept, fun v hne hv => ?_⟩
  obtain ⟨hverdict, hlift⟩ := hnew v hne hv
  exact ⟨fun hst => evaluated_before hc hps (hverdict hst), fun hst => evaluated_before hc hps (hlift hst)⟩

/-! ## A press leaves its queue (R118) -/

/-- A press stands in a queue. -/
def Queued (s : State) (p : PressNo) (k : ScaleNo) : Prop := ∃ q ∈ (s.scale k).queue, q.press = p

theorem filter_bne (l : List QueueEntry) (p : PressNo) :
    (l.filter fun q => q.press != p) = l.filter fun q => decide (q.press ≠ p) :=
  List.filter_congr fun _ _ => by rw [bne, beq_eq_decide, decide_not]

theorem leaveOne_of_queued (h : Queued s p k) :
    leaveOne p k s = requeue k (·.filter fun q => decide (q.press ≠ p)) s := by
  obtain ⟨q, hq, hp⟩ := h
  have hany : ((s.scale k).queue.any fun q => q.press == p) = true :=
    List.any_eq_true.mpr ⟨q, hq, beq_iff_eq.mpr hp⟩
  rw [leaveOne, hany, if_pos rfl]
  exact congrArg (fun change => requeue k change s) (funext fun l => filter_bne l p)

theorem leaveOne_of_not (h : ¬Queued s p k) : leaveOne p k s = s := by
  have hany : ¬((s.scale k).queue.any fun q => q.press == p) = true := fun ha => by
    obtain ⟨q, hq, hp⟩ := List.any_eq_true.mp ha
    exact h ⟨q, hq, beq_iff_eq.mp hp⟩
  rw [leaveOne, if_neg hany]

theorem scale_leaveOne_of_ne (hj : j ≠ k) (p : PressNo) (s : State) : (leaveOne p k s).scale j = s.scale j := by
  by_cases h : Queued s p k
  · rw [leaveOne_of_queued h, scale_requeue_of_ne hj]
  · rw [leaveOne_of_not h]

theorem presses_leaveOne (p : PressNo) (k : ScaleNo) (s : State) :
    presses ((leaveOne p k s).scale k) = (presses (s.scale k)).filter (· ≠ p) := by
  by_cases h : Queued s p k
  · rw [leaveOne_of_queued h, presses_requeue, presses, List.filter_map]
    rfl
  · rw [leaveOne_of_not h, List.filter_eq_self.mpr]
    intro q hq
    obtain ⟨e, he, rfl⟩ := List.mem_map.mp hq
    exact decide_eq_true fun hp => h ⟨e, he, hp⟩

theorem leaveOne_changes (p : PressNo) (k : ScaleNo) (s : State) :
    OnlyChanges (.scales :: raiseParts) s (leaveOne p k s) := by
  by_cases h : Queued s p k
  · rw [leaveOne_of_queued h]
    exact requeue_changes' k _ s
  · rw [leaveOne_of_not h]
    exact .refl s

theorem leaveQueue_changes' (p : PressNo) (s : State) : OnlyChanges (.scales :: raiseParts) s (leaveQueue p s) := by
  rw [leaveQueue_eq]
  exact (leaveOne_changes p 0 s).trans (leaveOne_changes p 1 _)

theorem presses_leaveQueue (p : PressNo) (s : State) (k : ScaleNo) :
    presses ((leaveQueue p s).scale k) = (presses (s.scale k)).filter (· ≠ p) := by
  rw [leaveQueue_eq]
  match k with
  | 0 => rw [scale_leaveOne_of_ne (by decide), presses_leaveOne]
  | 1 => rw [presses_leaveOne, scale_leaveOne_of_ne (by decide)]

theorem queued_leaveOne_of_ne (hj : j ≠ k) : Queued (leaveOne p k s) p j ↔ Queued s p j := by
  rw [Queued, Queued, scale_leaveOne_of_ne hj]

/-- A press leaves the queue it stands in, as the statements put it. -/
theorem leavesQueue_leaveQueue (hl : s.live = true) (p : PressNo) : s.LeavesQueue (leaveQueue p s) p := by
  intro k
  have hk : k = 0 ∨ k = 1 := by
    match k with
    | 0 => exact .inl rfl
    | 1 => exact .inr rfl
  rw [leaveQueue_eq]
  rcases hk with rfl | rfl
  · refine ⟨fun hno => ?_, fun head hyes hone hh => ?_⟩
    · rw [scale_leaveOne_of_ne (by decide), leaveOne_of_not hno]
    · have hother : ¬Queued (leaveOne p 0 s) p 1 := (queued_leaveOne_of_ne (by decide)).not.mpr (hone 1 (by decide))
      rw [leaveOne_of_not hother, leaveOne_of_queued hyes]
      exact requeued_requeue hl _ hh
  · refine ⟨fun hno => ?_, fun head hyes hone hh => ?_⟩
    · rw [leaveOne_of_not ((queued_leaveOne_of_ne (by decide)).not.mpr hno), scale_leaveOne_of_ne (by decide)]
    · rw [leaveOne_of_not (hone 0 (by decide)), leaveOne_of_queued hyes]
      exact requeued_requeue hl _ hh

/-- Steps that leave what a leave changes. -/
theorem leavesQueue_after (h : s.LeavesQueue t p) (hscale : ∀ j, u.scale j = t.scale j)
    (hevents : u.events = t.events) (hport : u.portU = t.portU) : s.LeavesQueue u p := by
  intro k c
  obtain ⟨hno, hyes⟩ := h k
  exact ⟨fun hq => (hscale k).trans (hno hq),
    fun head hq hone hh => requeued_after (hyes head hq hone hh) hscale hevents hport⟩

end Sys2Proof.Proofs.Queues
end

