-- ==== Sys2Proof/Proofs/PressRequests.lean ====
section
/-! PROOFS. PRESS_CONTROL ENABLE and DISABLE (R124, R125), and FORCE_DEMOULD (R136). -/

namespace Sys2Proof.Proofs.PressRequests

set_option Elab.async false

open Sys2Proof.Machine Sys2Proof.Machine.State Sys2Proof.Proofs.CycleViews Sys2Proof.Proofs.CureRules
  Sys2Proof.Proofs.HeatLaws Sys2Proof.Proofs.HistoryRequests Sys2Proof.Proofs.SmallRequests
  Sys2Proof.Proofs.Evaluations Sys2Proof.Proofs.Queues Sys2Proof.Proofs.Broadcasts

variable {s t : State} {p : PressNo} {bytes : List Byte} {f : RxFrame}

/-! ## Enable (R124) -/

theorem isSome_nodeOf_iff {role : Role} {unit : Nat} : (s.nodeOf role unit).isSome = true ↔
    ∃ a, a < 64 ∧ (s.node a).role = role ∧ (s.node a).unit = unit := by
  rw [nodeOf, List.find?_isSome]
  simp only [List.mem_range, Bool.and_eq_true, beq_iff_eq]

theorem pressEnable_of_disabled (h : (s.unit p).state = .disabled) : s.pressEnable p =
    if (s.nodeOf .press p.val).isSome then
      (s.modUnit p fun u => { u with state := .idle, bindFault := .none }, .ok)
    else (s, .unconfigured) := by
  rw [pressEnable, h]

theorem pressEnable_of_enabled (h : (s.unit p).state ≠ .disabled) : s.pressEnable p =
    if (s.unit p).haltPending then (s.modUnit p fun u => { u with haltPending := false }, .ok)
    else (s, .refusedState) := by
  unfold pressEnable
  cases hs : (s.unit p).state with
  | disabled => exact absurd hs h
  | idle | chargeWait | chargeReady | closing | cure | demouldWait | opening | eject | unload | fault => rfl

/-! ## Disable (R125) -/

theorem giveUpCharge_of_wait (h : (s.unit p).state = .chargeWait) : s.giveUpCharge p = s.leaveQueue p := by
  rw [giveUpCharge, h]

theorem giveUpCharge_of_ready (h : (s.unit p).state = .chargeReady) : s.giveUpCharge p = s.discardCharge p := by
  rw [giveUpCharge, h]

theorem giveUpCharge_of_other (hw : (s.unit p).state ≠ .chargeWait) (hr : (s.unit p).state ≠ .chargeReady) :
    s.giveUpCharge p = s := by
  unfold giveUpCharge
  cases hs : (s.unit p).state with
  | chargeWait => exact absurd hs hw
  | chargeReady => exact absurd hs hr
  | disabled | idle | closing | cure | demouldWait | opening | eject | unload | fault => rfl

/-- A unit that waits for a charge leaves its queue, and is changed. -/
theorem leaves_modUnit (hl : s.live = true) (p : PressNo) (g : PressUnit → PressUnit) :
    let t := (s.leaveQueue p).modUnit p g
    t.unit p = g (s.unit p)
      ∧ (∀ k, (t.scale k).queue.map QueueEntry.press = ((s.scale k).queue.map QueueEntry.press).filter (· ≠ p))
      ∧ (∀ q, q ≠ p → t.unit q = s.unit q) ∧ s.LeavesQueue t p
      ∧ OnlyChanges (.units :: .scales :: raiseParts) s t := by
  intro t
  have hleave := leaveQueue_changes' p s
  refine ⟨?_, presses_leaveQueue p s, fun q hq => ?_, leavesQueue_leaveQueue hl p, ?_⟩
  · rw [unit_modUnit, unit_of_changes hleave]
  · rw [unit_modUnit_of_ne p g _ hq, unit_of_changes hleave]
  · exact (hleave.mono (by decide)).trans ((modUnit_changes p g _).mono (by decide))

theorem pressDisable_of_wait (h : (s.unit p).state = .chargeWait) :
    s.pressDisable p = (s.leaveQueue p).modUnit p (PressUnit.unbound .disabled) := by
  rw [pressDisable, h]
  dsimp only
  rw [giveUpCharge_of_wait h]

theorem pressDisable_of_ready (h : (s.unit p).state = .chargeReady) :
    s.pressDisable p = (s.discardCharge p).modUnit p (PressUnit.unbound .disabled) := by
  rw [pressDisable, h]
  dsimp only
  rw [giveUpCharge_of_ready h]

theorem pressDisable_of_cycle (h : (s.unit p).state.inCycle = true ∨ (s.unit p).state = .fault) :
    s.pressDisable p = s.modUnit p fun u => { u with haltPending := true } := by
  unfold pressDisable
  cases hs : (s.unit p).state with
  | disabled | idle | chargeWait | chargeReady => simp [hs, UnitState.inCycle] at h
  | closing | cure | demouldWait | opening | eject | unload | fault => rfl

/-- Settles O43: by the unit's state. -/
theorem pressEnableDisable : Obligations.PressEnableDisable := by
  intro s bytes f p st hasNode
  refine ⟨fun h => ?_, fun h => ?_⟩
  · have hrun : exec (.pressControlEnable bytes) s = .next (answer f (.pressEnable p.val) s.linkActivity) :=
      running_answer h nofun
    have hnode : (s.linkActivity.nodeOf .press p.val).isSome = true ↔ hasNode := isSome_nodeOf_iff
    rw [answer, serveRequest, onPress_of_lt] at hrun
    refine ⟨fun hst hyes => hrun.trans ?_, fun hst hno => hrun.trans ?_, fun hst hhalt => hrun.trans ?_,
      fun hst hhalt => hrun.trans ?_⟩
    · rw [pressEnable_of_disabled (s := s.linkActivity) hst, if_pos (hnode.mpr hyes)]
      rfl
    · rw [pressEnable_of_disabled (s := s.linkActivity) hst, if_neg (hnode.not.mpr hno)]
      rfl
    · rw [pressEnable_of_enabled (s := s.linkActivity) hst, if_pos (show (s.linkActivity.unit p).haltPending = true
        from hhalt)]
      rfl
    · rw [pressEnable_of_enabled (s := s.linkActivity) hst, if_neg (show ¬(s.linkActivity.unit p).haltPending = true
        from Bool.eq_false_iff.mp hhalt)]
      rfl
  · have hrun : exec (.pressControlDisable bytes) s = .next (answer f (.pressDisable p.val) s.linkActivity) :=
      running_answer h nofun
    rw [answer, serveRequest, onPress_of_lt] at hrun
    have hl : s.linkActivity.live = true := h.1.live
    refine ⟨fun hst => hrun.trans ?_, fun hst => hrun.trans ?_, fun hst => ?_, fun hst => hrun.trans ?_,
      fun hst => hrun.trans ?_⟩
    · rw [State.pressDisable, show (s.linkActivity.unit p).state = .disabled from hst]
    · rw [State.pressDisable, show (s.linkActivity.unit p).state = .idle from hst]
    · rw [pressDisable_of_wait (s := s.linkActivity) hst] at hrun
      exact ⟨_, hrun, leaves_modUnit hl p _⟩
    · rw [pressDisable_of_ready (s := s.linkActivity) hst]
      rfl
    · rw [pressDisable_of_cycle (s := s.linkActivity) hst]

end Sys2Proof.Proofs.PressRequests
end

