-- ==== Sys2Proof/Proofs/PressResets.lean ====
section
/-! PROOFS. The reset of a press unit (R142, R154): the cure ends, the ejection is cut short, the record closes, and the
queue entry or the charge goes. -/

namespace Sys2Proof.Proofs.PressResets

set_option Elab.async false

open Sys2Proof.Machine Sys2Proof.Machine.State Sys2Proof.Proofs.StepRules Sys2Proof.Proofs.CycleViews
  Sys2Proof.Proofs.CureRules Sys2Proof.Proofs.HeatLaws Sys2Proof.Proofs.OtherPresses
  Sys2Proof.Proofs.HistoryRequests Sys2Proof.Proofs.SmallRequests Sys2Proof.Proofs.Evaluations
  Sys2Proof.Proofs.Queues Sys2Proof.Proofs.Broadcasts Sys2Proof.Proofs.Ejections Sys2Proof.Proofs.ClosedSlots
  Sys2Proof.Proofs.RecordCloses Sys2Proof.Proofs.Timers Sys2Proof.Proofs.PressRequests

variable {s t x : State} {p : PressNo} {z : ZoneNo} {cause : CloseCause} {tm : Time} {n : Nat} {i : Fin 512}
  {r : Record} {bytes : List Byte} {f : RxFrame}

/-! ## An ejection that is cut short (R142 step 2, R154) -/

/-- The EJECT_OFF that is owed is placed, outside a WARM reset. -/
def owedPlaced (p : PressNo) (s : State) : State := doIf (!s.warmTaking) placeOwed (s.oweEjectOff p)

theorem cutEjection_of_running (h : (s.ejector p).phase ≠ .stopped) :
    s.cutEjection p = (owedPlaced p s).modEjector p (Ejector.stopIn .stopped) := if_neg h

theorem cutEjection_of_stopped (h : (s.ejector p).phase = .stopped) : s.cutEjection p = s := if_pos h

theorem keepsZone_owedPlaced (p : PressNo) (s : State) (z : ZoneNo) : s.KeepsZone (owedPlaced p s) z :=
  doIf_rule (Q := fun x => s.KeepsZone x z) (Q' := fun x => s.KeepsZone x z)
    (fun h _ => keepsZone_trans h (keepsZone_placeOwed z _)) id
    (keepsZone_of_changes (oweEjectOff_changes p s) z)

theorem keepsOthers_owedPlaced (p : PressNo) (s : State) : s.KeepsOthers (owedPlaced p s) p :=
  doIf_rule (Q := fun x => s.KeepsOthers x p) (Q' := fun x => s.KeepsOthers x p)
    (fun h _ => keepsOthers_trans h (keepsOthers_placeOwed _ p)) id (keepsOthers_oweEjectOff p s)

/-- The placement leaves of the ejector all but the marks of what is owed. -/
theorem keepsEjector_owedPlaced (p : PressNo) (s : State) : (s.oweEjectOff p).KeepsEjector (owedPlaced p s) p :=
  doIf_rule (Q := fun x => (s.oweEjectOff p).KeepsEjector x p) (Q' := fun x => (s.oweEjectOff p).KeepsEjector x p)
    (fun h _ => keepsEjector_trans h (keepsEjector_placeOwed p _)) id (.of_eq rfl)

theorem keepsZone_cutEjection (p : PressNo) (s : State) (z : ZoneNo) : s.KeepsZone (s.cutEjection p) z := by
  by_cases h : (s.ejector p).phase = .stopped
  · rw [cutEjection_of_stopped h]
    exact .of_eq rfl
  · rw [cutEjection_of_running h]
    exact keepsZone_trans (keepsZone_owedPlaced p s z) (keepsZone_of_changes (modEjector_changes p _ _) z)

theorem keepsOthers_cutEjection (p : PressNo) (s : State) : s.KeepsOthers (s.cutEjection p) p := by
  by_cases h : (s.ejector p).phase = .stopped
  · rw [cutEjection_of_stopped h]
    exact keepsOthers_refl s p
  · rw [cutEjection_of_running h]
    exact keepsOthers_trans (keepsOthers_owedPlaced p s) (keepsOthers_modEjector p _ _)

theorem ejector_cutEjection (h : (s.ejector p).phase ≠ .stopped) : (s.cutEjection p).ejector p =
    { s.ejector p with phase := .stopped, timerStart := none
                       offOwed := ((s.cutEjection p).ejector p).offOwed } := by
  obtain ⟨hkept, _⟩ := keepsEjector_owedPlaced p s
  have howe := ejector_oweEjectOff p s
  rw [cutEjection_of_running h, ejector_modEjector, hkept, howe]
  rfl

theorem owed_cutEjection (h : (s.ejector p).phase ≠ .stopped) (hn : (s.ejector p).node = some n) :
    ((s.cutEjection p).ejector p).offOwed.map OffOwed.node = some n := by
  obtain ⟨_, howed⟩ := keepsEjector_owedPlaced p s
  have hnode (o : Option OffOwed) : o.map OffOwed.node = (o.map OffOwed.unplaced).map OffOwed.node := by
    rw [Option.map_map]
    rfl
  rw [cutEjection_of_running h, ejector_modEjector]
  show ((owedPlaced p s).ejector p).offOwed.map OffOwed.node = some n
  rw [hnode, howed, oweEjectOff_of_node hn, ejector_owed]
  rfl

/-! ## The cycle that is cut (R142 steps 1 to 3) -/

/-- The cure has ended and the ejection is cut short. -/
def cut (p : PressNo) (s : State) : State :=
  doIf ((s.unit p).state == .eject) (cutEjection p) (doIf ((s.unit p).state == .cure) (endCure p s.timebase) s)

theorem cutCycle_eq (p : PressNo) (cause : CloseCause) (s : State) : s.cutCycle p cause =
    doIf (s.unit p).state.inCycle (closeRecord p cause s.timebase) (cut p s) := rfl

theorem doIf_beq_of_ne {a b : UnitState} (h : a ≠ b) (g : State → State) (s : State) : doIf (a == b) g s = s :=
  doIf_of_not fun he => h (beq_iff_eq.mp he)

theorem doIf_beq_self (a : UnitState) (g : State → State) (s : State) : doIf (a == a) g s = g s :=
  doIf_of (beq_iff_eq.mpr rfl)

theorem cut_of_cure (h : (s.unit p).state = .cure) : cut p s = s.endCure p s.timebase := by
  rw [cut, h, doIf_beq_self, doIf_beq_of_ne (by decide)]

theorem cut_of_eject (h : (s.unit p).state = .eject) : cut p s = s.cutEjection p := by
  rw [cut, h, doIf_beq_self, doIf_beq_of_ne (by decide)]

theorem cut_of_other (hc : (s.unit p).state ≠ .cure) (he : (s.unit p).state ≠ .eject) : cut p s = s := by
  rw [cut, doIf_beq_of_ne hc, doIf_beq_of_ne he]

theorem cut_changes (p : PressNo) (s : State) :
    OnlyChanges [.cures, .history, .ejectors, .offNumber, .portD, .zones] s (cut p s) :=
  .doIf _ (fun x => (cutEjection_changes p x).mono (by decide))
    (.doIf _ (fun x => (endCure_changes p _ x).mono (by decide)) (.refl s))

theorem cutCycle_changes' (p : PressNo) (cause : CloseCause) (s : State) :
    OnlyChanges (.cures :: .ejectors :: .zones :: .offNumber :: .portD :: closeParts) s (s.cutCycle p cause) :=
  .doIf _ (fun x => (closeRecord_changes p cause _ x).mono (by decide)) ((cut_changes p s).mono (by decide))

theorem closed_changes (p : PressNo) (cause : CloseCause) (s : State) :
    OnlyChanges closeParts (cut p s) (s.cutCycle p cause) :=
  .doIf _ (fun x => closeRecord_changes p cause _ x) (.refl _)

theorem keepsOthers_cut (p : PressNo) (s : State) : s.KeepsOthers (cut p s) p :=
  doIf_rule (Q := fun x => s.KeepsOthers x p) (Q' := fun x => s.KeepsOthers x p)
    (fun h _ => keepsOthers_trans h (keepsOthers_cutEjection p _)) id
    (doIf_rule (Q := fun x => s.KeepsOthers x p) (Q' := fun x => s.KeepsOthers x p)
      (fun h _ => keepsOthers_trans h (keepsOthers_endCure p _ _)) id (keepsOthers_refl s p))

theorem keepsZone_cut (p : PressNo) (s : State) (z : ZoneNo) : s.KeepsZone (cut p s) z :=
  doIf_rule (Q := fun x => s.KeepsZone x z) (Q' := fun x => s.KeepsZone x z)
    (fun h _ => keepsZone_trans h (keepsZone_cutEjection p _ z)) id
    (doIf_rule (Q := fun x => s.KeepsZone x z) (Q' := fun x => s.KeepsZone x z)
      (fun h _ => keepsZone_trans h (keepsZone_of_changes (endCure_changes p _ _) z)) id (.of_eq rfl))

theorem opened_cut (p : PressNo) (s : State) : opened (cut p s).history = opened s.history := by
  have hcure (x : State) : opened (x.endCure p s.timebase).history = opened x.history := opened_modRecord p _ _
  have heject (x : State) : opened (x.cutEjection p).history = opened x.history :=
    congrArg opened (cutEjection_changes p x .history (by decide)).symm
  have hended : opened (doIf ((s.unit p).state == .cure) (endCure p s.timebase) s).history = opened s.history :=
    doIf_rule (Q := fun x => opened x.history = opened s.history)
      (Q' := fun x => opened x.history = opened s.history) (fun h _ => (hcure _).trans h) id rfl
  exact doIf_rule (Q := fun x => opened x.history = opened s.history)
    (Q' := fun x => opened x.history = opened s.history) (fun h _ => (heject _).trans h) id hended

/-- The record of a cycle that is cut closes. -/
theorem slot_cutCycle (hc : (s.unit p).state.inCycle = true) (hi : s.history.openRecord[p] = some i)
    (hr : s.history.slots[i] = some r) : (s.cutCycle p cause).history.openRecord[p] = none
      ∧ ∃ x e, (s.cutCycle p cause).history.slots[i] = some { closedRecord cause s.timebase x with exported := e } := by
  obtain ⟨hi', x, hx⟩ := openSlot_of_opened (opened_cut p s) hi hr
  obtain ⟨hnone, e, hslot⟩ := slot_closeRecord (cause := cause) (tm := s.timebase) hi' hx
  rw [cutCycle_eq, doIf_of hc]
  exact ⟨hnone, x, e, hslot⟩

/-! ## The reset (R142) -/

theorem resetUnit_of_bound (hd : (s.unit p).state ≠ .disabled) (hi : (s.unit p).state ≠ .idle) :
    s.resetUnit p cause = (giveUpCharge p (s.cutCycle p cause)).modUnit p PressUnit.afterReset := by
  unfold resetUnit
  cases hs : (s.unit p).state with
  | disabled => exact absurd hs hd
  | idle => exact absurd hs hi
  | chargeWait | chargeReady | closing | cure | demouldWait | opening | eject | unload | fault => rfl

theorem unit_cutCycle (q : PressNo) : (s.cutCycle p cause).unit q = s.unit q :=
  unit_of_changes (cutCycle_changes' p cause s) q

theorem cutCycle_of_waiting (h : (s.unit p).state = .chargeWait ∨ (s.unit p).state = .chargeReady) :
    s.cutCycle p cause = s := by
  rw [cutCycle_eq, cut_of_other (by rcases h with h | h <;> rw [h] <;> decide)
    (by rcases h with h | h <;> rw [h] <;> decide)]
  rcases h with h | h
  · rw [h]
    rfl
  · rw [h]
    rfl

theorem giveUpCharge_changes' (p : PressNo) (s : State) :
    OnlyChanges (.units :: .scales :: raiseParts) s (s.giveUpCharge p) := by
  by_cases hw : (s.unit p).state = .chargeWait
  · rw [giveUpCharge_of_wait hw]
    exact (leaveQueue_changes' p s).mono (by decide)
  · by_cases hr : (s.unit p).state = .chargeReady
    · rw [giveUpCharge_of_ready hr]
      exact ((modUnit_changes p _ s).mono (by decide)).trans ((raise_changes _ _ _ _).mono (by decide))
    · rw [giveUpCharge_of_other hw hr]
      exact .refl s

/-- Outside CHARGE_WAIT no queue changes. -/
theorem scale_giveUpCharge (hw : (s.unit p).state ≠ .chargeWait) (k : ScaleNo) :
    (s.giveUpCharge p).scale k = s.scale k := by
  by_cases hr : (s.unit p).state = .chargeReady
  · rw [giveUpCharge_of_ready hr, discardCharge]
    exact scale_of_changes (raise_changes _ _ _ _) k
  · rw [giveUpCharge_of_other hw hr]

/-- The charge that is given up is one that the reset clears anyway. -/
theorem unit_giveUpCharge (p q : PressNo) (s : State) :
    (s.giveUpCharge p).unit q = s.unit q
      ∨ q = p ∧ (s.giveUpCharge p).unit p = { s.unit p with charge := none } := by
  by_cases hw : (s.unit p).state = .chargeWait
  · rw [giveUpCharge_of_wait hw]
    exact .inl (unit_of_changes (leaveQueue_changes' p s) q)
  · by_cases hr : (s.unit p).state = .chargeReady
    · rw [giveUpCharge_of_ready hr]
      have hraise : OnlyChanges raiseParts (s.modUnit p fun u => { u with charge := none }) (s.discardCharge p) :=
        raise_changes _ _ _ _
      by_cases hq : q = p
      · exact .inr ⟨hq, (unit_of_changes hraise p).trans (unit_modUnit p _ s)⟩
      · exact .inl ((unit_of_changes hraise q).trans (unit_modUnit_of_ne p _ s hq))
    · rw [giveUpCharge_of_other hw hr]
      exact .inl rfl

/-- The state of a press after its reset. -/
def reset (p : PressNo) (cause : CloseCause) (s : State) : State :=
  (giveUpCharge p (s.cutCycle p cause)).modUnit p PressUnit.afterReset

theorem unit_reset (p : PressNo) (cause : CloseCause) (s : State) :
    (reset p cause s).unit p = (s.unit p).afterReset ∧ ∀ q, q ≠ p → (reset p cause s).unit q = s.unit q := by
  refine ⟨?_, fun q hq => ?_⟩
  · rw [reset, unit_modUnit]
    rcases unit_giveUpCharge p p (s.cutCycle p cause) with h | ⟨_, h⟩
    · rw [h, unit_cutCycle]
    · rw [h, unit_cutCycle]
      rfl
  · rw [reset, unit_modUnit_of_ne p _ _ hq]
    rcases unit_giveUpCharge p q (s.cutCycle p cause) with h | ⟨h, _⟩
    · rw [h, unit_cutCycle]
    · exact absurd h hq

/-- What the reset does after the record has closed. -/
theorem reset_after (p : PressNo) (cause : CloseCause) (s : State) :
    OnlyChanges (.units :: .scales :: raiseParts) (s.cutCycle p cause) (reset p cause s) :=
  (giveUpCharge_changes' p _).trans ((modUnit_changes p _ _).mono (by decide))

theorem reset_rest (p : PressNo) (cause : CloseCause) (s : State) :
    OnlyChanges (.units :: .scales :: closeParts) (cut p s) (reset p cause s) :=
  ((closed_changes p cause s).mono (by decide)).trans ((reset_after p cause s).mono (by decide))

theorem keepsOthers_reset (p : PressNo) (cause : CloseCause) (s : State) : s.KeepsOthers (reset p cause s) p := by
  obtain ⟨hpress, hzone⟩ := keepsOthers_cut p s
  have hrest := reset_rest p cause s
  have hunits := (unit_reset p cause s).2
  refine ⟨fun q hq => ?_, fun z hz => ?_⟩
  · obtain ⟨_, hcure, hwindow, hejector⟩ := hpress q hq
    exact ⟨hunits q hq, (cure_of_changes hrest q).trans hcure, (window_of_changes hrest q).trans hwindow,
      keepsEjector_trans hejector (keepsEjector_of_changes hrest q)⟩
  · obtain ⟨haccrual, hkept⟩ := hzone z hz
    exact ⟨(accrual_of_changes hrest z).trans haccrual, keepsZone_trans hkept (keepsZone_of_changes hrest z)⟩

/-- A cut outside EJECT leaves the zones and the ejectors. -/
theorem cut_keeps (h : (s.unit p).state ≠ .eject) : OnlyChanges [.cures, .history] s (cut p s) := by
  rw [cut, doIf_beq_of_ne h]
  exact .doIf _ (fun x => (endCure_changes p _ x).mono (by decide)) (.refl s)

theorem zone_reset (h : (s.unit p).state ≠ .eject) :
    (∀ z, (reset p cause s).zone z = s.zone z) ∧ ∀ q, (reset p cause s).ejector q = s.ejector q := by
  have hcut := cut_keeps h
  have hrest := reset_rest p cause s
  exact ⟨fun z => (zone_of_changes hrest z).trans (zone_of_changes hcut z),
    fun q => (ejector_of_changes hrest q).trans (ejector_of_changes hcut q)⟩

theorem cure_reset_of_cure (h : (s.unit p).state = .cure) (ha : (s.cure p).status = .accruing) :
    (reset p cause s).cure p = { s.cure p with status := .stopped, endTime := some s.timebase } := by
  rw [cure_of_changes (reset_rest p cause s), cut_of_cure h, endCure_of_accruing ha,
    cure_of_changes (modRecord_changes p _ _), cure_modCure]

theorem cure_reset_of_other (h : (s.unit p).state ≠ .cure) : (reset p cause s).cure p = s.cure p := by
  have hcut : (cut p s).cure p = s.cure p := by
    rw [cut, doIf_beq_of_ne h]
    exact cure_of_changes (.doIf (k := [.ejectors, .offNumber, .portD, .zones]) _
      (fun x => (cutEjection_changes p x).mono (by decide)) (.refl s)) p
  exact (cure_of_changes (reset_rest p cause s) p).trans hcut

theorem ejector_reset (h : (s.unit p).state = .eject) (he : (s.ejector p).phase ≠ .stopped) :
    (reset p cause s).ejector p = { s.ejector p with
      phase := .stopped, timerStart := none, offOwed := ((reset p cause s).ejector p).offOwed }
      ∧ ∀ n, (s.ejector p).node = some n → ((reset p cause s).ejector p).offOwed.map OffOwed.node = some n := by
  have hkept : (reset p cause s).ejector p = (s.cutEjection p).ejector p := by
    rw [ejector_of_changes (reset_rest p cause s), cut_of_eject h]
  rw [hkept]
  exact ⟨ejector_cutEjection he, fun n hn => owed_cutEjection he hn⟩

/-- The record of the cycle closes as ABORTED. -/
theorem slot_reset (hc : (s.unit p).state.inCycle = true) (hopen : (s.openRecord p).isSome = true) (ha : Aborts cause) :
    (reset p cause s).history.openRecord[p] = none
      ∧ ∃ i r, s.history.openRecord[p] = some i ∧ (reset p cause s).history.slots[i] = some r
        ∧ r.state = .closed ∧ r.outcome = some .aborted := by
  obtain ⟨_, hr⟩ := Option.isSome_iff_exists.mp hopen
  obtain ⟨i, hi, hr⟩ := Option.bind_eq_some_iff.mp hr
  obtain ⟨hnone, x, e, hslot⟩ := slot_cutCycle (cause := cause) hc hi hr
  have hunits : OnlyChanges [.units] (giveUpCharge p (s.cutCycle p cause)) (reset p cause s) := modUnit_changes p _ _
  have hstate : ((s.cutCycle p cause).unit p).state = (s.unit p).state := by rw [unit_cutCycle]
  have hgive : giveUpCharge p (s.cutCycle p cause) = s.cutCycle p cause :=
    giveUpCharge_of_other (fun h => by rw [← hstate, h] at hc; cases hc) (fun h => by rw [← hstate, h] at hc; cases hc)
  have hhistory : (reset p cause s).history = (s.cutCycle p cause).history := by
    rw [← hunits .history (by decide), hgive]
  rw [hhistory]
  exact ⟨hnone, i, _, hi, hslot, rfl, outcome_closedRecord_of_aborts ha⟩

theorem reset_of_wait (h : (s.unit p).state = .chargeWait) :
    reset p cause s = (s.leaveQueue p).modUnit p PressUnit.afterReset := by
  rw [reset, cutCycle_of_waiting (.inl h), giveUpCharge_of_wait h]

theorem not_queued_reset (hl : s.live = true) (h : (s.unit p).state = .chargeWait) :
    s.LeavesQueue (reset p cause s) p ∧ p ∉ (reset p cause s).queuedPresses := by
  rw [reset_of_wait h]
  obtain ⟨_, hpresses, _, hleaves, _⟩ := leaves_modUnit hl p PressUnit.afterReset
  have hout (k : ScaleNo) : p ∉ presses (((s.leaveQueue p).modUnit p PressUnit.afterReset).scale k) := by
    rw [presses, hpresses]
    exact fun hm => of_decide_eq_true (List.mem_filter.mp hm).2 rfl
  refine ⟨hleaves, ?_⟩
  rw [queuedPresses_eq]
  exact fun hm => (List.mem_append.mp hm).elim (hout 0) (hout 1)

theorem scale_reset (h : (s.unit p).state ≠ .chargeWait) (k : ScaleNo) :
    (reset p cause s).scale k = s.scale k := by
  have hcut := cutCycle_changes' p cause s
  have hgive : (giveUpCharge p (s.cutCycle p cause)).scale k = (s.cutCycle p cause).scale k :=
    scale_giveUpCharge (by rw [unit_cutCycle]; exact h) k
  exact (scale_of_changes (modUnit_changes p _ _) k).trans (hgive.trans (scale_of_changes hcut k))

theorem raw_reset_of_ready (hl : s.live = true) (h : (s.unit p).state = .chargeReady) :
    ((reset p cause s).events[13]).raw = true := by
  have hevents : (reset p cause s).events = (s.discardCharge p).events := by
    rw [reset, cutCycle_of_waiting (.inr h), giveUpCharge_of_ready h]
    rfl
  rw [hevents]
  exact raw_raise_self (s := s.modUnit p fun u => { u with charge := none }) hl _ .chargeDiscard _

theorem keepsZone_reset (p : PressNo) (cause : CloseCause) (s : State) (z : ZoneNo) :
    s.KeepsZone (reset p cause s) z :=
  keepsZone_trans (keepsZone_cut p s z) (keepsZone_of_changes (reset_rest p cause s) z)

theorem reset_changes (p : PressNo) (cause : CloseCause) (s : State) :
    OnlyChanges (.units :: .cures :: .scales :: .ejectors :: .zones :: .offNumber :: .portD :: closeParts) s
      (reset p cause s) :=
  ((cut_changes p s).mono (by decide)).trans ((reset_rest p cause s).mono (by decide))

/-! ## FORCE_DEMOULD (R136) -/

theorem forceDemould_of_other (h : (s.unit p).state ≠ .cure) : s.forceDemould p = (s, .refusedState) := if_neg h

theorem forceDemould_of_cure (h : (s.unit p).state = .cure) : s.forceDemould p =
    ((setFlag p .forcedDemould (endCure p s.timebase s)).modUnit p fun u => { u with state := .demouldWait }, .ok) :=
  if_pos h

/-- Settles O44: by the unit's state; the parts of the reset are those of `reset`. -/
theorem pressResetAndForceDemould : Obligations.PressResetAndForceDemould := by
  intro s bytes f p st
  refine ⟨fun h => ?_, fun h => ?_⟩
  · have hrun : exec (.pressControlReset bytes) s = .next (answer f (.pressReset p.val) s.linkActivity) :=
      running_answer h nofun
    have hl : s.linkActivity.live = true := h.1.live
    rw [answer, serveRequest, onPress_of_lt] at hrun
    refine ⟨fun hst => hrun.trans ?_, fun hst => hrun.trans ?_, fun hd hi hlaw => ?_⟩
    · rw [State.pressReset, resetUnit, show (s.linkActivity.unit p).state = .disabled from hst]
    · rw [State.pressReset, resetUnit, show (s.linkActivity.unit p).state = .idle from hst]
    · rw [State.pressReset, resetUnit_of_bound (s := s.linkActivity) hd hi] at hrun
      obtain ⟨_, _, hcure, _, hopen, heject, _⟩ := hlaw
      obtain ⟨hunit, hunits⟩ := unit_reset p .pressReset s.linkActivity
      refine ⟨reset p .pressReset s.linkActivity, hrun, hunit, hunits, fun hst => ?_, fun hst => ?_, fun hst => ?_,
        fun hst => ?_, keepsZone_reset p _ _, keepsOthers_reset p _ _, fun hst => ?_, fun hst => ?_, fun hst => ?_,
        fun hst => ?_, fun hst => ?_, fun hst => ?_, fun hst => ?_, reset_changes p _ _⟩
      · exact cure_reset_of_cure (s := s.linkActivity) hst (hcure.mpr hst)
      · exact cure_reset_of_other (s := s.linkActivity) hst
      · exact zone_reset (s := s.linkActivity) hst
      · exact (ejector_reset (s := s.linkActivity) hst (heject.mpr hst)).1
      · exact (not_queued_reset hl hst).1
      · exact scale_reset (s := s.linkActivity) hst
      · rw [cure_reset_of_cure (s := s.linkActivity) hst (hcure.mpr hst)]
        exact ⟨rfl, rfl, rfl⟩
      · obtain ⟨heq, hnode⟩ :=
          ejector_reset (cause := .pressReset) (s := s.linkActivity) hst (heject.mpr hst)
        exact ⟨congrArg Ejector.phase heq, congrArg Ejector.timerStart heq, hnode⟩
      · exact slot_reset (s := s.linkActivity) hst (hopen.trans hst) (.inr (.inl rfl))
      · exact (not_queued_reset hl hst).2
      · exact raw_reset_of_ready hl hst
  · have hrun : exec (.pressControlForceDemould bytes) s = .next (answer f (.forceDemould p.val) s.linkActivity) :=
      running_answer h nofun
    rw [answer, serveRequest, onPress_of_lt] at hrun
    refine ⟨fun hst => hrun.trans ?_, fun hst ha => hrun.trans ?_⟩
    · rw [forceDemould_of_other (s := s.linkActivity) hst]
      rfl
    · rw [forceDemould_of_cure (s := s.linkActivity) hst, endCure_of_accruing (s := s.linkActivity) ha]
      rfl

end Sys2Proof.Proofs.PressResets
end

