-- ==== Sys2Proof/Proofs/PressReports.lean ====
section
/-! PROOFS. A press STATUS frame (R126), the binding attempt of an IDLE unit (R127) and the mould test of a unit that
waits for a charge or holds one (R128). -/

namespace Sys2Proof.Proofs.PressReports

set_option Elab.async false

open Sys2Proof.Machine Sys2Proof.Machine.State Sys2Proof.Proofs.StepRules Sys2Proof.Proofs.CycleViews
  Sys2Proof.Proofs.CureRules Sys2Proof.Proofs.HeatLaws Sys2Proof.Proofs.CloseConditions
  Sys2Proof.Proofs.Reception Sys2Proof.Proofs.Evaluations Sys2Proof.Proofs.Releases Sys2Proof.Proofs.Queues
  Sys2Proof.Proofs.ZoneRequests Sys2Proof.Proofs.PressRequests Sys2Proof.Proofs.CureProgress

variable {s t x : State} {p q : PressNo} {k : ScaleNo} {z y : ZoneNo} {bytes : List Byte} {f : RxFrame} {a : PressReport}
  {b : Binding} {m : MouldEntry} {i : Fin 32} {mould : Nat} {r : Recipe} {head : Option (PressNo × Recipe)}

/-! ## The frame (R126) -/

/-- The state in which the report is tested. -/
def noted (p : PressNo) (a : PressReport) (s : State) : State := s.modUnit p fun u => { u with lastStatus := some a }

theorem exec_pressStatus (h : s.FromNode bytes f .press p.val .status)
    (ha : pressReportOf f.payload s.timebase = some a) : exec (.pressStatus bytes) s =
      .next (s.up f bytes (testReport (s.unit p).state p a (noted p a s.linkActivity))) := by
  have hrun : exec (.pressStatus bytes) s = running (receive .D bytes) s := rfl
  have ⟨_, hrole, hunit, hkind⟩ := h
  rw [hrun, running_fromNode h, consume_press hrole hkind, show s.linkActivity.timebase = s.timebase from rfl, ha,
    deliver_some rfl, hunit, pressNo_val]
  rfl

theorem arrival_of_report (ha : pressReportOf f.payload s.timebase = some a) : a.arrival = s.timebase := by
  unfold pressReportOf at ha
  split at ha
  · obtain ⟨_, _, rfl⟩ := Option.map_eq_some_iff.mp ha
    rfl
  · cases ha

theorem unit_noted (p : PressNo) (a : PressReport) (s : State) :
    (noted p a s).unit p = { s.unit p with lastStatus := some a } := unit_modUnit p _ s

theorem units_noted (hq : q ≠ p) (a : PressReport) (s : State) : (noted p a s).unit q = s.unit q :=
  unit_modUnit_of_ne p _ s hq

theorem noted_changes (p : PressNo) (a : PressReport) (s : State) : OnlyChanges [.units] s (noted p a s) :=
  modUnit_changes p _ s

theorem modUnit_modUnit (p : PressNo) (g h : PressUnit → PressUnit) (s : State) :
    (s.modUnit p g).modUnit p h = s.modUnit p fun u => h (g u) := by
  unfold modUnit
  simp

/-- Two changes of a unit that give the same unit. -/
theorem modUnit_congr {g h : PressUnit → PressUnit} (he : g (s.unit p) = h (s.unit p)) :
    s.modUnit p g = s.modUnit p h := by
  have he : g s.units[p] = h s.units[p] := he
  unfold modUnit
  rw [he]

/-! ## The tests of a binding (R127) -/

theorem slotFor_of_unknown (h : mould = 0 ∨ ∀ m ∈ s.tables.moulds.toList, m.mould ≠ mould) :
    s.slotFor mould = none := by
  unfold slotFor
  split
  · rfl
  · rename_i hne
    refine List.find?_eq_none.mpr fun m hm he => ?_
    exact (h.resolve_left hne) m hm (beq_iff_eq.mp he)

theorem bindTest_of_unknown (h : mould = 0 ∨ ∀ m ∈ s.tables.moulds.toList, m.mould ≠ mould) :
    s.bindTest p mould = .error .mouldUnknown := by
  rw [bindTest, slotFor_of_unknown h]

theorem bindTest_of_slot (hm : s.slotFor mould = some m) (h : m.recipe < 32) :
    s.bindTest p mould = s.bindRecipe p mould ⟨m.recipe, h⟩ := by
  rw [bindTest, hm]
  exact dif_pos h

theorem hasReference_iff : s.hasReference p = true ↔
    ∃ z, pressOf z = p ∧ s.enabled z = true ∧ (s.zoneEntry z).cureReference = true := by
  simp only [hasReference, List.any_eq_true, mem_enabledZones, and_assoc]

theorem bindRecipe_of_invalid (h : (s.tables.recipes[i]).valid = false ∨ (s.tables.recipes[i]).mould ≠ mould) :
    s.bindRecipe p mould i = .error .recipeInvalid := if_pos h

theorem not_invalid (hv : (s.tables.recipes[i]).valid = true) (hm : (s.tables.recipes[i]).mould = mould) :
    ¬((s.tables.recipes[i]).valid = false ∨ (s.tables.recipes[i]).mould ≠ mould) := fun h =>
  h.elim (fun hf => Bool.noConfusion (hv.symm.trans hf)) (fun hn => hn hm)

theorem bindRecipe_of_rate (hv : (s.tables.recipes[i]).valid = true) (hm : (s.tables.recipes[i]).mould = mould)
    (hr : (s.rateOf s.tables.recipes[i]).length < 2) : s.bindRecipe p mould i = .error .rateInvalid :=
  (if_neg (not_invalid hv hm)).trans (if_pos hr)

theorem bindRecipe_of_valid (hv : (s.tables.recipes[i]).valid = true) (hm : (s.tables.recipes[i]).mould = mould)
    (hr : 2 ≤ (s.rateOf s.tables.recipes[i]).length) : s.bindRecipe p mould i =
      if s.hasReference p then .ok { recipe := i, mould := mould } else .error .noReference :=
  (if_neg (not_invalid hv hm)).trans (if_neg (Nat.not_lt.mpr hr))

theorem attemptBinding_of_error {e : BindFault} (h : s.bindTest p a.mould = .error e) :
    s.attemptBinding p a = s.modUnit p fun u => { u with bindFault := e } := by
  rw [attemptBinding, h]

theorem attemptBinding_of_ok (h : s.bindTest p a.mould = .ok b) :
    s.attemptBinding p a = s.bindUnit p b a.arrival := by
  rw [attemptBinding, h]

/-! ## The bases of a binding (R63) -/

theorem zone_takeRecipeBase_of_ne (h : z ≠ y) (r : Recipe) (s : State) :
    (s.takeRecipeBase r y).zone z = s.zone z := by
  unfold takeRecipeBase
  split
  · exact zone_modZone_of_ne y _ s h
  · rfl

theorem zone_takeRecipeBase_of_kept (h : s.enabled z = false ∨ (s.zone z).overridden = true) :
    (s.takeRecipeBase r z).zone z = s.zone z := by
  refine congrArg (fun x : State => x.zone z) (if_neg fun hyes => ?_)
  obtain ⟨he, ho⟩ := Bool.and_eq_true_iff.mp hyes
  rcases h with h | h
  · rw [h] at he
    cases he
  · rw [h] at ho
    cases ho

theorem zone_takeRecipeBase (he : s.enabled z = true) (ho : (s.zone z).overridden = false) :
    (s.takeRecipeBase r z).zone z =
      { s.zone z with base := recipeBase r z (s.zoneEntry z).offset
                      target := targetOf (s.zoneEntry z).limit (recipeBase r z (s.zoneEntry z).offset) } := by
  have hyes : (s.enabled z && !(s.zone z).overridden) = true := by
    rw [he, ho]
    rfl
  rw [takeRecipeBase, if_pos hyes, setBase, zone_modZone]

/-- What a zone takes depends on the zone and its entry. -/
theorem zone_takeRecipeBase_congr (hz : t.zone z = s.zone z) (he : t.zoneEntry z = s.zoneEntry z) :
    (t.takeRecipeBase r z).zone z = (s.takeRecipeBase r z).zone z := by
  have henabled : t.enabled z = s.enabled z := by rw [enabled, enabled, hz]
  by_cases hk : s.enabled z = false ∨ (s.zone z).overridden = true
  · rw [zone_takeRecipeBase_of_kept hk, zone_takeRecipeBase_of_kept (by rw [henabled, hz]; exact hk), hz]
  · obtain ⟨h1, h2⟩ := not_or.mp hk
    have h1 := Bool.eq_true_of_not_eq_false h1
    have h2 := Bool.eq_false_of_not_eq_true h2
    rw [zone_takeRecipeBase h1 h2, zone_takeRecipeBase (henabled.trans h1) (hz ▸ h2), hz, he]

theorem zone_each_takeRecipeBase {l : List ZoneNo} (hl : l.Nodup) (r : Recipe) (z : ZoneNo) (s : State) :
    (each (takeRecipeBase r) l s).zone z = if z ∈ l then (s.takeRecipeBase r z).zone z else s.zone z := by
  induction l generalizing s with
  | nil => rfl
  | cons y l ih =>
    obtain ⟨hy, hl⟩ := List.nodup_cons.mp hl
    rw [each_cons, ih hl]
    by_cases hz : z = y
    · subst hz
      rw [if_neg hy, if_pos List.mem_cons_self]
    · have hzone := zone_takeRecipeBase_of_ne hz r s
      rw [zone_takeRecipeBase_congr hzone (zoneEntry_of_changes (takeRecipeBase_changes r y s) z), hzone]
      simp [hz]

/-! ## The binding (R127) -/

/-- The unit of a new binding before it joins its queue. -/
def boundUnit (p : PressNo) (b : Binding) (s : State) : State :=
  (each (takeRecipeBase s.tables.recipes[b.recipe]) (zonesOf p)
    (s.modUnit p fun u => { u with binding := some b, bindFault := .none })).modUnit p
      fun u => { u with state := .chargeWait }

theorem bindUnit_eq (p : PressNo) (b : Binding) (tm : Time) (s : State) :
    s.bindUnit p b tm = (boundUnit p b s).joinQueue p s.tables.recipes[b.recipe] tm := rfl

theorem bases_changes (r : Recipe) (l : List ZoneNo) (s : State) :
    OnlyChanges [.zones] s (each (takeRecipeBase r) l s) :=
  each_rule (Q := OnlyChanges [.zones] s) (fun z {_} h => h.trans (takeRecipeBase_changes r z _)) l (.refl s)

theorem boundUnit_changes (p : PressNo) (b : Binding) (s : State) :
    OnlyChanges [.units, .zones] s (boundUnit p b s) :=
  ((modUnit_changes p _ s).mono (by decide)).trans
    (((bases_changes _ _ _).mono (by decide)).trans ((modUnit_changes p _ _).mono (by decide)))

theorem unit_boundUnit (p : PressNo) (b : Binding) (s : State) :
    (boundUnit p b s).unit p = { s.unit p with binding := some b, bindFault := .none, state := .chargeWait } := by
  rw [boundUnit, unit_modUnit, unit_of_changes (bases_changes _ _ _), unit_modUnit]

theorem units_boundUnit (hq : q ≠ p) (b : Binding) (s : State) : (boundUnit p b s).unit q = s.unit q := by
  rw [boundUnit, unit_modUnit_of_ne p _ _ hq, unit_of_changes (bases_changes _ _ _), unit_modUnit_of_ne p _ _ hq]

theorem zone_boundUnit (p : PressNo) (b : Binding) (z : ZoneNo) (s : State) : (boundUnit p b s).zone z =
    if pressOf z = p then (s.takeRecipeBase s.tables.recipes[b.recipe] z).zone z else s.zone z := by
  rw [boundUnit, zone_of_changes (modUnit_changes p _ _), zone_each_takeRecipeBase (zonesOf_nodup p)]
  have hcongr : ((s.modUnit p fun u => { u with binding := some b, bindFault := .none }).takeRecipeBase
      s.tables.recipes[b.recipe] z).zone z = (s.takeRecipeBase s.tables.recipes[b.recipe] z).zone z :=
    zone_takeRecipeBase_congr rfl rfl
  rw [hcongr]
  exact if_congr mem_zonesOf rfl rfl

theorem boundRecipe_boundUnit (p : PressNo) (b : Binding) (s : State) :
    (boundUnit p b s).boundRecipe p = some s.tables.recipes[b.recipe] := by
  rw [boundRecipe, unit_boundUnit, ← boundUnit_changes p b s .tables (by decide)]
  rfl

/-! ## A press joins a queue (R117) -/

theorem requeued_of_same {change : List QueueEntry → List QueueEntry}
    (h : (change (s.scale k).queue).head?.map QueueEntry.press = (s.scale k).queue.head?.map QueueEntry.press) :
    s.Requeued (requeue k change s) k { s.scale k with queue := change (s.scale k).queue } head := by
  have hscale : (requeued k change s).scale k = { s.scale k with queue := change (s.scale k).queue } :=
    scale_modScale k _ s
  have hhead : (requeued k change s).headOf k = s.headOf k := by rw [headOf, headOf, hscale, h]
  rw [requeue_eq, if_pos hhead]
  exact ⟨fun _ => hscale, fun v hne _ => absurd h hne⟩

/-- A press that joins an empty queue is its head; behind others it changes no head. -/
theorem requeued_joinQueue (hl : s.live = true) (p : PressNo) (hr : s.boundRecipe p = some r) (tm : Time) :
    s.Requeued (s.joinQueue p r tm) (scaleOf r)
      { s.scale (scaleOf r) with queue :=
          (s.scale (scaleOf r)).queue ++ [{ press := p, attempts := 0, joined := tm }] } (some (p, r)) := by
  cases hq : (s.scale (scaleOf r)).queue with
  | nil =>
    have h := requeued_requeue (k := scaleOf r) (head := some (p, r)) hl
      (fun l => l ++ [{ press := p, attempts := 0, joined := tm }]) (.inr ⟨_, [], r, congrArg (· ++ _) hq, hr, rfl⟩)
    rw [hq] at h
    exact h
  | cons e l =>
    have h := requeued_of_same (s := s) (k := scaleOf r) (head := some (p, r))
      (change := fun l => l ++ [{ press := p, attempts := 0, joined := tm }]) (by rw [hq]; rfl)
    rw [hq] at h
    exact h

theorem presses_joinQueue (p : PressNo) (r : Recipe) (tm : Time) (s : State) :
    presses ((s.joinQueue p r tm).scale (scaleOf r)) = presses (s.scale (scaleOf r)) ++ [p] := by
  rw [joinQueue, presses_requeue, List.map_append]
  rfl

theorem joinQueue_changes' (p : PressNo) (r : Recipe) (tm : Time) (s : State) :
    OnlyChanges (.scales :: raiseParts) s (s.joinQueue p r tm) := requeue_changes' _ _ s

theorem scaleOf_eq_iff : k.val = r.scale % 2 ↔ k = scaleOf r :=
  ⟨fun h => Fin.ext h, fun h => congrArg Fin.val h⟩

theorem scale_joinQueue_of_ne (h : k.val ≠ r.scale % 2) (p : PressNo) (tm : Time) (s : State) :
    (s.joinQueue p r tm).scale k = s.scale k :=
  scale_requeue_of_ne (scaleOf_eq_iff.not.mp h) _ s

/-- A leave seen from a state before, whose ports, attention and scales are the same. -/
theorem leavesQueue_before {ps : List Part} (hc : OnlyChanges ps s x)
    (hps : ∀ y ∈ [Part.scales, .tables, .mode, .portU, .attention], y ∉ ps)
    (hb : ∀ q, x.boundRecipe q = s.boundRecipe q) (h : x.LeavesQueue t p) : s.LeavesQueue t p := by
  intro k c
  have hscale (j : ScaleNo) : x.scale j = s.scale j := scale_of_changes hc j (hps _ (by decide))
  obtain ⟨hno, hyes⟩ := h k
  simp only [hscale, State.Heads, hb] at hno hyes
  exact ⟨hno, fun head hq hone hh => requeued_before hc hps (hyes head hq hone hh)⟩

theorem boundRecipe_noted (p : PressNo) (a : PressReport) (s : State) (q : PressNo) :
    (noted p a s).boundRecipe q = s.boundRecipe q := by
  have hbinding : ((noted p a s).unit q).binding = (s.unit q).binding := by
    by_cases hq : q = p
    · subst hq
      rw [unit_noted]
    · rw [units_noted hq]
  rw [boundRecipe, hbinding]
  rfl

/-! ## The mould test of a unit that waits (R128) -/

theorem mouldDiffers_iff (hb : (s.unit p).binding = some b) :
    s.mouldDiffers p mould = true ↔ mould ≠ 0 ∧ mould ≠ b.mould := by
  rw [mouldDiffers, hb, Option.any_some, Bool.and_eq_true, bne_iff_ne, bne_iff_ne]
  exact and_congr_right fun _ => ne_comm

theorem mouldTestWaiting_of_same (h : ¬s.mouldDiffers p a.mould = true) : s.mouldTestWaiting p a = s := if_neg h

theorem mouldTestWaiting_of_differs (h : s.mouldDiffers p a.mould = true) :
    s.mouldTestWaiting p a = (giveUpCharge p s).modUnit p (PressUnit.unbound .idle) := if_pos h

theorem mouldDiffers_noted (hb : (s.unit p).binding = some b) :
    (noted p a s).mouldDiffers p mould = true ↔ mould ≠ 0 ∧ mould ≠ b.mould :=
  mouldDiffers_iff (by rw [unit_noted]; exact hb)

/-- A charge that is discarded goes with the binding. -/
theorem discarded_unbound (p : PressNo) (s : State) :
    (s.discardCharge p).modUnit p (PressUnit.unbound .idle) =
      (raiseNow .chargeDiscard (.press p) (s.modUnit p fun u => { u with charge := none })).modUnit p
        fun u => { u with state := .idle, binding := none } := by
  refine modUnit_congr ?_
  have hunit : (s.discardCharge p).unit p = { s.unit p with charge := none } := by
    rw [discardCharge, raiseNow, unit_of_changes (raise_changes _ _ _ _), unit_modUnit]
  rw [hunit]
  rfl

/-! ## The binding attempt and the mould test -/

theorem bindUnit_changes' (p : PressNo) (b : Binding) (tm : Time) (s : State) :
    OnlyChanges (.units :: .zones :: .scales :: raiseParts) s (s.bindUnit p b tm) := by
  rw [bindUnit_eq]
  exact ((boundUnit_changes p b s).mono (by decide)).trans ((joinQueue_changes' p _ tm _).mono (by decide))

theorem zone_bindUnit (p : PressNo) (b : Binding) (tm : Time) (z : ZoneNo) (s : State) : (s.bindUnit p b tm).zone z =
    if pressOf z = p then (s.takeRecipeBase s.tables.recipes[b.recipe] z).zone z else s.zone z := by
  rw [bindUnit_eq, zone_of_changes (joinQueue_changes' p _ tm _), zone_boundUnit]

theorem zone_bindUnit_of_based {tm : Time} (hp : pressOf z = p) (he : s.enabled z = true)
    (ho : (s.zone z).overridden = false) : (s.bindUnit p b tm).zone z =
      let base := recipeBase s.tables.recipes[b.recipe] z (s.zoneEntry z).offset
      { s.zone z with base := base, target := max 0 (min (((s.zoneEntry z).limit : Int) - 50) base) } := by
  rw [zone_bindUnit, if_pos hp, zone_takeRecipeBase he ho]
  rfl

theorem zone_bindUnit_of_kept {tm : Time}
    (h : pressOf z ≠ p ∨ s.enabled z = false ∨ (s.zone z).overridden = true) :
    (s.bindUnit p b tm).zone z = s.zone z := by
  rw [zone_bindUnit]
  split
  · exact zone_takeRecipeBase_of_kept (h.resolve_left fun hn => hn ‹_›)
  · rfl

theorem unit_bindUnit (p : PressNo) (b : Binding) (tm : Time) (s : State) :
    (s.bindUnit p b tm).unit p = { s.unit p with binding := some b, bindFault := .none, state := .chargeWait }
      ∧ ∀ q, q ≠ p → (s.bindUnit p b tm).unit q = s.unit q := by
  rw [bindUnit_eq]
  exact ⟨(unit_of_changes (joinQueue_changes' p _ tm _) p).trans (unit_boundUnit p b s),
    fun q hq => (unit_of_changes (joinQueue_changes' p _ tm _) q).trans (units_boundUnit hq b s)⟩

/-- The queues after a binding. -/
theorem scale_bindUnit (hl : s.live = true) (p : PressNo) (b : Binding) (tm : Time) :
    let r := s.tables.recipes[b.recipe]
    let t := s.bindUnit p b tm
    (∀ k : ScaleNo, k.val = r.scale % 2 → presses (t.scale k) = presses (s.scale k) ++ [p])
      ∧ (∀ k : ScaleNo, k.val = r.scale % 2 → s.Requeued t k
          { s.scale k with queue := (s.scale k).queue ++ [{ press := p, attempts := 0, joined := tm }] } (some (p, r)))
      ∧ ∀ k : ScaleNo, k.val ≠ r.scale % 2 → t.scale k = s.scale k := by
  intro r t
  have hbound := boundUnit_changes p b s
  have hscale (k : ScaleNo) : (boundUnit p b s).scale k = s.scale k := scale_of_changes hbound k
  have ht : t = (boundUnit p b s).joinQueue p r tm := bindUnit_eq p b tm s
  rw [ht]
  refine ⟨fun k hk => ?_, fun k hk => ?_, fun k hk => ?_⟩
  · rw [scaleOf_eq_iff.mp hk, presses_joinQueue, hscale]
  · have h := requeued_joinQueue ((live_of_changes hbound).trans hl) p (boundRecipe_boundUnit p b s) tm
    rw [hscale] at h
    rw [scaleOf_eq_iff.mp hk]
    exact requeued_before hbound (by decide) h
  · rw [scale_joinQueue_of_ne hk, hscale]

theorem exec_of_idle (h : s.FromNode bytes f .press p.val .status)
    (ha : pressReportOf f.payload s.timebase = some a) (hst : (s.unit p).state = .idle) :
    exec (.pressStatus bytes) s = .next (s.up f bytes ((noted p a s.linkActivity).attemptBinding p a)) := by
  rw [exec_pressStatus h ha, hst]
  rfl

/-- A test of the binding fails. -/
theorem exec_of_bindFault {e : BindFault} (h : s.FromNode bytes f .press p.val .status)
    (ha : pressReportOf f.payload s.timebase = some a) (hst : (s.unit p).state = .idle)
    (he : (noted p a s.linkActivity).bindTest p a.mould = .error e) : exec (.pressStatus bytes) s =
      .next (s.up f bytes (s.linkActivity.modUnit p fun u => { u with lastStatus := some a, bindFault := e })) := by
  rw [exec_of_idle h ha hst, attemptBinding_of_error he, noted, modUnit_modUnit]

theorem exec_of_waiting (h : s.FromNode bytes f .press p.val .status)
    (ha : pressReportOf f.payload s.timebase = some a)
    (hst : (s.unit p).state = .chargeWait ∨ (s.unit p).state = .chargeReady) :
    exec (.pressStatus bytes) s = .next (s.up f bytes ((noted p a s.linkActivity).mouldTestWaiting p a)) := by
  rw [exec_pressStatus h ha]
  rcases hst with hst | hst
  · rw [hst]
    rfl
  · rw [hst]
    rfl

theorem state_noted (p : PressNo) (a : PressReport) (s : State) :
    ((noted p a s).unit p).state = (s.unit p).state := by rw [unit_noted]

/-- The binding that a report makes, all tests passed. -/
theorem bindUnit_noted (hl : s.live = true) (p : PressNo) (a : PressReport) (b : Binding) (tm : Time) :
    let r := s.tables.recipes[b.recipe]
    let t := (noted p a s).bindUnit p b tm
    t.unit p = { s.unit p with
        lastStatus := some a, binding := some b, bindFault := .none, state := .chargeWait }
      ∧ (∀ q, q ≠ p → t.unit q = s.unit q)
      ∧ (∀ z, pressOf z = p → s.enabled z = true → (s.zone z).overridden = false →
          let base := ((if isUpper z then r.upper else r.lower : Nat) : Int) + (s.zoneEntry z).offset
          t.zone z = { s.zone z with
            base := base, target := max 0 (min (((s.zoneEntry z).limit : Int) - 50) base) })
      ∧ (∀ z, pressOf z ≠ p ∨ s.enabled z = false ∨ (s.zone z).overridden = true → t.zone z = s.zone z)
      ∧ (∀ k : ScaleNo, k.val = r.scale % 2 → presses (t.scale k) = presses (s.scale k) ++ [p])
      ∧ (∀ k : ScaleNo, k.val = r.scale % 2 → s.Requeued t k
          { s.scale k with queue := (s.scale k).queue ++ [{ press := p, attempts := 0, joined := tm }] } (some (p, r)))
      ∧ (∀ k : ScaleNo, k.val ≠ r.scale % 2 → t.scale k = s.scale k)
      ∧ OnlyChanges (.units :: .zones :: .scales :: raiseParts) s t := by
  intro r t
  have hnoted := noted_changes p a s
  obtain ⟨hunit, hunits⟩ := unit_bindUnit p b tm (noted p a s)
  obtain ⟨hpresses, hrequeued, hother⟩ := scale_bindUnit (s := noted p a s) hl p b tm
  refine ⟨?_, fun q hq => (hunits q hq).trans (units_noted hq a s), fun z hz he ho => ?_, fun z hz => ?_, hpresses,
    fun k hk => requeued_before hnoted (by decide) (hrequeued k hk), hother,
    (hnoted.mono (by decide)).trans (bindUnit_changes' p b tm _)⟩
  · rw [hunit, unit_noted]
  · refine (zone_bindUnit_of_based (s := noted p a s) hz he ho).trans ?_
    unfold recipeBase
    split
    · rfl
    · rfl
  · exact zone_bindUnit_of_kept (s := noted p a s) hz

/-- Settles O45: an IDLE unit tests the report; a unit that waits or holds a charge compares its mould. -/
theorem bindingAttempt : Obligations.BindingAttempt := by
  refine ⟨?_, ?_⟩
  · intro s bytes f p a h ha hst fails reference
    have hfails {e : BindFault} (he : (noted p a s.linkActivity).bindTest p a.mould = .error e) : fails e :=
      exec_of_bindFault h ha hst he
    have hl : s.linkActivity.live = true := by
      obtain ⟨⟨_, hn⟩, _⟩ := h.1
      exact hn.live
    refine ⟨fun hno => hfails (bindTest_of_unknown hno), fun m hm hslot => ?_⟩
    have htest := bindTest_of_slot (s := noted p a s.linkActivity) (p := p) hslot hm
    have href : (noted p a s.linkActivity).hasReference p = true ↔ reference := hasReference_iff
    intro r
    refine ⟨fun hbad => hfails (htest.trans (bindRecipe_of_invalid hbad)),
      fun hv hr hrate => hfails (htest.trans (bindRecipe_of_rate hv hr hrate)),
      fun hv hr hrate hno => hfails (htest.trans ((bindRecipe_of_valid hv hr hrate).trans (if_neg (href.not.mpr hno)))),
      fun hv hr hrate hyes => ?_⟩
    have hok := htest.trans ((bindRecipe_of_valid hv hr hrate).trans (if_pos (href.mpr hyes)))
    have hexec : exec (.pressStatus bytes) s = .next (s.up f bytes
        ((noted p a s.linkActivity).bindUnit p { recipe := ⟨m.recipe, hm⟩, mould := a.mould } s.timebase)) := by
      rw [exec_of_idle h ha hst, attemptBinding_of_ok hok, arrival_of_report ha]
    exact ⟨_, hexec, bindUnit_noted hl p a { recipe := ⟨m.recipe, hm⟩, mould := a.mould } s.timebase⟩
  · intro s bytes f p a b h ha hb differs
    have hdiffers : (noted p a s.linkActivity).mouldDiffers p a.mould = true ↔ differs := mouldDiffers_noted hb
    have hl : s.linkActivity.live = true := by
      obtain ⟨⟨_, hn⟩, _⟩ := h.1
      exact hn.live
    refine ⟨fun hno hst => ?_, fun hyes hst => ?_, fun hyes hst => ?_⟩
    · rw [exec_of_waiting h ha (by simpa using hst), mouldTestWaiting_of_same (hdiffers.not.mpr hno)]
      rfl
    · rw [exec_of_waiting h ha (.inr hst), mouldTestWaiting_of_differs (hdiffers.mpr hyes),
        giveUpCharge_of_ready ((state_noted p a s.linkActivity).trans hst), discarded_unbound, noted, modUnit_modUnit]
    · obtain ⟨hunit, hpresses, hunits, hleaves, hchanges⟩ :=
        leaves_modUnit (s := noted p a s.linkActivity) hl p (PressUnit.unbound .idle)
      refine ⟨_, ?_, ?_, fun q hq => ?_, hpresses, ?_, ?_⟩
      · rw [exec_of_waiting h ha (.inl hst), mouldTestWaiting_of_differs (hdiffers.mpr hyes),
          giveUpCharge_of_wait ((state_noted p a s.linkActivity).trans hst)]
      · rw [hunit, unit_noted]
        rfl
      · exact (hunits q hq).trans (units_noted hq a s.linkActivity)
      · exact leavesQueue_before (s := s.linkActivity) (noted_changes p a _) (by decide) (boundRecipe_noted p a _)
          hleaves
      · exact ((noted_changes p a s.linkActivity).mono (by decide)).trans hchanges

end Sys2Proof.Proofs.PressReports
end

