-- ==== Sys2Proof/Proofs/MouldMarks.lean ====
section
/-! PROOFS. The mould test of a unit in its cycle (R129), and what the tests after it keep of its marks. -/

namespace Sys2Proof.Proofs.MouldMarks

set_option Elab.async false

open Sys2Proof.Machine Sys2Proof.Machine.State Sys2Proof.Proofs.StepRules Sys2Proof.Proofs.CycleViews
  Sys2Proof.Proofs.CureRules Sys2Proof.Proofs.HeatLaws Sys2Proof.Proofs.Events Sys2Proof.Proofs.OtherPresses
  Sys2Proof.Proofs.PressReports Sys2Proof.Proofs.Releases Sys2Proof.Proofs.Timers Sys2Proof.Proofs.ClosedSlots
  Sys2Proof.Proofs.RecordCloses Sys2Proof.Proofs.Evaluations

variable {s t u x : State} {p q : PressNo} {z : ZoneNo} {i : Fin 512} {a : PressReport} {b : Binding} {tm : Time}
  {r : Recipe} {bytes : List Byte} {f : RxFrame} {ps : List Part}

/-! ## Slots that gain at most notes -/

/-- The record of a slot gains at most notes, and none comes or goes. -/
def SlotNotes (i : Fin 512) (s t : State) : Prop :=
  (t.history.slots[i]).isSome = (s.history.slots[i]).isSome
    ∧ ∀ x, t.history.slots[i] = some x → ∃ r, s.history.slots[i] = some r
      ∧ x = { r with notes := x.notes, notesDropped := x.notesDropped }

theorem slotNotes_of_history (h : t.history = s.history) : SlotNotes i s t :=
  ⟨by rw [h], fun x hx => ⟨x, by rwa [← h], rfl⟩⟩

theorem slotNotes_of_changes (h : OnlyChanges ps s t) (hps : Part.history ∉ ps := by decide) : SlotNotes i s t :=
  slotNotes_of_history (h .history hps).symm

theorem SlotNotes.trans (h : SlotNotes i s t) (g : SlotNotes i t u) : SlotNotes i s u := by
  obtain ⟨hsome, hnotes⟩ := h
  obtain ⟨gsome, gnotes⟩ := g
  refine ⟨gsome.trans hsome, fun x hx => ?_⟩
  obtain ⟨y, hy, hxy⟩ := gnotes x hx
  obtain ⟨r, hr, hyr⟩ := hnotes y hy
  exact ⟨r, hr, by rw [hxy, hyr]⟩

theorem slotNotes_note (n : Note) (q : PressNo) (s : State) : SlotNotes i s (s.modRecord q (addNote n)) := by
  refine ⟨by rw [slots_modRecord]; split <;> simp, fun x hx => ?_⟩
  rw [slots_modRecord] at hx
  split at hx
  · obtain ⟨r, hr, rfl⟩ := Option.map_eq_some_iff.mp hx
    exact ⟨r, hr, addNote_only n r⟩
  · exact ⟨x, hx, rfl⟩

theorem slotNotes_raiseEntry (tm : Time) (k : EventKind) (o : EventOn) (s : State) :
    SlotNotes i s (s.raiseEntry tm k o) := by
  unfold raiseEntry noteEvent
  exact each_rule (Q := SlotNotes i s) (fun q {_} h => h.trans (slotNotes_note _ q _)) _
    (slotNotes_of_history (t := { s with events := _ }) rfl)

theorem slotNotes_raise (tm : Time) (k : EventKind) (o : EventOn) (s : State) : SlotNotes i s (s.raise tm k o) := by
  unfold raise
  split
  · refine (slotNotes_raiseEntry tm k o s).trans ?_
    unfold evalAttention
    repeat' split
    · exact slotNotes_of_history rfl
    · exact slotNotes_of_history rfl
    · unfold sendEvent
      split
      · exact slotNotes_of_history rfl
      · exact (slotNotes_of_history rfl).trans (slotNotes_raiseEntry _ _ _ _)
    · exact slotNotes_of_history rfl
  · exact slotNotes_of_history rfl

/-! ## What an own frame and a change of a queue are made of -/

/-- An own frame is appended, or its loss is counted and raised. -/
theorem originate_rule {Q : State → Prop} (hport : ∀ {x : State} y g, Q x → Q (x.modPort y g))
    (hraise : ∀ {x : State} tm k o, Q x → Q (x.raise tm k o)) {d : Port} {n : Nat} {k : FrameKind} {l : List Byte}
    {m : Mark} (h : Q s) : Q (s.originate d n k l m) := by
  unfold originate
  split
  · split
    · exact hport _ _ h
    · exact hraise _ _ _ (hport _ _ h)
  · exact h

/-- What the scales, the ports and the events keep, a change of a queue keeps. -/
theorem requeue_rule {Q : State → Prop} (hscale : ∀ {x : State} k g, Q x → Q (x.modScale k g))
    (hport : ∀ {x : State} y g, Q x → Q (x.modPort y g)) (hraise : ∀ {x : State} tm k o, Q x → Q (x.raise tm k o))
    (k : ScaleNo) (change : List QueueEntry → List QueueEntry) (h : Q s) : Q (s.requeue k change) := by
  have hevaluate {x : State} (v : Int) (hx : Q x) : Q (x.evaluate k v) :=
    originate_rule hport hraise (doIf_rule (Q := Q) (Q' := Q) (fun hy _ => hraise _ _ _ hy) id (hscale k _ hx))
  have hrequeued : Q (requeued k change s) := hscale k _ h
  rw [requeue_eq]
  split
  · exact hrequeued
  · unfold changeOfHead
    split
    · exact hscale k _ (hevaluate _ hrequeued)
    · exact hscale k _ (hevaluate _ hrequeued)
    · exact hscale k _ (hevaluate _ hrequeued)
    · exact hevaluate _ hrequeued
    · exact hrequeued

theorem slotNotes_joinQueue (p : PressNo) (r : Recipe) (tm : Time) (s : State) :
    SlotNotes i s (s.joinQueue p r tm) :=
  requeue_rule (Q := SlotNotes i s) (fun k g h => h.trans (slotNotes_of_changes (modScale_changes k g _)))
    (fun y g h => h.trans (slotNotes_of_history (modPort_history y g _)))
    (fun tm k o h => h.trans (slotNotes_raise tm k o _)) _ _ (slotNotes_of_history rfl)

theorem raw_joinQueue {j : Fin 25} (h : s.events[j].raw = true) : (s.joinQueue p r tm).events[j].raw = true :=
  requeue_rule (Q := fun x => x.events[j].raw = true) (fun k g h => raw_of_changes (modScale_changes k g _) h)
    (fun y g h => by rw [modPort_events]; exact h) (fun tm k o h => raw_raise h) _ _ h

/-! ## The mould test of a unit in its cycle (R129) -/

/-- The report names another mould than the bound one, for the first time in the cycle. -/
def Changes (s : State) (p : PressNo) (a : PressReport) (b : Binding) : Prop :=
  a.mould ≠ 0 ∧ a.mould ≠ b.mould ∧ (s.unit p).mouldChanged = false

/-- The mould change is marked in the unit, in the events and in the record. -/
def marked (p : PressNo) (a : PressReport) (s : State) : State :=
  (raiseNow .mouldChange (.press p) (s.modUnit p fun u =>
    { u with lastStatus := some a, mouldChanged := true })).modRecord p (·.set .mouldChanged)

theorem tested_iff (hb : (s.unit p).binding = some b) :
    ((noted p a s).mouldDiffers p a.mould && !((noted p a s).unit p).mouldChanged) = true ↔ Changes s p a b := by
  rw [Bool.and_eq_true, mouldDiffers_noted hb, unit_noted, Bool.not_eq_true', Changes, and_assoc]

theorem mouldTestCycle_of_changes (ha : a.arrival = s.timebase) (hb : (s.unit p).binding = some b)
    (h : Changes s p a b) : (noted p a s).mouldTestCycle p a = marked p a s := by
  refine (if_pos ((tested_iff hb).mpr h)).trans ?_
  rw [ha, noted, modUnit_modUnit]
  rfl

theorem mouldTestCycle_of_same (hb : (s.unit p).binding = some b) (h : ¬Changes s p a b) :
    (noted p a s).mouldTestCycle p a = noted p a s := if_neg ((tested_iff hb).not.mpr h)

/-- The state after the mould test. -/
def tested (p : PressNo) (a : PressReport) (s : State) : State := (noted p a s).mouldTestCycle p a

theorem tested_changes (p : PressNo) (a : PressReport) (s : State) :
    OnlyChanges (.units :: raiseParts) s (tested p a s) :=
  ((noted_changes p a s).mono (by decide)).trans (mouldTestCycle_changes p a _)

theorem unit_tested (p : PressNo) (a : PressReport) (s : State) : (tested p a s).unit p =
    { s.unit p with
      lastStatus := some a
      mouldChanged := (s.unit p).mouldChanged || (noted p a s).mouldDiffers p a.mould } := by
  have hbase := unit_noted p a s
  unfold tested mouldTestCycle
  cases hd : (noted p a s).mouldDiffers p a.mould with
  | false =>
    rw [if_neg (by rw [Bool.false_and]; decide), hbase, Bool.or_false]
  | true =>
    rw [Bool.true_and, Bool.or_true]
    cases hm : (s.unit p).mouldChanged with
    | true =>
      rw [if_neg (by rw [hbase, hm]; decide), hbase]
      simp only [hm]
    | false =>
      rw [if_pos (by rw [hbase, hm]; decide), unit_of_changes (setFlag_changes p _ _),
        unit_of_changes (raise_changes _ _ _ _), unit_modUnit, hbase]

theorem keepsOthers_noted (p : PressNo) (a : PressReport) (s : State) : s.KeepsOthers (noted p a s) p :=
  keepsOthers_modUnit p _ s

theorem keepsOthers_tested (p : PressNo) (a : PressReport) (s : State) : s.KeepsOthers (tested p a s) p := by
  have hnoted := keepsOthers_noted p a s
  unfold tested mouldTestCycle
  split
  · exact keepsOthers_trans hnoted (keepsOthers_trans (keepsOthers_modUnit p _ _)
      (keepsOthers_trans (keepsOthers_raise _ _ _ _ p) (keepsOthers_of_changes (setFlag_changes p _ _) p)))
  · exact hnoted

theorem opened_tested (p : PressNo) (a : PressReport) (s : State) :
    opened (tested p a s).history = opened s.history := by
  unfold tested mouldTestCycle
  split
  · exact (opened_modRecord p _ _).trans (opened_raise _ _ _ _)
  · rfl

theorem boundRecipe_tested (hb : (s.unit p).binding = some b) :
    (tested p a s).boundRecipe p = some s.tables.recipes[b.recipe] := by
  rw [boundRecipe, unit_tested, ← tested_changes p a s .tables (by decide)]
  exact congrArg (Option.map _) hb

/-! ## The marks of a mould change -/

/-- The mould change of a press stands in its unit, in the events and in its OPEN record. -/
def Marked (p : PressNo) (x : State) : Prop :=
  (x.unit p).mouldChanged = true ∧ (x.events[EventKind.mouldChange.number]).raw = true
    ∧ Opens p (fun r => r.flags.getLsbD 12 = true) x

theorem marked_marked (hl : s.live = true) (p : PressNo) (a : PressReport) : Marked p (marked p a s) := by
  refine ⟨?_, ?_, opens_setFlag p .mouldChanged _⟩
  · rw [marked, unit_of_changes (modRecord_changes p _ _), raiseNow, unit_of_changes (raise_changes _ _ _ _),
      unit_modUnit]
  · exact raw_of_changes (modRecord_changes p _ _) (raw_raise_self (s := s.modUnit p _) hl _ .mouldChange _)

theorem Marked.of_changes (h : Marked p s) (hc : OnlyChanges ps s t)
    (hps : ∀ y ∈ [Part.units, .events, .history], y ∉ ps := by decide) : Marked p t := by
  obtain ⟨hunit, hraw, hopens⟩ := h
  exact ⟨by rw [unit_of_changes hc p (hps _ (by decide))]; exact hunit, raw_of_changes hc hraw (hps _ (by decide)),
    hopens.of_changes hc (hps _ (by decide))⟩

theorem Marked.modUnit (h : Marked p s) (g : PressUnit → PressUnit) (hg : ∀ u, (g u).mouldChanged = u.mouldChanged) :
    Marked p (s.modUnit p g) := by
  obtain ⟨hunit, hraw, hopens⟩ := h
  exact ⟨by rw [unit_modUnit, hg]; exact hunit, raw_of_changes (modUnit_changes p g s) hraw,
    hopens.of_changes (modUnit_changes p g s)⟩

theorem Marked.raise (h : Marked p s) (tm : Time) (k : EventKind) (o : EventOn) : Marked p (s.raise tm k o) := by
  obtain ⟨hunit, hraw, hopens⟩ := h
  exact ⟨by rw [unit_of_changes (raise_changes _ _ _ _)]; exact hunit, raw_raise hraw,
    hopens.notes (onlyNotes_raise _ _ _ _) fun _ _ _ h => h⟩

theorem Marked.modRecord (h : Marked p s) (g : Record → Record)
    (hg : ∀ r, r.flags.getLsbD 12 = true → (g r).flags.getLsbD 12 = true) : Marked p (s.modRecord p g) := by
  obtain ⟨hunit, hraw, hopens⟩ := h
  exact ⟨by rw [unit_of_changes (modRecord_changes p g s)]; exact hunit, raw_of_changes (modRecord_changes p g s) hraw,
    opens_modRecord (hopens.mono hg)⟩

theorem Marked.setFlag (h : Marked p s) (k : RecordFlag) : Marked p (s.setFlag p k) :=
  h.modRecord _ fun _ hr => flags_set_of hr k

theorem Marked.modPort (h : Marked p s) (y : Port) (g : PortState → PortState) : Marked p (s.modPort y g) := by
  cases y with
  | U => exact h.of_changes (modPortU_changes g s)
  | D => exact h

theorem Marked.modCure (h : Marked p s) (q : PressNo) (g : Cure → Cure) : Marked p (s.modCure q g) :=
  h.of_changes (modCure_changes q g s)

end Sys2Proof.Proofs.MouldMarks
end

