-- ==== Sys2Proof/Proofs/CureBegins.lean ====
section
/-! PROOFS. The pressure frame that begins a cure (R134, R85, R86, R62): in `Begins` nothing has accrued, and zones have
at most been excluded. -/

namespace Sys2Proof.Proofs.CureBegins

set_option Elab.async false

open Sys2Proof.Machine Sys2Proof.Machine.State Sys2Proof.Proofs.StepRules Sys2Proof.Proofs.CycleViews
  Sys2Proof.Proofs.CureRules Sys2Proof.Proofs.HeatLaws Sys2Proof.Proofs.OtherPresses Sys2Proof.Proofs.CureProgress
  Sys2Proof.Proofs.PressReports Sys2Proof.Proofs.MouldMarks Sys2Proof.Proofs.HeatFrames Sys2Proof.Proofs.CloseConditions
  Sys2Proof.Proofs.Reception Sys2Proof.Proofs.Events

variable {s t x : State} {p q : PressNo} {z y : ZoneNo} {tm : Time} {r : Recipe} {n : Nat} {bytes : List Byte}
  {f : RxFrame} {a : PressReport} {b : Binding} {c : ChargeRecord}

/-! ## A cure in which nothing has accrued (R85, R86) -/

/-- A cure has begun with `n` zones, of which some may have been excluded. -/
structure Begins (r : Recipe) (tm : Time) (n : Nat) (p : PressNo) (x : State) : Prop where
  state : (x.unit p).state = .cure
  recipe : x.boundRecipe p = some r
  context : x.cure p = { startContext r tm n with excluded := (x.cure p).excluded, lost := (x.cure p).lost }
  lost : (x.cure p).lost = false ↔ ∃ z, pressOf z = p ∧ (x.accrual z).inclusion = .included
  fresh : ∀ z, pressOf z = p → (x.accrual z).inclusion = .included → (x.accrual z).accumulator = 0

theorem Begins.accruing (h : Begins r tm n p x) : (x.cure p).status = .accruing := by
  rw [h.context]
  rfl

theorem Begins.progress (h : Begins r tm n p x) : (x.cure p).progress = 0 := by
  rw [h.context]
  rfl

/-- With a target, a cure without progress is not permitted. -/
theorem not_permitPasses (hr : x.boundRecipe p = some r) (ht : 1 ≤ r.cureTarget) (h0 : (x.cure p).progress = 0) :
    ¬x.permitPasses p = true := by
  rw [permitPasses_iff]
  rintro ⟨_, _, _, r', hr', hle⟩
  rw [hr, Option.some.injEq] at hr'
  subst hr'
  rw [h0] at hle
  omega

theorem boundRecipe_excluded (z : ZoneNo) (x : State) (p : PressNo) :
    (excluded z x).boundRecipe p = x.boundRecipe p := boundRecipe_of_changes (excluded_changes z x) p

/-- The included zones after an exclusion. -/
theorem included_excluded (h : ((excluded z x).accrual y).inclusion = .included) :
    y ≠ z ∧ (excluded z x).accrual y = x.accrual y := by
  have hy : y ≠ z := fun he => by
    rw [he, accrual_excluded] at h
    cases h
  exact ⟨hy, accrual_excluded_of_ne hy⟩

theorem fresh_excluded (h : Begins r tm n p x) (hp : pressOf y = p)
    (hin : ((excluded z x).accrual y).inclusion = .included) : ((excluded z x).accrual y).accumulator = 0 := by
  obtain ⟨_, heq⟩ := included_excluded hin
  rw [heq] at hin ⊢
  exact h.fresh y hp hin

/-- Where a zone is left, the recomputed progress is still 0. -/
theorem cure_recomputeProgress_excluded (h : Begins r tm n (pressOf z) x)
    (hne : (excluded z x).includedZones (pressOf z) ≠ []) :
    ((excluded z x).recomputeProgress (pressOf z)).cure (pressOf z) = (excluded z x).cure (pressOf z) := by
  have hzero : (((excluded z x).recomputeProgress (pressOf z)).cure (pressOf z)).progress = 0 := by
    obtain ⟨⟨w, hw, hin, hacc⟩, _⟩ := leastProgress_recomputeProgress hne
    rw [accrual_recomputeProgress] at hin hacc
    exact hacc.symm.trans (fresh_excluded h hw hin)
  have hkept : ((excluded z x).cure (pressOf z)).progress = 0 := by
    rw [cure_excluded]
    exact h.progress
  rw [cure_recomputeProgress, hzero, ← hkept]

/-- Excluding a zone loses the cure or leaves it without progress; it grants no permit. -/
theorem excludeZone_of_begins (h : Begins r tm n (pressOf z) x) (ht : 1 ≤ r.cureTarget)
    (hin : (x.accrual z).inclusion = .included) : x.excludeZone z tm =
      if (excluded z x).includedZones (pressOf z) = [] then (excluded z x).loseCure (pressOf z) tm
      else (excluded z x).recomputeProgress (pressOf z) := by
  rw [excludeZone_of_included hin h.accruing]
  split
  · rfl
  · rename_i hne
    refine permitTest_of_not (not_permitPasses (r := r) ?_ ht ?_)
    · rw [boundRecipe_of_changes (recomputeProgress_changes _ _), boundRecipe_excluded]
      exact h.recipe
    · rw [cure_recomputeProgress_excluded h hne, cure_excluded]
      exact h.progress

theorem Begins.exclude (h : Begins r tm n p x) (ht : 1 ≤ r.cureTarget) (hz : pressOf z = p)
    (hin : (x.accrual z).inclusion = .included) : Begins r tm n p (x.excludeZone z tm) := by
  subst hz
  have hlost : (x.cure (pressOf z)).lost = false := h.lost.mpr ⟨z, rfl, hin⟩
  have haccrual := accrual_excludeZone (tm := tm) hin h.accruing
  have hcure := cure_excluded z x
  have hunit := unit_of_changes (excluded_changes z x) (pressOf z)
  have hfresh (y : ZoneNo) (hy : pressOf y = pressOf z)
      (hyin : ((x.excludeZone z tm).accrual y).inclusion = .included) :
      ((x.excludeZone z tm).accrual y).accumulator = 0 := by
    rw [haccrual] at hyin ⊢
    exact fresh_excluded h hy hyin
  have hremain : (∃ y, pressOf y = pressOf z ∧ ((x.excludeZone z tm).accrual y).inclusion = .included)
      ↔ (excluded z x).includedZones (pressOf z) ≠ [] := by
    simp only [haccrual, includedZones_ne_nil_iff]
  by_cases hnil : (excluded z x).includedZones (pressOf z) = []
  · have heq : x.excludeZone z tm = (excluded z x).loseCure (pressOf z) tm :=
      (excludeZone_of_begins h ht hin).trans (if_pos hnil)
    have hc : (x.excludeZone z tm).cure (pressOf z) =
        { (excluded z x).cure (pressOf z) with lost := true } := by
      rw [heq, cure_loseCure, cure_modCure]
    refine ⟨?_, ?_, ?_, ?_, hfresh⟩
    · rw [heq, unit_of_changes (loseCure_changes' _ _ _), hunit]
      exact h.state
    · rw [heq, boundRecipe_of_changes (loseCure_changes' _ _ _), boundRecipe_excluded]
      exact h.recipe
    · rw [hc, hcure, h.context]
    · rw [hc, hremain]
      exact ⟨fun hf => Bool.noConfusion hf, fun hne => absurd hnil hne⟩
  · have heq : x.excludeZone z tm = (excluded z x).recomputeProgress (pressOf z) :=
      (excludeZone_of_begins h ht hin).trans (if_neg hnil)
    have hc : (x.excludeZone z tm).cure (pressOf z) = (excluded z x).cure (pressOf z) := by
      rw [heq, cure_recomputeProgress_excluded h hnil]
    refine ⟨?_, ?_, ?_, ?_, hfresh⟩
    · rw [heq, unit_of_changes (recomputeProgress_changes _ _), hunit]
      exact h.state
    · rw [heq, boundRecipe_of_changes (recomputeProgress_changes _ _), boundRecipe_excluded]
      exact h.recipe
    · rw [hc, hcure, h.context]
    · rw [hc, hremain, hcure]
      exact ⟨fun _ => hnil, fun _ => hlost⟩

/-- The LOST zones are excluded, one after the other. -/
theorem begins_each (ht : 1 ≤ r.cureTarget) {l : List ZoneNo} (hl : l.Nodup)
    (hin : ∀ z ∈ l, pressOf z = p ∧ (x.accrual z).inclusion = .included) (h : Begins r tm n p x) :
    Begins r tm n p (each (fun z => excludeZone z tm) l x)
      ∧ ∀ y, (each (fun z => excludeZone z tm) l x).accrual y =
        if y ∈ l then { x.accrual y with inclusion := .excluded } else x.accrual y := by
  induction l generalizing x with
  | nil => exact ⟨h, fun _ => rfl⟩
  | cons z l ih =>
    obtain ⟨hz, hl⟩ := List.nodup_cons.mp hl
    obtain ⟨hp, hzin⟩ := hin z List.mem_cons_self
    have haccrual := accrual_excludeZone (tm := tm) hzin (hp ▸ h.accruing)
    have hother {y : ZoneNo} (hy : y ≠ z) : (x.excludeZone z tm).accrual y = x.accrual y := by
      rw [haccrual, accrual_excluded_of_ne hy]
    obtain ⟨hbegins, hall⟩ := ih hl (fun y hy => by
      rw [hother fun he => hz (he ▸ hy)]
      exact hin y (List.mem_cons_of_mem _ hy)) (h.exclude ht hp hzin)
    refine ⟨hbegins, fun y => (hall y).trans ?_⟩
    by_cases hy : y = z
    · subst hy
      rw [if_neg hz, if_pos List.mem_cons_self, haccrual, accrual_excluded]
    · rw [hother hy]
      simp [hy]

/-! ## CURE entry (R85, R86) -/

/-- The zones that a cure counts. -/
def counts (s : State) (z : ZoneNo) : Bool := s.enabled z && (s.zoneEntry z).cureReference

/-- The state with the cure context, before LOST zones are excluded. -/
def context (p : PressNo) (r : Recipe) (tm : Time) (s : State) : State :=
  let n := ((includeZones p s).includedZones p).length
  ((includeZones p s).modCure p fun _ => startContext r tm n).modRecord p fun x =>
    { x with included := n, excluded := 0 }

/-- The zones that the cure begins without. -/
def lostZones (p : PressNo) (s : State) : List ZoneNo :=
  ((includeZones p s).includedZones p).filter fun z => ((includeZones p s).zone z).state == .lost

theorem startCure_eq (p : PressNo) (r : Recipe) (tm : Time) (s : State) : s.startCure p r tm =
    if ((includeZones p s).includedZones p).length = 0 then (context p r tm s).loseCure p tm
    else each (fun z => excludeZone z tm) (lostZones p s) (context p r tm s) := rfl

theorem context_changes (p : PressNo) (r : Recipe) (tm : Time) (s : State) :
    OnlyChanges [.accruals, .cures, .history] s (context p r tm s) :=
  ((includeZones_changes p s).mono (by decide)).trans
    (((modCure_changes p _ _).mono (by decide)).trans ((modRecord_changes p _ _).mono (by decide)))

theorem accrual_context (p : PressNo) (r : Recipe) (tm : Time) (s : State) (z : ZoneNo) :
    (context p r tm s).accrual z = (includeZones p s).accrual z := by
  rw [context, accrual_of_changes (modRecord_changes p _ _), accrual_of_changes (modCure_changes p _ _)]

theorem accrual_includeZones_of_counts (hz : pressOf z = p) (hc : counts s z = true) :
    (includeZones p s).accrual z =
      { inclusion := .included, accumulator := 0, residue := 0, prevArrival := none } := by
  rw [accrual_includeZones, if_pos hz]
  exact if_pos hc

theorem accrual_includeZones_of_not (hz : pressOf z = p) (hc : ¬counts s z = true) :
    (includeZones p s).accrual z = { s.accrual z with inclusion := .notInCure } := by
  rw [accrual_includeZones, if_pos hz]
  exact if_neg hc

theorem included_includeZones (hz : pressOf z = p) :
    ((includeZones p s).accrual z).inclusion = .included ↔ counts s z = true := by
  by_cases hc : counts s z = true
  · rw [accrual_includeZones_of_counts hz hc]
    exact ⟨fun _ => hc, fun _ => rfl⟩
  · rw [accrual_includeZones_of_not hz hc]
    exact ⟨fun h => Inclusion.noConfusion h, fun h => absurd h hc⟩

theorem includedZones_includeZones (p : PressNo) (s : State) :
    (includeZones p s).includedZones p = (zonesOf p).filter (counts s) := by
  refine List.filter_congr fun z hz => ?_
  have h := included_includeZones (s := s) (mem_zonesOf.mp hz)
  rw [Bool.eq_iff_iff, beq_iff_eq]
  exact h

theorem begins_context (hst : (s.unit p).state = .cure) (hr : s.boundRecipe p = some r)
    (hne : (includeZones p s).includedZones p ≠ []) :
    Begins r tm ((includeZones p s).includedZones p).length p (context p r tm s) := by
  have hcure : (context p r tm s).cure p = startContext r tm ((includeZones p s).includedZones p).length := by
    rw [context, cure_of_changes (modRecord_changes p _ _), cure_modCure]
  refine ⟨?_, ?_, ?_, ?_, fun z hz hin => ?_⟩
  · rw [unit_of_changes (context_changes p r tm s)]
    exact hst
  · rw [boundRecipe_of_changes (context_changes p r tm s)]
    exact hr
  · rw [hcure]
  · rw [hcure]
    simp only [accrual_context]
    exact ⟨fun _ => includedZones_ne_nil_iff.mp hne, fun _ => rfl⟩
  · rw [accrual_context] at hin ⊢
    rw [accrual_includeZones_of_counts hz ((included_includeZones hz).mp hin)]

/-- The zones that the cure begins without are counted and LOST. -/
theorem mem_lostZones : z ∈ lostZones p s ↔ (pressOf z = p ∧ counts s z = true) ∧ (s.zone z).state = .lost := by
  rw [lostZones, List.mem_filter, includedZones_includeZones, List.mem_filter, mem_zonesOf, beq_iff_eq,
    zone_of_changes (includeZones_changes p s)]

theorem nodup_lostZones (p : PressNo) (s : State) : (lostZones p s).Nodup := by
  rw [lostZones, includedZones_includeZones]
  exact ((zonesOf_nodup p).filter _).filter _

/-- Without a counted zone the cure is lost as it begins. -/
theorem begins_loseCure (hst : (s.unit p).state = .cure) (hr : s.boundRecipe p = some r)
    (hnil : (includeZones p s).includedZones p = []) : Begins r tm 0 p ((context p r tm s).loseCure p tm) := by
  have hcure : ((context p r tm s).loseCure p tm).cure p = { startContext r tm 0 with lost := true } := by
    rw [cure_loseCure, cure_modCure, context, cure_of_changes (modRecord_changes p _ _), cure_modCure, hnil]
    rfl
  have haccrual (z : ZoneNo) : ((context p r tm s).loseCure p tm).accrual z = (includeZones p s).accrual z := by
    rw [accrual_of_changes (loseCure_changes' p tm _), accrual_context]
  have hnone (z : ZoneNo) (hz : pressOf z = p) : ¬((includeZones p s).accrual z).inclusion = .included := fun h =>
    includedZones_ne_nil_iff.mpr ⟨z, hz, h⟩ hnil
  refine ⟨?_, ?_, ?_, ?_, fun z hz hin => ?_⟩
  · rw [unit_of_changes (loseCure_changes' p tm _), unit_of_changes (context_changes p r tm s)]
    exact hst
  · rw [boundRecipe_of_changes (loseCure_changes' p tm _), boundRecipe_of_changes (context_changes p r tm s)]
    exact hr
  · rw [hcure]
  · rw [hcure]
    simp only [haccrual]
    exact ⟨fun h => Bool.noConfusion h, fun ⟨z, hz, h⟩ => absurd h (hnone z hz)⟩
  · rw [haccrual] at hin
    exact absurd hin (hnone z hz)

/-- CURE entry: the cure begins, and the accruals are those of the inclusion, the LOST zones excluded. -/
theorem begins_startCure (hst : (s.unit p).state = .cure) (hr : s.boundRecipe p = some r) (ht : 1 ≤ r.cureTarget) :
    Begins r tm ((zonesOf p).filter (counts s)).length p (s.startCure p r tm)
      ∧ ∀ y, (s.startCure p r tm).accrual y = if y ∈ lostZones p s
        then { (includeZones p s).accrual y with inclusion := .excluded } else (includeZones p s).accrual y := by
  rw [startCure_eq, ← includedZones_includeZones]
  by_cases hnil : (includeZones p s).includedZones p = []
  · have hlost (y : ZoneNo) : y ∉ lostZones p s := fun hy => by
      rw [lostZones, hnil] at hy
      cases hy
    rw [hnil]
    refine ⟨begins_loseCure hst hr hnil, fun y => ?_⟩
    rw [if_pos List.length_nil, if_neg (hlost y), accrual_of_changes (loseCure_changes' p tm _), accrual_context]
  · rw [if_neg fun h => hnil (List.eq_nil_of_length_eq_zero h)]
    obtain ⟨hbegins, haccrual⟩ := begins_each ht (nodup_lostZones p s) (fun z hz => by
      obtain ⟨⟨hp, hc⟩, _⟩ := mem_lostZones.mp hz
      rw [accrual_context]
      exact ⟨hp, (included_includeZones hp).mpr hc⟩) (begins_context (tm := tm) hst hr hnil)
    exact ⟨hbegins, fun y => by rw [haccrual, accrual_context]⟩

theorem accrual_startCure (hst : (s.unit p).state = .cure) (hr : s.boundRecipe p = some r) (ht : 1 ≤ r.cureTarget)
    (hz : pressOf z = p) : (s.startCure p r tm).accrual z = if counts s z = true then
      { inclusion := if (s.zone z).state = .lost then .excluded else .included
        accumulator := 0, residue := 0, prevArrival := none }
      else { s.accrual z with inclusion := .notInCure } := by
  rw [(begins_startCure hst hr ht).2]
  by_cases hc : counts s z = true
  · rw [if_pos hc, accrual_includeZones_of_counts hz hc]
    by_cases hl : (s.zone z).state = .lost
    · rw [if_pos (mem_lostZones.mpr ⟨⟨hz, hc⟩, hl⟩), if_pos hl]
    · rw [if_neg (mem_lostZones.not.mpr fun h => hl h.2), if_neg hl]
  · rw [if_neg hc, if_neg (mem_lostZones.not.mpr fun h => hc h.1.2), accrual_includeZones_of_not hz hc]

/-- A cure that has begun is lost exactly when every counted zone is. -/
theorem lost_startCure (hst : (s.unit p).state = .cure) (hr : s.boundRecipe p = some r) (ht : 1 ≤ r.cureTarget) :
    ((s.startCure p r tm).cure p).lost = false ↔
      ∃ z, (pressOf z = p ∧ counts s z = true) ∧ (s.zone z).state ≠ .lost := by
  rw [(begins_startCure hst hr ht).1.lost]
  refine exists_congr fun z => ?_
  rw [and_assoc]
  refine and_congr_right fun hz => ?_
  rw [accrual_startCure hst hr ht hz]
  by_cases hc : counts s z = true
  · rw [if_pos hc]
    by_cases hl : (s.zone z).state = .lost
    · simp [hl]
    · simp [hl, hc]
  · rw [if_neg hc]
    simp [hc]

/-! ## What CURE entry leaves -/

theorem keepsOthers_startCure (p : PressNo) (r : Recipe) (tm : Time) (s : State) :
    s.KeepsOthers (s.startCure p r tm) p := by
  have hinclude : s.KeepsOthers (includeZones p s) p :=
    each_mem_rule (Q := fun x => s.KeepsOthers x p) _
      (fun z hz {_} h => keepsOthers_trans h (keepsOthers_modAccrual (mem_zonesOf.mp hz) _ _)) (keepsOthers_refl s p)
  have hcontext : s.KeepsOthers (context p r tm s) p := keepsOthers_trans hinclude
    (keepsOthers_trans (keepsOthers_modCure p _ _) (keepsOthers_modRecord p _ _ p))
  rw [startCure_eq]
  split
  · exact keepsOthers_trans hcontext (keepsOthers_trans (keepsOthers_modCure p _ _)
      (keepsOthers_trans (keepsOthers_raise _ _ _ _ p) (keepsOthers_modRecord p _ _ p)))
  · exact each_mem_rule (Q := fun x => s.KeepsOthers x p) _
      (fun z hz {_} h => keepsOthers_trans h (keepsOthers_excludeZone (mem_lostZones.mp hz).1.1 _ _)) hcontext

/-- A record that keeps its pressure fields and its flags. -/
def Grown (r r' : Record) : Prop := r'.pressureTime = r.pressureTime ∧ r'.loadToPressure = r.loadToPressure
  ∧ ∀ n, r.flags.getLsbD n = true → r'.flags.getLsbD n = true

theorem grown_set (r : Record) (k : RecordFlag) : Grown r (r.set k) := ⟨rfl, rfl, fun _ h => flags_set_of h k⟩

/-- The updates of CURE entry that a law of the press's unit, events and OPEN record has to be kept by. -/
structure CureKept (p : PressNo) (Q : State → Prop) : Prop where
  changes {x y : State} : OnlyChanges [.cures, .accruals] x y → Q x → Q y
  unit {x : State} : Q x → Q (x.modUnit p fun u => { u with state := .demouldWait })
  raise {x : State} (tm : Time) (k : EventKind) : Q x → Q (x.raise tm k (.press p))
  record {x : State} (g : Record → Record) : (∀ r, Grown r (g r)) → Q x → Q (x.modRecord p g)

namespace CureKept

variable {Q : State → Prop}

theorem modCure (kept : CureKept p Q) (g : Cure → Cure) (h : Q x) : Q (x.modCure p g) :=
  kept.changes ((modCure_changes p g x).mono (by decide)) h

theorem permitTest (kept : CureKept p Q) (tm : Time) (h : Q x) : Q (x.permitTest p tm) := by
  unfold State.permitTest
  split
  · exact kept.unit (kept.record _ (fun _ => ⟨rfl, rfl, fun _ h => h⟩)
      (kept.modCure _ (kept.raise _ _ (kept.modCure _ h))))
  · exact h

theorem loseCure (kept : CureKept p Q) (tm : Time) (h : Q x) : Q (x.loseCure p tm) :=
  kept.record _ (fun r => grown_set r .cureLost) (kept.raise _ _ (kept.modCure _ h))

theorem excludeZone (kept : CureKept p Q) (hz : pressOf z = p) (tm : Time) (h : Q x) : Q (x.excludeZone z tm) := by
  subst hz
  have hexcluded : Q (excluded z x) := kept.record _ (fun r => grown_set r .cureDegraded)
    (kept.modCure _ (kept.changes ((modAccrual_changes z _ x).mono (by decide)) h))
  by_cases hin : (x.accrual z).inclusion = .included ∧ (x.cure (pressOf z)).status = .accruing
  · obtain ⟨hin, hacc⟩ := hin
    rw [excludeZone_of_included hin hacc]
    split
    · exact kept.loseCure tm hexcluded
    · exact kept.permitTest tm (kept.changes ((recomputeProgress_changes _ _).mono (by decide)) hexcluded)
  · rw [excludeZone_of_not hin]
    exact h

theorem startCure (kept : CureKept p Q) (r : Recipe) (tm : Time) (h : Q x) : Q (x.startCure p r tm) := by
  have hcontext : Q (context p r tm x) := kept.record _ (fun _ => ⟨rfl, rfl, fun _ h => h⟩)
    (kept.modCure _ (kept.changes ((includeZones_changes p x).mono (by decide)) h))
  rw [startCure_eq]
  split
  · exact kept.loseCure tm hcontext
  · exact each_mem_rule (Q := Q) _ (fun z hz {_} h => kept.excludeZone (mem_lostZones.mp hz).1.1 tm h) hcontext

end CureKept

theorem marked_kept (p : PressNo) : CureKept p (Marked p) where
  changes hc h := h.of_changes hc
  unit h := h.modUnit _ fun _ => rfl
  raise tm k h := h.raise tm k _
  record g hg h := h.modRecord g fun r hr => (hg r).2.2 12 hr

/-! ## The record of the pressure (R134) -/

/-- The record of a cycle whose pressure came at `tm`, `load` after its charge. -/
def Pressed (tm : Time) (load : Nat) (late : Prop) (r : Record) : Prop :=
  r.pressureTime = some tm ∧ r.loadToPressure = some load ∧ (late → r.flags.getLsbD 8 = true)

/-- The press has an OPEN record, and it says when the pressure came. -/
def Recorded (p : PressNo) (P : Record → Prop) (x : State) : Prop :=
  (x.openRecord p).isSome = true ∧ Opens p P x

variable {load : Nat} {late : Prop}

theorem isSome_openRecord_of_opened (h : opened t.history = opened s.history) (p : PressNo) :
    (t.openRecord p).isSome = (s.openRecord p).isSome := by
  rw [openRecord_isSome, openRecord_isSome, h]

theorem recorded_kept (p : PressNo) (tm : Time) (load : Nat) (late : Prop) :
    CureKept p (Recorded p (Pressed tm load late)) where
  changes hc h := ⟨by rw [openRecord_of_history (hc .history (by decide)).symm]; exact h.1, h.2.of_changes hc⟩
  unit h := ⟨h.1, h.2⟩
  raise tm k h := ⟨(isSome_openRecord_of_opened (opened_raise _ _ _ _) p).trans h.1,
    h.2.notes (onlyNotes_raise _ _ _ _) fun _ _ _ h => h⟩
  record g hg h := ⟨(isSome_openRecord_of_opened (opened_modRecord p g _) p).trans h.1,
    opens_modRecord (h.2.mono fun r ⟨htime, hload, hlate⟩ => by
      obtain ⟨gtime, gload, gflags⟩ := hg r
      exact ⟨gtime.trans htime, gload.trans hload, fun h => gflags 8 (hlate h)⟩)⟩

theorem pressed_pressureRecord (r : Recipe) (c : ChargeRecord) (tm : Time) (x : Record) :
    Pressed tm (since tm c.release) (r.loadLimit * 1000 < since tm c.release) (pressureRecord r (some c) tm x) := by
  rw [pressureRecord]
  split
  · exact ⟨rfl, rfl, fun _ => flags_set _ .latePressure⟩
  · rename_i hno
    exact ⟨rfl, rfl, fun h => absurd h hno⟩

/-! ## The cure of a press in CLOSING -/

/-- The unit is in CURE, and the record has its pressure. -/
def entered (p : PressNo) (r : Recipe) (tm : Time) (s : State) : State :=
  (s.modUnit p fun u => { u with state := .cure }).modRecord p (pressureRecord r (s.unit p).charge tm)

theorem enterCure_eq (p : PressNo) (r : Recipe) (tm : Time) (s : State) : s.enterCure p r tm =
    each (fun z x => x.modZone z freshDeviation) (zonesOf p) ((entered p r tm s).startCure p r tm) := rfl

theorem entered_changes (p : PressNo) (r : Recipe) (tm : Time) (s : State) :
    OnlyChanges [.units, .history] s (entered p r tm s) :=
  ((modUnit_changes p _ s).mono (by decide)).trans ((modRecord_changes p _ _).mono (by decide))

theorem deviations_changes (l : List ZoneNo) (s : State) :
    OnlyChanges [.zones] s (each (fun z x => x.modZone z freshDeviation) l s) :=
  each_rule (Q := OnlyChanges [.zones] s) (fun z {_} h => h.trans (modZone_changes z _ _)) l (.refl s)

theorem zone_enterCure (p : PressNo) (r : Recipe) (tm : Time) (s : State) (z : ZoneNo) :
    (s.enterCure p r tm).zone z = if pressOf z = p then freshDeviation (s.zone z) else s.zone z := by
  rw [enterCure_eq, zone_each_modZone _ (zonesOf_nodup p), zone_of_changes (startCure_changes p r tm _),
    zone_of_changes (entered_changes p r tm s)]
  exact if_congr mem_zonesOf rfl rfl

theorem unit_entered (p : PressNo) (r : Recipe) (tm : Time) (s : State) :
    (entered p r tm s).unit p = { s.unit p with state := .cure } := by
  rw [entered, unit_of_changes (modRecord_changes p _ _), unit_modUnit]

theorem boundRecipe_entered (p : PressNo) (r : Recipe) (tm : Time) (s : State) :
    (entered p r tm s).boundRecipe p = s.boundRecipe p := by
  rw [boundRecipe, unit_entered, ← entered_changes p r tm s .tables (by decide)]
  rfl

theorem counts_of_changes {ps : List Part} (h : OnlyChanges ps s t) (hz : Part.zones ∉ ps := by decide)
    (ht : Part.tables ∉ ps := by decide) (z : ZoneNo) : counts t z = counts s z := by
  rw [counts, counts, enabled, enabled, zone_of_changes h z hz, zoneEntry, zoneEntry, h .tables ht]

theorem keepsOthers_enterCure (p : PressNo) (r : Recipe) (tm : Time) (s : State) :
    s.KeepsOthers (s.enterCure p r tm) p := by
  rw [enterCure_eq]
  refine each_mem_rule (Q := fun x => s.KeepsOthers x p) _
    (fun z hz {_} h => keepsOthers_trans h (keepsOthers_modZone (mem_zonesOf.mp hz) _ _)) ?_
  exact keepsOthers_trans (keepsOthers_modUnit p _ s)
    (keepsOthers_trans (keepsOthers_modRecord p _ _ p) (keepsOthers_startCure p r tm _))

/-- What a cure that begins is like. -/
theorem begun_enterCure (hr : s.boundRecipe p = some r) (ht : 1 ≤ r.cureTarget) :
    let t := s.enterCure p r tm
    (t.unit p).state = .cure ∧ t.cure p = { startContext r tm ((zonesOf p).filter (counts s)).length with
        excluded := (t.cure p).excluded, lost := (t.cure p).lost }
      ∧ ((t.cure p).lost = false ↔ ∃ z, (pressOf z = p ∧ counts s z = true) ∧ (s.zone z).state ≠ .lost)
      ∧ ∀ z, pressOf z = p → t.accrual z = if counts s z = true then
          { inclusion := if (s.zone z).state = .lost then .excluded else .included
            accumulator := 0, residue := 0, prevArrival := none }
        else { s.accrual z with inclusion := .notInCure } := by
  intro t
  have hentered := entered_changes p r tm s
  have hst : ((entered p r tm s).unit p).state = .cure := by rw [unit_entered]
  have hr' : (entered p r tm s).boundRecipe p = some r := (boundRecipe_entered p r tm s).trans hr
  have hcounts : counts (entered p r tm s) = counts s := funext (counts_of_changes hentered)
  have ht' : t = each (fun z x => x.modZone z freshDeviation) (zonesOf p) ((entered p r tm s).startCure p r tm) :=
    enterCure_eq p r tm s
  have hlast : OnlyChanges [.zones] ((entered p r tm s).startCure p r tm) t := ht' ▸ deviations_changes _ _
  have hbegins := (begins_startCure (tm := tm) hst hr' ht).1
  have hlost := lost_startCure (tm := tm) hst hr' ht
  rw [hcounts] at hbegins
  simp only [hcounts, zone_of_changes hentered] at hlost
  rw [unit_of_changes hlast, cure_of_changes hlast]
  refine ⟨hbegins.state, hbegins.context, hlost, fun z hz => ?_⟩
  rw [accrual_of_changes hlast, accrual_startCure hst hr' ht hz, hcounts, zone_of_changes hentered,
    accrual_of_changes hentered]

theorem recorded_enterCure (hc : (s.unit p).charge = some c) (hopen : (s.openRecord p).isSome = true) :
    Recorded p (Pressed tm (since tm c.release) (r.loadLimit * 1000 < since tm c.release)) (s.enterCure p r tm) := by
  have hentered : Recorded p (Pressed tm (since tm c.release) (r.loadLimit * 1000 < since tm c.release))
      (entered p r tm s) := by
    refine ⟨(isSome_openRecord_of_opened (opened_modRecord p _ _) p).trans hopen, ?_⟩
    rw [entered, hc]
    exact opens_modRecord fun x _ => pressed_pressureRecord r c tm x
  have hstarted := (recorded_kept p tm _ _).startCure r tm hentered
  rw [enterCure_eq]
  exact ⟨(congrArg Option.isSome (openRecord_of_history
    (deviations_changes _ _ .history (by decide)).symm p)).trans hstarted.1,
    hstarted.2.of_changes (deviations_changes _ _)⟩

theorem marked_enterCure (h : Marked p s) (r : Recipe) (tm : Time) : Marked p (s.enterCure p r tm) := by
  have hunit : Marked p (s.modUnit p fun u => { u with state := .cure }) := h.modUnit _ fun _ => rfl
  have hentered : Marked p (entered p r tm s) := by
    refine hunit.modRecord (pressureRecord r (s.unit p).charge tm) fun x hx => ?_
    unfold pressureRecord
    dsimp only
    repeat' split
    · exact flags_set_of hx _
    · exact hx
    · exact hx
  rw [enterCure_eq]
  exact ((marked_kept p).startCure r tm hentered).of_changes (deviations_changes _ _)

/-! ## The pressure test (R134, R136) -/

/-- The frame brings the pressure that begins the cure. -/
def Presses (a : PressReport) (r : Recipe) (u : PressUnit) : Prop :=
  a.position = .closedPressure ∧ r.minTonnage ≤ a.tonnage ∧ u.closeTimedOut = false

theorem closingTest_of_presses (hr : s.boundRecipe p = some r) (h : Presses a r (s.unit p)) :
    s.closingTest p a = s.enterCure p r a.arrival := by
  rw [closingTest, hr]
  exact if_pos h

theorem closingTest_of_not (hr : s.boundRecipe p = some r) (h : ¬Presses a r (s.unit p)) :
    s.closingTest p a = s := by
  rw [closingTest, hr]
  exact if_neg h

theorem cureTest_of_bound (hr : s.boundRecipe p = some r) : s.cureTest p a =
    if a.tonnage < r.minTonnage then s.setFlag p .pressureLoss else s := by
  rw [cureTest, hr, Option.any_some]
  exact if_congr decide_eq_true_iff rfl rfl

theorem exec_of_closing (h : s.FromNode bytes f .press p.val .status)
    (ha : pressReportOf f.payload s.timebase = some a) (hst : (s.unit p).state = .closing) :
    exec (.pressStatus bytes) s = .next (s.up f bytes ((tested p a s.linkActivity).closingTest p a)) := by
  rw [exec_pressStatus h ha, hst]
  rfl

theorem presses_tested : Presses a r ((tested p a s).unit p) ↔ Presses a r (s.unit p) := by
  rw [unit_tested]
  exact Iff.rfl

theorem enterCure_changes' (p : PressNo) (r : Recipe) (tm : Time) (s : State) :
    OnlyChanges (.zones :: cureParts) s (s.enterCure p r tm) := enterCure_changes p r tm s

/-- The zones that a statement counts are those of the inclusion. -/
theorem counts_iff : counts s z = true ↔ s.enabled z = true ∧ (s.zoneEntry z).cureReference = true :=
  Bool.and_eq_true_iff

end Sys2Proof.Proofs.CureBegins
end

