-- ==== Sys2Proof/Proofs/PressureFrames.lean ====
section
/-! PROOFS. The opening and the end of a cycle (R139, R155), and the frames of a unit in its cycle (R129, R134, R136). -/

namespace Sys2Proof.Proofs.PressureFrames

set_option Elab.async false

open Sys2Proof.Machine Sys2Proof.Machine.State Sys2Proof.Proofs.StepRules Sys2Proof.Proofs.CycleViews
  Sys2Proof.Proofs.CureRules Sys2Proof.Proofs.HeatLaws Sys2Proof.Proofs.OtherPresses Sys2Proof.Proofs.Timers
  Sys2Proof.Proofs.PressReports Sys2Proof.Proofs.MouldMarks Sys2Proof.Proofs.CureBegins Sys2Proof.Proofs.Events
  Sys2Proof.Proofs.CloseConditions Sys2Proof.Proofs.Ejections Sys2Proof.Proofs.ClosedSlots
  Sys2Proof.Proofs.RecordCloses Sys2Proof.Proofs.Reception

variable {s t x : State} {p q : PressNo} {z : ZoneNo} {tm : Time} {r : Recipe} {i : Fin 512} {bytes : List Byte}
  {f : RxFrame} {a : PressReport} {b : Binding} {cause : CloseCause} {y : Record} {c : ChargeRecord}

/-! ## The opening (R139) -/

theorem openingTest_of_partial (h : a.position ≠ .openFull) : s.openingTest p a = s := if_neg h

theorem openingTest_of_aborted (h : a.position = .openFull) (ha : (s.unit p).aborted = true) :
    s.openingTest p a = s.modUnit p fun u => { u with state := .unload } := by
  rw [openingTest, if_pos h, if_pos ha]

theorem openingTest_of_full (h : a.position = .openFull) (ha : (s.unit p).aborted = false)
    (hr : s.boundRecipe p = some r) : s.openingTest p a =
      (s.modUnit p fun u => { u with state := .eject }).beginEjection p r a.arrival := by
  rw [openingTest, if_pos h, if_neg (Bool.eq_false_iff.mp ha), hr]

theorem marked_ejectOn (h : Marked p s) (q : PressNo) : Marked p (s.ejectOn q) := by
  unfold ejectOn
  split
  · exact originate_rule (Q := Marked p) (fun y g h => h.modPort y g) (fun tm k o h => h.raise tm k o) h
  · exact h

theorem Marked.modEjector (h : Marked p s) (q : PressNo) (g : Ejector → Ejector) : Marked p (s.modEjector q g) :=
  h.of_changes (modEjector_changes q g s)

theorem marked_beginEjection (h : Marked p s) (r : Recipe) (tm : Time) : Marked p (s.beginEjection p r tm) := by
  refine doIf_rule (Q := Marked p) (Q' := Marked p) (fun h _ => ?_) id (Marked.modEjector h p _)
  unfold reachA
  split
  · exact (Marked.modEjector h p _).setFlag _
  · exact Marked.modEjector (marked_ejectOn h p) p _

theorem marked_openingTest (h : Marked p s) (a : PressReport) : Marked p (s.openingTest p a) := by
  have hunit (st : UnitState) : Marked p (s.modUnit p fun u => { u with state := st }) := h.modUnit _ fun _ => rfl
  unfold openingTest
  repeat' split
  · exact hunit .unload
  · exact marked_beginEjection (hunit .eject) _ _
  · exact h
  · exact h

theorem keepsOthers_originate {d : Port} {n : Nat} {k : FrameKind} {l : List Byte} {m : Mark} (p : PressNo) :
    s.KeepsOthers (s.originate d n k l m) p :=
  keepsOthers_of_changes (originate_changes d n k l m s) p

theorem keepsOthers_beginEjection (p : PressNo) (r : Recipe) (tm : Time) (s : State) :
    s.KeepsOthers (s.beginEjection p r tm) p := by
  refine doIf_rule (Q := fun x => s.KeepsOthers x p) (Q' := fun x => s.KeepsOthers x p) (fun h _ => ?_) id
    (keepsOthers_modEjector p _ s)
  refine keepsOthers_trans h ?_
  unfold reachA ejectOn
  repeat' split
  · exact keepsOthers_trans (keepsOthers_modEjector p _ _) (keepsOthers_of_changes (setFlag_changes p _ _) p)
  · exact keepsOthers_trans (keepsOthers_originate p) (keepsOthers_modEjector p _ _)
  · exact keepsOthers_modEjector p _ _

theorem keepsOthers_openingTest (p : PressNo) (a : PressReport) (s : State) :
    s.KeepsOthers (s.openingTest p a) p := by
  unfold openingTest
  repeat' split
  · exact keepsOthers_modUnit p _ s
  · exact keepsOthers_trans (keepsOthers_modUnit p _ s) (keepsOthers_beginEjection p _ _ _)
  · exact keepsOthers_refl s p
  · exact keepsOthers_refl s p

/-! ## The end of the cycle (R155) -/

/-- The cause with which the record of a cycle closes. -/
def endCause (u : PressUnit) : CloseCause := if u.aborted then .endAborted else .endOfCycle

/-- A record that closes with its cycle. -/
theorem closedRecord_endCause (u : PressUnit) (tm : Time) (y : Record) : closedRecord (endCause u) tm y =
    { y with state := .closed, outcome := (closedRecord (endCause u) tm y).outcome, unloadTime := some tm } := by
  unfold endCause
  split
  · exact closedRecord_eq .endAborted tm y
  · exact closedRecord_eq .endOfCycle tm y

/-- The record has closed, and the unit's cycle context is cleared. -/
def cleared (p : PressNo) (tm : Time) (s : State) : State :=
  (s.closeRecord p (endCause (s.unit p)) tm).modUnit p fun u =>
    { u with charge := none, closingEntry := none, closeTimedOut := false, aborted := false }

theorem endCycle_eq (p : PressNo) (tm : Time) (s : State) : s.endCycle p tm = (cleared p tm s).afterCycle p tm := rfl

theorem unloadTest_of_blocked (h : a.cavityClear = false) : s.unloadTest p a = s := if_neg (Bool.eq_false_iff.mp h)

theorem unloadTest_of_clear (h : a.cavityClear = true) : s.unloadTest p a = s.endCycle p a.arrival := if_pos h

theorem afterCycle_of_halted (h : (s.unit p).haltPending = true) : s.afterCycle p tm =
    s.modUnit p fun u => { u.unbound .disabled with haltPending := false, mouldChanged := false } := if_pos h

theorem afterCycle_of_changed (h : (s.unit p).haltPending = false) (hm : (s.unit p).mouldChanged = true) :
    s.afterCycle p tm = s.modUnit p fun u => { u.unbound .idle with mouldChanged := false, bindFault := .none } :=
  (if_neg (Bool.eq_false_iff.mp h)).trans (if_pos hm)

theorem afterCycle_of_again (h : (s.unit p).haltPending = false) (hm : (s.unit p).mouldChanged = false)
    (hr : s.boundRecipe p = some r) :
    s.afterCycle p tm = (s.modUnit p fun u => { u with state := .chargeWait }).joinQueue p r tm := by
  rw [afterCycle, if_neg (Bool.eq_false_iff.mp h), if_neg (Bool.eq_false_iff.mp hm), hr]

/-- The unit goes on, and the ring gains at most notes. -/
theorem slotNotes_afterCycle (p : PressNo) (tm : Time) (s : State) : SlotNotes i s (s.afterCycle p tm) := by
  unfold afterCycle
  repeat' split
  · exact slotNotes_of_history rfl
  · exact slotNotes_of_history rfl
  · exact (slotNotes_of_history rfl).trans (slotNotes_joinQueue p _ tm _)
  · exact slotNotes_of_history rfl

theorem raw_afterCycle {j : Fin 25} (h : s.events[j].raw = true) : (s.afterCycle p tm).events[j].raw = true := by
  unfold afterCycle
  repeat' split
  · exact h
  · exact h
  · exact raw_joinQueue (s := s.modUnit p _) h
  · exact h

theorem raw_endCycle {j : Fin 25} (h : s.events[j].raw = true) : (s.endCycle p tm).events[j].raw = true := by
  rw [endCycle_eq]
  exact raw_afterCycle (raw_of_changes (modUnit_changes p _ _) (raw_closeRecord h))

/-- The slot of the record that a cycle's end closes. -/
theorem slot_endCycle (hi : s.history.openRecord[p] = some i) (hr : s.history.slots[i] = some y) :
    ∃ e l n, (s.endCycle p tm).history.slots[i] = some
      { closedRecord (endCause (s.unit p)) tm y with exported := e, notes := l, notesDropped := n } := by
  obtain ⟨_, e, hslot⟩ := slot_closeRecord (cause := endCause (s.unit p)) (tm := tm) hi hr
  obtain ⟨hsome, hnotes⟩ := slotNotes_afterCycle (i := i) p tm (cleared p tm s)
  have hcleared : (cleared p tm s).history.slots[i] =
      some { closedRecord (endCause (s.unit p)) tm y with exported := e } := hslot
  rw [hcleared] at hsome
  obtain ⟨x, hx⟩ := Option.isSome_iff_exists.mp hsome
  obtain ⟨w, hw, hxw⟩ := hnotes x hx
  rw [hcleared, Option.some.injEq] at hw
  subst hw
  exact ⟨e, x.notes, x.notesDropped, hx.trans (congrArg some hxw)⟩

/-- A record that is not in the ring is not there after the cycle's end. -/
theorem slot_endCycle_of_none (hi : s.history.openRecord[p] = some i) (hr : s.history.slots[i] = none) :
    (s.endCycle p tm).history.slots[i] = none := by
  have hopen : s.openRecord p = none := by rw [State.openRecord, hi, Option.bind_some, hr]
  have hclose : s.closeRecord p (endCause (s.unit p)) tm = s := by rw [closeRecord, hopen]
  obtain ⟨hsome, _⟩ := slotNotes_afterCycle (i := i) p tm (cleared p tm s)
  have hcleared : (cleared p tm s).history.slots[i] = none := by
    rw [cleared, hclose]
    exact hr
  rw [hcleared] at hsome
  exact Option.not_isSome_iff_eq_none.mp (Bool.eq_false_iff.mp hsome)

/-! ## The frames of a unit in its cycle -/

theorem exec_of_opening (h : s.FromNode bytes f .press p.val .status)
    (ha : pressReportOf f.payload s.timebase = some a) (hst : (s.unit p).state = .opening) :
    exec (.pressStatus bytes) s = .next (s.up f bytes ((tested p a s.linkActivity).openingTest p a)) := by
  rw [exec_pressStatus h ha, hst]
  rfl

theorem exec_of_unload (h : s.FromNode bytes f .press p.val .status)
    (ha : pressReportOf f.payload s.timebase = some a) (hst : (s.unit p).state = .unload) :
    exec (.pressStatus bytes) s = .next (s.up f bytes ((tested p a s.linkActivity).unloadTest p a)) := by
  rw [exec_pressStatus h ha, hst]
  rfl

theorem exec_of_cure (h : s.FromNode bytes f .press p.val .status)
    (ha : pressReportOf f.payload s.timebase = some a) (hst : (s.unit p).state = .cure) :
    exec (.pressStatus bytes) s = .next (s.up f bytes ((tested p a s.linkActivity).cureTest p a)) := by
  rw [exec_pressStatus h ha, hst]
  rfl

theorem exec_of_demould (h : s.FromNode bytes f .press p.val .status)
    (ha : pressReportOf f.payload s.timebase = some a)
    (hst : (s.unit p).state = .demouldWait ∨ (s.unit p).state = .eject) :
    exec (.pressStatus bytes) s = .next (s.up f bytes (tested p a s.linkActivity)) := by
  rw [exec_pressStatus h ha]
  rcases hst with hst | hst
  · rw [hst]
    rfl
  · rw [hst]
    rfl

/-- A mould change that is seen in UNLOAD stands in the events, and in the record that closes. -/
theorem marked_unload (hl : s.live = true) (p : PressNo) (a : PressReport) :
    let t := (marked p a s).unloadTest p a
    t.events[EventKind.mouldChange.number].raw = true
      ∧ ∀ i x, s.history.openRecord[p] = some i → t.history.slots[i] = some x → x.flags.getLsbD 12 = true := by
  intro t
  obtain ⟨_, hraw, _⟩ := marked_marked hl p a
  refine ⟨?_, fun i x hi hx => ?_⟩
  · unfold t unloadTest
    split
    · exact raw_endCycle hraw
    · exact hraw
  · have hraised := opened_raise s.timebase .mouldChange (.press p)
      (s.modUnit p fun u => { u with lastStatus := some a, mouldChanged := true })
    have hi' : (raiseNow .mouldChange (.press p)
        (s.modUnit p fun u => { u with lastStatus := some a, mouldChanged := true })).history.openRecord[p] = some i :=
      (congrArg (fun v : Vector (Option (Fin 512)) 4 × (Fin 512 → Bool) => v.1[p]) hraised).trans hi
    have hopen : (marked p a s).history.openRecord[p] = some i := by
      rw [marked, modRecord_history_openRecord]
      exact hi'
    have hslot (w : Record) (hw : (marked p a s).history.slots[i] = some w) : w.flags.getLsbD 12 = true := by
      rw [marked, slots_modRecord, if_pos hi'] at hw
      obtain ⟨v, _, rfl⟩ := Option.map_eq_some_iff.mp hw
      exact flags_set v .mouldChanged
    by_cases hc : a.cavityClear = true
    · have ht : t = (marked p a s).endCycle p a.arrival := unloadTest_of_clear hc
      rw [ht] at hx
      cases hw : (marked p a s).history.slots[i] with
      | none =>
        rw [slot_endCycle_of_none hopen hw] at hx
        cases hx
      | some w =>
        obtain ⟨e, l, n, hend⟩ := slot_endCycle (tm := a.arrival) hopen hw
        rw [hend, Option.some.injEq] at hx
        subst hx
        rw [closedRecord_endCause]
        exact hslot w hw
    · have ht : t = marked p a s := unloadTest_of_blocked (Bool.eq_false_of_not_eq_true hc)
      exact hslot x (ht ▸ hx)

/-! ## The pressure frame (R134) -/

/-- The cure that a pressure frame begins. -/
theorem begun_tested (hb : (s.unit p).binding = some b) (hc : (s.unit p).charge = some c)
    (hopen : (s.openRecord p).isSome = true) (ht : 1 ≤ (s.tables.recipes[b.recipe]).cureTarget) (tm : Time) :
    let r := s.tables.recipes[b.recipe]
    let counted (z : ZoneNo) := pressOf z = p ∧ s.enabled z = true ∧ (s.zoneEntry z).cureReference = true
    let t := (tested p a s).enterCure p r tm
    (t.unit p).state = .cure
      ∧ (t.cure p).status = .accruing ∧ (t.cure p).entryTime = some tm
      ∧ (t.cure p).dwellMet = decide (r.minDwell = 0) ∧ (t.cure p).progress = 0
      ∧ (t.cure p).endTime = none ∧ (t.cure p).upperMin = none ∧ (t.cure p).upperMax = none
      ∧ (t.cure p).lowerMin = none ∧ (t.cure p).lowerMax = none
      ∧ (t.cure p).included = ((zonesOf p).filter fun z => decide (counted z)).length
      ∧ ((t.cure p).lost = false ↔ ∃ z, counted z ∧ (s.zone z).state ≠ .lost)
      ∧ (∀ z, counted z → t.accrual z =
          { inclusion := if (s.zone z).state = .lost then .excluded else .included
            accumulator := 0, residue := 0, prevArrival := none })
      ∧ (∀ z, pressOf z = p → ¬counted z → t.accrual z = { s.accrual z with inclusion := .notInCure })
      ∧ (∀ z, t.zone z = if pressOf z = p then
          { s.zone z with deviationCount := 0, deviationNoted := false } else s.zone z)
      ∧ (∃ rec', t.openRecord p = some rec' ∧ rec'.pressureTime = some tm
        ∧ rec'.loadToPressure = some (since tm c.release)
        ∧ (r.loadLimit * 1000 < since tm c.release → rec'.flags.getLsbD 8 = true))
      ∧ s.KeepsOthers t p ∧ OnlyChanges (.zones :: cureParts) s t := by
  intro r counted t
  have htested := tested_changes p a s
  have hcounts : counts (tested p a s) = counts s := funext (counts_of_changes htested)
  have hcounted (z : ZoneNo) : pressOf z = p ∧ counts s z = true ↔ counted z := and_congr_right fun _ => counts_iff
  have hcharge : ((tested p a s).unit p).charge = some c := by
    rw [unit_tested]
    exact hc
  have hopen' : ((tested p a s).openRecord p).isSome = true :=
    (isSome_openRecord_of_opened (opened_tested p a s) p).trans hopen
  obtain ⟨hstate, hcontext, hlost, haccrual⟩ := begun_enterCure (tm := tm) (boundRecipe_tested (a := a) hb) ht
  obtain ⟨hsome, hopens⟩ := recorded_enterCure (tm := tm) (r := r) hcharge hopen'
  obtain ⟨x, hx⟩ := Option.isSome_iff_exists.mp hsome
  rw [hcounts] at hcontext
  simp only [hcounts, zone_of_changes htested, hcounted] at hlost
  simp only [hcounts, zone_of_changes htested, accrual_of_changes htested] at haccrual
  have hincluded : ((zonesOf p).filter (counts s)).length = ((zonesOf p).filter fun z => decide (counted z)).length :=
    congrArg List.length (List.filter_congr fun z hz => by
      rw [Bool.eq_iff_iff, decide_eq_true_iff, ← hcounted]
      exact ⟨fun h => ⟨mem_zonesOf.mp hz, h⟩, fun h => h.2⟩)
  have hcure : t.cure p = { startContext r tm ((zonesOf p).filter fun z => decide (counted z)).length with
      excluded := (t.cure p).excluded, lost := (t.cure p).lost } := hincluded ▸ hcontext
  refine ⟨hstate, ?_, ?_, ?_, ?_, ?_, ?_, ?_, ?_, ?_, ?_, hlost, fun z hz => ?_, fun z hp hz => ?_, fun z => ?_,
    ⟨x, hx, hopens x hx⟩, keepsOthers_trans (keepsOthers_tested p a s) (keepsOthers_enterCure p r tm _),
    (htested.mono (by decide)).trans (enterCure_changes p r tm _)⟩
  · rw [hcure]
    rfl
  · rw [hcure]
    rfl
  · rw [hcure]
    rfl
  · rw [hcure]
    rfl
  · rw [hcure]
    rfl
  · rw [hcure]
    rfl
  · rw [hcure]
    rfl
  · rw [hcure]
    rfl
  · rw [hcure]
    rfl
  · rw [hcure]
    rfl
  · obtain ⟨hp, hc⟩ := (hcounted z).mpr hz
    exact (haccrual z hp).trans (if_pos hc)
  · exact (haccrual z hp).trans (if_neg fun hc => hz ((hcounted z).mp ⟨hp, hc⟩))
  · rw [zone_enterCure, zone_of_changes htested]
    rfl

theorem marked_closingTest (h : Marked p s) (a : PressReport) : Marked p (s.closingTest p a) := by
  unfold closingTest
  repeat' split
  · exact marked_enterCure h _ _
  · exact h
  · exact h

theorem keepsOthers_closingTest (p : PressNo) (a : PressReport) (s : State) :
    s.KeepsOthers (s.closingTest p a) p := by
  unfold closingTest
  repeat' split
  · exact keepsOthers_enterCure p _ _ s
  · exact keepsOthers_refl s p
  · exact keepsOthers_refl s p

theorem state_tested (p : PressNo) (a : PressReport) (s : State) :
    ((tested p a s).unit p).state = (s.unit p).state := by rw [unit_tested]

/-- Settles O46: the frame in CLOSING by the pressure test; the others by the mould test and the state's own test. -/
theorem pressureBeginsCure : Obligations.PressureBeginsCure := by
  refine ⟨?_, ?_⟩
  · intro s bytes f p a b c rec h ha hst hb hc hrec r pressed counted load
    have hexec := exec_of_closing h ha hst
    have hr : (tested p a s.linkActivity).boundRecipe p = some r := boundRecipe_tested hb
    have hpressed : Presses a r ((tested p a s.linkActivity).unit p) ↔ pressed := presses_tested
    refine ⟨fun hno => ⟨_, hexec, ?_⟩, fun hyes ht => ⟨_, hexec, ?_⟩⟩
    · rw [closingTest_of_not hr (hpressed.not.mpr hno)]
      exact ⟨(state_tested p a _).trans hst, cure_of_changes (tested_changes p a _) p, keepsOthers_tested p a _,
        tested_changes p a _⟩
    · rw [closingTest_of_presses hr (hpressed.mpr hyes), arrival_of_report ha]
      exact begun_tested (s := s.linkActivity) hb hc (Option.isSome_iff_exists.mpr ⟨rec, hrec⟩) ht s.timebase
  · intro s bytes f p a b h ha hb r changes kept marked' lossOf
    have hl : s.linkActivity.live = true := by
      obtain ⟨⟨_, hn⟩, _⟩ := h.1
      exact hn.live
    have hmarked (hch : changes) : tested p a s.linkActivity = marked' :=
      mouldTestCycle_of_changes (s := s.linkActivity) (arrival_of_report ha) hb hch
    have hkept (hch : ¬changes) : tested p a s.linkActivity = kept :=
      mouldTestCycle_of_same (s := s.linkActivity) hb hch
    refine ⟨fun hst => ?_, fun hst => ?_, fun hst hch => ?_, fun hst hclear => ?_, fun hst hch => ?_⟩
    · have hexec := exec_of_demould h ha (by simpa using hst)
      exact ⟨fun hch => by rw [hexec, hmarked hch], fun hch => by rw [hexec, hkept hch]⟩
    · have hexec := exec_of_cure h ha hst
      have hr : (tested p a s.linkActivity).boundRecipe p = some r := boundRecipe_tested hb
      rw [cureTest_of_bound hr] at hexec
      exact ⟨fun hch => by rw [hexec, hmarked hch]; rfl, fun hch => by rw [hexec, hkept hch]; rfl⟩
    · simp only [List.mem_cons, List.not_mem_nil, or_false] at hst
      have hmarks : Marked p (tested p a s.linkActivity) := hmarked hch ▸ marked_marked hl p a
      have hothers := keepsOthers_tested p a s.linkActivity
      rcases hst with hst | hst
      · have ⟨hunit, hraw, hopens⟩ := marked_closingTest hmarks a
        exact ⟨_, exec_of_closing h ha hst, hunit, hraw, hopens,
          keepsOthers_trans hothers (keepsOthers_closingTest p a _)⟩
      · have ⟨hunit, hraw, hopens⟩ := marked_openingTest hmarks a
        exact ⟨_, exec_of_opening h ha hst, hunit, hraw, hopens,
          keepsOthers_trans hothers (keepsOthers_openingTest p a _)⟩
    · have hexec := exec_of_unload h ha hst
      rw [unloadTest_of_blocked hclear] at hexec
      exact ⟨fun hch => by rw [hexec, hmarked hch], fun hch => by rw [hexec, hkept hch]⟩
    · have hexec := exec_of_unload h ha hst
      rw [hmarked hch] at hexec
      exact ⟨_, hexec, marked_unload hl p a⟩

end Sys2Proof.Proofs.PressureFrames
end

