-- ==== Sys2Proof/Proofs/CycleEnds.lean ====
section
/-! PROOFS. OPEN_FULL ends the opening (R139), and the cleared cavity ends the cycle (R155, R161). -/

namespace Sys2Proof.Proofs.CycleEnds

set_option Elab.async false

open Sys2Proof.Machine Sys2Proof.Machine.State Sys2Proof.Proofs.StepRules Sys2Proof.Proofs.CycleViews
  Sys2Proof.Proofs.CureRules Sys2Proof.Proofs.HeatLaws Sys2Proof.Proofs.OtherPresses Sys2Proof.Proofs.Timers
  Sys2Proof.Proofs.PressReports Sys2Proof.Proofs.MouldMarks Sys2Proof.Proofs.CureBegins Sys2Proof.Proofs.Events
  Sys2Proof.Proofs.PressureFrames Sys2Proof.Proofs.Ejections Sys2Proof.Proofs.ClosedSlots
  Sys2Proof.Proofs.RecordCloses Sys2Proof.Proofs.Reception Sys2Proof.Proofs.Evaluations

variable {s t x : State} {p q : PressNo} {k : ScaleNo} {tm : Time} {r : Recipe} {i : Fin 512} {bytes : List Byte}
  {f : RxFrame} {a : PressReport} {b : Binding} {y : Record}

/-! ## The mould test before the state's own test -/

theorem mouldChanged_tested (hb : (s.unit p).binding = some b) : ((tested p a s).unit p).mouldChanged = true ↔
    (s.unit p).mouldChanged = true ∨ (a.mould ≠ 0 ∧ a.mould ≠ b.mould) := by
  rw [unit_tested, Bool.or_eq_true, mouldDiffers_noted hb]

/-! ## The end of the cycle (R155) -/

theorem unit_cleared (p : PressNo) (tm : Time) (s : State) : (cleared p tm s).unit p =
    { s.unit p with charge := none, closingEntry := none, closeTimedOut := false, aborted := false } := by
  rw [cleared, unit_modUnit, unit_of_changes (closeRecord_changes p _ _ _)]

theorem cleared_changes (p : PressNo) (tm : Time) (s : State) : OnlyChanges (.units :: closeParts) s (cleared p tm s) :=
  ((closeRecord_changes p _ tm s).mono (by decide)).trans ((modUnit_changes p _ _).mono (by decide))

theorem boundRecipe_cleared (p : PressNo) (tm : Time) (s : State) :
    (cleared p tm s).boundRecipe p = s.boundRecipe p := by
  rw [boundRecipe, unit_cleared, ← cleared_changes p tm s .tables (by decide)]
  rfl

theorem opened_joinQueue (p : PressNo) (r : Recipe) (tm : Time) (s : State) :
    opened (s.joinQueue p r tm).history = opened s.history :=
  requeue_rule (Q := fun x => opened x.history = opened s.history)
    (fun k g h => (congrArg opened (modScale_changes k g _ .history (by decide)).symm).trans h)
    (fun y g h => (congrArg opened (modPort_history y g _)).trans h)
    (fun tm k o h => (opened_raise tm k o _).trans h) _ _ rfl

theorem opened_afterCycle (p : PressNo) (tm : Time) (s : State) :
    opened (s.afterCycle p tm).history = opened s.history := by
  unfold afterCycle
  repeat' split
  · rfl
  · rfl
  · exact opened_joinQueue p _ tm _
  · rfl

theorem afterCycle_changes' (p : PressNo) (tm : Time) (s : State) :
    OnlyChanges (.units :: .scales :: raiseParts) s (s.afterCycle p tm) := by
  unfold afterCycle
  repeat' split
  · exact (modUnit_changes p _ s).mono (by decide)
  · exact (modUnit_changes p _ s).mono (by decide)
  · exact ((modUnit_changes p _ s).mono (by decide)).trans ((joinQueue_changes' p _ tm _).mono (by decide))
  · exact .refl s

theorem endCycle_changes' (p : PressNo) (tm : Time) (s : State) :
    OnlyChanges (.units :: .scales :: closeParts) s (s.endCycle p tm) := by
  rw [endCycle_eq]
  exact ((cleared_changes p tm s).mono (by decide)).trans ((afterCycle_changes' p tm _).mono (by decide))

theorem keepsOthers_afterCycle (p : PressNo) (tm : Time) (s : State) : s.KeepsOthers (s.afterCycle p tm) p := by
  unfold afterCycle
  repeat' split
  · exact keepsOthers_modUnit p _ s
  · exact keepsOthers_modUnit p _ s
  · exact keepsOthers_trans (keepsOthers_modUnit p _ s) (keepsOthers_of_changes (joinQueue_changes' p _ tm _) p)
  · exact keepsOthers_refl s p

theorem keepsOthers_endCycle (p : PressNo) (tm : Time) (s : State) : s.KeepsOthers (s.endCycle p tm) p := by
  rw [endCycle_eq]
  exact keepsOthers_trans (keepsOthers_of_changes (closeRecord_changes p _ tm s) p)
    (keepsOthers_trans (keepsOthers_modUnit p _ _) (keepsOthers_afterCycle p tm _))

/-- The record that the cycle's end closes. -/
theorem closed_endCycle (hi : s.history.openRecord[p] = some i) (hr : s.history.slots[i] = some y) :
    (s.endCycle p tm).history.openRecord[p] = none
      ∧ ∃ x, (s.endCycle p tm).history.slots[i] = some x ∧ x.state = .closed ∧ x.unloadTime = some tm
        ∧ x.outcome = (closedRecord (endCause (s.unit p)) tm y).outcome := by
  obtain ⟨hnone, _⟩ := slot_closeRecord (cause := endCause (s.unit p)) (tm := tm) hi hr
  obtain ⟨e, l, n, hslot⟩ := slot_endCycle (tm := tm) hi hr
  refine ⟨?_, _, hslot, ?_, ?_, rfl⟩
  · have hopened := opened_afterCycle p tm (cleared p tm s)
    exact (congrArg (fun v : Vector (Option (Fin 512)) 4 × (Fin 512 → Bool) => v.1[p]) hopened).trans hnone
  · rw [closedRecord_endCause]
  · rw [closedRecord_endCause]

theorem outcome_endCause (tm : Time) (y : Record) (u : PressUnit) :
    (u.aborted = true → (closedRecord (endCause u) tm y).outcome = some .aborted)
      ∧ (u.aborted = false → (closedRecord (endCause u) tm y).outcome ≠ some .aborted
        ∧ (closedRecord (endCause u) tm y).outcome ≠ none) := by
  refine ⟨fun h => ?_, fun h => ?_⟩
  · rw [endCause, if_pos h]
    exact outcome_closedRecord_of_aborts (.inl rfl)
  · have hno : ¬Aborts .endOfCycle := by rintro (h | h | h) <;> cases h
    rw [endCause, if_neg (Bool.eq_false_iff.mp h), outcome_closedRecord_of_not_aborts hno]
    refine ⟨?_, Option.some_ne_none _⟩
    repeat' split
    · decide
    · decide
    · decide

/-- Where the cycle's end takes a unit. -/
theorem unit_endCycle_of_halted (h : (s.unit p).haltPending = true) : (s.endCycle p tm).unit p =
    { s.unit p with
      state := .disabled, binding := none, haltPending := false, mouldChanged := false, charge := none
      closingEntry := none, closeTimedOut := false, aborted := false } := by
  rw [endCycle_eq, afterCycle_of_halted (by rw [unit_cleared]; exact h), unit_modUnit, unit_cleared]
  rfl

theorem unit_endCycle_of_changed (h : (s.unit p).haltPending = false) (hm : (s.unit p).mouldChanged = true) :
    (s.endCycle p tm).unit p =
      { s.unit p with
        state := .idle, binding := none, bindFault := .none, mouldChanged := false, charge := none
        closingEntry := none, closeTimedOut := false, aborted := false } := by
  rw [endCycle_eq, afterCycle_of_changed (by rw [unit_cleared]; exact h) (by rw [unit_cleared]; exact hm),
    unit_modUnit, unit_cleared]
  rfl

theorem endCycle_of_again (h : (s.unit p).haltPending = false) (hm : (s.unit p).mouldChanged = false)
    (hr : s.boundRecipe p = some r) : s.endCycle p tm =
      ((cleared p tm s).modUnit p fun u => { u with state := .chargeWait }).joinQueue p r tm := by
  rw [endCycle_eq, afterCycle_of_again (by rw [unit_cleared]; exact h) (by rw [unit_cleared]; exact hm)
    ((boundRecipe_cleared p tm s).trans hr)]

theorem unit_endCycle_of_again (h : (s.unit p).haltPending = false) (hm : (s.unit p).mouldChanged = false)
    (hr : s.boundRecipe p = some r) : (s.endCycle p tm).unit p =
      { s.unit p with
        state := .chargeWait, charge := none, closingEntry := none, closeTimedOut := false, aborted := false } := by
  rw [endCycle_of_again h hm hr, unit_of_changes (joinQueue_changes' p r tm _), unit_modUnit, unit_cleared]

theorem scale_cleared (p : PressNo) (tm : Time) (k : ScaleNo) (s : State) : (cleared p tm s).scale k = s.scale k :=
  scale_of_changes (cleared_changes p tm s) k

theorem presses_endCycle_of_again (h : (s.unit p).haltPending = false) (hm : (s.unit p).mouldChanged = false)
    (hr : s.boundRecipe p = some r) (hk : k.val = r.scale % 2) :
    presses ((s.endCycle p tm).scale k) = presses (s.scale k) ++ [p] := by
  rw [endCycle_of_again h hm hr, scaleOf_eq_iff.mp hk, presses_joinQueue, scale_of_changes (modUnit_changes p _ _),
    scale_cleared]

/-- The queues that the cycle's end leaves. -/
theorem scale_endCycle (hr : s.boundRecipe p = some r)
    (h : (s.unit p).haltPending = true ∨ (s.unit p).mouldChanged = true ∨ k.val ≠ r.scale % 2) :
    (s.endCycle p tm).scale k = s.scale k := by
  rw [endCycle_eq]
  cases hh : (s.unit p).haltPending with
  | true =>
    rw [afterCycle_of_halted (by rw [unit_cleared]; exact hh), scale_of_changes (modUnit_changes p _ _), scale_cleared]
  | false =>
    cases hm : (s.unit p).mouldChanged with
    | true =>
      rw [afterCycle_of_changed (by rw [unit_cleared]; exact hh) (by rw [unit_cleared]; exact hm),
        scale_of_changes (modUnit_changes p _ _), scale_cleared]
    | false =>
      have hk : k.val ≠ r.scale % 2 := by simpa [hh, hm] using h
      rw [← endCycle_eq, endCycle_of_again hh hm hr, scale_joinQueue_of_ne hk, scale_of_changes (modUnit_changes p _ _),
        scale_cleared]

/-! ## The ejection that begins (R139, R146) -/

theorem ejector_reachA (p : PressNo) (s : State) : ((s.reachA p).ejector p).phase =
      (if (s.ejector p).setup then .heldAtA else .runToB)
    ∧ (s.reachA p).ejector p = { s.ejector p with
        phase := ((s.reachA p).ejector p).phase, timerStart := ((s.reachA p).ejector p).timerStart } := by
  by_cases h : (s.ejector p).setup = true
  · have heq : (s.reachA p).ejector p = Ejector.stopIn .heldAtA (s.ejector p) := by
      rw [reachA, if_pos h, ejector_of_changes (setFlag_changes p _ _), ejector_modEjector]
    rw [heq, if_pos h]
    exact ⟨rfl, rfl⟩
  · have heq : (s.reachA p).ejector p = { s.ejector p with phase := .runToB } := by
      rw [reachA, if_neg h, ejector_modEjector, ejector_of_changes (ejectOn_changes p s)]
    rw [heq, if_neg h]
    exact ⟨rfl, rfl⟩

theorem ejector_beginEjection (p : PressNo) (r : Recipe) (tm : Time) (s : State) :
    let e := (s.beginEjection p r tm).ejector p
    e.node = s.nodeOf .ejector p.val ∧ e.compareA = r.ejectA ∧ e.compareB = r.ejectB
      ∧ e.stuckForce = r.stuckForce ∧ e.peak = none
      ∧ (0 < r.ejectA → e.phase = .runToA ∧ e.timerStart = some tm)
      ∧ (r.ejectA = 0 → e.phase = if (s.ejector p).setup then .heldAtA else .runToB) := by
  intro e
  have hlatched : (s.modEjector p (latched s p r tm)).ejector p = latched s p r tm (s.ejector p) :=
    ejector_modEjector p _ s
  by_cases h : r.ejectA = 0
  · have he : e = ((s.modEjector p (latched s p r tm)).reachA p).ejector p :=
      congrArg (fun x : State => x.ejector p) (doIf_of (decide_eq_true h))
    obtain ⟨hphase, hrest⟩ := ejector_reachA p (s.modEjector p (latched s p r tm))
    rw [hlatched] at hphase hrest
    rw [he, hrest]
    exact ⟨rfl, rfl, rfl, rfl, rfl, fun hpos => absurd h (Nat.pos_iff_ne_zero.mp hpos), fun _ => hphase⟩
  · have he : e = latched s p r tm (s.ejector p) :=
      (congrArg (fun x : State => x.ejector p) (doIf_of_not fun hd => h (of_decide_eq_true hd))).trans hlatched
    rw [he]
    exact ⟨rfl, rfl, rfl, rfl, rfl, fun _ => ⟨rfl, rfl⟩, fun h0 => absurd h0 h⟩

theorem openingTest_changes' (p : PressNo) (a : PressReport) (s : State) :
    OnlyChanges (.units :: .ejectors :: .portD :: raiseParts) s (s.openingTest p a) :=
  (openingTest_changes p a s).mono (by decide)

/-! ## The unit after the cycle's end -/

/-- The unit, the binding and the queue after a cycle's end, by what the unit was told (R125, R129). -/
theorem after_endCycle (hb : (s.unit p).binding = some b) (hr : s.boundRecipe p = some r) :
    let t := s.endCycle p tm
    (t.unit p).charge = none ∧ (t.unit p).closingEntry = none
      ∧ (t.unit p).closeTimedOut = false ∧ (t.unit p).aborted = false
      ∧ ((s.unit p).haltPending = true → (t.unit p).state = .disabled
        ∧ (t.unit p).binding = none ∧ (t.unit p).haltPending = false)
      ∧ ((s.unit p).haltPending = false → (s.unit p).mouldChanged = true → (t.unit p).state = .idle
        ∧ (t.unit p).binding = none ∧ (t.unit p).bindFault = .none)
      ∧ ((s.unit p).haltPending = false → ¬(s.unit p).mouldChanged = true → (t.unit p).state = .chargeWait
        ∧ (t.unit p).binding = some b
        ∧ ∀ k : ScaleNo, k.val = r.scale % 2 → presses (t.scale k) = presses (s.scale k) ++ [p]) := by
  intro t
  cases hh : (s.unit p).haltPending with
  | true =>
    have hunit : t.unit p = _ := unit_endCycle_of_halted (tm := tm) hh
    rw [hunit]
    exact ⟨rfl, rfl, rfl, rfl, fun _ => ⟨rfl, rfl, rfl⟩, fun h => Bool.noConfusion h, fun h => Bool.noConfusion h⟩
  | false =>
    cases hm : (s.unit p).mouldChanged with
    | true =>
      have hunit : t.unit p = _ := unit_endCycle_of_changed (tm := tm) hh hm
      rw [hunit]
      exact ⟨rfl, rfl, rfl, rfl, fun h => Bool.noConfusion h, fun _ _ => ⟨rfl, rfl, rfl⟩, fun _ h => absurd rfl h⟩
    | false =>
      have hunit : t.unit p = _ := unit_endCycle_of_again (tm := tm) hh hm hr
      rw [hunit]
      exact ⟨rfl, rfl, rfl, rfl, fun h => Bool.noConfusion h, fun _ h => Bool.noConfusion h,
        fun _ _ => ⟨rfl, hb, fun k hk => presses_endCycle_of_again hh hm hr hk⟩⟩

/-- The record that a cycle's end closes, by the abort of the cycle (R161). -/
theorem record_endCycle (hopen : (s.openRecord p).isSome = true) (u : PressUnit) (hu : s.unit p = u) :
    (s.endCycle p tm).history.openRecord[p] = none
      ∧ ∃ i x, s.history.openRecord[p] = some i ∧ (s.endCycle p tm).history.slots[i] = some x
        ∧ x.state = .closed ∧ x.unloadTime = some tm
        ∧ (u.aborted = true → x.outcome = some .aborted)
        ∧ (u.aborted = false → x.outcome ≠ some .aborted ∧ x.outcome ≠ none) := by
  subst hu
  obtain ⟨_, hr⟩ := Option.isSome_iff_exists.mp hopen
  obtain ⟨i, hi, hr⟩ := Option.bind_eq_some_iff.mp hr
  obtain ⟨hnone, x, hx, hstate, htime, houtcome⟩ := closed_endCycle (tm := tm) hi hr
  refine ⟨hnone, i, x, hi, hx, hstate, htime, ?_⟩
  rw [houtcome]
  exact outcome_endCause tm _ (s.unit p)

/-- Settles O47: UNLOAD by the cavity flag, OPENING by the position and the abort. -/
theorem openingAndUnload : Obligations.OpeningAndUnload := by
  intro s bytes f p a b h ha hb changed r
  have hr : (tested p a s.linkActivity).boundRecipe p = some r := boundRecipe_tested hb
  have hothers : s.linkActivity.KeepsOthers (tested p a s.linkActivity) p := keepsOthers_tested p a _
  have hchanges := tested_changes p a s.linkActivity
  have hstate := state_tested p a s.linkActivity
  have hunit := unit_tested p a s.linkActivity
  refine ⟨fun hst hc => ⟨_, exec_of_unload h ha hst, ?_⟩, fun hst hc hlaw => ⟨_, exec_of_unload h ha hst, ?_⟩,
    fun hst hp => ⟨_, exec_of_opening h ha hst, ?_⟩, fun hst hp hab => ⟨_, exec_of_opening h ha hst, ?_⟩,
    fun hst hp hab => ⟨_, exec_of_opening h ha hst, ?_⟩⟩
  · rw [unloadTest_of_blocked hc]
    exact ⟨hstate.trans hst, hothers, hchanges⟩
  · obtain ⟨_, _, _, _, hopen, _, _⟩ := hlaw
    have hopened := opened_tested p a s.linkActivity
    have hopen' : ((tested p a s.linkActivity).openRecord p).isSome = true := by
      rw [isSome_openRecord_of_opened hopened]
      exact hopen.trans (congrArg UnitState.inCycle hst)
    have hb' : ((tested p a s.linkActivity).unit p).binding = some b := by rw [hunit]; exact hb
    have hmould : ((tested p a s.linkActivity).unit p).mouldChanged = true ↔ changed := mouldChanged_tested hb
    have hscale (k : ScaleNo) : (tested p a s.linkActivity).scale k = s.scale k := scale_of_changes hchanges k
    have hhalt : ((tested p a s.linkActivity).unit p).haltPending = (s.unit p).haltPending := by rw [hunit]; rfl
    obtain ⟨hcharge, hentry, htimeout, haborted, hhalted, hchanged, hagain⟩ :=
      after_endCycle (tm := s.timebase) hb' hr
    obtain ⟨hnone, i, x, hi, hx, hclosed, htime, houtcome⟩ :=
      record_endCycle (tm := s.timebase) hopen' _ hunit
    have hi' : s.history.openRecord[p] = some i :=
      (congrArg (fun v : Vector (Option (Fin 512)) 4 × (Fin 512 → Bool) => v.1[p]) hopened).symm.trans hi
    rw [hmould, hhalt] at hchanged hagain
    rw [hhalt] at hhalted
    simp only [hscale] at hagain
    rw [unloadTest_of_clear hc, arrival_of_report ha]
    exact ⟨hcharge, hentry, htimeout, haborted, hhalted, hchanged, hagain, hnone,
      ⟨i, x, hi', hx, hclosed, htime, houtcome⟩,
      fun k hk => (scale_endCycle hr (by rw [hhalt, hmould]; exact hk)).trans (hscale k),
      keepsOthers_trans hothers (keepsOthers_endCycle p _ _),
      (hchanges.mono (by decide)).trans (endCycle_changes' p _ _)⟩
  · rw [openingTest_of_partial hp]
    exact ⟨hstate.trans hst, hothers, hchanges⟩
  · have hab' : ((tested p a s.linkActivity).unit p).aborted = true := by rw [hunit]; exact hab
    rw [openingTest_of_aborted hp hab']
    refine ⟨by rw [unit_modUnit], keepsOthers_trans hothers (keepsOthers_modUnit p _ _),
      hchanges.trans ((modUnit_changes p _ _).mono (by decide))⟩
  · have hab' : ((tested p a s.linkActivity).unit p).aborted = false := by rw [hunit]; exact hab
    have hopening : OnlyChanges [.units] (tested p a s.linkActivity)
        ((tested p a s.linkActivity).modUnit p fun u => { u with state := .eject }) := modUnit_changes p _ _
    obtain ⟨hnode, hrest⟩ := ejector_beginEjection p r a.arrival
      ((tested p a s.linkActivity).modUnit p fun u => { u with state := .eject })
    have hnodes : ((tested p a s.linkActivity).modUnit p fun u => { u with state := .eject }).nodeOf .ejector p.val =
        s.nodeOf .ejector p.val := by
      unfold nodeOf node
      rw [← hopening .tables (by decide), ← hchanges .tables (by decide)]
      rfl
    rw [ejector_of_changes hopening, ejector_of_changes hchanges, arrival_of_report ha] at hrest
    rw [hnodes] at hnode
    have hkept := keepsOthers_openingTest p a (tested p a s.linkActivity)
    have hchanged := openingTest_changes' p a (tested p a s.linkActivity)
    rw [openingTest_of_full hp hab' hr, arrival_of_report ha] at hkept hchanged ⊢
    rw [arrival_of_report ha] at hnode
    obtain ⟨hcompareA, hcompareB, hforce, hpeak, hrun, hheld⟩ := hrest
    refine ⟨?_, hnode, hcompareA, hcompareB, hforce, hpeak, hrun, hheld, keepsOthers_trans hothers hkept,
      (hchanges.mono (by decide)).trans hchanged⟩
    rw [unit_of_changes (beginEjection_changes p _ _ _), unit_modUnit]

end Sys2Proof.Proofs.CycleEnds
end

