-- ==== Sys2Proof/Proofs/CycleStarts.lean ====
section
/-! PROOFS. A CLOSE that every condition admits (R132): the record's slot, the counts, the buffer, the zones, the unit
and the frame. -/

namespace Sys2Proof.Proofs.CycleStarts

set_option Elab.async false

open Sys2Proof.Machine Sys2Proof.Machine.State Sys2Proof.Proofs.StepRules Sys2Proof.Proofs.CycleViews
  Sys2Proof.Proofs.CureRules Sys2Proof.Proofs.HeatLaws Sys2Proof.Proofs.PlainGates Sys2Proof.Proofs.ClosedSlots
  Sys2Proof.Proofs.CloseConditions Sys2Proof.Proofs.CureProgress

variable {s t x : State} {p q : PressNo} {z y : ZoneNo} {tm : Time} {b : Binding} {c : ChargeRecord}
  {r old : Record} {i : Fin 512} {bytes : List Byte} {f : RxFrame} {serial : Nat}

/-! ## The slot (R157) -/

theorem takeSlot_of_free (h : s.history.slots[s.history.writePos] = none) : s.takeSlot =
    s.modHistory fun h => { h with stored := h.stored + 1, unread := h.unread + 1 } := by
  rw [takeSlot, h]

/-- The serial of the slot’s old record is queued no more. -/
def withoutOld (old : Record) (s : State) : State :=
  { s with exportQueue := s.exportQueue.filter fun n => n != old.serial }

theorem takeSlot_of_read (h : s.history.slots[s.history.writePos] = some old) (hu : s.history.unread ≠ 512) :
    s.takeSlot = (withoutOld old s).modHistory fun h => { h with unread := h.unread + 1 } := by
  rw [takeSlot, h]
  exact if_neg hu

theorem takeSlot_of_unread (h : s.history.slots[s.history.writePos] = some old) (hu : s.history.unread = 512) :
    s.takeSlot = raiseNow .historyLoss .nothing
      ((withoutOld old s).modHistory fun h => { h with readCursor := nextSlot h.readCursor }) := by
  rw [takeSlot, h]
  exact if_pos hu

theorem history_raiseNothing (k : EventKind) (s : State) : (raiseNow k .nothing s).history = s.history :=
  history_raise_of_unnoted rfl

/-- Of the ring the slot changes the counts and the read cursor. -/
theorem history_takeSlot (s : State) : s.takeSlot.history =
    { s.history with stored := s.takeSlot.history.stored, unread := s.takeSlot.history.unread
                     readCursor := s.takeSlot.history.readCursor } := by
  cases h : s.history.slots[s.history.writePos] with
  | none =>
    rw [takeSlot_of_free h]
    rfl
  | some old =>
    by_cases hu : s.history.unread = 512
    · rw [takeSlot_of_unread h hu, history_raiseNothing]
      rfl
    · rw [takeSlot_of_read h hu]
      rfl

theorem exportQueue_takeSlot (h : s.history.slots[s.history.writePos] = some old) :
    s.takeSlot.exportQueue = s.exportQueue.filter fun n => decide (n ≠ old.serial) := by
  have hfilter : (s.exportQueue.filter fun n => n != old.serial) =
      s.exportQueue.filter fun n => decide (n ≠ old.serial) :=
    List.filter_congr fun n _ => by rw [bne, beq_eq_decide, decide_not]
  by_cases hu : s.history.unread = 512
  · rw [takeSlot_of_unread h hu, raiseNow, ← raise_changes _ _ _ _ .exportQueue (by decide)]
    exact hfilter
  · rw [takeSlot_of_read h hu]
    exact hfilter

/-- An old record that the slot loses: the unread count follows, or the loss is raised. -/
theorem counts_takeSlot (hl : s.live = true) (h : s.history.slots[s.history.writePos] = some old) :
    s.takeSlot.history.stored = s.history.stored
      ∧ (s.history.unread ≠ 512 → s.takeSlot.history.unread = s.history.unread + 1
        ∧ s.takeSlot.history.readCursor = s.history.readCursor)
      ∧ (s.history.unread = 512 → s.takeSlot.history.unread = 512
        ∧ (s.takeSlot.events[EventKind.historyLoss.number]).raw = true
        ∧ s.takeSlot.history.readCursor.val = (s.history.readCursor.val + 1) % 512) := by
  by_cases hu : s.history.unread = 512
  · have hraw : ((raiseNow .historyLoss .nothing ((withoutOld old s).modHistory fun h =>
        { h with readCursor := nextSlot h.readCursor })).events[EventKind.historyLoss.number]).raw = true :=
      raw_raise_self (s := (withoutOld old s).modHistory _) hl _ _ _
    rw [takeSlot_of_unread h hu]
    refine ⟨?_, fun hne => absurd hu hne, fun _ => ⟨?_, hraw, ?_⟩⟩
    · rw [history_raiseNothing]
      rfl
    · rw [history_raiseNothing]
      exact hu
    · rw [history_raiseNothing]
      rfl
  · rw [takeSlot_of_read h hu]
    exact ⟨rfl, fun _ => ⟨rfl, rfl⟩, fun he => absurd he hu⟩

/-! ## The hold and the buffer (R165, R171) -/

/-- The unread records reach the mark under the HOLD policy. -/
def Marks (s : State) : Prop :=
  s.tables.cell.policy = .hold ∧ s.history.hold = false ∧ s.tables.cell.highMark ≤ s.history.unread

theorem hold_of_marks (h : Marks s) : s.holdAfterAllocation =
    raiseNow .historyMark .nothing (s.modHistory fun h => { h with hold := true }) := if_pos h

theorem hold_of_not (h : ¬Marks s) : s.holdAfterAllocation = s := if_neg h

theorem history_hold (s : State) :
    s.holdAfterAllocation.history = { s.history with hold := s.holdAfterAllocation.history.hold } := by
  by_cases h : Marks s
  · rw [hold_of_marks h, history_raiseNothing]
    rfl
  · rw [hold_of_not h]

theorem holds (hl : s.live = true) : (Marks s → s.holdAfterAllocation.history.hold = true
      ∧ (s.holdAfterAllocation.events[EventKind.historyMark.number]).raw = true)
    ∧ (¬Marks s → s.holdAfterAllocation.history.hold = s.history.hold) := by
  refine ⟨fun h => ?_, fun h => by rw [hold_of_not h]⟩
  rw [hold_of_marks h, history_raiseNothing]
  exact ⟨rfl, raw_raise_self (s := s.modHistory _) hl _ _ _⟩

theorem hold_changes (s : State) : OnlyChanges raiseParts s s.holdAfterAllocation := by
  by_cases h : Marks s
  · rw [hold_of_marks h]
    exact ((modHistory_changes _ s).mono (by decide)).trans (raise_changes _ _ _ _)
  · rw [hold_of_not h]
    exact .refl s

theorem raw_hold {j : Fin 25} (h : (s.events[j]).raw = true) : (s.holdAfterAllocation.events[j]).raw = true := by
  unfold holdAfterAllocation
  split
  · exact raw_raise (s := s.modHistory _) h
  · exact h

theorem profile_modProfile_of_ne {b' x : Fin 2} (h : q ≠ p ∨ x ≠ b') (g : Profile → Profile) (s : State) :
    (s.modProfile p b' g).profile q x = s.profile q x := by
  have hne : (bufferNo p b').val ≠ (bufferNo q x).val := fun he => by
    have he : p.val * 2 + b'.val = q.val * 2 + x.val := he
    rcases h with h | h
    · exact h (Fin.ext (by omega))
    · exact h (Fin.ext (by omega))
  exact Vector.getElem_set_ne (bufferNo p b').isLt (bufferNo q x).isLt hne

theorem takeBuffer_of_locked (h : (s.profile p (bufferOf serial)).locked = true) :
    s.takeBuffer p serial = s := if_pos h

theorem takeBuffer_of_free (h : (s.profile p (bufferOf serial)).locked = false) : s.takeBuffer p serial =
    s.modProfile p (bufferOf serial) fun x =>
      { x with phase := .filling, tag := some serial, points := [], truncated := false, nextDue := 0 } :=
  if_neg (Bool.eq_false_iff.mp h)

/-! ## The zones return to their primary (R57) -/

/-- A zone whose operation reads and writes only the zone, applied along a list. -/
theorem zone_each_local {g : ZoneNo → State → State} (φ : Zone → Zone)
    (hself : ∀ z x, (g z x).zone z = φ (x.zone z)) (hother : ∀ z y x, y ≠ z → (g z x).zone y = x.zone y)
    {l : List ZoneNo} (hl : l.Nodup) (z : ZoneNo) (s : State) :
    (each g l s).zone z = if z ∈ l then φ (s.zone z) else s.zone z := by
  induction l generalizing s with
  | nil => rfl
  | cons y l ih =>
    obtain ⟨hy, hl⟩ := List.nodup_cons.mp hl
    rw [each_cons, ih hl]
    by_cases hz : z = y
    · subst hz
      rw [if_neg hy, if_pos List.mem_cons_self, hself]
    · rw [hother y z s hz]
      simp [hz]

/-- A zone that may return to its primary thermocouple does. -/
def returned (c : Zone) : Zone :=
  if c.state != .disabled && c.active == .backup && c.primaryLast.any fun l => l.status == .ok then
    { c with active := .primary, firstSample := true }
  else c

theorem zone_returnToPrimary (z : ZoneNo) (s : State) : (s.returnToPrimary z).zone z = returned (s.zone z) := by
  unfold returnToPrimary returned
  show State.zone (if ((s.zone z).state != .disabled && (s.zone z).active == .backup
    && (s.zone z).primaryLast.any fun l => l.status == .ok) = true then _ else _) z = _
  split
  · rw [zone_modZone]
  · rfl

theorem zone_returnToPrimary_of_ne (h : y ≠ z) (s : State) : (s.returnToPrimary z).zone y = s.zone y := by
  unfold returnToPrimary
  split
  · exact zone_modZone_of_ne z _ s h
  · rfl

theorem returned_eq (z : ZoneNo) (s : State) : returned (s.zone z) =
    if s.enabled z = true ∧ (s.zone z).active = .backup ∧ s.primaryOk z = true then
      { s.zone z with active := .primary, firstSample := true }
    else s.zone z := by
  refine if_congr ?_ rfl rfl
  rw [Bool.and_eq_true, Bool.and_eq_true, beq_iff_eq, and_assoc]
  exact Iff.rfl

theorem returns_changes (l : List ZoneNo) (s : State) : OnlyChanges [.zones] s (each returnToPrimary l s) :=
  each_rule (Q := OnlyChanges [.zones] s) (fun z {_} h => h.trans (returnToPrimary_changes z _)) l (.refl s)

theorem zone_returns (p : PressNo) (z : ZoneNo) (s : State) : (each returnToPrimary (zonesOf p) s).zone z =
    if pressOf z = p ∧ s.enabled z = true ∧ (s.zone z).active = .backup ∧ s.primaryOk z = true then
      { s.zone z with active := .primary, firstSample := true }
    else s.zone z := by
  rw [zone_each_local returned zone_returnToPrimary (fun z y x h => zone_returnToPrimary_of_ne h x) (zonesOf_nodup p)]
  by_cases hp : pressOf z = p
  · rw [if_pos (mem_zonesOf.mpr hp), returned_eq]
    exact if_congr (and_iff_right hp).symm rfl rfl
  · rw [if_neg (mem_zonesOf.not.mpr hp), if_neg fun h => hp h.1]

/-! ## The beginning of a cycle (R132) -/

/-- The record of a new cycle is in the ring. -/
def recorded (p : PressNo) (b : Binding) (c : ChargeRecord) (tm : Time) (s : State) : State :=
  takeBuffer p s.history.nextSerial (storeRecord p (newRecord s p b c tm) s.takeSlot)

theorem allocate_eq (p : PressNo) (b : Binding) (c : ChargeRecord) (tm : Time) (s : State) :
    allocate p b c tm s = (recorded p b c tm s).holdAfterAllocation := rfl

theorem beginCycle_eq (hb : (s.unit p).binding = some b) (hc : (s.unit p).charge = some c) : s.beginCycle p tm =
    (each returnToPrimary (zonesOf p) (allocate p b c tm s)).modUnit p (unitClosing tm) := by
  rw [beginCycle, hb, hc]

/-- The ring with a new record. -/
theorem history_recorded (p : PressNo) (b : Binding) (c : ChargeRecord) (tm : Time) (s : State) :
    (recorded p b c tm s).history =
      { s.history with
        stored := s.takeSlot.history.stored
        unread := s.takeSlot.history.unread
        readCursor := s.takeSlot.history.readCursor
        slots := s.history.slots.set s.history.writePos (some (newRecord s p b c tm))
        openRecord := s.history.openRecord.set p (some s.history.writePos)
        writePos := nextSlot s.history.writePos
        nextSerial := if s.history.nextSerial = Config.max32 then s.history.nextSerial else s.history.nextSerial + 1
        exhausted := s.history.exhausted || decide (s.history.nextSerial = Config.max32) } := by
  have hbuffer : (recorded p b c tm s).history = (storeRecord p (newRecord s p b c tm) s.takeSlot).history :=
    (takeBuffer_changes p _ _ .history (by decide)).symm
  rw [hbuffer, storeRecord]
  dsimp only [modHistory]
  rw [history_takeSlot]

theorem recorded_changes (p : PressNo) (b : Binding) (c : ChargeRecord) (tm : Time) (s : State) :
    OnlyChanges closeParts s (recorded p b c tm s) :=
  ((takeSlot_changes s).mono (by decide)).trans
    (((storeRecord_changes p _ _).mono (by decide)).trans ((takeBuffer_changes p _ _).mono (by decide)))

/-! ## The frame (R132) -/

theorem history_forwardTo (y : Port) (bytes : List Byte) (s : State) : (s.forwardTo y bytes).history = s.history := by
  unfold forwardTo
  repeat' split
  · exact modPort_history y _ s
  · exact (history_raise_of_unnoted rfl).trans (modPort_history y _ s)
  · rfl

theorem raw_forwardTo {j : Fin 25} (h : (s.events[j]).raw = true) (y : Port) :
    ((s.forwardTo y bytes).events[j]).raw = true := by
  have hport (g : PortState → PortState) : ((s.modPort y g).events[j]).raw = true := by
    rw [modPort_events]
    exact h
  unfold forwardTo
  repeat' split
  · exact hport _
  · exact raw_raise (hport _)
  · exact h

theorem forwardD_of_room (h : s.portD.fwd.length < 24) :
    (s.forwardTo .D bytes).portD = { s.portD with fwd := s.portD.fwd ++ [bytes] } := by
  rw [forwardTo_of_room .D h]
  rfl

theorem forwardD_of_full (hl : s.live = true) (h : 24 ≤ s.portD.fwd.length) :
    ((s.forwardTo .D bytes).events[EventKind.linkDrop.number]).raw = true
      ∧ (s.forwardTo .D bytes).portD = { s.portD with fwdDrops := min (s.portD.fwdDrops + 1) 65535 } := by
  rw [forwardTo_of_full hl .D (Nat.not_lt.mpr h)]
  refine ⟨raw_raise_self (s := countFwdDrop .D s) hl _ _ _, ?_⟩
  rw [raiseNow, ← raise_changes _ _ _ _ .portD (by decide)]
  rfl

/-! ## The state of a cycle that has begun -/

/-- The ring and the events after the zones, the unit and the frame are those of the allocation. -/
theorem begun_changes (hb : (s.unit p).binding = some b) (hc : (s.unit p).charge = some c) :
    OnlyChanges [.zones, .units] (allocate p b c tm s) (s.beginCycle p tm) := by
  rw [beginCycle_eq hb hc]
  exact ((returns_changes _ _).mono (by decide)).trans ((modUnit_changes p _ _).mono (by decide))

/-- A cycle has begun, and the CLOSE is passed on. -/
def begun (p : PressNo) (bytes : List Byte) (s : State) : State := (s.beginCycle p s.timebase).forwardTo .D bytes

theorem history_begun (hb : (s.unit p).binding = some b) (hc : (s.unit p).charge = some c) :
    (begun p bytes s).history = (recorded p b c s.timebase s).holdAfterAllocation.history := by
  rw [begun, history_forwardTo, ← begun_changes hb hc .history (by decide), allocate_eq]

theorem raw_begun {j : Fin 25} (hb : (s.unit p).binding = some b) (hc : (s.unit p).charge = some c)
    (h : ((recorded p b c s.timebase s).holdAfterAllocation.events[j]).raw = true) :
    ((begun p bytes s).events[j]).raw = true :=
  raw_forwardTo (raw_of_changes (begun_changes hb hc) h) .D

/-- The ring of a cycle that has begun: the new record, the counts of its slot, and the hold. -/
theorem ring_begun (hb : (s.unit p).binding = some b) (hc : (s.unit p).charge = some c) :
    (begun p bytes s).history =
      { s.history with
        stored := s.takeSlot.history.stored
        unread := s.takeSlot.history.unread
        readCursor := s.takeSlot.history.readCursor
        slots := s.history.slots.set s.history.writePos (some (newRecord s p b c s.timebase))
        openRecord := s.history.openRecord.set p (some s.history.writePos)
        writePos := nextSlot s.history.writePos
        nextSerial := if s.history.nextSerial = Config.max32 then s.history.nextSerial else s.history.nextSerial + 1
        exhausted := s.history.exhausted || decide (s.history.nextSerial = Config.max32)
        hold := (begun p bytes s).history.hold } := by
  rw [history_begun hb hc, history_hold, history_recorded]

theorem rest_begun (hb : (s.unit p).binding = some b) (hc : (s.unit p).charge = some c) :
    OnlyChanges (.zones :: .units :: .portD :: raiseParts) (recorded p b c s.timebase s) (begun p bytes s) :=
  ((hold_changes _).mono (by decide)).trans (((begun_changes hb hc).mono (by decide)).trans
    ((forwardTo_changes .D bytes _).mono (by decide)))

theorem begun_changes_all (hb : (s.unit p).binding = some b) (hc : (s.unit p).charge = some c) :
    OnlyChanges (.units :: .zones :: .portD :: closeParts) s (begun p bytes s) :=
  ((recorded_changes p b c s.timebase s).mono (by decide)).trans ((rest_begun hb hc).mono (by decide))

theorem before_changes (hb : (s.unit p).binding = some b) (hc : (s.unit p).charge = some c) :
    OnlyChanges (.zones :: .units :: closeParts) s (s.beginCycle p tm) :=
  ((recorded_changes p b c tm s).mono (by decide)).trans (((hold_changes _).mono (by decide)).trans
    ((begun_changes hb hc).mono (by decide)))

theorem unit_begun (hb : (s.unit p).binding = some b) (hc : (s.unit p).charge = some c) :
    (begun p bytes s).unit p = unitClosing s.timebase (s.unit p)
      ∧ ∀ q, q ≠ p → (begun p bytes s).unit q = s.unit q := by
  have hforward (q : PressNo) : (begun p bytes s).unit q = (s.beginCycle p s.timebase).unit q :=
    unit_of_changes (forwardTo_changes .D bytes _) q
  have hbefore (q : PressNo) : (each returnToPrimary (zonesOf p) (allocate p b c s.timebase s)).unit q = s.unit q :=
    (unit_of_changes (returns_changes _ _) q).trans (unit_of_changes (allocate_changes p b c _ s) q)
  refine ⟨?_, fun q hq => ?_⟩
  · rw [hforward, beginCycle_eq hb hc, unit_modUnit, hbefore]
  · rw [hforward, beginCycle_eq hb hc, unit_modUnit_of_ne p _ _ hq, hbefore]

theorem zone_begun (hb : (s.unit p).binding = some b) (hc : (s.unit p).charge = some c) (z : ZoneNo) :
    (begun p bytes s).zone z =
      if pressOf z = p ∧ s.enabled z = true ∧ (s.zone z).active = .backup ∧ s.primaryOk z = true then
        { s.zone z with active := .primary, firstSample := true }
      else s.zone z := by
  have hallocate : (allocate p b c s.timebase s).zone z = s.zone z :=
    zone_of_changes (allocate_changes p b c _ s) z
  rw [begun, zone_of_changes (forwardTo_changes .D bytes _), beginCycle_eq hb hc,
    zone_of_changes (modUnit_changes p _ _), zone_returns, enabled, primaryOk, hallocate]
  rfl

/-- The buffer of the new record. -/
theorem profile_begun (hb : (s.unit p).binding = some b) (hc : (s.unit p).charge = some c) (q : PressNo) (x : Fin 2) :
    (begun p bytes s).profile q x = (takeBuffer p s.history.nextSerial s).profile q x := by
  have hslot : OnlyChanges (.exportQueue :: raiseParts) s (storeRecord p (newRecord s p b c s.timebase) s.takeSlot) :=
    (takeSlot_changes s).trans ((storeRecord_changes p _ _).mono (by decide))
  have hprofiles : (storeRecord p (newRecord s p b c s.timebase) s.takeSlot).profiles = s.profiles :=
    (hslot .profiles (by decide)).symm
  have hcongr (y : State) (hy : y.profiles = s.profiles) :
      (takeBuffer p s.history.nextSerial y).profiles = (takeBuffer p s.history.nextSerial s).profiles := by
    have hprofile (b' : Fin 2) : y.profile p b' = s.profile p b' := by rw [profile, profile, hy]
    unfold takeBuffer
    rw [hprofile]
    split
    · exact hy
    · simp only [modProfile, hy]
  have hrest : (begun p bytes s).profiles = (recorded p b c s.timebase s).profiles :=
    (rest_begun hb hc .profiles (by decide)).symm
  rw [profile, profile, hrest, recorded, hcongr _ hprofiles]

theorem gateClose_of_none (hs : (s.unit p).state ≠ .closing) (hr : s.closeReason p = none) (src : Nat) :
    gateClose p src s = (s.beginCycle p s.timebase, true) := by
  rw [gateClose, if_neg hs, hr]

theorem exec_of_admitted (h : s.Commanded bytes f p .close) (hr : s.closeReason p = none)
    (hst : (s.unit p).state = .chargeReady) :
    exec (.closeCommand bytes) s = .next (begun p bytes s.linkActivity) := by
  have hclosing : (s.linkActivity.unit p).state ≠ .closing := fun h =>
    UnitState.noConfusion (hst.symm.trans h)
  rw [exec_closeCommand h, gateClose_of_none hclosing hr, passOn_of_pass]
  rfl

/-- The new record in its slot, and the other slots. -/
theorem slots_begun (hb : (s.unit p).binding = some b) (hc : (s.unit p).charge = some c) :
    (begun p bytes s).history.openRecord[p] = some s.history.writePos
      ∧ (begun p bytes s).history.slots[s.history.writePos] = some (newRecord s p b c s.timebase)
      ∧ (∀ q : PressNo, q ≠ p → (begun p bytes s).history.openRecord[q] = s.history.openRecord[q])
      ∧ ∀ i : Fin 512, i ≠ s.history.writePos → (begun p bytes s).history.slots[i] = s.history.slots[i] := by
  rw [ring_begun hb hc]
  refine ⟨Vector.getElem_set_self p.isLt, Vector.getElem_set_self s.history.writePos.isLt, fun q hq => ?_,
    fun i hi => ?_⟩
  · exact Vector.getElem_set_ne p.isLt q.isLt fun he => hq (Fin.ext he.symm)
  · exact Vector.getElem_set_ne s.history.writePos.isLt i.isLt fun he => hi (Fin.ext he.symm)

theorem openRecord_begun (hb : (s.unit p).binding = some b) (hc : (s.unit p).charge = some c) :
    (begun p bytes s).openRecord p = some (newRecord s p b c s.timebase) := by
  obtain ⟨hopen, hslot, _⟩ := slots_begun (bytes := bytes) hb hc
  rw [State.openRecord, hopen, Option.bind_some, hslot]

theorem writePos_begun (hb : (s.unit p).binding = some b) (hc : (s.unit p).charge = some c) :
    (begun p bytes s).history.writePos.val = (s.history.writePos.val + 1) % 512 := by
  rw [ring_begun hb hc]
  rfl

/-- The next serial (R158). -/
theorem serial_begun (hb : (s.unit p).binding = some b) (hc : (s.unit p).charge = some c) :
    (s.history.nextSerial < 4294967295 → (begun p bytes s).history.nextSerial = s.history.nextSerial + 1
        ∧ (begun p bytes s).history.exhausted = s.history.exhausted)
      ∧ (s.history.nextSerial = 4294967295 → (begun p bytes s).history.nextSerial = s.history.nextSerial
        ∧ (begun p bytes s).history.exhausted = true) := by
  rw [ring_begun hb hc]
  refine ⟨fun h => ?_, fun h => ?_⟩
  · have hne : s.history.nextSerial ≠ Config.max32 := Nat.ne_of_lt h
    exact ⟨if_neg hne, by rw [decide_eq_false hne, Bool.or_false]⟩
  · have he : s.history.nextSerial = Config.max32 := h
    exact ⟨if_pos he, by rw [decide_eq_true he, Bool.or_true]⟩

theorem exportQueue_begun (hb : (s.unit p).binding = some b) (hc : (s.unit p).charge = some c) :
    (begun p bytes s).exportQueue = s.takeSlot.exportQueue := by
  have hstore := storeRecord_changes p (newRecord s p b c s.timebase) s.takeSlot
  have hbuffer := takeBuffer_changes p s.history.nextSerial (storeRecord p (newRecord s p b c s.timebase) s.takeSlot)
  rw [← rest_begun hb hc .exportQueue (by decide), recorded, ← hbuffer .exportQueue (by decide),
    ← hstore .exportQueue (by decide)]

/-- The counts when the slot is free. -/
theorem counts_of_free (hb : (s.unit p).binding = some b) (hc : (s.unit p).charge = some c)
    (h : s.history.slots[s.history.writePos] = none) :
    (begun p bytes s).history.stored = s.history.stored + 1
      ∧ (begun p bytes s).history.unread = s.history.unread + 1
      ∧ (begun p bytes s).history.readCursor = s.history.readCursor
      ∧ (begun p bytes s).exportQueue = s.exportQueue := by
  rw [exportQueue_begun hb hc, ring_begun hb hc, takeSlot_of_free h]
  exact ⟨rfl, rfl, rfl, rfl⟩

theorem raw_recorded {j : Fin 25} (h : (s.takeSlot.events[j]).raw = true) :
    ((recorded p b c tm s).events[j]).raw = true :=
  raw_of_changes (takeBuffer_changes p _ _) (raw_of_changes (storeRecord_changes p _ _) h (by decide))

/-- The counts when the slot holds an old record. -/
theorem counts_of_old (hl : s.live = true) (hb : (s.unit p).binding = some b) (hc : (s.unit p).charge = some c)
    (h : s.history.slots[s.history.writePos] = some old) :
    (begun p bytes s).history.stored = s.history.stored
      ∧ (begun p bytes s).exportQueue = (s.exportQueue.filter fun n => decide (n ≠ old.serial))
      ∧ (s.history.unread ≠ 512 → (begun p bytes s).history.unread = s.history.unread + 1
        ∧ (begun p bytes s).history.readCursor = s.history.readCursor)
      ∧ (s.history.unread = 512 → (begun p bytes s).history.unread = 512
        ∧ ((begun p bytes s).events[EventKind.historyLoss.number]).raw = true
        ∧ (begun p bytes s).history.readCursor.val = (s.history.readCursor.val + 1) % 512) := by
  obtain ⟨hstored, hread, hunread⟩ := counts_takeSlot hl h
  have hraw (hr : (s.takeSlot.events[EventKind.historyLoss.number]).raw = true) :
      ((begun p bytes s).events[EventKind.historyLoss.number]).raw = true :=
    raw_begun hb hc (raw_hold (raw_recorded hr))
  rw [exportQueue_begun hb hc, exportQueue_takeSlot h, ring_begun hb hc]
  exact ⟨hstored, rfl, hread, fun hu => by
    obtain ⟨hcount, hr, hcursor⟩ := hunread hu
    exact ⟨hcount, hraw hr, hcursor⟩⟩

/-- The hold of a cycle that has begun (R165). -/
theorem hold_begun (hl : s.live = true) (hb : (s.unit p).binding = some b) (hc : (s.unit p).charge = some c) :
    let marks := s.tables.cell.policy = .hold ∧ s.history.hold = false
      ∧ s.tables.cell.highMark ≤ (begun p bytes s).history.unread
    (marks → (begun p bytes s).history.hold = true
        ∧ ((begun p bytes s).events[EventKind.historyMark.number]).raw = true)
      ∧ (¬marks → (begun p bytes s).history.hold = s.history.hold) := by
  intro marks
  have hrecorded := recorded_changes p b c s.timebase s
  have hhistory := history_recorded p b c s.timebase s
  have hmarks : Marks (recorded p b c s.timebase s) ↔ marks := by
    unfold Marks marks
    rw [ring_begun hb hc, hhistory, ← hrecorded .tables (by decide)]
  obtain ⟨hyes, hno⟩ := holds ((live_of_changes hrecorded).trans hl)
  rw [hmarks, ← history_begun (bytes := bytes) hb hc] at hyes hno
  refine ⟨fun h => ?_, fun h => ?_⟩
  · obtain ⟨hhold, hraw⟩ := hyes h
    exact ⟨hhold, raw_begun hb hc hraw⟩
  · rw [hno h, hhistory]

theorem profile_of_free (hb : (s.unit p).binding = some b) (hc : (s.unit p).charge = some c)
    (h : (s.profile p (bufferOf s.history.nextSerial)).locked = false) :
    (begun p bytes s).profile p (bufferOf s.history.nextSerial) =
      { phase := .filling, tag := some s.history.nextSerial, points := []
        truncated := false, nextDue := 0, locked := false } := by
  rw [profile_begun hb hc, takeBuffer_of_free h, profile_modProfile, h]

theorem profile_of_kept (hb : (s.unit p).binding = some b) (hc : (s.unit p).charge = some c) {x : Fin 2}
    (h : (s.profile p (bufferOf s.history.nextSerial)).locked = true ∨ q ≠ p ∨ x ≠ bufferOf s.history.nextSerial) :
    (begun p bytes s).profile q x = s.profile q x := by
  rw [profile_begun hb hc]
  cases hl : (s.profile p (bufferOf s.history.nextSerial)).locked with
  | true => rw [takeBuffer_of_locked hl]
  | false =>
    rw [takeBuffer_of_free hl, profile_modProfile_of_ne (h.resolve_left fun h => Bool.noConfusion (hl.symm.trans h))]

/-- The frame of a cycle that has begun joins Port D FWD, or is dropped and raised (R12). -/
theorem portD_begun (hl : s.live = true) (hb : (s.unit p).binding = some b) (hc : (s.unit p).charge = some c) :
    (s.portD.fwd.length < 24 → (begun p bytes s).portD = { s.portD with fwd := s.portD.fwd ++ [bytes] })
      ∧ (24 ≤ s.portD.fwd.length → ((begun p bytes s).events[EventKind.linkDrop.number]).raw = true
        ∧ (begun p bytes s).portD = { s.portD with fwdDrops := min (s.portD.fwdDrops + 1) 65535 }) := by
  have hbefore := before_changes (tm := s.timebase) hb hc
  have hport : (s.beginCycle p s.timebase).portD = s.portD := (hbefore .portD (by decide)).symm
  rw [begun, ← hport]
  exact ⟨fun h => forwardD_of_room h, fun h => forwardD_of_full ((live_of_changes hbefore).trans hl) h⟩

/-- Settles O28: the gate passes the CLOSE on from the state in which the cycle has begun. -/
theorem cycleBegins : Obligations.CycleBegins := by
  intro s bytes f p b c hcmd hreason hst hb hc h serial buffer skipped
  have hl : s.linkActivity.live = true := by
    obtain ⟨⟨⟨_, hn, _⟩, _⟩, _⟩ := hcmd
    exact hn.live
  have hb' : (s.linkActivity.unit p).binding = some b := hb
  have hc' : (s.linkActivity.unit p).charge = some c := hc
  have hexec := exec_of_admitted hcmd hreason hst
  obtain ⟨hunit, hunits⟩ := unit_begun (bytes := bytes) hb' hc'
  have hrecord := openRecord_begun (bytes := bytes) hb' hc'
  obtain ⟨hopen, _, hopens, hslots⟩ := slots_begun (bytes := bytes) hb' hc'
  have hwrite := writePos_begun (bytes := bytes) hb' hc'
  obtain ⟨hserial, hlast⟩ := serial_begun (bytes := bytes) hb' hc'
  have hfree := counts_of_free (bytes := bytes) hb' hc'
  have hold (old : Record) := counts_of_old (bytes := bytes) (old := old) hl hb' hc'
  obtain ⟨hhold, hunheld⟩ := hold_begun (bytes := bytes) hl hb' hc'
  have htaken := profile_of_free (bytes := bytes) hb' hc'
  have hkept (q : PressNo) (x : Fin 2) := profile_of_kept (bytes := bytes) (q := q) (x := x) hb' hc'
  have hzone := zone_begun (bytes := bytes) hb' hc'
  obtain ⟨hroom, hfull⟩ := portD_begun (bytes := bytes) hl hb' hc'
  have hchanges := begun_changes_all (bytes := bytes) hb' hc'
  generalize begun p bytes s.linkActivity = t at *
  exact ⟨t, hexec, hunit, hunits, hrecord, hopen, hopens, hslots, hwrite, hserial, hlast, hfree, hold, ⟨hhold, hunheld⟩,
    htaken, hkept, hzone, hroom, hfull, hchanges⟩

end Sys2Proof.Proofs.CycleStarts
end

