-- ==== Sys2Proof/Proofs/ColdResets.lean ====
section
/-! PROOFS. The COLD reset (R194, R195): the off commands and EJECT_OFFs that its shutdown creates, what they place, and
the commands that wait for the shutdown's end. -/

namespace Sys2Proof.Proofs.ColdResets

set_option Elab.async false

open Sys2Proof.Machine Sys2Proof.Machine.State Sys2Proof.Proofs.StepRules Sys2Proof.Proofs.CureRules
  Sys2Proof.Proofs.HeatLaws Sys2Proof.Proofs.OffPlacement Sys2Proof.Proofs.Transmitters Sys2Proof.Proofs.Ejections
  Sys2Proof.Proofs.OtherPresses Sys2Proof.Proofs.Reception Sys2Proof.Proofs.Timers Sys2Proof.Proofs.CureProgress

variable {s t u x : State} {p q : PressNo} {z y : ZoneNo} {n : Nat} {bytes : List Byte} {f : RxFrame} {m : Mark}

/-! ## The zones that are shut off (R194 step 3) -/

/-- A zone after the step, if its off command takes the number `n`. -/
def shutZone (heater : Option NodeRef) (n : Nat) (c : Zone) : Zone :=
  match heater with
  | some h => withOff h n c.shutOff
  | none => c.shutOff

theorem shutOffZone_of_disabled (h : s.enabled z = false) : s.shutOffZone z = s :=
  if_neg (Bool.eq_false_iff.mp h)

theorem shutOffZone_of_enabled (h : s.enabled z = true) :
    s.shutOffZone z = (s.modZone z Zone.shutOff).createOff z := if_pos h

theorem shutOffZone_changes (z : ZoneNo) (s : State) : OnlyChanges [.zones, .offNumber] s (s.shutOffZone z) := by
  unfold shutOffZone
  split
  · exact ((modZone_changes z _ s).mono (by decide)).trans ((createOff_changes z _).mono (by decide))
  · exact .refl s

theorem zone_createOff (z : ZoneNo) (s : State) :
    ((s.modZone z Zone.shutOff).createOff z).zone z = shutZone (s.zoneEntry z).heater s.offNumber (s.zone z) := by
  have hshut : (s.modZone z Zone.shutOff).zone z = Zone.shutOff (s.zone z) := zone_modZone z _ s
  cases hh : (s.zoneEntry z).heater with
  | none => rw [createOff_of_none (s := s.modZone z Zone.shutOff) hh, hshut]; rfl
  | some h =>
    rw [zone_createOff_of_some (s := s.modZone z Zone.shutOff) hh, zone_modZone, hshut]
    rfl

theorem zone_shutOffZone_of_ne (h : y ≠ z) (s : State) : (s.shutOffZone z).zone y = s.zone y := by
  cases he : s.enabled z with
  | false => rw [shutOffZone_of_disabled he]
  | true =>
    rw [shutOffZone_of_enabled he]
    rw [zone_createOff_of_ne h, zone_modZone_of_ne z _ s h]

theorem offNumber_shutOffZone (z : ZoneNo) (s : State) : s.offNumber ≤ (s.shutOffZone z).offNumber := by
  unfold shutOffZone createOff
  repeat' split
  · exact Nat.le_succ _
  · exact Nat.le_refl _
  · exact Nat.le_refl _

/-- A zone after all have been shut off. -/
theorem zone_each_shutOffZone {l : List ZoneNo} (hl : l.Nodup) (z : ZoneNo) (s : State) :
    ∃ n, s.offNumber ≤ n ∧ (each shutOffZone l s).zone z =
      if z ∈ l ∧ s.enabled z = true then shutZone (s.zoneEntry z).heater n (s.zone z) else s.zone z := by
  induction l generalizing s with
  | nil =>
    refine ⟨s.offNumber, Nat.le_refl _, ?_⟩
    rw [if_neg fun h : z ∈ [] ∧ s.enabled z = true => List.not_mem_nil h.1]
    rfl
  | cons y l ih =>
    obtain ⟨hy, hl⟩ := List.nodup_cons.mp hl
    obtain ⟨n, hn, hrest⟩ := ih hl (s.shutOffZone y)
    rw [each_cons]
    by_cases hz : z = y
    · subst hz
      rw [if_neg fun h => hy h.1] at hrest
      refine ⟨s.offNumber, Nat.le_refl _, hrest.trans ?_⟩
      cases he : s.enabled z with
      | false => rw [shutOffZone_of_disabled he, if_neg fun h => Bool.noConfusion h.2]
      | true => rw [shutOffZone_of_enabled he, zone_createOff, if_pos ⟨List.mem_cons_self, rfl⟩]
    · have hzone := zone_shutOffZone_of_ne hz s
      have henabled : (s.shutOffZone y).enabled z = s.enabled z := by rw [enabled, enabled, hzone]
      have hentry : (s.shutOffZone y).zoneEntry z = s.zoneEntry z := by
        unfold zoneEntry
        rw [← shutOffZone_changes y s .tables (by decide)]
      rw [hzone, henabled, hentry] at hrest
      refine ⟨n, Nat.le_trans (offNumber_shutOffZone y s) hn, hrest.trans (if_congr ?_ rfl rfl)⟩
      rw [List.mem_cons]
      exact ⟨fun ⟨h, he⟩ => ⟨.inr h, he⟩, fun ⟨h, he⟩ => ⟨h.resolve_left hz, he⟩⟩

theorem shutOffZones_changes (l : List ZoneNo) (s : State) :
    OnlyChanges [.zones, .offNumber] s (each shutOffZone l s) :=
  each_rule (Q := OnlyChanges [.zones, .offNumber] s) (fun z {_} h => h.trans (shutOffZone_changes z _)) l (.refl s)

theorem offNumber_shutOffZones (l : List ZoneNo) (s : State) : s.offNumber ≤ (each shutOffZone l s).offNumber :=
  each_rule (Q := fun x => s.offNumber ≤ x.offNumber) (fun z {_} h => Nat.le_trans h (offNumber_shutOffZone z _)) l
    (Nat.le_refl _)

/-! ## The ejections that are cut short (R194 step 4) -/

theorem shutOffEjector_changes (p : PressNo) (s : State) :
    OnlyChanges [.ejectors, .offNumber] s (s.shutOffEjector p) := by
  unfold shutOffEjector
  split
  · exact (oweEjectOff_changes p s).mono (by decide)
  · exact .refl s

/-- The ejector of a press whose EJECT_OFF is owed now. -/
theorem ejector_shutOffEjector_of_owed (hs : (s.unit p).state = .eject) (hn : (s.ejector p).node = some n) :
    (s.shutOffEjector p).ejector p = withOwed n s.offNumber false (s.ejector p) := by
  rw [shutOffEjector, if_pos hs, oweEjectOff_of_node hn, ejector_owed]

theorem shutOffEjector_of_kept (h : (s.unit p).state ≠ .eject ∨ (s.ejector p).node = none) :
    s.shutOffEjector p = s := by
  unfold shutOffEjector
  split
  · exact oweEjectOff_of_none (h.resolve_left fun hn => hn ‹_›)
  · rfl

theorem ejector_shutOffEjector_of_ne (h : q ≠ p) (s : State) : (s.shutOffEjector p).ejector q = s.ejector q := by
  unfold shutOffEjector
  split
  · cases hn : (s.ejector p).node with
    | none => rw [oweEjectOff_of_none hn]
    | some n => rw [oweEjectOff_of_node hn, owed, ejector_modEjector_of_ne p _ _ h]; rfl
  · rfl

theorem offNumber_shutOffEjector (p : PressNo) (s : State) : s.offNumber ≤ (s.shutOffEjector p).offNumber := by
  unfold shutOffEjector
  split
  · cases hn : (s.ejector p).node with
    | none => rw [oweEjectOff_of_none hn]
    | some n =>
      rw [oweEjectOff_of_node hn]
      exact Nat.le_succ _
  · exact Nat.le_refl _

/-- The ejector of a press after all ejections have been cut short. -/
theorem ejector_each_shutOffEjector {l : List PressNo} (hl : l.Nodup) (p : PressNo) (s : State) :
    ((s.unit p).state ≠ .eject ∨ (s.ejector p).node = none ∨ p ∉ l →
        (each shutOffEjector l s).ejector p = s.ejector p)
      ∧ ∀ n, (s.unit p).state = .eject → (s.ejector p).node = some n → p ∈ l → ∃ i, s.offNumber ≤ i
        ∧ (each shutOffEjector l s).ejector p = withOwed n i false (s.ejector p) := by
  induction l generalizing s with
  | nil => exact ⟨fun _ => rfl, fun n _ _ h => nomatch h⟩
  | cons q l ih =>
    obtain ⟨hq, hl⟩ := List.nodup_cons.mp hl
    obtain ⟨hkept, howed⟩ := ih hl (s.shutOffEjector q)
    have hunit : (s.shutOffEjector q).unit p = s.unit p := unit_of_changes (shutOffEjector_changes q s) p
    rw [hunit] at hkept howed
    rw [each_cons]
    by_cases hp : p = q
    · subst hp
      refine ⟨fun h => ?_, fun n hst hn _ => ⟨s.offNumber, Nat.le_refl _, ?_⟩⟩
      · rw [hkept (.inr (.inr hq))]
        refine congrArg (fun x : State => x.ejector p) (shutOffEjector_of_kept ?_)
        rcases h with h | h | h
        · exact .inl h
        · exact .inr h
        · exact absurd List.mem_cons_self h
      · rw [hkept (.inr (.inr hq)), ejector_shutOffEjector_of_owed hst hn]
    · have hsame := ejector_shutOffEjector_of_ne hp s
      rw [hsame] at hkept howed
      refine ⟨fun h => hkept ?_, fun n hst hn hmem => ?_⟩
      · exact h.imp_right (Or.imp_right fun h hm => h (List.mem_cons_of_mem _ hm))
      · obtain ⟨i, hi, heq⟩ := howed n hst hn ((List.mem_cons.mp hmem).resolve_left hp)
        exact ⟨i, Nat.le_trans (offNumber_shutOffEjector q s) hi, heq⟩

/-! ## The shutdown before its frames are placed -/

/-- The state in which the off frames of a shutdown wait. -/
def shut (s : State) : State :=
  each shutOffEjector (List.finRange 4) (each shutOffZone (List.finRange 48)
    { s with resetPending := .idle, shutdown := true })

theorem coldShutdown_eq (s : State) : s.coldShutdown = (shut s).placeOwed := rfl

theorem shut_changes (s : State) :
    OnlyChanges [.resetPending, .shutdown, .zones, .ejectors, .offNumber] s (shut s) := by
  have hfirst : OnlyChanges [.resetPending, .shutdown, .zones, .ejectors, .offNumber] s
      { s with resetPending := .idle, shutdown := true } := fun y hy => by
    cases y <;> first | rfl | exact absurd hy (by decide)
  refine each_rule (Q := OnlyChanges [.resetPending, .shutdown, .zones, .ejectors, .offNumber] s)
    (fun p {_} h => h.trans ((shutOffEjector_changes p _).mono (by decide))) _ ?_
  exact hfirst.trans ((shutOffZones_changes _ _).mono (by decide))

theorem shut_flags (s : State) : (shut s).shutdown = true ∧ (shut s).resetPending = .idle := by
  have hzones := shutOffZones_changes (List.finRange 48) { s with resetPending := .idle, shutdown := true }
  have hejectors : OnlyChanges [.ejectors, .offNumber] (each shutOffZone (List.finRange 48)
      { s with resetPending := .idle, shutdown := true }) (shut s) :=
    each_rule (Q := OnlyChanges [.ejectors, .offNumber] _)
      (fun p {_} h => h.trans (shutOffEjector_changes p _)) _ (.refl _)
  exact ⟨(hejectors .shutdown (by decide)).symm.trans (hzones .shutdown (by decide)).symm,
    (hejectors .resetPending (by decide)).symm.trans (hzones .resetPending (by decide)).symm⟩

theorem zone_shut (z : ZoneNo) (s : State) : ∃ n, s.offNumber ≤ n ∧ (shut s).zone z =
    if s.enabled z = true then shutZone (s.zoneEntry z).heater n (s.zone z) else s.zone z := by
  obtain ⟨n, hn, hzone⟩ := zone_each_shutOffZone (List.nodup_finRange 48) z
    { s with resetPending := .idle, shutdown := true }
  have hejectors : OnlyChanges [.ejectors, .offNumber] (each shutOffZone (List.finRange 48)
      { s with resetPending := .idle, shutdown := true }) (shut s) :=
    each_rule (Q := OnlyChanges [.ejectors, .offNumber] _)
      (fun p {_} h => h.trans (shutOffEjector_changes p _)) _ (.refl _)
  refine ⟨n, hn, (zone_of_changes hejectors z).trans (hzone.trans (if_congr ?_ rfl rfl))⟩
  exact and_iff_right (List.mem_finRange z)

theorem ejector_shut (p : PressNo) (s : State) :
    ((s.unit p).state ≠ .eject ∨ (s.ejector p).node = none → (shut s).ejector p = s.ejector p)
      ∧ ∀ n, (s.unit p).state = .eject → (s.ejector p).node = some n → ∃ i, s.offNumber ≤ i
        ∧ (shut s).ejector p = withOwed n i false (s.ejector p) := by
  have hzones := shutOffZones_changes (List.finRange 48) { s with resetPending := .idle, shutdown := true }
  have hnumber := offNumber_shutOffZones (List.finRange 48) { s with resetPending := .idle, shutdown := true }
  obtain ⟨hkept, howed⟩ := ejector_each_shutOffEjector (List.nodup_finRange 4) p
    (each shutOffZone (List.finRange 48) { s with resetPending := .idle, shutdown := true })
  rw [unit_of_changes hzones, ejector_of_changes hzones] at hkept howed
  refine ⟨fun h => hkept (h.imp_right .inl), fun n hst hn => ?_⟩
  obtain ⟨i, hi, heq⟩ := howed n hst hn (List.mem_finRange p)
  exact ⟨i, Nat.le_trans hnumber hi, heq⟩

/-! ## The off commands of a zone that is shut off -/

/-- The outputs that off commands are for. -/
def outputsOf (offs : List OffCommand) : List NodeRef := offs.map fun o => { node := o.node, line := o.output }

theorem notFor_eq (h : NodeRef) : (fun o : OffCommand => !(o.node == h.node && o.output == h.line)) =
    fun o => decide (({ node := o.node, line := o.output } : NodeRef) ≠ h) := by
  funext o
  obtain ⟨node, line⟩ := h
  simp only [ne_eq, NodeRef.mk.injEq, Bool.decide_and, decide_not]
  rfl

theorem offs_shutZone_some (h : NodeRef) (n : Nat) (c : Zone) : (shutZone (some h) n c).offs =
    (c.offs.filter fun o => decide (({ node := o.node, line := o.output } : NodeRef) ≠ h))
      ++ [{ node := h.node, output := h.line, placed := false, number := n }] := by
  rw [← notFor_eq]
  rfl

theorem outputs_shutZone_some (h : NodeRef) (n : Nat) (c : Zone) : outputsOf (shutZone (some h) n c).offs =
    ((outputsOf c.offs).filter fun x => decide (x ≠ h)) ++ [h] := by
  rw [offs_shutZone_some, outputsOf, List.map_append, outputsOf, List.filter_map]
  rfl

theorem shutZone_eq (heater : Option NodeRef) (n : Nat) (c : Zone) : shutZone heater n c =
    { c with staged := 0, committed := 0, offs := (shutZone heater n c).offs } := by
  cases heater with
  | none => rfl
  | some h => rfl

theorem outputs_of_placed (h : u.OffsPlaced t) (z : ZoneNo) :
    outputsOf (t.zone z).offs = outputsOf (u.zone z).offs := by
  obtain ⟨_, hzones, _, _⟩ := h
  rw [hzones, outputsOf, outputsOf, List.map_map]
  rfl

theorem node_of_placed (h : u.OffsPlaced t) (p : PressNo) :
    (t.ejector p).offOwed.map OffOwed.node = (u.ejector p).offOwed.map OffOwed.node := by
  obtain ⟨_, _, hejectors, _⟩ := h
  rw [hejectors, Option.map_map]
  rfl

/-! ## Off frames that are present -/

theorem offPresent_iff : s.offPresent = true ↔
    (∃ z, outputsOf (s.zone z).offs ≠ []) ∨ ∃ p, (s.ejector p).offOwed.map OffOwed.node ≠ none := by
  simp [offPresent, outputsOf, List.any_eq_true, Option.isSome_iff_ne_none]

theorem offPresent_of_placed (h : u.OffsPlaced t) : t.offPresent = u.offPresent := by
  rw [Bool.eq_iff_iff, offPresent_iff, offPresent_iff]
  simp only [outputs_of_placed h, node_of_placed h]

/-- What a shutdown has to command off is what is present when it has begun. -/
theorem offPresent_shut : (shut s).offPresent = true ↔ s.Drives := by
  have hzone (z : ZoneNo) : outputsOf ((shut s).zone z).offs ≠ [] ↔
      (s.enabled z = true ∧ (s.zoneEntry z).heater ≠ none) ∨ (s.zone z).offs ≠ [] := by
    obtain ⟨n, _, hz⟩ := zone_shut z s
    rw [hz]
    by_cases he : s.enabled z = true
    · rw [if_pos he]
      cases hh : (s.zoneEntry z).heater with
      | none => simp [shutZone, outputsOf, Zone.shutOff]
      | some h => simp [outputs_shutZone_some, he]
    · rw [if_neg he]
      simp [outputsOf, he]
  have hejector (p : PressNo) : ((shut s).ejector p).offOwed.map OffOwed.node ≠ none ↔
      ((s.unit p).state = .eject ∧ (s.ejector p).node ≠ none) ∨ (s.ejector p).offOwed ≠ none := by
    obtain ⟨hkept, howed⟩ := ejector_shut p s
    by_cases h : (s.unit p).state ≠ .eject ∨ (s.ejector p).node = none
    · rw [hkept h]
      have hno : ¬((s.unit p).state = .eject ∧ (s.ejector p).node ≠ none) := fun ⟨hst, hn⟩ =>
        h.elim (fun hne => hne hst) hn
      simp [hno]
    · obtain ⟨hst, hn⟩ := not_or.mp h
      obtain ⟨n, hn⟩ := Option.ne_none_iff_exists'.mp hn
      obtain ⟨i, _, heq⟩ := howed n (Classical.not_not.mp hst) hn
      rw [heq]
      simp [withOwed, Classical.not_not.mp hst, hn]
  rw [offPresent_iff]
  simp only [hzone, hejector, exists_or, State.Drives]
  exact or_assoc

/-! ## The shutdown begins (R194) -/

/-- The frames that a shutdown places, EJECT_OFFs first. -/
theorem frames_placed (h : u.OffsPlaced t) : ∃ ejectors heaters : List OwnFrame,
    t.portD = { u.portD with own := u.portD.own ++ ejectors ++ heaters }
      ∧ (ejectors ++ heaters ≠ [] → t.portD.own.length ≤ 16)
      ∧ (∀ x ∈ ejectors, ∃ p o, (t.ejector p).offOwed = some o ∧ o.placed = true ∧ x = ejectOff u p o)
      ∧ ∀ x ∈ heaters, ∃ z o, o ∈ (t.zone z).offs ∧ o.placed = true ∧ x = heatOff u z o := by
  obtain ⟨hport, hzones, hejectors, _⟩ := h
  let first : List OwnFrame := (List.finRange 4).filterMap (pressWaiting u)
  let second := (List.finRange 48).flatMap (zoneWaiting u)
  have hframes : u.waitingOffs.take (16 - u.portD.own.length) =
      first.take (16 - u.portD.own.length) ++ second.take (16 - u.portD.own.length - first.length) := by
    rw [waitingOffs_eq, List.take_append]
  have hsent {x : OwnFrame} (hx : x ∈ u.waitingOffs.take (16 - u.portD.own.length)) :
      decide (x.mark ∈ (u.waitingOffs.take (16 - u.portD.own.length)).map OwnFrame.mark) = true :=
    decide_eq_true (List.mem_map_of_mem hx)
  refine ⟨first.take (16 - u.portD.own.length), second.take (16 - u.portD.own.length - first.length),
    hport.trans (by rw [hframes, ← List.append_assoc]), fun hne => ?_, fun x hx => ?_, fun x hx => ?_⟩
  · rw [hport]
    exact own_le_of_placed u.waitingOffs u (by rw [← hframes] at hne; exact hne)
  · have hmem : x ∈ u.waitingOffs.take (16 - u.portD.own.length) := by
      rw [hframes]
      exact List.mem_append_left _ hx
    obtain ⟨p, _, hp⟩ := List.mem_filterMap.mp (List.mem_of_mem_take hx)
    obtain ⟨o, ho, rfl⟩ := Option.map_eq_some_iff.mp hp
    obtain ⟨ho, _⟩ := Option.filter_eq_some_iff.mp ho
    refine ⟨p, { o with placed := true }, ?_, rfl, rfl⟩
    rw [hejectors, ho]
    refine congrArg some ?_
    dsimp only
    rw [show decide (Mark.ejectOff p o.number ∈ (u.waitingOffs.take (16 - u.portD.own.length)).map OwnFrame.mark) = true
      from hsent hmem, Bool.or_true]
  · have hmem : x ∈ u.waitingOffs.take (16 - u.portD.own.length) := by
      rw [hframes]
      exact List.mem_append_right _ hx
    obtain ⟨z, _, hz⟩ := List.mem_flatMap.mp (List.mem_of_mem_take hx)
    obtain ⟨o, ho, rfl⟩ := List.mem_map.mp hz
    obtain ⟨ho, _⟩ := List.mem_filter.mp ho
    refine ⟨z, { o with placed := true }, ?_, rfl, rfl⟩
    rw [hzones]
    refine List.mem_map.mpr ⟨o, ho, ?_⟩
    dsimp only
    rw [show decide (Mark.heaterOff z o.number ∈ (u.waitingOffs.take (16 - u.portD.own.length)).map OwnFrame.mark) = true
      from hsent hmem, Bool.or_true]

/-- The shutdown of a part that has something to command off. -/
theorem shutsDown_coldShutdown (hn : s.normal = true) (hd : s.Drives) : s.ShutsDown s.coldShutdown := by
  have hshut := shut_changes s
  have hn' : (shut s).normal = true := by
    rw [State.normal, ← hshut .mode (by decide)]
    exact hn
  have hplaced : (shut s).OffsPlaced s.coldShutdown := offsPlaced_placeOwed hn'
  have hport : (shut s).portD = s.portD := (hshut .portD (by decide)).symm
  have haddress : (shut s).ownAddress = s.ownAddress := by
    rw [ownAddress, ownAddress, ← hshut .mode (by decide)]
  have ⟨_, hzones, hejectors, hchanges⟩ := hplaced
  have hwaits := offWaits_placeOwed hn'
  rw [← coldShutdown_eq] at hwaits
  obtain ⟨hflag, hpending⟩ := shut_flags s
  refine ⟨?_, ?_, ?_, fun z => ?_, fun z => ?_, fun p => ?_, fun p => ?_, ?_, fun hw => ?_,
    ⟨shut s, hplaced, fun z hz => ?_, fun z h he hh => ?_, fun p hp => ?_, fun p n hst hn => ?_, hshut⟩,
    (hshut.mono (by decide)).trans (hchanges.mono (by decide))⟩
  · exact (hchanges .shutdown (by decide)).symm.trans hflag
  · exact (hchanges .resetPending (by decide)).symm.trans hpending
  · rw [offPresent_of_placed hplaced]
    exact offPresent_shut.mpr hd
  · obtain ⟨n, _, hz⟩ := zone_shut z s
    rw [hzones, hz]
    split
    · rw [shutZone_eq]
    · rfl
  · obtain ⟨n, _, hz⟩ := zone_shut z s
    refine (outputs_of_placed hplaced z).trans ?_
    rw [hz]
    cases hh : (s.zoneEntry z).heater with
    | none =>
      split
      · rfl
      · rfl
    | some h =>
      by_cases he : s.enabled z = true
      · rw [if_pos he]
        dsimp only
        rw [if_pos he]
        exact outputs_shutZone_some h n (s.zone z)
      · rw [if_neg he]
        dsimp only
        rw [if_neg he]
        rfl
  · obtain ⟨hkept, howed⟩ := ejector_shut p s
    by_cases h : (s.unit p).state ≠ .eject ∨ (s.ejector p).node = none
    · rw [hejectors, hkept h]
    · obtain ⟨hst, hn⟩ := not_or.mp h
      obtain ⟨n, hn⟩ := Option.ne_none_iff_exists'.mp hn
      obtain ⟨i, _, heq⟩ := howed n (Classical.not_not.mp hst) hn
      rw [hejectors, heq]
      rfl
  · obtain ⟨hkept, howed⟩ := ejector_shut p s
    rw [node_of_placed hplaced]
    by_cases h : (s.unit p).state = .eject ∧ (s.ejector p).node ≠ none
    · obtain ⟨hst, hn⟩ := h
      obtain ⟨n, hn⟩ := Option.ne_none_iff_exists'.mp hn
      obtain ⟨i, _, heq⟩ := howed n hst hn
      rw [heq, if_pos ⟨hst, by rw [hn]; exact Option.some_ne_none n⟩, hn]
      rfl
    · rw [if_neg h, hkept]
      by_cases hst : (s.unit p).state = .eject
      · exact .inr (Classical.not_not.mp fun hn => h ⟨hst, hn⟩)
      · exact .inl hst
  · obtain ⟨ejectors, heaters, hown, hlength, hejected, hheated⟩ := frames_placed hplaced
    rw [hport] at hown
    refine ⟨ejectors, heaters, hown, hlength, fun x hx => ?_, fun x hx => ?_⟩
    · obtain ⟨p, o, ho, hp, rfl⟩ := hejected x hx
      refine ⟨p, o, ho, hp, ?_⟩
      rw [ejectOff, haddress]
    · obtain ⟨z, o, ho, hp, rfl⟩ := hheated x hx
      refine ⟨z, o, ho, hp, ?_⟩
      rw [heatOff, haddress]
  · exact hwaits.resolve_left (by rw [hw]; decide)
  · obtain ⟨n, _, heq⟩ := zone_shut z s
    rw [heq]
    rcases hz with he | hh
    · rw [if_neg (Bool.eq_false_iff.mp he)]
    · rw [hh]
      split
      · rfl
      · rfl
  · obtain ⟨n, hn, heq⟩ := zone_shut z s
    refine ⟨n, hn, ?_⟩
    rw [heq, if_pos he, hh, offs_shutZone_some]
  · rw [(ejector_shut p s).1 hp]
  · obtain ⟨i, hi, heq⟩ := (ejector_shut p s).2 n hst hn
    exact ⟨i, hi, by rw [heq]; rfl⟩

/-! ## The commands of a shutdown (R194, R195) -/

theorem shut_placed (hn : s.normal = true) :
    s.coldShutdown.offPresent = (shut s).offPresent ∧ s.coldShutdown.shutdown = true := by
  have hn' : (shut s).normal = true := by
    rw [State.normal, ← shut_changes s .mode (by decide)]
    exact hn
  have hplaced : (shut s).OffsPlaced s.coldShutdown := offsPlaced_placeOwed hn'
  have ⟨_, _, _, hchanges⟩ := hplaced
  exact ⟨offPresent_of_placed hplaced, (hchanges .shutdown (by decide)).symm.trans (shut_flags s).1⟩

theorem takeDueReset_of_due (hs : s.resetPending = .due .cold) : s.takeDueReset = s.coldShutdown.endShutdown := by
  rw [takeDueReset, takeDue, hs]

theorem endShutdown_of_present (h : x.offPresent = true) : x.endShutdown = x :=
  if_neg (by rw [h, Bool.not_true, Bool.and_false]; decide)

theorem endShutdown_of_none (hs : x.shutdown = true) (h : x.offPresent = false) : x.endShutdown = x.coldEffect :=
  if_pos (by rw [hs, h]; rfl)

theorem takeDueReset_of_drives (hn : s.normal = true) (hs : s.resetPending = .due .cold) (hd : s.Drives) :
    s.takeDueReset = s.coldShutdown := by
  obtain ⟨hoff, hflag⟩ := shut_placed hn
  rw [takeDueReset_of_due hs, endShutdown_of_present (hoff.trans (offPresent_shut.mpr hd))]

theorem takeDueReset_of_idle (hn : s.normal = true) (hs : s.resetPending = .due .cold) (hd : ¬s.Drives) :
    s.takeDueReset = s.coldShutdown.coldEffect := by
  obtain ⟨hoff, hflag⟩ := shut_placed hn
  rw [takeDueReset_of_due hs, endShutdown_of_none hflag
    (hoff.trans (Bool.eq_false_of_not_eq_true (offPresent_shut.not.mpr hd)))]

theorem sending_coldShutdown (hn : s.normal = true) : s.coldShutdown.portD.sending = s.portD.sending := by
  have hn' : (shut s).normal = true := by
    rw [State.normal, ← shut_changes s .mode (by decide)]
    exact hn
  obtain ⟨hport, _⟩ := offsPlaced_placeOwed hn'
  rw [coldShutdown_eq, hport, ← shut_changes s .portD (by decide)]

/-- A COLD reset with nothing to command off leaves the transmissions under way, and the strap. -/
theorem endsCold_coldShutdown (hn : s.normal = true) : s.coldShutdown.coldEffect.HoldsPowerOn s.strap
    ∧ s.coldShutdown.coldEffect.pending = s.pending ∧ s.coldShutdown.coldEffect.strap = s.strap
    ∧ s.coldShutdown.coldEffect.portU.sending = s.portU.sending
    ∧ s.coldShutdown.coldEffect.portD.sending = s.portD.sending := by
  have hchanges := coldShutdown_changes s
  have hpending : s.coldShutdown.pending = s.pending := (hchanges .pending (by decide)).symm
  have hstrap : s.coldShutdown.strap = s.strap := (hchanges .strap (by decide)).symm
  have hportU : s.coldShutdown.portU = s.portU := (hchanges .portU (by decide)).symm
  have hportD := sending_coldShutdown hn
  generalize s.coldShutdown = x at hpending hstrap hportU hportD ⊢
  rw [← hpending, ← hstrap, ← hportU, ← hportD]
  exact ⟨holdsPowerOn_coldEffect x, rfl, rfl, rfl, rfl⟩

/-- Every frame of a port is received before it is sorted. -/
theorem exec_frameOn (p : Port) : ∀ c ∈ framesOn p, ∀ bytes s, exec (c bytes) s = running (receive p bytes) s := by
  cases p with
  | U =>
    repeat refine List.forall_mem_cons.mpr ⟨fun _ _ => rfl, ?_⟩
    exact fun _ h => nomatch h
  | D =>
    repeat refine List.forall_mem_cons.mpr ⟨fun _ _ => rfl, ?_⟩
    exact fun _ h => nomatch h

theorem not_live_of_shutdown (h : s.shutdown = true) : s.live = false := by
  rw [live, h]
  split <;> rfl

/-- Without service an accepted frame is forwarded, if there is room. -/
theorem receive_of_shutdown (h : s.shutdown = true) (hp : parseFrame bytes = some f) (p : Port) : receive p bytes s =
    if (s.port p.other).fwd.length < 24 then
      s.linkActivity.modPort p.other fun x => { x with fwd := x.fwd ++ [bytes] }
    else s.linkActivity := by
  have hlive : s.linkActivity.live = false := not_live_of_shutdown (s := s.linkActivity) h
  have hport : s.linkActivity.port p.other = s.port p.other := by cases p <;> rfl
  rw [receive, hp]
  dsimp only
  unfold accepted
  dsimp only
  rw [hlive, if_neg Bool.false_ne_true, parseFrame_bytes hp, forwardTo, hport, hlive]
  rfl

theorem receive_of_bad_shutdown (h : s.shutdown = true) (hp : parseFrame bytes = none) (p : Port) :
    receive p bytes s = s := by
  rw [receive, hp]
  dsimp only
  rw [checkFailed, not_live_of_shutdown h, if_neg Bool.false_ne_true]

theorem exportMoves_of_shutdown (h : s.shutdown = true) : s.exportMoves = s := by
  have hmove : s.canMove = false := by simp [canMove, not_live_of_shutdown h]
  unfold exportMoves
  cases s.exportQueue.length with
  | zero => rfl
  | succ n => rw [moveHeads, hmove, if_neg Bool.false_ne_true]

/-- No timer is due during a shutdown. -/
theorem not_due_of_shutdown (h : s.shutdown = true) (p : PressNo) (k : ScaleNo) :
    s.windowDue p = false ∧ s.dwellDue p = false ∧ s.maxCureDue p = false ∧ s.closeTimerDue p = false
      ∧ s.compareADue p = false ∧ s.compareBDue p = false ∧ s.liftDue k = false := by
  simp [windowDue, dwellDue, maxCureDue, closeTimerDue, compareADue, compareBDue, ejectorDue, liftDue, h]

theorem shutdownGoesOn (hheld : s.resetHeld = false) (hdue : s.resetPending.isDue = false)
    (hoff : s.offPresent = true) (g : State → State) : running g s = .next (g s) :=
  running_of_quiet ⟨hheld, hdue, fun _ => hoff⟩ g

/-- Settles O60: the shutdown or the reset at once; in the shutdown frames pass and timers rest; its end is the reset. -/
theorem coldResetEffect : Obligations.ColdResetEffect := by
  intro s own hheld hmode
  have hn : s.normal = true := by rw [State.normal, hmode]
  have hrun (g : State → State) : running g s = .next (g s.takeDueReset) := by
    rw [running, hheld, if_neg Bool.false_ne_true]
  have htimer (hoff : s.offPresent = true) (hdue : s.resetPending.isDue = false) (c : State → Bool)
      (g : State → State) (hc : c s = false) : running (fun x => doIf (c x) g x) s = .next s := by
    rw [shutdownGoesOn hheld hdue hoff, hc]
    rfl
  refine ⟨fun _ hdue => ⟨fun hd => ⟨s.coldShutdown, ?_, shutsDown_coldShutdown hn hd⟩,
    fun hd => ⟨s.coldShutdown.coldEffect, ?_, endsCold_coldShutdown hn⟩⟩, fun hs hdue hoff =>
      ⟨fun p bytes c hc => ?_, ?_⟩, fun hs hdue => ⟨fun hoff => ⟨?_, fun p => ?_, fun k => ?_⟩, fun hoff => ?_⟩⟩
  · exact (hrun id).trans (congrArg Host.Outcome.next (takeDueReset_of_drives hn hdue hd))
  · exact (hrun id).trans (congrArg Host.Outcome.next (takeDueReset_of_idle hn hdue hd))
  · rw [exec_frameOn p c hc, shutdownGoesOn hheld hdue hoff]
    refine ⟨fun f hf => ?_, fun hf => ?_⟩
    · rw [receive_of_shutdown hs hf]
    · rw [receive_of_bad_shutdown hs hf]
  · exact (shutdownGoesOn hheld hdue hoff _).trans (congrArg Host.Outcome.next (exportMoves_of_shutdown hs))
  · exact shutdownGoesOn hheld hdue hoff id
  · obtain ⟨hwindow, hdwell, hcure, hclose, hA, hB, _⟩ := not_due_of_shutdown hs p 0
    exact ⟨htimer hoff hdue (fun x => x.windowDue p) _ hwindow, htimer hoff hdue (fun x => x.dwellDue p) _ hdwell,
      htimer hoff hdue (fun x => x.maxCureDue p) _ hcure, htimer hoff hdue (fun x => x.closeTimerDue p) _ hclose,
      htimer hoff hdue (fun x => x.compareADue p) _ hA, htimer hoff hdue (fun x => x.compareBDue p) _ hB⟩
  · obtain ⟨_, _, _, _, _, _, hlift⟩ := not_due_of_shutdown hs 0 k
    exact htimer hoff hdue (fun x => x.liftDue k) _ hlift
  · exact ⟨s.coldEffect, running_of_shutdown hheld hdue hs hoff id, holdsPowerOn_coldEffect s, rfl, rfl, rfl, rfl⟩

end Sys2Proof.Proofs.ColdResets
end

