-- ==== Sys2Proof/Proofs/WarmUnits.lean ====
section
/-! PROOFS. The press units of a WARM reset (R193 step 4): while it is taken no attention is evaluated and no frame
placed, and the reset of one press leaves the others' parts and, of the ring, all but its own record. -/

namespace Sys2Proof.Proofs.WarmUnits

set_option Elab.async false

open Sys2Proof.Machine Sys2Proof.Machine.State Sys2Proof.Proofs.StepRules Sys2Proof.Proofs.CycleViews
  Sys2Proof.Proofs.CureRules Sys2Proof.Proofs.HeatLaws Sys2Proof.Proofs.Events Sys2Proof.Proofs.OtherPresses
  Sys2Proof.Proofs.ClosedSlots Sys2Proof.Proofs.RecordCloses Sys2Proof.Proofs.Ejections Sys2Proof.Proofs.Queues
  Sys2Proof.Proofs.PressRequests Sys2Proof.Proofs.PressResets Sys2Proof.Proofs.Timers Sys2Proof.Proofs.CycleStarts
  Sys2Proof.Proofs.CycleLaw Sys2Proof.Proofs.Evaluations

variable {s t u x : State} {p q : PressNo} {i : Fin 512} {tm : Time} {r : Record} {cause : CloseCause} {n : Nat}

/-! ## Events and frames while the reset is taken (R185, R193) -/

theorem raiseEntry_changes (tm : Time) (k : EventKind) (o : EventOn) (s : State) :
    OnlyChanges [.events, .history] s (s.raiseEntry tm k o) := by
  unfold raiseEntry noteEvent
  refine each_rule (Q := OnlyChanges [.events, .history] s)
    (fun p {_} h => h.trans ((modRecord_changes p _ _).mono (by decide))) _ fun y hy => ?_
  cases y <;> first | rfl | exact absurd hy (by decide)

theorem raise_of_warm (hl : s.live = true) (hw : s.warmTaking = true) (k : EventKind) (o : EventOn) :
    s.raise tm k o = s.raiseEntry tm k o := by
  have hwarm : (s.raiseEntry tm k o).warmTaking = true := by
    rw [← raiseEntry_changes tm k o s .warmTaking (by decide)]
    exact hw
  rw [raise_of_live hl, evalAttention, if_pos hwarm]

theorem warmRaise_changes (hw : s.warmTaking = true) (k : EventKind) (o : EventOn) :
    OnlyChanges [.events, .history] s (s.raise tm k o) := by
  cases hl : s.live with
  | true =>
    rw [raise_of_warm hl hw]
    exact raiseEntry_changes tm k o s
  | false =>
    rw [State.raise, hl, if_neg Bool.false_ne_true]
    exact .refl s

theorem warmHand_changes (hw : s.warmTaking = true) (r : Record) :
    OnlyChanges [.exportQueue, .events] s (handToExport r s) := by
  have hqueue (l : List Nat) : OnlyChanges [.exportQueue, .events] s { s with exportQueue := l } := fun y hy => by
    cases y <;> first | rfl | exact absurd hy (by decide)
  unfold handToExport
  repeat' split
  · rw [exportMoves_of_warm (s := { s with exportQueue := s.exportQueue ++ [r.serial] }) hw]
    exact hqueue _
  · intro y hy
    by_cases hh : y = .history
    · subst hh
      exact (history_raiseNothing _ _).symm
    · exact warmRaise_changes hw _ _ y fun hm => by
        simp only [List.mem_cons, List.not_mem_nil, or_false] at hm hy
        exact hm.elim (fun h => hy (.inr h)) hh
  · exact .refl s

/-- At most one serial joins the queue of the records that are sent. -/
theorem length_handToExport (hw : s.warmTaking = true) (r : Record) :
    (handToExport r s).exportQueue.length ≤ s.exportQueue.length + 1 := by
  unfold handToExport
  repeat' split
  · rw [exportMoves_of_warm (s := { s with exportQueue := s.exportQueue ++ [r.serial] }) hw]
    exact Nat.le_of_eq List.length_append
  · rw [raiseNow, ← warmRaise_changes hw _ _ .exportQueue (by decide)]
    exact Nat.le_succ _
  · exact Nat.le_succ _

/-! ## What a record and the ring keep -/

/-- A record that has closed with RESET_ABORT. -/
def ResetAborted (r : Record) : Prop := r.state = .closed ∧ r.outcome = some .aborted ∧ r.flags.getLsbD 16 = true

/-- What the resets keep of a record. -/
def Ages (r x : Record) : Prop :=
  x.serial = r.serial ∧ x.profileBuffer = r.profileBuffer ∧ (ResetAborted r → ResetAborted x)

theorem Ages.refl (r : Record) : Ages r r := ⟨rfl, rfl, id⟩

theorem Ages.trans {y : Record} {w : Record} (h : Ages r y) (g : Ages y w) : Ages r w := by
  obtain ⟨hserial, hbuffer, haborted⟩ := h
  obtain ⟨gserial, gbuffer, gaborted⟩ := g
  exact ⟨gserial.trans hserial, gbuffer.trans hbuffer, fun hr => gaborted (haborted hr)⟩

theorem resetAborted_closedRecord (tm : Time) (r : Record) : ResetAborted (closedRecord .warmReset tm r) := by
  refine ⟨rfl, outcome_closedRecord_of_aborts (.inr (.inr rfl)), ?_⟩
  rw [closedRecord_eq]
  exact flags_set r .resetAbort

theorem ages_closedRecord (tm : Time) (r : Record) : Ages r (closedRecord .warmReset tm r) :=
  ⟨rfl, rfl, fun _ => resetAborted_closedRecord tm r⟩

theorem ages_addNote (n : Note) (r : Record) : Ages r (addNote n r) := by
  rw [addNote_only]
  exact ⟨rfl, rfl, id⟩

/-- The ring after the reset of a press: only its OPEN record and its slot may differ, and every record has aged. -/
structure Rings (q : PressNo) (s t : State) : Prop where
  rest : t.history = { s.history with slots := t.history.slots, openRecord := t.history.openRecord }
  others : ∀ p : PressNo, p ≠ q → t.history.openRecord[p] = s.history.openRecord[p]
  own : t.history.openRecord[q] = s.history.openRecord[q] ∨ t.history.openRecord[q] = none
  slots : ∀ i : Fin 512, s.history.openRecord[q] ≠ some i → t.history.slots[i] = s.history.slots[i]
  held : ∀ i : Fin 512, (t.history.slots[i]).isSome = (s.history.slots[i]).isSome
  ages : ∀ (i : Fin 512) r x, s.history.slots[i] = some r → t.history.slots[i] = some x → Ages r x

theorem rings_of_history (h : t.history = s.history) (q : PressNo) : Rings q s t where
  rest := by rw [h]
  others _ _ := by rw [h]
  own := .inl (by rw [h])
  slots _ _ := by rw [h]
  held _ := by rw [h]
  ages i r x hr hx := by
    rw [h, hr, Option.some.injEq] at hx
    exact hx ▸ .refl r

theorem rings_of_changes {ps : List Part} (h : OnlyChanges ps s t) (q : PressNo)
    (hps : Part.history ∉ ps := by decide) : Rings q s t := rings_of_history (h .history hps).symm q

theorem rings_events (ev : Vector EventEntry 25) (q : PressNo) : Rings q s { s with events := ev } :=
  rings_of_history (s := s) (t := { s with events := ev }) rfl q

theorem Rings.trans (h : Rings q s t) (g : Rings q t u) : Rings q s u where
  rest := by rw [g.rest, h.rest]
  others p hp := (g.others p hp).trans (h.others p hp)
  own := by
    rcases g.own with g | g
    · rw [g]
      exact h.own
    · exact .inr g
  slots i hi := by
    refine (g.slots i ?_).trans (h.slots i hi)
    rcases h.own with h | h
    · rw [h]
      exact hi
    · rw [h]
      exact nofun
  held i := (g.held i).trans (h.held i)
  ages i r x hr hx := by
    have hsome : (t.history.slots[i]).isSome = true := by rw [h.held i, hr]; rfl
    obtain ⟨w, hw⟩ := Option.isSome_iff_exists.mp hsome
    exact (h.ages i r w hr hw).trans (g.ages i w x hw hx)

theorem rings_modRecord (q : PressNo) {g : Record → Record} (hg : ∀ r, Ages r (g r)) (s : State) :
    Rings q s (s.modRecord q g) where
  rest := by
    unfold modRecord
    split
    · rfl
    · rfl
  others p _ := by rw [modRecord_history_openRecord]
  own := .inl (by rw [modRecord_history_openRecord])
  slots i hi := by rw [slots_modRecord, if_neg hi]
  held i := by
    rw [slots_modRecord]
    split
    · exact Option.isSome_map
    · rfl
  ages i r x hr hx := by
    rw [slots_modRecord, hr] at hx
    split at hx
    · exact Option.some.inj hx ▸ hg r
    · exact Option.some.inj hx ▸ .refl r

theorem rings_warmRaise (hw : s.warmTaking = true) (k : EventKind) (q : PressNo) :
    Rings q s (s.raise tm k (.press q)) := by
  cases hl : s.live with
  | true =>
    rw [raise_of_warm hl hw]
    have hnoted := rings_modRecord q (ages_addNote { time := tm, kind := k, inst := (EventOn.press q).code })
      { s with events := s.events.set k.number (raisedEntry tm (EventOn.press q).code s.events[k.number]) }
    rw [raiseEntry, noteEvent, show ∀ ev, notedPresses { s with events := ev } (.press q) = [q] from fun _ => rfl,
      each_cons, each_nil]
    exact (rings_events _ q).trans hnoted
  | false =>
    rw [State.raise, hl, if_neg Bool.false_ne_true]
    exact rings_of_history rfl q

/-- A record that closes in its slot. -/
theorem rings_of_closed (hi : s.history.openRecord[p] = some i) (hr : s.history.slots[i] = some r)
    (h : t.history = { s.history with
      slots := s.history.slots.set i (some (closedRecord .warmReset tm r))
      openRecord := s.history.openRecord.set p none }) : Rings p s t := by
  have hslot : t.history.slots[i] = some (closedRecord .warmReset tm r) := by
    rw [h]
    exact Vector.getElem_set_self i.isLt
  have hother (j : Fin 512) (hj : j ≠ i) : t.history.slots[j] = s.history.slots[j] := by
    rw [h]
    exact Vector.getElem_set_ne i.isLt j.isLt fun he => hj (Fin.ext he.symm)
  refine ⟨by rw [h], fun q hq => ?_, .inr ?_, fun j hj => ?_, fun j => ?_, fun j y x hy hx => ?_⟩
  · rw [h]
    exact Vector.getElem_set_ne p.isLt q.isLt fun he => hq (Fin.ext he.symm)
  · rw [h]
    exact Vector.getElem_set_self p.isLt
  · exact hother j fun he => hj (he ▸ hi)
  · by_cases hj : j = i
    · rw [hj, hslot, hr]
      rfl
    · rw [hother j hj]
  · by_cases hj : j = i
    · subst hj
      rw [hr, Option.some.injEq] at hy
      rw [hslot, Option.some.injEq] at hx
      subst hy hx
      exact ages_closedRecord tm r
    · rw [hother j hj, hy, Option.some.injEq] at hx
      exact hx ▸ .refl y

/-! ## The close of a record -/

theorem closeRecord_of_none (h : s.openRecord p = none) : s.closeRecord p cause tm = s := by rw [closeRecord, h]

/-- The closed record in its slot. -/
def closedState (p : PressNo) (i : Fin 512) (x : Record) (s : State) : State :=
  let closed := s.modHistory fun h => { h with slots := h.slots.set i (some x), openRecord := h.openRecord.set p none }
  match x.profileBuffer with
  | some b => closed.modProfile p b fun y => { y with phase := .complete }
  | none => closed

theorem closeRecord_of_some (hi : s.history.openRecord[p] = some i) (hr : s.history.slots[i] = some r) :
    s.closeRecord p cause tm =
      handToExport (closedRecord cause tm r) (closedState p i (closedRecord cause tm r) s) := by
  refine (closeRecord_eq hi hr).trans ?_
  rfl

theorem history_closedState (p : PressNo) (i : Fin 512) (y : Record) (s : State) : (closedState p i y s).history =
    { s.history with slots := s.history.slots.set i (some y), openRecord := s.history.openRecord.set p none } := by
  unfold closedState
  dsimp only
  split
  · rfl
  · rfl

theorem closedState_changes (p : PressNo) (i : Fin 512) (y : Record) (s : State) :
    OnlyChanges [.history, .profiles] s (closedState p i y s) := by
  unfold closedState
  dsimp only
  split
  · exact ((modHistory_changes _ s).mono (by decide)).trans ((modProfile_changes _ _ _ _).mono (by decide))
  · exact (modHistory_changes _ s).mono (by decide)

theorem warm_closedState (hw : s.warmTaking = true) (y : Record) : (closedState p i y s).warmTaking = true := by
  rw [← closedState_changes p i y s .warmTaking (by decide)]
  exact hw

/-- Whether the record of a press is there. -/
theorem openRecord_cases (s : State) (p : PressNo) : s.openRecord p = none
    ∨ ∃ i r, s.history.openRecord[p] = some i ∧ s.history.slots[i] = some r := by
  cases h : s.openRecord p with
  | none => exact .inl rfl
  | some r =>
    obtain ⟨i, hi, hr⟩ := Option.bind_eq_some_iff.mp h
    exact .inr ⟨i, r, hi, hr⟩

theorem warmClose_changes (hw : s.warmTaking = true) (p : PressNo) :
    OnlyChanges [.history, .profiles, .exportQueue, .events] s (s.closeRecord p cause tm) := by
  rcases openRecord_cases s p with h | ⟨i, r, hi, hr⟩
  · rw [closeRecord_of_none h]
    exact .refl s
  · rw [closeRecord_of_some hi hr]
    exact ((closedState_changes p i _ s).mono (by decide)).trans
      ((warmHand_changes (warm_closedState hw _) _).mono (by decide))

theorem length_warmClose (hw : s.warmTaking = true) (p : PressNo) :
    (s.closeRecord p cause tm).exportQueue.length ≤ s.exportQueue.length + 1 := by
  rcases openRecord_cases s p with h | ⟨i, r, hi, hr⟩
  · rw [closeRecord_of_none h]
    exact Nat.le_succ _
  · rw [closeRecord_of_some hi hr, show s.exportQueue = (closedState p i (closedRecord cause tm r) s).exportQueue from
      closedState_changes p i _ s .exportQueue (by decide)]
    exact length_handToExport (warm_closedState hw _) _

theorem rings_warmClose (hw : s.warmTaking = true) (p : PressNo) : Rings p s (s.closeRecord p .warmReset tm) := by
  rcases openRecord_cases s p with h | ⟨i, r, hi, hr⟩
  · rw [closeRecord_of_none h]
    exact rings_of_history rfl p
  · have hhistory : (s.closeRecord p .warmReset tm).history = { s.history with
        slots := s.history.slots.set i (some (closedRecord .warmReset tm r))
        openRecord := s.history.openRecord.set p none } := by
      rw [closeRecord_of_some hi hr, ← warmHand_changes (warm_closedState hw _) _ .history (by decide),
        history_closedState]
    exact rings_of_closed hi hr hhistory

/-! ## The reset of one press while the WARM reset is taken -/

/-- The state in which the units of a WARM reset are reset: no frame is placed, and no queue is waited in. -/
def Taking (s : State) : Prop := s.warmTaking = true ∧ ∀ k : ScaleNo, (s.scale k).queue = []

/-- What the reset of a press may change. -/
def unitParts : List Part := [.units, .cures, .history, .ejectors, .offNumber, .profiles, .exportQueue, .events]

theorem taking_of_changes (h : OnlyChanges unitParts s t) (hs : Taking s) : Taking t := by
  obtain ⟨hw, hq⟩ := hs
  exact ⟨(h .warmTaking (by decide)).symm.trans hw, fun k => by rw [scale_of_changes h k]; exact hq k⟩

/-- Nothing is placed when an ejection is cut short. -/
theorem cutEjection_of_taking (hw : s.warmTaking = true) (h : (s.ejector p).phase ≠ .stopped) :
    s.cutEjection p = (s.oweEjectOff p).modEjector p (Ejector.stopIn .stopped) := by
  rw [cutEjection_of_running h, owedPlaced, hw]
  rfl

theorem warmCut_changes (hw : s.warmTaking = true) (p : PressNo) :
    OnlyChanges [.cures, .history, .ejectors, .offNumber] s (cut p s) := by
  have hcure (x : State) : OnlyChanges [.cures, .history, .ejectors, .offNumber] x (x.endCure p s.timebase) :=
    (endCure_changes p _ x).mono (by decide)
  have hended : OnlyChanges [.cures, .history, .ejectors, .offNumber] s
      (doIf ((s.unit p).state == .cure) (endCure p s.timebase) s) := .doIf _ hcure (.refl s)
  have hended' : (doIf ((s.unit p).state == .cure) (endCure p s.timebase) s).warmTaking = true :=
    (hended .warmTaking (by decide)).symm.trans hw
  refine doIf_rule (Q := fun x => x.warmTaking = true ∧ OnlyChanges [.cures, .history, .ejectors, .offNumber] s x)
    (Q' := fun x => OnlyChanges [.cures, .history, .ejectors, .offNumber] s x) (fun ⟨hw, h⟩ _ => h.trans ?_)
    (fun h => h.2) ⟨hended', hended⟩
  generalize doIf ((s.unit p).state == .cure) (endCure p s.timebase) s = x at hw
  by_cases hp : (x.ejector p).phase = .stopped
  · rw [cutEjection_of_stopped hp]
    exact .refl x
  · rw [cutEjection_of_taking hw hp]
    exact ((oweEjectOff_changes p x).mono (by decide)).trans ((modEjector_changes p _ _).mono (by decide))

theorem warmCycle_changes (hw : s.warmTaking = true) (p : PressNo) :
    OnlyChanges [.cures, .history, .ejectors, .offNumber, .profiles, .exportQueue, .events] s
      (s.cutCycle p cause) := by
  have hcut := warmCut_changes hw p
  have hw' : (cut p s).warmTaking = true := (hcut .warmTaking (by decide)).symm.trans hw
  rw [cutCycle_eq]
  by_cases hc : (s.unit p).state.inCycle = true
  · rw [doIf_of hc]
    exact (hcut.mono (by decide)).trans ((warmClose_changes hw' p).mono (by decide))
  · rw [doIf_of_not hc]
    exact hcut.mono (by decide)

theorem leaveQueue_of_empty (hq : ∀ k : ScaleNo, (s.scale k).queue = []) (p : PressNo) : s.leaveQueue p = s := by
  have hno (k : ScaleNo) : ¬Queued s p k := fun ⟨q, hm, _⟩ => by
    rw [hq k] at hm
    cases hm
  rw [leaveQueue_eq, leaveOne_of_not (hno 0), leaveOne_of_not (hno 1)]

theorem warmGive_changes (hs : Taking s) (p : PressNo) :
    OnlyChanges [.units, .events, .history] s (s.giveUpCharge p) := by
  obtain ⟨hw, hq⟩ := hs
  by_cases hwait : (s.unit p).state = .chargeWait
  · rw [giveUpCharge_of_wait hwait, leaveQueue_of_empty hq]
    exact .refl s
  · by_cases hready : (s.unit p).state = .chargeReady
    · rw [giveUpCharge_of_ready hready]
      exact ((modUnit_changes p _ s).mono (by decide)).trans
        ((warmRaise_changes (s := s.modUnit p _) hw _ _).mono (by decide))
    · rw [giveUpCharge_of_other hwait hready]
      exact .refl s

theorem warmReset_changes (hs : Taking s) (p : PressNo) : OnlyChanges unitParts s (reset p cause s) := by
  have hcut : OnlyChanges unitParts s (s.cutCycle p cause) := (warmCycle_changes hs.1 p).mono (by decide)
  exact hcut.trans (((warmGive_changes (taking_of_changes hcut hs) p).mono (by decide)).trans
    ((modUnit_changes p _ _).mono (by decide)))

/-- The reset of a press is that of a bound unit, or a change of its unit alone. -/
theorem resetUnit_cases (p : PressNo) (cause : CloseCause) (s : State) :
    ((s.unit p).state = .disabled ∧ s.resetUnit p cause = s)
      ∨ ((s.unit p).state = .idle ∧ s.resetUnit p cause = s.modUnit p fun u => { u with bindFault := .none })
      ∨ ((s.unit p).state ≠ .disabled ∧ (s.unit p).state ≠ .idle ∧ s.resetUnit p cause = reset p cause s) := by
  by_cases hd : (s.unit p).state = .disabled
  · exact .inl ⟨hd, by rw [resetUnit, hd]⟩
  · by_cases hi : (s.unit p).state = .idle
    · exact .inr (.inl ⟨hi, by rw [resetUnit, hi]⟩)
    · exact .inr (.inr ⟨hd, hi, resetUnit_of_bound hd hi⟩)

theorem warmUnit_changes (hs : Taking s) (p : PressNo) : OnlyChanges unitParts s (s.resetUnit p .warmReset) := by
  rcases resetUnit_cases p .warmReset s with ⟨_, h⟩ | ⟨_, h⟩ | ⟨_, _, h⟩
  · rw [h]
    exact .refl s
  · rw [h]
    exact (modUnit_changes p _ s).mono (by decide)
  · rw [h]
    exact warmReset_changes hs p

theorem length_warmUnit (hs : Taking s) (p : PressNo) :
    (s.resetUnit p .warmReset).exportQueue.length ≤ s.exportQueue.length + 1 := by
  rcases resetUnit_cases p .warmReset s with ⟨_, h⟩ | ⟨_, h⟩ | ⟨_, _, h⟩
  · rw [h]
    exact Nat.le_succ _
  · rw [h]
    exact Nat.le_succ _
  · have hcut := warmCut_changes hs.1 p
    have hw' : (cut p s).warmTaking = true := (hcut .warmTaking (by decide)).symm.trans hs.1
    have hcycle : OnlyChanges unitParts s (s.cutCycle p .warmReset) := (warmCycle_changes hs.1 p).mono (by decide)
    have hafter : OnlyChanges [.units, .events, .history] (s.cutCycle p .warmReset) (reset p .warmReset s) :=
      (warmGive_changes (taking_of_changes hcycle hs) p).trans ((modUnit_changes p _ _).mono (by decide))
    rw [h, ← hafter .exportQueue (by decide), cutCycle_eq, hcut .exportQueue (by decide)]
    by_cases hc : (s.unit p).state.inCycle = true
    · rw [doIf_of hc]
      exact length_warmClose hw' p
    · rw [doIf_of_not hc]
      exact Nat.le_succ _

theorem rings_cut (p : PressNo) (s : State) : Rings p s (cut p s) := by
  have hcure (x : State) : Rings p x (x.endCure p s.timebase) := by
    rw [endCure]
    refine Rings.trans ?_ (rings_modRecord p (g := fun r =>
      { r with cureEnd := some s.timebase, cureAchieved := (x.cure p).progress }) (fun r => ⟨rfl, rfl, id⟩) _)
    exact rings_of_changes (modCure_changes p _ x) p
  exact doIf_rule (Q := Rings p s) (Q' := Rings p s)
    (fun h _ => h.trans (rings_of_changes (cutEjection_changes p _) p)) id
    (doIf_rule (Q := Rings p s) (Q' := Rings p s) (fun h _ => h.trans (hcure _)) id (rings_of_history rfl p))

theorem rings_warmGive (hs : Taking s) (p : PressNo) : Rings p s (s.giveUpCharge p) := by
  obtain ⟨hw, hq⟩ := hs
  by_cases hwait : (s.unit p).state = .chargeWait
  · rw [giveUpCharge_of_wait hwait, leaveQueue_of_empty hq]
    exact rings_of_history rfl p
  · by_cases hready : (s.unit p).state = .chargeReady
    · rw [giveUpCharge_of_ready hready]
      exact (rings_of_changes (modUnit_changes p _ s) p).trans (rings_warmRaise (s := s.modUnit p _) hw _ p)
    · rw [giveUpCharge_of_other hwait hready]
      exact rings_of_history rfl p

/-- The ring under the reset of a press. -/
theorem rings_warmUnit (hs : Taking s) (p : PressNo) : Rings p s (s.resetUnit p .warmReset) := by
  rcases resetUnit_cases p .warmReset s with ⟨_, h⟩ | ⟨_, h⟩ | ⟨_, _, h⟩
  · rw [h]
    exact rings_of_history rfl p
  · rw [h]
    exact rings_of_changes (modUnit_changes p _ s) p
  · rw [h]
    have hcut := warmCut_changes hs.1 p
    have hw' : (cut p s).warmTaking = true := (hcut .warmTaking (by decide)).symm.trans hs.1
    have hringcut : Rings p s (cut p s) := rings_cut p s
    have hringcycle : Rings p s (s.cutCycle p .warmReset) := by
      rw [cutCycle_eq]
      by_cases hc : (s.unit p).state.inCycle = true
      · rw [doIf_of hc]
        exact hringcut.trans (rings_warmClose hw' p)
      · rw [doIf_of_not hc]
        exact hringcut
    have hcycle : OnlyChanges unitParts s (s.cutCycle p .warmReset) := (warmCycle_changes hs.1 p).mono (by decide)
    exact (hringcycle.trans (rings_warmGive (taking_of_changes hcycle hs) p)).trans
      (rings_of_changes (modUnit_changes p _ _) p)

end Sys2Proof.Proofs.WarmUnits
end

