-- ==== Sys2Proof/Proofs/WarmPresses.lean ====
section
/-! PROOFS. The press units of a WARM reset, one after another (R142, R193 step 4): what the reset of a press does to
its own parts, and that the resets of the others leave them. -/

namespace Sys2Proof.Proofs.WarmPresses

set_option Elab.async false

open Sys2Proof.Machine Sys2Proof.Machine.State Sys2Proof.Proofs.StepRules Sys2Proof.Proofs.CycleViews
  Sys2Proof.Proofs.CureRules Sys2Proof.Proofs.HeatLaws Sys2Proof.Proofs.Ejections Sys2Proof.Proofs.PressResets
  Sys2Proof.Proofs.Timers Sys2Proof.Proofs.CycleStarts Sys2Proof.Proofs.WarmUnits Sys2Proof.Proofs.Queues
  Sys2Proof.Proofs.ClosedSlots Sys2Proof.Proofs.Evaluations Sys2Proof.Proofs.PressRequests

variable {s t u : State} {p q : PressNo} {i : Fin 512} {r : Record} {cause : CloseCause} {n : Nat} {ps : List Part}

/-! ## The parts of a press -/

/-- What the reset of another press leaves: of the record only that it ages. -/
structure Spares (p : PressNo) (s t : State) : Prop where
  unit : t.unit p = s.unit p
  cure : t.cure p = s.cure p
  ejector : t.ejector p = s.ejector p
  profile : ∀ b, t.profile p b = s.profile p b
  opened : t.history.openRecord[p] = s.history.openRecord[p]
  held : ∀ i : Fin 512, (t.history.slots[i]).isSome = (s.history.slots[i]).isSome
  ages : ∀ (i : Fin 512) r x, s.history.slots[i] = some r → t.history.slots[i] = some x → Ages r x
  time : t.timebase = s.timebase

theorem Spares.refl (p : PressNo) (s : State) : Spares p s s where
  unit := rfl
  cure := rfl
  ejector := rfl
  profile _ := rfl
  opened := rfl
  held _ := rfl
  ages i r x hr hx := by
    rw [hr, Option.some.injEq] at hx
    exact hx ▸ .refl r
  time := rfl

theorem Spares.slot (h : Spares p s t) (hr : s.history.slots[i] = some r) :
    ∃ x, t.history.slots[i] = some x ∧ Ages r x := by
  have hsome : (t.history.slots[i]).isSome = true := by rw [h.held i, hr]; rfl
  obtain ⟨x, hx⟩ := Option.isSome_iff_exists.mp hsome
  exact ⟨x, hx, h.ages i r x hr hx⟩

theorem Spares.trans (h : Spares p s t) (g : Spares p t u) : Spares p s u where
  unit := g.unit.trans h.unit
  cure := g.cure.trans h.cure
  ejector := g.ejector.trans h.ejector
  profile b := (g.profile b).trans (h.profile b)
  opened := g.opened.trans h.opened
  held i := (g.held i).trans (h.held i)
  ages i r x hr hx := by
    obtain ⟨w, hw, haged⟩ := h.slot hr
    exact haged.trans (g.ages i w x hw hx)
  time := g.time.trans h.time

/-- The record of a press has closed with RESET_ABORT, and its profile is complete. -/
def ClosedFor (p : PressNo) (i : Fin 512) (r : Record) (t : State) : Prop :=
  t.history.openRecord[p] = none
    ∧ (∃ x, t.history.slots[i] = some x ∧ Ages r x ∧ ResetAborted x)
    ∧ ∀ b, r.profileBuffer = some b → (t.profile p b).phase = .complete

/-- What the reset of a press does to its own parts. -/
structure ResetOf (p : PressNo) (s t : State) : Prop where
  disabled : (s.unit p).state = .disabled → t.unit p = s.unit p
  idle : (s.unit p).state = .idle → t.unit p = { s.unit p with bindFault := .none }
  bound : (s.unit p).state ∉ [.disabled, .idle] → t.unit p = (s.unit p).afterReset
  outside : (s.unit p).state.inCycle = false → t.history.openRecord[p] = s.history.openRecord[p]
    ∧ ∀ b, t.profile p b = s.profile p b
  phases : ∀ b, t.profile p b = { s.profile p b with phase := (t.profile p b).phase }
  closed : (s.unit p).state.inCycle = true → ∀ i r, s.history.openRecord[p] = some i →
    s.history.slots[i] = some r → ClosedFor p i r t
  cured : (s.unit p).state = .cure → (s.cure p).status = .accruing →
    t.cure p = { s.cure p with status := .stopped, endTime := some s.timebase }
  uncured : (s.unit p).state ≠ .cure → t.cure p = s.cure p
  still : (s.unit p).state ≠ .eject → t.ejector p = s.ejector p
  stopped : (s.unit p).state = .eject → (t.ejector p).phase = .stopped ∧ (t.ejector p).setup = (s.ejector p).setup
  kept : (s.unit p).state ≠ .eject ∨ (s.ejector p).phase = .stopped ∨ (s.ejector p).node = none →
    (t.ejector p).offOwed = (s.ejector p).offOwed
  owed : ∀ n, (s.unit p).state = .eject → (s.ejector p).phase ≠ .stopped → (s.ejector p).node = some n →
    (t.ejector p).offOwed.map OffOwed.node = some n
  fresh : (∀ o, (s.ejector p).offOwed = some o → o.placed = false) →
    ∀ o, (t.ejector p).offOwed = some o → o.placed = false

/-- The resets of other presses before it change nothing of the reset of a press. -/
theorem ResetOf.after (h : Spares p s t) (g : ResetOf p t u) : ResetOf p s u where
  disabled := by rw [← h.unit]; exact g.disabled
  idle := by rw [← h.unit]; exact g.idle
  bound := by rw [← h.unit]; exact g.bound
  outside := by
    rw [← h.unit, ← h.opened]
    simp only [← h.profile]
    exact g.outside
  phases b := by rw [← h.profile]; exact g.phases b
  closed hc i r hi hr := by
    rw [← h.unit] at hc
    rw [← h.opened] at hi
    obtain ⟨w, hw, haged⟩ := h.slot hr
    obtain ⟨hnone, ⟨x, hx, hages, haborted⟩, hphase⟩ := g.closed hc i w hi hw
    exact ⟨hnone, ⟨x, hx, haged.trans hages, haborted⟩, fun b hb => hphase b (haged.2.1.trans hb)⟩
  cured := by rw [← h.unit, ← h.cure, ← h.time]; exact g.cured
  uncured := by rw [← h.unit, ← h.cure]; exact g.uncured
  still := by rw [← h.unit, ← h.ejector]; exact g.still
  stopped := by rw [← h.unit, ← h.ejector]; exact g.stopped
  kept := by rw [← h.unit, ← h.ejector]; exact g.kept
  owed := by rw [← h.unit, ← h.ejector]; exact g.owed
  fresh := by rw [← h.ejector]; exact g.fresh

/-- The resets of other presses after it change nothing of it either. -/
theorem ResetOf.before (h : ResetOf p s t) (g : Spares p t u) : ResetOf p s u where
  disabled := by rw [g.unit]; exact h.disabled
  idle := by rw [g.unit]; exact h.idle
  bound := by rw [g.unit]; exact h.bound
  outside := by
    rw [g.opened]
    simp only [g.profile]
    exact h.outside
  phases b := by rw [g.profile]; exact h.phases b
  closed hc i r hi hr := by
    obtain ⟨hnone, ⟨x, hx, hages, haborted⟩, hphase⟩ := h.closed hc i r hi hr
    obtain ⟨w, hw, haged⟩ := g.slot hx
    exact ⟨g.opened.trans hnone, ⟨w, hw, hages.trans haged, haged.2.2 haborted⟩,
      fun b hb => by rw [g.profile]; exact hphase b hb⟩
  cured := by rw [g.cure]; exact h.cured
  uncured := by rw [g.cure]; exact h.uncured
  still := by rw [g.ejector]; exact h.still
  stopped := by rw [g.ejector]; exact h.stopped
  kept := by rw [g.ejector]; exact h.kept
  owed := by rw [g.ejector]; exact h.owed
  fresh := by rw [g.ejector]; exact h.fresh

/-! ## The parts of the other presses -/

theorem profile_of_changes (h : OnlyChanges ps s t) (p : PressNo) (b : Fin 2)
    (hps : Part.profiles ∉ ps := by decide) : t.profile p b = s.profile p b := by
  rw [profile, profile, h .profiles hps]

/-- The ejectors after a cut in a WARM reset. -/
theorem ejector_warmCut (hw : s.warmTaking = true) (q : PressNo) : (cut p s).ejector q =
    if q = p ∧ (s.unit p).state = .eject ∧ (s.ejector p).phase ≠ .stopped
    then Ejector.stopIn .stopped ((s.oweEjectOff p).ejector p) else s.ejector q := by
  by_cases he : (s.unit p).state = .eject
  · by_cases hp : (s.ejector p).phase = .stopped
    · rw [cut_of_eject he, cutEjection_of_stopped hp, if_neg fun h => h.2.2 hp]
    · rw [cut_of_eject he, cutEjection_of_taking hw hp]
      by_cases hq : q = p
      · rw [if_pos ⟨hq, he, hp⟩, hq, ejector_modEjector]
      · rw [if_neg fun h => hq h.1, ejector_modEjector_of_ne p _ _ hq]
        cases hn : (s.ejector p).node with
        | none => rw [oweEjectOff_of_none hn]
        | some n =>
          rw [oweEjectOff_of_node hn]
          exact ejector_modEjector_of_ne p _ _ hq
  · rw [if_neg fun h => he h.2.1]
    exact ejector_of_changes (cut_keeps he) q

theorem ejector_warmReset (hw : s.warmTaking = true) (q : PressNo) : (reset p cause s).ejector q =
    if q = p ∧ (s.unit p).state = .eject ∧ (s.ejector p).phase ≠ .stopped
    then Ejector.stopIn .stopped ((s.oweEjectOff p).ejector p) else s.ejector q :=
  (ejector_of_changes (reset_rest p cause s) q).trans (ejector_warmCut hw q)

theorem buffer_closedRecord (cause : CloseCause) (tm : Time) (r : Record) :
    (closedRecord cause tm r).profileBuffer = r.profileBuffer := by
  unfold closedRecord
  dsimp only
  repeat' split
  all_goals rfl

/-- The profile that belongs to a record is complete when the record closes. -/
theorem profile_closedState (y : Record) (q : PressNo) (b : Fin 2) : (closedState p i y s).profile q b =
    if q = p ∧ y.profileBuffer = some b then { s.profile q b with phase := .complete } else s.profile q b := by
  cases hb : y.profileBuffer with
  | none =>
    rw [if_neg (fun h => nomatch h.2)]
    unfold closedState
    rw [hb]
    rfl
  | some b' =>
    unfold closedState
    rw [hb]
    by_cases hq : q = p ∧ b' = b
    · obtain ⟨hq, hbb⟩ := hq
      subst hq hbb
      rw [if_pos ⟨rfl, rfl⟩]
      exact State.profile_modProfile q b' _ _
    · rw [if_neg fun h => hq ⟨h.1, Option.some.inj h.2⟩]
      refine profile_modProfile_of_ne ?_ _ _
      by_cases h : q = p
      · exact .inr fun he => hq ⟨h, he.symm⟩
      · exact .inl h

theorem profile_warmClose (hw : s.warmTaking = true) (q : PressNo) (b : Fin 2) (tm : Time) :
    (s.closeRecord p cause tm).profile q b =
      if q = p ∧ ∃ r, s.openRecord p = some r ∧ r.profileBuffer = some b
      then { s.profile q b with phase := .complete } else s.profile q b := by
  rcases openRecord_cases s p with h | ⟨i, r, hi, hr⟩
  · rw [closeRecord_of_none h, if_neg]
    rintro ⟨_, r, hr, _⟩
    exact nomatch h.symm.trans hr
  · have hopen : s.openRecord p = some r := Option.bind_eq_some_iff.mpr ⟨i, hi, hr⟩
    have hsame : (q = p ∧ ∃ x, s.openRecord p = some x ∧ x.profileBuffer = some b)
        ↔ q = p ∧ (closedRecord cause tm r).profileBuffer = some b := by
      have hbuffer : (closedRecord cause tm r).profileBuffer = r.profileBuffer := buffer_closedRecord cause tm r
      rw [hbuffer, hopen]
      exact and_congr_right fun _ => ⟨fun ⟨x, hx, hb⟩ => Option.some.inj hx ▸ hb, fun hb => ⟨r, rfl, hb⟩⟩
    rw [closeRecord_of_some hi hr, profile_of_changes (warmHand_changes (warm_closedState hw _) _),
      profile_closedState]
    simp only [hsame]

/-- The profiles under the reset of a press. -/
theorem profile_warmReset (hs : Taking s) (q : PressNo) (b : Fin 2) : (reset p cause s).profile q b =
    if q = p ∧ (s.unit p).state.inCycle = true ∧ ∃ r, (cut p s).openRecord p = some r ∧ r.profileBuffer = some b
    then { s.profile q b with phase := .complete } else s.profile q b := by
  have hcut := warmCut_changes hs.1 p
  have hw : (cut p s).warmTaking = true := (hcut .warmTaking (by decide)).symm.trans hs.1
  have hcycle : OnlyChanges unitParts s (s.cutCycle p cause) := (warmCycle_changes hs.1 p).mono (by decide)
  have hafter : OnlyChanges [.units, .events, .history] (s.cutCycle p cause) (reset p cause s) :=
    (warmGive_changes (taking_of_changes hcycle hs) p).trans ((modUnit_changes p _ _).mono (by decide))
  rw [profile_of_changes hafter, cutCycle_eq]
  by_cases hc : (s.unit p).state.inCycle = true
  · rw [doIf_of hc, profile_warmClose hw, profile_of_changes hcut]
    simp only [hc, true_and]
  · rw [doIf_of_not hc, if_neg fun h => hc h.2.1]
    exact profile_of_changes hcut q b

/-! ## The reset of one press -/

/-- What a reset leaves of a press that it is not for. -/
theorem spares_warmUnit (hs : Taking s) (h : p ≠ q) : Spares p s (s.resetUnit q .warmReset) where
  unit := by
    rcases resetUnit_cases q .warmReset s with ⟨_, h'⟩ | ⟨_, h'⟩ | ⟨_, _, h'⟩
    · rw [h']
    · rw [h', unit_modUnit_of_ne q _ _ h]
    · rw [h']
      exact (unit_reset q .warmReset s).2 p h
  cure := by
    rcases resetUnit_cases q .warmReset s with ⟨_, h'⟩ | ⟨_, h'⟩ | ⟨_, _, h'⟩
    · rw [h']
    · rw [h', cure_of_changes (modUnit_changes q _ s)]
    · rw [h']
      obtain ⟨_, hcure, _⟩ := (keepsOthers_reset q .warmReset s).1 p h
      exact hcure
  ejector := by
    rcases resetUnit_cases q .warmReset s with ⟨_, h'⟩ | ⟨_, h'⟩ | ⟨_, _, h'⟩
    · rw [h']
    · rw [h', ejector_of_changes (modUnit_changes q _ s)]
    · rw [h', ejector_warmReset hs.1, if_neg fun he => h he.1]
  profile b := by
    rcases resetUnit_cases q .warmReset s with ⟨_, h'⟩ | ⟨_, h'⟩ | ⟨_, _, h'⟩
    · rw [h']
    · rw [h', profile_of_changes (modUnit_changes q _ s)]
    · rw [h', profile_warmReset hs, if_neg fun he => h he.1]
  opened := (rings_warmUnit hs q).others p h
  held := (rings_warmUnit hs q).held
  ages := (rings_warmUnit hs q).ages
  time := ((warmUnit_changes hs q) .timebase (by decide)).symm

/-- A change of the unit alone is the reset of a press that is not bound. -/
theorem resetOf_unit (h : OnlyChanges [.units] s t) (hd : (s.unit p).state = .disabled → t.unit p = s.unit p)
    (hi : (s.unit p).state = .idle → t.unit p = { s.unit p with bindFault := .none })
    (hout : (s.unit p).state ∈ [.disabled, .idle]) : ResetOf p s t := by
  have hejector : t.ejector p = s.ejector p := ejector_of_changes h p
  have hprofile (b : Fin 2) : t.profile p b = s.profile p b := profile_of_changes h p b
  have hhistory : s.history = t.history := h .history (by decide)
  have hcycle : (s.unit p).state.inCycle = false := by
    rcases List.mem_pair.mp hout with h | h
    · rw [h]
      rfl
    · rw [h]
      rfl
  have hne {w : UnitState} (hw : w ∉ [.disabled, .idle]) : (s.unit p).state ≠ w := fun he => hw (he ▸ hout)
  refine ⟨hd, hi, fun hn => absurd hout hn, fun _ => ⟨by rw [hhistory], hprofile⟩, fun b => by rw [hprofile b],
    fun hc => (nomatch hcycle.symm.trans hc), fun hc => absurd hc (hne (by decide)), fun _ => cure_of_changes h p,
    fun _ => hejector, fun hc => absurd hc (hne (by decide)), fun _ => by rw [hejector],
    fun n hc => absurd hc (hne (by decide)), fun hf => ?_⟩
  rw [hejector]
  exact hf

/-- The record of a cycle that a WARM reset cuts. -/
theorem closedFor_reset (hs : Taking s) (hc : (s.unit p).state.inCycle = true)
    (hi : s.history.openRecord[p] = some i) (hr : s.history.slots[i] = some r) :
    ClosedFor p i r (reset p .warmReset s) := by
  have hcut := warmCut_changes hs.1 p
  have hw : (cut p s).warmTaking = true := (hcut .warmTaking (by decide)).symm.trans hs.1
  obtain ⟨hi', w, hwr⟩ := openSlot_of_opened (opened_cut p s) hi hr
  have haged : Ages r w := (rings_cut p s).ages i r w hr hwr
  have hhistory : (reset p .warmReset s).history = { (cut p s).history with
      slots := (cut p s).history.slots.set i (some (closedRecord .warmReset s.timebase w))
      openRecord := (cut p s).history.openRecord.set p none } := by
    have hunits : OnlyChanges [.units] (giveUpCharge p (s.cutCycle p .warmReset)) (reset p .warmReset s) :=
      modUnit_changes p _ _
    have hgive : giveUpCharge p (s.cutCycle p .warmReset) = s.cutCycle p .warmReset := by
      refine giveUpCharge_of_other (fun h => ?_) (fun h => ?_)
      · rw [unit_cutCycle] at h
        rw [h] at hc
        cases hc
      · rw [unit_cutCycle] at h
        rw [h] at hc
        cases hc
    rw [← hunits .history (by decide), hgive, cutCycle_eq, doIf_of hc, closeRecord_of_some hi' hwr,
      ← warmHand_changes (warm_closedState hw _) _ .history (by decide), history_closedState]
  have hslot : (reset p .warmReset s).history.slots[i] = some (closedRecord .warmReset s.timebase w) := by
    rw [hhistory]
    exact Vector.getElem_set_self i.isLt
  refine ⟨?_, ⟨_, hslot, haged.trans (ages_closedRecord _ w), resetAborted_closedRecord _ w⟩, fun b hb => ?_⟩
  · rw [hhistory]
    exact Vector.getElem_set_self p.isLt
  · have hopen : (cut p s).openRecord p = some w := Option.bind_eq_some_iff.mpr ⟨i, hi', hwr⟩
    rw [profile_warmReset hs, if_pos ⟨rfl, hc, w, hopen, haged.2.1.trans hb⟩]

theorem openRecord_reset_of_out (hs : Taking s) (hc : (s.unit p).state.inCycle = false) :
    (reset p cause s).history.openRecord[p] = s.history.openRecord[p] := by
  have hcycle : s.cutCycle p cause = cut p s := by rw [cutCycle_eq, hc]; rfl
  have hcut : OnlyChanges unitParts s (s.cutCycle p cause) := (warmCycle_changes hs.1 p).mono (by decide)
  have hgive : opened (giveUpCharge p (s.cutCycle p cause)).history = opened (s.cutCycle p cause).history := by
    by_cases hwait : ((s.cutCycle p cause).unit p).state = .chargeWait
    · rw [giveUpCharge_of_wait hwait, leaveQueue_of_empty (taking_of_changes hcut hs).2]
    · by_cases hready : ((s.cutCycle p cause).unit p).state = .chargeReady
      · rw [giveUpCharge_of_ready hready]
        exact opened_raise _ _ _ _
      · rw [giveUpCharge_of_other hwait hready]
  have hunits : OnlyChanges [.units] (giveUpCharge p (s.cutCycle p cause)) (reset p cause s) :=
    modUnit_changes p _ _
  have hopened : opened (reset p cause s).history = opened s.history := by
    rw [← hunits .history (by decide), hgive, hcycle, opened_cut]
  exact congrArg (fun v : Vector (Option (Fin 512)) 4 × (Fin 512 → Bool) => v.1[p]) hopened

/-- The ejector of a press that a WARM reset cuts. -/
theorem ejector_cases (hs : Taking s) (p : PressNo) :
    (((s.unit p).state ≠ .eject ∨ (s.ejector p).phase = .stopped)
      ∧ (reset p cause s).ejector p = s.ejector p)
    ∨ ((s.unit p).state = .eject ∧ (s.ejector p).phase ≠ .stopped
      ∧ (reset p cause s).ejector p = Ejector.stopIn .stopped ((s.oweEjectOff p).ejector p)) := by
  by_cases he : (s.unit p).state = .eject
  · by_cases hp : (s.ejector p).phase = .stopped
    · exact .inl ⟨.inr hp, by rw [ejector_warmReset hs.1, if_neg fun h => h.2.2 hp]⟩
    · exact .inr ⟨he, hp, by rw [ejector_warmReset hs.1, if_pos ⟨rfl, he, hp⟩]⟩
  · exact .inl ⟨.inl he, by rw [ejector_warmReset hs.1, if_neg fun h => he h.2.1]⟩

theorem resetOf_reset (hs : Taking s) (hd : (s.unit p).state ≠ .disabled) (hi : (s.unit p).state ≠ .idle) :
    ResetOf p s (reset p .warmReset s) where
  disabled h := absurd h hd
  idle h := absurd h hi
  bound _ := (unit_reset p .warmReset s).1
  outside hc := ⟨openRecord_reset_of_out hs hc, fun b => by
    rw [profile_warmReset hs, if_neg]
    rintro ⟨_, hc', _⟩
    exact nomatch hc.symm.trans hc'⟩
  phases b := by
    rw [profile_warmReset hs]
    split
    · rfl
    · rfl
  closed hc _ _ ho hr := closedFor_reset hs hc ho hr
  cured h ha := cure_reset_of_cure h ha
  uncured h := cure_reset_of_other h
  still h := by
    rcases ejector_cases (cause := .warmReset) hs p with ⟨_, hsame⟩ | ⟨he, _⟩
    · exact hsame
    · exact absurd he h
  stopped h := by
    rcases ejector_cases (cause := .warmReset) hs p with ⟨hp, hsame⟩ | ⟨_, _, hcut⟩
    · rw [hsame]
      exact ⟨hp.resolve_left fun hne => hne h, rfl⟩
    · rw [hcut, ejector_oweEjectOff]
      exact ⟨rfl, rfl⟩
  kept h := by
    rcases ejector_cases (cause := .warmReset) hs p with ⟨_, hsame⟩ | ⟨he, hp, hcut⟩
    · rw [hsame]
    · have hnone : (s.ejector p).node = none := (h.resolve_left fun hne => hne he).resolve_left hp
      rw [hcut, oweEjectOff_of_none hnone]
      rfl
  owed n h hp hn := by
    rcases ejector_cases (cause := .warmReset) hs p with ⟨hout, _⟩ | ⟨_, _, hcut⟩
    · exact absurd (hout.resolve_left fun hne => hne h) hp
    · rw [hcut, oweEjectOff_of_node hn, ejector_owed]
      rfl
  fresh hf o ho := by
    rcases ejector_cases (cause := .warmReset) hs p with ⟨_, hsame⟩ | ⟨_, _, hcut⟩
    · rw [hsame] at ho
      exact hf o ho
    · rw [hcut] at ho
      cases hn : (s.ejector p).node with
      | none =>
        rw [oweEjectOff_of_none hn] at ho
        exact hf o ho
      | some n =>
        rw [oweEjectOff_of_node hn, ejector_owed] at ho
        exact Option.some.inj ho ▸ rfl

theorem resetOf_warmUnit (hs : Taking s) (p : PressNo) : ResetOf p s (s.resetUnit p .warmReset) := by
  rcases resetUnit_cases p .warmReset s with ⟨hst, h⟩ | ⟨hst, h⟩ | ⟨hd, hi, h⟩
  · rw [h]
    exact resetOf_unit (.refl s) (fun _ => rfl) (fun hid => nomatch hst.symm.trans hid) (by rw [hst]; decide)
  · rw [h]
    exact resetOf_unit (modUnit_changes p _ s) (fun hdis => nomatch hst.symm.trans hdis)
      (fun _ => unit_modUnit p _ s) (by rw [hst]; decide)
  · rw [h]
    exact resetOf_reset hs hd hi

/-! ## The resets of all presses -/

/-- What the resets leave of the ring. -/
structure RingKept (s t : State) : Prop where
  rest : t.history = { s.history with slots := t.history.slots, openRecord := t.history.openRecord }
  opened : ∀ p : PressNo, t.history.openRecord[p] = s.history.openRecord[p] ∨ t.history.openRecord[p] = none
  slots : ∀ i : Fin 512, (∀ p : PressNo, s.history.openRecord[p] ≠ some i) →
    t.history.slots[i] = s.history.slots[i]

theorem RingKept.refl (s : State) : RingKept s s := ⟨rfl, fun _ => .inl rfl, fun _ _ => rfl⟩

theorem RingKept.trans (h : RingKept s t) (g : RingKept t u) : RingKept s u where
  rest := by rw [g.rest, h.rest]
  opened p := by
    rcases g.opened p with g | g
    · rw [g]
      exact h.opened p
    · exact .inr g
  slots i hi := by
    refine (g.slots i fun p => ?_).trans (h.slots i hi)
    rcases h.opened p with h | h
    · rw [h]
      exact hi p
    · rw [h]
      exact nofun

theorem ringKept_of_rings (h : Rings q s t) : RingKept s t where
  rest := h.rest
  opened p := by
    by_cases hp : p = q
    · rw [hp]
      exact h.own
    · exact .inl (h.others p hp)
  slots i hi := h.slots i (hi q)

/-- The resets of these presses. -/
def resets (l : List PressNo) (s : State) : State := each (fun p => resetUnit p .warmReset) l s

theorem resets_cons (q : PressNo) (l : List PressNo) (s : State) :
    resets (q :: l) s = resets l (s.resetUnit q .warmReset) := rfl

theorem resets_changes (l : List PressNo) (hs : Taking s) : OnlyChanges unitParts s (resets l s) := by
  induction l generalizing s with
  | nil => exact .refl s
  | cons q l ih =>
    have hq := warmUnit_changes hs q
    exact hq.trans (ih (taking_of_changes hq hs))

theorem length_resets (l : List PressNo) (hs : Taking s) :
    (resets l s).exportQueue.length ≤ s.exportQueue.length + l.length := by
  induction l generalizing s with
  | nil => exact Nat.le_refl _
  | cons q l ih =>
    have hone := length_warmUnit hs q
    have hrest := ih (taking_of_changes (warmUnit_changes hs q) hs)
    rw [resets_cons, List.length_cons]
    omega

theorem ringKept_resets (l : List PressNo) (hs : Taking s) : RingKept s (resets l s) := by
  induction l generalizing s with
  | nil => exact .refl s
  | cons q l ih =>
    exact (ringKept_of_rings (rings_warmUnit hs q)).trans (ih (taking_of_changes (warmUnit_changes hs q) hs))

theorem spares_resets (l : List PressNo) (hs : Taking s) (h : p ∉ l) : Spares p s (resets l s) := by
  induction l generalizing s with
  | nil => exact .refl p s
  | cons q l ih =>
    obtain ⟨hq, hl⟩ := List.ne_and_not_mem_of_not_mem_cons h
    exact (spares_warmUnit hs hq).trans (ih (taking_of_changes (warmUnit_changes hs q) hs) hl)

theorem resetOf_resets (l : List PressNo) (hl : l.Nodup) (hs : Taking s) (h : p ∈ l) :
    ResetOf p s (resets l s) := by
  induction l generalizing s with
  | nil => cases h
  | cons q l ih =>
    obtain ⟨hq, hl⟩ := List.nodup_cons.mp hl
    have hnext : Taking (s.resetUnit q .warmReset) := taking_of_changes (warmUnit_changes hs q) hs
    by_cases hp : p = q
    · subst hp
      exact (resetOf_warmUnit hs p).before (spares_resets l hnext hq)
    · exact (ih hl hnext ((List.mem_cons.mp h).resolve_left hp)).after (spares_warmUnit hs hp)

end Sys2Proof.Proofs.WarmPresses
end

