-- ==== Sys2Proof/Proofs/WarmResets.lean ====
section
/-! PROOFS. What a WARM reset leaves (R193): the queues are emptied, the scales and the press units reset, the locks
and the events cleared; then the off frames are placed again and the closed records sent. -/

namespace Sys2Proof.Proofs.WarmResets

set_option Elab.async false

open Sys2Proof.Machine Sys2Proof.Machine.State Sys2Proof.Proofs.StepRules Sys2Proof.Proofs.CycleViews
  Sys2Proof.Proofs.CycleLaw Sys2Proof.Proofs.CureRules Sys2Proof.Proofs.HeatLaws Sys2Proof.Proofs.OffPlacement
  Sys2Proof.Proofs.ExportMoves Sys2Proof.Proofs.Transmitters Sys2Proof.Proofs.Evaluations
  Sys2Proof.Proofs.WarmUnits Sys2Proof.Proofs.WarmPresses Sys2Proof.Proofs.PressResets Sys2Proof.Proofs.Events
  Sys2Proof.Proofs.RecordCloses Sys2Proof.Proofs.Timers Sys2Proof.Proofs.Queues Sys2Proof.Proofs.PressRequests
  Sys2Proof.Proofs.ClosedSlots

variable {s t : State} {p : PressNo} {z : ZoneNo} {i : Fin 512} {r : Record} {own n : Nat}

/-! ## The stages -/

/-- The state in which the units are reset. -/
def begun (s : State) : State := warmScales { s.warmQueues with exportQueue := [], warmTaking := true }

/-- The state after the units have been reset. -/
def unitsReset (s : State) : State := resets (List.finRange 4) (begun s)

/-- The locks and the events are cleared. -/
def clearing (x : State) : State := warmEvents { warmLocks x with warmTaking := false }

/-- The state in which the off frames are placed. -/
def cleared (s : State) : State := clearing (unitsReset s)

theorem warmEffect_eq (s : State) : s.warmEffect = (cleared s).placeOwed.exportMoves := rfl

theorem begun_changes (s : State) : OnlyChanges [.portU, .portD, .zones, .ejectors, .resetPending, .linkPin,
    .linkStart, .scales, .exportQueue, .warmTaking] s (begun s) := by
  have hqueues : OnlyChanges [.portU, .portD, .zones, .ejectors, .resetPending, .linkPin, .linkStart, .exportQueue,
      .warmTaking] s { s.warmQueues with exportQueue := [], warmTaking := true } := fun y hy => by
    cases y <;> first | rfl | exact absurd hy (by decide)
  have hscales (x : State) : OnlyChanges [.scales] x x.warmScales := by
    rw [warmScales_eq]
    exact (modScale_changes 0 _ _).trans (modScale_changes 1 _ _)
  exact (hqueues.mono (by decide)).trans ((hscales _).mono (by decide))

theorem scale_begun (k : ScaleNo) (s : State) :
    (begun s).scale k = scaleWarm (s.scaleEntry k).enabled (s.scale k) := scale_warmScales k _

theorem taking_begun (s : State) : Taking (begun s) :=
  ⟨rfl, fun k => by rw [scale_begun]; rfl⟩

theorem zone_begun (z : ZoneNo) (s : State) : (begun s).zone z = (s.zone z).unplaced := by
  show (s.zones.map Zone.unplaced)[z] = _
  exact Vector.getElem_map _ z.isLt

theorem ejector_begun (p : PressNo) (s : State) : (begun s).ejector p = (s.ejector p).unplaced := by
  show (s.ejectors.map Ejector.unplaced)[p] = _
  exact Vector.getElem_map _ p.isLt

theorem unitsReset_changes (s : State) : OnlyChanges unitParts (begun s) (unitsReset s) :=
  resets_changes _ (taking_begun s)

theorem clearing_changes (x : State) :
    OnlyChanges [.profiles, .warmTaking, .events, .attention, .attnPin] x (clearing x) := fun y hy => by
  cases y <;> first | rfl | exact absurd hy (by decide)

theorem cleared_rest (s : State) :
    OnlyChanges [.profiles, .warmTaking, .events, .attention, .attnPin] (unitsReset s) (cleared s) :=
  clearing_changes _

/-- The parts between the two stages of the queues. -/
def bodyParts : List Part := .warmTaking :: .attention :: .attnPin :: unitParts

theorem cleared_changes (s : State) : OnlyChanges bodyParts (begun s) (cleared s) :=
  ((unitsReset_changes s).mono (by decide)).trans ((cleared_rest s).mono (by decide))

/-! ## The state in which the off frames are placed -/

theorem profile_clearing (p : PressNo) (b : Fin 2) (x : State) :
    (clearing x).profile p b = { x.profile p b with locked := false } := by
  show (x.profiles.map Profile.unlocked)[bufferNo p b] = _
  exact Vector.getElem_map _ (bufferNo p b).isLt

theorem events_clearing (k : Fin 25) (x : State) : (clearing x).events[k] =
    { raw := false, enable := x.events[k].enable, first := 255, time := none, count := 0 } := by
  show (x.events.map clearedEntry)[k] = _
  exact Vector.getElem_map _ k.isLt

/-! ## The enable flags of the events -/

/-- Every event is enabled as it was. -/
def Enabled (s t : State) : Prop := ∀ k : Fin 25, (t.events[k]).enable = (s.events[k]).enable

theorem Enabled.trans {u : State} (h : Enabled s t) (g : Enabled t u) : Enabled s u :=
  fun k => (g k).trans (h k)

theorem enabled_of_changes {ps : List Part} (h : OnlyChanges ps s t) (hps : Part.events ∉ ps := by decide) :
    Enabled s t := fun k => by rw [h .events hps]

theorem enabled_warmRaise {tm : Time} (hw : s.warmTaking = true) (k : EventKind) (o : EventOn) :
    Enabled s (s.raise tm k o) := fun j => by
  cases hl : s.live with
  | true =>
    have hset : (s.raise tm k o).events =
        s.events.set k.number (raisedEntry tm o.code s.events[k.number]) := by
      rw [raise_of_warm hl hw]
      exact events_raiseEntry tm k o s
    rw [hset]
    by_cases hj : k.number = j
    · subst hj
      refine (congrArg EventEntry.enable (Vector.getElem_set_self k.number.isLt)).trans ?_
      rfl
    · exact congrArg EventEntry.enable (Vector.getElem_set_ne k.number.isLt j.isLt fun he => hj (Fin.ext he))
  | false =>
    rw [State.raise, hl, if_neg Bool.false_ne_true]

theorem enabled_warmHand (hw : s.warmTaking = true) (r : Record) : Enabled s (handToExport r s) := by
  unfold handToExport
  repeat' split
  · rw [exportMoves_of_warm (s := { s with exportQueue := s.exportQueue ++ [r.serial] }) hw]
    exact fun _ => rfl
  · exact enabled_warmRaise hw _ _
  · exact fun _ => rfl

theorem enabled_warmClose {cause : CloseCause} {tm : Time} (hw : s.warmTaking = true) (p : PressNo) :
    Enabled s (s.closeRecord p cause tm) := by
  rcases openRecord_cases s p with h | ⟨i, r, hi, hr⟩
  · rw [closeRecord_of_none h]
    exact fun _ => rfl
  · rw [closeRecord_of_some hi hr]
    exact (enabled_of_changes (closedState_changes p i _ s)).trans
      (enabled_warmHand (warm_closedState hw _) _)

theorem enabled_warmCycle {cause : CloseCause} (hw : s.warmTaking = true) (p : PressNo) :
    Enabled s (s.cutCycle p cause) := by
  have hcut := warmCut_changes hw p
  rw [cutCycle_eq]
  by_cases hc : (s.unit p).state.inCycle = true
  · rw [doIf_of hc]
    exact (enabled_of_changes hcut).trans (enabled_warmClose ((hcut .warmTaking (by decide)).symm.trans hw) p)
  · rw [doIf_of_not hc]
    exact enabled_of_changes hcut

theorem enabled_warmGive (hs : Taking s) (p : PressNo) : Enabled s (s.giveUpCharge p) := by
  obtain ⟨hw, hq⟩ := hs
  by_cases hwait : (s.unit p).state = .chargeWait
  · rw [giveUpCharge_of_wait hwait, leaveQueue_of_empty hq]
    exact fun _ => rfl
  · by_cases hready : (s.unit p).state = .chargeReady
    · rw [giveUpCharge_of_ready hready]
      exact (enabled_of_changes (modUnit_changes p _ s)).trans (enabled_warmRaise (s := s.modUnit p _) hw _ _)
    · rw [giveUpCharge_of_other hwait hready]
      exact fun _ => rfl

theorem enabled_warmUnit (hs : Taking s) (p : PressNo) : Enabled s (s.resetUnit p .warmReset) := by
  rcases resetUnit_cases p .warmReset s with ⟨_, h⟩ | ⟨_, h⟩ | ⟨_, _, h⟩
  · rw [h]
    exact fun _ => rfl
  · rw [h]
    exact enabled_of_changes (modUnit_changes p _ s)
  · have hcycle : OnlyChanges unitParts s (s.cutCycle p .warmReset) := (warmCycle_changes hs.1 p).mono (by decide)
    rw [h, PressResets.reset]
    exact ((enabled_warmCycle hs.1 p).trans (enabled_warmGive (taking_of_changes hcycle hs) p)).trans
      (enabled_of_changes (modUnit_changes p _ _))

theorem enabled_resets (l : List PressNo) (hs : Taking s) : Enabled s (resets l s) := by
  induction l generalizing s with
  | nil => exact fun _ => rfl
  | cons q l ih => exact (enabled_warmUnit hs q).trans (ih (taking_of_changes (warmUnit_changes hs q) hs))

theorem events_cleared (k : Fin 25) (s : State) : (cleared s).events[k] =
    { raw := false, enable := s.events[k].enable, first := 255, time := none, count := 0 } := by
  have henabled : Enabled s (unitsReset s) :=
    (enabled_of_changes (begun_changes s)).trans (enabled_resets _ (taking_begun s))
  rw [cleared, events_clearing, henabled k]

/-! ## The off frames and the reports that are sent again -/

theorem exportedSlots_exportMoves (i : Fin 512) (s : State) :
    (s.exportMoves.history.slots[i]).map exportedRecord = (s.history.slots[i]).map exportedRecord := by
  obtain ⟨_, ⟨_, _, _, hslots⟩, _⟩ := sends_moveHeads _ s (Nat.le_refl _)
  refine (congrArg (Option.map exportedRecord) (hslots i)).trans ?_
  rw [Option.map_map]
  rfl

/-- A short queue of records is sent whole into the empty queue. -/
theorem moved_of_short (hl : s.live = true) (hw : s.warmTaking = false) (hown : s.portU.own = [])
    (hq : s.exportQueue.length ≤ 4) : s.exportMoves.exportQueue = []
      ∧ s.exportMoves.portU = { s.portU with own := s.exportMoves.portU.own }
      ∧ ∀ x ∈ s.exportMoves.portU.own, x.kind = .report := by
  obtain ⟨moved, hqueue, hport, _, hdone, _⟩ := exportsMoved_exportMoves hl hw
  have hreports : s.exportMoves.portU.own = moved.filterMap fun n => (s.ringRecord n).map (reportFrame s) := by
    rw [hport, hown]
    rfl
  have hlength : s.exportMoves.portU.own.length ≤ moved.length := by
    rw [hreports]
    exact List.length_filterMap_le _ _
  have hmoved : moved.length ≤ 4 := by
    rw [hqueue, List.length_append] at hq
    omega
  refine ⟨hdone.resolve_right (by omega), by rw [hport], fun x hx => ?_⟩
  rw [hreports] at hx
  obtain ⟨n, _, hn⟩ := List.mem_filterMap.mp hx
  obtain ⟨r, _, rfl⟩ := Option.map_eq_some_iff.mp hn
  rfl

/-- Where no frame had a place, one that is placed is among those sent. -/
theorem heat_of_placed (hn : s.normal = true) (hfree : ∀ o ∈ (s.zone z).offs, o.placed = false) :
    ∀ o ∈ (s.placeOwed.zone z).offs, o.placed = true →
      ∃ x ∈ s.placeOwed.portD.own, x.kind = .heat ∧ x.mark = .heaterOff z o.number := by
  obtain ⟨hport, hzone, _, _⟩ := offsPlaced_placeOwed hn
  intro o ho hp
  rw [hzone z] at ho
  obtain ⟨o', ho', rfl⟩ := List.mem_map.mp ho
  have hsent := (Bool.or_eq_true _ _).mp hp
  rw [hfree o' ho'] at hsent
  obtain ⟨x, hx, hmark⟩ := List.mem_map.mp (of_decide_eq_true (hsent.resolve_left Bool.false_ne_true))
  refine ⟨x, by rw [hport]; exact List.mem_append_right _ hx, ?_, hmark⟩
  rcases mem_waitingOffs (List.mem_of_mem_take hx) with ⟨q, w, _, _, rfl⟩ | ⟨y, w, _, _, rfl⟩
  · cases hmark
  · rfl

theorem command_of_placed (hn : s.normal = true)
    (hfree : ∀ o, (s.ejector p).offOwed = some o → o.placed = false) :
    ∀ o, (s.placeOwed.ejector p).offOwed = some o → o.placed = true →
      ∃ x ∈ s.placeOwed.portD.own, x.kind = .command ∧ x.mark = .ejectOff p o.number := by
  obtain ⟨hport, _, hejector, _⟩ := offsPlaced_placeOwed hn
  intro o ho hp
  rw [hejector p] at ho
  obtain ⟨o', ho', rfl⟩ := Option.map_eq_some_iff.mp ho
  have hsent := (Bool.or_eq_true _ _).mp hp
  rw [hfree o' ho'] at hsent
  obtain ⟨x, hx, hmark⟩ := List.mem_map.mp (of_decide_eq_true (hsent.resolve_left Bool.false_ne_true))
  refine ⟨x, by rw [hport]; exact List.mem_append_right _ hx, ?_, hmark⟩
  rcases mem_waitingOffs (List.mem_of_mem_take hx) with ⟨q, w, _, _, rfl⟩ | ⟨y, w, _, _, rfl⟩
  · rfl
  · cases hmark

theorem marked_placeOwed (hn : s.normal = true) (hown : s.portD.own = []) :
    s.placeOwed.portD = { s.portD with own := s.placeOwed.portD.own }
      ∧ ∀ x ∈ s.placeOwed.portD.own, x.mark ≠ .plain := by
  obtain ⟨hport, _⟩ := offsPlaced_placeOwed hn
  refine ⟨by rw [hport], fun x hx => ?_⟩
  rw [hport] at hx
  have hwait : x ∈ s.portD.own ++ s.waitingOffs.take (16 - s.portD.own.length) := hx
  rw [hown, List.nil_append] at hwait
  rcases mem_waitingOffs (List.mem_of_mem_take hwait) with ⟨q, w, _, _, rfl⟩ | ⟨y, w, _, _, rfl⟩
  · exact nofun
  · exact nofun

/-! ## What the reset leaves -/

/-- The parts of the placement and of the reports. -/
def sendParts : List Part := [.portD, .zones, .ejectors, .portU, .history, .exportQueue]

theorem sent_changes (s : State) : OnlyChanges sendParts (cleared s) s.warmEffect :=
  ((placeOwed_changes _).mono (by decide)).trans ((exportMoves_changes _).mono (by decide))

theorem late_changes (s : State) :
    OnlyChanges (.profiles :: .warmTaking :: .events :: .attention :: .attnPin :: sendParts) (unitsReset s)
      s.warmEffect :=
  ((cleared_rest s).mono (by decide)).trans ((sent_changes s).mono (by decide))

theorem warmEffect_changes' (s : State) :
    OnlyChanges [.portU, .portD, .resetPending, .linkPin, .linkStart, .attnPin, .attention, .zones, .cures, .scales,
      .units, .ejectors, .history, .profiles, .exportQueue, .events, .offNumber, .warmTaking] s s.warmEffect :=
  ((begun_changes s).mono (by decide)).trans
    (((cleared_changes s).mono (by decide)).trans ((sent_changes s).mono (by decide)))

theorem resetOf_unitsReset (p : PressNo) (s : State) : ResetOf p (begun s) (unitsReset s) :=
  resetOf_resets _ (List.nodup_finRange 4) (taking_begun s) (List.mem_finRange p)

theorem mode_cleared (s : State) : (cleared s).mode = s.mode ∧ (cleared s).shutdown = s.shutdown :=
  ⟨((cleared_changes s) .mode (by decide)).symm.trans ((begun_changes s) .mode (by decide)).symm,
    ((cleared_changes s) .shutdown (by decide)).symm.trans ((begun_changes s) .shutdown (by decide)).symm⟩

theorem normal_cleared (hm : s.mode = .normal own) : (cleared s).normal = true := by
  rw [State.normal, (mode_cleared s).1, hm]

theorem live_cleared (hm : s.mode = .normal own) (hs : s.shutdown = false) : (cleared s).live = true := by
  simp [State.live, (mode_cleared s).1, (mode_cleared s).2, hm, hs]

theorem ports_cleared (s : State) : (cleared s).portU = s.portU.emptied ∧ (cleared s).portD = s.portD.emptied :=
  ⟨((cleared_changes s) .portU (by decide)).symm, ((cleared_changes s) .portD (by decide)).symm⟩

/-- The queue of the records that wait to be sent. -/
theorem queue_cleared (s : State) : (cleared s).exportQueue.length ≤ 4 := by
  rw [← (cleared_rest s) .exportQueue (by decide)]
  exact length_resets (List.finRange 4) (taking_begun s)

/-- Nothing waits at Port U but the reports of the records that have closed. -/
theorem portU_warmEffect (hm : s.mode = .normal own) (hs : s.shutdown = false) : s.warmEffect.exportQueue = []
    ∧ s.warmEffect.portU = { s.portU with fwd := [], own := s.warmEffect.portU.own }
    ∧ ∀ x ∈ s.warmEffect.portU.own, x.kind = .report := by
  have hplaced : OnlyChanges [.portD, .zones, .ejectors] (cleared s) (cleared s).placeOwed := placeOwed_changes _
  have hport : (cleared s).placeOwed.portU = s.portU.emptied :=
    (hplaced .portU (by decide)).symm.trans (ports_cleared s).1
  obtain ⟨hqueue, hsent, hreports⟩ := moved_of_short (s := (cleared s).placeOwed)
    (by rw [live_of_changes hplaced]; exact live_cleared hm hs) ((hplaced .warmTaking (by decide)).symm)
    (by rw [hport]; rfl) (by rw [← hplaced .exportQueue (by decide)]; exact queue_cleared s)
  refine ⟨hqueue, ?_, hreports⟩
  rw [warmEffect_eq]
  refine hsent.trans ?_
  rw [hport]
  rfl

theorem exportMoves_keeps (s : State) :
    OnlyChanges [.portU, .history, .exportQueue] (cleared s).placeOwed s.warmEffect := exportMoves_changes _

theorem portD_warmEffect (hm : s.mode = .normal own) :
    s.warmEffect.portD = { s.portD with fwd := [], own := s.warmEffect.portD.own }
      ∧ ∀ x ∈ s.warmEffect.portD.own, x.mark ≠ .plain := by
  obtain ⟨hport, hmarks⟩ := marked_placeOwed (normal_cleared hm) (by rw [(ports_cleared s).2]; rfl)
  have hsame : s.warmEffect.portD = (cleared s).placeOwed.portD := ((exportMoves_keeps s) .portD (by decide)).symm
  rw [hsame]
  refine ⟨hport.trans ?_, hmarks⟩
  rw [(ports_cleared s).2]
  rfl

theorem zone_cleared (z : ZoneNo) (s : State) : (cleared s).zone z = (s.zone z).unplaced :=
  (zone_of_changes (cleared_changes s) z).trans (zone_begun z s)

theorem unplaced_unplaced (l : List OffCommand) :
    (l.map OffCommand.unplaced).map OffCommand.unplaced = l.map OffCommand.unplaced := by
  rw [List.map_map]
  rfl

theorem zone_warmEffect (hm : s.mode = .normal own) (z : ZoneNo) :
    s.warmEffect.zone z = { s.zone z with offs := (s.warmEffect.zone z).offs }
      ∧ (s.warmEffect.zone z).offs.map OffCommand.unplaced = (s.zone z).offs.map OffCommand.unplaced
      ∧ ∀ o ∈ (s.warmEffect.zone z).offs, o.placed = true →
        ∃ x ∈ s.warmEffect.portD.own, x.kind = .heat ∧ x.mark = .heaterOff z o.number := by
  have hplaced := offsPlaced_placeOwed (normal_cleared hm)
  have hsame : s.warmEffect.zone z = (cleared s).placeOwed.zone z := zone_of_changes (exportMoves_keeps s) z
  have hport : s.warmEffect.portD = (cleared s).placeOwed.portD := ((exportMoves_keeps s) .portD (by decide)).symm
  have hfree : ∀ o ∈ ((cleared s).zone z).offs, o.placed = false := by
    rw [zone_cleared]
    intro o ho
    obtain ⟨o', _, rfl⟩ := List.mem_map.mp ho
    rfl
  rw [hsame, hport]
  refine ⟨?_, ?_, heat_of_placed (normal_cleared hm) hfree⟩
  · rw [hplaced.2.1 z, zone_cleared]
    rfl
  · rw [unplaced_offs_of_offsPlaced hplaced z, zone_cleared]
    exact unplaced_unplaced _

/-- An off frame that waits finds Port D OWN full. -/
theorem offWaits_warmEffect (hm : s.mode = .normal own) (h : s.warmEffect.offWaits = true) :
    16 ≤ s.warmEffect.portD.own.length := by
  have hkept := exportMoves_keeps s
  have hsame : s.warmEffect.offWaits = (cleared s).placeOwed.offWaits := by
    rw [offWaits, offWaits]
    simp only [zone_of_changes hkept, ejector_of_changes hkept]
  rw [hsame] at h
  rw [← hkept .portD (by decide)]
  refine (offWaits_placeOwed (normal_cleared hm)).resolve_left fun hno => ?_
  exact nomatch hno.symm.trans h

/-- The units, the cures and the profiles. -/
theorem unit_warmEffect (p : PressNo) (s : State) : s.warmEffect.unit p = (unitsReset s).unit p
    ∧ s.warmEffect.cure p = (unitsReset s).cure p
    ∧ ∀ b, s.warmEffect.profile p b = { (unitsReset s).profile p b with locked := false } := by
  have hlate := late_changes s
  exact ⟨unit_of_changes hlate p, cure_of_changes hlate p,
    fun b => (profile_of_changes (sent_changes s) p b).trans (profile_clearing p b _)⟩

/-- The parts of a press before the units are reset. -/
theorem unit_begun (p : PressNo) (s : State) : (begun s).unit p = s.unit p ∧ (begun s).cure p = s.cure p
    ∧ (∀ b, (begun s).profile p b = s.profile p b) ∧ (begun s).history = s.history
    ∧ (begun s).timebase = s.timebase := by
  have hbegun := begun_changes s
  exact ⟨unit_of_changes hbegun p, cure_of_changes hbegun p, profile_of_changes hbegun p,
    (hbegun .history (by decide)).symm, (hbegun .timebase (by decide)).symm⟩

/-- The ejector of a press, with what it owes placed again. -/
theorem ejector_warmEffect (hm : s.mode = .normal own) (p : PressNo) :
    s.warmEffect.ejector p = { (unitsReset s).ejector p with offOwed := (s.warmEffect.ejector p).offOwed }
      ∧ (s.warmEffect.ejector p).offOwed.map OffOwed.unplaced
        = ((unitsReset s).ejector p).offOwed.map OffOwed.unplaced
      ∧ ∀ o, (s.warmEffect.ejector p).offOwed = some o → o.placed = true →
        ∃ x ∈ s.warmEffect.portD.own, x.kind = .command ∧ x.mark = .ejectOff p o.number := by
  have hplaced := offsPlaced_placeOwed (normal_cleared hm)
  have hsame : s.warmEffect.ejector p = (cleared s).placeOwed.ejector p :=
    ejector_of_changes (exportMoves_keeps s) p
  have hport : s.warmEffect.portD = (cleared s).placeOwed.portD := ((exportMoves_keeps s) .portD (by decide)).symm
  have hcleared : (cleared s).ejector p = (unitsReset s).ejector p := ejector_of_changes (cleared_rest s) p
  have hfree : ∀ o, ((cleared s).ejector p).offOwed = some o → o.placed = false := by
    rw [hcleared]
    refine (resetOf_unitsReset p s).fresh ?_
    rw [ejector_begun]
    intro o ho
    obtain ⟨o', _, rfl⟩ := Option.map_eq_some_iff.mp ho
    rfl
  rw [hsame, hport]
  refine ⟨?_, ?_, command_of_placed (normal_cleared hm) hfree⟩
  · rw [hplaced.2.2.1 p, hcleared]
  · rw [unplaced_owed_of_offsPlaced hplaced p, hcleared]

/-- The ring: the records that are sent have been marked. -/
theorem ring_warmEffect (s : State) :
    s.warmEffect.history = { (unitsReset s).history with slots := s.warmEffect.history.slots }
      ∧ (∀ (i : Fin 512) r, (unitsReset s).history.slots[i] = some r →
        ∃ e, s.warmEffect.history.slots[i] = some { r with exported := e })
      ∧ ∀ i : Fin 512, (s.warmEffect.history.slots[i]).map exportedRecord
        = ((unitsReset s).history.slots[i]).map exportedRecord := by
  have hbefore : (cleared s).placeOwed.history = (unitsReset s).history :=
    ((placeOwed_changes (cleared s)) .history (by decide)).symm.trans ((cleared_rest s) .history (by decide)).symm
  obtain ⟨hmarks, hslots⟩ := onlyMarks_exportMoves (cleared s).placeOwed
  have hmap := fun i => exportedSlots_exportMoves i (cleared s).placeOwed
  rw [hbefore] at hmarks
  simp only [hbefore] at hslots hmap
  exact ⟨hmarks, hslots, hmap⟩

/-- The record of a cycle that the reset has cut. -/
theorem record_warmEffect (hc : (s.unit p).state.inCycle = true) (hi : s.history.openRecord[p] = some i)
    (hr : s.history.slots[i] = some r) : s.warmEffect.history.openRecord[p] = none
      ∧ (∃ x, s.warmEffect.history.slots[i] = some x ∧ x.serial = r.serial ∧ x.state = .closed
        ∧ x.outcome = some .aborted ∧ x.flags.getLsbD 16 = true)
      ∧ ∀ b, r.profileBuffer = some b → (s.warmEffect.profile p b).phase = .complete := by
  obtain ⟨hunit, _, _, hhistory, _⟩ := unit_begun p s
  obtain ⟨hring, hslots, _⟩ := ring_warmEffect s
  obtain ⟨_, _, hprofile⟩ := unit_warmEffect p s
  obtain ⟨hnone, ⟨x, hx, ⟨hserial, _, _⟩, hstate, houtcome, hflag⟩, hphase⟩ :=
    (resetOf_unitsReset p s).closed (by rw [hunit]; exact hc) i r (by rw [hhistory]; exact hi)
      (by rw [hhistory]; exact hr)
  obtain ⟨e, he⟩ := hslots i x hx
  refine ⟨by rw [hring]; exact hnone, ⟨_, he, hserial, hstate, houtcome, hflag⟩, fun b hb => ?_⟩
  rw [hprofile b]
  exact hphase b hb

/-- Outside a cycle the record and the profiles stay. -/
theorem out_warmEffect (hc : (s.unit p).state.inCycle = false) :
    s.warmEffect.history.openRecord[p] = s.history.openRecord[p]
      ∧ ∀ b, (s.warmEffect.profile p b).phase = (s.profile p b).phase := by
  obtain ⟨hunit, _, hprofiles, hhistory, _⟩ := unit_begun p s
  obtain ⟨hring, _⟩ := ring_warmEffect s
  obtain ⟨_, _, hprofile⟩ := unit_warmEffect p s
  obtain ⟨hopen, hsame⟩ := (resetOf_unitsReset p s).outside (by rw [hunit]; exact hc)
  refine ⟨?_, fun b => ?_⟩
  · rw [hring]
    exact hopen.trans (by rw [hhistory])
  · rw [hprofile b, ← hprofiles b, ← hsame b]

theorem profile_warmEffect (p : PressNo) (b : Fin 2) (s : State) : s.warmEffect.profile p b =
    { s.profile p b with locked := false, phase := (s.warmEffect.profile p b).phase } := by
  obtain ⟨_, _, hprofiles, _⟩ := unit_begun p s
  obtain ⟨_, _, hprofile⟩ := unit_warmEffect p s
  have hphases := (resetOf_unitsReset p s).phases b
  rw [hprofiles b] at hphases
  rw [hprofile b]
  exact congrArg Profile.unlocked hphases

/-- The ring outside the records that are open. -/
theorem kept_warmEffect (s : State) : s.warmEffect.history = { s.history with
      slots := s.warmEffect.history.slots, openRecord := s.warmEffect.history.openRecord }
    ∧ ∀ i : Fin 512, (∀ p : PressNo, s.history.openRecord[p] ≠ some i) →
      (s.warmEffect.history.slots[i]).map exportedRecord = (s.history.slots[i]).map exportedRecord := by
  obtain ⟨hring, _, hmap⟩ := ring_warmEffect s
  have hbegun : s.history = (begun s).history := (begun_changes s) .history (by decide)
  obtain ⟨hrest, _, hslots⟩ := ringKept_resets (List.finRange 4) (taking_begun s)
  rw [hbegun]
  refine ⟨?_, fun i hi => (hmap i).trans (congrArg _ (hslots i hi))⟩
  have hopen : s.warmEffect.history.openRecord = (unitsReset s).history.openRecord := by rw [hring]
  rw [hopen]
  refine hring.trans ?_
  rw [show (unitsReset s).history = _ from hrest]

theorem exec_warm (hh : s.resetHeld = false) (hs : s.shutdown = false) (hd : s.resetPending = .due .warm) :
    exec .warmResetEffect s = .next s.warmEffect := by
  have hshutdown : s.warmEffect.shutdown = false := ((warmEffect_changes' s) .shutdown (by decide)).symm.trans hs
  have hdue : s.takeDueReset = s.warmEffect := by
    rw [takeDueReset, takeDue, hd]
    show endShutdown s.warmEffect = _
    rw [endShutdown, hshutdown]
    rfl
  show running id s = _
  rw [running, hh, hdue]
  rfl

/-! ## The obligation -/

theorem signals_warmEffect (s : State) : s.warmEffect.resetPending = .idle ∧ s.warmEffect.linkPin = false
    ∧ s.warmEffect.linkStart = none ∧ s.warmEffect.attention = false ∧ s.warmEffect.attnPin = false := by
  have hsent := sent_changes s
  have hbody := cleared_changes s
  exact ⟨(hsent .resetPending (by decide)).symm.trans (hbody .resetPending (by decide)).symm,
    (hsent .linkPin (by decide)).symm.trans (hbody .linkPin (by decide)).symm,
    (hsent .linkStart (by decide)).symm.trans (hbody .linkStart (by decide)).symm,
    (hsent .attention (by decide)).symm, (hsent .attnPin (by decide)).symm⟩

theorem events_warmEffect (k : Fin 25) (s : State) : s.warmEffect.events[k] =
    { raw := false, enable := s.events[k].enable, first := 255, time := none, count := 0 } := by
  rw [← show (cleared s).events = s.warmEffect.events from (sent_changes s) .events (by decide)]
  exact events_cleared k s

theorem scale_warmEffect (k : ScaleNo) (s : State) :
    s.warmEffect.scale k = scaleWarm (s.scaleEntry k).enabled (s.scale k) :=
  (scale_of_changes (sent_changes s) k).trans ((scale_of_changes (cleared_changes s) k).trans (scale_begun k s))

theorem units_warmEffect (p : PressNo) (s : State) :
    ((s.unit p).state = .disabled → s.warmEffect.unit p = s.unit p)
      ∧ ((s.unit p).state = .idle → s.warmEffect.unit p = { s.unit p with bindFault := .none })
      ∧ ((s.unit p).state ∉ [.disabled, .idle] → s.warmEffect.unit p = (s.unit p).afterReset) := by
  have hreset := resetOf_unitsReset p s
  rw [(unit_warmEffect p s).1, ← (unit_begun p s).1]
  exact ⟨hreset.disabled, hreset.idle, hreset.bound⟩

theorem cures_warmEffect (p : PressNo) (s : State) :
    ((s.unit p).state = .cure → (s.cure p).status = .accruing →
      s.warmEffect.cure p = { s.cure p with status := .stopped, endTime := some s.timebase })
    ∧ ((s.unit p).state ≠ .cure → s.warmEffect.cure p = s.cure p) := by
  have hreset := resetOf_unitsReset p s
  obtain ⟨hunit, hcure, _, _, htime⟩ := unit_begun p s
  rw [(unit_warmEffect p s).2.1, ← hunit, ← hcure, ← htime]
  exact ⟨hreset.cured, hreset.uncured⟩

theorem unplaced_twice (o : Option OffOwed) :
    (o.map OffOwed.unplaced).map OffOwed.unplaced = o.map OffOwed.unplaced := by
  rw [Option.map_map]
  rfl

theorem owed_warmEffect (hm : s.mode = .normal own) (p : PressNo) :
    ((s.unit p).state ≠ .eject ∨ (s.ejector p).phase = .stopped ∨ (s.ejector p).node = none →
      (s.warmEffect.ejector p).offOwed.map OffOwed.unplaced = (s.ejector p).offOwed.map OffOwed.unplaced)
    ∧ ∀ n, (s.unit p).state = .eject → (s.ejector p).phase ≠ .stopped → (s.ejector p).node = some n →
      (s.warmEffect.ejector p).offOwed.map OffOwed.node = some n := by
  have hreset := resetOf_unitsReset p s
  have hkept := hreset.kept
  have howed := hreset.owed
  rw [(unit_begun p s).1, ejector_begun] at hkept howed
  obtain ⟨_, hsame, _⟩ := ejector_warmEffect hm p
  refine ⟨fun h => ?_, fun n he hp hn => ?_⟩
  · rw [hsame, hkept h]
    exact unplaced_twice _
  · have hnode (o : Option OffOwed) : o.map OffOwed.node = (o.map OffOwed.unplaced).map OffOwed.node := by
      rw [Option.map_map]
      rfl
    rw [hnode, hsame, ← hnode]
    exact howed n he hp hn

theorem ejectors_warmEffect (hm : s.mode = .normal own) (p : PressNo) :
    ((s.unit p).state ≠ .eject →
      s.warmEffect.ejector p = { s.ejector p with offOwed := (s.warmEffect.ejector p).offOwed })
    ∧ ((s.unit p).state = .eject → (s.warmEffect.ejector p).phase = .stopped
      ∧ (s.warmEffect.ejector p).setup = (s.ejector p).setup) := by
  have hreset := resetOf_unitsReset p s
  have hstill := hreset.still
  have hstopped := hreset.stopped
  rw [(unit_begun p s).1, ejector_begun] at hstill hstopped
  obtain ⟨hrest, _⟩ := ejector_warmEffect hm p
  refine ⟨fun h => hrest.trans ?_, fun h => ?_⟩
  · rw [hstill h]
    rfl
  · obtain ⟨hphase, hsetup⟩ := hstopped h
    rw [hrest]
    exact ⟨hphase, hsetup⟩

/-- Settles O59: the parts of the reset are the lemmas above, one for each part of the state. -/
theorem warmResetEffect : Obligations.WarmResetEffect := by
  intro s own hheld hshutdown hdue hmode
  have hexec := exec_warm hheld hshutdown hdue
  obtain ⟨hqueue, hportU, hreports⟩ := portU_warmEffect hmode hshutdown
  obtain ⟨hportD, hmarks⟩ := portD_warmEffect hmode
  obtain ⟨hhistory, hslots⟩ := kept_warmEffect s
  obtain ⟨hreset, hpin, hlink, hattention, hattn⟩ := signals_warmEffect s
  have hevents := fun k => events_warmEffect k s
  have hscales := fun k => scale_warmEffect k s
  have hunits := fun p => units_warmEffect p s
  have hrecord := fun p i r => record_warmEffect (s := s) (p := p) (i := i) (r := r)
  have hout := fun p => out_warmEffect (s := s) (p := p)
  have hcures := fun p => cures_warmEffect p s
  have hzones := zone_warmEffect (s := s) hmode
  have hwaits := offWaits_warmEffect (s := s) hmode
  have howed := owed_warmEffect (s := s) hmode
  have hplaced := fun p => (ejector_warmEffect (s := s) hmode p).2.2
  have hejectors := ejectors_warmEffect (s := s) hmode
  have hprofiles := fun p b => profile_warmEffect p b s
  have hchanges := warmEffect_changes' s
  refine ⟨s.warmEffect, hexec, ?_⟩
  generalize s.warmEffect = t at *
  exact ⟨hreset, hpin, hlink, hattention, hattn, hqueue, hportU, hportD, hreports, hmarks, hevents, hscales,
    fun p => (hunits p).1, fun p => (hunits p).2.1, fun p => (hunits p).2.2, hrecord, hout, hslots, hhistory,
    fun p => (hcures p).1, fun p => (hcures p).2, fun z => (hzones z).1, fun z => (hzones z).2.1,
    fun z => (hzones z).2.2, hwaits, fun p => (howed p).1, fun p => (howed p).2, hplaced,
    fun p => (hejectors p).1, fun p => (hejectors p).2, hprofiles, hchanges⟩

end Sys2Proof.Proofs.WarmResets
end
